-- ==== Sys2Proof/Word.lean ====
section
/-! DEFINITION. The word types of the machine (R7, R8) and the sparse table that holds numbered storage. -/
namespace Sys2Proof

/-- A byte, a half, a word, a dword (R8). -/
abbrev Byte := BitVec 8
abbrev Half := BitVec 16
abbrev Word := BitVec 32
abbrev Dword := BitVec 64

/-- A set of lanes of one warp, lane l at bit l (R18, R31). -/
abbrev Lanes := BitVec 32

/-- Register numbers as the operand fields name them (R45, R47). -/
abbrev VReg := BitVec 8
abbrev KReg := BitVec 6
abbrev PReg := BitVec 3
abbrev GReg := BitVec 3
abbrev SpReg := BitVec 3

/-- Storage numbered by naturals, as (number, value) pairs: numbers strictly rising, and no pair that holds the
default value, so that equal storages are equal data. -/
abbrev Tab (α : Type) := List (Nat × α)

end Sys2Proof
end

