-- ==== Sys2Proof/Machine/Bits.lean ====
section
/-! DEFINITION. Bit fields, packing by field widths, sign extension and byte order (R7, R11). -/
namespace Sys2Proof.Bits

/-- The n bits of a natural from bit lo up. -/
def field (x lo n : Nat) : Nat := x / 2 ^ lo % 2 ^ n

/-- Bit i of a natural. -/
def bit (x i : Nat) : Bool := x / 2 ^ i % 2 == 1

/-- A natural with the n bits from lo up replaced. -/
def setField (x lo n v : Nat) : Nat :=
  x % 2 ^ lo + 2 ^ lo * (v % 2 ^ n) + 2 ^ (lo + n) * (x / 2 ^ (lo + n))

/-- The values of consecutive fields, the least significant first, cut from a natural. -/
def split : List Nat → Nat → List Nat
  | [], _ => []
  | w :: ws, x => x % 2 ^ w :: split ws (x / 2 ^ w)

/-- The natural whose consecutive fields, the least significant first, hold the values. -/
def pack : List (Nat × Nat) → Nat
  | [] => 0
  | (w, v) :: r => v % 2 ^ w + 2 ^ w * pack r

/-- The low n bits read as two's complement. -/
def signed (n x : Nat) : Int :=
  if x % 2 ^ n < 2 ^ (n - 1) then (x % 2 ^ n : Nat) else (x % 2 ^ n : Nat) - (2 ^ n : Nat)

/-- An integer modulo 2^n. -/
def wrap (n : Nat) (z : Int) : Nat := (z % (2 ^ n : Nat)).toNat

/-- SignExtend(b, m) of R11 for b of n bits. -/
def sext (n m x : Nat) : BitVec m := BitVec.ofInt m (signed n x)

/-- The natural held by bytes, the byte of lowest address first (R7). -/
def ofBytes : List Byte → Nat
  | [] => 0
  | b :: r => b.toNat + 256 * ofBytes r

/-- The n bytes of a natural, the lowest first (R7). -/
def toBytes (x : Nat) : Nat → List Byte
  | 0 => []
  | n + 1 => BitVec.ofNat 8 x :: toBytes (x / 256) n

def ofBool (b : Bool) : Nat := if b then 1 else 0

/-- The number of set bits. -/
def popcount : Nat → Nat → Nat
  | 0, _ => 0
  | n + 1, x => x % 2 + popcount n (x / 2)

/-- The lanes of a set, in ascending order. -/
def lanes (m : Lanes) : List Nat := (List.range 32).filter fun l => m.getLsbD l

/-- The lowest-numbered lane of a set. -/
def lowest (m : Lanes) : Option Nat := (List.range 32).find? fun l => m.getLsbD l

/-- The set that holds one lane. -/
def lane (l : Nat) : Lanes := BitVec.ofNat 32 (2 ^ l)

/-- The set of the lanes in a list. -/
def laneSet (ls : List Nat) : Lanes := ls.foldl (fun m l => m ||| lane l) 0

/-- The number of lanes in a set. -/
def count (m : Lanes) : Nat := popcount 32 m.toNat

/-- The set of the first n lanes. -/
def firstLanes (n : Nat) : Lanes := BitVec.ofNat 32 (2 ^ (min n 32) - 1)

/-- Ceiling of a quotient. -/
def cdiv (a b : Nat) : Nat := (a + b - 1) / b

end Sys2Proof.Bits
end

