-- ==== Sys2Proof/Syntax.lean ====
section
/-! DEFINITION. The instructions, the microwords and the device's own steps: one constructor of Instr per row of
the opcode table. Operand types follow R45 to R54 and the instruction chapters; the rows from resultWriteback on
are events, whose arguments say where they occur and carry what comes from outside the device. -/
namespace Sys2Proof

/-- CORE.KIND (R20). -/
inductive CoreKind where
  | sc | tt | rc
  deriving DecidableEq, Repr, Inhabited

/-- A core, by kind, die and index within its die (R12). -/
structure UnitId where
  kind : CoreKind
  die : Nat
  idx : Nat
  deriving DecidableEq, Repr, Inhabited

/-- The head of an instruction word (R50). -/
structure Head where
  stl : BitVec 4
  wtm : BitVec 6
  sbt : BitVec 3
  pg : BitVec 3
  pn : Bool
  deriving DecidableEq, Repr, Inhabited

/-- Operand B of a compute form, by BSEL (R62). -/
inductive SrcB where
  | v (r : VReg)
  | k (r : KReg)
  | lit (x : Dword)
  deriving DecidableEq, Repr, Inhabited

/-- Rounding modes (R62). -/
inductive Round where
  | rne | rtz | rup | rdn | sto
  deriving DecidableEq, Repr, Inhabited

/-- Comparison codes (R62). -/
inductive Cmp where
  | eq | ne | lt | le | gt | ge | ltu | leu | gtu | geu | ord | uno
  deriving DecidableEq, Repr, Inhabited

/-- Scopes (R19). -/
inductive Scope where
  | warp | team | cluster | die | pkg | domain | sys
  deriving DecidableEq, Repr, Inhabited

/-- ORD of format M (R52). -/
inductive MemOrd where
  | relaxed | acquire | release | acqRel
  deriving DecidableEq, Repr, Inhabited

/-- AS of format M (R53). -/
inductive Space where
  | gl | glk | sp | kc | spc (n : BitVec 2)
  deriving DecidableEq, Repr, Inhabited

/-- WID of format M (R53). -/
inductive Wid where
  | b8 | s8 | b16 | s16 | b32 | b64 | b128
  deriving DecidableEq, Repr, Inhabited

/-- The offset of a memory operand: OFF8, or the literal word's byte offset (R54, R163). -/
inductive Off where
  | short (o : BitVec 8)
  | lit (o : BitVec 32)
  deriving DecidableEq, Repr, Inhabited

/-- A memory operand of format M (R52). -/
structure MemRef where
  space : Space
  base : BitVec 8
  off : Off
  deriving DecidableEq, Repr, Inhabited

/-- The ordering, scope and hint fields of format M (R52, R162). -/
structure MemFlags where
  ord : MemOrd
  sc : Scope
  ch : Bool
  lh : Bool
  ht : Bool
  deriving DecidableEq, Repr, Inhabited

/-- Atomic operations (R174). -/
inductive AtomOp where
  | add | and | or | xor | min | max | minu | maxu | xchg | cas | inc | dec | fadd | fmin | fmax
  deriving DecidableEq, Repr, Inhabited

/-- Type codes of the conversion forms (R115). -/
inductive Ty where
  | f32 | f19 | bf16 | f16 | e5m2 | e4m3 | e3m4 | e3m2 | e2m3 | e2m1 | i8 | n8 | i4 | n4 | t2
  | f64 | i16 | n16 | i32 | n32 | i64 | n64
  deriving DecidableEq, Repr, Inhabited

/-- REDUX and SCAN operations (R127). -/
inductive RedOp where
  | add | and | or | xor | min | max | minu | maxu | fadd | fmin | fmax | hxadd
  deriving DecidableEq, Repr, Inhabited

/-- SHFL modes (R124). -/
inductive ShflMode where
  | idx | up | down | xor
  deriving DecidableEq, Repr, Inhabited

/-- VOTE modes (R126). -/
inductive VoteMode where
  | all | any | eq | ballot
  deriving DecidableEq, Repr, Inhabited

/-- The source lane of BCAST (R125). -/
inductive BcastSrc where
  | k (r : KReg)
  | lit (x : Dword)
  | first
  deriving DecidableEq, Repr, Inhabited

/-- A tile operand (R47): direction and tile register. -/
inductive TileDir where
  | row | col | diag
  deriving DecidableEq, Repr, Inhabited

structure TileRef where
  dir : TileDir
  n : BitVec 4
  deriving DecidableEq, Repr, Inhabited

/-- The index of MOVT, by ISRC (R197). -/
inductive MovtIdx where
  | imm (i : BitVec 5)
  | k (r : KReg)
  | v (r : VReg)
  deriving DecidableEq, Repr, Inhabited

/-- The scope of a memory hurdle (R147). -/
inductive MemHurdleScope where
  | cluster | die | pkg | domain
  deriving DecidableEq, Repr, Inhabited

/-- The lap count of LSET (R142). -/
inductive LsetCount where
  | imm (n : BitVec 53)
  | k (r : KReg)
  deriving DecidableEq, Repr, Inhabited

/-- The source of LEASE (R178). -/
inductive LeaseSrc where
  | imm (n : BitVec 12)
  | k (r : KReg)
  deriving DecidableEq, Repr, Inhabited

/-- The source of MOVK (R108): an immediate, or a k register plus one. -/
inductive MovkSrc where
  | imm
  | add (r : KReg)
  deriving DecidableEq, Repr, Inhabited

/-- The immediate of MOVI and MOVK: IMM, or the literal word (R54, R108). -/
inductive Imm where
  | short (i : BitVec 23)
  | lit (x : Dword)
  deriving DecidableEq, Repr, Inhabited

/-- A register of either file, for the forms with a K bit. -/
inductive VK where
  | v (r : VReg)
  | k (r : KReg)
  deriving DecidableEq, Repr, Inhabited

/-- The destination of MOV (R107). -/
inductive MovDst where
  | v (r : VReg)
  | w (r : VReg)
  | k (r : KReg)
  | wk (r : KReg)
  deriving DecidableEq, Repr, Inhabited

/-- The form of PMOV (R121). -/
inductive PmovForm where
  | tov (d : VReg)
  | fromv (a : VReg)
  | sp (d : PReg) (a : SpReg)
  deriving DecidableEq, Repr, Inhabited

/-- EVX operations (R210). -/
inductive EvxOp where
  | fadd | fsub | fmul | fmin | fmax | fmov | fexp2 | frcp | frsq | ftanh | iadd | imax | imul | flog2 | imov
  deriving DecidableEq, Repr, Inhabited

/-- ERED operations (R211). -/
inductive EredOp where
  | fadd | fmax | fmin | iadd | imax | imin | fssq | famax
  deriving DecidableEq, Repr, Inhabited

/-- COLL operations and combinations (R226). -/
inductive CollOp where
  | allred | redsc | allgat | bcast
  deriving DecidableEq, Repr, Inhabited

inductive CollRed where
  | fadd | fmax | iadd | imax
  deriving DecidableEq, Repr, Inhabited

/-- The operand fields of format E (R52). -/
structure EFields where
  d : KReg
  q : BitVec 2
  sa : BitVec 4
  sb : BitVec 4
  sd : BitVec 4
  fb : BitVec 6
  ti : BitVec 6
  deriving DecidableEq, Repr, Inhabited

/-- The unit a TRACE names (R297). -/
inductive GUnit where
  | trav | raster | depth
  deriving DecidableEq, Repr, Inhabited

/-- The fields of a microword (R293). -/
structure Micro where
  d : BitVec 6
  a : BitVec 6
  b : BitVec 6
  c : BitVec 6
  im : Bool
  sn : Bool
  int : Bool
  imm : BitVec 16
  deriving DecidableEq, Repr, Inhabited

/-- A replication update as a die receives it (R336). -/
structure UpdateMsg where
  addr : Nat
  words : List (Nat × Word)
  vc : List Nat
  stamper : Nat
  ptn : Nat
  home : Nat
  deriving DecidableEq, Repr, Inhabited

/-- A contribution of a member to a collective (R226, R334): its tile as a word of the group descriptor, and words of its
source from the first on, of the total. -/
structure CollMsg where
  desc : Dword
  seq : Nat
  src : Nat
  op : CollOp
  red : CollRed
  first : Nat
  total : Nat
  data : List Word
  deriving DecidableEq, Repr, Inhabited

/-- A transport frame (R333), its messages as bytes. -/
structure Frame where
  seq : Nat
  ackSeq : Nat
  sack : BitVec 32
  cls : Nat
  ver : Nat
  src : Nat
  dst : Nat
  body : List Byte
  deriving DecidableEq, Repr, Inhabited

/-- Where an access from outside comes from: BAR0 or BAR2 of the physical function (fn 0) or of a virtual function, the decoder of
CXL.mem, or a host core of a die with the VMID that it carries (R318, R329, R339). -/
inductive HostFrom where
  | bar0
  | bar2 (fn : Nat)
  | hdm
  | core (die : Nat) (vmid : Option Nat)
  deriving DecidableEq, Repr, Inhabited

/-- A management-port record (R422). -/
structure MgmtRec where
  arg1 : Dword
  arg0 : Dword
  addr : Dword
  tag : Dword
  kind : BitVec 2
  die : BitVec 1
  unit : BitVec 8
  cmd : BitVec 8
  resv : Bool
  deriving DecidableEq, Repr, Inhabited

/-- An agent that sends heartbeats: the management node of a domain die, or the host complex of a die (R407). -/
inductive Agent where
  | die (t : Nat)
  | host (d : Nat)
  deriving DecidableEq, Repr, Inhabited

/-- Storage that carries error-correcting codes (R405): of a translation buffer or the walk cache of a die, an entry is what a step
names. -/
inductive Storage where
  | reg (u : UnitId) (slot : Nat)
  | sram (u : UnitId)
  | tile (u : UnitId)
  | cache (u : UnitId)
  | tlb (die buf : Nat)
  | walks (die : Nat)
  | slice
  | dram
  | version
  | control (u : UnitId)
  deriving DecidableEq, Repr, Inhabited

/-- Register files (R45, R379); x is the model's own, for texels that a sample waits for. -/
inductive RFile where
  | v | k | p | t | sq | sp | g | x
  deriving DecidableEq, Repr, Inhabited

inductive Instr where
  -- control (R129)
  | nop (h : Head) (lit : Option Dword)
  | bra (h : Head) (tgt : BitVec 20) (joff : BitVec 12) (dh : BitVec 2)
  | jmp (h : Head) (tgt : BitVec 20) (dh : BitVec 2)
  | brx (h : Head) (a : VReg) (joff : BitVec 12)
  | call (h : Head) (d : VReg) (x : Bool) (off : Dword)
  | callx (h : Head) (d a : VReg)
  | ret (h : Head) (a : VReg)
  | exit (h : Head)
  | yield (h : Head)
  | sleep (h : Head) (a : KReg) (rel : Bool)
  | lset (h : Head) (lvl : BitVec 2) (x : Bool) (n : LsetCount) (len : BitVec 11)
  | lrot (h : Head) (lvl : BitVec 2) (x : Bool) (stg : BitVec 4) (size : BitVec 9) (base : BitVec 8)
  | lbrk (h : Head) (lvl : BitVec 2)
  | hurd (h : Head) (x : Bool) (hd : BitVec 4) (n : BitVec 11)
  | hurdMem (h : Head) (x : Bool) (sc : MemHurdleScope) (a : KReg)
  | harr (h : Head) (x : Bool) (hd : BitVec 4) (n : BitVec 11)
  | harrMem (h : Head) (x : Bool) (sc : MemHurdleScope) (d : PReg) (a : KReg)
  | hwt (h : Head) (x : Bool) (hd : BitVec 4) (n : BitVec 11)
  | hwtMem (h : Head) (x : Bool) (sc : MemHurdleScope) (d : PReg) (a : KReg)
  | spawn (h : Head) (a : VReg) (x : Bool) (words : BitVec 4) (off : BitVec 60)
  | task (h : Head) (d : KReg) (a : KReg) (x : Bool) (off : Dword)
  | fwait (h : Head) (d : VK) (a : VK)
  | ftest (h : Head) (d : PReg) (a : VK)
  | cancel (h : Head) (d : VK) (a : VK)
  | baton (h : Head) (d a : VReg) (x : Bool) (words : BitVec 4) (off : BitVec 60)
  | regx (h : Head) (d : PReg) (x : Bool) (n : BitVec 6)
  | regs (h : Head) (x : Bool) (n : BitVec 6)
  | trap (h : Head) (x : Bool) (code : BitVec 8)
  | eretRetry (h : Head)
  | eretSkip (h : Head)
  | eretKill (h : Head)
  | srd (h : Head) (d : VK) (x : Bool) (spec : BitVec 12)
  | swr (h : Head) (a : VK) (x : Bool) (spec : BitVec 12)
  | park (h : Head) (a b : KReg)
  | unparkRetry (h : Head) (a b : KReg)
  | unparkSkip (h : Head) (a b : KReg)
  -- integer (R99 to R105)
  | iadd (h : Head) (d a : VReg) (b : SrcB) (w sat u : Bool)
  | isub (h : Head) (d a : VReg) (b : SrcB) (w sat u : Bool)
  | imul (h : Head) (d a : VReg) (b : SrcB) (sat u : Bool)
  | imulh (h : Head) (d a : VReg) (b : SrcB) (u : Bool)
  | imad (h : Head) (d a : VReg) (b : SrcB) (c : VReg) (sat u : Bool)
  | imadw (h : Head) (d a : VReg) (b : SrcB) (c : VReg) (sat u : Bool)
  | imin (h : Head) (d a : VReg) (b : SrcB) (u : Bool)
  | imax (h : Head) (d a : VReg) (b : SrcB) (u : Bool)
  | iabs (h : Head) (d a : VReg) (sat : Bool)
  | and (h : Head) (d a : VReg) (b : SrcB)
  | or (h : Head) (d a : VReg) (b : SrcB)
  | xor (h : Head) (d a : VReg) (b : SrcB)
  | andn (h : Head) (d a : VReg) (b : SrcB)
  | not (h : Head) (d a : VReg)
  | lop3 (h : Head) (d a : VReg) (b : SrcB) (lut : BitVec 8)
  | shl (h : Head) (d a : VReg) (b : SrcB) (w clamp : Bool)
  | shr (h : Head) (d a : VReg) (b : SrcB) (w clamp : Bool)
  | sar (h : Head) (d a : VReg) (b : SrcB) (w clamp : Bool)
  | rotl (h : Head) (d a : VReg) (b : SrcB) (w : Bool)
  | clz (h : Head) (d a : VReg)
  | ctz (h : Head) (d a : VReg)
  | popc (h : Head) (d a : VReg)
  | brev (h : Head) (d a : VReg)
  | bfx (h : Head) (d a : VReg) (b : SrcB) (u : Bool)
  | bfi (h : Head) (d a : VReg) (b : SrcB) (c : VReg)
  | ilv (h : Head) (d a : VReg) (b : SrcB) (c : VReg) (three : Bool)
  | dlv (h : Head) (d a : VReg) (b : SrcB) (three : Bool)
  | icmp (h : Head) (cc : Cmp) (d : PReg) (a : VReg) (b : SrcB) (c : PReg)
  | isel (h : Head) (d a : VReg) (b : SrcB) (c : PReg)
  | mov (h : Head) (d : MovDst) (b : SrcB)
  | movi (h : Head) (d : VReg) (w : Bool) (imm : Imm)
  | movk (h : Head) (d : KReg) (src : MovkSrc) (imm : Imm)
  | lea (h : Head) (d a : VReg) (b : SrcB) (s : BitVec 3) (u : Bool)
  | cvt (h : Head) (d a : VReg) (dst src : Ty) (rm : Round) (sat : Bool)
  | pack (h : Head) (d a : VReg) (dst src : Ty) (rm : Round) (sat : Bool)
  | unpk (h : Head) (d a : VReg) (dst src : Ty)
  | plop (h : Head) (d a b c : PReg) (lut : BitVec 4) (or : Bool)
  | pmov (h : Head) (f : PmovForm)
  | part (h : Head) (d : GReg) (size : BitVec 2)
  | shfl (h : Head) (m : ShflMode) (d a : VReg) (b : SrcB) (c : VReg) (g : GReg)
  | vote (h : Head) (m : VoteMode) (d : BitVec 8) (a : PReg) (g : GReg)
  | redux (h : Head) (op : RedOp) (d a : VReg) (g : GReg)
  | scan (h : Head) (op : RedOp) (d a : VReg) (g : GReg) (excl : Bool)
  | bcast (h : Head) (d a : VReg) (b : BcastSrc) (c : VReg) (g : GReg)
  | matchV (h : Head) (d a : VReg) (g : GReg) (w : Bool)
  -- floating point (R110 to R114)
  | fadd (h : Head) (d a : VReg) (b : SrcB) (sat : Bool)
  | fsub (h : Head) (d a : VReg) (b : SrcB) (sat : Bool)
  | fmul (h : Head) (d a : VReg) (b : SrcB) (sat : Bool)
  | ffma (h : Head) (d a : VReg) (b : SrcB) (c : VReg) (sat : Bool)
  | fmin (h : Head) (d a : VReg) (b : SrcB)
  | fmax (h : Head) (d a : VReg) (b : SrcB)
  | fcmp (h : Head) (cc : Cmp) (d : PReg) (a : VReg) (b : SrcB) (c : PReg)
  | frcp (h : Head) (d a : VReg)
  | frsq (h : Head) (d a : VReg)
  | fsqrt (h : Head) (d a : VReg)
  | fexp2 (h : Head) (d a : VReg)
  | flog2 (h : Head) (d a : VReg)
  | fsin (h : Head) (d a : VReg)
  | fcos (h : Head) (d a : VReg)
  | ftanh (h : Head) (d a : VReg)
  | frnd (h : Head) (d a : VReg) (rm : Round)
  | ffrc (h : Head) (d a : VReg)
  | hxadd (h : Head) (d a : VReg) (b : SrcB) (sat : Bool)
  | hxmul (h : Head) (d a : VReg) (b : SrcB) (sat : Bool)
  | hxfma (h : Head) (d a : VReg) (b : SrcB) (c : VReg) (sat : Bool)
  | hxmax (h : Head) (d a : VReg) (b : SrcB) (min : Bool)
  | dadd (h : Head) (d a : VReg) (b : SrcB)
  | dmul (h : Head) (d a : VReg) (b : SrcB)
  | dfma (h : Head) (d a : VReg) (b : SrcB) (c : VReg)
  | dcmp (h : Head) (cc : Cmp) (d : PReg) (a : VReg) (b : SrcB) (c : PReg)
  -- memory (R162 to R189)
  | ld (h : Head) (d : VReg) (m : MemRef) (w : Wid) (f : MemFlags)
  | st (h : Head) (d : VReg) (m : MemRef) (w : Wid) (f : MemFlags)
  | lds (h : Head) (d : VReg) (m : MemRef) (w : Wid) (f : MemFlags)
  | sts (h : Head) (d : VReg) (m : MemRef) (w : Wid) (f : MemFlags)
  | ldk (h : Head) (d : KReg) (m : MemRef) (w : Wid) (f : MemFlags)
  | ldm (h : Head) (d : KReg) (m : MemRef) (w : Wid) (f : MemFlags)
  | atom (h : Head) (d b c : VReg) (op : AtomOp) (m : MemRef) (w : Wid) (f : MemFlags)
  | atoms (h : Head) (d b c : VReg) (op : AtomOp) (m : MemRef) (w : Wid) (f : MemFlags)
  | red (h : Head) (b : VReg) (op : AtomOp) (m : MemRef) (w : Wid) (f : MemFlags)
  | fence (h : Head) (ord : MemOrd) (sc : Scope)
  | fxp (h : Head) (x : Bool) (prod cons : BitVec 7) (sc : Scope)
  | pref (h : Head) (m : MemRef) (n : Wid) (f : MemFlags)
  | lease (h : Head) (x : Bool) (s : LeaseSrc)
  | cflush (h : Head) (m : MemRef) (n : Wid) (f : MemFlags)
  | hset (h : Head) (a : VK)
  | hnew (h : Head) (d a : VK)
  | hresConfirm (h : Head) (d a : KReg)
  | hresRefute (h : Head) (d a : KReg)
  | hqryInfo (h : Head) (d a : KReg)
  | hqryAnc (h : Head) (d : PReg) (a b : VReg)
  -- gang and engine forms (R190 to R227)
  | gang (h : Head) (a : KReg)
  | mma (h : Head) (d : TileRef) (a : VReg) (b : KReg) (c : VReg) (sparse sel : Bool)
  | movt (h : Head) (t : TileRef) (r : VReg) (write : Bool) (i : MovtIdx)
  | tzero (h : Head) (d : TileRef)
  | tld (h : Head) (d : TileRef) (m : MemRef) (w : Wid) (f : MemFlags)
  | tst (h : Head) (d : TileRef) (m : MemRef) (w : Wid) (f : MemFlags)
  | strec (h : Head) (e : EFields)
  | emm (h : Head) (e : EFields) (acc sparse : Bool)
  | evx (h : Head) (e : EFields) (op : EvxOp) (bs : Bool)
  | ered (h : Head) (e : EFields) (op : EredOp)
  | ecpy (h : Head) (e : EFields) (ch : BitVec 4) (mc : Bool)
  | emode (h : Head) (e : EFields) (rm : Round)
  | enote (h : Head) (e : EFields) (tag : BitVec 5)
  | ewait (h : Head) (e : EFields) (tag : BitVec 5)
  | esave (h : Head) (e : EFields)
  | eres (h : Head) (e : EFields)
  | wmrd (h : Head) (e : EFields) (ch : BitVec 4)
  | wmset (h : Head) (e : EFields) (ch : BitVec 4)
  | wmsetOff (h : Head) (e : EFields) (ch : BitVec 4)
  | coll (h : Head) (e : EFields) (op : CollOp) (red : CollRed)
  -- graphics (R297)
  | trace (h : Head) (d a : VReg) (b : KReg) (u : GUnit) (any : Bool)
  | tqry (h : Head) (d a : VReg) (keep : Bool)
  | texs (h : Head) (d a : VReg) (b : KReg)
  | texl (h : Head) (d a : VReg) (b : KReg)
  | texg (h : Head) (d a : VReg) (b : KReg) (c : BitVec 2)
  | ordb (h : Head) (a : VReg)
  | orde (h : Head) (a : VReg)
  | refit (h : Head) (d a : KReg)
  -- microwords (R293, R294), acting on the slot of State.mcur
  | nfetchFetch (m : Micro)
  | nfetchRaw (m : Micro)
  | nfetchChild (m : Micro)
  | pfetch (m : Micro)
  | xfma (m : Micro)
  | xmul (m : Micro)
  | xmin (m : Micro)
  | xmax (m : Micro)
  | xcmp (m : Micro) (cc : Cmp)
  | xsel (m : Micro)
  | xrcp (m : Micro)
  | xrcpSq (m : Micro)
  | spush (m : Micro)
  | spop (m : Micro)
  | microGo (m : Micro)
  | goif (m : Micro)
  | emitHit (m : Micro)
  | emitSpawn (m : Micro)
  | emitSpord (m : Micro)
  | emitOut (m : Micro)
  | lazy (m : Micro)
  | microDone (m : Micro)
  -- events of warps and cores
  | resultWriteback (u : UnitId) (slot id : Nat) (lanes : Lanes) (regs : BitVec 16)
  | spawnBinDeadline (u : UnitId) (bin : Nat)
  | poolSlotTake (u : UnitId) (slot : Nat)
  | pendingWarpStart (die slice : Nat)
  | binLaunchRetry (u : UnitId) (bin : Nat)
  | taskDispatch (u : UnitId)
  | taskPriorityAgeing (u : UnitId)
  | fenceSlotWaitEnd (u : UnitId) (slot : Nat)
  | queueRoomWaitEnd (u : UnitId) (slot : Nat)
  | regxGrant (u : UnitId)
  | regxRefusal (u : UnitId)
  | sleepRelease (u : UnitId) (slot path : Nat)
  | parkDeferred (u : UnitId) (slot lane : Nat)
  | warpRetire (u : UnitId) (slot : Nat)
  | trapTaken (u : UnitId)
  | gangMmaDone (u : UnitId) (latch : Nat)
  | gangtime (u : UnitId) (latch : Nat)
  | colldead (u : UnitId) (team : Nat)
  | wdog (u : UnitId) (slot : Nat)
  | deadline (u : UnitId)
  -- events of the memory system
  | loadRequestAtHome (op : Nat)
  | dataReply (op : Nat)
  | storeAtHome (op : Nat)
  | atomicAtHome (op : Nat)
  | storeAck (op : Nat)
  | leaseTick (agent : Nat)
  | packageTimeExchange
  | replicaStamp (op : Nat)
  | update (die : Nat) (m : UpdateMsg)
  | updateApply (die i : Nat)
  | applied (die : Nat) (addr stamper src : Nat)
  | ldmSegmentRequest (op slice : Nat)
  | mergeWindowClose (w : Nat)
  | multicastBeat (w : Nat)
  | ldmBeatArrival (op : Nat)
  | memoryHurdleArrival (op : Nat)
  | pageWalk (u : UnitId) (va : Dword)
  | translationInvalidation (die : Nat) (v : Dword)
  | invalidationDone (die : Nat)
  | resolveArrival (i : Nat)
  | hypothesisStateNotice (u : UnitId)
  | resolveCoreAck (u : UnitId)
  | versionSweep (ctx : Nat)
  | versionSpaceFreed (op : Nat)
  | vsfull (op : Nat)
  -- events of the engines and copies
  | engineCommandStart (u : UnitId) (q : Nat)
  | engineIssueTime (u : UnitId) (q : Nat)
  | matrixEngineStep (u : UnitId)
  | vectorEngineStep (u : UnitId)
  | emodeApply (u : UnitId) (q : Nat)
  | enoteReached (u : UnitId) (q : Nat)
  | copyBufferEntry (u : UnitId)
  | copySend (u : UnitId)
  | dieCopySend (die e : Nat)
  | sliceRunLoad (die slice : Nat) (u : UnitId)
  | flitArrival (flit : Nat)
  | bridgeCrossing (flit : Nat)
  | collContribution (u : UnitId) (m : CollMsg)
  | collResend (u : UnitId) (i : Nat)
  | colltime (u : UnitId)
  -- events of the graphics units
  | fetchDataReturn (u : UnitId) (g : GUnit) (slot : Nat)
  | lazyWake (u : UnitId) (g : GUnit) (slot : Nat)
  | interlockRegistration (u : UnitId) (g : GUnit) (slot : Nat)
  | refitStart (die : Nat)
  | refitNode (die i : Nat)
  -- events of the distributor, regulators and display
  | launchEntryTake (die : Nat) (ctx queue : Nat)
  | queueHeaderPoll (die : Nat)
  | placementPass (die : Nat)
  | carveoutSwitch (u : UnitId) (code : Nat)
  | congestionWindow (die : Nat) (occ : List Nat)
  | admissionTimeout (u : UnitId) (slot : Nat)
  | bucketRefill (die n c : Nat)
  | regulatorRelease (die n c : Nat)
  | headUrgent (die hd : Nat)
  | headRecovery (die hd : Nat)
  | bulkScalingChange (die n : Nat)
  | displayLineDue (die hd : Nat)
  | verticalBlank (die hd : Nat)
  | encoderFrame (die e : Nat) (bytes : List Byte)
  | qosrep (die n c : Nat)
  -- events of switches, registers and the platform
  | slctlGo (die slice : Nat) (v : Dword)
  | switchComplete (die slice : Nat)
  | poolfull (u : UnitId) (slot lane : Nat)
  | paceadjWrite (die : Nat) (v : Dword)
  | ringSwapRequest (die : Nat) (v : Dword)
  | ringBankSwap (die : Nat)
  | qosWrite (die n c : Nat) (v : Dword)
  | qstatSelfRead (die n c : Nat)
  | hqosUrgnRead (die hd : Nat)
  | pwrstatLimitedRead (die : Nat)
  | registerWrite (die off : Nat) (v : Dword)
  | attctlGo (die : Nat) (v : Dword)
  | attestationDone (die : Nat)
  | coldReset
  | warm (die : Nat) (v : Dword)
  | bringUpStep (images : List (List Byte)) (mods : List (Option Nat))
  | powerWindow (watts : Nat)
  | wearUpdate (die : Nat) (rodrift emstress srmargin : Nat) (hours : Nat)
  | wearEol (die : Nat)
  | thermal (die kind temp : Nat)
  | thermalPowerOff
  | heartbeatSend (a : Agent)
  | heartbeat (die : Nat) (a : Agent) (count : Nat)
  | agentDown (die : Nat) (a : Agent)
  | scrub (die : Nat) (a : Agent)
  | replayDrain (w : Nat)
  | replayExchange (w : Nat) (entries : List UpdateMsg)
  | replayApply (w : Nat)
  | homePromote (w : Nat)
  | replayAcks (w : Nat)
  | linkErr (die module flit : Nat)
  | meshModuleDown (module : Nat)
  | frameReceive (die : Nat) (bytes : List Byte)
  | frameResend (die dst cls seq : Nat)
  | connectionDown (die dst cls : Nat)
  | ptpMessage (die : Nat) (ofs : BitVec 32) (lock : Bool)
  | inboundRead (src : HostFrom) (pa n : Nat)
  | inboundWrite (src : HostFrom) (pa : Nat) (bytes : List Byte)
  | expanderAccess (op : Nat)
  | halt (r : MgmtRec)
  | resume (r : MgmtRec)
  | snap (r : MgmtRec)
  | fwload (r : MgmtRec) (signed sig : List Byte)
  | ckpt (r : MgmtRec)
  | checkpointTransfer
  | checkpointCommit
  | ckrecv (r : MgmtRec)
  | ckrest (r : MgmtRec) (remote : List Byte)
  | unknownManagementCommand (r : MgmtRec)
  | scratchpadPortAccess (op : Nat)
  | copyFlitLoad (u : UnitId)
  | copyChunkArrival (die e : Nat)
  | scanOutFifoFill (die hd lines : Nat)
  | softError (st : Storage) (addr : Nat) (two : Bool)
  | blockThrottle (u : UnitId) (up : Bool)
  deriving DecidableEq, Repr, Inhabited

end Sys2Proof
end

