-- ==== Sys2Proof/Machine/Float.lean ====
section
/-! DEFINITION. Number formats and arithmetic: exact values, decoding, rounding, and the lane operations
(R72 to R95, R110 to R118). -/
namespace Sys2Proof.Num

/-- The value of a floating-point encoding; the sign is kept for zero (R76). -/
inductive FVal where
  | nan
  | inf (neg : Bool)
  | fin (neg : Bool) (q : Rat)
  deriving DecidableEq, Repr, Inhabited

/-- 2^e as a rational. -/
def pow2 (e : Int) : Rat := if e ≥ 0 then ((2 ^ e.toNat : Nat) : Rat) else mkRat 1 (2 ^ (-e).toNat)

/-- The layout of a floating-point format (R75): widths of E and M, bias, infinities, the NaN of E4M3 and E3M4, and
the number of container bits below M (13 for F19, R77). -/
structure FFmt where
  e : Nat
  m : Nat
  bias : Nat
  inf : Bool
  topNan : Bool
  low : Nat
  deriving DecidableEq, Repr, Inhabited

/-- A conversion type: floating point, or an integer of a width and a sign (R73 to R75, R115). T2 is the signed
integer of the values -1, 0 and 1. -/
inductive Fmt where
  | fl (f : FFmt)
  | int (w : Nat) (s : Bool)
  | t2
  deriving DecidableEq, Repr, Inhabited

def f64 : FFmt := ⟨11, 52, 1023, true, false, 0⟩
def f32 : FFmt := ⟨8, 23, 127, true, false, 0⟩
def f16 : FFmt := ⟨5, 10, 15, true, false, 0⟩

/-- The layout of each type code (R75, R115). -/
def fmtOf : Ty → Fmt
  | .f32 => .fl f32
  | .f19 => .fl ⟨8, 10, 127, true, false, 13⟩
  | .bf16 => .fl ⟨8, 7, 127, true, false, 0⟩
  | .f16 => .fl f16
  | .e5m2 => .fl ⟨5, 2, 15, true, false, 0⟩
  | .e4m3 => .fl ⟨4, 3, 7, false, true, 0⟩
  | .e3m4 => .fl ⟨3, 4, 3, false, true, 0⟩
  | .e3m2 => .fl ⟨3, 2, 3, false, false, 0⟩
  | .e2m3 => .fl ⟨2, 3, 1, false, false, 0⟩
  | .e2m1 => .fl ⟨2, 1, 1, false, false, 0⟩
  | .i8 => .int 8 true
  | .n8 => .int 8 false
  | .i4 => .int 4 true
  | .n4 => .int 4 false
  | .t2 => .t2
  | .f64 => .fl f64
  | .i16 => .int 16 true
  | .n16 => .int 16 false
  | .i32 => .int 32 true
  | .n32 => .int 32 false
  | .i64 => .int 64 true
  | .n64 => .int 64 false

/-- Bits of an element of a type as it is packed (R72, R74, R117): six-bit types take a byte. -/
def containerBits : Ty → Nat
  | .f32 | .f19 | .i32 | .n32 => 32
  | .bf16 | .f16 | .i16 | .n16 => 16
  | .e5m2 | .e4m3 | .e3m4 | .e3m2 | .e2m3 | .i8 | .n8 => 8
  | .e2m1 | .i4 | .n4 => 4
  | .t2 => 2
  | .f64 | .i64 | .n64 => 64

/-- Largest finite magnitude of a format (R75). -/
def maxFin (f : FFmt) : Rat :=
  let top : Nat := if f.inf then 2 ^ f.e - 2 else 2 ^ f.e - 1
  let man : Nat := if f.topNan then 2 ^ (f.m + 1) - 2 else 2 ^ (f.m + 1) - 1
  (man : Rat) * pow2 ((top : Int) - f.bias - f.m)

/-- Decode(b, fmt) of R76. -/
def decodeF (f : FFmt) (b : Nat) : FVal :=
  let x := b / 2 ^ f.low
  let m := x % 2 ^ f.m
  let e := x / 2 ^ f.m % 2 ^ f.e
  let s := x / 2 ^ (f.m + f.e) % 2 == 1
  if f.inf && e == 2 ^ f.e - 1 then (if m == 0 then .inf s else .nan)
  else if f.topNan && e == 2 ^ f.e - 1 && m == 2 ^ f.m - 1 then .nan
  else
    let v : Rat := if e == 0 then (m : Rat) * pow2 (1 - (f.bias : Int) - f.m)
                   else ((2 ^ f.m + m : Nat) : Rat) * pow2 ((e : Int) - f.bias - f.m)
    .fin s (if s then -v else v)

/-- The value of an encoding of any type; T2 0b10 reads 0 (R74, R116). -/
def decode (t : Ty) (b : Nat) : FVal :=
  match fmtOf t with
  | .fl f => decodeF f b
  | .int w s => let z : Int := if s then Bits.signed w b else (b % 2 ^ w : Nat); .fin (z < 0) z
  | .t2 => match b % 4 with
    | 1 => .fin false 1
    | 3 => .fin true (-1)
    | _ => .fin false 0

/-- floor(log2 q) of a positive rational. -/
def floorLog2 (q : Rat) : Int :=
  let e : Int := (Nat.log2 q.num.toNat : Int) - Nat.log2 q.den
  if pow2 e ≤ q then e else e - 1

/-- The canonical NaN of a format, or 0 where it has none (R75, R85). -/
def nanOut (f : FFmt) : Nat :=
  if f.inf then (2 ^ (f.m + f.e) - 2 ^ (f.m - 1)) * 2 ^ f.low
  else if f.topNan then 2 ^ (f.m + f.e) - 1 else 0

def infEnc (f : FFmt) : Nat := (2 ^ f.e - 1) * 2 ^ f.m * 2 ^ f.low

/-- Encode of a magnitude on the grid of the format (R84). -/
def encodeMag (f : FFmt) (y : Rat) : Nat :=
  if y = 0 then 0
  else
    let emin : Int := 1 - (f.bias : Int)
    let e := floorLog2 y
    if e < emin then (y / pow2 (emin - f.m)).floor.toNat * 2 ^ f.low
    else (((e + f.bias).toNat * 2 ^ f.m) + ((y / pow2 (e - f.m)).floor.toNat - 2 ^ f.m)) * 2 ^ f.low

def signBit (f : FFmt) (neg : Bool) : Nat := if neg then 2 ^ (f.m + f.e + f.low) else 0

/-- One choice between the neighbours d and d + u of the magnitude x of a value of the given sign (Pick of R84, STO of
R86 with draw q). `even` says that d has an even last place; `tieUp` sends every RNE tie away from zero. -/
def pickUp (mode : Round) (q : Nat) (neg : Bool) (x d u : Rat) (even tieUp : Bool) : Bool :=
  match mode with
  | .rne => if x - d < u / 2 then false else if x - d > u / 2 then true else tieUp || !even
  | .rtz => false
  | .rup => !neg
  | .rdn => neg
  | .sto =>
    let up : Rat := (x - d) * 4294967296 / u
    let dn : Rat := (d + u - x) * 4294967296 / u
    if neg then decide (¬ ((q : Int) < dn.floor)) else decide ((q : Int) < up.floor)

/-- RoundTo of R84 into a floating-point format, with the draw q for STO. -/
def roundF (f : FFmt) (mode : Round) (q : Nat) (v : FVal) : Nat :=
  match v with
  | .nan => nanOut f
  | .inf s => signBit f s + (if f.inf then infEnc f else encodeMag f (maxFin f))
  | .fin s x =>
    if x = 0 then signBit f s
    else
      let neg := decide (x < 0)
      let a : Rat := if neg then -x else x
      let emin : Int := 1 - (f.bias : Int)
      let mx := maxFin f
      let past := decide (mx < a)
      let e := if past then floorLog2 mx else max (floorLog2 a) emin
      let u := pow2 (e - f.m)
      let d : Rat := if past then mx else ((a / u).floor : Rat) * u
      let y : Rat :=
        if a = d then d
        else if pickUp mode q neg a d u ((d / u).floor % 2 == 0) past then d + u else d
      signBit f neg + (if mx < y then (if f.inf then infEnc f else encodeMag f mx) else encodeMag f y)

/-- Pick over the integers (R84). -/
def roundInt (mode : Round) (q : Nat) (x : Rat) : Int :=
  let l := x.floor
  if x = (l : Rat) then l
  else
    let neg := decide (x < 0)
    let up : Bool := match mode with
      | .rne => if x - l < 1 / 2 then false else if x - l > 1 / 2 then true else l % 2 != 0
      | .rtz => neg
      | .rup => true
      | .rdn => false
      | .sto => decide ((q : Int) < ((x - l) * 4294967296).floor)
    if up then l + 1 else l

def clampInt (lo hi z : Int) : Int := max lo (min hi z)

/-- The range of an integer width (R73). -/
def intMin (w : Nat) (s : Bool) : Int := if s then -(2 ^ (w - 1) : Nat) else 0
def intMax (w : Nat) (s : Bool) : Int := if s then (2 ^ (w - 1) : Nat) - 1 else (2 ^ w : Nat) - 1

/-- RoundTo of R84 into any type: the encoding. -/
def roundTo (t : Ty) (mode : Round) (q : Nat) (v : FVal) : Nat :=
  match fmtOf t with
  | .fl f => roundF f mode q v
  | .int w s => match v with
    | .nan => 0
    | .inf n => Bits.wrap w (if n then intMin w s else intMax w s)
    | .fin _ x => Bits.wrap w (clampInt (intMin w s) (intMax w s) (roundInt mode q x))
  | .t2 => match v with
    | .nan => 0
    | .inf n => if n then 3 else 1
    | .fin _ x => let z := clampInt (-1) 1 (roundInt mode q x); if z < 0 then 3 else z.toNat

/-- Saturate of R85 on an encoding of the type. -/
def saturate (t : Ty) (b : Nat) : Nat :=
  match fmtOf t with
  | .fl f => match decodeF f b with
    | .inf s => signBit f s + encodeMag f (maxFin f)
    | _ => b
  | _ => b

/-- One conversion: RoundTo, then Saturate where selected (R85, R116). -/
def convert (dst src : Ty) (mode : Round) (q : Nat) (sat : Bool) (b : Nat) : Nat :=
  let r := roundTo dst mode q (decode src b)
  if sat then saturate dst r else r

/-- Draw(state) of R86. -/
def draw (s : Nat) : Nat := if s % 2 == 1 then (s / 2) ^^^ 0x80200003 else s / 2

/-- A state of 0 is replaced by 1 (R86). -/
def seedOf (s : Nat) : Nat := if s % 2 ^ 32 == 0 then 1 else s % 2 ^ 32

-- exact operations (R88)

def neg : FVal → FVal
  | .nan => .nan
  | .inf s => .inf (!s)
  | .fin s q => .fin (!s) (-q)

def add : FVal → FVal → FVal
  | .nan, _ | _, .nan => .nan
  | .inf s, .inf t => if s == t then .inf s else .nan
  | .inf s, _ => .inf s
  | _, .inf t => .inf t
  | .fin s x, .fin t y => .fin (if x + y = 0 then (x = 0 && s && t) else decide (x + y < 0)) (x + y)

def mul : FVal → FVal → FVal
  | .nan, _ | _, .nan => .nan
  | .inf s, .inf t => .inf (s != t)
  | .inf s, .fin t y => if y = 0 then .nan else .inf (s != t)
  | .fin s x, .inf t => if x = 0 then .nan else .inf (s != t)
  | .fin s x, .fin t y => .fin (s != t) (x * y)

def fma (a b c : FVal) : FVal := add (mul a b) c

def isNan : FVal → Bool
  | .nan => true
  | _ => false

/-- The order of R89: minus zero below plus zero; neither operand is a NaN. -/
def ltF : FVal → FVal → Bool
  | .inf true, .inf true => false
  | .inf true, _ => true
  | _, .inf true => false
  | .inf false, _ => false
  | _, .inf false => true
  | .fin s x, .fin t y => decide (x < y) || (decide (x = y) && s && !t)
  | _, _ => false

/-- Numeric comparison without the order of zeros (R62). -/
def cmpF (a b : FVal) : Option Ordering :=
  match a, b with
  | .nan, _ | _, .nan => none
  | .inf s, .inf t => some (if s == t then .eq else if s then .lt else .gt)
  | .inf s, _ => some (if s then .lt else .gt)
  | _, .inf t => some (if t then .gt else .lt)
  | .fin _ x, .fin _ y => some (if x < y then .lt else if x = y then .eq else .gt)

/-- Minimum and maximum under R89. -/
def fminV (a b : FVal) : FVal := if isNan a then b else if isNan b then a else if ltF b a then b else a
def fmaxV (a b : FVal) : FVal := if isNan a then b else if isNan b then a else if ltF a b then b else a

/-- Integer square root by binary digits, the highest first. -/
def isqrtGo (n : Nat) : Nat → Nat → Nat
  | 0, r => r
  | k + 1, r => let r' := r + 2 ^ k; isqrtGo n k (if r' * r' ≤ n then r' else r)

def isqrt (n : Nat) : Nat := isqrtGo n (Nat.log2 n / 2 + 1) 0

/-- A rational that rounds as the square root of a positive rational does: 2^-p below it holds a sticky half. -/
def sqrtQ (x : Rat) : Rat :=
  let p : Int := 80 - floorLog2 x / 2
  let s := (x * pow2 (2 * p)).floor.toNat
  let r := isqrt s
  let y : Rat := (r : Rat) * pow2 (-p)
  if y * y = x then y else (2 * r + 1 : Nat) * pow2 (-p - 1)

def recip : FVal → FVal
  | .nan => .nan
  | .inf s => .fin s 0
  | .fin s x => if x = 0 then .inf s else .fin s (1 / x)

def sqrtV : FVal → FVal
  | .nan => .nan
  | .inf s => if s then .nan else .inf false
  | .fin s x => if x = 0 then .fin s 0 else if x < 0 then .nan else .fin false (sqrtQ x)

def rsqrtV : FVal → FVal
  | .nan => .nan
  | .inf s => if s then .nan else .fin false 0
  | .fin s x => if x = 0 then .inf s else if x < 0 then .nan else .fin false (sqrtQ (1 / x))

-- elementary functions, in fixed point of 2^-256 with an error bound (R88)

/-- Fractional bits of the fixed point. -/
def fp : Nat := 256

/-- floor(pi * 2^420) and floor(ln 2 * 2^320). -/
def piQ : Nat := 8506444083868174897761245044461686771323923700309573190120836733458428361833437461212585903707197869053776263619362240579410812
def ln2Q : Nat := 1480553391661173448385607439722553250922680800745876974795605978609098082859138712941075737848984

/-- floor(q * 2^256). -/
def toFix (q : Rat) : Int := (q * pow2 fp).floor

/-- Sum of t, t*y/1, t*y^2/(1*2), ...: n further terms of the exponential series from term k. -/
def expGo (y : Int) : Nat → Nat → Int → Int
  | 0, _, _ => 0
  | n + 1, k, t => t + expGo y n (k + 1) (t * y / 2 ^ fp / (k + 1 : Nat))

/-- exp(y) - 1 for a fixed-point y in [0, 1). -/
def expm1Fix (y : Int) : Int := expGo y 64 1 y

/-- Series of alternating terms for sine and cosine: t, then t times -y^2/((k+1)(k+2)). -/
def trigGo (y2 : Int) : Nat → Nat → Int → Int
  | 0, _, _ => 0
  | n + 1, k, t => t + trigGo y2 n (k + 2) (-(t * y2 / 2 ^ fp / ((k + 1) * (k + 2) : Nat)))

def sinFix (y : Int) : Int := trigGo (y * y / 2 ^ fp) 36 1 y
def cosFix (y : Int) : Int := trigGo (y * y / 2 ^ fp) 36 0 (2 ^ fp)

/-- Series of atanh: z^k / k for odd k. -/
def atanhGo (z2 : Int) : Nat → Nat → Int → Int
  | 0, _, _ => 0
  | n + 1, k, t => t / (k : Nat) + atanhGo z2 n (k + 2) (t * z2 / 2 ^ fp)

/-- log2 of a rational in [1, 2), in fixed point. -/
def log2Fix (m : Rat) : Int :=
  let z := toFix ((m - 1) / (m + 1))
  let l := 2 * atanhGo (z * z / 2 ^ fp) 84 1 z
  l * 2 ^ 320 / ln2Q

/-- The F32 encoding that every value within 2^-236 of a fixed-point value, scaled by 2^e, rounds to. -/
def roundFix (y : Int) (e : Int) : Nat :=
  let at_ (z : Int) : Nat := roundF f32 .rne 0 (.fin (z < 0) ((z : Rat) * pow2 (e - fp)))
  let lo := at_ (y - 2 ^ 20)
  let hi := at_ (y + 2 ^ 20)
  if lo == hi then lo else at_ y

/-- FEXP2 on F32 encodings. -/
def exp2F32 (b : Nat) : Nat :=
  match decodeF f32 b with
  | .nan => nanOut f32
  | .inf s => if s then 0 else infEnc f32
  | .fin _ x =>
    if x ≥ 128 then infEnc f32 else if x ≤ -150 then 0
    else
      let i := x.floor
      let y := (toFix (x - i)) * ln2Q / 2 ^ 320
      if x = (i : Rat) then roundF f32 .rne 0 (.fin false (pow2 i)) else roundFix (2 ^ fp + expm1Fix y) i

/-- FLOG2 on F32 encodings. -/
def log2F32 (b : Nat) : Nat :=
  match decodeF f32 b with
  | .nan => nanOut f32
  | .inf s => if s then nanOut f32 else infEnc f32
  | .fin _ x =>
    if x = 0 then signBit f32 true + infEnc f32 else if x < 0 then nanOut f32
    else
      let e := floorLog2 x
      let m := x / pow2 e
      if m = 1 then roundF f32 .rne 0 (.fin (e < 0) (e : Rat))
      else roundFix (e * 2 ^ fp + log2Fix m) 0

/-- Reduction of a finite argument to a quadrant and a fixed-point rest in [0, pi/2). -/
def reduce (x : Rat) : Int × Int :=
  let h : Rat := mkRat piQ (2 ^ 421)
  let n := (x / h).floor
  (n % 4, toFix (x - n * h))

/-- FSIN and FCOS on F32 encodings: sine of the argument plus `k` quarter turns. -/
def sinK (k : Int) (x : Rat) : Nat :=
  let (n, r) := reduce x
  match (n + k) % 4 with
  | 0 => roundFix (sinFix r) 0
  | 1 => roundFix (cosFix r) 0
  | 2 => roundFix (-(sinFix r)) 0
  | _ => roundFix (-(cosFix r)) 0

def sinF32 (b : Nat) : Nat :=
  match decodeF f32 b with
  | .nan | .inf _ => nanOut f32
  | .fin s x =>
    if x = 0 then signBit f32 s
    else if -1 < x ∧ x < 0 then signBit f32 true + sinK 0 (-x) else sinK 0 x

def cosF32 (b : Nat) : Nat :=
  match decodeF f32 b with
  | .nan | .inf _ => nanOut f32
  | .fin _ x => if x = 0 then 0x3F800000 else sinK 1 (if x < 0 then -x else x)

/-- FTANH on F32 encodings. -/
def tanhF32 (b : Nat) : Nat :=
  match decodeF f32 b with
  | .nan => nanOut f32
  | .inf s => signBit f32 s + 0x3F800000
  | .fin s x =>
    if x = 0 then signBit f32 s
    else
      let a : Rat := if x < 0 then -x else x
      let r : Nat :=
        if a ≥ 16 then 0x3F800000
        else
          let ln2 : Rat := mkRat ln2Q (2 ^ 320)
          let k := (2 * a / ln2).floor
          let em1 := expm1Fix (toFix (2 * a - k * ln2))
          let e := (2 ^ fp + em1) * 2 ^ k.toNat
          roundFix ((if k = 0 then em1 else e - 2 ^ fp) * 2 ^ fp / (e + 2 ^ fp)) 0
      signBit f32 s + r

-- lane operations on encodings

def rne (f : FFmt) (v : FVal) : Nat := roundF f .rne 0 v

/-- The clamp of R111 on an encoding. -/
def sat01 (f : FFmt) (b : Nat) : Nat :=
  match decodeF f b with
  | .nan => 0
  | .inf s => if s then 0 else rne f (.fin false 1)
  | .fin _ x => if x ≤ 0 then 0 else if 1 < x then rne f (.fin false 1) else b

def satIf (sat : Bool) (f : FFmt) (b : Nat) : Nat := if sat then sat01 f b else b

def addE (f : FFmt) (a b : Nat) : Nat := rne f (add (decodeF f a) (decodeF f b))
def subE (f : FFmt) (a b : Nat) : Nat := rne f (add (decodeF f a) (neg (decodeF f b)))
def mulE (f : FFmt) (a b : Nat) : Nat := rne f (mul (decodeF f a) (decodeF f b))
def fmaE (f : FFmt) (a b c : Nat) : Nat := rne f (fma (decodeF f a) (decodeF f b) (decodeF f c))
def fmsE (f : FFmt) (a b c : Nat) : Nat := rne f (fma (decodeF f a) (decodeF f b) (neg (decodeF f c)))
def minE (f : FFmt) (a b : Nat) : Nat := rne f (fminV (decodeF f a) (decodeF f b))
def maxE (f : FFmt) (a b : Nat) : Nat := rne f (fmaxV (decodeF f a) (decodeF f b))
def rcpE (f : FFmt) (a : Nat) : Nat := rne f (recip (decodeF f a))
def rsqE (f : FFmt) (a : Nat) : Nat := rne f (rsqrtV (decodeF f a))
def sqrtE (f : FFmt) (a : Nat) : Nat := rne f (sqrtV (decodeF f a))

/-- FRND: Pick over the integers, as an F32 with the sign of A (R112). -/
def rndF32 (rm : Round) (b : Nat) : Nat :=
  match decodeF f32 b with
  | .fin s x => rne f32 (.fin s (roundInt rm 0 x))
  | v => rne f32 v

/-- FFRC: A - floor(A), rounded (R112). -/
def frcF32 (b : Nat) : Nat :=
  match decodeF f32 b with
  | .fin _ x => rne f32 (.fin false (x - x.floor))
  | _ => nanOut f32

end Sys2Proof.Num
end

