-- ==== Sys2Proof/Machine/Causes.lean ====
section
/-! DEFINITION. Cause codes (R371 to R376), the register operands of each instruction, and the word causes that an
instruction's operands break (R162, R372). -/
namespace Sys2Proof.Cause

-- encoding (R372)
def swtrap : Nat := 0x00
def rsvop : Nat := 0x01
def unimp : Nat := 0x02
def rsvfn : Nat := 0x03
def rsvbsel : Nat := 0x04
def rsvfld : Nat := 0x05
def rsvsbt : Nat := 0x06
def rsvreg : Nat := 0x07
def oddreg : Nat := 0x08
def regrange : Nat := 0x09
def rsvmem : Nat := 0x0A
def rsvspec : Nat := 0x0B
def rsvtype : Nat := 0x0C
def rsvcode : Nat := 0x0D
def rsvbra : Nat := 0x0E
def rsvlit : Nat := 0x0F
def rsvq : Nat := 0x10
def rsvtile : Nat := 0x11
def rsvfb : Nat := 0x12
def rsvrec : Nat := 0x13
def rsvdesc : Nat := 0x14
def rsvbin : Nat := 0x15
def rsvgng : Nat := 0x16
def rsvhurd : Nat := 0x17
def rsvcombo : Nat := 0x18
def rsvsparse : Nat := 0x19
def rsvcount : Nat := 0x1A
def rsvmode : Nat := 0x1B
def rsvwm : Nat := 0x1C
def rsvnote : Nat := 0x1D
def rsvimm : Nat := 0x1E
def specval : Nat := 0x1F
-- execution state (R373)
def sbfix : Nat := 0x20
def sbvar : Nat := 0x21
def sbwrite : Nat := 0x22
def privop : Nat := 0x23
def privspec : Nat := 0x24
def specro : Nat := 0x25
def hfault : Nat := 0x26
def parktgt : Nat := 0x27
def retempty : Nat := 0x28
def retpart : Nat := 0x29
def looplvl : Nat := 0x2A
def loopbusy : Nat := 0x2B
def winalign : Nat := 0x2C
def winrange : Nat := 0x2D
def winovl : Nat := 0x2E
def stgcnt : Nat := 0x2F
def stgdup : Nat := 0x30
def lbrklvl : Nat := 0x31
def winregs : Nat := 0x32
def wdog : Nat := 0x33
def deadline : Nat := 0x34
def hurdexp : Nat := 0x35
def colldead : Nat := 0x36
def gangtime : Nat := 0x37
def gangmis : Nat := 0x38
def ganggone : Nat := 0x39
def hpark : Nat := 0x3A
def dbghalt : Nat := 0x3B
def orphanhov : Nat := 0x3C
def selfwait : Nat := 0x3D
def rstkmax : Nat := 0x3E
def ctxkill : Nat := 0x3F
-- hypotheses and work creation (R374)
def hsetst : Nat := 0x40
def hparent : Nat := 0x41
def hdepth : Nat := 0x42
def hfull : Nat := 0x43
def hresroot : Nat := 0x44
def hresst : Nat := 0x45
def vsfull : Nat := 0x46
def htable : Nat := 0x47
def lqdesc : Nat := 0x48
def lqfit : Nat := 0x49
def lqptn : Nat := 0x4A
def donebad : Nat := 0x4B
def lqhdr : Nat := 0x4C
def tasksel : Nat := 0x4D
def argread : Nat := 0x4E
def trappcx : Nat := 0x4F
-- graphics (R375)
def tqryslot : Nat := 0x50
def mrsv : Nat := 0x51
def mrange : Nat := 0x52
def mtarget : Nat := 0x53
def mstack : Nat := 0x54
def mfetch : Nat := 0x55
def lazynoq : Nat := 0x56
def csempty : Nat := 0x57
def tracedesc : Nat := 0x58
def texdesc : Nat := 0x59
def refitdesc : Nat := 0x5A
def buildq : Nat := 0x5B
def spawnrec : Nat := 0x5C
def ordticket : Nat := 0x5D
def refittree : Nat := 0x5E
def csimg : Nat := 0x5F
-- translation, protection and range (R376): 0x60 + 8 * kind + path
def transl (kind path : Nat) : Nat := 0x60 + 8 * kind + path
-- engines, copies and the rest (R376): 0x90 + 4 * engine + kind
def engine (e kind : Nat) : Nat := 0x90 + 4 * e + kind
def hstale : Nat := 0xA8
def hretired : Nat := 0xA9
def late : Nat := 0xAA
def recvout : Nat := 0xAB
def collmis : Nat := 0xAC
def colltime : Nat := 0xAD
def poolfull : Nat := 0xAE
def switchfail : Nat := 0xAF
def regecc : Nat := 0xB0
def sramecc : Nat := 0xB1
def tileecc : Nat := 0xB2
def cacheecc : Nat := 0xB3
def sliceecc : Nat := 0xB4
def dramecc : Nat := 0xB5
def vsecc : Nat := 0xB6
def csecc : Nat := 0xB7
def agentdown : Nat := 0xB8
def dielost : Nat := 0xB9
def unacked : Nat := 0xBA
def linkerr : Nat := 0xBB
def dispunder : Nat := 0xBC
def qosrep : Nat := 0xBD
def thermal : Nat := 0xBE
def weareol : Nat := 0xBF

/-- Rank of a cause at one instruction: ascending code, with 0x00 after 0x1F (R364). -/
def rank (c : Nat) : Nat := if c = 0 then 0x1F * 2 + 1 else 2 * c

/-- The cause that ranks first (R364). -/
def first : List Nat → Option Nat
  | [] => none
  | c :: cs => match first cs with
    | none => some c
    | some d => if rank d < rank c then some d else some c

end Sys2Proof.Cause

namespace Sys2Proof

/-- A register operand: whether the instruction writes it, its file, first register, number of registers and the
alignment of the first (R46, R53, R165). -/
structure Opd where
  wr : Bool
  file : RFile
  reg : Nat
  n : Nat
  al : Nat
  deriving DecidableEq, Repr

namespace Opd

def rd (f : RFile) (r : Nat) (n : Nat := 1) (al : Nat := 1) : Opd := ⟨false, f, r, n, al⟩
def wt (f : RFile) (r : Nat) (n : Nat := 1) (al : Nat := 1) : Opd := ⟨true, f, r, n, al⟩
/-- One v register, or the aligned pair where `w`. -/
def rv (r : VReg) (w : Bool := false) : Opd := if w then rd .v r.toNat 2 2 else rd .v r.toNat
def wv (r : VReg) (w : Bool := false) : Opd := if w then wt .v r.toNat 2 2 else wt .v r.toNat
def rk (r : KReg) : Opd := rd .k r.toNat
def wk (r : KReg) : Opd := wt .k r.toNat
def rp (r : PReg) : Opd := rd .p r.toNat
def wp (r : PReg) : Opd := wt .p r.toNat
def rg (r : GReg) : Opd := rd .g r.toNat

/-- Operand B of a compute form (R96). -/
def rb (b : SrcB) (w : Bool := false) : List Opd :=
  match b with
  | .v r => [rv r w]
  | .k r => [rk r]
  | .lit _ => []

def rvk : VK → Opd
  | .v r => rv r
  | .k r => rk r

def wvk : VK → Opd
  | .v r => wv r
  | .k r => wk r

/-- The address base of a memory operand (R53). -/
def base (m : MemRef) : List Opd :=
  match m.space with
  | .gl => [rv m.base true]
  | .glk | .kc => [rk (m.base.setWidth 6)]
  | .sp | .spc _ => [rv m.base]

/-- Registers of a memory datum (R53, R165). -/
def regsOf : Wid → Nat
  | .b64 => 2
  | .b128 => 4
  | _ => 1

def data (wr : Bool) (d : VReg) (w : Wid) : Opd := ⟨wr, .v, d.toNat, regsOf w, regsOf w⟩

/-- A register or pair of an atomic (R174). -/
def adat (wr : Bool) (d : VReg) (w : Wid) : Opd := if w = .b64 then ⟨wr, .v, d.toNat, 2, 2⟩ else ⟨wr, .v, d.toNat, 1, 1⟩

/-- Format-block and issue-time registers of an engine form (R52). -/
def ek (e : EFields) : List Opd :=
  (if e.fb = 0 then [] else [rk e.fb]) ++ (if e.ti = 0 then [] else [rk e.ti])

end Opd

/-- Bytes of an access (R53). -/
def Wid.bytes : Wid → Nat
  | .b8 | .s8 => 1
  | .b16 | .s16 => 2
  | .b32 => 4
  | .b64 => 8
  | .b128 => 16

/-- Width code (R53). -/
def Wid.code : Wid → Nat
  | .b8 => 0 | .s8 => 1 | .b16 => 2 | .s16 => 3 | .b32 => 4 | .b64 => 5 | .b128 => 6

def MemOrd.code : MemOrd → Nat
  | .relaxed => 0 | .acquire => 1 | .release => 2 | .acqRel => 3

def Scope.code : Scope → Nat
  | .warp => 0 | .team => 1 | .cluster => 2 | .die => 3 | .pkg => 4 | .domain => 5 | .sys => 6

/-- Type pairs take aligned pairs for the 64-bit types (R115). -/
def Ty.wide : Ty → Bool
  | .f64 | .i64 | .n64 => true
  | _ => false

/-- Container bits of a packed type (R72, R74, R117). -/
def Ty.cont : Ty → Nat
  | .f32 | .f19 | .i32 | .n32 => 32
  | .bf16 | .f16 | .i16 | .n16 => 16
  | .e5m2 | .e4m3 | .e3m4 | .e3m2 | .e2m3 | .i8 | .n8 => 8
  | .e2m1 | .i4 | .n4 => 4
  | .t2 => 2
  | .f64 | .i64 | .n64 => 64

/-- Registers of a packed conversion (R117): 32 over the container width. -/
def Ty.packN (t : Ty) : Nat := 32 / t.cont

/-- Integer types; T2 is a signed integer (R74). -/
def Ty.isInt : Ty → Bool
  | .i8 | .n8 | .i4 | .n4 | .t2 | .i16 | .n16 | .i32 | .n32 | .i64 | .n64 => true
  | _ => false

def Ty.isSigned : Ty → Bool
  | .i8 | .i4 | .t2 | .i16 | .i32 | .i64 => true
  | _ => false

/-- EVX operations of one operand (R210). -/
def EvxOp.unary : EvxOp → Bool
  | .fmov | .fexp2 | .frcp | .frsq | .ftanh | .flog2 | .imov => true
  | _ => false

namespace Spec

/-- The special registers of R48: whether a specifier is assigned, 64 bits wide, held per lane, read-only,
privileged. -/
def sq (s : Nat) : Bool := decide (0x100 ≤ s ∧ s ≤ 0x17F)
def wm (s : Nat) : Bool := decide (0x050 ≤ s ∧ s ≤ 0x05F)
def loop (s : Nat) : Bool := decide (0x010 ≤ s ∧ s ≤ 0x023)
def assigned (s : Nat) : Bool :=
  decide (s ≤ 0x005) || loop s || s == 0x024 || s == 0x030 || s == 0x031 || s == 0x040 || wm s ||
  decide (0x070 ≤ s ∧ s ≤ 0x073) || sq s || decide (0x800 ≤ s ∧ s ≤ 0x806)
def wide (s : Nat) : Bool :=
  s == 0x005 || decide (0x014 ≤ s ∧ s ≤ 0x01B) || s == 0x031 || s == 0x040 || s == 0x073 || sq s ||
  s == 0x802 || s == 0x804 || s == 0x806
def perLane (s : Nat) : Bool := s == 0x000 || s == 0x030
def ro (s : Nat) : Bool :=
  decide (s ≤ 0x005) || wm s || s == 0x071 || s == 0x073 || s == 0x801 || s == 0x804 || s == 0x806
/-- A user-level access of these faults; WDOG is P-RW as the CFG and trap registers are (R9, R48). -/
def priv (s : Nat) : Bool := s == 0x072 || decide (0x800 ≤ s ∧ s ≤ 0x806)

end Spec

open Opd in
/-- The register operands of each QIS form, the guard apart. -/
def Instr.opds : Instr → List Opd
  | .brx _ a _ => [rv a true]
  | .call _ d _ _ => [wv d true]
  | .callx _ d a => [rv a true, wv d true]
  | .ret _ a => [rv a true]
  | .sleep _ a _ => [rk a]
  | .lset _ _ _ (.k r) _ => [rk r]
  | .hurdMem _ _ _ a => [rk a]
  | .harrMem _ _ _ d a => [rk a, wp d]
  | .hwtMem _ _ _ d a => [rk a, rp d]
  | .spawn _ a _ w _ => [rd .v a.toNat (w.toNat + 1)]
  | .task _ d a _ _ => [rd .k a.toNat 2, wk d]
  | .fwait _ d a => [rvk a, wvk d]
  | .ftest _ d a => [rvk a, wp d]
  | .cancel _ d a => [rvk a, wvk d]
  | .baton _ d a _ w _ => [rd .v a.toNat (w.toNat + 1), wv d]
  | .regx _ d _ _ => [wp d]
  | .srd _ (.v d) _ s => [wv d (Spec.wide s.toNat)]
  | .srd _ (.k d) _ _ => [wk d]
  | .swr _ (.v a) _ s => [rv a (Spec.wide s.toNat)]
  | .swr _ (.k a) _ _ => [rk a]
  | .park _ a b => [rk a, rk b]
  | .unparkRetry _ a b => [rk a, rk b]
  | .unparkSkip _ a b => [rk a, rk b]
  | .iadd _ d a b w _ _ => rv a w :: rb b w ++ [wv d w]
  | .isub _ d a b w _ _ => rv a w :: rb b w ++ [wv d w]
  | .imul _ d a b _ _ => rv a :: rb b ++ [wv d]
  | .imulh _ d a b _ => rv a :: rb b ++ [wv d]
  | .imad _ d a b c _ _ => rv a :: rb b ++ [rv c, wv d]
  | .imadw _ d a b c _ _ => rv a :: rb b ++ [rv c true, wv d true]
  | .imin _ d a b _ => rv a :: rb b ++ [wv d]
  | .imax _ d a b _ => rv a :: rb b ++ [wv d]
  | .iabs _ d a _ => [rv a, wv d]
  | .and _ d a b => rv a :: rb b ++ [wv d]
  | .or _ d a b => rv a :: rb b ++ [wv d]
  | .xor _ d a b => rv a :: rb b ++ [wv d]
  | .andn _ d a b => rv a :: rb b ++ [wv d]
  | .not _ d a => [rv a, wv d]
  | .lop3 _ d a b _ => rv d :: rv a :: rb b ++ [wv d]
  | .shl _ d a b w _ => rv a w :: rb b ++ [wv d w]
  | .shr _ d a b w _ => rv a w :: rb b ++ [wv d w]
  | .sar _ d a b w _ => rv a w :: rb b ++ [wv d w]
  | .rotl _ d a b w => rv a w :: rb b ++ [wv d w]
  | .clz _ d a => [rv a, wv d]
  | .ctz _ d a => [rv a, wv d]
  | .popc _ d a => [rv a, wv d]
  | .brev _ d a => [rv a, wv d]
  | .bfx _ d a b _ => rv a :: rb b ++ [wv d]
  | .bfi _ d a b c => rv a :: rb b ++ [rv c, wv d]
  | .ilv _ d a b c three => rv a :: rb b ++ (if three then [rv c] else []) ++ [wv d]
  | .dlv _ d a b _ => rv a :: rb b ++ [wv d]
  | .icmp _ _ d a b c => rv a :: rb b ++ [rp c, wp d]
  | .isel _ d a b c => rv a :: rb b ++ [rd .p c.toNat, wv d]
  | .mov _ (.v d) b => rb b ++ [wv d]
  | .mov _ (.w d) b => rb b true ++ [wv d true]
  | .mov _ (.k d) b => rb b ++ [wk d]
  | .mov _ (.wk d) b => rb b true ++ [wk d]
  | .movi _ d w _ => [wv d w]
  | .movk _ d .imm _ => [wk d]
  | .movk _ d (.add r) _ => [rk r, wk d]
  | .lea _ d a b _ _ => rv a true :: rb b ++ [wv d true]
  | .cvt _ d a dst src _ _ => [rv a src.wide, wv d dst.wide]
  | .pack _ d a dst _ _ _ => [rd .v a.toNat dst.packN, wv d]
  | .unpk _ d a _ src => [rv a, wt .v d.toNat src.packN]
  | .plop _ d a b c _ _ => [rp a, rp b, rp c, wp d]
  | .pmov _ (.tov d) => [rd .p 0 7, wv d]
  | .pmov _ (.fromv a) => [rv a, wt .p 0 7]
  | .pmov _ (.sp d a) => [rd .sp a.toNat, wp d]
  | .part _ d _ => [wt .g d.toNat]
  | .shfl _ _ d a b c g => rv a :: rb b ++ [rv c, rg g, wv d]
  | .vote _ m d a g => [rp a, rg g, if m = .ballot then wt .v d.toNat else wt .p d.toNat]
  | .redux _ _ d a g => [rv a, rg g, wv d]
  | .scan _ _ d a g _ => [rv a, rg g, wv d]
  | .bcast _ d a b c g => rv a :: (match b with | .k r => [rk r] | _ => []) ++ [rv c, rg g, wv d]
  | .matchV _ d a g w => [rv a w, rg g, wv d]
  | .fadd _ d a b _ => rv a :: rb b ++ [wv d]
  | .fsub _ d a b _ => rv a :: rb b ++ [wv d]
  | .fmul _ d a b _ => rv a :: rb b ++ [wv d]
  | .ffma _ d a b c _ => rv a :: rb b ++ [rv c, wv d]
  | .fmin _ d a b => rv a :: rb b ++ [wv d]
  | .fmax _ d a b => rv a :: rb b ++ [wv d]
  | .fcmp _ _ d a b c => rv a :: rb b ++ [rp c, wp d]
  | .frcp _ d a => [rv a, wv d]
  | .frsq _ d a => [rv a, wv d]
  | .fsqrt _ d a => [rv a, wv d]
  | .fexp2 _ d a => [rv a, wv d]
  | .flog2 _ d a => [rv a, wv d]
  | .fsin _ d a => [rv a, wv d]
  | .fcos _ d a => [rv a, wv d]
  | .ftanh _ d a => [rv a, wv d]
  | .frnd _ d a _ => [rv a, wv d]
  | .ffrc _ d a => [rv a, wv d]
  | .hxadd _ d a b _ => rv a :: rb b ++ [wv d]
  | .hxmul _ d a b _ => rv a :: rb b ++ [wv d]
  | .hxfma _ d a b c _ => rv a :: rb b ++ [rv c, wv d]
  | .hxmax _ d a b _ => rv a :: rb b ++ [wv d]
  | .dadd _ d a b => rv a true :: rb b true ++ [wv d true]
  | .dmul _ d a b => rv a true :: rb b true ++ [wv d true]
  | .dfma _ d a b c => rv a true :: rb b true ++ [rv c true, wv d true]
  | .dcmp _ _ d a b c => rv a true :: rb b true ++ [rp c, wp d]
  | .ld _ d m w _ => base m ++ [data true d w]
  | .st _ d m w _ => base m ++ [data false d w]
  | .lds _ d m w _ => base m ++ [data true d w]
  | .sts _ d m w _ => base m ++ [data false d w]
  | .ldk _ d m w _ => base m ++ [if w = .b128 then wt .k d.toNat 2 2 else wk d]
  | .ldm _ d m _ _ => base m ++ [rk d]
  | .atom _ d b c op m w _ =>
    base m ++ adat false b w :: (if op = .cas then [adat false c w] else []) ++ [adat true d w]
  | .atoms _ d b c op m w _ =>
    base m ++ adat false b w :: (if op = .cas then [adat false c w] else []) ++ [adat true d w]
  | .red _ b _ m w _ => base m ++ [adat false b w]
  | .pref _ m _ _ => base m
  | .cflush _ m _ _ => base m
  | .lease _ _ (.k r) => [rk r]
  | .hset _ a => [rvk a]
  | .hnew _ d a => [rvk a, wvk d]
  | .hresConfirm _ d a => [rk a, wk d]
  | .hresRefute _ d a => [rk a, wk d]
  | .hqryInfo _ d a => [rk a, wk d]
  | .hqryAnc _ d a b => [rv a, rv b, wp d]
  | .gang _ a => [rk a]
  | .mma _ d a b c sparse _ =>
    [rv a, rd .k b.toNat 2, rd .t d.n.toNat] ++ (if sparse then [rv c] else []) ++ [wt .t d.n.toNat]
  | .movt _ t r write i =>
    (match i with | .imm _ => [] | .k x => [rk x] | .v x => [rv x]) ++
    (if write then [rv r, wt .t t.n.toNat] else [rd .t t.n.toNat, wv r])
  | .tzero _ d => [wt .t d.n.toNat]
  | .tld _ d m _ _ => base m ++ [wt .t d.n.toNat]
  | .tst _ d m _ _ => base m ++ [rd .t d.n.toNat]
  | .strec _ e => [rk e.d]
  | .emm _ e _ sparse => (if sparse then [rk e.d] else []) ++ ek e
  | .evx _ e _ bs => (if bs then [rk e.d] else []) ++ ek e
  | .ered _ e _ => ek e
  | .ecpy _ e _ _ => rd .k e.d.toNat 2 2 :: ek e ++ [wt .k e.d.toNat 2 2]
  | .emode _ e rm => if rm = .sto then [rk e.d] else []
  | .esave _ e => [rk e.d]
  | .eres _ e => [rk e.d]
  | .wmrd _ e _ => [wk e.d]
  | .wmset _ e _ => [rk e.d]
  | .coll _ e _ _ => rd .k e.d.toNat 2 2 :: ek e
  | .trace _ d a b _ _ => [rd .v a.toNat 8, rk b, wv d]
  | .tqry _ d a _ => [rv a, wt .v d.toNat 4 4]
  | .texs _ d a b => [rd .v a.toNat 2, rk b, wt .v d.toNat 4 4]
  | .texl _ d a b => [rd .v a.toNat 3, rk b, wt .v d.toNat 4 4]
  | .texg _ d a b _ => [rd .v a.toNat 3, rk b, wt .v d.toNat 4 4]
  | .ordb _ a => [rv a]
  | .orde _ a => [rv a]
  | .refit _ d a => [rk a, wk d]
  | _ => []

/-- The head of an instruction word; microwords and events have none. -/
def Instr.head : Instr → Option Head
  | .nop h .. | .bra h .. | .jmp h .. | .brx h .. | .call h .. | .callx h .. | .ret h .. | .exit h | .yield h
  | .sleep h .. | .lset h .. | .lrot h .. | .lbrk h .. | .hurd h .. | .hurdMem h .. | .harr h .. | .harrMem h ..
  | .hwt h .. | .hwtMem h .. | .spawn h .. | .task h .. | .fwait h .. | .ftest h .. | .cancel h .. | .baton h ..
  | .regx h .. | .regs h .. | .trap h .. | .eretRetry h | .eretSkip h | .eretKill h | .srd h .. | .swr h ..
  | .park h .. | .unparkRetry h .. | .unparkSkip h .. | .iadd h .. | .isub h .. | .imul h .. | .imulh h ..
  | .imad h .. | .imadw h .. | .imin h .. | .imax h .. | .iabs h .. | .and h .. | .or h .. | .xor h .. | .andn h ..
  | .not h .. | .lop3 h .. | .shl h .. | .shr h .. | .sar h .. | .rotl h .. | .clz h .. | .ctz h .. | .popc h ..
  | .brev h .. | .bfx h .. | .bfi h .. | .ilv h .. | .dlv h .. | .icmp h .. | .isel h .. | .mov h .. | .movi h ..
  | .movk h .. | .lea h .. | .cvt h .. | .pack h .. | .unpk h .. | .plop h .. | .pmov h .. | .part h .. | .shfl h ..
  | .vote h .. | .redux h .. | .scan h .. | .bcast h .. | .matchV h .. | .fadd h .. | .fsub h .. | .fmul h ..
  | .ffma h .. | .fmin h .. | .fmax h .. | .fcmp h .. | .frcp h .. | .frsq h .. | .fsqrt h .. | .fexp2 h ..
  | .flog2 h .. | .fsin h .. | .fcos h .. | .ftanh h .. | .frnd h .. | .ffrc h .. | .hxadd h .. | .hxmul h ..
  | .hxfma h .. | .hxmax h .. | .dadd h .. | .dmul h .. | .dfma h .. | .dcmp h .. | .ld h .. | .st h .. | .lds h ..
  | .sts h .. | .ldk h .. | .ldm h .. | .atom h .. | .atoms h .. | .red h .. | .fence h .. | .fxp h .. | .pref h ..
  | .lease h .. | .cflush h .. | .hset h .. | .hnew h .. | .hresConfirm h .. | .hresRefute h .. | .hqryInfo h ..
  | .hqryAnc h .. | .gang h .. | .mma h .. | .movt h .. | .tzero h .. | .tld h .. | .tst h .. | .strec h ..
  | .emm h .. | .evx h .. | .ered h .. | .ecpy h .. | .emode h .. | .enote h .. | .ewait h .. | .esave h ..
  | .eres h .. | .wmrd h .. | .wmset h .. | .wmsetOff h .. | .coll h .. | .trace h .. | .tqry h .. | .texs h ..
  | .texl h .. | .texg h .. | .ordb h .. | .orde h .. | .refit h .. => some h
  | _ => none

/-- Microwords (R293). -/
def Instr.isMicro : Instr → Bool
  | .nfetchFetch .. | .nfetchRaw .. | .nfetchChild .. | .pfetch .. | .xfma .. | .xmul .. | .xmin .. | .xmax .. | .xcmp ..
  | .xsel .. | .xrcp .. | .xrcpSq .. | .spush .. | .spop .. | .microGo .. | .goif .. | .emitHit .. | .emitSpawn ..
  | .emitSpord .. | .emitOut .. | .lazy .. | .microDone .. => true
  | _ => false

/-- The device's own steps. -/
def Instr.isEvent (i : Instr) : Bool := i.head.isNone && !i.isMicro

/-- `c` where the condition holds. -/
def causeIf (b : Bool) (c : Nat) : List Nat := if b then [c] else []

namespace Opd

/-- Causes of one operand: an odd pair or a base off its alignment, k registers past k63, v registers past v255. -/
def causes (o : Opd) : List Nat :=
  causeIf (decide (1 < o.al) && o.reg % o.al != 0) Cause.oddreg ++
  causeIf (o.file = .k && decide (64 < o.reg + o.n)) Cause.rsvreg ++
  causeIf (o.file = .v && decide (256 < o.reg + o.n)) Cause.regrange

end Opd

/-- An immediate offset of n bits that is written in the word itself is one the field holds, and not the pattern that
announces a literal (R54). -/
def immFits (x : Bool) (n : Nat) (v : Dword) : Bool :=
  x || (decide (v = (v.setWidth n).signExtend 64) && !(n == 23 && v.setWidth 23 == 0x400000))

/-- The values of format M that R162 and R190 allow: spaces, widths, orders, the highest scope of an ordered access,
and whether HT, CH, LH are free. -/
structure MemRule where
  spaces : List Nat
  widths : List Nat
  ords : List Nat
  scMax : Nat
  ht : Bool
  ch : Bool
  lh : Bool
  anySc : Bool

def Space.code : Space → Nat
  | .gl => 0 | .glk => 1 | .sp => 2 | .kc => 3 | .spc n => 4 + n.toNat

namespace MemRule

def ld : MemRule := ⟨[0, 1], [0, 1, 2, 3, 4, 5, 6], [0, 1], 6, false, true, true, false⟩
def st : MemRule := ⟨[0, 1], [0, 2, 4, 5, 6], [0, 2], 6, true, true, false, false⟩
def lds : MemRule := ⟨[2, 4, 5, 6, 7], [0, 1, 2, 3, 4, 5, 6], [0, 1], 2, false, false, false, false⟩
def sts : MemRule := ⟨[2, 4, 5, 6, 7], [0, 2, 4, 5, 6], [0, 2], 2, false, false, false, false⟩
def ldk : MemRule := ⟨[3], [0, 1, 2, 3, 4, 5, 6], [0], 0, false, true, true, false⟩
def ldm : MemRule := ⟨[1], [0], [0], 0, false, false, false, false⟩
def atom : MemRule := ⟨[0, 1], [4, 5], [0, 1, 2, 3], 6, false, false, false, true⟩
def atoms : MemRule := ⟨[2, 4, 5, 6, 7], [4, 5], [0, 1, 2, 3], 2, false, false, false, true⟩
def red (s : Space) : MemRule :=
  ⟨[0, 1, 2, 4, 5, 6, 7], [4, 5], [0, 2], if s.code < 2 then 6 else 2, false, false, false, true⟩
def pref : MemRule := ⟨[0, 1], [0, 1, 2, 3, 4, 5, 6], [0], 0, false, true, false, false⟩
def cflush : MemRule := ⟨[0, 1], [0, 1, 2, 3, 4, 5, 6], [0], 0, false, false, false, false⟩
def tld : MemRule := ⟨[0, 1, 2, 4, 5, 6, 7], [4], [0], 0, false, true, true, false⟩
def tst : MemRule := ⟨[0, 1, 2, 4, 5, 6, 7], [4], [0], 0, false, true, false, false⟩

/-- RSVMEM where a field holds a value the rule forbids (R162); a relaxed atomic may carry any scope. -/
def ok (r : MemRule) (m : MemRef) (w : Wid) (f : MemFlags) : Bool :=
  r.spaces.contains m.space.code && r.widths.contains w.code && r.ords.contains f.ord.code &&
  (r.ht || !f.ht) && (r.ch || !f.ch) && (r.lh || !f.lh) &&
  (if f.ord = .relaxed then r.anySc || f.sc = .warp else decide (f.sc.code ≤ r.scMax))

end MemRule

/-- The base of format M is a k register under glk and kc (R47, R53). -/
def MemRef.causes (m : MemRef) : List Nat :=
  match m.space with
  | .glk | .kc => causeIf (decide (63 < m.base.toNat)) Cause.rsvreg
  | _ => []

def memCauses (r : MemRule) (m : MemRef) (w : Wid) (f : MemFlags) : List Nat :=
  m.causes ++ causeIf (!r.ok m w f) Cause.rsvmem

/-- An atomic always carries the literal (R174). -/
def atomCauses (r : MemRule) (m : MemRef) (w : Wid) (f : MemFlags) (c : VReg) (op : AtomOp) : List Nat :=
  memCauses r m w f ++ causeIf (match m.off with | .short _ => true | .lit _ => false) Cause.rsvlit ++
  causeIf (op != .cas && c != 0) Cause.rsvfld

/-- Fields an engine form does not use (R200): true means the field must be 0. -/
def eZero (e : EFields) (d sa sb sd fb ti : Bool) : List Nat :=
  causeIf ((d && e.d != 0) || (sa && e.sa != 0) || (sb && e.sb != 0) || (sd && e.sd != 0) || (fb && e.fb != 0) ||
    (ti && e.ti != 0)) Cause.rsvfld

def sameFile : VK → VK → Bool
  | .v _, .v _ | .k _, .k _ => true
  | _, _ => false

/-- Word causes that the operands of a form break, whatever the core and the registers held (R98, R162, R227, R372). -/
def Instr.formCauses : Instr → List Nat
  | .bra _ _ j dh => causeIf (j = 0) Cause.rsvbra ++ causeIf (dh = 3) Cause.rsvfld
  | .jmp _ _ dh => causeIf (dh = 3) Cause.rsvfld
  | .call _ _ x off => causeIf (!immFits x 23 off) Cause.rsvimm
  | .lset _ _ x n len =>
    causeIf (len = 0) Cause.rsvimm ++
    (match n with
     | .imm c => causeIf (decide (2 ^ 32 - 8 < c.toNat)) Cause.rsvimm ++
       causeIf (!x && (decide (2 ^ 12 ≤ c.toNat) || (c = 0x800 && len = 0))) Cause.rsvimm
     | .k _ => causeIf x Cause.rsvlit)
  | .spawn _ a x w off =>
    causeIf (decide (256 < a.toNat + w.toNat + 1)) Cause.rsvimm ++
    causeIf (!(x || decide (off = (off.setWidth 19).signExtend 60))) Cause.rsvimm ++
    causeIf (!x && off.setWidth 19 = 0x40000 && w = 0) Cause.rsvimm
  | .baton _ _ a x w off =>
    causeIf (decide (256 < a.toNat + w.toNat + 1)) Cause.rsvimm ++
    causeIf (!(x || decide (off = (off.setWidth 19).signExtend 60))) Cause.rsvimm ++
    causeIf (!x && off.setWidth 19 = 0x40000 && w = 0) Cause.rsvimm
  | .task _ _ _ x off => causeIf (!immFits x 23 off) Cause.rsvimm
  | .fwait _ d a => causeIf (!sameFile d a) Cause.rsvfn
  | .cancel _ d a => causeIf (!sameFile d a) Cause.rsvfn
  | .hnew _ d a => causeIf (!sameFile d a) Cause.rsvfn
  | .regx _ _ _ n => causeIf (decide (31 < n.toNat)) Cause.rsvimm
  | .regs _ _ n => causeIf (n = 0) Cause.rsvimm
  | .srd _ d _ s =>
    causeIf (!Spec.assigned s.toNat || (match d with | .k _ => Spec.perLane s.toNat | .v _ => false)) Cause.rsvspec
  | .swr _ _ _ s => causeIf (!Spec.assigned s.toNat) Cause.rsvspec
  | .iadd _ _ _ _ _ sat u => causeIf (u && !sat) Cause.rsvfn
  | .isub _ _ _ _ _ sat u => causeIf (u && !sat) Cause.rsvfn
  | .imul _ _ _ _ sat u => causeIf (u && !sat) Cause.rsvfn
  | .imad _ _ _ _ _ sat u => causeIf (u && !sat) Cause.rsvfn
  | .ilv _ _ _ _ c three => causeIf (!three && c != 0) Cause.rsvfld
  | .icmp _ cc _ _ _ _ => causeIf (cc = .ord || cc = .uno) Cause.rsvcode
  | .movi _ _ _ imm => causeIf (match imm with | .short i => i = 0x400000 | .lit _ => false) Cause.rsvimm
  | .movk _ _ _ imm => causeIf (match imm with | .short i => i = 0x400000 | .lit _ => false) Cause.rsvimm
  | .pack _ _ _ dst src _ _ =>
    causeIf (!((src = .f32 || src = .i32 || src = .n32) && decide (dst.cont ≤ 16))) Cause.rsvtype
  | .unpk _ _ _ dst src =>
    causeIf (!(decide (src.cont ≤ 16) &&
      (dst = .f32 || ((dst = .i32 || dst = .n32) && src.isInt && !(dst = .n32 && src.isSigned))))) Cause.rsvtype
  | .vote _ m d _ _ => causeIf (m != .ballot && decide (7 < d.toNat)) Cause.rsvreg
  | .frnd _ _ _ rm => causeIf (rm = .sto) Cause.rsvcode
  | .ld _ _ m w f => memCauses .ld m w f
  | .st _ _ m w f => memCauses .st m w f
  | .lds _ _ m w f => memCauses .lds m w f
  | .sts _ _ m w f => memCauses .sts m w f
  | .ldk _ _ m w f => memCauses .ldk m w f
  | .ldm _ _ m w f => memCauses .ldm m w f
  | .atom _ _ _ c op m w f => atomCauses .atom m w f c op
  | .atoms _ _ _ c op m w f => atomCauses .atoms m w f c op
  | .red _ _ op m w f =>
    atomCauses (.red m.space) m w f 0 op ++ causeIf (op = .xchg || op = .cas) Cause.rsvcode
  | .fence _ o _ => causeIf (o = .relaxed) Cause.rsvmem
  | .fxp _ _ p c _ =>
    causeIf (p = 0 || c = 0 || p.getLsbD 6 || c.getLsbD 6) Cause.rsvfld
  | .pref _ m n f => memCauses .pref m n f
  | .cflush _ m n f => memCauses .cflush m n f
  | .lease _ _ (.imm n) => causeIf (n = 0) Cause.rsvimm
  | .mma _ d _ _ c sp sel =>
    causeIf (d.dir != .row) Cause.rsvtile ++ causeIf (!sp && sel) Cause.rsvfn ++ causeIf (!sp && c != 0) Cause.rsvfld
  | .tzero _ d => causeIf (d.dir != .row) Cause.rsvtile
  | .tld _ d m w f => memCauses .tld m w f ++ causeIf (d.dir = .diag) Cause.rsvtile
  | .tst _ d m w f => memCauses .tst m w f ++ causeIf (d.dir = .diag) Cause.rsvtile
  | .strec _ e => eZero e false true true false true true
  | .emm _ e _ sp => eZero e (!sp) false false false false false ++ causeIf (e.q != 0) Cause.rsvq
  | .evx _ e op bs =>
    eZero e (!bs) false (bs || op.unary) false false false ++ causeIf (e.q != 1) Cause.rsvq ++
    causeIf (bs && op.unary) Cause.rsvfn
  | .ered _ e _ => eZero e true false true false false false ++ causeIf (e.q != 1) Cause.rsvq
  | .ecpy _ e _ _ => eZero e false false true false true false ++ causeIf (decide (e.q.toNat < 2)) Cause.rsvq
  | .emode _ e rm => eZero e (rm != .sto) true true true true true ++ causeIf (e.q = 3) Cause.rsvq
  | .enote _ e _ => eZero e true false true true true true ++ causeIf (e.sa = 0) Cause.rsvnote
  | .ewait _ e _ => eZero e true true true true true true
  | .esave _ e => eZero e false true true true true true ++ causeIf (e.q = 3) Cause.rsvq
  | .eres _ e => eZero e false true true true true true ++ causeIf (e.q = 3) Cause.rsvq
  | .wmrd _ e _ => eZero e false true true true true true
  | .wmset _ e _ => eZero e false true true true true true
  | .wmsetOff _ e _ => eZero e true true true true true true
  | .coll _ e op r =>
    eZero e false false true false true false ++ causeIf (e.q != 2) Cause.rsvq ++
    causeIf ((op = .allgat || op = .bcast) && r != .fadd) Cause.rsvcode
  | .trace _ _ a _ _ _ => causeIf (a.toNat % 8 != 0) Cause.rsvfld
  | _ => []

/-- RSVIMM takes the place of REGRANGE where SPAWN or BATON words pass v255 (R372). -/
def Instr.opdCauses (i : Instr) : List Nat :=
  match i with
  | .spawn .. => []
  | .baton .. => []
  | _ => i.opds.flatMap Opd.causes

/-- All word causes of an instruction apart from those that depend on the core (R372). -/
def Instr.causes (i : Instr) : List Nat :=
  (match i.head with | some h => causeIf (h.sbt = 7) Cause.rsvsbt | none => []) ++ i.opdCauses ++ i.formCauses

/-- Opcodes a kind of core implements (R63). -/
def Instr.implemented (k : CoreKind) : Instr → Bool
  | .lds .. | .sts .. | .atoms .. | .ldm .. => k != .rc
  | .gang .. | .mma .. | .movt .. | .tzero .. | .tld .. | .tst .. => k = .sc
  | .strec .. | .ecpy .. | .enote .. | .ewait .. | .wmrd .. | .wmset .. | .wmsetOff .. => k != .rc
  | .emm .. | .evx .. | .ered .. | .emode .. | .esave .. | .eres .. | .coll .. => k = .tt
  | .trace .. | .tqry .. | .texs .. | .texl .. | .texg .. | .refit .. => k != .tt
  | .ordb .. | .orde .. => k = .sc
  | _ => true

/-- Word causes that depend on the kind of core: Q and qmask on a shader core, UNIT on a relay core (R63, R200, R213,
R297). -/
def Instr.kindCauses (k : CoreKind) (i : Instr) : List Nat :=
  causeIf (!i.implemented k) Cause.unimp ++
  (match i with
   | .strec _ e | .ecpy _ e _ _ | .ewait _ e _ | .wmrd _ e _ | .wmset _ e _ | .wmsetOff _ e _ =>
     causeIf (k = .sc && e.q != 3) Cause.rsvq
   | .enote _ e _ => causeIf (k = .sc && e.q != 3) Cause.rsvq ++ causeIf (k = .sc && e.sa != 8) Cause.rsvnote
   | .red _ _ _ m _ _ => causeIf (k = .rc && (match m.space with | .sp | .spc _ => true | _ => false)) Cause.rsvmem
   | .trace _ _ _ _ u _ => causeIf (k = .rc && u != .trav) Cause.rsvfn
   | _ => [])

/-- REGRANGE and REGS against the granules the warp holds (R40, R158, R372); a PREF or CFLUSH is a NOP there (R377). -/
def Instr.heldCauses (gran : Nat) (i : Instr) : List Nat :=
  (match i with
   | .pref .. | .cflush .. => []
   | _ => causeIf (i.opds.any fun o => o.file = .v && decide (8 * gran < o.reg + o.n)) Cause.regrange) ++
  (match i with
   | .regs _ _ n => causeIf (decide (gran ≤ n.toNat)) Cause.rsvimm
   | _ => [])

end Sys2Proof
end

