-- ==== Sys2Proof/WellFormed.lean ====
section
/-! DEFINITION. Well-formed instructions: those whose operands break no encoding rule (R46, R47, R98, R130, R162, R227,
R372). -/
namespace Sys2Proof

/-- No word cause holds of the instruction, on any core. -/
abbrev Instr.WellFormed (i : Instr) : Prop := i.causes = []

end Sys2Proof
end

