-- ==== Sys2Proof/Decode.lean ====
section
/-! DEFINITION. The decoder of instruction words and microwords (R50 to R62, R129, R130, R147, R162, R181, R190, R200,
R293, R297, R377), and the encoder written from the same tables. -/
namespace Sys2Proof

/-- The five formats (R52). -/
inductive Fmt where
  | a | i | b | m | e
  deriving DecidableEq, Repr

/-- Bits [38:0] of a word, cut as its format cuts them (R52). -/
inductive Body where
  | fa (d a b c : BitVec 8) (fn : BitVec 7)
  | fi (d a : BitVec 8) (imm : BitVec 23)
  | fb (tgt : BitVec 20) (joff : BitVec 12) (dh : BitVec 2) (rsv : BitVec 5)
  | fm (d a b : BitVec 8) (as_ wid : BitVec 3) (ch lh : Bool) (sc : BitVec 3) (ord : BitVec 2) (ht x : Bool)
  | fe (d : BitVec 8) (q : BitVec 2) (sa sb sd : BitVec 4) (fb ti : BitVec 6) (fn : BitVec 5)
  deriving DecidableEq, Repr

/-- A word cut into opcode, head and body. -/
structure Raw where
  op : BitVec 8
  head : Head
  body : Body
  deriving DecidableEq, Repr

/-- What a word is read as: the instruction, the word causes it raises, and its length in bytes (R54). -/
structure Decoded where
  instr : Instr
  causes : List Nat
  len : Nat
  deriving DecidableEq, Repr

/-- Why bytes are no instruction: too few of them, or a word cause by its code (R372). -/
inductive Reject where
  | short
  | cause (c : Nat)
  deriving DecidableEq, Repr

/-- The format of a major opcode; none for a blank one (R60, R61). -/
def fmtOf (op : Nat) : Option Fmt :=
  match op / 16 with
  | 0x0 => match op % 16 with
    | 0x1 | 0x2 => some .b
    | 0x4 | 0xA | 0xB | 0xD | 0xE | 0xF => some .i
    | _ => some .a
  | 0x1 => match op % 16 with
    | 0x0 | 0x1 | 0x5 | 0x6 | 0x7 | 0x8 | 0xA | 0xB => some .i
    | 0xE | 0xF => none
    | _ => some .a
  | 0x2 => some .a
  | 0x3 => if op % 16 < 14 then some .a else some .i
  | 0x4 => if op % 16 ≤ 12 then some .a else none
  | 0x5 => some .a
  | 0x6 => if op % 16 ≤ 8 then some .a else none
  | 0x7 => match op % 16 with
    | 0xA | 0xC => some .i
    | 0xE | 0xF => some .a
    | _ => some .m
  | 0x8 => if op % 16 ≤ 1 then some .a else none
  | 0x9 => match op % 16 with
    | 0x0 | 0x1 | 0x2 | 0x3 => some .a
    | 0x4 | 0x5 => some .m
    | 0x6 | 0x7 => none
    | _ => some .e
  | 0xA => if op % 16 ≤ 4 then some .e else none
  | 0xB => if op % 16 ≤ 7 then some .a else none
  | _ => none

-- cutting and joining words

def bv (n x : Nat) : BitVec n := BitVec.ofNat n x

/-- The body of bits [38:0]. -/
def Body.ofNat (f : Fmt) (x : Nat) : Body :=
  match f, Bits.split [7, 8, 8, 8, 8] x, Bits.split [23, 8, 8] x, Bits.split [5, 2, 12, 20] x,
    Bits.split [1, 1, 2, 3, 1, 1, 3, 3, 8, 8, 8] x, Bits.split [5, 6, 6, 4, 4, 4, 2, 8] x with
  | .a, [fn, c, b, a, d], _, _, _, _ => .fa (bv 8 d) (bv 8 a) (bv 8 b) (bv 8 c) (bv 7 fn)
  | .i, _, [im, a, d], _, _, _ => .fi (bv 8 d) (bv 8 a) (bv 23 im)
  | .b, _, _, [r, dh, j, t], _, _ => .fb (bv 20 t) (bv 12 j) (bv 2 dh) (bv 5 r)
  | .m, _, _, _, [x, ht, o, sc, lh, ch, w, s, b, a, d], _ =>
    .fm (bv 8 d) (bv 8 a) (bv 8 b) (bv 3 s) (bv 3 w) (ch == 1) (lh == 1) (bv 3 sc) (bv 2 o) (ht == 1) (x == 1)
  | .e, _, _, _, _, [fn, ti, blk, sd, sb, sa, q, d] =>
    .fe (bv 8 d) (bv 2 q) (bv 4 sa) (bv 4 sb) (bv 4 sd) (bv 6 blk) (bv 6 ti) (bv 5 fn)
  | _, _, _, _, _, _ => .fi 0 0 0

/-- Bits [38:0] of a body. -/
def Body.toNat : Body → Nat
  | .fa d a b c fn => Bits.pack [(7, fn.toNat), (8, c.toNat), (8, b.toNat), (8, a.toNat), (8, d.toNat)]
  | .fi d a im => Bits.pack [(23, im.toNat), (8, a.toNat), (8, d.toNat)]
  | .fb t j dh r => Bits.pack [(5, r.toNat), (2, dh.toNat), (12, j.toNat), (20, t.toNat)]
  | .fm d a b s w ch lh sc o ht x =>
    Bits.pack [(1, Bits.ofBool x), (1, Bits.ofBool ht), (2, o.toNat), (3, sc.toNat), (1, Bits.ofBool lh),
      (1, Bits.ofBool ch), (3, w.toNat), (3, s.toNat), (8, b.toNat), (8, a.toNat), (8, d.toNat)]
  | .fe d q sa sb sd blk ti fn =>
    Bits.pack [(5, fn.toNat), (6, ti.toNat), (6, blk.toNat), (4, sd.toNat), (4, sb.toNat), (4, sa.toNat),
      (2, q.toNat), (8, d.toNat)]

/-- The head and opcode of bits [63:39]. -/
def Raw.ofWord (w : Dword) : Raw :=
  match Bits.split [39, 1, 3, 3, 6, 4, 8] w.toNat with
  | [x, pn, pg, sbt, wtm, stl, op] =>
    ⟨bv 8 op, ⟨bv 4 stl, bv 6 wtm, bv 3 sbt, bv 3 pg, pn == 1⟩, Body.ofNat ((fmtOf op).getD .i) x⟩
  | _ => ⟨0, default, .fi 0 0 0⟩

def Raw.toWord (r : Raw) : Dword :=
  bv 64 (Bits.pack [(39, r.body.toNat), (1, Bits.ofBool r.head.pn), (3, r.head.pg.toNat), (3, r.head.sbt.toNat),
    (6, r.head.wtm.toNat), (4, r.head.stl.toNat), (8, r.op.toNat)])

/-- Whether a literal word follows (R54). -/
def Body.hasLit : Body → Bool
  | .fa _ _ _ _ fn => fn.toNat / 32 == 2
  | .fi _ _ im => im == 0x400000
  | .fb .. => false
  | .fm _ _ _ _ _ _ _ _ _ _ x => x
  | .fe .. => false

/-- The length of an instruction word's instruction, in bytes (R54). -/
def wordLen (w : Dword) : Nat :=
  let r := Raw.ofWord w
  if (fmtOf r.op.toNat).isSome && r.body.hasLit then 16 else 8

-- codes (R19, R53, R62, R115, R126, R127, R174, R210, R211, R226)

def scopeOf (c : Nat) : Option Scope :=
  match c with
  | 0 => some .warp | 1 => some .team | 2 => some .cluster | 3 => some .die | 4 => some .pkg | 5 => some .domain
  | 6 => some .sys | _ => none

def cmpOf (c : Nat) : Option Cmp :=
  match c with
  | 0 => some .eq | 1 => some .ne | 2 => some .lt | 3 => some .le | 4 => some .gt | 5 => some .ge | 6 => some .ltu
  | 7 => some .leu | 8 => some .gtu | 9 => some .geu | 10 => some .ord | 11 => some .uno | _ => none

def Cmp.code : Cmp → Nat
  | .eq => 0 | .ne => 1 | .lt => 2 | .le => 3 | .gt => 4 | .ge => 5 | .ltu => 6 | .leu => 7 | .gtu => 8 | .geu => 9
  | .ord => 10 | .uno => 11

def roundOf (c : Nat) : Option Round :=
  match c with
  | 0 => some .rne | 1 => some .rtz | 2 => some .rup | 3 => some .rdn | 4 => some .sto | _ => none

def Round.code : Round → Nat
  | .rne => 0 | .rtz => 1 | .rup => 2 | .rdn => 3 | .sto => 4

def tyOf (c : Nat) : Option Ty :=
  match c with
  | 0 => some .f32 | 1 => some .f19 | 2 => some .bf16 | 3 => some .f16 | 4 => some .e5m2 | 5 => some .e4m3
  | 6 => some .e3m4 | 7 => some .e3m2 | 8 => some .e2m3 | 9 => some .e2m1 | 10 => some .i8 | 11 => some .n8
  | 12 => some .i4 | 13 => some .n4 | 14 => some .t2 | 16 => some .f64 | 17 => some .i16 | 18 => some .n16
  | 19 => some .i32 | 20 => some .n32 | 21 => some .i64 | 22 => some .n64 | _ => none

def Ty.code : Ty → Nat
  | .f32 => 0 | .f19 => 1 | .bf16 => 2 | .f16 => 3 | .e5m2 => 4 | .e4m3 => 5 | .e3m4 => 6 | .e3m2 => 7 | .e2m3 => 8
  | .e2m1 => 9 | .i8 => 10 | .n8 => 11 | .i4 => 12 | .n4 => 13 | .t2 => 14 | .f64 => 16 | .i16 => 17 | .n16 => 18
  | .i32 => 19 | .n32 => 20 | .i64 => 21 | .n64 => 22

def widOf (c : Nat) : Option Wid :=
  match c with
  | 0 => some .b8 | 1 => some .s8 | 2 => some .b16 | 3 => some .s16 | 4 => some .b32 | 5 => some .b64
  | 6 => some .b128 | _ => none

def spaceOf (c : Nat) : Space :=
  match c with
  | 0 => .gl | 1 => .glk | 2 => .sp | 3 => .kc | _ => .spc (bv 2 c)

def ordOf (c : Nat) : MemOrd :=
  match c with
  | 0 => .relaxed | 1 => .acquire | 2 => .release | _ => .acqRel

def redOf (c : Nat) : Option RedOp :=
  match c with
  | 0 => some .add | 1 => some .and | 2 => some .or | 3 => some .xor | 4 => some .min | 5 => some .max
  | 6 => some .minu | 7 => some .maxu | 8 => some .fadd | 9 => some .fmin | 10 => some .fmax | 11 => some .hxadd
  | _ => none

def RedOp.code : RedOp → Nat
  | .add => 0 | .and => 1 | .or => 2 | .xor => 3 | .min => 4 | .max => 5 | .minu => 6 | .maxu => 7 | .fadd => 8
  | .fmin => 9 | .fmax => 10 | .hxadd => 11

def atomOf (c : Nat) : Option AtomOp :=
  match c with
  | 0 => some .add | 1 => some .and | 2 => some .or | 3 => some .xor | 4 => some .min | 5 => some .max
  | 6 => some .minu | 7 => some .maxu | 8 => some .xchg | 9 => some .cas | 10 => some .inc | 11 => some .dec
  | 12 => some .fadd | 13 => some .fmin | 14 => some .fmax | _ => none

def AtomOp.code : AtomOp → Nat
  | .add => 0 | .and => 1 | .or => 2 | .xor => 3 | .min => 4 | .max => 5 | .minu => 6 | .maxu => 7 | .xchg => 8
  | .cas => 9 | .inc => 10 | .dec => 11 | .fadd => 12 | .fmin => 13 | .fmax => 14

def evxOf (c : Nat) : Option EvxOp :=
  match c with
  | 0 => some .fadd | 1 => some .fsub | 2 => some .fmul | 3 => some .fmin | 4 => some .fmax | 5 => some .fmov
  | 6 => some .fexp2 | 7 => some .frcp | 8 => some .frsq | 9 => some .ftanh | 10 => some .iadd | 11 => some .imax
  | 12 => some .imul | 13 => some .flog2 | 14 => some .imov | _ => none

def EvxOp.code : EvxOp → Nat
  | .fadd => 0 | .fsub => 1 | .fmul => 2 | .fmin => 3 | .fmax => 4 | .fmov => 5 | .fexp2 => 6 | .frcp => 7
  | .frsq => 8 | .ftanh => 9 | .iadd => 10 | .imax => 11 | .imul => 12 | .flog2 => 13 | .imov => 14

def eredOf (c : Nat) : Option EredOp :=
  match c with
  | 0 => some .fadd | 1 => some .fmax | 2 => some .fmin | 3 => some .iadd | 4 => some .imax | 5 => some .imin
  | 6 => some .fssq | 7 => some .famax | _ => none

def EredOp.code : EredOp → Nat
  | .fadd => 0 | .fmax => 1 | .fmin => 2 | .iadd => 3 | .imax => 4 | .imin => 5 | .fssq => 6 | .famax => 7

def collOf (c : Nat) : Option CollOp :=
  match c with
  | 0 => some .allred | 1 => some .redsc | 2 => some .allgat | 3 => some .bcast | _ => none

def CollOp.code : CollOp → Nat
  | .allred => 0 | .redsc => 1 | .allgat => 2 | .bcast => 3

def collRedOf (c : Nat) : CollRed :=
  match c with
  | 0 => .fadd | 1 => .fmax | 2 => .iadd | _ => .imax

def CollRed.code : CollRed → Nat
  | .fadd => 0 | .fmax => 1 | .iadd => 2 | .imax => 3

def shflOf (c : Nat) : ShflMode :=
  match c with
  | 0 => .idx | 1 => .up | 2 => .down | _ => .xor

def ShflMode.code : ShflMode → Nat
  | .idx => 0 | .up => 1 | .down => 2 | .xor => 3

def voteOf (c : Nat) : VoteMode :=
  match c with
  | 0 => .all | 1 => .any | 2 => .eq | _ => .ballot

def VoteMode.code : VoteMode → Nat
  | .all => 0 | .any => 1 | .eq => 2 | .ballot => 3

def mhsOf (c : Nat) : MemHurdleScope :=
  match c with
  | 2 => .cluster | 3 => .die | 4 => .pkg | _ => .domain

def MemHurdleScope.code : MemHurdleScope → Nat
  | .cluster => 2 | .die => 3 | .pkg => 4 | .domain => 5

def gunitOf (c : Nat) : GUnit :=
  match c with
  | 1 => .raster | 2 => .depth | _ => .trav

def GUnit.code : GUnit → Nat
  | .trav => 0 | .raster => 1 | .depth => 2

-- the fields of a body

def k6 (x : BitVec 8) : KReg := x.setWidth 6
def p3 (x : BitVec 8) : PReg := x.setWidth 3

def TileRef.ofField (x : BitVec 8) : TileRef :=
  ⟨match x.toNat / 64 with | 1 => .col | 2 => .diag | _ => .row, x.setWidth 4⟩

def TileRef.field (t : TileRef) : BitVec 8 :=
  bv 8 ((match t.dir with | .row => 0 | .col => 64 | .diag => 128) + t.n.toNat)

/-- An unused field is 0 (R98). -/
def z8 (x : BitVec 8) : List Nat := causeIf (x != 0) Cause.rsvfld
def kC (x : BitVec 8) : List Nat := causeIf (decide (63 < x.toNat)) Cause.rsvreg
def pC (x : BitVec 8) : List Nat := causeIf (decide (7 < x.toNat)) Cause.rsvreg
def tC (x : BitVec 8) : List Nat :=
  causeIf (x.toNat / 64 == 3 || x.toNat / 16 % 4 != 0) Cause.rsvreg
def fnC (b : Bool) : List Nat := causeIf b Cause.rsvfn
def noCode {α : Type} (o : Option α) : List Nat := causeIf o.isNone Cause.rsvcode

/-- Operand B by BSEL (R62, R96). -/
def srcB (bs : Nat) (b : BitVec 8) (lit : Dword) : SrcB :=
  match bs with
  | 0 => .v b
  | 1 => .k (k6 b)
  | _ => .lit lit

def bC (bs : Nat) (b : BitVec 8) : List Nat :=
  causeIf (bs == 3) Cause.rsvbsel ++ causeIf (bs == 2 && b != 0) Cause.rsvfld ++
  causeIf (bs == 1 && decide (63 < b.toNat)) Cause.rsvreg

/-- B, BSEL unused. -/
def noB (bs : Nat) (b : BitVec 8) : List Nat := causeIf (bs != 0) Cause.rsvbsel ++ z8 b

def vk (kk : Bool) (x : BitVec 8) : VK := if kk then .k (k6 x) else .v x
def vkC (kk : Bool) (x : BitVec 8) : List Nat := if kk then kC x else []

-- format A

/-- Format-A control forms (R129): FN[6:5] must be 0. -/
def decodeCtl (op : Nat) (h : Head) (d a b c : BitVec 8) (fn : BitVec 7) (lit : Dword) : Instr × List Nat :=
  let f := fn.toNat % 32
  let bs := causeIf (fn.toNat / 32 != 0) Cause.rsvbsel
  let bt := Bits.bit f
  match op with
  | 0x00 => (.nop h (if fn.toNat / 32 = 2 then some lit else none), [])
  | 0x03 => (.brx h a (bv 12 (c.toNat * 16 + f % 16)), bs ++ fnC (bt 4) ++ z8 d ++ z8 b)
  | 0x05 => (.callx h d a, bs ++ fnC (f != 0) ++ z8 b ++ z8 c)
  | 0x06 => (.ret h a, bs ++ fnC (f != 0) ++ z8 d ++ z8 b ++ z8 c)
  | 0x07 => (.exit h, bs ++ fnC (f != 0) ++ z8 d ++ z8 a ++ z8 b ++ z8 c)
  | 0x08 => (.yield h, bs ++ fnC (f != 0) ++ z8 d ++ z8 a ++ z8 b ++ z8 c)
  | 0x09 => (.sleep h (k6 a) (bt 0), bs ++ fnC (f / 2 != 0) ++ z8 d ++ kC a ++ z8 b ++ z8 c)
  | 0x0C => (.lbrk h (bv 2 f), bs ++ fnC (f / 4 != 0) ++ z8 d ++ z8 a ++ z8 b ++ z8 c)
  | 0x12 => (.fwait h (vk (!bt 0) d) (vk (!bt 0) a),
      bs ++ fnC (f / 2 != 0) ++ vkC (!bt 0) d ++ vkC (!bt 0) a ++ z8 b ++ z8 c)
  | 0x13 => (.ftest h (p3 d) (vk (!bt 0) a), bs ++ fnC (f / 2 != 0) ++ pC d ++ vkC (!bt 0) a ++ z8 b ++ z8 c)
  | 0x14 => (.cancel h (vk (!bt 0) d) (vk (!bt 0) a),
      bs ++ fnC (f / 2 != 0) ++ vkC (!bt 0) d ++ vkC (!bt 0) a ++ z8 b ++ z8 c)
  | 0x19 =>
    (match f % 4 with | 0 => .eretRetry h | 1 => .eretSkip h | _ => .eretKill h,
      bs ++ fnC (f / 4 != 0) ++ causeIf (f % 4 == 3) Cause.rsvmode ++ z8 d ++ z8 a ++ z8 b ++ z8 c)
  | 0x1C => (.park h (k6 a) (k6 b), bs ++ fnC (f != 0) ++ z8 d ++ kC a ++ kC b ++ z8 c)
  | _ =>
    (if f % 4 = 1 then .unparkSkip h (k6 a) (k6 b) else .unparkRetry h (k6 a) (k6 b),
      bs ++ fnC (f / 4 != 0 || f % 4 == 2) ++ causeIf (f % 4 == 3) Cause.rsvmode ++ z8 d ++ kC a ++ kC b ++ z8 c)

/-- Opcodes 0x20 to 0x2F (R99, R101, R102). -/
def decodeInt (op : Nat) (h : Head) (d a b c : BitVec 8) (fn : BitVec 7) (lit : Dword) : Instr × List Nat :=
  let f := fn.toNat % 32
  let bs := fn.toNat / 32
  let bt := Bits.bit f
  let y := srcB bs b lit
  match op with
  | 0x20 => (.iadd h d a y (bt 0) (bt 1) (bt 2), fnC (f / 8 != 0) ++ bC bs b ++ z8 c)
  | 0x21 => (.isub h d a y (bt 0) (bt 1) (bt 2), fnC (f / 8 != 0) ++ bC bs b ++ z8 c)
  | 0x22 => (.imul h d a y (bt 1) (bt 2), fnC (f / 8 != 0 || bt 0) ++ bC bs b ++ z8 c)
  | 0x23 => (.imulh h d a y (bt 2), fnC (f / 8 != 0 || f % 4 != 0) ++ bC bs b ++ z8 c)
  | 0x24 => (.imad h d a y c (bt 1) (bt 2), fnC (f / 8 != 0 || bt 0) ++ bC bs b)
  | 0x25 => (.imadw h d a y c (bt 1) (bt 2), fnC (f / 8 != 0 || bt 0) ++ bC bs b)
  | 0x26 => (.imin h d a y (bt 2), fnC (f / 8 != 0 || f % 4 != 0) ++ bC bs b ++ z8 c)
  | 0x27 => (.imax h d a y (bt 2), fnC (f / 8 != 0 || f % 4 != 0) ++ bC bs b ++ z8 c)
  | 0x28 => (.iabs h d a (bt 1), fnC (f / 4 != 0 || bt 0) ++ noB bs b ++ z8 c)
  | 0x29 => (.and h d a y, fnC (f != 0) ++ bC bs b ++ z8 c)
  | 0x2A => (.or h d a y, fnC (f != 0) ++ bC bs b ++ z8 c)
  | 0x2B => (.xor h d a y, fnC (f != 0) ++ bC bs b ++ z8 c)
  | 0x2C => (.andn h d a y, fnC (f != 0) ++ bC bs b ++ z8 c)
  | 0x2D => (.not h d a, fnC (f != 0) ++ noB bs b ++ z8 c)
  | 0x2E => (.lop3 h d a y c, fnC (f != 0) ++ bC bs b)
  | _ => (.shl h d a y (bt 0) (bt 1), fnC (f / 4 != 0) ++ bC bs b ++ z8 c)

/-- The destination of MOV (R107). -/
def movDst (f : Nat) (d : BitVec 8) : MovDst :=
  match f % 4 with
  | 0 => .v d
  | 1 => .w d
  | 2 => .k (k6 d)
  | _ => .wk (k6 d)

/-- Opcodes 0x30 to 0x3D (R102 to R107). -/
def decodeBits (op : Nat) (h : Head) (d a b c : BitVec 8) (fn : BitVec 7) (lit : Dword) : Instr × List Nat :=
  let f := fn.toNat % 32
  let bs := fn.toNat / 32
  let bt := Bits.bit f
  let y := srcB bs b lit
  match op with
  | 0x30 => (.shr h d a y (bt 0) (bt 1), fnC (f / 4 != 0) ++ bC bs b ++ z8 c)
  | 0x31 => (.sar h d a y (bt 0) (bt 1), fnC (f / 4 != 0) ++ bC bs b ++ z8 c)
  | 0x32 => (.rotl h d a y (bt 0), fnC (f / 2 != 0) ++ bC bs b ++ z8 c)
  | 0x33 => (.clz h d a, fnC (f != 0) ++ noB bs b ++ z8 c)
  | 0x34 => (.ctz h d a, fnC (f != 0) ++ noB bs b ++ z8 c)
  | 0x35 => (.popc h d a, fnC (f != 0) ++ noB bs b ++ z8 c)
  | 0x36 => (.brev h d a, fnC (f != 0) ++ noB bs b ++ z8 c)
  | 0x37 => (.bfx h d a y (bt 2), fnC (f / 8 != 0 || f % 4 != 0) ++ bC bs b ++ z8 c)
  | 0x38 => (.bfi h d a y c, fnC (f != 0) ++ bC bs b)
  | 0x39 => (.ilv h d a y c (bt 0), fnC (f / 2 != 0) ++ bC bs b)
  | 0x3A => (.dlv h d a y (bt 0), fnC (f / 2 != 0) ++ bC bs b ++ z8 c)
  | 0x3B => (.icmp h ((cmpOf (f % 16)).getD .eq) (p3 d) a y (p3 c),
      fnC (bt 4) ++ noCode (cmpOf (f % 16)) ++ bC bs b ++ pC d ++ pC c)
  | 0x3C => (.isel h d a y (p3 c), fnC (f != 0) ++ bC bs b ++ pC c)
  | _ => (.mov h (movDst f d) y, fnC (f / 4 != 0) ++ bC bs b ++ z8 a ++ z8 c ++ vkC (bt 1) d)

def tyC (x : BitVec 8) : List Nat :=
  causeIf (decide (31 < x.toNat)) Cause.rsvfld ++ causeIf (tyOf (x.toNat % 32)).isNone Cause.rsvtype

def ty (x : BitVec 8) : Ty := (tyOf (x.toNat % 32)).getD .f32

/-- Opcodes 0x40 to 0x4C (R109, R115 to R128). -/
def decodeMisc (op : Nat) (h : Head) (d a b c : BitVec 8) (fn : BitVec 7) (lit : Dword) : Instr × List Nat :=
  let f := fn.toNat % 32
  let bs := fn.toNat / 32
  let bt := Bits.bit f
  let y := srcB bs b lit
  let nbs := causeIf (bs != 0) Cause.rsvbsel
  let g : GReg := bv 3 (f / 4)
  let rm := roundOf (f % 8)
  match op with
  | 0x40 => (.lea h d a y (bv 3 f) (bt 3), fnC (bt 4) ++ bC bs b ++ z8 c)
  | 0x41 => (.cvt h d a (ty b) (ty c) (rm.getD .rne) (bt 3), nbs ++ fnC (bt 4) ++ noCode rm ++ tyC b ++ tyC c)
  | 0x42 => (.pack h d a (ty b) (ty c) (rm.getD .rne) (bt 3), nbs ++ fnC (bt 4) ++ noCode rm ++ tyC b ++ tyC c)
  | 0x43 => (.unpk h d a (ty b) (ty c), nbs ++ fnC (f != 0) ++ tyC b ++ tyC c)
  | 0x44 => (.plop h (p3 d) (p3 a) (p3 b) (p3 c) (bv 4 f) (bt 4), nbs ++ pC d ++ pC a ++ pC b ++ pC c)
  | 0x45 =>
    (.pmov h (match f % 4 with | 0 => .tov d | 1 => .fromv a | _ => .sp (p3 d) (p3 a)),
      fnC (f / 4 != 0) ++ causeIf (f % 4 == 3) Cause.rsvmode ++ noB bs b ++ z8 c ++
      (match f % 4 with | 0 => z8 a | 1 => z8 d | 2 => pC d ++ pC a | _ => []))
  | 0x46 => (.part h (p3 d) (bv 2 f), fnC (f / 4 != 0) ++ pC d ++ z8 a ++ noB bs b ++ z8 c)
  | 0x47 => (.shfl h (shflOf (f % 4)) d a y c g, bC bs b)
  | 0x48 => (.vote h (voteOf (f % 4)) d (p3 a) g, pC a ++ noB bs b ++ z8 c)
  | 0x49 => (.redux h ((redOf (f % 16)).getD .add) d a (p3 b),
      nbs ++ fnC (bt 4) ++ noCode (redOf (f % 16)) ++ pC b ++ z8 c)
  | 0x4A => (.scan h ((redOf (f % 16)).getD .add) d a (p3 b) (bt 4), nbs ++ noCode (redOf (f % 16)) ++ pC b ++ z8 c)
  | 0x4B =>
    if bt 0 then (.bcast h d a .first c g, fnC (bt 1) ++ noB bs b)
    else (.bcast h d a (if bs = 1 then .k (k6 b) else .lit lit) c g,
      fnC (bt 1) ++ causeIf (bs == 0) Cause.rsvbsel ++ bC bs b)
  | _ => (.matchV h d a g (bt 0), fnC (bt 1) ++ noB bs b ++ z8 c)

/-- Opcodes 0x50 to 0x68 (R110 to R114). -/
def decodeFp (op : Nat) (h : Head) (d a b c : BitVec 8) (fn : BitVec 7) (lit : Dword) : Instr × List Nat :=
  let f := fn.toNat % 32
  let bs := fn.toNat / 32
  let bt := Bits.bit f
  let y := srcB bs b lit
  let f1 := fnC (f / 2 != 0)
  let f0 := fnC (f != 0)
  match op with
  | 0x50 => (.fadd h d a y (bt 0), f1 ++ bC bs b ++ z8 c)
  | 0x51 => (.fsub h d a y (bt 0), f1 ++ bC bs b ++ z8 c)
  | 0x52 => (.fmul h d a y (bt 0), f1 ++ bC bs b ++ z8 c)
  | 0x53 => (.ffma h d a y c (bt 0), f1 ++ bC bs b)
  | 0x54 => (.fmin h d a y, f0 ++ bC bs b ++ z8 c)
  | 0x55 => (.fmax h d a y, f0 ++ bC bs b ++ z8 c)
  | 0x56 => (.fcmp h ((cmpOf (f % 16)).getD .eq) (p3 d) a y (p3 c),
      fnC (bt 4) ++ noCode (cmpOf (f % 16)) ++ bC bs b ++ pC d ++ pC c)
  | 0x57 => (.frcp h d a, f0 ++ noB bs b ++ z8 c)
  | 0x58 => (.frsq h d a, f0 ++ noB bs b ++ z8 c)
  | 0x59 => (.fsqrt h d a, f0 ++ noB bs b ++ z8 c)
  | 0x5A => (.fexp2 h d a, f0 ++ noB bs b ++ z8 c)
  | 0x5B => (.flog2 h d a, f0 ++ noB bs b ++ z8 c)
  | 0x5C => (.fsin h d a, f0 ++ noB bs b ++ z8 c)
  | 0x5D => (.fcos h d a, f0 ++ noB bs b ++ z8 c)
  | 0x5E => (.ftanh h d a, f0 ++ noB bs b ++ z8 c)
  | 0x5F => (.frnd h d a ((roundOf (f % 8)).getD .rne), fnC (f / 8 != 0) ++ noCode (roundOf (f % 8)) ++ noB bs b ++ z8 c)
  | 0x60 => (.ffrc h d a, f0 ++ noB bs b ++ z8 c)
  | 0x61 => (.hxadd h d a y (bt 0), f1 ++ bC bs b ++ z8 c)
  | 0x62 => (.hxmul h d a y (bt 0), f1 ++ bC bs b ++ z8 c)
  | 0x63 => (.hxfma h d a y c (bt 0), f1 ++ bC bs b)
  | 0x64 => (.hxmax h d a y (bt 0), f1 ++ bC bs b ++ z8 c)
  | 0x65 => (.dadd h d a y, f0 ++ bC bs b ++ z8 c)
  | 0x66 => (.dmul h d a y, f0 ++ bC bs b ++ z8 c)
  | 0x67 => (.dfma h d a y c, f0 ++ bC bs b)
  | _ => (.dcmp h ((cmpOf (f % 16)).getD .eq) (p3 d) a y (p3 c),
      fnC (bt 4) ++ noCode (cmpOf (f % 16)) ++ bC bs b ++ pC d ++ pC c)

/-- The index of MOVT (R197). -/
def movtIdx (isrc : Nat) (b c : BitVec 8) : MovtIdx :=
  match isrc with
  | 1 => .k (k6 b)
  | 2 => .v b
  | _ => .imm (c.setWidth 5)

/-- Hypothesis, gang and graphics forms of format A (R181, R190, R297): FN[6:5] must be 0. -/
def decodeUnit (op : Nat) (h : Head) (d a b c : BitVec 8) (fn : BitVec 7) : Instr × List Nat :=
  let f := fn.toNat % 32
  let bs := causeIf (fn.toNat / 32 != 0) Cause.rsvbsel
  let bt := Bits.bit f
  match op with
  | 0x7E => (.hset h (vk (bt 0) a), bs ++ fnC (f / 2 != 0) ++ vkC (bt 0) a ++ z8 d ++ z8 b ++ z8 c)
  | 0x7F => (.hnew h (vk (bt 0) d) (vk (bt 0) a),
      bs ++ fnC (f / 2 != 0) ++ vkC (bt 0) a ++ vkC (bt 0) d ++ z8 b ++ z8 c)
  | 0x80 => (if bt 0 then .hresRefute h (k6 d) (k6 a) else .hresConfirm h (k6 d) (k6 a),
      bs ++ fnC (f / 2 != 0) ++ kC d ++ kC a ++ z8 b ++ z8 c)
  | 0x81 =>
    if f % 4 = 1 then (.hqryAnc h (p3 d) a b, bs ++ fnC (f / 4 != 0) ++ pC d ++ z8 c)
    else (.hqryInfo h (k6 d) (k6 a),
      bs ++ fnC (f / 4 != 0) ++ causeIf (decide (1 < f % 4)) Cause.rsvmode ++ kC d ++ kC a ++ z8 b ++ z8 c)
  | 0x90 => (.gang h (k6 a), bs ++ fnC (f != 0) ++ kC a ++ z8 d ++ z8 b ++ z8 c)
  | 0x91 => (.mma h (.ofField d) a (k6 b) c (bt 0) (bt 1), bs ++ fnC (f / 4 != 0) ++ tC d ++ kC b)
  | 0x92 =>
    (if bt 0 then .movt h (.ofField d) a true (movtIdx (f / 2 % 4) b c)
      else .movt h (.ofField a) d false (movtIdx (f / 2 % 4) b c),
      bs ++ fnC (f / 8 != 0 || f / 2 % 4 == 3) ++ tC (if bt 0 then d else a) ++
      (match f / 2 % 4 with
       | 0 => causeIf (decide (31 < c.toNat)) Cause.rsvfld ++ z8 b
       | 1 => kC b ++ z8 c
       | 2 => z8 c
       | _ => []))
  | 0x93 => (.tzero h (.ofField d), bs ++ fnC (f != 0) ++ tC d ++ z8 a ++ z8 b ++ z8 c)
  | 0xB0 => (.trace h d a (k6 b) (gunitOf (f % 4)) (bt 2), bs ++ fnC (f / 8 != 0 || f % 4 == 3) ++ kC b ++ z8 c)
  | 0xB1 => (.tqry h d a (bt 0), bs ++ fnC (f / 2 != 0) ++ z8 b ++ z8 c)
  | 0xB2 => (.texs h d a (k6 b), bs ++ fnC (f != 0) ++ kC b ++ z8 c)
  | 0xB3 => (.texl h d a (k6 b), bs ++ fnC (f != 0) ++ kC b ++ z8 c)
  | 0xB4 => (.texg h d a (k6 b) (bv 2 f), bs ++ fnC (f / 4 != 0) ++ kC b ++ z8 c)
  | 0xB5 => (.ordb h a, bs ++ fnC (f != 0) ++ z8 d ++ z8 b ++ z8 c)
  | 0xB6 => (.orde h a, bs ++ fnC (f != 0) ++ z8 d ++ z8 b ++ z8 c)
  | _ => (.refit h (k6 d) (k6 a), bs ++ fnC (f != 0) ++ kC d ++ kC a ++ z8 b ++ z8 c)

def decodeA (op : Nat) (h : Head) (d a b c : BitVec 8) (fn : BitVec 7) (lit : Dword) : Instr × List Nat :=
  match op / 16 with
  | 0 | 1 => decodeCtl op h d a b c fn lit
  | 2 => decodeInt op h d a b c fn lit
  | 3 => decodeBits op h d a b c fn lit
  | 4 => decodeMisc op h d a b c fn lit
  | 5 | 6 => decodeFp op h d a b c fn lit
  | _ => decodeUnit op h d a b c fn

-- format I

/-- The immediate of a format-I control form as 64 bits: its own field, or the literal word (R130). -/
def immOf (im : BitVec 23) (lit : Dword) : Dword := if im = 0x400000 then lit else im.zeroExtend 64

/-- A field from bit lo to the top of the immediate: sign-extended (R130). -/
def immTop (im : BitVec 23) (lit : Dword) (lo : Nat) : Dword :=
  (if im = 0x400000 then lit else im.signExtend 64).sshiftRight lo

/-- Reserved immediate bits from bit lo up (R130). -/
def immC (x : Dword) (lo : Nat) : List Nat := causeIf (x >>> lo != 0) Cause.rsvfld

def lvlC (d : BitVec 8) : List Nat := causeIf (decide (3 < d.toNat)) Cause.rsvfld

/-- A mode field A: 0, or 0x80 plus a k register (R108, R142, R178). -/
def modeC (a : BitVec 8) : List Nat :=
  causeIf (a != 0 && !decide (0x80 ≤ a.toNat ∧ a.toNat ≤ 0xBF)) Cause.rsvmode

/-- The hurdle forms (R147): reserved bits, scope, the fields of each kind. -/
def hurdC (op : Nat) (d a : BitVec 8) (x : Dword) : List Nat :=
  let sc := Bits.field x.toNat 11 3
  immC x 14 ++ causeIf (sc == 0 || decide (5 < sc)) Cause.rsvhurd ++
  (if sc = 1 then causeIf (decide (15 < d.toNat)) Cause.rsvfld ++ z8 a
   else if 2 ≤ sc ∧ sc ≤ 5 then
     causeIf (Bits.field x.toNat 0 11 != 0) Cause.rsvhurd ++ kC a ++ (if op = 0x0D then z8 d else pC d)
   else [])

def decodeI (op : Nat) (h : Head) (d a : BitVec 8) (im : BitVec 23) (lit : Dword) : Instr × List Nat :=
  let x := im == 0x400000
  let im64 := immOf im lit
  let n := im64.toNat
  let imm : Imm := if x then .lit lit else .short im
  let team := Bits.field n 11 3 == 1
  let mhs := mhsOf (Bits.field n 11 3)
  match op with
  | 0x04 => (.call h d x (immTop im lit 0), z8 a)
  | 0x0A =>
    if a = 0 then (.lset h (d.setWidth 2) x (.imm (bv 53 (n / 2 ^ 11))) (bv 11 n), lvlC d)
    else (.lset h (d.setWidth 2) x (.k (k6 a)) (bv 11 n),
      lvlC d ++ modeC a ++ (if modeC a = [] then immC im64 11 else []))
  | 0x0B => (.lrot h (d.setWidth 2) x (bv 4 (n / 2 ^ 17)) (bv 9 (n / 2 ^ 8)) (bv 8 n), lvlC d ++ z8 a ++ immC im64 21)
  | 0x0D =>
    (if team then .hurd h x (bv 4 d.toNat) (bv 11 n) else .hurdMem h x mhs (k6 a), hurdC op d a im64)
  | 0x0E =>
    (if team then .harr h x (bv 4 d.toNat) (bv 11 n) else .harrMem h x mhs (p3 d) (k6 a), hurdC op d a im64)
  | 0x0F =>
    (if team then .hwt h x (bv 4 d.toNat) (bv 11 n) else .hwtMem h x mhs (p3 d) (k6 a), hurdC op d a im64)
  | 0x10 => (.spawn h a x (bv 4 n) ((immTop im lit 4).setWidth 60), z8 d)
  | 0x11 => (.task h (k6 d) (k6 a) x (immTop im lit 0), kC d ++ kC a)
  | 0x15 => (.baton h d a x (bv 4 n) ((immTop im lit 4).setWidth 60), [])
  | 0x16 => (.regx h (p3 d) x (bv 6 n), pC d ++ z8 a ++ immC im64 6)
  | 0x17 => (.regs h x (bv 6 n), z8 d ++ z8 a ++ immC im64 6)
  | 0x18 => (.trap h x (bv 8 n), z8 d ++ z8 a ++ immC im64 8)
  | 0x1A => (.srd h (vk (Bits.bit n 12) d) x (bv 12 n), z8 a ++ vkC (Bits.bit n 12) d ++ immC im64 13)
  | 0x1B => (.swr h (vk (Bits.bit n 12) a) x (bv 12 n), z8 d ++ vkC (Bits.bit n 12) a ++ immC im64 13)
  | 0x3E => (.movi h d (a == 1) imm, causeIf (decide (1 < a.toNat)) Cause.rsvmode)
  | 0x3F => (.movk h (k6 d) (if a = 0 then .imm else .add (k6 a)) imm, kC d ++ modeC a)
  | 0x7A =>
    (.fxp h x (bv 7 n) (bv 7 (n / 2 ^ 7)) ((scopeOf (Bits.field n 14 3)).getD .warp),
      z8 d ++ z8 a ++ causeIf (scopeOf (Bits.field n 14 3)).isNone Cause.rsvfld ++ immC im64 17)
  | _ =>
    (.lease h x (if a = 0 then .imm (bv 12 n) else .k (k6 a)),
      z8 d ++ modeC a ++ (if a = 0 then immC im64 12 else if modeC a = [] then immC im64 0 else immC im64 12))

-- formats B, M and E

def decodeB (op : Nat) (h : Head) (t : BitVec 20) (j : BitVec 12) (dh : BitVec 2) (r : BitVec 5) : Instr × List Nat :=
  let dh := if dh = 3 then 0 else dh
  if op = 0x01 then (.bra h t j dh, causeIf (r != 0) Cause.rsvfld)
  else (.jmp h t dh, causeIf (r != 0) Cause.rsvfld ++ causeIf (j != 0) Cause.rsvbra)

def decodeM (op : Nat) (h : Head) (d a b : BitVec 8) (s w : BitVec 3) (ch lh : Bool) (sc : BitVec 3) (o : BitVec 2)
    (ht x : Bool) (lit : Dword) : Instr × List Nat :=
  let wd := (widOf w.toNat).getD .b32
  let scp := (scopeOf sc.toNat).getD .warp
  let rc := causeIf ((widOf w.toNat).isNone || (scopeOf sc.toNat).isNone) Cause.rsvmem
  let off : Off := if x then .lit (lit.setWidth 32) else .short b
  let bx := causeIf (x && b != 0) Cause.rsvfld
  let m : MemRef := ⟨spaceOf s.toNat, a, off⟩
  let f : MemFlags := ⟨ordOf o.toNat, scp, ch, lh, ht⟩
  let l := lit.toNat
  let am : MemRef := ⟨spaceOf s.toNat, a, if x then .lit (lit.setWidth 32) else .short 0⟩
  let aop := atomOf (Bits.field l 52 4)
  let ac := rc ++ (if x then noCode aop ++ causeIf (Bits.field l 32 20 != 0) Cause.rsvfld else [])
  let c : VReg := if x then bv 8 (l / 2 ^ 56) else 0
  let op' := if x then aop.getD .add else .add
  match op with
  | 0x70 => (.ld h d m wd f, rc ++ bx)
  | 0x71 => (.st h d m wd f, rc ++ bx)
  | 0x72 => (.lds h d m wd f, rc ++ bx)
  | 0x73 => (.sts h d m wd f, rc ++ bx)
  | 0x74 => (.ldk h (k6 d) m wd f, rc ++ bx ++ kC d)
  | 0x75 => (.ldm h (k6 d) m wd f, rc ++ bx ++ kC d)
  | 0x76 => (.atom h d b c op' am wd f, ac)
  | 0x77 => (.atoms h d b c op' am wd f, ac)
  | 0x78 => (.red h b op' am wd f, ac ++ z8 d ++ z8 c)
  | 0x79 => (.fence h (ordOf o.toNat) scp,
      rc ++ causeIf (s != 0 || w != 0 || ch || lh || ht) Cause.rsvmem ++ z8 d ++ z8 a ++ z8 b ++
      causeIf x Cause.rsvlit)
  | 0x7B => (.pref h m wd f, rc ++ bx ++ z8 d)
  | 0x7D => (.cflush h m wd f, rc ++ bx ++ z8 d)
  | 0x94 => (.tld h (.ofField d) m wd f, rc ++ bx ++ tC d)
  | _ => (.tst h (.ofField d) m wd f, rc ++ bx ++ tC d)

def decodeE (op : Nat) (h : Head) (d : BitVec 8) (q : BitVec 2) (sa sb sd : BitVec 4) (fb ti : BitVec 6)
    (fn : BitVec 5) : Instr × List Nat :=
  let e : EFields := ⟨k6 d, q, sa, sb, sd, fb, ti⟩
  let f := fn.toNat
  let bt := Bits.bit f
  let r := kC d
  let u (used : Bool) : List Nat := if used then r else causeIf (decide (63 < d.toNat)) Cause.rsvfld
  match op with
  | 0x98 => (.strec h e, r ++ fnC (f != 0))
  | 0x99 => (.emm h e (bt 0) (bt 1), u (bt 1) ++ fnC (f / 4 != 0))
  | 0x9A => (.evx h e ((evxOf (f % 16)).getD .fadd) (bt 4), u (bt 4) ++ noCode (evxOf (f % 16)))
  | 0x9B => (.ered h e ((eredOf (f % 16)).getD .fadd), u false ++ fnC (bt 4) ++ noCode (eredOf (f % 16)))
  | 0x9C => (.ecpy h e (bv 4 f) (bt 4), r)
  | 0x9D => (.emode h e ((roundOf (f % 8)).getD .rne), r ++ fnC (f / 8 != 0) ++ noCode (roundOf (f % 8)))
  | 0x9E => (.enote h e fn, u false)
  | 0x9F => (.ewait h e fn, u false)
  | 0xA0 => (.esave h e, r ++ fnC (f != 0))
  | 0xA1 => (.eres h e, r ++ fnC (f != 0))
  | 0xA2 => (.wmrd h e (bv 4 f), r ++ fnC (bt 4))
  | 0xA3 => (if bt 4 then .wmsetOff h e (bv 4 f) else .wmset h e (bv 4 f), u (!bt 4))
  | _ => (.coll h e ((collOf (f % 8)).getD .allred) (collRedOf (f / 8)), r ++ noCode (collOf (f % 8)))

/-- The instruction of a raw word, with the causes that its reserved bits raise. -/
def Raw.instr (r : Raw) (lit : Dword) : Instr × List Nat :=
  match r.body with
  | .fa d a b c fn => decodeA r.op.toNat r.head d a b c fn lit
  | .fi d a im => decodeI r.op.toNat r.head d a im lit
  | .fb t j dh v => decodeB r.op.toNat r.head t j dh v
  | .fm d a b s w ch lh sc o ht x => decodeM r.op.toNat r.head d a b s w ch lh sc o ht x lit
  | .fe d q sa sb sd blk ti fn => decodeE r.op.toNat r.head d q sa sb sd blk ti fn

/-- A PREF or CFLUSH whose reserved values all lie in its format-M fields is a NOP (R377). -/
def prefNop (i : Instr) (cs : List Nat) (len : Nat) (lit : Dword) : Instr × List Nat :=
  let lit' := if len = 16 then some lit else none
  match i with
  | .pref h .. =>
    if cs ++ i.causes = [] ∨ h.sbt = 7 then (i, cs ++ i.causes) else (.nop h lit', [])
  | .cflush h .. =>
    if cs ++ i.causes = [] ∨ h.sbt = 7 then (i, cs ++ i.causes) else (.nop h lit', [])
  | _ => (i, cs ++ i.causes)

/-- The reading of a word and the word after it (R54, R377). -/
def decodeWord (w lit : Dword) : Decoded :=
  let r := Raw.ofWord w
  match fmtOf r.op.toNat with
  | none => ⟨.nop r.head none, [Cause.rsvop], 8⟩
  | some _ =>
    let len := wordLen w
    let (i, cs) := r.instr lit
    let (i, cs) := prefNop i cs len lit
    ⟨i, cs, len⟩

/-- The first instruction of a list of bytes and the bytes after it; a rejection names its cause. -/
def decode (bs : List Byte) : Except Reject (Instr × List Byte) :=
  if bs.length < 8 then .error .short
  else
    let w := bv 64 (Bits.ofBytes (bs.take 8))
    if bs.length < wordLen w then .error .short
    else
      let d := decodeWord w (bv 64 (Bits.ofBytes ((bs.drop 8).take 8)))
      match Cause.first d.causes with
      | some c => .error (.cause c)
      | none => .ok (d.instr, bs.drop d.len)

/-- The instruction read from an instruction whose bits are w, bit 0 of its first word lowest; the bits above nbits
are 0. -/
def decodeTableWord (nbits w : Nat) : Option Instr :=
  match decode (Bits.toBytes (w % 2 ^ nbits) 16) with
  | .ok (i, _) => some i
  | .error _ => none

-- microwords (R293 to R295)

/-- A microword's fields. -/
def Micro.ofWord (w : Dword) : Micro :=
  let x := w.toNat
  let f := Bits.field x
  ⟨bv 6 (f 54 6), bv 6 (f 48 6), bv 6 (f 42 6), bv 6 (f 36 6), Bits.bit x 31, Bits.bit x 30, Bits.bit x 29,
    bv 16 (f 0 16)⟩

/-- The micro-operation of a microword; none where a value is reserved (MRSV, R295, R377). -/
def decodeMicro (w : Dword) : Option Instr :=
  let x := w.toNat
  let m := Micro.ofWord w
  let cc := Bits.field x 32 4
  let c0 := cc == 0
  let no := !m.im && !m.sn && !m.int
  let cf := decide (m.c.toNat < 8)
  if Bits.field x 16 13 != 0 then none
  else match Bits.field x 60 4 with
  | 0 => if !no then none else match cc with
    | 0 => some (.nfetchFetch m) | 1 => some (.nfetchRaw m) | 2 => some (.nfetchChild m) | _ => none
  | 1 => if no && c0 && decide (1 ≤ m.imm.toNat ∧ m.imm.toNat ≤ 12) then some (.pfetch m) else none
  | 2 => if c0 then some (.xfma m) else none
  | 3 => if c0 && !m.sn then some (.xmul m) else none
  | 4 => if c0 && !m.sn then some (.xmin m) else none
  | 5 => if c0 && !m.sn then some (.xmax m) else none
  | 6 => if m.sn || !cf || decide (7 < m.d.toNat) || (m.int && decide (9 < cc)) then none
         else (cmpOf cc).map (.xcmp m)
  | 7 => if c0 && !m.int && cf then some (.xsel m) else none
  | 8 => if !no then none else match cc with
    | 0 => some (.xrcp m) | 1 => some (.xrcpSq m) | _ => none
  | 9 => if no && c0 then some (.spush m) else none
  | 10 => if no && c0 then some (.spop m) else none
  | 11 => if no && c0 then some (.microGo m) else none
  | 12 => if c0 && !m.im && !m.int && cf then some (.goif m) else none
  | 13 => if !no then none else match cc with
    | 0 => some (.emitHit m) | 1 => some (.emitSpawn m) | 2 => some (.emitSpord m) | 3 => some (.emitOut m)
    | _ => none
  | 14 => if no && c0 then some (.lazy m) else none
  | _ => if no && c0 then some (.microDone m) else none

-- the encoder

/-- BSEL, the B field and the literal word of an operand B (R62). -/
def SrcB.bsel : SrcB → Nat
  | .v _ => 0 | .k _ => 1 | .lit _ => 2

def SrcB.field : SrcB → BitVec 8
  | .v r => r | .k r => r.setWidth 8 | .lit _ => 0

def SrcB.litWord : SrcB → Option Dword
  | .lit x => some x
  | _ => none

def VK.field : VK → BitVec 8
  | .v r => r | .k r => r.setWidth 8

def VK.isK : VK → Bool
  | .v _ => false | .k _ => true

/-- Function bits from the least significant up. -/
def fnBits : List Bool → Nat
  | [] => 0
  | b :: r => Bits.ofBool b + 2 * fnBits r

def k8 (k : KReg) : BitVec 8 := k.setWidth 8
def p8 (p : PReg) : BitVec 8 := p.setWidth 8

/-- A format-A word: opcode, D, A, B by BSEL, C, FN[4:0]. -/
def encA (op : Nat) (h : Head) (d a : BitVec 8) (b : SrcB) (c : BitVec 8) (f : Nat) : Option (Dword × Option Dword) :=
  some (Raw.toWord ⟨bv 8 op, h, .fa d a b.field c (bv 7 (32 * b.bsel + f))⟩, b.litWord)

/-- A format-A word of a form without BSEL. -/
def encU (op : Nat) (h : Head) (d a b c : BitVec 8) (f : Nat) : Option (Dword × Option Dword) :=
  some (Raw.toWord ⟨bv 8 op, h, .fa d a b c (bv 7 f)⟩, none)

/-- A format-I word, with its immediate in the word or in the literal word (R54, R130). -/
def encI (op : Nat) (h : Head) (d a : BitVec 8) (x : Bool) (v : Dword) : Option (Dword × Option Dword) :=
  some (Raw.toWord ⟨bv 8 op, h, .fi d a (if x then 0x400000 else v.setWidth 23)⟩, if x then some v else none)

def encB (op : Nat) (h : Head) (t : BitVec 20) (j : BitVec 12) (dh : BitVec 2) : Option (Dword × Option Dword) :=
  some (Raw.toWord ⟨bv 8 op, h, .fb t j dh 0⟩, none)

def Off.field : Off → BitVec 8
  | .short o => o | .lit _ => 0

def Off.lit? : Off → Option Dword
  | .short _ => none
  | .lit o => some (o.setWidth 64)

def encM (op : Nat) (h : Head) (d : BitVec 8) (m : MemRef) (w : Wid) (f : MemFlags) : Option (Dword × Option Dword) :=
  some (Raw.toWord ⟨bv 8 op, h, .fm d m.base m.off.field (bv 3 m.space.code) (bv 3 w.code) f.ch f.lh
    (bv 3 f.sc.code) (bv 2 f.ord.code) f.ht m.off.lit?.isSome⟩, m.off.lit?)

/-- An atomic's word and its literal (R174). -/
def encAtom (op : Nat) (h : Head) (d b c : BitVec 8) (aop : AtomOp) (m : MemRef) (w : Wid) (f : MemFlags) :
    Option (Dword × Option Dword) :=
  match m.off with
  | .short _ => none
  | .lit o => some (Raw.toWord ⟨bv 8 op, h, .fm d m.base b (bv 3 m.space.code) (bv 3 w.code) f.ch f.lh
      (bv 3 f.sc.code) (bv 2 f.ord.code) f.ht true⟩,
      some (bv 64 (Bits.pack [(32, o.toNat), (20, 0), (4, aop.code), (8, c.toNat)])))

def encE (op : Nat) (h : Head) (e : EFields) (f : Nat) : Option (Dword × Option Dword) :=
  some (Raw.toWord ⟨bv 8 op, h, .fe (k8 e.d) e.q e.sa e.sb e.sd e.fb e.ti (bv 5 f)⟩, none)

/-- A value of the immediate of a format-I form, from field values at their positions. -/
def immP (l : List (Nat × Nat)) : Dword := bv 64 (Bits.pack l)

/-- A signed offset above four bits of words - 1 (R129). -/
def immW (w : BitVec 4) (off : BitVec 60) : Dword := off.setWidth 64 <<< 4 ||| w.setWidth 64

def Imm.isLit : Imm → Bool
  | .short _ => false | .lit _ => true

def Imm.val : Imm → Dword
  | .short i => i.setWidth 64 | .lit x => x

/-- The words of an instruction: its word and the literal word where one follows (R50 to R54, R129, R147, R162, R181,
R190, R200, R297). Microwords and events have none. -/
def encode : Instr → Option (Dword × Option Dword)
  | .nop h none => encU 0x00 h 0 0 0 0 0
  | .nop h (some x) => some (Raw.toWord ⟨0, h, .fa 0 0 0 0 64⟩, some x)
  | .bra h t j dh => encB 0x01 h t j dh
  | .jmp h t dh => encB 0x02 h t 0 dh
  | .brx h a j => encU 0x03 h 0 a 0 (bv 8 (j.toNat / 16)) (j.toNat % 16)
  | .call h d x off => encI 0x04 h d 0 x off
  | .callx h d a => encU 0x05 h d a 0 0 0
  | .ret h a => encU 0x06 h 0 a 0 0 0
  | .exit h => encU 0x07 h 0 0 0 0 0
  | .yield h => encU 0x08 h 0 0 0 0 0
  | .sleep h a rel => encU 0x09 h 0 (k8 a) 0 0 (Bits.ofBool rel)
  | .lset h l x (.imm n) len => encI 0x0A h (l.setWidth 8) 0 x (immP [(11, len.toNat), (53, n.toNat)])
  | .lset h l x (.k r) len => encI 0x0A h (l.setWidth 8) (0x80 + k8 r) x (immP [(11, len.toNat)])
  | .lrot h l x s z b => encI 0x0B h (l.setWidth 8) 0 x (immP [(8, b.toNat), (9, z.toNat), (4, s.toNat)])
  | .lbrk h l => encU 0x0C h 0 0 0 0 l.toNat
  | .hurd h x d n => encI 0x0D h (d.setWidth 8) 0 x (immP [(11, n.toNat), (3, 1)])
  | .hurdMem h x s a => encI 0x0D h 0 (k8 a) x (immP [(11, 0), (3, s.code)])
  | .harr h x d n => encI 0x0E h (d.setWidth 8) 0 x (immP [(11, n.toNat), (3, 1)])
  | .harrMem h x s d a => encI 0x0E h (p8 d) (k8 a) x (immP [(11, 0), (3, s.code)])
  | .hwt h x d n => encI 0x0F h (d.setWidth 8) 0 x (immP [(11, n.toNat), (3, 1)])
  | .hwtMem h x s d a => encI 0x0F h (p8 d) (k8 a) x (immP [(11, 0), (3, s.code)])
  | .spawn h a x w off => encI 0x10 h 0 a x (immW w off)
  | .task h d a x off => encI 0x11 h (k8 d) (k8 a) x off
  | .fwait h d a => encU 0x12 h d.field a.field 0 0 (Bits.ofBool (!a.isK))
  | .ftest h d a => encU 0x13 h (p8 d) a.field 0 0 (Bits.ofBool (!a.isK))
  | .cancel h d a => encU 0x14 h d.field a.field 0 0 (Bits.ofBool (!a.isK))
  | .baton h d a x w off => encI 0x15 h d a x (immW w off)
  | .regx h d x n => encI 0x16 h (p8 d) 0 x (immP [(6, n.toNat)])
  | .regs h x n => encI 0x17 h 0 0 x (immP [(6, n.toNat)])
  | .trap h x c => encI 0x18 h 0 0 x (immP [(8, c.toNat)])
  | .eretRetry h => encU 0x19 h 0 0 0 0 0
  | .eretSkip h => encU 0x19 h 0 0 0 0 1
  | .eretKill h => encU 0x19 h 0 0 0 0 2
  | .srd h d x s => encI 0x1A h d.field 0 x (immP [(12, s.toNat), (1, Bits.ofBool d.isK)])
  | .swr h a x s => encI 0x1B h 0 a.field x (immP [(12, s.toNat), (1, Bits.ofBool a.isK)])
  | .park h a b => encU 0x1C h 0 (k8 a) (k8 b) 0 0
  | .unparkRetry h a b => encU 0x1D h 0 (k8 a) (k8 b) 0 0
  | .unparkSkip h a b => encU 0x1D h 0 (k8 a) (k8 b) 0 1
  | .iadd h d a b w sat u => encA 0x20 h d a b 0 (fnBits [w, sat, u])
  | .isub h d a b w sat u => encA 0x21 h d a b 0 (fnBits [w, sat, u])
  | .imul h d a b sat u => encA 0x22 h d a b 0 (fnBits [false, sat, u])
  | .imulh h d a b u => encA 0x23 h d a b 0 (fnBits [false, false, u])
  | .imad h d a b c sat u => encA 0x24 h d a b c (fnBits [false, sat, u])
  | .imadw h d a b c sat u => encA 0x25 h d a b c (fnBits [false, sat, u])
  | .imin h d a b u => encA 0x26 h d a b 0 (fnBits [false, false, u])
  | .imax h d a b u => encA 0x27 h d a b 0 (fnBits [false, false, u])
  | .iabs h d a sat => encU 0x28 h d a 0 0 (fnBits [false, sat])
  | .and h d a b => encA 0x29 h d a b 0 0
  | .or h d a b => encA 0x2A h d a b 0 0
  | .xor h d a b => encA 0x2B h d a b 0 0
  | .andn h d a b => encA 0x2C h d a b 0 0
  | .not h d a => encU 0x2D h d a 0 0 0
  | .lop3 h d a b lut => encA 0x2E h d a b lut 0
  | .shl h d a b w cl => encA 0x2F h d a b 0 (fnBits [w, cl])
  | .shr h d a b w cl => encA 0x30 h d a b 0 (fnBits [w, cl])
  | .sar h d a b w cl => encA 0x31 h d a b 0 (fnBits [w, cl])
  | .rotl h d a b w => encA 0x32 h d a b 0 (fnBits [w])
  | .clz h d a => encU 0x33 h d a 0 0 0
  | .ctz h d a => encU 0x34 h d a 0 0 0
  | .popc h d a => encU 0x35 h d a 0 0 0
  | .brev h d a => encU 0x36 h d a 0 0 0
  | .bfx h d a b u => encA 0x37 h d a b 0 (fnBits [false, false, u])
  | .bfi h d a b c => encA 0x38 h d a b c 0
  | .ilv h d a b c three => encA 0x39 h d a b c (fnBits [three])
  | .dlv h d a b three => encA 0x3A h d a b 0 (fnBits [three])
  | .icmp h cc d a b c => encA 0x3B h (p8 d) a b (p8 c) cc.code
  | .isel h d a b c => encA 0x3C h d a b (p8 c) 0
  | .mov h (.v d) b => encA 0x3D h d 0 b 0 0
  | .mov h (.w d) b => encA 0x3D h d 0 b 0 1
  | .mov h (.k d) b => encA 0x3D h (k8 d) 0 b 0 2
  | .mov h (.wk d) b => encA 0x3D h (k8 d) 0 b 0 3
  | .movi h d w im => encI 0x3E h d (bv 8 (Bits.ofBool w)) im.isLit im.val
  | .movk h d .imm im => encI 0x3F h (k8 d) 0 im.isLit im.val
  | .movk h d (.add r) im => encI 0x3F h (k8 d) (0x80 + k8 r) im.isLit im.val
  | .lea h d a b s u => encA 0x40 h d a b 0 (s.toNat + 8 * Bits.ofBool u)
  | .cvt h d a dst src rm sat => encU 0x41 h d a (bv 8 dst.code) (bv 8 src.code) (rm.code + 8 * Bits.ofBool sat)
  | .pack h d a dst src rm sat => encU 0x42 h d a (bv 8 dst.code) (bv 8 src.code) (rm.code + 8 * Bits.ofBool sat)
  | .unpk h d a dst src => encU 0x43 h d a (bv 8 dst.code) (bv 8 src.code) 0
  | .plop h d a b c lut o => encU 0x44 h (p8 d) (p8 a) (p8 b) (p8 c) (lut.toNat + 16 * Bits.ofBool o)
  | .pmov h (.tov d) => encU 0x45 h d 0 0 0 0
  | .pmov h (.fromv a) => encU 0x45 h 0 a 0 0 1
  | .pmov h (.sp d a) => encU 0x45 h (p8 d) (p8 a) 0 0 2
  | .part h d s => encU 0x46 h (p8 d) 0 0 0 s.toNat
  | .shfl h m d a b c g => encA 0x47 h d a b c (m.code + 4 * g.toNat)
  | .vote h m d a g => encU 0x48 h d (p8 a) 0 0 (m.code + 4 * g.toNat)
  | .redux h o d a g => encU 0x49 h d a (p8 g) 0 o.code
  | .scan h o d a g e => encU 0x4A h d a (p8 g) 0 (o.code + 16 * Bits.ofBool e)
  | .bcast h d a .first c g => encU 0x4B h d a 0 c (1 + 4 * g.toNat)
  | .bcast h d a (.k r) c g => encA 0x4B h d a (.k r) c (4 * g.toNat)
  | .bcast h d a (.lit x) c g => encA 0x4B h d a (.lit x) c (4 * g.toNat)
  | .matchV h d a g w => encU 0x4C h d a 0 0 (Bits.ofBool w + 4 * g.toNat)
  | .fadd h d a b sat => encA 0x50 h d a b 0 (fnBits [sat])
  | .fsub h d a b sat => encA 0x51 h d a b 0 (fnBits [sat])
  | .fmul h d a b sat => encA 0x52 h d a b 0 (fnBits [sat])
  | .ffma h d a b c sat => encA 0x53 h d a b c (fnBits [sat])
  | .fmin h d a b => encA 0x54 h d a b 0 0
  | .fmax h d a b => encA 0x55 h d a b 0 0
  | .fcmp h cc d a b c => encA 0x56 h (p8 d) a b (p8 c) cc.code
  | .frcp h d a => encU 0x57 h d a 0 0 0
  | .frsq h d a => encU 0x58 h d a 0 0 0
  | .fsqrt h d a => encU 0x59 h d a 0 0 0
  | .fexp2 h d a => encU 0x5A h d a 0 0 0
  | .flog2 h d a => encU 0x5B h d a 0 0 0
  | .fsin h d a => encU 0x5C h d a 0 0 0
  | .fcos h d a => encU 0x5D h d a 0 0 0
  | .ftanh h d a => encU 0x5E h d a 0 0 0
  | .frnd h d a rm => encU 0x5F h d a 0 0 rm.code
  | .ffrc h d a => encU 0x60 h d a 0 0 0
  | .hxadd h d a b sat => encA 0x61 h d a b 0 (fnBits [sat])
  | .hxmul h d a b sat => encA 0x62 h d a b 0 (fnBits [sat])
  | .hxfma h d a b c sat => encA 0x63 h d a b c (fnBits [sat])
  | .hxmax h d a b mn => encA 0x64 h d a b 0 (fnBits [mn])
  | .dadd h d a b => encA 0x65 h d a b 0 0
  | .dmul h d a b => encA 0x66 h d a b 0 0
  | .dfma h d a b c => encA 0x67 h d a b c 0
  | .dcmp h cc d a b c => encA 0x68 h (p8 d) a b (p8 c) cc.code
  | .ld h d m w f => encM 0x70 h d m w f
  | .st h d m w f => encM 0x71 h d m w f
  | .lds h d m w f => encM 0x72 h d m w f
  | .sts h d m w f => encM 0x73 h d m w f
  | .ldk h d m w f => encM 0x74 h (k8 d) m w f
  | .ldm h d m w f => encM 0x75 h (k8 d) m w f
  | .atom h d b c op m w f => encAtom 0x76 h d b c op m w f
  | .atoms h d b c op m w f => encAtom 0x77 h d b c op m w f
  | .red h b op m w f => encAtom 0x78 h 0 b 0 op m w f
  | .fence h o s => encM 0x79 h 0 ⟨.gl, 0, .short 0⟩ .b8 ⟨o, s, false, false, false⟩
  | .fxp h x p c s => encI 0x7A h 0 0 x (immP [(7, p.toNat), (7, c.toNat), (3, s.code)])
  | .pref h m n f => encM 0x7B h 0 m n f
  | .lease h x (.imm n) => encI 0x7C h 0 0 x (immP [(12, n.toNat)])
  | .lease h x (.k r) => encI 0x7C h 0 (0x80 + k8 r) x 0
  | .cflush h m n f => encM 0x7D h 0 m n f
  | .hset h a => encU 0x7E h 0 a.field 0 0 (Bits.ofBool a.isK)
  | .hnew h d a => encU 0x7F h d.field a.field 0 0 (Bits.ofBool a.isK)
  | .hresConfirm h d a => encU 0x80 h (k8 d) (k8 a) 0 0 0
  | .hresRefute h d a => encU 0x80 h (k8 d) (k8 a) 0 0 1
  | .hqryInfo h d a => encU 0x81 h (k8 d) (k8 a) 0 0 0
  | .hqryAnc h d a b => encU 0x81 h (p8 d) a b 0 1
  | .gang h a => encU 0x90 h 0 (k8 a) 0 0 0
  | .mma h d a b c sp sel => encU 0x91 h d.field a (k8 b) c (fnBits [sp, sel])
  | .movt h t r wr i =>
    let (b, c, s) : BitVec 8 × BitVec 8 × Nat := match i with
      | .imm n => (0, n.setWidth 8, 0)
      | .k x => (k8 x, 0, 1)
      | .v x => (x, 0, 2)
    if wr then encU 0x92 h t.field r b c (1 + 2 * s) else encU 0x92 h r t.field b c (2 * s)
  | .tzero h d => encU 0x93 h d.field 0 0 0 0
  | .tld h d m w f => encM 0x94 h d.field m w f
  | .tst h d m w f => encM 0x95 h d.field m w f
  | .strec h e => encE 0x98 h e 0
  | .emm h e acc sp => encE 0x99 h e (fnBits [acc, sp])
  | .evx h e op bs => encE 0x9A h e (op.code + 16 * Bits.ofBool bs)
  | .ered h e op => encE 0x9B h e op.code
  | .ecpy h e ch mc => encE 0x9C h e (ch.toNat + 16 * Bits.ofBool mc)
  | .emode h e rm => encE 0x9D h e rm.code
  | .enote h e t => encE 0x9E h e t.toNat
  | .ewait h e t => encE 0x9F h e t.toNat
  | .esave h e => encE 0xA0 h e 0
  | .eres h e => encE 0xA1 h e 0
  | .wmrd h e ch => encE 0xA2 h e ch.toNat
  | .wmset h e ch => encE 0xA3 h e ch.toNat
  | .wmsetOff h e ch => encE 0xA3 h e (ch.toNat + 16)
  | .coll h e op r => encE 0xA4 h e (op.code + 8 * r.code)
  | .trace h d a b u any => encU 0xB0 h d a (k8 b) 0 (u.code + 4 * Bits.ofBool any)
  | .tqry h d a keep => encU 0xB1 h d a 0 0 (Bits.ofBool keep)
  | .texs h d a b => encU 0xB2 h d a (k8 b) 0 0
  | .texl h d a b => encU 0xB3 h d a (k8 b) 0 0
  | .texg h d a b c => encU 0xB4 h d a (k8 b) 0 c.toNat
  | .ordb h a => encU 0xB5 h 0 a 0 0 0
  | .orde h a => encU 0xB6 h 0 a 0 0 0
  | .refit h d a => encU 0xB7 h (k8 d) (k8 a) 0 0 0
  | _ => none

/-- A microword of an operation, a condition field and the fields of a micro (R293). -/
def microWord (op cc : Nat) (m : Micro) : Dword :=
  bv 64 (Bits.pack [(16, m.imm.toNat), (13, 0), (1, Bits.ofBool m.int), (1, Bits.ofBool m.sn), (1, Bits.ofBool m.im), (4, cc),
    (6, m.c.toNat), (6, m.b.toNat), (6, m.a.toNat), (6, m.d.toNat), (4, op)])

/-- The word of a micro-operation (R294). -/
def encodeMicro : Instr → Option Dword
  | .nfetchFetch m => some (microWord 0 0 m)
  | .nfetchRaw m => some (microWord 0 1 m)
  | .nfetchChild m => some (microWord 0 2 m)
  | .pfetch m => some (microWord 1 0 m)
  | .xfma m => some (microWord 2 0 m)
  | .xmul m => some (microWord 3 0 m)
  | .xmin m => some (microWord 4 0 m)
  | .xmax m => some (microWord 5 0 m)
  | .xcmp m cc => some (microWord 6 cc.code m)
  | .xsel m => some (microWord 7 0 m)
  | .xrcp m => some (microWord 8 0 m)
  | .xrcpSq m => some (microWord 8 1 m)
  | .spush m => some (microWord 9 0 m)
  | .spop m => some (microWord 10 0 m)
  | .microGo m => some (microWord 11 0 m)
  | .goif m => some (microWord 12 0 m)
  | .emitHit m => some (microWord 13 0 m)
  | .emitSpawn m => some (microWord 13 1 m)
  | .emitSpord m => some (microWord 13 2 m)
  | .emitOut m => some (microWord 13 3 m)
  | .lazy m => some (microWord 14 0 m)
  | .microDone m => some (microWord 15 0 m)
  | _ => none

/-- The bytes of an instruction in memory, the word before its literal (R7, R54). -/
def encodeBytes (i : Instr) : Option (List Byte) :=
  (encode i).map fun (w, l) => Bits.toBytes w.toNat 8 ++ (match l with | some x => Bits.toBytes x.toNat 8 | none => [])

end Sys2Proof
end

