-- ==== Sys2Proof/Machine/Crypto.lean ====
section
/-! DEFINITION. What is computed over bytes by public standards that the spec names: CRC-32C (R333, R427), SHA-512, and ECDSA on
P-521 (R342, R343; log 92). -/
namespace Sys2Proof.Machine

open Bits

-- CRC-32C: one bit, one byte, and the whole

def crcBit (c : Nat) : Nat := if c % 2 = 1 then c / 2 ^^^ 0x82F63B78 else c / 2

def crcByte (c : Nat) (b : Byte) : Nat := crcBit (crcBit (crcBit (crcBit (crcBit (crcBit (crcBit (crcBit (c ^^^ b.toNat))))))))

def crc32c (bs : List Byte) : Word := BitVec.ofNat 32 (0xFFFFFFFF ^^^ bs.foldl crcByte 0xFFFFFFFF)

/-- The number that bytes hold with the highest first, and the bytes of a number so. -/
def ofBytesBE (bs : List Byte) : Nat := ofBytes bs.reverse
def toBytesBE (x n : Nat) : List Byte := (toBytes x n).reverse

-- SHA-512

/-- The first 80 primes. -/
def shaPrimes : List Nat := (List.range 410).filter fun n => decide (2 ≤ n) && (List.range n).all fun d => decide (d < 2) || n % d != 0

/-- The largest r of so many bits, added to a start, whose k-th power is at most x. -/
def rootUp (k x : Nat) : Nat → Nat → Nat
  | 0, r => r
  | n + 1, r => rootUp k x n (if (r + 2 ^ n) ^ k ≤ x then r + 2 ^ n else r)

/-- The first 64 bits behind the point of the k-th root of a number. -/
def rootFrac (k p : Nat) : Dword := BitVec.ofNat 64 (rootUp k (p * 2 ^ (64 * k)) 70 0)

def shaStart : List Dword := (shaPrimes.take 8).map (rootFrac 2)
def shaKeys : List Dword := shaPrimes.map (rootFrac 3)

/-- The 80 words that a block of 128 bytes gives. -/
def shaWords (blk : List Byte) : List Dword :=
  let w0 := (List.range 16).map fun i => BitVec.ofNat 64 (ofBytesBE ((blk.drop (8 * i)).take 8))
  (List.range 64).foldl (fun (w : List Dword) t =>
    let g := fun i => w.getD i 0
    let a := g (t + 1)
    let b := g (t + 14)
    w ++ [g t + (a.rotateRight 1 ^^^ a.rotateRight 8 ^^^ a >>> 7) + g (t + 9) + (b.rotateRight 19 ^^^ b.rotateRight 61 ^^^ b >>> 6)]) w0

/-- One round on the eight working words. -/
def shaRound (h : List Dword) (kw : Dword × Dword) : List Dword :=
  let g := fun i => h.getD i 0
  let e := g 4
  let a := g 0
  let t1 := g 7 + (e.rotateRight 14 ^^^ e.rotateRight 18 ^^^ e.rotateRight 41) + ((e &&& g 5) ^^^ (~~~ e &&& g 6)) + kw.1 + kw.2
  let t2 := (a.rotateRight 28 ^^^ a.rotateRight 34 ^^^ a.rotateRight 39) + ((a &&& g 1) ^^^ (a &&& g 2) ^^^ (g 1 &&& g 2))
  [t1 + t2, a, g 1, g 2, g 3 + t1, e, g 5, g 6]

def shaBlock (h : List Dword) (blk : List Byte) : List Dword := List.zipWith (· + ·) h ((shaKeys.zip (shaWords blk)).foldl shaRound h)

/-- The digest of bytes. -/
def sha512 (bs : List Byte) : List Byte :=
  let all := bs ++ 0x80 :: (List.replicate ((239 - bs.length % 128) % 128) 0 ++ toBytesBE (8 * bs.length) 16)
  let h := (List.range (all.length / 128)).foldl (fun h i => shaBlock h ((all.drop (128 * i)).take 128)) shaStart
  h.flatMap fun x => toBytesBE x.toNat 8

-- P-521

namespace P521

def p : Nat := 2 ^ 521 - 1
def b : Nat := 0x51953EB9618E1C9A1F929A21A0B68540EEA2DA725B99B315F3B8B489918EF109E156193951EC7E937B1652C0BD3BB1BF073573DF883D2C34F1EF451FD46B503F00
def n : Nat := 0x1FFFFFFFFFFFFFFFFFFFFFFFFFFFFFFFFFFFFFFFFFFFFFFFFFFFFFFFFFFFFFFFFFA51868783BF2F966B7FCC0148F709A5D03BB5C9B8899C47AEBB6FB71E91386409
def g : Nat × Nat :=
  (0xC6858E06B70404E9CD9E3ECB662395B4429C648139053FB521F828AF606B4D3DBAA14B5E77EFE75928FE1DC127A2FFA8DE3348B3C1856A429BF97E7E31C2E5BD66,
   0x11839296A789A3BC0045C8A5FB42C7D1BD998F54449579B446817AFBD17273E662C97EE72995EF42640C550B9013FAD0761353C7086A272C24088BE94769FD16650)

/-- A power modulo m, over so many bits of the exponent. -/
def powMod (m : Nat) : Nat → Nat → Nat → Nat
  | 0, _, _ => 1
  | k + 1, x, e => (if e % 2 = 1 then x else 1) * powMod m k (x * x % m) (e / 2) % m

/-- The inverse modulo a prime. -/
def inv (m x : Nat) : Nat := powMod m 521 x (m - 2)

def sub (x y : Nat) : Nat := (x + p - y % p) % p

/-- Whether a pair of coordinates is a point of the curve. -/
def onCurve (q : Nat × Nat) : Bool := decide (q.1 < p ∧ q.2 < p) && q.2 * q.2 % p == (q.1 * q.1 * q.1 + (p - 3) * q.1 + b) % p

/-- The sum of two points; none is the point at infinity. -/
def add (x y : Option (Nat × Nat)) : Option (Nat × Nat) :=
  match x, y with
  | none, y => y
  | x, none => x
  | some a, some c =>
    if a.1 = c.1 ∧ (a.2 + c.2) % p = 0 then none
    else
      let l := if a = c then (3 * a.1 * a.1 + (p - 3)) * inv p (2 * a.2) % p else sub c.2 a.2 * inv p (sub c.1 a.1) % p
      let x3 := sub (l * l) (a.1 + c.1)
      some (x3, sub (l * sub a.1 x3) a.2)

/-- A multiple of a point, over so many bits of the factor. -/
def mul : Nat → Nat → Option (Nat × Nat) → Option (Nat × Nat)
  | 0, _, _ => none
  | k + 1, e, q => add (if e % 2 = 1 then q else none) (mul k (e / 2) (add q q))

/-- The public key of a private one. -/
def publicKey (d : Nat) : Nat × Nat := (mul 521 d (some g)).getD (0, 0)

/-- Whether r and s are a signature of a digest under a public key. -/
def verifies (q : Nat × Nat) (digest : List Byte) (r s : Nat) : Bool :=
  let w := inv n s
  decide (0 < r ∧ r < n ∧ 0 < s ∧ s < n) && onCurve q &&
  (match add (mul 521 (ofBytesBE digest * w % n) (some g)) (mul 521 (r * w % n) (some q)) with
   | some x => x.1 % n == r
   | none => false)

/-- The signature of a digest under a private key, with the secret number k: r then s, each 66 bytes with the highest first. -/
def sign (d k : Nat) (digest : List Byte) : List Byte :=
  let r := ((mul 521 k (some g)).getD (0, 0)).1 % n
  toBytesBE r 66 ++ toBytesBE (inv n k * (ofBytesBE digest + r * d) % n) 66

end P521

end Sys2Proof.Machine
end

