-- ==== Sys2Proof/Config.lean ====
section
/-! DEFINITION. What the spec leaves to the implementation, and its open values: constants without a body, so that no
proof can see what they are. -/
namespace Sys2Proof.Config

/-- Which side of a set of two allowed values is drawn, by the free counter and a key (R4, R37, R59, R191, R252). -/
opaque freeSide : Nat → Nat → Bool

/-- A free 64-bit value, by the free counter (log 5). -/
opaque freeVal : Nat → Dword

/-- The physical address a device structure is taken to stand at where its context does not map it; the spec gives no
effect of such a mapping (log 8). -/
opaque freePa : Nat → Nat → Nat

/-- The channel that stores a line, below 96 (R229: implementation-fixed hash of PA[38:7]). -/
opaque channelOf : Nat → Nat

/-- The set of a line in its system-cache slice (R268: implementation-fixed hash). -/
opaque setOf : Nat → Nat

/-- The digest of the firmware key in the fuses of a die (R342). -/
opaque fuse : Nat → List Byte

/-- The key that the body of a firmware image carries, as x then y of 66 bytes (R342: where it stands is not given). -/
opaque imageKey : List Byte → List Byte

/-- The private identity key of a die, and the secret number that a signature takes (R343). -/
opaque identityKey : Nat → Nat
opaque signNonce : Nat → Nat

/-- The dwords of the identity certificate, by public key and IDENT (R343). -/
opaque certWord : Nat × Nat → Dword → Nat → Dword

/-- The lease that an access of a host core asks for (R235, R339). -/
opaque hostLease : Nat

/-- The host complex to whose IMSICs an address belongs, where it is one of those (R331, R409). -/
opaque imsicOf : Nat → Option Nat

/-- Identity registers whose values are implementation-fixed, by die and register offset (R4, R318, R340). -/
opaque ident : Nat → Nat → Dword

/-- Whether a candidate entry of a contiguous run is taken in place of the indexed one (R232). -/
opaque runPick : Nat → Nat → Nat

/-- Whether a cache drops, rather than keeps, a copy at a fill: cache capacity is not given a policy (R228). -/
opaque keepCopy : Nat → Nat → Bool

/-- Which held copy makes room in a full cache, by agent and line (R228). -/
opaque victim : Nat → Nat → Nat

/-- Which entry makes room in a full translation buffer, by buffer and page (R233). -/
opaque tlbVictim : Nat → Nat → Nat

/-- Whether a line of a core's L1 data cache lies in the region that a carve-out takes (R263). -/
opaque inCarve : Nat → Nat → Bool

/-- TYPE codes of transport messages other than the replication update, which the spec does not number (R334). -/
opaque msgType : Nat → Nat

end Sys2Proof.Config
end

