-- ==== Sys2Proof/Machine/State.lean ====
section
/-! DEFINITION. The state of the machine as plain data: cores, warps, engines, graphics slots, memory system, dies,
fabric, domain and platform, the reasons a step stops, and the state right after reset. -/
namespace Sys2Proof.Machine

/-- A cause code (R371). -/
abbrev Cause := BitVec 8

/-- Why the machine stops with a fault. -/
inductive Fault where
  /-- Raised by step while the package is powered off (R429): nothing executes and every state is lost. Safe. -/
  | poweredOff
  deriving DecidableEq, Repr, Inhabited

/-- Why an instruction has no meaning. -/
inductive Refusal where
  /-- Raised by an arm of exec that has no meaning yet, named by its mnemonic. Safe. -/
  | notModelled (mnemonic : String)
  deriving DecidableEq, Repr, Inhabited

/-- What moves next; the order among agents is open (R17). -/
inductive Action where
  | issue (u : UnitId) (port : Nat)                     -- an issue port chooses a ready warp, which issues (R21)
  | micro (u : UnitId) (g : GUnit)                      -- a sequencer issues a microword of a ready slot (R292)
  | event (e : Instr)                                   -- an event row, or any row on the current issue
  | tick (die : Nat)                                    -- PACE of a die advances by one tick (R325)
  | wake (u : UnitId) (slot : Nat)                      -- the blocked paths of a warp try their issue again
  | dropTranslation (die : Nat) (buf : Nat) (i : Nat)   -- a translation buffer drops an entry (R233)
  | dropCopy (agent : Nat) (line : Nat)                 -- a cache drops a copy (R228)
  | faultScan (ctx : Nat)                               -- the fault unit scans a context's fault queue (R389, R390)
  deriving DecidableEq, Repr, Inhabited

/-- Access paths (R177). -/
inductive APath where
  | lsu | mtx | vec | cpy | trv | net | fetch | sys
  deriving DecidableEq, Repr, Inhabited

-- warps

/-- A fault record (R365). -/
structure FaultRec where
  info : Dword
  addr : Dword
  pc : Dword
  lit : Dword
  word : Dword
  tick : Nat
  hy : BitVec 8
  jrec : Option Nat
  res : BitVec 2
  cause : Cause
  deriving DecidableEq, Repr, Inhabited

/-- What a path waits for (R34, R214, R277, R285); `reissue` is blocked at issue and issues again; `work` is SPAWN or BATON with
lanes still to serve: the Pend, the destination register, the entry, the lanes' records and k0 to k31 as read at issue, the
tick since which the first lane waits, and the pool slot that it has taken (R25). -/
inductive Wait where
  | ready
  | token
  | sleep (until_ : Dword)
  | teamHurdle (h : Nat) (left : Lanes)
  | memHurdle (addr : Dword) (pa : Nat) (left phases : Lanes)
  | memArrival (op : Nat)
  | coll
  | latch
  | regx
  | reissue
  | trapHold
  | ewait (tag n : Nat)
  | work (baton : Bool) (id dst : Nat) (entry : Dword) (left : List (Nat × List Word)) (ks : List Dword) (since : Nat)
      (pool : Option Nat)
  deriving DecidableEq, Repr, Inhabited

/-- A path (R31). M is counted from the operations in flight (Pend.counts). -/
structure Path where
  pc : Dword
  mask : Lanes
  j : Option Nat
  age : Nat
  wait : Wait
  deriving DecidableEq, Repr, Inhabited

/-- A join record (R31). -/
structure Join where
  jpc : Dword
  expected : Lanes
  arrived : Lanes
  parent : Option Nat
  deriving DecidableEq, Repr, Inhabited

/-- A loop level is free, armed or live (R140). -/
inductive LoopSt where
  | free | armed | live
  deriving DecidableEq, Repr, Inhabited

/-- A loop level (R140, R285): registers, lane sets, parent join. `nlc`, `nls` and `nle` are what SWR has written to LC, LS and LE
of a live level: they take effect at its next back-edge test (R146). -/
structure Loop where
  lc : Word
  ls : Dword
  le : Dword
  rw : Word
  rb : Word
  lanes : Lanes
  brk : Lanes
  wexit : Lanes
  wback : Lanes
  lx : Option Nat
  st : LoopSt
  nlc : Option Word
  nls : Option Dword
  nle : Option Dword
  deriving DecidableEq, Repr, Inhabited

/-- A return-stack entry (R136). -/
structure RetEnt where
  cfb : Nat
  rtd : Bool
  mask : Lanes
  jrec : Option Nat
  cpc : Dword
  deriving DecidableEq, Repr, Inhabited

/-- A value of one register, lane by lane for v and p; v registers are physical (R144). -/
structure RegVal where
  file : RFile
  reg : Nat
  lane : Nat
  val : Dword
  deriving DecidableEq, Repr, Inhabited

/-- A texture descriptor (R308). -/
structure TexDesc where
  base : Nat
  w : Nat
  h : Nat
  levels : Nat
  fmt : Nat
  wrapU : Nat
  wrapV : Nat
  filt : Bool
  mipf : Bool
  bias : Nat
  lodmax : Nat
  deriving DecidableEq, Repr, Inhabited

/-- What a lane's texture sample is finished from: u, v, the level of detail, the channel of TEXG plus one, the four physical
destinations, and the descriptor (R309, R310). -/
structure TexRec where
  u : Nat
  v : Nat
  lod : Rat
  gather : Nat
  dst : List Nat
  desc : TexDesc
  deriving DecidableEq, Repr, Inhabited

/-- An instruction in flight: results still to be written, and what holds its token (R57). `hold` counts what has
to complete before the results are written. A memory instruction counts in M of every path that holds a lane of `counts`: its
issuing lanes, and the lanes of a path that counted it and split (R31, R32). -/
structure Pend where
  id : Nat
  pc : Dword
  lanes : Lanes
  mem : Bool
  tok : Option Nat
  hold : Nat
  res : List RegVal
  clob : List (RFile × Nat × Nat)   -- results that another write to their register may outlast (R59)
  tex : List (Nat × TexRec)         -- by lane, samples whose texels are on their way
  counts : Lanes
  deriving DecidableEq, Repr, Inhabited

/-- A producer the scoreboard still watches (R55, R58): the compiled distance so far, the values its fixed-latency results
replaced (R59), and when it issued. -/
structure Prod where
  pc : Dword
  lanes : Lanes
  id : Nat
  lat : Nat
  dist : Nat
  tok : Option Nat
  defs : List (RFile × Nat)
  uses : List (RFile × Nat)
  olds : List RegVal
  since : Nat               -- the tenths of cycles of its core at its issue
  deriving DecidableEq, Repr, Inhabited

/-- One group's instance of a collective (R36, R123). -/
structure CollInst where
  pc : Dword
  instr : Instr
  greg : Nat
  size : Nat
  base : Nat
  arrived : Lanes
  contrib : Lanes
  vals : List (Nat × Dword)
  ids : List Nat
  deriving DecidableEq, Repr, Inhabited

/-- A lane parked by a trap, with its record and the team-hurdle or loop set it left nowhere (R43). -/
structure Parked where
  lane : Nat
  rec_ : FaultRec
  deriving DecidableEq, Repr, Inhabited

/-- A cause that strikes a lane at its next instruction boundary (R393, R396, R398). -/
structure Due where
  lane : Nat
  cause : Nat
  info : Dword
  addr : Dword
  deriving DecidableEq, Repr, Inhabited

/-- A warp or thread, resident in a slot (R45, R283, R284). `run` is a lane of the running path, 32 for none; `stalled` says that
this path has waited on a token since it last issued (R34, R382). -/
structure Warp where
  ctx : Nat
  entry : Dword
  team : Nat
  widx : Nat
  teamIdx : Nat
  heat : Nat
  width : Nat
  user : Bool
  prio : Nat
  memb : Bool
  handle : Word
  v : Tab Word            -- 256 * lane + physical register
  k : Tab Dword
  p : Tab Lanes           -- p0 to p6, a lane set each
  sp : BitVec 8
  grp : Tab (BitVec 2)    -- 3 - size code: 0 names 32 lanes
  loops : Tab Loop
  paths : List Path
  run : Nat
  stalled : Bool
  joins : Tab (Option Join)
  rets : List RetEnt      -- in-core entries, topmost first
  rsdep : Nat
  rsb : Dword
  hy : Tab (BitVec 8)
  hov : Dword
  gng : Dword
  seed : Word
  wdog : Word
  wdcnt : Nat
  wdTrap : Bool
  lease : BitVec 12
  gran : Nat
  exited : Lanes
  parked : List Parked
  parkReq : Lanes
  due : List Due
  arr : Tab Lanes         -- lanes arrived at team hurdle h
  aph : Tab Lanes         -- phases of the arrivals
  tok : Tab Nat
  pend : List Pend
  prods : List Prod
  colls : List CollInst
  startSeq : Nat
  deriving DecidableEq, Repr, Inhabited

-- cores

/-- A team hurdle (R148). -/
structure Hurdle where
  ph : Bool
  cnt : Nat
  exp : Nat
  deriving DecidableEq, Repr, Inhabited

/-- Where a team comes from (R22, R26, R27). -/
inductive TeamSrc where
  | grid (queue ridx : Nat)
  | spawned
  | task (handle : Word)
  | baton (handle : Word)
  deriving DecidableEq, Repr, Inhabited

/-- A team resident on a core (R18, R282). -/
structure Team where
  uid : Nat
  ctx : Nat
  src : TeamSrc
  issuer : Option (Nat × Nat)   -- the launch (queue, ridx) whose warp issued the TASK (R164)
  idx : Nat
  heat : Nat
  nwarps : Nat
  carve : Nat
  grant : List Nat              -- physical scratchpad granules, in offset order (R262)
  tiles : Bool
  hurdles : Tab Hurdle
  stuck : Option Nat            -- the tenths of cycles of its core from which the stuck condition has held (R380)
  deriving DecidableEq, Repr, Inhabited

/-- A copy channel is IDLE, ARMED, FILLING or DONE (R221). -/
inductive ChanSt where
  | idle | armed | filling | done
  deriving DecidableEq, Repr, Inhabited

structure Chan where
  lo : Nat
  hi : Nat
  wm : Nat
  st : ChanSt
  team : Nat
  gen : Nat                    -- armings counted
  written : List (Nat × Nat)   -- ranges written above WM under the current arming, as (first, past the last)
  deriving DecidableEq, Repr, Inhabited

/-- A spawn bin (R24, R25); its records lie in their pool slots. -/
structure Bin where
  key : Dword
  deadline : Nat
  thr : Nat
  regs : Nat
  opened : Nat
  slots : List Nat
  prio : Nat
  deriving DecidableEq, Repr, Inhabited

/-- A REGX request (R41). -/
structure RegxReq where
  slot : Nat
  path : Nat
  lanes : Lanes
  n : Nat
  d : PReg
  len : Nat
  deriving DecidableEq, Repr, Inhabited

/-- A trap waiting in its core's queue (R43, R366). -/
structure TrapReq where
  slot : Nat
  lanes : Lanes
  rec_ : FaultRec
  deriving DecidableEq, Repr, Inhabited

/-- The trap registers (R48, R366) while a trap is open. -/
structure OpenTrap where
  slot : Nat
  fcause : Word
  fpc : Dword
  fmask : Word
  faddr : Dword
  fwarp : Word
  finfo : Dword
  lanes : Lanes
  raised : Nat
  deriving DecidableEq, Repr, Inhabited

/-- One warp's part in a rendezvous latch (R194). -/
structure LatchEnt where
  widx : Nat
  slot : Nat
  pc : Dword
  word : Dword
  lanes : Lanes
  instr : Instr
  gng : Dword
  bcol : Dword
  fb : Dword
  rows : List (Nat × Word)      -- lane, offset of its row
  codes : List (List Word)      -- by lane, the held registers from C on (R195)
  id : Nat
  deriving DecidableEq, Repr, Inhabited

/-- A rendezvous latch (R194): open until every listed warp has issued, then full, with its format block. -/
structure Latch where
  id : Nat
  team : Nat
  list_ : List Nat
  since : Nat
  ents : List LatchEnt
  full : Bool
  fb : List Nat
  deriving DecidableEq, Repr, Inhabited

/-- A leased copy of a line (R235, R236). -/
structure Copy where
  data : List Byte
  wts : BitVec 16
  rts : BitVec 16
  deriving DecidableEq, Repr, Inhabited

/-- A task or baton waiting in its queue (R30, R287). -/
structure TaskEnt where
  entry : Dword
  handle : Word
  prio : Nat
  eff : Nat
  arrived : Nat
  arg : Dword
  ks : List Dword
  recw : List Word
  issuer : Option (Nat × Nat)
  deriving DecidableEq, Repr, Inhabited

/-- What a receiver has taken of a copy: its number, the arming and the team under which it accepted, and the last chunk it
has begun to write (R221, R275). -/
structure RxSt where
  no : Nat
  gen : Nat
  team : Nat
  last : Nat
  deriving DecidableEq, Repr, Inhabited

/-- An engine or copy command, with all it read at issue and its progress (R201, R215, R216). -/
structure Cmd where
  id : Nat
  instr : Instr
  word : Dword
  unit : UnitId
  slot : Nat
  owner : Nat               -- startSeq of the thread or warp it belongs to
  lanes : Lanes
  ctx : Nat
  team : Nat
  handle : Word
  hy : BitVec 8
  fb : List Dword
  ra : List Dword
  rb : List Dword
  rd : List Dword
  kv : Dword
  kv1 : Dword
  timed : Bool
  time : Nat
  headAt : Option Nat       -- the tick at which a copy came to the head of its buffer or queue (R396)
  mode : Round
  lfsr : Word
  cnt2 : Nat
  cnt3 : Nat
  pos : Nat                 -- result positions completed
  zdone : Bool
  sides : List (Bool × Nat × Nat × Nat)   -- scales and block codes in use: of B, address, bytes, value (R83)
  chunks : Nat              -- chunks of which every flit has been loaded
  runs : List (Nat × Nat)   -- loaded runs of the current chunk, as (first position, positions)
  n0 : Nat                  -- ring cycle of R323
  refused : Dword
  accepted : Dword
  rxs : List RxSt           -- receivers that accepted
  cut : Dword
  late : Bool
  discarded : Bool
  lost : List Nat           -- chunks of which a link lost a flit (R419)
  down : Bool               -- a receiver's die is fenced (R409)
  retired : Bool
  begun : Bool              -- begun before it was saved: never late again (R288)
  pend : Option Nat         -- the pending instruction whose results it writes, if that is still there
  image : Option Dword      -- where a resumed copy writes its record (R216)
  note : Nat
  deriving DecidableEq, Repr, Inhabited

/-- An ENOTE not yet raised: the queues whose entries are still to be reached, with the entries' names (R213). -/
structure Note where
  id : Nat
  owner : Nat
  slot : Nat
  tag : Nat
  handle : Word
  left : List (Nat × Nat)
  deriving DecidableEq, Repr, Inhabited

/-- The counts of the notify combiner for a thread and tag (R213). -/
structure TagCnt where
  owner : Nat
  tag : Nat
  issued : Nat
  raised : Nat
  deriving DecidableEq, Repr, Inhabited

/-- Rounding mode and LFSR state of a thread for a queue, where they differ from RNE and 1 (R212). -/
structure ModeEnt where
  owner : Nat
  q : Nat
  mode : Round
  lfsr : Word
  deriving DecidableEq, Repr, Inhabited

/-- A member's part in a collective that has not completed (R226): its command, the group, its own source, and the tick it
began at. -/
structure CollPart where
  cmd : Nat
  members : List (Nat × Nat × Nat)
  data : List Word
  since : Nat
  deriving DecidableEq, Repr, Inhabited

/-- An ESAVE that waits for the chunk in flight (R215, R217). -/
structure SaveReq where
  q : Nat
  unit : UnitId
  slot : Nat
  pend : Nat
  addr : Dword
  deriving DecidableEq, Repr, Inhabited

/-- The engines, buffers and combiner of a tile (R205, R213, R219, R286); shader cores use the combiner. -/
structure Engines where
  queues : Tab (List Cmd)
  running : Tab (Option Cmd)
  frozen : Tab Bool
  stop : Tab Cause
  tbuf : List Cmd
  acc : Tab Byte
  counts : List TagCnt
  notes : List Note
  modes : List ModeEnt
  colls : List CollPart
  sent : List (Dword × Nat)   -- collectives whose contribution has left and which have not ended: descriptor, sequence
  saves : List SaveReq
  deriving DecidableEq, Repr, Inhabited

/-- A warp of the admitted set (R266). -/
structure Admit where
  slot : Nat
  count : Nat
  idle : Nat                -- the tenths of cycles of its core at its last mesh instruction, or at its admission
  deriving DecidableEq, Repr, Inhabited

/-- State of a graphics slot's work (R291, R316). -/
inductive GSt where
  | running | fetch | lazy | retry | order | ended
  deriving DecidableEq, Repr, Inhabited

/-- A slot of a raster, depth or traversal sequencer (R291). -/
structure GSlot where
  warp : Nat                -- slot of the starting warp on its core
  unit : UnitId             -- its core
  lane : Nat
  ctx : Nat
  m : Tab Word
  f : BitVec 7
  stack : List Word
  pc : Nat
  latch : List Word
  res : List Word
  desc : List Dword
  descAddr : Dword
  any : Bool
  st : GSt
  cause : Cause
  info : Word
  waitAt : Nat              -- LAZY: the entry it waits for; an EMIT.spord that waits to spawn: its ticket plus one
  fetch : Option Instr
  tick : Nat
  owner : Nat               -- startSeq of the starting warp
  pool : Option Nat         -- the pool slot that a record which waits has taken (R25)
  deriving DecidableEq, Repr, Inhabited

/-- A control store: its size and microwords (R290). -/
structure CStore where
  n : Nat
  words : Tab Dword
  deriving DecidableEq, Repr, Inhabited

/-- A core of any kind with what stands on it (R21, R45, R281, R286, R287). -/
structure Core where
  carve : Nat
  qp : Nat
  turn : Tab Nat              -- by issue port: one past the slot it last issued (R21)
  gturn : Tab Nat             -- by sequencer: one past the slot it last issued (R292)
  teams : List Team
  warps : Tab (Option Warp)   -- by slot; 64 is the trap slot
  scr : Tab Byte
  chans : Tab Chan
  sq : Tab Dword              -- 8 * slot + dword
  bins : Tab (Option Bin)
  regxQ : List RegxReq
  trapQ : List TrapReq
  trap : Option OpenTrap
  tiles : Tab Word            -- 1024 * register + 32 * row + column
  latches : List Latch
  eng : Engines
  taskQ : List TaskEnt
  admitted : List Admit
  admitQ : List Nat         -- slots that ask for admission, oldest first (R266)
  gslots : Tab (Option GSlot) -- 256 * unit + slot
  cstores : Tab CStore
  halted : Bool
  clock : Nat                 -- steps of 100 MHz below the unit's clock (R344)
  cyc : Nat                   -- tenths of a cycle that its clock has made by tick cycAt (R344)
  cycAt : Nat
  deriving DecidableEq, Repr, Inhabited

/-- An agent of the lease protocol: its program time and its copies (R235). -/
structure LeaseAgent where
  pts : BitVec 16
  copies : Tab (Option Copy)
  deriving DecidableEq, Repr, Inhabited

-- memory system

inductive OpKind where
  | load | store | atomic | hurdle | ldm | scrLoad | scrStore | scrAtomic
  deriving DecidableEq, Repr, Inhabited

/-- Issued, performed with the answer on its way, waiting for package time, for version space, or for APPLIED
answers (R237, R239, R244, R384). -/
inductive OpStage where
  | issued | performed | waitPt | waitSpace | waitApplied
  deriving DecidableEq, Repr, Inhabited

/-- One lane's memory operation in flight (R31, R165). -/
structure MemOp where
  id : Nat
  unit : UnitId
  slot : Nat
  instr : Nat               -- the Pend it belongs to
  lane : Nat
  lanes : Lanes
  path : APath
  kind : OpKind
  stage : OpStage
  ea : Dword
  pa : Nat
  n : Nat
  data : Nat
  cmp : Nat
  aop : AtomOp
  ord : MemOrd
  sc : Scope
  leased : Bool
  lease : BitVec 12
  hy : BitVec 8
  tag : BitVec 8
  ctx : Nat
  dst : List RegVal         -- destination registers, lowest address first
  signed : Bool
  ch : Bool
  wts : BitVec 16
  rts : BitVec 16
  val : Nat
  since : Nat
  owner : Option (UnitId)   -- the core whose scratchpad is reached
  team : Nat                -- the team whose grant is reached there
  line : Nat                -- LDM: lines, or beats still to arrive
  sent : Bool               -- a leased load that has missed and gone home (R236)
  repl : Bool               -- the page is replicated (R242)
  vc : List Nat             -- stamp of a store to a replicated page (R244)
  near : Bool               -- the replica slice of its own package has performed it (R246)
  deriving DecidableEq, Repr, Inhabited

/-- Timestamps of a line held at its home slice (R235). -/
structure LineTs where
  wts : BitVec 16
  rts : BitVec 16
  deriving DecidableEq, Repr, Inhabited

/-- A way of a set of a system-cache slice, least recently used first (R268). -/
structure Way where
  line : Nat
  pidx : Nat
  cls : Nat
  deriving DecidableEq, Repr, Inhabited

/-- A version: one byte held under a hypothesis (R183). -/
structure Version where
  ctx : Nat
  tag : BitVec 8
  pa : Nat
  val : Byte
  deriving DecidableEq, Repr, Inhabited

/-- A resolve on its way to its ordering unit, accepted behind earlier ones, running, or merged and waiting for its words to be
performed in the package (R185, R186, R253). -/
inductive ResStage where
  | sent | queued | accepted | merged
  deriving DecidableEq, Repr, Inhabited

structure Resolve where
  ctx : Nat
  h : BitVec 8
  refute : Bool
  unit : UnitId
  slot : Nat
  lanes : Lanes
  pc : Dword
  d : KReg
  id : Nat
  stage : ResStage
  toNotify : List UnitId
  toAck : List UnitId
  par : Nat                 -- PARENT of h as the resolve began
  tags : List Nat           -- h, and of a refute every descendant of it, as the resolve began
  words : Nat               -- versioned words that step 3 found
  posts : List Nat          -- the package's stamps once step 3 has merged (R253)
  deriving DecidableEq, Repr, Inhabited

/-- A merge window or multicast of LDM segment requests (R171). -/
structure Window where
  id : Nat
  slice : Nat
  ctx : Nat
  pa : Nat
  lines : Nat
  closesAt : Nat
  opened : Bool             -- still a window; false once it is a multicast
  members : List Nat
  late : List (Nat × Nat)   -- late joiner, first beat it takes with the members
  beats : List (List Byte)  -- the copy C
  addrs : List Nat
  next : Nat
  tainted : List (UnitId × Nat)   -- warps that have stored to the range since the window closed (R172)
  deriving DecidableEq, Repr, Inhabited

/-- A beat on its way to the scratchpad of an LDM (R173). -/
structure Beat where
  op : Nat
  pa : Nat
  data : List Byte
  deriving DecidableEq, Repr, Inhabited

/-- A cached translation (R233): one effective page with the permissions of both stages. -/
structure Tlb where
  ctx : Nat
  asid : Nat
  vmid : Nat
  va : Nat
  pa : Nat
  bits : Nat                -- log2 of the effective page size
  perm1 : BitVec 8
  perm2 : BitVec 8
  global : Bool
  gpa : Nat
  nocache : Bool
  repl : Bool
  lvl1 : Nat                -- the levels of the leaves it stands for
  lvl2 : Nat
  bad : Bool                -- holds an uncorrectable error (R405)
  deriving DecidableEq, Repr, Inhabited

/-- A non-leaf entry of the walk cache (R233): the table of a level that addresses of a prefix lead to. -/
structure WalkEnt where
  vmid : Nat
  asid : Nat
  st1 : Bool
  lvl : Nat
  pfx : Nat
  base : Nat
  bad : Bool
  deriving DecidableEq, Repr, Inhabited

/-- Where a flit is taken: a unit's scratchpad, or a home slice, 32 * die + slice, or an expander port, 64 + port (R320, R323,
R330). -/
inductive Rx where
  | unit (u : UnitId)
  | home (n : Nat)
  deriving DecidableEq, Repr, Inhabited

/-- A receiver of a flit: its number in the mask, its place, and the ring cycle in which the flit reaches its station. -/
structure Hop where
  no : Nat
  rx : Rx
  at_ : Nat
  deriving DecidableEq, Repr, Inhabited

/-- A byte that a copy writes: its place at the receiver (an offset, or a PA), the bits written, their value, and its
address as the copy names it. -/
structure FByte where
  at_ : Nat
  mask : Byte
  val : Byte
  ea : Nat
  deriving DecidableEq, Repr, Inhabited

/-- A flit of a copy on a ring or between bridges, or a chunk of a die copy engine on the mesh (R219, R320, R323).
-/
structure Flit where
  id : Nat
  die : Nat
  src : Nat                 -- station that sent it
  issuer : UnitId
  dce : Bool
  cmd : Nat
  chunk : Nat
  ch : Nat
  ctx : Nat
  tag : BitVec 8
  dests : List Hop
  bytes : List FByte
  span : Nat × Nat          -- the copy's lowest destination byte, and the one past its highest
  bridge : Option Nat       -- the bridge that holds it, or carries it over, until a slot comes
  since : Option Nat        -- the tick from which a tagged store of it waits for version space (R384)
  posts : Option (List Nat) -- once its words for a replicated page are on their way: the package's stamps by then (R214)
  deriving DecidableEq, Repr, Inhabited

/-- A contribution on its way to a member tile, or held for it there (R226, R275): from a context of this package, or from
a partition of another. -/
structure CollNet where
  dst : UnitId
  ctx : Nat
  ptn : Option Nat
  msg : CollMsg
  refused : Option Nat
  arrived : Bool
  deriving DecidableEq, Repr, Inhabited

-- contexts, slices, launches

/-- A context descriptor as the device read it at binding (R254). -/
structure CtxDesc where
  ctxid : Nat
  satpMode : Nat
  asid : Nat
  root : Nat
  ftbase : Dword
  ftsize : Nat
  fthost : Nat
  spbase : Dword
  spcount : Nat
  hybase : Dword
  lqbase : Dword
  lqn : Nat
  savebase : Dword
  savestride : Dword
  trappc : Dword
  csraster : Dword
  csdepth : Dword
  cstrav : Dword
  tslive : Nat
  acclive : Nat
  cfg : BitVec 2
  wdog : Word
  deadline : Dword
  rssize : Nat
  rsbase : Dword
  deriving DecidableEq, Repr, Inhabited

/-- A warp launched from a bin that found no core (R26). -/
structure PendWarp where
  kind : CoreKind
  idx : Nat
  entry : Dword
  regs : Nat
  slots : List Nat
  prio : Nat
  deriving DecidableEq, Repr, Inhabited

/-- An interlock entry (R311, R317): 1 registered, 2 bound, 3 released. -/
structure ILock where
  key : Word
  order : Nat
  st : Nat
  unit : UnitId
  slot : Nat
  lane : Nat
  uid : Nat
  rel : Nat                 -- released: once the lane's accesses named before this are performed (R312)
  deriving DecidableEq, Repr, Inhabited

inductive SliceRun where
  | idle | running | switching
  deriving DecidableEq, Repr, Inhabited

/-- A partition slice (R14, R256). -/
structure Slice where
  st : SliceRun
  ctx : Option CtxDesc
  pidx : Nat
  goAt : Nat
  go : Bool                 -- a switch that GO started, not the end of a killed context
  doSave : Bool
  doRestore : Bool
  pending : List PendWarp
  ilock : Tab (Option ILock)
  ilockSeq : Nat
  deriving DecidableEq, Repr, Inhabited

/-- An open launch of a queue (R258). -/
structure Launch where
  ctx : Nat
  queue : Nat
  ridx : Nat
  hdr : Nat                 -- PA of the queue header
  desc : List Dword
  args : List Byte
  next : Nat
  opent : Nat
  maxHeat : Option Nat      -- highest heat retired since the last placement
  placed : Bool
  lost : Bool               -- its queue has lost its last eligible core, and that is reported (R374)
  deriving DecidableEq, Repr, Inhabited

/-- A grid that has teams running (R138, R258). -/
structure Grid where
  ctx : Nat
  queue : Nat
  ridx : Nat
  hdr : Nat
  live : Nat
  total : Nat
  done : Word
  notify : Bool
  deriving DecidableEq, Repr, Inhabited

-- dies

/-- A refit job (R313, R314). -/
structure RefitJob where
  desc : List Dword
  ctx : Nat
  handle : Word
  work : List Word          -- nodes in progress
  startAt : Nat
  faded : Nat
  nodes : Nat
  seen : List Word          -- nodes refitted
  deriving DecidableEq, Repr, Inhabited

/-- A regulator's bucket, in units of 1/16,000 byte (R269), and its waiting requests. -/
structure Bucket where
  t : Int
  since : Nat
  queue : List (Nat × Nat)
  rep : Nat                 -- when QOSREP was last reported (R403)
  deriving DecidableEq, Repr, Inhabited

/-- An update waiting for APPLIED answers at its home (R244). -/
structure HomeUpd where
  addr : Nat
  stamper : Nat
  vc : List Nat
  waiting : List Nat
  op : Option Nat
  old : Option Nat          -- the value an atomic of another package found
  ptn : Nat
  deriving DecidableEq, Repr, Inhabited

/-- A transport connection (R335). -/
structure Conn where
  nextSeq : Nat
  expect : Nat
  unacked : List (Nat × Frame × Nat × Nat)  -- seq, frame, sent at, times sent
  sacked : List Nat         -- frames past the expected one that the receiver has shown
  early : List Frame
  deriving DecidableEq, Repr, Inhabited

/-- A checkpoint in progress (R426, R427). -/
structure Ckpt where
  rec_ : MgmtRec
  segs : List (Nat × Nat × Nat × Nat)   -- source, length, target, target address
  ident : Dword
  pace : Nat
  crcs : List Word
  written : Bool
  deriving DecidableEq, Repr, Inhabited

/-- What a die holds beside its cores (R13). -/
structure Die where
  pace : Nat
  paceFrac : Nat
  win : Tab (Option Dword)          -- written registers of the window, by offset (R318)
  tlb : Tab (List Tlb)              -- by unit number, and by 10,000 + cluster (R233)
  walks : List WalkEnt              -- the walk cache
  inval : Option (Dword × Nat)      -- the invalidation under way, and the first name given since it started (R234)
  buckets : Tab (Option Bucket)     -- 8 * entry + class
  fifo : Tab (List (List Byte))     -- by head: lines fetched and not yet scanned out
  urgent : Tab Bool
  repeated : Tab Nat
  pixLine : Tab Nat                 -- lines of the frame scanned out
  fetched : Tab Nat                 -- lines of the frame fetched
  surf : Tab (Option Nat)           -- the surface of the frame
  shown : Tab (List Byte)           -- the line scanned out last
  scaled : Tab Bool                 -- BULK scaling in force, by entry
  scaleDue : Tab (Option Nat)       -- by entry: the tick by whose end a change of its scaling is in force (R272)
  dce : Tab (List Cmd)
  dceFrozen : Tab Bool
  dceRun : Tab (Option Cmd)
  lpos : Tab Nat                    -- by station: one past the last slot loaded, as 4 * cycle + track
  refitQ : List RefitJob
  refit : Option RefitJob
  launches : List Launch
  lastPass : Nat
  freedAt : Nat                     -- one past the tick in which its cores last freed capacity (R259)
  polled : Nat                      -- the tick of the last poll of the queue headers (R258)
  stuckQ : List (Nat × Nat × Bool)  -- queues that refused an entry, as context, queue, and whether STOP has been set since (R374)
  hbCount : Nat
  hbAt : Nat                        -- the tick of the last heartbeat sent (R407)
  heard : Tab (Option Nat)          -- tick of the last heartbeat of agent number a
  fenced : List Agent
  scrubbed : List Agent             -- fenced agents whose scrub has ended
  badFlits : Tab (List Nat)         -- by ring module: ticks of flits with a bad CRC in the last millisecond
  merge : List (Nat × Dword × Nat × Word) -- lazy-building keys: context, descriptor, address of the entry, node
  vc : Tab (List Nat)               -- vector clock by partition identifier
  shared : Tab (Option Nat)         -- sharer set by partition identifier, as the replica unit holds it (R243)
  upd : List UpdateMsg
  homeUpd : List HomeUpd
  atomQ : List (List Byte)          -- atomics of other packages that wait for their turn (R250)
  log : List UpdateMsg
  voids : List (Nat × Nat × Nat)    -- own stamps never acked: home, page, stamp
  replay : Tab Nat                  -- replay step reached for lost die w
  homes : Tab (Option Nat)          -- promoted home by page number
  conns : Tab Conn                  -- 8 * peer die + class
  attBusy : Option (List Byte)
  swapAt : Nat                      -- tick at which a ring swap was asked for
  roles : Tab Nat                   -- by port: the role sampled at the last reset (R328)
  ckWin : Option (Nat × Nat × Nat)  -- checkpoint window: sending die, address, length
  encDue : Tab Nat                  -- by encoder: frames that its head has scanned out and it has not taken (R338)
  upBase : Nat                      -- ticks of powered time before the last reset (R346)
  wornAt : Nat                      -- the tick of powered time at which WEAR and LIFE were last updated (R346)
  throttle : Bool
  eolReported : Bool
  eolAt : Nat                       -- the tick of powered time of the last WEAREOL (R429)
  hot : Nat                         -- the temperature of the hottest block as last measured (R429)
  hotAt : Option Nat                -- the tick of the last THERMAL
  cong : Tab Nat                    -- congestion level by cluster (R265)
  deriving DecidableEq, Repr, Inhabited

/-- A granule with an uncorrectable error (R405, R406), or one corrected at its next read. -/
structure BadGranule where
  st : Storage
  addr : Nat
  two : Bool
  deriving DecidableEq, Repr, Inhabited

/-- What has left the device (R331 to R333, R422): interrupt stores, frames by Ethernet port, management answers, host reads. -/
inductive Output where
  | irq (die : Nat) (addr data : Nat)
  | frame (die port : Nat) (bytes : List Byte)
  | answer (r : MgmtRec) (status : Nat)
  | read (src : HostFrom) (pa : Nat) (bytes : List Byte)
  | regRead (die off : Nat) (v : Dword)
  | heartbeat (a : Agent) (count : Nat)
  | line (die hd : Nat) (pixels : List Byte)
  deriving DecidableEq, Repr, Inhabited

/-- The issue in progress: the path that issues, its instruction word, and the values a hazarded read may still
see (R59). -/
structure Cur where
  unit : UnitId
  slot : Nat
  path : Nat
  len : Nat
  word : Dword
  lit : Dword
  hz : List RegVal
  hw : List (RFile × Nat × Nat)
  deriving DecidableEq, Repr, Inhabited

/-- The microword issue in progress (R292). -/
structure MCur where
  unit : UnitId
  g : GUnit
  slot : Nat
  deriving DecidableEq, Repr, Inhabited

/-- What of a warp the slice image has no place for. -/
structure HeldWarp where
  slot : Nat
  entry : Dword
  prio : Nat
  handle : Word
  parkReq : Lanes
  wdTrap : Bool
  loops : List (Option Word × Option Dword × Option Dword)   -- nlc, nls and nle by level
  issuer : Option (Nat × Nat)
  deriving DecidableEq, Repr, Inhabited

/-- What of a unit the slice image has no place for, kept with the context while its slice is switched out: the trap
registers, waiting traps, the trap slot of a tile or relay core, stopped engines, collectives under way, the core's
combiner by slot and tag, cores bound to tickets, pending warps, the team that holds the tile registers, the launches that
waiting tasks and batons were issued for, and the addresses of the descriptors that rays were given. -/
structure Held where
  unit : UnitId
  trap : Option OpenTrap
  trapQ : List TrapReq
  trapWarp : Option Warp
  frozen : Tab Bool
  stop : Tab Cause
  sent : List (Dword × Nat)
  counts : List (Nat × TagCnt)
  bound : List (Nat × UnitId)
  pending : List PendWarp
  tiles : Option Nat
  issuers : List (Option (Nat × Nat))
  rays : List (Nat × Dword)    -- by sequencer slot, the address of its descriptor
  warps : List HeldWarp
  deriving DecidableEq, Repr, Inhabited

/-- What a context holds beside its memory (R25, R254, R370): its descriptor as last bound, with the partition entry and
die of that binding. -/
structure CtxRt where
  desc : Option CtxDesc
  pidx : Nat
  die : Nat
  poolUsed : List Nat
  ticketed : List (Nat × Nat) -- pool slots with records of EMIT.spord, and their tickets (R311)
  fnew : List Word            -- handles that FNEW gave out (R29)
  killed : Option Cause
  held : List Held
  deriving DecidableEq, Repr, Inhabited

/-- Package-wide platform state (R341, R342, R345, R429). -/
structure Plat where
  off : Bool
  stage : Nat
  ready : Bool
  stalled : Bool              -- a verification or the training of the mesh has failed since the reset (R342, R420, R428)
  image : List Byte           -- the firmware image that runs (R342)
  winAt : Nat                 -- the tick at which the last power window ended (R345)
  ckpt : Option Ckpt
  hostHb : Tab Nat
  hostHbAt : Tab Nat          -- the tick of a host complex's last heartbeat (R407)
  deriving DecidableEq, Repr, Inhabited

/-- The machine. -/
structure State where
  agenda : List Action
  cur : Cur
  mcur : MCur
  free : Nat                  -- the model's own counter of free values
  nextId : Nat                -- the model's own counter of names
  cores : Tab Core            -- by unit number
  agents : Tab LeaseAgent     -- by unit number; the host complex is 4096
  dies : Tab Die
  slices : Tab Slice          -- 16 * die + slice
  ctxs : Tab CtxRt            -- by CTXID
  mem : Tab Byte              -- by PA
  lines : Tab (Option LineTs) -- by PA / 128; none: not held at home
  mts : Tab (BitVec 16)       -- by home slice, 32 * die + slice
  served : Tab Nat            -- by home slice, one past the regulator served last, 8 * entry + class (R270)
  sets : Tab (List Way)       -- 4096 * home slice + set
  self_ : Tab Nat             -- QSTAT.SELF, 8 * (32 * die + entry) + class
  pt : BitVec 16
  ptSent : Nat
  latest : BitVec 16          -- the latest wts assigned (R239)
  ops : List MemOp
  vers : List Version
  resolves : List Resolve
  windows : List Window
  beats : List Beat
  flits : List Flit
  collNet : List CollNet
  grids : List Grid
  bad : List BadGranule
  out : List Output
  plat : Plat
  deriving DecidableEq, Repr, Inhabited

/-- The machine right after reset (R341 step 1): every register at its reset value, PACE 0, every slice idle, memory
with nothing listed, nothing under way. A number that a table does not list is at its default: a core is empty with every
register and scratchpad byte 0, a slice is idle with no context, a die's window reads its reset values (Win.reset), a
lease agent is at program time 0 with no copies. -/
def State.reset : State where
  agenda := []
  cur := ⟨⟨.sc, 0, 0⟩, 0, 0, 0, 0, 0, [], []⟩
  mcur := ⟨⟨.sc, 0, 0⟩, .trav, 0⟩
  free := 0
  nextId := 0
  cores := []
  agents := []
  dies := []
  slices := []
  ctxs := []
  mem := []
  lines := []
  mts := []
  served := []
  sets := []
  self_ := []
  pt := 0
  ptSent := 0
  latest := 0
  ops := []
  vers := []
  resolves := []
  windows := []
  beats := []
  flits := []
  collNet := []
  grids := []
  bad := []
  out := []
  plat := ⟨false, 0, false, false, [], 0, none, [], []⟩

end Sys2Proof.Machine
end

