-- ==== Sys2Proof/Machine/Tab.lean ====
section
/-! DEFINITION. Reading and writing the sparse tables, and the predicate of their canonical form. -/
namespace Sys2Proof.Tab

variable {α : Type}

/-- The value under a number; the default of the type where no pair names it. -/
def get [Inhabited α] : Tab α → Nat → α
  | [], _ => default
  | (j, x) :: t, k => if j = k then x else get t k

/-- The table without any pair of a number. -/
def erase : Tab α → Nat → Tab α
  | [], _ => []
  | (j, x) :: t, k => if j = k then erase t k else (j, x) :: erase t k

/-- The table with a pair put in its place in the rising order. -/
def insert : Tab α → Nat → α → Tab α
  | [], k, v => [(k, v)]
  | (j, x) :: t, k, v =>
    if k < j then (k, v) :: (j, x) :: t
    else if j = k then (k, v) :: t
    else (j, x) :: insert t k v

/-- Writing the default removes the pair, so the form stays canonical. -/
def set [Inhabited α] [DecidableEq α] (t : Tab α) (k : Nat) (v : α) : Tab α :=
  if v = default then erase t k else insert t k v

/-- Changing the value under a number. -/
def modify [Inhabited α] [DecidableEq α] (t : Tab α) (k : Nat) (f : α → α) : Tab α :=
  set t k (f (get t k))

/-- Every number of the table lies above a bound. -/
def above (b : Nat) : Tab α → Bool
  | [] => true
  | (j, _) :: t => decide (b < j) && above b t

/-- The canonical form: numbers strictly rising, no default listed. -/
def wf [Inhabited α] [DecidableEq α] : Tab α → Bool
  | [] => true
  | (j, x) :: t => above j t && decide (x ≠ default) && wf t

/-- Writing several pairs, in list order. -/
def setAll [Inhabited α] [DecidableEq α] (t : Tab α) : List (Nat × α) → Tab α
  | [] => t
  | (k, v) :: r => setAll (set t k v) r

/-- The values of n numbers from k on. -/
def slice [Inhabited α] (t : Tab α) (k : Nat) : Nat → List α
  | 0 => []
  | n + 1 => get t k :: slice t (k + 1) n

end Sys2Proof.Tab
end

