-- ==== Sys2Proof/Machine/Units.lean ====
section
/-! DEFINITION. Named operations over the state: units, warps, paths and registers (R12, R14, R21, R31, R45, R51, R57,
R59, R144). -/
namespace Sys2Proof.Machine

open Bits

-- units

/-- The number of a unit in State.cores and State.agents. -/
def unitNo (u : UnitId) : Nat :=
  1024 * u.die + (match u.kind with | .sc => 0 | .tt => 256 | .rc => 512) + u.idx

/-- The unit of a number. -/
def unitOf (n : Nat) : UnitId :=
  let r := n % 1024
  if r < 256 then ⟨.sc, n / 1024, r⟩ else if r < 512 then ⟨.tt, n / 1024, r - 256⟩ else ⟨.rc, n / 1024, r - 512⟩

/-- The agent number of the host complex (R235). -/
def hostAgent : Nat := 4096

/-- The trap slot of a core (R20, R21). -/
def trapSlot : Nat := 64

def kindCode : CoreKind → Nat
  | .sc => 0 | .tt => 1 | .rc => 2

/-- Lanes of a warp on a kind of core (R18). -/
def laneWidth : CoreKind → Nat
  | .sc => 32 | _ => 1

/-- Warp or thread slots of a kind of core, the trap slot apart (R21). -/
def slotCount : CoreKind → Nat
  | .sc => 64 | .tt => 8 | .rc => 64

/-- The clock of a kind of core, in steps of 100 MHz (R13). -/
def fullClock : CoreKind → Nat
  | .tt => 24 | _ => 26

/-- The slice of a unit within its die (R14). -/
def sliceOf (u : UnitId) : Nat :=
  match u.kind with | .sc => u.idx / 8 | .tt => u.idx / 4 | .rc => u.idx

/-- The cluster of a unit within its die; a relay core has none (R14). -/
def clusterOf (u : UnitId) : Nat :=
  match u.kind with | .sc => u.idx / 4 | .tt => u.idx / 2 | .rc => 64

/-- Shader cores, tiles and the relay core of a slice (R14). -/
def sliceUnits (d i : Nat) : List UnitId :=
  (List.range 8).map (fun j => ⟨.sc, d, 8 * i + j⟩) ++ (List.range 4).map (fun j => ⟨.tt, d, 4 * i + j⟩) ++ [⟨.rc, d, i⟩]

/-- The package-wide number of a physical slot (R38). -/
def slotNo (u : UnitId) (slot : Nat) : Nat :=
  if slot = trapSlot then 32768 * u.die + 24576 + 256 * kindCode u.kind + u.idx
  else 32768 * u.die + 8192 * kindCode u.kind + 64 * u.idx + slot

namespace State

def core (s : State) (u : UnitId) : Core := s.cores.get (unitNo u)
def modCore (s : State) (u : UnitId) (f : Core → Core) : State := { s with cores := s.cores.modify (unitNo u) f }
def warp (s : State) (u : UnitId) (slot : Nat) : Option Warp := (s.core u).warps.get slot
def setWarp (s : State) (u : UnitId) (slot : Nat) (w : Option Warp) : State :=
  s.modCore u fun c => { c with warps := c.warps.set slot w }
def modWarp (s : State) (u : UnitId) (slot : Nat) (f : Warp → Warp) : State :=
  s.modCore u fun c => { c with warps := c.warps.modify slot (Option.map f) }
def die (s : State) (d : Nat) : Die := s.dies.get d
def modDie (s : State) (d : Nat) (f : Die → Die) : State := { s with dies := s.dies.modify d f }
def slice (s : State) (d i : Nat) : Slice := s.slices.get (16 * d + i)
def modSlice (s : State) (d i : Nat) (f : Slice → Slice) : State := { s with slices := s.slices.modify (16 * d + i) f }
def agent (s : State) (n : Nat) : LeaseAgent := s.agents.get n
def modAgent (s : State) (n : Nat) (f : LeaseAgent → LeaseAgent) : State := { s with agents := s.agents.modify n f }
def ctxRt (s : State) (c : Nat) : CtxRt := s.ctxs.get c
def modCtxRt (s : State) (c : Nat) (f : CtxRt → CtxRt) : State := { s with ctxs := s.ctxs.modify c f }

/-- PACE of a die (R325). -/
def pace (s : State) (d : Nat) : Nat := (s.die d).pace

/-- Tenths of a cycle that a unit's clock makes in a tick (R8, R344). -/
def clockRate (s : State) (u : UnitId) : Nat := fullClock u.kind - (s.core u).clock

/-- Tenths of a cycle that a unit's clock has made. -/
def cycles (s : State) (u : UnitId) : Nat := (s.core u).cyc + (s.pace u.die - (s.core u).cycAt) * s.clockRate u

/-- A unit's clock is set k steps below its full clock, at least one step above 0 (R344). -/
def setSteps (s : State) (u : UnitId) (k : Nat) : State :=
  s.modCore u fun c => { c with clock := min k (fullClock u.kind - 1), cyc := s.cycles u, cycAt := s.pace u.die }

/-- The slice a unit belongs to. -/
def unitSlice (s : State) (u : UnitId) : Slice := s.slice u.die (sliceOf u)

/-- The descriptor of a context, as last bound (R254). -/
def ctxDesc (s : State) (ctx : Nat) : CtxDesc := (s.ctxRt ctx).desc.getD default

/-- The slices bound to a context, as 16 * die + slice. -/
def ctxSlices (s : State) (ctx : Nat) : List Nat :=
  (s.slices.filter fun p => match p.2.ctx with | some c => c.ctxid = ctx | none => false).map (·.1)

/-- The congestion level of a unit's cluster; on a relay core the higher of its slice's two (R48, R266). -/
def congLevel (s : State) (u : UnitId) : Nat :=
  let c := (s.die u.die).cong
  match u.kind with
  | .rc => max (c.get (2 * u.idx)) (c.get (2 * u.idx + 1))
  | _ => c.get (clusterOf u)

/-- Units of every slice bound to a context. -/
def ctxUnits (s : State) (ctx : Nat) : List UnitId :=
  (s.ctxSlices ctx).flatMap fun n => sliceUnits (n / 16) (n % 16)

/-- A new name. -/
def fresh (s : State) : Nat × State := (s.nextId, { s with nextId := s.nextId + 1 })

/-- A new free value (R4). -/
def drawFree (s : State) : Dword × State := (Config.freeVal s.free, { s with free := s.free + 1 })

end State

-- registers of a warp

namespace Warp

/-- The level's window (R49). -/
def winSize (l : Loop) : Nat := field l.rw.toNat 8 9
def winBase (l : Loop) : Nat := field l.rw.toNat 0 8
def winStg (l : Loop) : Nat := field l.rw.toNat 24 4

/-- Rotation of one v register number by one level (R144). -/
def rotate (l : Loop) (x : Nat) : Nat :=
  if l.st = .live ∧ winSize l ≠ 0 ∧ winBase l ≤ x ∧ x < winBase l + winSize l then
    winBase l + (x - winBase l + l.rb.toNat % 256) % winSize l
  else x

/-- The physical register that a v register number reaches (R144): live windows do not overlap. -/
def phys (w : Warp) (x : Nat) : Nat :=
  ((List.range 4).map w.loops.get).foldl
    (fun r l => if r ≠ x then r else rotate l x) x % 256

def getV (w : Warp) (l x : Nat) : Word := w.v.get (256 * l + w.phys x)
def setV (w : Warp) (l x : Nat) (v : Word) : Warp := { w with v := w.v.set (256 * l + w.phys x) v }

/-- Lane predicates as lane sets; p7 reads 1 and ignores writes (R45). -/
def getP (w : Warp) (p : Nat) : Lanes := if p = 7 then BitVec.allOnes 32 else w.p.get p
def pbit (w : Warp) (l p : Nat) : Bool := (w.getP p).getLsbD l
def setP (w : Warp) (l p : Nat) (b : Bool) : Warp :=
  if p = 7 then w
  else { w with p := w.p.modify p fun m => if b then m ||| lane l else m &&& ~~~ lane l }

/-- Group sizes; every group register reads 32 when a warp starts (R35). -/
def groupSize (w : Warp) (g : Nat) : Nat := 4 * 2 ^ (3 - (w.grp.get g).toNat)

/-- One register result, v registers by physical number. -/
def apply (w : Warp) (r : RegVal) : Warp :=
  match r.file with
  | .v => { w with v := w.v.set (256 * r.lane + r.reg) (r.val.setWidth 32) }
  | .k => { w with k := w.k.set r.reg r.val }
  | .p => w.setP r.lane r.reg (r.val.getLsbD 0)
  | .sp => { w with sp := if r.val.getLsbD 0 then w.sp ||| BitVec.ofNat 8 (2 ^ r.reg)
                          else w.sp &&& ~~~ BitVec.ofNat 8 (2 ^ r.reg) }
  | .g => { w with grp := w.grp.set r.reg (3 - r.val.setWidth 2) }
  | .t | .sq | .x => w

def applyAll (w : Warp) (rs : List RegVal) : Warp := rs.foldl apply w

/-- The value a register result would replace. -/
def current (w : Warp) (f : RFile) (r l : Nat) : Dword :=
  match f with
  | .v => (w.v.get (256 * l + r)).setWidth 64
  | .k => w.k.get r
  | .p => BitVec.ofNat 64 (ofBool (w.pbit l r))
  | .sp => BitVec.ofNat 64 (ofBool (w.sp.getLsbD r))
  | .g => (3 - w.grp.get r).setWidth 64
  | .t | .sq | .x => 0

-- paths (R31): a path is named by a lane of its set

def pathOf (w : Warp) (l : Nat) : Option Path := w.paths.find? fun p => p.mask.getLsbD l

def live (w : Warp) : Lanes := firstLanes w.width &&& ~~~ w.exited

/-- Lanes leave the paths that hold them; a path without lanes is gone. -/
def dropLanes (w : Warp) (m : Lanes) : Warp :=
  { w with paths := (w.paths.map fun p => { p with mask := p.mask &&& ~~~ m }).filter fun p => p.mask != 0 }

def addPath (w : Warp) (p : Path) : Warp := if p.mask = 0 then w else { w with paths := w.paths ++ [p] }

/-- The lowest lane of a set, 32 where it is empty. -/
def laneKey (m : Lanes) : Nat := (lowest m).getD 32

/-- Operations in flight that count in M of a path with the given lanes (R31). -/
def memCount (w : Warp) (m : Lanes) : Nat := (w.pend.filter fun p => p.mem && (p.counts &&& m) != 0).length

/-- A path that splits leaves its M to both sides (R32). -/
def shareM (w : Warp) (m : Lanes) : Warp :=
  { w with pend := w.pend.map fun (p : Pend) => if p.counts &&& m = 0 then p else { p with counts := p.counts ||| m } }

def parkedLanes (w : Warp) : Lanes := laneSet (w.parked.map (·.lane))

/-- A lane's HY (R48). -/
def hyOf (w : Warp) (l : Nat) : BitVec 8 := w.hy.get l

end Warp

/-- The code of a register file (R379). -/
def fileCode : RFile → Nat
  | .v => 0 | .k => 1 | .p => 2 | .t | .sq | .x => 3 | .sp => 4 | .g => 5

/-- The name of a free choice about a register of a lane (R59): choice 0 is a write's, 1 a late result's, the others a read's. -/
def sideKey (f : RFile) (r l i : Nat) : Nat := 8 * (64 * (8192 * i + r) + l) + fileCode f

/-- Files held per lane (R45). -/
def perLaneFile (f : RFile) : Bool := f == .v || f == .p

-- the issue in progress

namespace State

/-- The warp that issues. -/
def curW (s : State) : Warp := (s.warp s.cur.unit s.cur.slot).getD default

def modCur (s : State) (f : Warp → Warp) : State := s.modWarp s.cur.unit s.cur.slot f

/-- The path that issues. -/
def curP (s : State) : Path := (s.curW.pathOf s.cur.path).getD default

def curCtx (s : State) : Nat := s.curW.ctx

def inTrap (s : State) : Bool := s.cur.slot == trapSlot

/-- One of the values R59 allows, where the read is hazarded: the register as it stands, or any of the values that a write to
it replaced or is still to bring. -/
def hazard (s : State) (f : RFile) (r l : Nat) (v : Dword) : Dword :=
  ((s.cur.hz.filter fun a => a.file = f && a.reg == r && a.lane == l).zipIdx.find? fun a =>
    Config.freeSide s.free (sideKey f r l (a.2 + 2))).elim v (·.1.val)

/-- A v register of a lane of the issuing warp. -/
def rv (s : State) (l x : Nat) : Word :=
  let w := s.curW
  (s.hazard .v (w.phys x) l ((w.getV l x).setWidth 64)).setWidth 32

/-- An aligned pair of a lane (R46). -/
def rv2 (s : State) (l x : Nat) : Dword := (s.rv l (x + 1)) ++ (s.rv l x)

def rk (s : State) (x : Nat) : Dword := s.hazard .k x 0 (s.curW.k.get x)

def rp (s : State) (l p : Nat) : Bool :=
  if p = 7 then true else (s.hazard .p p l (BitVec.ofNat 64 (ofBool (s.curW.pbit l p)))).getLsbD 0

/-- Active lanes whose guard holds (R51). -/
def execLanes (s : State) (h : Head) : Lanes :=
  laneSet ((lanes s.curP.mask).filter fun l => s.rp l h.pg.toNat != h.pn)

/-- Whether a write to a register of a lane leaves the value of an earlier, unchecked producer (R59). -/
def keptBack (s : State) (f : RFile) (r l : Nat) : Bool := s.cur.hw.contains (f, r, l) && Config.freeSide s.free (sideKey f r l 0)

/-- Register writes of the issuing warp; a hazarded one may leave the earlier producer's value (R59). -/
def write (s : State) (rs : List RegVal) : State :=
  s.modCur fun w => w.applyAll (rs.filter fun r => !s.keptBack r.file r.reg r.lane)

-- results as register values

def vres (s : State) (l d : Nat) (x : Word) : RegVal := ⟨.v, s.curW.phys d, l, x.setWidth 64⟩
def vres2 (s : State) (l d : Nat) (x : Dword) : List RegVal :=
  [s.vres l d (x.setWidth 32), s.vres l (d + 1) ((x >>> 32).setWidth 32)]
def kres (d : Nat) (x : Dword) : RegVal := ⟨.k, d, 0, x⟩
def pres (l d : Nat) (b : Bool) : RegVal := ⟨.p, d, l, BitVec.ofNat 64 (ofBool b)⟩

-- tokens (R57)

/-- The token an instruction sets. -/
def tokOf (h : Head) : Option Nat := if 1 ≤ h.sbt.toNat ∧ h.sbt.toNat ≤ 6 then some (h.sbt.toNat - 1) else none

end State

/-- A token's count changed; at zero the paths that wait on tokens may try again. -/
def Warp.tokDec (w : Warp) (t : Option Nat) : Warp :=
  match t with
  | none => w
  | some i =>
    let w := { w with tok := w.tok.modify i (· - 1) }
    { w with paths := w.paths.map fun p => if p.wait = .token then { p with wait := .ready } else p }

def Warp.tokInc (w : Warp) (t : Option Nat) : Warp :=
  match t with
  | none => w
  | some i => { w with tok := w.tok.modify i (· + 1) }

namespace State

/-- An instruction of variable latency enters flight: its results, if known, wait for their writeback; `hold` counts
what has still to complete (R56, R57). -/
def addPend (s : State) (h : Head) (lanes : Lanes) (mem : Bool) (hold : Nat) (res : List RegVal) : State :=
  let t := tokOf h
  let (id, s) := s.fresh
  s.modCur fun w => { w.tokInc t with pend := w.pend ++ [⟨id, s.curP.pc, lanes, mem, t, hold, res, [], [], lanes⟩] }

end State

end Sys2Proof.Machine
end

