-- ==== Sys2Proof/Machine/Window.lean ====
section
/-! DEFINITION. The die register window (R318): offsets, reset values, what a read answers, and what a write leaves (R5,
R6, R9, R234, R255, R256, R265, R267, R271, R322, R325 to R332, R337 to R345). -/
namespace Sys2Proof.Machine

open Bits

namespace Win

-- offsets (R318, R340)
def ident : Nat := 0x0000000
def fwver : Nat := 0x0000008
def fwstat : Nat := 0x0000010
def rstctl : Nat := 0x0000018
def attaddr : Nat := 0x0000020
def attctl : Nat := 0x0000028
def pwrstat : Nat := 0x0000100
def pwrcfg : Nat := 0x0000108
def wear : Nat := 0x0000180
def life : Nat := 0x0000188
def cert : Nat := 0x0001000
def pace : Nat := 0x0010000
def paceadj : Nat := 0x0010008
def pacestat : Nat := 0x0010010
def ringctl : Nat := 0x0020000
def ringswap : Nat := 0x0020008
def ringerr : Nat := 0x0020010
def bank (b : Nat) : Nat := 0x0024000 + 0x4000 * b
def xinva : Nat := 0x0030000
def xinvc : Nat := 0x0030008
def peCfg (n : Nat) : Nat := 0x0040000 + 32 * n
def peHgatp (n : Nat) : Nat := 0x0040000 + 32 * n + 8
def peRbase (n : Nat) : Nat := 0x0040000 + 32 * n + 0x10
def peRcnt (n : Nat) : Nat := 0x0040000 + 32 * n + 0x18
def pirqa (n : Nat) : Nat := 0x0041000 + 16 * n
def pirqd (n : Nat) : Nat := 0x0041000 + 16 * n + 8
def slnext (i : Nat) : Nat := 0x0050000 + 16 * i
def slctl (i : Nat) : Nat := 0x0050000 + 16 * i + 8
def congCfg : Nat := 0x0060000
def mbCfg : Nat := 0x0060008
def qos (n c : Nat) : Nat := 0x0070000 + 128 * n + 16 * c
def qstat (n c : Nat) : Nat := 0x0070000 + 128 * n + 16 * c + 8
def hqos (h : Nat) : Nat := 0x0080000 + 8 * h
def veown (e : Nat) : Nat := 0x0080100 + 8 * e
def head (h : Nat) : Nat := 0x0090000 + 0x100 * h
def enc (e : Nat) : Nat := 0x00A0000 + 0x100 * e
def dtcfg : Nat := 0x00B0000
def dtpeer (p d : Nat) : Nat := 0x00B0100 + 16 * p + 8 * d
def ucie (m : Nat) : Nat := 0x00C0000 + 16 * m
def portcfg (p : Nat) : Nat := 0x00D0000 + 8 * p

/-- The registers of the window, with the parameters of their groups. -/
inductive Kind where
  | ident | fwver | fwstat | rstctl | attaddr | attctl | pwrstat | pwrcfg | wear | life | cert
  | pace | paceadj | pacestat | ringctl | ringswap | ringerr
  | bank (b e hi : Nat)
  | xinva | xinvc
  | peCfg (n : Nat) | peHgatp (n : Nat) | peRbase (n : Nat) | peRcnt (n : Nat)
  | pirqa (n : Nat) | pirqd (n : Nat)
  | slnext (i : Nat) | slctl (i : Nat)
  | congCfg | mbCfg
  | qos (n c : Nat) | qstat (n c : Nat)
  | hqos (h : Nat) | veown (e : Nat)
  | head (h r : Nat)
  | enc (e r : Nat)
  | dtcfg
  | dtpeer (p d : Nat)
  | ucie (m : Nat)
  | portcfg (p : Nat)
  | none
  deriving DecidableEq, Repr

/-- The register at an offset; every other offset is reserved (R318). -/
def kindOf (o : Nat) : Kind :=
  if o % 8 ≠ 0 then .none
  else if o = ident then .ident else if o = fwver then .fwver else if o = fwstat then .fwstat
  else if o = rstctl then .rstctl else if o = attaddr then .attaddr else if o = attctl then .attctl
  else if o = pwrstat then .pwrstat else if o = pwrcfg then .pwrcfg else if o = wear then .wear
  else if o = life then .life
  else if cert ≤ o ∧ o < cert + 0x1000 then .cert
  else if o = pace then .pace else if o = paceadj then .paceadj else if o = pacestat then .pacestat
  else if o = ringctl then .ringctl else if o = ringswap then .ringswap else if o = ringerr then .ringerr
  else if bank 0 ≤ o ∧ o < bank 2 then
    .bank ((o - bank 0) / 0x4000) ((o - bank 0) % 0x4000 / 16) ((o - bank 0) % 16 / 8)
  else if o = xinva then .xinva else if o = xinvc then .xinvc
  else if peCfg 0 ≤ o ∧ o < peCfg 32 then
    match (o - peCfg 0) % 32 / 8 with
    | 0 => .peCfg ((o - peCfg 0) / 32)
    | 1 => .peHgatp ((o - peCfg 0) / 32)
    | 2 => .peRbase ((o - peCfg 0) / 32)
    | _ => .peRcnt ((o - peCfg 0) / 32)
  else if pirqa 0 ≤ o ∧ o < pirqa 32 then
    if o % 16 = 0 then .pirqa ((o - pirqa 0) / 16) else .pirqd ((o - pirqa 0) / 16)
  else if slnext 0 ≤ o ∧ o < slnext 16 then
    if o % 16 = 0 then .slnext ((o - slnext 0) / 16) else .slctl ((o - slnext 0) / 16)
  else if o = congCfg then .congCfg else if o = mbCfg then .mbCfg
  else if qos 0 0 ≤ o ∧ o < qos 32 0 then
    let n := (o - qos 0 0) / 128
    let c := (o - qos 0 0) % 128 / 16
    if c = 7 then .none else if o % 16 = 0 then .qos n c else .qstat n c
  else if hqos 0 ≤ o ∧ o < hqos 8 then .hqos ((o - hqos 0) / 8)
  else if veown 0 ≤ o ∧ o < veown 8 then .veown ((o - veown 0) / 8)
  else if head 0 ≤ o ∧ o < head 8 then
    if o % 0x100 ≤ 0x20 then .head ((o - head 0) / 0x100) (o % 0x100 / 8) else .none
  else if enc 0 ≤ o ∧ o < enc 8 then
    if o % 0x100 ≤ 0x20 then .enc ((o - enc 0) / 0x100) (o % 0x100 / 8) else .none
  else if o = dtcfg then .dtcfg
  else if dtpeer 0 0 ≤ o ∧ o < dtpeer 8 0 then .dtpeer ((o - dtpeer 0 0) / 16) ((o - dtpeer 0 0) % 16 / 8)
  else if ucie 0 ≤ o ∧ o < ucie 24 then (if o % 16 = 0 then .ucie ((o - ucie 0) / 16) else .none)
  else if portcfg 0 ≤ o ∧ o < portcfg 2 then .portcfg ((o - portcfg 0) / 8)
  else .none

/-- Reset values (R9): those of the field tables; 0 elsewhere. -/
def reset : Kind → Dword
  | .pwrcfg => 1600
  | .peCfg _ => 0x0000400000000000
  | .congCfg => 0x0000000000C08040
  | .mbCfg => 0x0000000804104040
  | .qos _ _ => 0x0000000000408020
  | .hqos _ => BitVec.ofNat 64 (pack [(18, 0), (10, 128), (10, 384)])
  | _ => 0

/-- The bits of a plain register that a write sets (R9): reserved and read-only bits are kept as they are (R5). -/
def mask : Kind → Dword
  | .attaddr => 0xFFFFFFFFFFFFFFFF
  | .pwrcfg => 0x00000000000007FF
  | .ringswap | .paceadj => 0xFFFFFFFFFFFFFFFF
  | .bank .. => 0x003FFFFF003FFFFF
  | .xinva => 0xFFFFFFFFFFFFF000
  | .xinvc => 0x00003FFFFFFF000E
  | .peCfg _ => 0xFFFFF001FFFFFFFF
  | .peHgatp _ => 0xF3FFFFFFFFFFFFFF
  | .peRbase _ => 0xFFFFFFFFFFFFFFFF
  | .peRcnt _ => 0x00000000FFFFFFFF
  | .pirqa _ => 0xFFFFFFFFFFFFFFFC
  | .pirqd _ => 0x00000000FFFFFFFF
  | .slnext _ => 0xFFFFFFFFFFFFFF1F
  | .slctl _ => 0x000000000000000C
  | .congCfg => 0x0000000000FFFFFF
  | .mbCfg => 0x000000FFFFFFFFFF
  | .qos .. => 0xFFFFFFFFFFFFC03F
  | .hqos _ => 0x0000003FFFFC003F
  | .veown _ => 0x000000000000003F
  | .head _ 0 | .head _ 1 | .head _ 2 => 0xFFFFFFFFFFFFFFFF
  | .head _ 3 => 0x00000000000001CF
  | .enc _ 0 => 0xFFFFFFFF000000FF
  | .enc _ 1 | .enc _ 2 | .enc _ 4 => 0xFFFFFFFFFFFFFFFF
  | .dtcfg => 0x000000000001FF0F
  | .dtpeer .. => 0x0001FFFFFFFFFFFF
  | .portcfg _ => 0x0000000000000003
  | _ => 0

/-- Whether a value is one that R6 lets stand: no field at a reserved value, no relation of the table broken. An address that is not
aligned as its table says, and a PITCH of HDGEOM that is no multiple of 256, are taken to break a relation (log 96). -/
def legal (k : Kind) (v : Dword) : Bool :=
  let f := fun lo n => field v.toNat lo n
  match k with
  | .attaddr => decide (f 0 6 = 0)
  | .pwrcfg => decide (400 ≤ f 0 11)
  | .peHgatp _ => f 60 4 == 0 || f 60 4 == 8 || f 60 4 == 9
  | .peRbase _ => decide (f 0 4 = 0)
  | .congCfg => decide (f 0 8 ≤ f 8 8) && decide (f 8 8 ≤ f 16 8)
  | .mbCfg => [0, 8, 16, 24].all fun lo => decide (1 ≤ f lo 8) && decide (f lo 8 ≤ 64)
  | .qos .. => !(f 32 32 != 0 && f 16 16 == 0) && f 14 2 != 3 && decide (f 0 6 ≤ 32)
  | .hqos _ => decide (f 18 10 < f 28 10) && decide (f 28 10 ≤ 512)
  | .head _ 0 => decide (f 0 8 = 0)
  | .head _ 1 => decide (f 32 32 % 256 = 0) && decide (1 ≤ f 16 16 ∧ f 16 16 ≤ 4320) && decide (1 ≤ f 0 16 ∧ f 0 16 ≤ 7680)
  | .head _ 3 => f 6 2 != 3 && (decide (f 0 4 < 4) || decide (8 ≤ f 0 4))
  | .enc _ 0 => decide (f 0 2 < 2) && decide (f 2 2 < 2) && decide (f 4 2 < 3)
  | .enc _ 1 => decide (f 0 12 = 0)
  | .enc _ 2 => (List.range 15).any fun i => f 0 64 == 2 ^ (16 + i)
  | .portcfg _ => f 0 2 != 3
  | _ => true

end Win

/-- Reset value of the register at an offset. -/
def regReset (off : Nat) : Dword := Win.reset (Win.kindOf off)

namespace State

/-- The value a register of the window holds. -/
def reg (s : State) (d off : Nat) : Dword := ((s.die d).win.get off).getD (regReset off)

/-- The device sets a register of the window. -/
def setReg (s : State) (d off : Nat) (v : Dword) : State :=
  s.modDie d fun x => { x with win := x.win.set off (some v) }

/-- A PACEADJ limit aside, a larger PWRCFG is taken as 1,600 (R345). -/
def winFix (k : Win.Kind) (v : Dword) : Dword :=
  match k with
  | .pwrcfg => if 1600 < v.toNat % 2048 then 1600 else v
  | _ => v

/-- A plain write: writable bits take their new values, unless R6 makes the whole write ignored. -/
def plainWrite (s : State) (d off : Nat) (v : Dword) : State :=
  let k := Win.kindOf off
  let m := Win.mask k
  let w := winFix k ((s.reg d off &&& ~~~ m) ||| (v &&& m))
  if m = 0 ∨ !Win.legal k w then s else s.setReg d off w

/-- Lines that a requester holds in a die's slices (R267). -/
def occOf (s : State) (d n c : Nat) : Nat :=
  s.sets.foldl (fun a p => if p.1 / 4096 / 32 = d then a + (p.2.filter fun w => w.pidx == n && w.cls == c).length else a) 0

/-- STATE of a slice (R256). -/
def sliceState (sl : Slice) : Nat := match sl.st with | .idle => 0 | .running => 1 | .switching => 2

/-- IDENT of a die (R340). -/
def identWord (d : Nat) : Dword :=
  BitVec.ofNat 64 (pack [(16, field (Config.ident d Win.ident).toNat 0 16), (1, d), (7, 0), (8, field (Config.ident d Win.ident).toNat 24 8),
    (16, 0x2900), (16, 0xED01)])

/-- What a read of the window answers, apart from clearing (R9, R318). The certificate binds the public identity key of the die to
IDENT (R343). -/
def regRead (s : State) (d off : Nat) : Dword :=
  match Win.kindOf off with
  | .ident => identWord d
  | .cert => Config.certWord (P521.publicKey (Config.identityKey d)) (identWord d) ((off - Win.cert) / 8)
  | .fwstat => BitVec.ofNat 64 (pack [(1, ofBool s.plat.ready), (3, 0), (4, s.plat.stage)])
  | .pace => BitVec.ofNat 64 (s.pace d)
  | .xinvc => s.reg d off ||| BitVec.ofNat 64 (ofBool (s.die d).inval.isSome)
  | .attctl => BitVec.ofNat 64 (ofBool (s.die d).attBusy.isSome)
  | .slctl i =>
    let sl := s.slice d i
    s.reg d off ||| BitVec.ofNat 64 (16 * sliceState sl + ofBool sl.go)
  | .qstat n c => BitVec.ofNat 64 (pack [(32, s.occOf d n c), (32, s.self_.get (8 * (32 * d + n) + c))])
  | .none | .rstctl => 0
  | _ => s.reg d off

/-- Whether system software reads a register as it is: before bring-up is complete, only IDENT, FWSTAT and FWVER (R341). -/
def regOpen (s : State) (off : Nat) : Bool := s.plat.ready || [Win.ident, Win.fwstat, Win.fwver].contains off

/-- A read of the window by system software: what it answers, and what it clears (R9, R318, R341). -/
def readReg (s : State) (d off : Nat) : Dword × State :=
  if 2 ≤ d ∨ !s.regOpen off then (0, s)
  else (s.regRead d off, match Win.kindOf off with
    | .qstat n c => { s with self_ := s.self_.set (8 * (32 * d + n) + c) 0 }
    | .hqos _ => s.setReg d off (BitVec.ofNat 64 (setField (s.reg d off).toNat 48 16 0))
    | .pwrstat => s.setReg d off (BitVec.ofNat 64 ((s.reg d off).toNat % 2 ^ 32))
    | _ => s)

/-- A read of the window of a die answers outside. -/
def answerReg (s : State) (d off : Nat) : State :=
  let (v, s) := s.readReg d off
  { s with out := s.out ++ [.regRead d off v] }

end State

end Sys2Proof.Machine
end

