-- ==== Sys2Proof/Machine/Mem.lean ====
section
/-! DEFINITION. Memory by physical address, the home of a line, logical time, and two-stage translation (R7, R228 to
R240, R254, R376, R391). -/
namespace Sys2Proof.Machine

open Bits

-- bytes

/-- The bytes of n addresses from pa up. Memory that nothing has written reads 0 (R341). -/
def memBytes (m : Tab Byte) (pa n : Nat) : List Byte := m.slice pa n

/-- Bytes written at consecutive addresses. -/
def memPut (m : Tab Byte) (pa : Nat) : List Byte → Tab Byte
  | [] => m
  | b :: r => memPut (m.set pa b) (pa + 1) r

namespace State

def peek (s : State) (pa n : Nat) : Nat := ofBytes (memBytes s.mem pa n)

end State

/-- The canonical form of memory: addresses strictly rising, and no byte listed that equals what an unlisted address
reads as. -/
abbrev Memory.wf (m : Tab Byte) : Bool := m.wf

-- homes (R229)

/-- The part of the physical address space that is memory: the package's own, and the expanders' (R229, R330). -/
def isMemory (pa : Nat) : Bool :=
  decide (pa < 0xC000000000) || (decide (0x10000000000 ≤ pa ∧ pa < 0x20000000000))

/-- The port whose expander an address reaches, as 2 * die + port (R330). -/
def portOf (pa : Nat) : Nat := (pa - 0x10000000000) / 0x4000000000

/-- An expander's memory is there while its port has the root-port role (R328, R330). -/
def State.portOpen (s : State) (pa : Nat) : Bool :=
  decide (pa < 0x10000000000) || (s.die (portOf pa / 2)).roles.get (portOf pa % 2) == 1

/-- The die that homes a physical address; an expander port belongs to its die (R229, R330). -/
def homeDie (pa : Nat) : Nat :=
  if pa < 0x6000000000 then 0 else if pa < 0xC000000000 then 1 else (pa - 0x10000000000) / 0x8000000000 % 2

/-- The system-cache slice that homes a line, within its die. -/
def homeSlice (pa : Nat) : Nat :=
  field pa 7 5 ^^^ field pa 12 5 ^^^ field pa 17 5 ^^^ field pa 22 5

def homeNo (pa : Nat) : Nat := 32 * homeDie pa + homeSlice pa

-- serial time (R239)

/-- a precedes b. -/
def precedes (a b : BitVec 16) : Bool := decide (1 ≤ (b - a).toNat ∧ (b - a).toNat ≤ 2 ^ 15 - 1)

/-- The later of two timestamps. -/
def later (a b : BitVec 16) : BitVec 16 := if precedes a b then b else a

/-- A home timestamp more than 2^14 behind a request's pts reads as pts - 2^14 (R239). -/
def notBehind (pts t : BitVec 16) : BitVec 16 :=
  if precedes t pts && decide (2 ^ 14 < (pts - t).toNat) then pts - BitVec.ofNat 16 (2 ^ 14) else t

namespace State

/-- The timestamps of a line at its home; a line not held is filled with mts (R235). -/
def lineTs (s : State) (pa : Nat) : LineTs :=
  match s.lines.get (pa / 128) with
  | some t => t
  | none => ⟨s.mts.get (homeNo pa), s.mts.get (homeNo pa)⟩

/-- Memory behind an expander port: no slice homes it, and it carries no timestamps (R330). -/
def onExpander (pa : Nat) : Bool := decide (0xC000000000 ≤ pa)

/-- New timestamps of a line. Where its slice does not hold it, they pass into the slice's mts (R235, R268). -/
def putTs (s : State) (pa : Nat) (t : LineTs) : State :=
  if onExpander pa then s
  else match s.lines.get (pa / 128) with
    | some _ => { s with lines := s.lines.set (pa / 128) (some t) }
    | none => { s with mts := s.mts.modify (homeNo pa) fun m => later m t.rts }

/-- The wts that a store would be given (R237, R239). -/
def storeWts (s : State) (pa : Nat) (pts : BitVec 16) : BitVec 16 := later pts (notBehind pts (s.lineTs pa).rts + 1)

/-- A store performed at home: a new wts above every lease, the bytes written (R237). Answers the wts. -/
def homeStore (s : State) (pa : Nat) (bs : List Byte) (pts : BitVec 16) : BitVec 16 × State :=
  let w := if onExpander pa then pts else s.storeWts pa pts
  (w, { s.putTs pa ⟨w, w⟩ with
    mem := memPut s.mem pa bs, latest := if onExpander pa then s.latest else later s.latest w })

/-- PT reaches an agent (R239). -/
def takePt (pt : BitVec 16) (a : LeaseAgent) : LeaseAgent :=
  let p := later a.pts (pt - BitVec.ofNat 16 (2 ^ 12))
  { a with pts := p, copies := a.copies.filter fun c => match c.2 with
      | some c => !(precedes c.rts p && decide (2 ^ 13 < (p - c.rts).toNat))
      | none => true }

/-- Every agent of the package (R235). -/
def agentNos : List Nat :=
  hostAgent :: [0, 1].flatMap fun d =>
    (List.range 128).map (fun i => unitNo ⟨.sc, d, i⟩) ++ (List.range 64).map (fun i => unitNo ⟨.tt, d, i⟩) ++
    (List.range 16).map fun i => unitNo ⟨.rc, d, i⟩

/-- The slices agree a package time and send it to every agent (R235, R239). -/
def sendPt (s : State) (pt : BitVec 16) : State :=
  { s with
    pt := pt
    agents := agentNos.foldl (fun t n => t.modify n (takePt pt)) s.agents
    mts := (List.range 64).foldl (fun t h => t.modify h fun m => later m (pt - BitVec.ofNat 16 (2 ^ 14))) s.mts }

/-- Whether a store has to wait for the next PT (R239). -/
def beyondPt (s : State) (pa : Nat) (w : BitVec 16) : Bool := !onExpander pa && precedes (s.pt + BitVec.ofNat 16 (2 ^ 13)) w

/-- A store of the device's own that would have to wait for the next PT meets it at once (R239; log 83). -/
def reachPt (s : State) (pa : Nat) (w : BitVec 16) : State :=
  if s.beyondPt pa w then s.sendPt (later (later s.pt s.latest) w) else s

/-- A store of the device's own, performed at home (R237); it carries no pts, so its wts is rts + 1. -/
def devStore (s : State) (pa : Nat) (bs : List Byte) : State :=
  let s := s.reachPt pa (s.storeWts pa (s.lineTs pa).rts)
  (s.homeStore pa bs (s.lineTs pa).rts).2

def devStoreN (s : State) (pa n x : Nat) : State := s.devStore pa (toBytes x n)

/-- A read that grants a lease (R236): the line's rts is raised; answers wts and the lease granted. -/
def homeLease (s : State) (pa : Nat) (pts : BitVec 16) (len : Nat) : BitVec 16 × BitVec 16 × State :=
  let t := s.lineTs pa
  let w := notBehind pts t.wts
  let e := pts + BitVec.ofNat 16 len
  let r := later (later (notBehind pts t.rts) w) e
  (w, later w e, s.putTs pa ⟨w, r⟩)

end State

-- translation

/-- What an access needs (R391). -/
inductive Need where
  | read | write | rw | exec
  deriving DecidableEq, Repr, Inhabited

def Need.code : Need → Nat
  | .read => 0 | .write => 1 | .rw => 2 | .exec => 3

def Need.writes : Need → Bool
  | .write | .rw => true
  | _ => false

def Need.reads : Need → Bool
  | .read | .rw => true
  | _ => false

/-- A refused access: the kind of R376, the stage and the level of the entry that refused (R391); or, as its kind, the code of a
cause of another family (R406, R409). -/
structure TFault where
  kind : Nat
  stage : Nat
  level : Nat
  deriving DecidableEq, Repr, Inhabited

/-- A leaf as a walk found it: output address, log2 of the page size, the entry's low byte, PBMT and REPL. -/
structure Leaf where
  pa : Nat
  bits : Nat
  perm : BitVec 8
  pbmt : Nat
  repl : Bool
  level : Nat
  deriving DecidableEq, Repr, Inhabited

/-- A translation: the address, the effective page, whether accesses go home without a lease, replication. -/
structure Xlat where
  pa : Nat
  bits : Nat
  nocache : Bool
  repl : Bool
  perm1 : BitVec 8
  perm2 : BitVec 8
  gpa : Nat
  lvl1 : Nat
  lvl2 : Nat
  deriving DecidableEq, Repr, Inhabited

def invKind (st1 : Bool) : Nat := if st1 then 0 else 3
def stageNo (st1 : Bool) : Nat := if st1 then 1 else 2

/-- Run lengths a leaf level admits (R232). -/
def runsOf (lvl : Nat) : List Nat :=
  match lvl with | 0 => [2, 4, 6, 8] | 1 => [2, 4, 6] | 2 => [2, 4] | _ => []

def pteLeaf (e : Nat) : Bool := bit e 0 && (bit e 1 || bit e 2 || bit e 3)

/-- The run length that the N pattern of a leaf encodes. -/
def runLen (e lvl : Nat) : Option Nat :=
  (runsOf lvl).find? fun k => field e (10 + 9 * lvl) k == 2 ^ (k - 1)

/-- The leaf that an entry gives, or none where it is malformed (R231, R232). -/
def leafOf (st1 : Bool) (e lvl addr : Nat) : Option Leaf :=
  let ppn := field e 10 44
  let n := bit e 63
  let pbmt := field e 61 2
  if pbmt == 3 || field e 54 6 != 0 || (st1 && bit e 60) || (bit e 2 && !bit e 1) || decide (2 < lvl) then none
  else if field ppn 0 (9 * lvl) != 0 then none
  else
    let mk (bits : Nat) : Leaf :=
      ⟨ppn * 4096 / 2 ^ bits * 2 ^ bits + addr % 2 ^ bits, bits, BitVec.ofNat 8 e, pbmt, bit e 60, lvl⟩
    if n then (runLen e lvl).map fun k => mk (12 + 9 * lvl + k) else some (mk (12 + 9 * lvl))

/-- The entry a walk uses at an index, and whether it stands for a run: where entries of a run differ, one of the candidates of
R232. -/
def pickEntry (rd : Nat → Nat) (lvl i : Nat) : Nat × Bool :=
  let groups := (runsOf lvl).filter fun k =>
    (List.range (2 ^ k)).any fun j =>
      let e := rd (i / 2 ^ k * 2 ^ k + j)
      pteLeaf e && bit e 63 && runLen e lvl == some k
  match groups.getLast? with
  | none => (rd i, false)
  | some k => (rd (i / 2 ^ k * 2 ^ k + (i + Config.runPick i k) % 2 ^ k), true)

/-- A radix walk from a level down. `x` maps the address of an entry to where it lies; `wide` adds two bits to the
root's index (R230). -/
def walk (s : State) (x : Nat → Except TFault Nat) (st1 : Bool) (addr : Nat) (wide : Bool) :
    Nat → Nat → Except TFault Leaf
  | lvl, base =>
    let i := field addr (12 + 9 * lvl) (if wide then 11 else 9)
    match x (base + 8 * i) with
    | .error e => .error e
    | .ok p =>
      let (e, run) := pickEntry (fun j => s.peek (p + 8 * j - 8 * i) 8) lvl i
      let inv : Except TFault Leaf := .error ⟨invKind st1, stageNo st1, lvl⟩
      if !bit e 0 then inv
      else if pteLeaf e then
        match leafOf st1 e lvl addr with
        | some l => .ok l
        | none => inv
      else if run || bit e 2 then inv
      else match lvl with
        | 0 => inv
        | l + 1 => walk s x st1 addr false l (field e 10 44 * 4096)

/-- The tables that a walk meets below its root, as levels and bases. -/
def walkTables (s : State) (x : Nat → Except TFault Nat) (addr : Nat) (wide : Bool) : Nat → Nat → List (Nat × Nat)
  | 0, _ => []
  | l + 1, base =>
    let i := field addr (12 + 9 * (l + 1)) (if wide then 11 else 9)
    match x (base + 8 * i) with
    | .error _ => []
    | .ok p =>
      let (e, run) := pickEntry (fun j => s.peek (p + 8 * j - 8 * i) 8) (l + 1) i
      if !bit e 0 || pteLeaf e || run || bit e 2 then []
      else (l, field e 10 44 * 4096) :: walkTables s x addr false l (field e 10 44 * 4096)

/-- Where a walk starts: at the lowest table that the walk cache leads to, else at the root (R233). -/
def walkStart (s : State) (d vmid asid : Nat) (st1 : Bool) (addr lvl base : Nat) (wide : Bool) : Nat × Nat × Bool :=
  match (List.range lvl).findSome? fun l => (s.die d).walks.find? fun e =>
      !e.bad && e.vmid == vmid && e.st1 == st1 && (!st1 || e.asid == asid) && e.lvl == l && e.pfx == addr / 2 ^ (21 + 9 * l) with
  | some e => (e.lvl, e.base, false)
  | none => (lvl, base, wide)

/-- Second-stage check of a leaf (R231): U, the permission, A and D. -/
def perm2Ok (need : Need) (p : BitVec 8) : Bool :=
  p.getLsbD 4 && p.getLsbD 6 && (!need.reads || p.getLsbD 1) && (!need.writes || (p.getLsbD 2 && p.getLsbD 7)) &&
  (need != .exec || p.getLsbD 3)

/-- First-stage permission and U (R231): a trap handler ignores U. -/
def perm1Ok (need : Need) (user : Bool) (p : BitVec 8) : Bool :=
  (!user || p.getLsbD 4) && (!need.reads || p.getLsbD 1) && (!need.writes || p.getLsbD 2) &&
  (need != .exec || p.getLsbD 3)

def ad1Ok (need : Need) (p : BitVec 8) : Bool := p.getLsbD 6 && (!need.writes || p.getLsbD 7)

def allPerm : BitVec 8 := 0xFF

/-- Whether a die has fenced the other die of its package (R413). -/
def State.lostPeer (s : State) (d : Nat) : Bool :=
  let pk := 2 * field (s.reg d Win.dtcfg).toNat 0 3
  (s.die d).fenced.contains (.die (pk + (1 - d)))

/-- Whether a physical address lies on a die that a unit's die has fenced (R409, R413). -/
def State.lostPa (s : State) (d pa : Nat) : Bool := homeDie pa != d && s.lostPeer d

/-- A table entry that a walk reads lies where the die can reach it (R409). -/
def entryPa (s : State) (d pa : Nat) : Except TFault Nat := if s.lostPa d pa then .error ⟨Cause.dielost, 0, 0⟩ else .ok pa

/-- VMID of a partition entry (R255). -/
def vmidOf (s : State) (d pidx : Nat) : Nat := field (s.reg d (Win.peHgatp pidx)).toNat 44 14

/-- The second stage of a partition entry (R230, R255). -/
def stage2 (s : State) (d pidx : Nat) (need : Need) (gpa : Nat) : Except TFault Leaf :=
  let hg := (s.reg d (Win.peHgatp pidx)).toNat
  let go (lvl : Nat) : Except TFault Leaf :=
    if 2 ^ (14 + 9 * lvl + 9) ≤ gpa then .error ⟨3, 2, lvl⟩
    else
      let (lv, base, wide) := walkStart s d (vmidOf s d pidx) 0 false gpa lvl (field hg 0 44 * 4096) true
      match walk s (entryPa s d) false gpa wide lv base with
      | .error e => .error e
      | .ok l => if perm2Ok need l.perm then .ok l else .error ⟨4, 2, l.level⟩
  match field hg 60 4 with
  | 8 => go 3
  | 9 => go 4
  | _ => .ok ⟨gpa, 64, allPerm, 0, false, 0⟩

/-- Address of n bits is the sign extension of its low bits (R254). -/
def canonical (n va : Nat) : Bool := va == wrap 64 (signed n va)

/-- The walk of both stages (R230 to R232): the cause kind that ranks first is met first. -/
def walkBoth (s : State) (d : Nat) (c : CtxDesc) (pidx : Nat) (user : Bool) (need : Need) (va : Nat) :
    Except TFault Xlat :=
  let finish (l1 : Leaf) : Except TFault Xlat :=
    match stage2 s d pidx need l1.pa with
    | .error e => .error e
    | .ok l2 =>
      .ok ⟨l2.pa, min l1.bits l2.bits, l1.pbmt != 0 || l2.pbmt != 0, l2.repl, l1.perm, l2.perm, l1.pa, l1.level, l2.level⟩
  let go (lvl : Nat) : Except TFault Xlat :=
    if !canonical (12 + 9 * (lvl + 1)) va then .error ⟨0, 1, lvl⟩
    else
      let (lv, base, _) := walkStart s d (vmidOf s d pidx) c.asid true va lvl (c.root * 4096) false
      match walk s (fun a => (stage2 s d pidx .read a).bind fun l => entryPa s d l.pa) true va false lv base with
      | .error e => .error e
      | .ok l1 =>
        if !perm1Ok need user l1.perm then .error ⟨1, 1, l1.level⟩
        else if !ad1Ok need l1.perm then .error ⟨2, 1, l1.level⟩
        else finish l1
  match c.satpMode with
  | 8 => go 3
  | 9 => go 4
  | _ => finish ⟨va, 64, allPerm, 0, false, 0⟩

/-- The tables that a walk of each stage goes through, below its root (R230, R233). -/
def walked2 (s : State) (d pidx gpa : Nat) : List (Nat × Nat) :=
  let hg := (s.reg d (Win.peHgatp pidx)).toNat
  match field hg 60 4 with
  | 8 => walkTables s .ok gpa true 3 (field hg 0 44 * 4096)
  | 9 => walkTables s .ok gpa true 4 (field hg 0 44 * 4096)
  | _ => []

def walked1 (s : State) (d : Nat) (c : CtxDesc) (pidx va : Nat) : List (Nat × Nat) :=
  let x := fun (a : Nat) => (stage2 s d pidx .read a).map (·.pa)
  match c.satpMode with
  | 8 => walkTables s x va false 3 (c.root * 4096)
  | 9 => walkTables s x va false 4 (c.root * 4096)
  | _ => []

/-- The translation buffers that a unit's accesses look in: its own, and its cluster's (R233). -/
def tlbsOf (u : UnitId) : List Nat := unitNo u :: (if u.kind = .rc then [] else [10000 + clusterOf u])

/-- A translation of an address that a unit's buffers hold (R233). -/
def tlbHit (s : State) (u : UnitId) (c : CtxDesc) (pidx : Nat) (va : Nat) : Option Tlb :=
  let vmid := vmidOf s u.die pidx
  ((tlbsOf u).flatMap fun k => (s.die u.die).tlb.get k).find? fun t =>
    !t.bad && t.vmid == vmid && (t.global || t.asid == c.asid) && t.va / 2 ^ t.bits == va / 2 ^ t.bits

/-- What a cached translation gives an access, its permissions checked (R231). -/
def tlbUse (user : Bool) (need : Need) (va : Nat) (t : Tlb) : Except TFault Xlat :=
  if !perm1Ok need user t.perm1 then .error ⟨1, 1, t.lvl1⟩
  else if !ad1Ok need t.perm1 then .error ⟨2, 1, t.lvl1⟩
  else if !perm2Ok need t.perm2 then .error ⟨4, 2, t.lvl2⟩
  else .ok ⟨t.pa / 2 ^ t.bits * 2 ^ t.bits + va % 2 ^ t.bits, t.bits, t.nocache, t.repl, t.perm1, t.perm2,
    t.gpa / 2 ^ t.bits * 2 ^ t.bits + va % 2 ^ t.bits, t.lvl1, t.lvl2⟩

/-- The address of a translation must be memory, or the access is out of its space (R231, R376). -/
def inSpace (s : State) (r : Except TFault Xlat) : Except TFault Xlat :=
  match r with
  | .error e => .error e
  | .ok x => if isMemory x.pa && s.portOpen x.pa then .ok x else .error ⟨5, 0, 7⟩

/-- Translation of an access that a die makes for itself: a walk. -/
def translate (s : State) (d : Nat) (c : CtxDesc) (pidx : Nat) (user : Bool) (need : Need) (va : Nat) : Except TFault Xlat :=
  inSpace s (walkBoth s d c pidx user need va)

/-- Cause and INFO of a refused access (R376, R391). -/
def pathCode : APath → Nat
  | .lsu => 0 | .mtx => 1 | .vec => 2 | .cpy => 3 | .trv => 4 | .net => 5 | .fetch => 6 | .sys => 7

def tCause (p : APath) (f : TFault) : Nat := if 5 < f.kind then f.kind else Cause.transl f.kind (pathCode p)

def tInfo (f : TFault) (need : Need) (nlanes : Nat) : Dword :=
  if 5 < f.kind then 0 else BitVec.ofNat 64 (pack [(3, f.level), (2, f.stage), (2, need.code), (1, 0), (8, nlanes)])

/-- Acquire and release marks of an access (R165). -/
def acquires (o : MemOrd) : Bool := o == .acquire || o == .acqRel
def releases (o : MemOrd) : Bool := o == .release || o == .acqRel

namespace State

/-- Translation of an access of a unit under its context; a unit without a context reaches nothing. -/
def xlate (s : State) (u : UnitId) (user : Bool) (need : Need) (va : Nat) : Except TFault Xlat :=
  let sl := s.unitSlice u
  match sl.ctx with
  | some c => inSpace s (match tlbHit s u c sl.pidx va with
    | some t => tlbUse user need va t
    | none => walkBoth s u.die c sl.pidx user need va)
  | none => .error ⟨0, 1, 7⟩

/-- The physical address of a byte of one of a context's structures, as the device itself reaches it: translated under
the context's tables without the first-stage U (R254); where no mapping gives it, a place that is left open. -/
def ctxPa (s : State) (ctx : Nat) (need : Need) (va : Nat) : Nat :=
  let c := s.ctxRt ctx
  match c.desc with
  | some d => match translate s c.die d c.pidx false need va with
    | .ok x => x.pa
    | .error _ => Config.freePa ctx va
  | none => Config.freePa ctx va

/-- n bytes of a context's structure, as a number. -/
def ctxRead (s : State) (ctx va n : Nat) : Nat := s.peek (s.ctxPa ctx .read va) n

/-- The home slice, or the replica slice of its own package, has performed an access, and its agent's program time has followed
where a later access may rest on it (R237, R246). Program order at a scope waits for no more than this. -/
def settled (e : MemOp) (sc : Scope) : Bool :=
  match e.kind with
  | .load | .scrLoad => e.stage == .performed && !acquires e.ord
  | _ => decide (sc.code < 5) && e.near

/-- A store of the device to a context's structure (R237); the structure is taken to lie outside replicated pages (log 85). -/
def ctxStore (s : State) (ctx va n x : Nat) : State := s.devStoreN (s.ctxPa ctx .write va) n x

/-- A word of instruction memory: the word, or the refusal of its fetch (R231, R376). -/
def fetchWord (s : State) (u : UnitId) (user : Bool) (va : Nat) : Except TFault Dword :=
  match s.xlate u user .exec va with
  | .error e => .error e
  | .ok x => if s.lostPa u.die x.pa then .error ⟨Cause.dielost, 0, 0⟩ else .ok (BitVec.ofNat 64 (s.peek x.pa 8))

end State

end Sys2Proof.Machine
end

