-- ==== Sys2Proof/Machine/HypTable.lean ====
section
/-! DEFINITION. The hypothesis table, its reference counts, the versions, and what a lane sees of a resolve (R180 to
R189, R385). -/
namespace Sys2Proof.Machine

open Bits

/-- An entry of the hypothesis table (R180). -/
structure HEnt where
  st : Nat
  depth : Nat
  parent : Nat
  vcnt : Nat
  ref : Nat
  deriving DecidableEq, Repr, Inhabited

def HEnt.free : Nat := 0
def HEnt.opened : Nat := 1
def HEnt.confirmed : Nat := 2
def HEnt.refuted : Nat := 3

def HEnt.ofNat (x : Nat) : HEnt := ⟨field x 0 3, field x 8 8, field x 16 8, field x 64 32, field x 96 20⟩

/-- An entry's fields in their places; the reserved bits of the word stay (R180). -/
def HEnt.into (x : Nat) (e : HEnt) : Nat :=
  setField (setField (setField (setField (setField x 0 3 e.st) 8 8 e.depth) 16 8 e.parent) 64 32 e.vcnt) 96 20 e.ref

namespace State

def hypVa (s : State) (ctx h : Nat) : Nat := (s.ctxDesc ctx).hybase.toNat + 16 * h

def hypAt (s : State) (ctx h : Nat) : HEnt := HEnt.ofNat (s.ctxRead ctx (s.hypVa ctx h) 16)

def setHyp (s : State) (ctx h : Nat) (e : HEnt) : State :=
  s.ctxStore ctx (s.hypVa ctx h) 16 (e.into (s.ctxRead ctx (s.hypVa ctx h) 16))

/-- Store tagged h of a context in flight (R180): a store issued with that tag and not yet performed at home. -/
def taggedInFlight (s : State) (ctx h : Nat) : Bool :=
  s.ops.any (fun o => o.ctx == ctx && o.tag.toNat == h && o.kind == .store) ||
  s.flits.any fun f => f.ctx == ctx && f.tag.toNat == h

/-- A CONFIRMED or REFUTED entry becomes FREE when no lane names it and no store tagged with it is in flight (R180). -/
def hypFree (s : State) (ctx h : Nat) : State :=
  let e := s.hypAt ctx h
  if h != 0 && (e.st == HEnt.confirmed || e.st == HEnt.refuted) && e.ref == 0 && !s.taggedInFlight ctx h then
    s.setHyp ctx h { e with st := HEnt.free }
  else s

/-- REF of an entry changed by one; that of entry 0 is not kept (R182). -/
def refDec (s : State) (ctx h : Nat) : State :=
  if h = 0 then s
  else
    let e := s.hypAt ctx h
    (s.setHyp ctx h { e with ref := e.ref - 1 }).hypFree ctx h

def refInc (s : State) (ctx h : Nat) : State :=
  if h = 0 then s
  else
    let e := s.hypAt ctx h
    s.setHyp ctx h { e with ref := e.ref + 1 }

/-- The identifiers from h up the PARENT chain while the entries are OPEN, h first (R182). -/
def hypChain (s : State) (ctx : Nat) : Nat → Nat → List Nat
  | 0, _ => []
  | n + 1, h => if h = 0 then [0] else h :: hypChain s ctx n (s.hypAt ctx h).parent

def chainOf (s : State) (ctx h : Nat) : List Nat := s.hypChain ctx 257 h

/-- h itself and every entry in use below it. -/
def hypSubtree (s : State) (ctx h : Nat) : List Nat :=
  (List.range 256).filter fun e => (s.hypAt ctx e).st != HEnt.free && (s.chainOf ctx e).contains h

/-- A unit that has not yet received a resolve's notice (R185) still sees the entries the resolve changes as OPEN. -/
def unheard (s : State) (u : UnitId) (ctx h : Nat) : Bool :=
  s.resolves.any fun r => r.ctx == ctx && r.stage == .accepted && r.toNotify.contains u &&
    (if r.refute then (s.chainOf ctx h).contains r.h.toNat else h == r.h.toNat)

/-- The state of an entry as a unit knows it. -/
def hypSeen (s : State) (u : UnitId) (ctx h : Nat) : Nat :=
  let e := s.hypAt ctx h
  if (e.st == HEnt.confirmed || e.st == HEnt.refuted) && s.unheard u ctx h then HEnt.opened else e.st

/-- The first entry up the chain that is not REFUTED (R188). -/
def liveAncestor (s : State) (u : UnitId) (ctx : Nat) (h : Nat) : Nat :=
  ((s.chainOf ctx h).find? fun e => e == 0 || s.hypSeen u ctx e != HEnt.refuted).getD 0

/-- What a confirmed identifier is rewritten to (R185). -/
def rewriteHy (s : State) (u : UnitId) (ctx : Nat) (h : Nat) : Nat :=
  ((s.chainOf ctx h).find? fun e => e == 0 || s.hypSeen u ctx e != HEnt.confirmed).getD 0

/-- A lane's HY takes a new identifier, and the reference counts with it (R182). -/
def setHy (s : State) (u : UnitId) (slot l h : Nat) : State :=
  match s.warp u slot with
  | none => s
  | some w =>
    let s := (s.refDec w.ctx (w.hyOf l).toNat).refInc w.ctx h
    s.modWarp u slot fun w => { w with hy := w.hy.set l (BitVec.ofNat 8 h) }

/-- A lane under a confirmed hypothesis takes the one it merged into (R185). -/
def rewriteLane (s : State) (u : UnitId) (slot l : Nat) : State :=
  match s.warp u slot with
  | none => s
  | some w =>
    let h := (w.hyOf l).toNat
    if h != 0 && s.hypSeen u w.ctx h == HEnt.confirmed then s.setHy u slot l (s.rewriteHy u w.ctx h) else s

/-- A lane's HY names a refuted entry (R188). -/
def orphan (s : State) (u : UnitId) (slot l : Nat) : Bool :=
  match s.warp u slot with
  | none => false
  | some w => (w.hyOf l) != 0 && s.hypSeen u w.ctx (w.hyOf l).toNat == HEnt.refuted

/-- A table entry that the spec reserves (R374, HTABLE). -/
def hypBad (s : State) (ctx h : Nat) : Bool := decide (4 ≤ (s.hypAt ctx h).st)

-- versions (R183, R184)

def verAt (s : State) (ctx : Nat) (tag : BitVec 8) (pa : Nat) : Option Byte :=
  (s.vers.find? fun v => v.ctx == ctx && v.tag == tag && v.pa == pa).map (·.val)

/-- Distinct words held under a tag. -/
def verWords (s : State) (ctx : Nat) (tag : BitVec 8) : Nat :=
  (((s.vers.filter fun v => v.ctx == ctx && v.tag == tag).map fun v => v.pa / 4).eraseDups).length

/-- Lines of the version store of a home slice in use: one for each line and tag (R187). -/
def verLines (s : State) (home : Nat) : Nat :=
  (((s.vers.filter fun v => homeNo v.pa == home).map fun v => (v.pa / 128, v.ctx, v.tag.toNat)).eraseDups).length

/-- Lines a version store holds (R187). -/
def verCap : Nat := 8192

/-- Whether a tagged store finds room at its home: its line is held under the tag, or a line is free (R384). -/
def verRoom (s : State) (ctx : Nat) (tag : BitVec 8) (pa : Nat) : Bool :=
  s.vers.any (fun v => v.ctx == ctx && v.tag == tag && v.pa / 128 == pa / 128) || decide (s.verLines (homeNo pa) < verCap)

/-- VCNT of an entry brought to what is held (R180). -/
def syncVcnt (s : State) (ctx h : Nat) : State :=
  if h = 0 then s
  else s.setHyp ctx h { s.hypAt ctx h with vcnt := min (s.verWords ctx (BitVec.ofNat 8 h)) (2 ^ 32 - 1) }

/-- Bytes held under a tag in place of those it held there (R183). -/
def putVers (s : State) (ctx : Nat) (tag : BitVec 8) (pa : Nat) : List Byte → State
  | [] => s
  | b :: r =>
    let s := { s with
      vers := (s.vers.filter fun v => !(v.ctx == ctx && v.tag == tag && v.pa == pa)) ++ [⟨ctx, tag, pa, b⟩] }
    putVers s ctx tag (pa + 1) r

/-- The byte a load under h sees: the version of the deepest of h and its ancestors that holds one, else memory
(R184). -/
def seenByte (s : State) (ctx : Nat) (h : BitVec 8) (pa : Nat) : Byte :=
  if h = 0 then s.mem.get pa
  else ((s.chainOf ctx h.toNat).findSome? fun e =>
    if e = 0 then none else s.verAt ctx (BitVec.ofNat 8 e) pa).getD (s.mem.get pa)

def seenBytes (s : State) (ctx : Nat) (h : BitVec 8) (pa : Nat) : Nat → List Byte
  | 0 => []
  | n + 1 => s.seenByte ctx h pa :: seenBytes s ctx h (pa + 1) n

end State

end Sys2Proof.Machine
end

