-- ==== Sys2Proof/Machine/Report.lean ====
section
/-! DEFINITION. The host fault queue (R387 to R389), interrupt writes (R331), resumability of the causes (R369, R372 to
R376), fence-table slots (R27 to R29, R399), and killing a context (R370). -/
namespace Sys2Proof.Machine

open Bits


/-- RES of a cause, as a code (R369, R372 to R376, R395, R402, R406, R409, R410, R437). -/
def resOf (c : Nat) : BitVec 2 :=
  if c = Cause.regrange ∨ c = Cause.sbfix ∨ c = Cause.sbvar ∨ c = Cause.sbwrite ∨ c = Cause.wdog ∨ c = Cause.colldead ∨
     c = Cause.gangtime ∨ c = Cause.ganggone ∨ c = Cause.hpark ∨ c = Cause.dbghalt ∨ c = Cause.hfull ∨
     c = Cause.vsfull ∨ c = Cause.late ∨ c = Cause.collmis ∨ c = Cause.colltime ∨ c = Cause.poolfull then 1
  else if c = Cause.hfault ∨ c = Cause.deadline ∨ c = Cause.orphanhov ∨ c = Cause.rstkmax ∨ c = Cause.ctxkill ∨
     c = Cause.trappcx ∨ c = Cause.mrsv ∨ c = Cause.mrange ∨ c = Cause.mtarget ∨ c = Cause.mstack ∨ c = Cause.mfetch ∨
     c = Cause.lazynoq ∨ c = Cause.buildq ∨ c = Cause.spawnrec then 0
  else if 0x60 ≤ c ∧ c < 0x88 then 1
  else if 0x90 ≤ c ∧ c < 0xA8 then (match c % 4 with | 0 => 1 | 1 => 2 | _ => 0)
  else if c = Cause.regecc ∨ c = Cause.sramecc ∨ c = Cause.tileecc ∨ c = Cause.sliceecc ∨ c = Cause.dramecc then 1
  else if c = Cause.csecc ∨ c = Cause.switchfail then 0
  else 2

/-- WARP's layout (R20). QUAD of a shader core's trap slot, which is in no quadrant, reads 0 (log 97). -/
def warpWord (u : UnitId) (slot widx : Nat) : Word :=
  BitVec.ofNat 32 (pack [(5, widx), (11, 0), (8, slot), (2, if u.kind = .sc ∧ slot ≠ trapSlot then slot / 16 else 0)])

namespace State

/-- The identity of a warp (R20). -/
def warpIdent (s : State) (u : UnitId) (slot : Nat) : Word :=
  warpWord u slot ((s.warp u slot).getD default).widx

/-- The partition entry a context is bound under. -/
def ctxPart (s : State) (ctx : Nat) : Nat := (s.ctxRt ctx).pidx

/-- The interrupt write of a partition entry on a die (R331): nothing with PIRQA 0, and nothing to a host complex that the die has
fenced (R409; log 104). It leaves the device; an address that the device's own memory has is stored to as well. -/
def interrupt (s : State) (d n : Nat) : State :=
  let a := s.reg d (Win.pirqa n)
  let gone : Bool := match Config.imsicOf (a.toNat / 4 * 4) with
    | some k => (s.die d).fenced.contains (.host k)
    | none => false
  if (a == 0 || gone) = true then s
  else
    let at_ := a.toNat / 4 * 4
    let x := (s.reg d (Win.pirqd n)).toNat % 2 ^ 32
    let s := { s with out := s.out ++ [.irq d at_ x] }
    if isMemory at_ && s.portOpen at_ then s.devStoreN at_ 4 x else s

-- host fault queue

/-- The fields of a queue header (R387). -/
structure FqHdr where
  base : Nat
  widx : Nat
  ridx : Nat
  log2n : Nat
  lost : Nat
  deriving DecidableEq, Repr, Inhabited

def fqVa (s : State) (ctx : Nat) : Nat := (s.ctxDesc ctx).hybase.toNat + 0x1000

def fqHdr (s : State) (ctx : Nat) : FqHdr :=
  let x := s.ctxRead ctx (s.fqVa ctx) 32
  ⟨field x 0 64, field x 64 64, field x 128 64, field x 192 4, field x 224 32⟩

/-- The interrupt of a doorbell (R389), when entries wait. -/
def fqInterrupt (s : State) (ctx : Nat) : State :=
  let h := s.fqHdr ctx
  if h.widx = h.ridx then s else s.interrupt (homeDie (s.ctxPa ctx .read (s.fqVa ctx))) (s.ctxPart ctx)

/-- What a report carries (R388). -/
structure FqEntry where
  cause : Nat
  res : BitVec 2
  unit : Option UnitId
  eng : Nat
  warp : Word
  lanes : Lanes
  addr : Dword
  info : Dword
  pc : Dword
  tick : Nat
  deriving DecidableEq, Repr, Inhabited

/-- The eight dwords of an entry (R388). -/
def fqDwords (e : FqEntry) (seq : Nat) : List Nat :=
  let u := e.unit.getD ⟨.sc, 0, 0⟩
  [seq,
   pack [(8, e.cause), (2, e.res.toNat), (22, 0), (8, u.idx), (2, kindCode u.kind), (1, u.die), (3, e.eng)],
   pack [(32, e.warp.toNat), (32, e.lanes.toNat)],
   e.addr.toNat, e.info.toNat, e.pc.toNat, e.tick, 0]

/-- The device places an entry: it claims an index while the ring has room and otherwise counts LOST; dwords 1 to 7 are
written before SEQ publishes them, and the store of BELL rings (R389). The fault unit then scans the ring. -/
def report (s : State) (ctx : Nat) (e : FqEntry) : State :=
  let h := s.fqHdr ctx
  let hd := s.fqVa ctx
  if h.widx - h.ridx < 2 ^ h.log2n then
    let s := (s.ctxStore ctx (hd + 8) 8 (h.widx + 1)).fqInterrupt ctx
    let at_ := h.base + 64 * (h.widx % 2 ^ h.log2n)
    let ds := fqDwords e (h.widx + 1)
    let s := ((List.range 7).foldl (fun s i => s.ctxStore ctx (at_ + 8 * (i + 1)) 8 (ds.getD (i + 1) 0)) s)
    let s := s.ctxStore ctx at_ 8 (h.widx + 1)
    let s := (s.ctxStore ctx (hd + 32) 8 0).fqInterrupt ctx
    { s with agenda := .faultScan ctx :: s.agenda }
  else
    let s := (s.ctxStore ctx (hd + 28) 4 (min (h.lost + 1) (2 ^ 32 - 1))).fqInterrupt ctx
    { s with agenda := .faultScan ctx :: s.agenda }

-- fence table (R27, R28, R399)

/-- A fence-table slot (R399). -/
structure FSlot where
  gen : Nat
  st : Nat
  status : Nat
  retired : Bool
  rchunks : Nat
  deriving DecidableEq, Repr, Inhabited

def FSlot.ofNat (x : Nat) : FSlot := ⟨field x 0 12, field x 12 2, field x 32 8, bit x 64, field x 96 32⟩

def FSlot.toNat (f : FSlot) : Nat :=
  pack [(12, f.gen), (2, f.st), (18, 0), (8, f.status), (24, 0), (1, ofBool f.retired), (31, 0), (32, f.rchunks)]

def fslotVa (s : State) (ctx k : Nat) : Nat := (s.ctxDesc ctx).ftbase.toNat + 16 * k
def fslot (s : State) (ctx k : Nat) : FSlot := FSlot.ofNat (s.ctxRead ctx (s.fslotVa ctx k) 16)
def setFslot (s : State) (ctx k : Nat) (f : FSlot) : State := s.ctxStore ctx (s.fslotVa ctx k) 16 f.toNat

/-- The device's slot that an allocation takes, with STATE free: the lowest-numbered one (log 98). The top FTHOST slots belong to
system software (R29). -/
def freeFslot (s : State) (ctx : Nat) : Option Nat :=
  let d := s.ctxDesc ctx
  (List.range (d.ftsize - d.fthost)).find? fun k => (s.fslot ctx k).st == 0

def handleSlot (h : Word) : Nat := h.toNat / 2 ^ 12
def handleGen (h : Word) : Nat := h.toNat % 2 ^ 12

/-- The generation after g: from 4,095 back to 1 (R28). -/
def nextGen (g : Nat) : Nat := if g ≥ 4095 then 1 else g + 1
def prevGen (g : Nat) : Nat := if g ≤ 1 then 4095 else g - 1

/-- Allocation of a slot: GEN advances, RETIRED and RCHUNKS clear (R28, R399). A copy that carries the slot's old
generation with chunks left is retired (R400); the commands are marked where they stand. -/
def allocHandle (s : State) (ctx k : Nat) : Word × State :=
  let f := s.fslot ctx k
  let g := nextGen f.gen
  (BitVec.ofNat 32 (k * 2 ^ 12 + g), s.setFslot ctx k ⟨g, 1, 0, false, 0⟩)

/-- Whether a handle names live or complete work of its slot (R28, R401). -/
def handleOk (s : State) (ctx : Nat) (h : Word) : Bool :=
  decide (handleSlot h < (s.ctxDesc ctx).ftsize) && handleGen h != 0 &&
  (s.fslot ctx (handleSlot h)).gen == handleGen h

/-- A handle completes with a status (R156); a slot that is not live with that generation is left (R399). -/
def completeHandle (s : State) (ctx : Nat) (h : Word) (status : Nat) : State :=
  if h = 0 then s
  else
    let f := s.fslot ctx (handleSlot h)
    if s.handleOk ctx h && f.st == 1 then s.setFslot ctx (handleSlot h) { f with st := 2, status := status } else s

-- kill (R370)

/-- A context is killed: its slices stop without saving and end idle, its launches and grids never complete, and the
cause goes to its fault queue. -/
def killContext (s : State) (ctx : Nat) (e : FqEntry) : State :=
  if (s.ctxRt ctx).killed.isSome then s
  else
    let s := s.report ctx e
    let s := s.modCtxRt ctx fun c => { c with killed := some (BitVec.ofNat 8 e.cause) }
    let s := (s.ctxSlices ctx).foldl (fun s n =>
      s.modSlice (n / 16) (n % 16) fun sl =>
        if sl.st = .switching then { sl with doSave := false }
        else { sl with st := .switching, go := false, doSave := false, doRestore := false, goAt := s.pace (n / 16) }) s
    let dropL (s : State) (d : Nat) : State :=
      s.modDie d fun x => { x with launches := x.launches.filter fun l => l.ctx != ctx }
    { dropL (dropL s 0) 1 with grids := s.grids.filter fun g => g.ctx != ctx }

end State

end Sys2Proof.Machine
end

