-- ==== Sys2Proof/Machine/Flow.lean ====
section
/-! DEFINITION. Control flow inside one warp: arrivals at joins, splits, back edges and loop ends, lanes that exit, and
the results of collectives (R31 to R36, R93, R94, R123 to R128, R140 to R145). -/
namespace Sys2Proof.Machine

open Bits

-- collectives (R93, R94)

/-- Op of a reduction (R88, R89, R127). -/
def redOp (op : RedOp) (a b : Word) : Word :=
  let x := a.toNat
  let y := b.toNat
  match op with
  | .add => a + b
  | .and => a &&& b
  | .or => a ||| b
  | .xor => a ^^^ b
  | .min => if a.toInt ≤ b.toInt then a else b
  | .max => if b.toInt ≤ a.toInt then a else b
  | .minu => if x ≤ y then a else b
  | .maxu => if y ≤ x then a else b
  | .fadd => BitVec.ofNat 32 (Num.addE Num.f32 x y)
  | .fmin => BitVec.ofNat 32 (Num.minE Num.f32 x y)
  | .fmax => BitVec.ofNat 32 (Num.maxE Num.f32 x y)
  | .hxadd => BitVec.ofNat 32 (Num.addE Num.f16 (field x 0 16) (field y 0 16) +
      2 ^ 16 * Num.addE Num.f16 (field x 16 16) (field y 16 16))

/-- Identity of a reduction (R93). -/
def redId (op : RedOp) : Word :=
  match op with
  | .add | .or | .xor => 0
  | .and | .minu => 0xFFFFFFFF
  | .maxu => 0
  | .min => 0x7FFFFFFF
  | .max => 0x80000000
  | .fadd => 0x80000000
  | .fmin => 0x7F800000
  | .fmax => 0xFF800000
  | .hxadd => 0x80008000

/-- The tree of REDUX (R93): neighbours at distance 1 are combined, then at 2, and so on; by rounds. -/
def redPairs (f : Word → Word → Word) : List Word → List Word
  | a :: b :: r => f a b :: redPairs f r
  | r => r

def redTree (f : Word → Word → Word) : Nat → List Word → List Word
  | 0, xs => xs
  | n + 1, xs => redTree f n (redPairs f xs)

/-- One round of SCAN at distance d (R94). -/
def scanRound (f : Word → Word → Word) (d : Nat) (xs : List Word) : List Word :=
  xs.zipIdx.map fun p => if p.2 < d then p.1 else f (xs.getD (p.2 - d) 0) p.1

/-- The rounds of SCAN at distances 1, 2, 4, 8, 16 below s. -/
def scanAll (f : Word → Word → Word) (xs : List Word) : List Word :=
  [1, 2, 4, 8, 16].foldl (fun ys d => if d < xs.length then scanRound f d ys else ys) xs

namespace CollInst

/-- The value a contributing lane brought. -/
def val (c : CollInst) (l : Nat) : Dword := ((c.vals.find? fun p => p.1 == l).map (·.2)).getD 0

def contributors (c : CollInst) : List Nat := lanes c.contrib

/-- The group's values in lane order, identities where a lane does not contribute (R93). -/
def xs (c : CollInst) (op : RedOp) : List Word :=
  (List.range c.size).map fun i =>
    if c.contrib.getLsbD (c.base + i) then (c.val (c.base + i)).setWidth 32 else redId op

/-- The result registers a group writes (R126 to R128): destination register, v registers by the number `ph` gives. -/
def results (c : CollInst) (ph : Nat → Nat) : List RegVal :=
  let on := c.contributors
  match c.instr with
  | .vote _ m d _ _ =>
    let vs := on.map fun l => (c.val l).getLsbD 0
    let b := match m with
      | .all => vs.all id
      | .any => vs.any id
      | _ => vs.all (fun x => x) || vs.all (fun x => !x)
    let bal := laneSet (on.filter fun l => (c.val l).getLsbD 0)
    on.map fun l => if m = .ballot then ⟨.v, ph d.toNat, l, bal.setWidth 64⟩
      else ⟨.p, d.toNat, l, BitVec.ofNat 64 (ofBool b)⟩
  | .matchV _ d _ _ _ =>
    on.map fun l => ⟨.v, ph d.toNat, l, (laneSet (on.filter fun j => c.val j == c.val l)).setWidth 64⟩
  | .redux _ op d _ _ =>
    let r := ((redTree (redOp op) 5 (c.xs op)).headD 0).setWidth 64
    on.map fun l => ⟨.v, ph d.toNat, l, r⟩
  | .scan _ op d _ _ ex =>
    let ys := scanAll (redOp op) (c.xs op)
    on.map fun l =>
      let i := l - c.base
      let r := if ex then (if i = 0 then redId op else ys.getD (i - 1) 0) else ys.getD i 0
      ⟨.v, ph d.toNat, l, r.setWidth 64⟩
  | _ => []

/-- The forms whose results are of variable latency (R56). -/
def varLat (c : CollInst) : Bool :=
  match c.instr with
  | .redux .. | .scan .. => true
  | _ => false

/-- The instance without some lanes, and without what they brought. -/
def without (c : CollInst) (m : Lanes) : CollInst :=
  { c with arrived := c.arrived &&& ~~~ m, contrib := c.contrib &&& ~~~ m, vals := c.vals.filter fun p => !m.getLsbD p.1 }

end CollInst

/-- What flow inside a warp asks of its surroundings: whether a trap of the warp is open or waiting (R43), and the
length of the instruction at an address (R142). -/
structure FlowEnv where
  held : Bool
  len : Dword → Nat

namespace Warp

-- joins (R31, R33)

/-- The wait of a path that forms at a join while a trap of its warp is open (R43). -/
def joinWait (e : FlowEnv) : Wait := if e.held then .trapHold else .ready

/-- A path takes its place: at its record's join PC its lanes arrive, and a record whose expected lanes have all arrived
is freed and releases one path under the parent (R33), which zeroes WDCNT (R382). The number bounds how many records may
be freed. -/
def settle (e : FlowEnv) : Nat → Warp → Path → Warp
  | 0, w, p => w.addPath p
  | n + 1, w, p =>
    if p.mask = 0 then w
    else match p.j with
      | none => w.addPath p
      | some j =>
        match w.joins.get j with
        | none => w.addPath p
        | some r =>
          if p.pc = r.jpc then
            let a := r.arrived ||| p.mask
            let w := { w with run := if w.run < 32 ∧ p.mask.getLsbD w.run then 32 else w.run }
            if a &&& r.expected = r.expected then
              settle e n { w with joins := w.joins.set j none, wdcnt := 0 }
                ⟨r.jpc, a, r.parent, 0, joinWait e⟩
            else { w with joins := w.joins.set j (some { r with arrived := a }) }
          else w.addPath p

/-- Lanes stand at an address as a ready path, which keeps the age it had (R34). -/
def land (e : FlowEnv) (w : Warp) (pc : Dword) (mask : Lanes) (j : Option Nat) (age : Nat := 0) : Warp :=
  settle e 33 w ⟨pc, mask, j, age, .ready⟩

/-- Records whose expected set has shrunk are looked at again (R33): a complete one releases its path. -/
def checkJoin (e : FlowEnv) (w : Warp) (j : Nat) : Warp :=
  match w.joins.get j with
  | none => w
  | some r =>
    if r.arrived &&& r.expected = r.expected then
      settle e 33 { w with joins := w.joins.set j none, wdcnt := 0 }
        ⟨r.jpc, r.arrived &&& r.expected, r.parent, 0, joinWait e⟩
    else w

def checkJoins (e : FlowEnv) (w : Warp) : Warp := (List.range 31).foldl (checkJoin e) w

/-- The lowest unused join record (R31). -/
def freeJoin (w : Warp) : Nat := ((List.range 31).find? fun j => (w.joins.get j).isNone).getD 30

/-- A new record for a path that splits, whose M both sides keep (R32); answers its number. -/
def newJoin (w : Warp) (jpc : Dword) (expected : Lanes) (parent : Option Nat) : Nat × Warp :=
  let j := w.freeJoin
  (j, { w.shareM expected with joins := w.joins.set j (some ⟨jpc, expected, 0, parent⟩) })

-- loops (R140 to R145)

def loop (w : Warp) (n : Nat) : Loop := w.loops.get n
def modLoop (w : Warp) (n : Nat) (f : Loop → Loop) : Warp := { w with loops := w.loops.modify n f }

/-- Lanes of a level that have neither broken nor exited. -/
def loopIn (l : Loop) : Lanes := l.lanes &&& ~~~ l.brk

/-- Exit(n): the address after the instruction at LEn (R142). -/
def exitPc (e : FlowEnv) (l : Loop) : Dword := l.le + BitVec.ofNat 64 (e.len l.le)

/-- A level that has ended (R143): free, its counts and window cleared; LS and LE stay. -/
def Loop.ended (l : Loop) : Loop :=
  { l with lc := 0, rw := 0, rb := 0, lanes := 0, brk := 0, wexit := 0, wback := 0, lx := none, st := .free
           nlc := none, nls := none, nle := none }

/-- What SWR has written to a live level takes effect (R146). -/
def Loop.renewed (l : Loop) : Loop :=
  { l with lc := l.nlc.getD l.lc, ls := l.nls.getD l.ls, le := l.nle.getD l.le, nlc := none, nls := none, nle := none }

/-- EndLevel(n) (R143). A lower level that stays live and has the same LE takes, at its back edge, the lanes that are
still in it; the others leave as one path at Exit(n). -/
def endLevel (e : FlowEnv) (w : Warp) (n : Nat) : Warp :=
  let l := w.loop n
  let above := [3, 2, 1, 0].filter fun m => n ≤ m && (w.loop m).st == .live
  let out := above.foldl (fun x m => x ||| (w.loop m).wexit ||| (w.loop m).wback) 0
  let w1 := above.foldl (fun w m => w.modLoop m Loop.ended) w
  let lower := [2, 1, 0].find? fun m => decide (m < n) && (w1.loop m).st == .live
  match lower with
  | some m =>
    let lo := w1.loop m
    let back := if lo.le = l.le then out &&& loopIn lo else 0
    land e (w1.modLoop m fun x => { x with wback := x.wback ||| back }) (exitPc e l) (out &&& ~~~ back) l.lx
  | none => land e w1 (exitPc e l) out l.lx

/-- Stage predicates after a lap (R143). -/
def shiftStages (sp : BitVec 8) (s : Nat) (on : Bool) : BitVec 8 :=
  let keep := sp &&& ~~~ (BitVec.ofNat 8 (2 ^ (min s 8) - 1))
  let sh := ((sp <<< 1) ||| BitVec.ofNat 8 (ofBool on)) &&& BitVec.ofNat 8 (2 ^ (min s 8) - 1)
  keep ||| sh

/-- The next lap of level n (R143), by the lanes that wait at its back edge. -/
def nextLap (e : FlowEnv) (w : Warp) (n : Nat) : Warp :=
  let l := w.loop n
  let lc := l.lc - 1
  let size := winSize l
  let off := l.rb.toNat % 256
  let rb : Word := if size ≠ 0 then BitVec.ofNat 32 ((off + size - 1) % size) else l.rb
  let s := winStg l
  let sp := if s ≠ 0 then shiftStages w.sp s (decide (s ≤ lc.toNat)) else w.sp
  let w := { w with sp := sp, wdcnt := 0 }
  let w := w.modLoop n fun x => { x with lc := lc, rb := rb, wback := 0 }
  land e w l.ls (loopIn l) l.lx

/-- The back-edge test of level n (R143): it runs when every lane that is still in the level waits there. -/
def loopTest (e : FlowEnv) (w : Warp) (n : Nat) : Warp :=
  let l := w.loop n
  if l.st = .live ∧ loopIn l &&& ~~~ l.wback = 0 then
    let w := w.modLoop n Loop.renewed
    if loopIn l = 0 ∨ (w.loop n).lc = 1 then endLevel e w n else nextLap e w n
  else w

/-- The tests of all levels, innermost first. -/
def loopTests (e : FlowEnv) (w : Warp) : Warp := [3, 2, 1, 0].foldl (loopTest e) w

/-- Lanes that have issued the instruction at pc come to the back edge of a live level whose LE is pc, innermost level first;
answers the lanes that no such level holds (R143). -/
def backEdge (w : Warp) (pc : Dword) (mask : Lanes) : Warp × Lanes :=
  [3, 2, 1, 0].foldl (fun (x : Warp × Lanes) n =>
    let l := x.1.loop n
    if l.st = .live ∧ l.le = pc then
      let t := x.2 &&& loopIn l
      (x.1.modLoop n fun y => { y with wback := y.wback ||| t }, x.2 &&& ~~~ t)
    else x) (w, mask)

/-- Lanes of a set that no back edge at pc holds. -/
def offEdge (w : Warp) (pc : Dword) (mask : Lanes) : Lanes := (backEdge w pc mask).2

/-- Lanes leave the instruction at pc for an address: those in a live level whose LE is pc wait at its back edge wherever the
instruction sends them; the others stand at the address (R143). -/
def goTo (e : FlowEnv) (w : Warp) (pc tgt : Dword) (mask : Lanes) (j : Option Nat) (age : Nat := 0) : Warp :=
  let r := w.backEdge pc mask
  let w := r.1
  let w := { w with run := if w.run < 32 ∧ mask.getLsbD w.run ∧ !r.2.getLsbD w.run then 32 else w.run }
  loopTests e (land e w tgt r.2 j age)

/-- Lanes go on from an instruction at pc of `len` bytes. -/
def goOn (e : FlowEnv) (w : Warp) (pc : Dword) (len : Nat) (mask : Lanes) (j : Option Nat) (age : Nat := 0) : Warp :=
  goTo e w pc (pc + BitVec.ofNat 64 len) mask j age

/-- A path whose wait is over goes on; it has not issued meanwhile and keeps its age (R34). -/
def pathOn (e : FlowEnv) (w : Warp) (p : Path) : Warp :=
  goOn e (w.dropLanes p.mask) p.pc (e.len p.pc) p.mask p.j p.age

-- collectives (R36)

/-- Lanes that need not execute a collective at pc: exited ones, and those that have broken out of a live level that
holds it. -/
def excused (w : Warp) (pc : Dword) : Lanes :=
  [0, 1, 2, 3].foldl (fun m n =>
    let l := w.loop n
    if l.st = .live ∧ l.ls ≤ pc ∧ pc ≤ l.le then m ||| l.brk else m) (w.exited ||| ~~~ firstLanes w.width)

/-- Lanes of a group (R35). -/
def groupMask (base size : Nat) : Lanes := firstLanes size <<< base

/-- A pending instruction has one group fewer to wait for; results join it. Where nothing is left and no result is to be
written, it is done. -/
def pendHold (w : Warp) (id : Nat) (res : List RegVal) : Warp :=
  match w.pend.find? fun p => p.id == id with
  | none => w
  | some p =>
    let p' := { p with hold := p.hold - 1, res := p.res ++ res }
    if p'.hold = 0 ∧ p'.res = [] then
      Warp.tokDec { w with pend := w.pend.filter fun q => q.id != id } p.tok
    else { w with pend := w.pend.map fun q => if q.id == id then p' else q }

/-- A group whose lanes have all executed the collective, apart from the excused ones (R36). -/
def collReady (w : Warp) (c : CollInst) : Bool :=
  groupMask c.base c.size &&& ~~~ w.excused c.pc &&& ~~~ c.arrived == 0

/-- The completion of one group: results are written, or join the instructions that wait for them. -/
def collFinish (w : Warp) (c : CollInst) : Warp :=
  let w := { w with colls := w.colls.filter fun x => !(x.pc == c.pc && x.greg == c.greg && x.base == c.base) }
  let rs := c.results w.phys
  let w := if c.varLat then w else w.applyAll rs
  c.ids.foldl (fun w id =>
    let m := ((w.pend.find? fun p => p.id == id).map (·.lanes)).getD 0
    w.pendHold id (if c.varLat then rs.filter fun r => m.getLsbD r.lane else [])) w

/-- Paths that wait in a collective and have no group left to wait for go on after it, unless a trap of the warp is
pending (R43). -/
def collResume (e : FlowEnv) (w : Warp) : Warp :=
  if e.held then w else
  let waiting := w.colls.foldl (fun m c => m ||| c.arrived) 0
  let done := w.paths.filter fun p => p.wait == .coll && (p.mask &&& waiting) == 0
  done.foldl (pathOn e) w

/-- Groups that have become complete (R36). -/
def collCheck (e : FlowEnv) (w : Warp) : Warp :=
  let done := w.colls.filter w.collReady
  if done = [] then w else collResume e (done.foldl collFinish w)

-- lanes that leave

/-- Lanes leave the sets in which they stand, joins and loops apart from their expected and lane sets: their paths,
collectives and parking. -/
def leave (w : Warp) (m : Lanes) : Warp :=
  let w := w.dropLanes m
  { w with
    colls := (w.colls.map fun c => c.without m).filter fun c => c.arrived != 0 }

/-- Lanes end (R138): they leave every expected set, loop lane set and hurdle count, and what waited for them goes on. -/
def exitLanes (e : FlowEnv) (w : Warp) (m : Lanes) : Warp :=
  let w := w.leave m
  let w := { w with
    exited := w.exited ||| m
    parked := w.parked.filter fun p => !m.getLsbD p.lane
    parkReq := w.parkReq &&& ~~~ m
    due := w.due.filter fun x => !m.getLsbD x.lane
    arr := (List.range 16).foldl (fun t h => t.modify h fun x => x &&& ~~~ m) w.arr
    aph := (List.range 16).foldl (fun t h => t.modify h fun x => x &&& ~~~ m) w.aph
    joins := (List.range 31).foldl (fun t j => match t.get j with
      | none => t
      | some r => t.set j (some { r with expected := r.expected &&& ~~~ m, arrived := r.arrived &&& ~~~ m })) w.joins }
  let w := [0, 1, 2, 3].foldl (fun w n => w.modLoop n fun l =>
    { l with lanes := l.lanes &&& ~~~ m, brk := l.brk &&& ~~~ m, wexit := l.wexit &&& ~~~ m,
             wback := l.wback &&& ~~~ m }) w
  collCheck e (loopTests e (checkJoins e w))

/-- Lanes are parked with their records (R43). -/
def park (w : Warp) (rs : List Parked) : Warp :=
  let m := laneSet (rs.map (·.lane))
  let w := w.leave m
  { w with
    parked := w.parked ++ rs
    parkReq := w.parkReq &&& ~~~ m
    run := if w.run < 32 ∧ m.getLsbD w.run then 32 else w.run }

/-- The record of a parked lane. -/
def parkedRec (w : Warp) (l : Nat) : Option FaultRec := (w.parked.find? fun p => p.lane == l).map (·.rec_)

end Warp

end Sys2Proof.Machine
end

