-- ==== Sys2Proof/Machine/Record.lean ====
section
/-! DEFINITION. Warp records, fault records and return-stack entries as they lie in memory (R136, R281, R283 to R285,
R365). -/
namespace Sys2Proof.Machine

open Bits

/-- The n dwords of a natural, the lowest first. -/
def dwordsOf (x : Nat) : Nat → List Nat
  | 0 => []
  | n + 1 => x % 2 ^ 64 :: dwordsOf (x / 2 ^ 64) n

/-- The natural whose dwords are given, the lowest first. -/
def ofDwords : List Nat → Nat
  | [] => 0
  | d :: r => d % 2 ^ 64 + 2 ^ 64 * ofDwords r

def bytesOfDwords (ds : List Nat) : List Byte := ds.flatMap fun d => toBytes d 8

/-- n dwords of memory from a physical address. -/
def State.peekDwords (s : State) (pa : Nat) : Nat → List Nat
  | 0 => []
  | n + 1 => s.peek pa 8 :: peekDwords s (pa + 8) n

/-- A record number with 31 for none. -/
def recNo : Option Nat → Nat
  | none => 31
  | some j => j

def recOf (x : Nat) : Option Nat := if x = 31 then none else some x

namespace RetEnt

/-- R136. -/
def toNat (r : RetEnt) : Nat :=
  pack [(64, r.cpc.toNat), (5, recNo r.jrec), (59, 0), (32, r.mask.toNat), (32, 0), (1, ofBool r.rtd), (4, 0), (3, r.cfb)]

def ofNat (x : Nat) : RetEnt :=
  ⟨field x 197 3, bit x 192, BitVec.ofNat 32 (field x 128 32), recOf (field x 64 5), BitVec.ofNat 64 x⟩

end RetEnt

namespace FaultRec

/-- R365: 56 bytes. -/
def toDwords (r : FaultRec) : List Nat :=
  [pack [(8, r.cause.toNat), (12, 0), (2, r.res.toNat), (5, recNo r.jrec), (5, 0), (8, r.hy.toNat)],
   r.tick, r.word.toNat, r.lit.toNat, r.pc.toNat, r.addr.toNat, r.info.toNat]

def ofDwords (ds : List Nat) : FaultRec :=
  let d := fun i => ds.getD i 0
  { info := BitVec.ofNat 64 (d 6), addr := BitVec.ofNat 64 (d 5), pc := BitVec.ofNat 64 (d 4),
    lit := BitVec.ofNat 64 (d 3), word := BitVec.ofNat 64 (d 2), tick := d 1, hy := BitVec.ofNat 8 (field (d 0) 32 8),
    jrec := recOf (field (d 0) 22 5), res := BitVec.ofNat 2 (field (d 0) 20 2),
    cause := BitVec.ofNat 8 (field (d 0) 0 8) }

end FaultRec

/-- A parked record of the save area (R281): slot and lane, then the fault record. -/
def parkedDwords (slot : Nat) (p : Parked) : List Nat := pack [(8, slot), (5, p.lane)] :: p.rec_.toDwords

def loopCode : LoopSt → Nat
  | .free => 0 | .armed => 1 | .live => 2

namespace Loop

/-- R285. -/
def toNat (l : Loop) : Nat :=
  pack [(177, 0), (2, loopCode l.st), (5, recNo l.lx), (32, l.wback.toNat), (32, l.wexit.toNat), (32, l.brk.toNat),
    (32, l.lanes.toNat), (8, l.rb.toNat), (32, l.rw.toNat), (64, l.le.toNat), (64, l.ls.toNat), (32, l.lc.toNat)]

def ofNat (x : Nat) : Loop :=
  { lc := BitVec.ofNat 32 (field x 480 32), ls := BitVec.ofNat 64 (field x 416 64), le := BitVec.ofNat 64 (field x 352 64),
    rw := BitVec.ofNat 32 (field x 320 32), rb := BitVec.ofNat 32 (field x 312 8),
    lanes := BitVec.ofNat 32 (field x 280 32), brk := BitVec.ofNat 32 (field x 248 32),
    wexit := BitVec.ofNat 32 (field x 216 32), wback := BitVec.ofNat 32 (field x 184 32), lx := recOf (field x 179 5),
    st := match field x 177 2 with | 1 => .armed | 2 => .live | _ => .free
    nlc := none, nls := none, nle := none }

end Loop

namespace Path

/-- WAIT and OPND of a path (R285). -/
def waitCode (p : Path) : Nat × Nat :=
  match p.wait with
  | .sleep t => (1, t.toNat)
  | .teamHurdle h _ => (2, h)
  | .memHurdle a _ _ ph => (3, a.toNat + ofBool (ph != 0))
  | _ => (0, 0)

/-- R285. -/
def toNat (p : Path) : Nat :=
  let w := p.waitCode
  pack [(64, p.pc.toNat), (32, p.mask.toNat), (5, recNo p.j), (7, 0), (3, w.1), (10, p.age), (7, 0), (64, w.2)]

/-- A restored path: one that waits on a team hurdle waits with all the lanes whose arrival stands; one that waits on a
memory hurdle waits at its word for the phase to leave (R277). -/
def ofNat (x : Nat) : Path :=
  let o := field x 128 64
  let m : Lanes := BitVec.ofNat 32 (field x 64 32)
  { pc := BitVec.ofNat 64 (field x 0 64), mask := m, j := recOf (field x 96 5), age := field x 111 10,
    wait := match field x 108 3 with
      | 1 => .sleep (BitVec.ofNat 64 o)
      | 2 => .teamHurdle (o % 16) m
      | 3 => .memHurdle (BitVec.ofNat 64 (o / 8 * 8)) 0 m (if o % 2 = 1 then BitVec.allOnes 32 else 0)
      | _ => .ready }

end Path

namespace Join

/-- R285. -/
def toNat (r : Join) : Nat :=
  pack [(1, 1), (5, recNo r.parent), (58, 0), (32, r.arrived.toNat), (32, r.expected.toNat), (64, r.jpc.toNat)]

def ofNat (x : Nat) : Option Join :=
  if bit x 0 then
    some ⟨BitVec.ofNat 64 (field x 128 64), BitVec.ofNat 32 (field x 96 32), BitVec.ofNat 32 (field x 64 32),
      recOf (field x 1 5)⟩
  else none

end Join

namespace Warp

/-- Bytes of a 32-entry list as four dwords. -/
def packLanes (xs : List Nat) : List Nat := dwordsOf (pack (xs.map fun x => (8, x))) 4

/-- Where a lane stands (R283). -/
def laneState (w : Warp) (l : Nat) : Nat :=
  if w.width ≤ l ∨ w.exited.getLsbD l then 1
  else if (w.parkedRec l).isSome then 2
  else if (w.pathOf l).isSome then 0
  else if (List.range 31).any fun j => match w.joins.get j with | some r => r.arrived.getLsbD l | none => false then 3
  else if [0, 1, 2, 3].any fun n => (w.loops.get n).wback.getLsbD l then 5
  else if [0, 1, 2, 3].any fun n => (w.loops.get n).wexit.getLsbD l then 4
  else 0

/-- The header (R284). -/
def headNat (w : Warp) (u : UnitId) (slot trec : Nat) : Nat :=
  let run := (w.paths.findIdx? fun p => decide (w.run < 32) && p.mask.getLsbD w.run).getD 0
  let grp := pack ((List.range 8).map fun g => (2, 3 - (w.grp.get g).toNat))
  pack [(6, trec), (58, 0), (8, if slot = trapSlot then 2 else 1), (8, slot),
    (2, if u.kind = .sc ∧ slot ≠ trapSlot then slot / 16 else 0), (5, w.widx), (9, 0), (4, min w.heat 15), (28, w.teamIdx),
    (16, 0), (16, grp), (5, 0), (1, ofBool w.memb), (6, w.gran), (12, w.lease.toNat), (8, w.sp.toNat), (5, run),
    (6, w.paths.length), (5, w.rets.length), (16, w.rsdep), (32, w.wdcnt), (32, w.wdog.toNat), (32, w.seed.toNat),
    (64, w.rsb.toNat), (64, w.gng.toNat), (64, w.hov.toNat)]

/-- The 512 dwords of a warp record (R283). -/
def record (w : Warp) (u : UnitId) (slot trec : Nat) : List Nat :=
  dwordsOf (w.headNat u slot trec) 8 ++
  (List.range 4).flatMap (fun n => dwordsOf (w.loops.get n).toNat 8) ++
  (List.range 32).flatMap (fun i => dwordsOf ((w.paths[i]?.map Path.toNat).getD 0) 3) ++
  (List.range 31).flatMap (fun j => dwordsOf (((w.joins.get j).map Join.toNat).getD 0) 3) ++ [0, 0, 0] ++
  (List.range 64).map (fun i => (w.k.get i).toNat) ++
  (List.range 16).flatMap (fun i => dwordsOf ((w.rets.reverse[i]?.map RetEnt.toNat).getD 0) 4) ++
  packLanes ((List.range 32).map fun l => (w.hy.get l).toNat) ++
  packLanes ((List.range 32).map w.laneState) ++
  packLanes ((List.range 32).map fun l => pack ((List.range 7).map fun p => (1, ofBool (w.pbit l p)))) ++
  (List.range 16).map (fun h => pack [(32, (w.arr.get h).toNat), (32, (w.aph.get h).toNat)]) ++
  List.replicate 124 0

/-- The vector registers of a warp, register by register as the program names them, lane by lane (R281, R368). -/
def vDwords (w : Warp) (n : Nat) (named : Bool) : List Nat :=
  (List.range n).flatMap fun x => (List.range 16).map fun i =>
    let r := fun l => if named then (w.getV l x).toNat else (w.v.get (256 * l + x)).toNat
    r (2 * i) + 2 ^ 32 * r (2 * i + 1)

/-- Predicates p0 to p6 of the lanes from a record's bytes. -/
def predTab (f : Nat → Nat) : Tab Lanes :=
  (List.range 7).foldl (fun t p => t.set p (laneSet ((List.range 32).filter fun l => bit (f l) p))) []

/-- A warp from its record (R283), with its registers to be read from elsewhere. `base` gives what the record does not
hold. -/
def ofRecord (ds : List Nat) (base : Warp) : Warp :=
  let d := fun i => ds.getD i 0
  let h := ofDwords (ds.take 8)
  let f := fun lo n => field h lo n
  let byte := fun o l => field (d (o + l / 8)) (l % 8 * 8) 8
  let at_ := fun o n => ofDwords ((ds.drop o).take n)
  let paths := ((List.range 32).map fun i => Path.ofNat (at_ (40 + 3 * i) 3)).filter fun p => p.mask != 0
  { base with
    hov := BitVec.ofNat 64 (f 448 64), gng := BitVec.ofNat 64 (f 384 64), rsb := BitVec.ofNat 64 (f 320 64)
    seed := BitVec.ofNat 32 (f 288 32), wdog := BitVec.ofNat 32 (f 256 32), wdcnt := f 224 32, rsdep := f 208 16
    sp := BitVec.ofNat 8 (f 184 8), lease := BitVec.ofNat 12 (f 172 12), gran := f 166 6, memb := bit h 165
    grp := (List.range 8).foldl (fun t g => t.set g (BitVec.ofNat 2 (3 - f (144 + 2 * g) 2))) []
    teamIdx := f 100 28, heat := f 96 4, widx := f 82 5
    loops := (List.range 4).foldl (fun t n => t.set n (Loop.ofNat (at_ (8 + 8 * n) 8))) []
    paths := paths
    run := ((paths[f 192 5]?).map fun p => laneKey p.mask).getD 32
    joins := (List.range 31).foldl (fun t j => t.set j (Join.ofNat (at_ (136 + 3 * j) 3))) []
    k := (List.range 64).foldl (fun t i => t.set i (BitVec.ofNat 64 (d (232 + i)))) []
    rets := ((List.range (f 203 5)).map fun i => RetEnt.ofNat (at_ (296 + 4 * i) 4)).reverse
    hy := (List.range 32).foldl (fun t l => t.set l (BitVec.ofNat 8 (byte 360 l))) []
    exited := laneSet ((List.range 32).filter fun l => decide (l < base.width) && byte 364 l == 1)
    p := predTab (byte 368)
    arr := (List.range 16).foldl (fun t n => t.set n (BitVec.ofNat 32 (field (d (372 + n)) 0 32))) []
    aph := (List.range 16).foldl (fun t n => t.set n (BitVec.ofNat 32 (field (d (372 + n)) 32 32))) [] }

/-- Vector registers read back, n registers for each of 32 lanes (R281). -/
def vOfDwords (ds : List Nat) (n : Nat) : Tab Word :=
  (List.range 32).foldl (fun t l => (List.range n).foldl (fun t x =>
    t.set (256 * l + x) (BitVec.ofNat 32 (field (ds.getD (16 * x + l / 2) 0) (32 * (l % 2)) 32))) t) []

end Warp

end Sys2Proof.Machine
end

