-- ==== Sys2Proof/Machine/EngBase.lean ====
section
/-! DEFINITION. Engine queues as the other parts of the machine reach them: where a command stands, completing a command,
thawing and discarding a stopped one (R201, R205, R216 to R218, R393 to R395). -/
namespace Sys2Proof.Machine

open Bits

/-- The die copy engine that a unit's commands reach (R201). -/
def dceOf (u : UnitId) : Nat := match u.kind with | .sc => u.idx / 16 | .tt => u.idx / 8 | .rc => 0

/-- Completion status of a copy (R218). -/
def copyStatus (chunks : Nat) (late : Bool) (status : Nat) : Dword :=
  BitVec.ofNat 64 (pack [(8, status), (1, ofBool late), (23, 0), (32, chunks)])

namespace Cmd

def isCopy (c : Cmd) : Bool := match c.instr with | .ecpy .. => true | _ => false
def isColl (c : Cmd) : Bool := match c.instr with | .coll .. => true | _ => false
def isNote (c : Cmd) : Bool := match c.instr with | .enote .. => true | _ => false

/-- A copy of a die copy engine (R200). -/
def onDce (c : Cmd) : Bool := match c.instr with | .ecpy _ e _ _ => e.q == 3 | _ => false

/-- The k pair a copy names. -/
def dreg (c : Cmd) : Nat := match c.instr with | .ecpy _ e _ _ => e.d.toNat | .coll _ e _ _ => e.d.toNat | _ => 0

/-- A scale or block code that the command holds (R83). -/
def side? (c : Cmd) (isB : Bool) (at_ n : Nat) : Option Nat :=
  (c.sides.find? fun y => y.1 == isB && y.2.1 == at_ && y.2.2.1 == n).map (·.2.2.2)

/-- Receivers that refused or were cut (R218, R275). -/
def refusal (c : Cmd) : Dword := c.refused ||| c.cut

/-- Chunks delivered to every receiver that took the whole copy; a flit of the current chunk that has been loaded will be
(R218). -/
def delivered (c : Cmd) : Nat :=
  if c.accepted &&& ~~~ c.cut = 0 then 0 else c.chunks + (if c.runs = [] then 0 else 1) - c.lost.eraseDups.length

end Cmd

namespace State

def modEng (s : State) (u : UnitId) (f : Engines → Engines) : State := s.modCore u fun c => { c with eng := f c.eng }

/-- Memory operations a warp has outstanding. -/
def memOut (w : Warp) : Nat := (w.pend.filter (·.mem)).length

def memBound (s : State) (u : UnitId) (w : Warp) : Bool :=
  w.memb || decide (field (s.reg u.die Win.mbCfg).toNat 32 8 < memOut w)

/-- A member of the admitted set is still memory-bound (R266). -/
def staysAdmitted (s : State) (u : UnitId) (a : Admit) : Bool :=
  match s.warp u a.slot with | some w => s.memBound u w | none => false

/-- A warp that is no longer memory-bound leaves the admitted set (R266). -/
def leaveAdmitted (s : State) (u : UnitId) : State :=
  if (s.core u).admitted.all (s.staysAdmitted u) then s
  else s.modCore u fun c => { c with admitted := c.admitted.filter (s.staysAdmitted u) }

/-- A pending instruction of a warp has one thing fewer to wait for. -/
def pendDone (s : State) (u : UnitId) (slot id : Nat) (res : List RegVal) : State :=
  (s.modWarp u slot fun w => w.pendHold id res).leaveAdmitted u

/-- The thread or warp that owns a command stands in its slot. -/
def ownerHere (s : State) (u : UnitId) (slot owner : Nat) : Bool :=
  match s.warp u slot with | some w => w.startSeq == owner | none => false

/-- Registers that a command writes for its issuer: through the pending instruction, or straight into the registers of a
thread that was restored behind it (R201, R288). -/
def issuerRegs (s : State) (c : Cmd) (rs : List RegVal) : State :=
  if !s.ownerHere c.unit c.slot c.owner then s
  else match c.pend with
    | some id => s.pendDone c.unit c.slot id rs
    | none => s.modWarp c.unit c.slot fun w => w.applyAll rs

/-- A command is complete. A copy writes its completion record: over bytes 64 to 79 of the image it was resumed from, or
as the results of its issuer (R216, R218); a retired one writes nothing (R400). -/
def finishCmd (s : State) (c : Cmd) (status : Nat) : State :=
  if c.isCopy && !c.retired then
    let st := copyStatus c.delivered c.late status
    match c.image with
    | some a =>
      let s := s.ctxStore c.ctx (a.toNat + 64) 8 c.refusal.toNat
      s.ctxStore c.ctx (a.toNat + 72) 8 st.toNat
    | none => s.issuerRegs c [kres c.dreg c.refusal, kres (c.dreg + 1) st]
  else s

-- engines by number: 0 matrix, 1 vector, 2 tile copy, 3 die copy, 4 collective (R393)

/-- The ENG code of an engine (R388). -/
def engCode (e : Nat) : Nat := if e = 4 then 3 else e + 1

/-- Whether a queue is frozen behind a stopped command (R393). -/
def engFrozen (s : State) (u : UnitId) (e : Nat) : Bool :=
  if e = 3 then (s.die u.die).dceFrozen.get (dceOf u) else (s.core u).eng.frozen.get e

/-- The command that an engine performs; a collective stands at the head of the copy queue. -/
def engRunning (s : State) (u : UnitId) (e : Nat) : Option Cmd :=
  if e = 3 then
    match (s.die u.die).dceRun.get (dceOf u) with
    | some c => if c.unit = u then some c else none
    | none => none
  else if e = 4 then ((s.core u).eng.queues.get 2).head?.filter fun c => c.isColl
  else (s.core u).eng.running.get e

/-- The engine that a host's ENG code names (R390): a stopped copy comes before a stopped collective. -/
def engOf (s : State) (u : UnitId) (code : Nat) : Nat :=
  if code = 3 ∧ !s.engFrozen u 2 ∧ s.engFrozen u 4 then 4 else code - 1

/-- A queue thaws (R394). -/
def engThaw (s : State) (u : UnitId) (e : Nat) : State :=
  if e = 3 then s.modDie u.die fun d => { d with dceFrozen := d.dceFrozen.set (dceOf u) false }
  else s.modEng u fun x => { x with frozen := x.frozen.set e false, stop := x.stop.set e 0 }

/-- A queue freezes behind the command that has stopped (R393). -/
def engFreeze (s : State) (u : UnitId) (e : Nat) (c : Cause) : State :=
  if e = 3 then s.modDie u.die fun d => { d with dceFrozen := d.dceFrozen.set (dceOf u) true }
  else s.modEng u fun x => { x with frozen := x.frozen.set e true, stop := x.stop.set e c }

/-- An engine performs a command, or none. -/
def setRunning (s : State) (u : UnitId) (e : Nat) (c : Option Cmd) : State :=
  if e = 3 then s.modDie u.die fun d => { d with dceRun := d.dceRun.set (dceOf u) c }
  else s.modEng u fun x => { x with running := x.running.set e c }

/-- A queue of an engine. -/
def engQueue (s : State) (u : UnitId) (e : Nat) : List Cmd :=
  if e = 3 then (s.die u.die).dce.get (dceOf u) else (s.core u).eng.queues.get e

def setQueue (s : State) (u : UnitId) (e : Nat) (q : List Cmd) : State :=
  if e = 3 then s.modDie u.die fun d => { d with dce := d.dce.set (dceOf u) q }
  else s.modEng u fun x => { x with queues := x.queues.set e q }

/-- A copy at the head of a die copy engine's queue stands there from now on (R219). -/
def markDce (s : State) (die e : Nat) : State :=
  s.modDie die fun d => { d with dce := d.dce.modify e fun q => match q with
    | [] => []
    | c :: r => { c with headAt := some (c.headAt.getD (s.pace die)) } :: r }

/-- The stopped command of an engine leaves it. -/
def engRemove (s : State) (u : UnitId) (e : Nat) : State :=
  if e = 4 then
    let key := (s.engQueue u 2).head?.map fun c => (c.kv, field c.kv1.toNat 0 32)
    (s.setQueue u 2 (s.engQueue u 2).tail).modEng u fun x => { x with colls := [], sent := x.sent.filter fun k => some k != key }
  else s.setRunning u e none

/-- A stopped command is discarded and its queue thaws; a copy's record gets the code of what stopped it, ENDED or ECC, and ENDED goes
to the fault queue (R394, R395). -/
def engDiscard (s : State) (u : UnitId) (e : Nat) (kind : Nat) : State :=
  match s.engRunning u e with
  | none => s.engThaw u e
  | some c =>
    let code := Cause.engine e 3
    let s := ((s.finishCmd c (Cause.engine e kind)).engRemove u e).engThaw u e
    s.report c.ctx ⟨code, 0, some u, engCode e, s.warpIdent c.unit c.slot, 0, 0, 0, 0, s.pace u.die⟩

/-- What becomes of a stopped engine command when the lanes parked for it are resumed or ended (R394, R395): the cause of
their record names the engine. -/
def engReply (s : State) (u : UnitId) (r : FaultRec) (kill : Bool) : State :=
  let c := r.cause.toNat
  if 0x90 ≤ c ∧ c < 0xA4 ∧ (c % 4 = 0 ∨ c % 4 = 2) then
    let e := (c - 0x90) / 4
    if !s.engFrozen u e then s
    else if kill then s.engDiscard u e (if c % 4 = 2 then 2 else 3)
    else if c % 4 = 0 then s.engThaw u e else s
  else s

-- handles and retired copies (R28, R399, R400)

/-- A change to every command of a set of engine queues. -/
def mapCmds (f : Cmd → Cmd) (e : Engines) : Engines :=
  { e with
    queues := (List.range 4).foldl (fun t q => t.modify q (List.map f)) e.queues
    running := (List.range 4).foldl (fun t q => t.modify q (Option.map f)) e.running
    tbuf := e.tbuf.map f }

/-- A change to every command of the package. -/
def mapAllCmds (s : State) (f : Cmd → Cmd) : State :=
  let units := (s.cores.filter fun p => p.2.eng != default).map fun p => unitOf p.1
  let s := units.foldl (fun s u => s.modEng u (mapCmds f)) s
  let onDie := fun (d : Die) => { d with
    dce := (List.range 8).foldl (fun t e => t.modify e (List.map f)) d.dce
    dceRun := (List.range 8).foldl (fun t e => t.modify e (Option.map f)) d.dceRun }
  (s.modDie 0 onDie).modDie 1 onDie

/-- Every command that stands in a tile's queues, engines and buffer. -/
def engCmds (e : Engines) : List Cmd := (e.queues.flatMap (·.2)) ++ (e.running.filterMap (·.2)) ++ e.tbuf

/-- Every command that stands somewhere in the package. -/
def allCmds (s : State) : List Cmd :=
  (s.cores.flatMap fun p => engCmds p.2.eng) ++
  s.dies.flatMap fun p => (p.2.dce.flatMap (·.2)) ++ p.2.dceRun.filterMap (·.2)

/-- Commands of a thread that stand in one of its queues (R213). -/
def cmdsIn (s : State) (u : UnitId) (q owner : Nat) : List Cmd :=
  let e := (s.core u).eng
  let all := if q = 3 then s.engQueue u 3 ++ (s.engRunning u 3).toList
    else e.queues.get q ++ (e.running.get q).toList ++ (if q = 2 then e.tbuf else [])
  all.filter fun c => c.unit == u && c.owner == owner

/-- A fence-table slot is allocated. A copy that still carries the slot's old generation is retired: the chunk in flight is
delivered and no further one is sent, and the slot counts what has been delivered (R400). -/
def newHandle (s : State) (ctx k : Nat) : Word × State :=
  let old := BitVec.ofNat 32 (k * 2 ^ 12 + (s.fslot ctx k).gen)
  let mine := fun (c : Cmd) => c.isCopy && c.ctx == ctx && c.handle == old && handleGen old != 0
  let cs := s.allCmds.filter mine
  let (h, s) := s.allocHandle ctx k
  if cs = [] then (h, s)
  else
    let n := cs.foldl (fun n c => n + c.delivered) 0
    let s := s.setFslot ctx k { s.fslot ctx k with retired := true, rchunks := n % 2 ^ 32 }
    (h, s.mapAllCmds fun c => if mine c then { c with retired := true } else c)

end State

end Sys2Proof.Machine
end

