-- ==== Sys2Proof/Machine/Ops.lean ====
section
/-! DEFINITION. The shared operations of control: going on to the next instruction, team hurdles, lanes that exit, taking
an exception and returning from one (R33, R43, R138, R148, R159, R160, R363 to R370, R381, R386, R390). -/
namespace Sys2Proof.Machine

open Bits

namespace State

/-- The length of the instruction at an address of a warp (R54); 8 where its word cannot be read. -/
def lenAt (s : State) (u : UnitId) (slot : Nat) (va : Dword) : Nat :=
  match s.fetchWord u (slot != trapSlot) va.toNat with
  | .ok w => wordLen w
  | .error _ => 8

/-- Whether a trap of a warp is open or waits (R43). -/
def held (s : State) (u : UnitId) (slot : Nat) : Bool :=
  let c := s.core u
  (match c.trap with | some t => t.slot == slot && t.lanes != 0 | none => false) ||
  c.trapQ.any fun t => t.slot == slot && t.lanes != 0

def flowEnv (s : State) (u : UnitId) (slot : Nat) : FlowEnv := ⟨s.held u slot, s.lenAt u slot⟩

/-- A change of flow inside one warp. -/
def flow (s : State) (u : UnitId) (slot : Nat) (f : FlowEnv → Warp → Warp) : State :=
  s.modWarp u slot (f (s.flowEnv u slot))

-- the path that issues

/-- The issuing path goes on to the next instruction in sequence. -/
def advance (s : State) : State :=
  let p := s.curP
  s.flow s.cur.unit s.cur.slot fun e w => (w.dropLanes p.mask).goOn e p.pc s.cur.len p.mask p.j

/-- The issuing path stays at its instruction and waits. -/
def waitFor (s : State) (t : Wait) : State :=
  let k := s.cur.path
  s.modCur fun w => { w with
    run := 32
    paths := w.paths.map fun p => if p.mask.getLsbD k then { p with wait := t } else p }

/-- The issuing path is blocked and issues its instruction again later; nothing of it has happened (R29, R155, R205). -/
def blocked (s : State) : State := s.waitFor .reissue

/-- Lanes of the issuing path go elsewhere; they leave it and stand at an address with a join record. -/
def moveLanes (s : State) (m : Lanes) (pc : Dword) (j : Option Nat) : State :=
  s.flow s.cur.unit s.cur.slot fun e w => (w.dropLanes m).land e pc m j

-- team hurdles (R148)

def team? (s : State) (u : UnitId) (uid : Nat) : Option Team := (s.core u).teams.find? fun t => t.uid == uid

def modTeam (s : State) (u : UnitId) (uid : Nat) (f : Team → Team) : State :=
  s.modCore u fun c => { c with teams := c.teams.map fun t => if t.uid == uid then f t else t }

/-- The slots of a team's warps. -/
def teamSlots (s : State) (u : UnitId) (uid : Nat) : List Nat :=
  ((s.core u).warps.filter fun p => match p.2 with | some w => w.team == uid && p.1 != trapSlot | none => false).map (·.1)

/-- Non-exited lanes of a team. -/
def teamLive (s : State) (u : UnitId) (uid : Nat) : Nat :=
  (s.teamSlots u uid).foldl (fun n slot => n + match s.warp u slot with | some w => count w.live | none => 0) 0

/-- Lanes of a warp that wait at hurdle h pass where the phase has moved on; a path of which all have passed goes on,
unless a trap of the warp is pending (R43, R148, R382). -/
def passHurdle (e : FlowEnv) (h : Nat) (ph : Bool) (w : Warp) : Warp :=
  w.paths.foldl (fun w p =>
    match p.wait with
    | .teamHurdle h' left =>
      if h' = h then
        let a := w.aph.get h
        let stay := left &&& w.arr.get h &&& (if ph then a else ~~~ a)
        let went := left &&& ~~~ stay
        let w := { w with
          arr := w.arr.modify h fun x => x &&& ~~~ went
          aph := w.aph.modify h fun x => x &&& ~~~ went
          wdcnt := if went = 0 then w.wdcnt else 0 }
        if stay = 0 ∧ !e.held then w.pathOn e p
        else { w with paths := w.paths.map fun q =>
          if q.mask = p.mask then { q with wait := .teamHurdle h stay } else q }
      else w
    | _ => w) w

/-- Check(h) of R148. -/
def hurdleCheck (s : State) (u : UnitId) (uid h : Nat) : State :=
  match s.team? u uid with
  | none => s
  | some t =>
    let hd := t.hurdles.get h
    let e := if hd.exp ≠ 0 then hd.exp else s.teamLive u uid
    if e ≤ hd.cnt then
      let s := s.modTeam u uid fun t => { t with hurdles := t.hurdles.set h { hd with ph := !hd.ph, cnt := 0 } }
      (s.teamSlots u uid).foldl (fun s slot => s.flow u slot fun e w => passHurdle e h (!hd.ph) w) s
    else s

def hurdleChecks (s : State) (u : UnitId) (uid : Nat) : State :=
  (List.range 16).foldl (fun s h => s.hurdleCheck u uid h) s

-- interlock tickets (R311)

/-- An entry is released: by ORDE or an exit, and its lane's LSU accesses before that are performed (R311, R312). -/
def ilockReleased (s : State) (e : ILock) : Bool :=
  e.st == 3 && !s.ops.any fun o => o.unit == e.unit && o.slot == e.slot && o.lanes.getLsbD e.lane && o.path == .lsu &&
    decide (o.id < e.rel) && !settled o .pkg

/-- Entries of a table that are in use. -/
def ilocks (sl : Slice) : List (Nat × ILock) := sl.ilock.filterMap fun p => p.2.map fun e => (p.1, e)

/-- Released entries with no earlier entry of their key left are freed. -/
def ilockSweep (s : State) (d i : Nat) : State :=
  let es := ilocks (s.slice d i)
  if es = [] then s
  else
    let stays := fun (e : ILock) =>
      !s.ilockReleased e || es.any fun q => q.2.key == e.key && decide (q.2.order < e.order) && !s.ilockReleased q.2
    s.modSlice d i fun sl => { sl with
      ilock := es.foldl (fun (t : Tab (Option ILock)) p => if stays p.2 then t else t.set p.1 none) sl.ilock }

/-- Lanes that exit release the tickets bound to them. -/
def releaseTickets (s : State) (u : UnitId) (slot : Nat) (m : Lanes) : State :=
  let mine := fun (e : ILock) => e.st == 2 && e.unit == u && e.slot == slot && m.getLsbD e.lane
  let es := (ilocks (s.unitSlice u)).filter fun p => mine p.2
  if es = [] then s
  else
    let s := s.modSlice u.die (sliceOf u) fun sl => { sl with
      ilock := es.foldl (fun (t : Tab (Option ILock)) p => t.set p.1 (some { p.2 with st := 3, rel := s.nextId })) sl.ilock }
    s.ilockSweep u.die (sliceOf u)

-- parking and traps (R43, R365)

/-- A cause that strikes a lane. -/
structure Strike where
  lane : Nat
  cause : Nat
  info : Dword := 0
  addr : Dword := 0
  deriving DecidableEq, Repr, Inhabited

/-- INFO of an encoding cause: OP, and FN where the format has one (R372). -/
def wordInfo (w : Dword) : Dword :=
  let op := field w.toNat 56 8
  let fn := match fmtOf op with
    | some .a => field w.toNat 0 7
    | some .e => field w.toNat 0 5
    | _ => 0
  BitVec.ofNat 64 (pack [(7, fn), (49, 0), (8, op)])

/-- INFO of a strike at an instruction word: of an encoding cause, what the word gives (R372). -/
def strikeInfo (x : Strike) (word : Dword) : Dword :=
  if 1 ≤ x.cause ∧ x.cause ≤ 0x1F then wordInfo word else x.info

/-- Causes that are raised outside an instruction: the watchdog, the limits of latches and collectives, debug halt and PARK (R363). -/
def outside (c : Nat) : Bool :=
  [Cause.wdog, Cause.colldead, Cause.gangtime, Cause.ganggone, Cause.hpark, Cause.dbghalt].contains c

/-- The fault record of a lane (R365). -/
def mkRec (s : State) (u : UnitId) (w : Warp) (x : Strike) (pc word lit : Dword) (j : Option Nat) : FaultRec :=
  let (word, lit) := if outside x.cause then ((0 : Dword), (0 : Dword)) else (word, lit)
  { info := strikeInfo x word, addr := x.addr, pc := pc, lit := lit, word := word, tick := s.pace u.die, hy := w.hyOf x.lane,
    jrec := j, res := resOf x.cause, cause := BitVec.ofNat 8 x.cause }

/-- Lanes of a warp are parked, and one trap waits for its handler (R43, R364, R366). -/
def parkLanes (s : State) (u : UnitId) (slot : Nat) (ps : List Parked) : State :=
  match ps with
  | [] => s
  | p :: r =>
    let first := r.foldl (fun a b => if b.lane < a.lane then b else a) p
    let s := s.modWarp u slot fun w => w.park ps
    s.modCore u fun c => { c with
      trapQ := c.trapQ ++ [⟨slot, laneSet (ps.map (·.lane)), first.rec_⟩] }

/-- A context is killed by what happened in one of its trap slots (R370). -/
def hfault (s : State) (u : UnitId) (ctx : Nat) (pc info addr : Dword) : State :=
  s.killContext ctx ⟨Cause.hfault, 0, some u, 0, s.warpIdent u trapSlot, 0, addr, info, pc, s.pace u.die⟩

/-- Parking for a cause raised outside an instruction: the word of the record is 0 (R365). Every lane of the list stands
in a path. -/
def parkOutside (s : State) (u : UnitId) (slot : Nat) (xs : List Strike) : State :=
  match s.warp u slot with
  | none => s
  | some w =>
    if slot = trapSlot then
      match xs with
      | [] => s
      | x :: _ => s.hfault u w.ctx (((w.pathOf x.lane).map (·.pc)).getD 0) x.info x.addr
    else s.parkLanes u slot (xs.filterMap fun x => (w.pathOf x.lane).map fun p =>
      ⟨x.lane, s.mkRec u w x p.pc 0 0 p.j⟩)

/-- NLANES of the translation causes among strikes (R391). -/
def countLanes (xs : List Strike) : List Strike :=
  let tr := fun (x : Strike) => decide (0x60 ≤ x.cause ∧ x.cause < 0x90)
  let n := (xs.filter tr).length
  xs.map fun x => if tr x then { x with info := BitVec.ofNat 64 (setField x.info.toNat 8 8 n) } else x

/-- For each lane the cause that ranks first (R364). -/
def rankStrikes (xs : List Strike) : List Strike :=
  (List.range 32).filterMap fun l =>
    (xs.filter fun x => x.lane == l).foldl (fun (a : Option Strike) x => match a with
      | none => some x
      | some y => if Cause.rank x.cause < Cause.rank y.cause then some x else some y) none

/-- Taking an exception at the issuing instruction (R363): the struck lanes are parked at it, each with its record; the
path keeps the others. In the trap slot the context is killed (R370). -/
def raise (s : State) (xs : List Strike) : State :=
  match rankStrikes xs with
  | [] => s
  | x :: r =>
    let w := s.curW
    let p := s.curP
    if s.inTrap then s.hfault s.cur.unit w.ctx p.pc (strikeInfo x s.cur.word) x.addr
    else
      let m := laneSet ((x :: r).map (·.lane))
      let s := s.parkLanes s.cur.unit s.cur.slot ((x :: r).map fun y =>
        ⟨y.lane, s.mkRec s.cur.unit w y p.pc s.cur.word (if s.cur.len = 16 then s.cur.lit else 0) p.j⟩)
      let k := Warp.laneKey (p.mask &&& ~~~ m)
      { s.modCur fun w => { w with run := if w.run = s.cur.path then k else w.run } with cur := { s.cur with path := k } }

/-- One cause for a set of lanes. -/
def raiseAll (s : State) (m : Lanes) (c : Nat) (info : Dword := 0) : State :=
  s.raise ((lanes m).map fun l => ⟨l, c, info, 0⟩)

-- boundaries between instructions (R277, R393)

/-- Instructions of a path at its address that wait, memory accesses apart, are not in flight any more. -/
def dropWaiting (w : Warp) (p : Path) : Warp :=
  let gone := w.pend.filter fun q => q.pc == p.pc && (q.lanes &&& p.mask) != 0 && decide (0 < q.hold) && !q.mem
  gone.foldl (fun w q => Warp.tokDec { w with pend := w.pend.filter fun (x : Pend) => x.id != q.id } q.tok) w

/-- A path that waits in an instruction counted as not issued is taken out of that wait and stands at the instruction
(R277). -/
def withdraw (s : State) (u : UnitId) (slot : Nat) (p : Path) : State :=
  let ready := fun (s : State) => s.modWarp u slot fun w => { w with
    paths := w.paths.map fun q => if q.mask = p.mask then { q with wait := .ready } else q }
  let drop := fun (s : State) => ready (s.modWarp u slot fun w => dropWaiting w p)
  match p.wait with
  | .token | .reissue => ready s
  | .ewait .. => drop s
  | .coll => drop (s.modWarp u slot fun w => { w with
      colls := (w.colls.map fun c => if c.pc = p.pc then c.without p.mask else c).filter fun c => c.arrived != 0 })
  | .latch =>
    match s.warp u slot with
    | none => s
    | some w =>
      if (s.core u).latches.any fun l => l.full && l.ents.any fun e => e.slot == slot && (e.lanes &&& p.mask) != 0 then s
      else
        let out := fun (l : Latch) =>
          { l with ents := l.ents.filter fun e => !(l.team == w.team && e.slot == slot && (e.lanes &&& p.mask) != 0) }
        drop (s.modCore u fun c => { c with latches := (c.latches.map out).filter fun l => l.ents != [] })
  | .regx => drop (s.modCore u fun c => { c with
      regxQ := c.regxQ.filter fun r => !(r.slot == slot && p.mask.getLsbD r.path) })
  | .memArrival id =>
    if s.resolves.any fun r => r.id == id && r.stage == .sent then
      drop { s with resolves := s.resolves.filter fun r => r.id != id }
    else s
  | _ => s

/-- Whether a path stands at a boundary between instructions, or in a wait that is saved as not issued. -/
def atBoundary (s : State) (u : UnitId) (slot : Nat) (p : Path) : Bool :=
  match p.wait with
  | .ready | .token | .reissue | .ewait .. | .coll | .regx | .trapHold => true
  | .latch => !((s.core u).latches.any fun l => l.full && l.ents.any fun e => e.slot == slot && (e.lanes &&& p.mask) != 0)
  | .memArrival id => s.resolves.any fun r => r.id == id && r.stage == .sent
  | _ => false

/-- Lanes of a path that are due at a boundary are parked there, each for the first cause it is due for. -/
def parkDue (s : State) (u : UnitId) (slot : Nat) (m : Lanes) : State :=
  match s.warp u slot with
  | none => s
  | some w =>
    let now := (lanes m).filterMap fun l => w.due.find? fun x => x.lane == l
    let s := s.modWarp u slot fun w => { w with due := now.foldl (fun r x => r.erase x) w.due }
    s.parkOutside u slot (now.map fun x => ⟨x.lane, x.cause, x.info, x.addr⟩)

/-- Lanes are struck at their next instruction boundary (R393, R396, R398): at once where they stand at one, else when they
come to it. -/
def strikeBoundary (s : State) (u : UnitId) (slot : Nat) (m : Lanes) (cause : Nat) (info addr : Dword) : State :=
  match s.warp u slot with
  | none => s
  | some w =>
    let m := m &&& w.live
    let s := s.modWarp u slot fun w => { w with due := w.due ++ (lanes m).map fun l => ⟨l, cause, info, addr⟩ }
    let here := w.paths.filter fun p => (p.mask &&& m) != 0 && s.atBoundary u slot p
    here.foldl (fun s p => (s.withdraw u slot p).parkDue u slot (p.mask &&& m)) s

/-- The lanes that issued a command are struck; where its thread has ended, the trap goes to the unit's trap slot with no
lanes (R393). -/
def strikeIssuer (s : State) (c : Cmd) (cause : Nat) (info addr : Dword) : State :=
  if s.ownerHere c.unit c.slot c.owner then s.strikeBoundary c.unit c.slot c.lanes cause info addr
  else
    let r : FaultRec := { (default : FaultRec) with
      info := info, addr := addr, tick := s.pace c.unit.die, res := resOf cause, cause := BitVec.ofNat 8 cause }
    s.modCore c.unit fun x => { x with trapQ := x.trapQ ++ [⟨c.slot, 0, r⟩] }

-- gang latches (R381)

/-- INFO[5:0] of the latch causes: the listed warps that have issued (R381). -/
def latchInfo (l : Latch) : Dword :=
  BitVec.ofNat 64 (l.list_.zipIdx.foldl (fun n p => n + (if l.ents.any fun e => e.widx == p.1 then 2 ^ p.2 else 0)) 0)

/-- A latch is emptied and the lanes that issued are parked, each with the strike given for its part and lane (R194,
R381); traps of one moment queue in slot order (R366). A path's other lanes, which the instruction does not concern, go on
(R51). -/
def failLatch (s : State) (u : UnitId) (l : Latch) (f : LatchEnt → Nat → Strike) : State :=
  let s := s.modCore u fun x => { x with latches := x.latches.filter fun y => y.id != l.id }
  ((List.range trapSlot).flatMap fun n => l.ents.filter fun e => e.slot == n).foldl (fun s e =>
    match s.warp u e.slot with
    | none => s
    | some w =>
      let p := (w.pathOf (Warp.laneKey e.lanes)).getD default
      let s := s.modWarp u e.slot fun w =>
        let t := ((w.pend.find? fun p => p.id == e.id).bind (·.tok))
        Warp.tokDec { w with pend := w.pend.filter fun p => p.id != e.id } t
      let rest := p.mask &&& ~~~ e.lanes
      let s := s.parkLanes u e.slot ((countLanes ((lanes e.lanes).map (f e))).map fun x => ⟨x.lane, s.mkRec u w x e.pc e.word 0 p.j⟩)
      if rest = 0 then s
      else s.flow u e.slot fun x w => w.pathOn x { p with mask := rest }) s

/-- A listed warp that has exited empties the latches that wait for it (R381). -/
def gangGone (s : State) (u : UnitId) (team widx : Nat) : State :=
  ((s.core u).latches.filter fun l => !l.full && l.team == team && l.list_.contains widx && l.ents.any fun e => e.widx != widx).foldl
    (fun s l => s.failLatch u l fun _ n => ⟨n, Cause.ganggone, latchInfo l, 0⟩) s

-- lanes that end

/-- Lanes of a warp end (R138): hypothesis references, flow, hurdles, tickets and gangs let go of them. -/
def exitLanes (s : State) (u : UnitId) (slot : Nat) (m : Lanes) : State :=
  match s.warp u slot with
  | none => s
  | some w =>
    if m = 0 then s
    else
      let s := (lanes m).foldl (fun s l => s.setHy u slot l 0) s
      let s := s.flow u slot fun e w => w.exitLanes e m
      let s := s.releaseTickets u slot m
      if slot = trapSlot then s
      else
        let s := s.hurdleChecks u w.team
        match s.warp u slot with
        | some w' => if w'.live = 0 then s.gangGone u w.team w.widx else s
        | none => s

/-- The stopped commands of a warp or thread that has been ended are discarded (R394). -/
def discardStopped (s : State) (u : UnitId) (slot owner : Nat) : State :=
  (List.range 5).foldl (fun (s : State) e =>
    if s.engFrozen u e && (s.engRunning u e).any fun c => c.slot == slot && c.owner == owner then s.engDiscard u e 3 else s) s

/-- Lanes ended by a handler or a reply (R159, R394, R400): the last lane of a task or baton completes its handle with the
cause under which it was parked. -/
def killLanes (s : State) (u : UnitId) (slot : Nat) (m : Lanes) : State :=
  match s.warp u slot with
  | none => s
  | some w =>
    let recs := (lanes m).filterMap w.parkedRec
    let s := s.exitLanes u slot m
    let s := recs.foldl (fun s r => s.engReply u r true) s
    match s.warp u slot with
    | none => s
    | some w' =>
      let s := if w'.live = 0 then s.discardStopped u slot w'.startSeq else s
      if w'.live = 0 ∧ w'.handle ≠ 0 then
        let st := ((recs.getLast?).map fun r => r.cause.toNat).getD 0
        (s.completeHandle w'.ctx w'.handle st).modWarp u slot fun w => { w with handle := 0 }
      else s

/-- How parked lanes are resumed (R159, R160). -/
inductive Mode where
  | retry | skip | kill
  deriving DecidableEq, Repr, Inhabited

/-- Whether a mode acts under a RES (R369). -/
def admits (m : Mode) (res : BitVec 2) : Bool :=
  match m with
  | .kill => true
  | .retry => res == 1
  | .skip => res == 1 || res == 2

/-- Paths of a warp that stood still because a trap was pending go on once none is (R43). -/
def unhold (s : State) (u : UnitId) (slot : Nat) : State :=
  if s.held u slot then s
  else s.flow u slot fun e (w : Warp) =>
    let w : Warp := { w with paths := w.paths.map fun p => if p.wait = .trapHold then { p with wait := .ready } else p }
    let go := w.paths.filter fun p => match p.wait with
      | .teamHurdle _ left => left == 0
      | .memHurdle _ _ left _ => left == 0
      | _ => false
    let w := go.foldl (Warp.pathOn e) w
    w.collResume e

/-- Fixed-latency results are in place when lanes go on after a trap (R379). -/
def resultsDue (w : Warp) (m : Lanes) : Warp :=
  { w with prods := w.prods.filterMap fun (q : Prod) =>
      if q.lat = 0 ∨ q.lanes &&& m = 0 then some q
      else if q.lanes &&& ~~~ m = 0 then none
      else some { q with lanes := q.lanes &&& ~~~ m } }

/-- Parked lanes of a warp are resumed or ended (R159, R160, R369, R382, R390, R394). Lanes whose record does not admit
the mode are parked again under the same cause. `at_` is the address they resume at, or their own parked address. -/
def resumeLanes (s : State) (u : UnitId) (slot : Nat) (m : Lanes) (mode : Mode) (at_ : Option Dword) : State :=
  match s.warp u slot with
  | none => s
  | some w =>
    let ps := w.parked.filter fun p => m.getLsbD p.lane
    if mode = .kill then s.killLanes u slot (laneSet (ps.map (·.lane)))
    else
      let good := ps.filter fun p => admits mode p.rec_.res
      let bad := ps.filter fun p => !admits mode p.rec_.res
      let s := s.modWarp u slot fun w => { w with parked := w.parked.filter fun p => !m.getLsbD p.lane }
      let keys := (good.map fun p => (at_.getD p.rec_.pc, p.rec_.jrec)).eraseDups
      let s := keys.foldl (fun s k =>
        let g := good.filter fun p => at_.getD p.rec_.pc == k.1 && p.rec_.jrec == k.2
        let ls := laneSet (g.map fun p => p.lane)
        s.flow u slot fun e w =>
          if mode = .retry then w.land e k.1 ls k.2
          else
            let len := match g with
              | p :: _ => if p.rec_.word ≠ 0 ∧ at_.isNone then wordLen p.rec_.word else e.len k.1
              | [] => 8
            w.goOn e k.1 len ls k.2) s
      let s := if good = [] then s else s.modWarp u slot fun w =>
        { resultsDue w (laneSet (good.map (·.lane))) with wdcnt := 0 }
      let s := if mode = .retry then (good.map (·.rec_)).eraseDups.foldl (fun s r => s.engReply u r false) s else s
      s.parkLanes u slot bad

-- taking a trap (R366, R368)

/-- The bytes of the trap frame (R368). -/
def frameDwords (s : State) (u : UnitId) (t : TrapReq) : List Nat :=
  match s.warp u t.slot with
  | none => []
  | some w =>
    let trec := ((s.core u).teams.findIdx? fun x => x.uid == w.team).getD 0
    w.record u t.slot trec ++ w.vDwords (8 * w.gran) true ++
    (w.parked.filter fun p => t.lanes.getLsbD p.lane).flatMap (parkedDwords t.slot)

/-- Stores of the device at consecutive virtual addresses of a context, a dword at a time. -/
def ctxStoreDwords (s : State) (ctx va : Nat) : List Nat → State
  | [] => s
  | d :: r => ctxStoreDwords (s.ctxStore ctx va 8 d) ctx (va + 8) r

/-- The trap slot takes the next waiting trap (R366): the trap registers are loaded, the frame is written where k62 asks
for one, and the handler starts at TRAPPC with every lane of the slot. A trap slot that is not loaded kills the context
(R370), as does a frame that cannot be written. -/
def takeTrap (s : State) (u : UnitId) : State :=
  let c := s.core u
  match c.trap, c.trapQ, (s.unitSlice u).ctx with
  | none, t :: rest, some d =>
    let s := s.modCore u fun c => { c with trapQ := rest }
    match d.trappc = 0, s.warp u trapSlot with
    | _, none => s.hfault u d.ctxid t.rec_.pc t.rec_.info t.rec_.addr
    | _, some h =>
      if d.trappc = 0 then s.hfault u d.ctxid t.rec_.pc t.rec_.info t.rec_.addr
      else
        let k62 := (h.k.get 62).toNat
        let base := k62 / 4096 * 4096
        let ds := if k62 = 0 then [] else s.frameDwords u t
        let ok := (List.range (cdiv (8 * ds.length) 4096)).all fun i =>
          match s.xlate u false .write (base + 4096 * i) with | .ok _ => true | .error _ => false
        if !ok then s.hfault u d.ctxid t.rec_.pc t.rec_.info (BitVec.ofNat 64 base)
        else
          let s := s.ctxStoreDwords d.ctxid base ds
          let s := s.modCore u fun c => { c with trap := some (
            { slot := t.slot, lanes := t.lanes, raised := t.rec_.tick, fpc := t.rec_.pc, faddr := t.rec_.addr,
              finfo := t.rec_.info, fmask := t.lanes, fwarp := s.warpIdent u t.slot,
              fcause := BitVec.ofNat 32 (pack [(8, t.rec_.cause.toNat), (2, t.rec_.res.toNat)]) } : OpenTrap) }
          s.modWarp u trapSlot fun w => { w with
            paths := [⟨d.trappc, firstLanes w.width, none, 0, .ready⟩]
            joins := [], rets := [], rsdep := 0, exited := 0, run := 0, wdTrap := false }
  | _, _, _ => s

/-- Return from an exception (R159): the open trap ends; the lanes of FMASK of the warp FWARP names go on, and what the
trap held may go on. -/
def closeTrap (s : State) (mode : Mode) : State :=
  let u := s.cur.unit
  match (s.core u).trap with
  | none => s
  | some t =>
    let slot := field t.fwarp.toNat 16 8
    let s := s.modCore u fun c => { c with trap := none }
    let s := s.modWarp u trapSlot fun w => { w with paths := [], run := 32 }
    let s := s.resumeLanes u slot t.fmask mode (some t.fpc)
    let s := if t.fcause.toNat % 256 = Cause.wdog then s.modWarp u t.slot fun w => { w with wdTrap := false } else s
    s.unhold u t.slot

end State

end Sys2Proof.Machine
end

