-- ==== Sys2Proof/Machine/Operands.lean ====
section
/-! DEFINITION. Operand forms of the compute instructions and the shapes they share: one result for each executing lane,
of fixed or of variable latency (R51, R56, R57, R96, R97). -/
namespace Sys2Proof.Machine

open Bits

namespace State

/-- Operand B as 32 bits for a lane (R62, R96). -/
def srcB (s : State) (l : Nat) : SrcB → Word
  | .v r => s.rv l r.toNat
  | .k r => (s.rk r.toNat).setWidth 32
  | .lit x => x.setWidth 32

/-- Operand B as 64 bits for a lane: a v pair, a k register or the whole literal word (R62, R96, R114). -/
def srcB2 (s : State) (l : Nat) : SrcB → Dword
  | .v r => s.rv2 l r.toNat
  | .k r => s.rk r.toNat
  | .lit x => x

/-- A v register or pair, by W, as 64 bits. -/
def srcW (s : State) (l : Nat) (r : VReg) (w : Bool) : Dword :=
  if w then s.rv2 l r.toNat else (s.rv l r.toNat).setWidth 64

def srcBW (s : State) (l : Nat) (b : SrcB) (w : Bool) : Dword :=
  if w then s.srcB2 l b else (s.srcB l b).setWidth 64

/-- A register of either file as 64 bits, of a lane for v. -/
def srcVK (s : State) (l : Nat) : VK → Dword
  | .v r => (s.rv l r.toNat).setWidth 64
  | .k r => s.rk r.toNat

/-- The result of a v register or pair, by W. -/
def resW (s : State) (l : Nat) (d : VReg) (w : Bool) (x : Dword) : List RegVal :=
  if w then s.vres2 l d.toNat x else [s.vres l d.toNat (x.setWidth 32)]

/-- Every executing lane gets its results, read from the state before any is written; fixed latency (R56, R96). -/
def perLane (s : State) (h : Head) (f : Nat → List RegVal) : State :=
  (s.write ((lanes (s.execLanes h)).flatMap f)).advance

/-- One result of 32 bits for each executing lane. -/
def lane32 (s : State) (h : Head) (d : VReg) (f : Nat → Word) : State :=
  s.perLane h fun l => [s.vres l d.toNat (f l)]

/-- A register or pair for each executing lane. -/
def laneW (s : State) (h : Head) (d : VReg) (w : Bool) (f : Nat → Dword) : State :=
  s.perLane h fun l => s.resW l d w (f l)

/-- A predicate for each executing lane. -/
def laneP (s : State) (h : Head) (d : PReg) (f : Nat → Bool) : State :=
  s.perLane h fun l => [pres l d.toNat (f l)]

/-- Results that are written later (R56): they enter flight with the instruction's token. A guard that fails in every
lane leaves nothing in flight (R51). -/
def inFlight (s : State) (h : Head) (m : Lanes) (mem : Bool) (hold : Nat) (res : List RegVal) : State :=
  if m = 0 then s else s.addPend h m mem hold res

/-- Every executing lane gets its results with variable latency. -/
def perLaneVar (s : State) (h : Head) (f : Nat → List RegVal) : State :=
  (s.inFlight h (s.execLanes h) false 0 ((lanes (s.execLanes h)).flatMap f)).advance

def laneVar32 (s : State) (h : Head) (d : VReg) (f : Nat → Word) : State :=
  s.perLaneVar h fun l => [s.vres l d.toNat (f l)]

def laneVar64 (s : State) (h : Head) (d : VReg) (f : Nat → Dword) : State :=
  s.perLaneVar h fun l => s.vres2 l d.toNat (f l)

/-- The lowest executing lane of a form that acts once for its path (R131). -/
def firstLane (s : State) (h : Head) : Option Nat := lowest (s.execLanes h)

/-- A uniform result of fixed latency, when some lane executes (R108). -/
def uniform (s : State) (h : Head) (f : Nat → List RegVal) : State :=
  match s.firstLane h with
  | none => s.advance
  | some l => (s.write (f l)).advance

end State

end Sys2Proof.Machine
end

