-- ==== Sys2Proof/Machine/Access.lean ====
section
/-! DEFINITION. What the memory forms share: the hypothesis gate, effective addresses, translation by lane, the storage
that a scratchpad address reaches, ordering within a warp, and an access's completion or late fault (R163 to R168, R185,
R188, R221, R223, R236, R240, R391, R405, R406). -/
namespace Sys2Proof.Machine

open Bits

/-- The element of a tile register that lane j reaches at an index in a direction, as 32 * row + column (R191). -/
def tileCell (d : TileDir) (i j : Nat) : Nat :=
  match d with
  | .row => 32 * i + j
  | .col => 32 * j + i
  | .diag => 32 * j + (j + i) % 32

namespace State

-- the gate of the memory and hypothesis forms (R166)

/-- Orphans of the issuing path are redirected and its confirmed hypotheses rewritten (R166, R185, R188). Answers the
lanes that execute the instruction. -/
def gate (s : State) (h : Head) : Lanes × State :=
  let u := s.cur.unit
  let slot := s.cur.slot
  let m := s.execLanes h
  let ctx := s.curCtx
  let s := (lanes m).foldl (fun s l => s.rewriteLane u slot l) s
  let o := laneSet ((lanes m).filter fun l => s.orphan u slot l)
  if o = 0 then (m, s)
  else
    let hov := s.curW.hov
    if hov ≠ 0 ∧ hov.toNat % 8 ≠ 0 then (m &&& ~~~ o, s.raiseAll o Cause.orphanhov)
    else
      let p := s.curP
      let s := (lanes o).foldl (fun s l =>
        s.setHy u slot l (s.liveAncestor u ctx ((s.curW.hyOf l).toNat))) s
      let k := Warp.laneKey (p.mask &&& ~~~ o)
      let s := if hov ≠ 0 then s.moveLanes o hov p.j else s.exitLanes u slot o
      (m &&& ~~~ o, { s.modCur fun w => { w with run := if w.run = s.cur.path then k else w.run } with
        cur := { s.cur with path := k } })

-- effective addresses (R163)

/-- The byte offset of a memory operand. -/
def offOf (o : Off) (unit : Nat) : Dword :=
  match o with
  | .short x => BitVec.ofInt 64 (x.toInt * unit)
  | .lit x => x.signExtend 64

/-- The effective address of a lane, for accesses of a unit of bytes. -/
def eaOf (s : State) (m : MemRef) (unit : Nat) (l : Nat) : Nat :=
  match m.space with
  | .gl => (s.rv2 l m.base.toNat + offOf m.off unit).toNat
  | .glk | .kc => (s.rk m.base.toNat + offOf m.off unit).toNat
  | .sp | .spc _ => (((s.rv l m.base.toNat).setWidth 64 : Dword) + offOf m.off unit).toNat % 2 ^ 32

-- global accesses (R391)

/-- A translated access of a lane. -/
structure Acc where
  lane : Nat
  ea : Nat
  pa : Nat
  nocache : Bool
  repl : Bool
  deriving DecidableEq, Repr, Inhabited

/-- One lane's access: translated, aligned, its home not lost; or the cause that strikes it. -/
def accOf (s : State) (p : APath) (need : Need) (al : Nat) (l ea : Nat) : Except Strike Acc :=
  let u := s.cur.unit
  let range : Strike := ⟨l, tCause p ⟨5, 0, 7⟩, tInfo ⟨5, 0, 7⟩ need 0, BitVec.ofNat 64 ea⟩
  match s.xlate u (s.cur.slot != trapSlot) need ea with
  | .error e => .error ⟨l, tCause p e, tInfo e need 0, BitVec.ofNat 64 ea⟩
  | .ok x =>
    if ea % al ≠ 0 then .error range
    else if s.lostPa u.die x.pa then .error ⟨l, Cause.dielost, 0, BitVec.ofNat 64 ea⟩
    else .ok ⟨l, ea, x.pa, x.nocache, x.repl⟩

def oks {α β : Type} (xs : List (Except α β)) : List β := xs.filterMap fun x => match x with | .ok a => some a | .error _ => none
def errs {α β : Type} (xs : List (Except α β)) : List α := xs.filterMap fun x => match x with | .ok _ => none | .error e => some e

/-- The accesses of a set of lanes; those refused are struck (R391). -/
def globals (s : State) (p : APath) (m : Lanes) (need : Need) (al : Nat) (ea : Nat → Nat) : List Acc × State :=
  let rs := (lanes m).map fun l => s.accOf p need al l (ea l)
  (oks rs, s.raise (countLanes (errs rs)))

-- scratchpad accesses (R164)

/-- The launch whose teams a warp's remote accesses reach. -/
def launchOf (t : Team) (k : CoreKind) : Option (Nat × Nat) :=
  match k, t.src with
  | .sc, .grid q r => some (q, r)
  | .sc, _ => none
  | _, _ => t.issuer

/-- The team of the issuing warp, which a trap slot has not. -/
def curTeam (s : State) : Option Team :=
  if s.inTrap then none else s.team? s.cur.unit s.curW.team

/-- The lowest-indexed team of a launch on a core. -/
def teamOn (s : State) (u : UnitId) (ctx : Nat) (ln : Nat × Nat) : Option Team :=
  ((s.core u).teams.filter fun t => t.ctx == ctx && t.src == .grid ln.1 ln.2).foldl
    (fun (a : Option Team) t => match a with
      | none => some t
      | some b => if t.idx < b.idx then some t else some b) none

/-- The core and team that a scratchpad space reaches; a tile's own scratchpad belongs to no team. -/
def scrTarget (s : State) (a : Space) : Option (UnitId × Option Team) :=
  let u := s.cur.unit
  let own : Option (UnitId × Option Team) := match u.kind with
    | .sc => s.curTeam.map fun t => (u, some t)
    | .tt => some (u, none)
    | .rc => none
  match a with
  | .spc n =>
    if u.kind = .sc ∧ n.toNat = u.idx % 4 then own
    else
      let v : UnitId := ⟨.sc, u.die, 4 * clusterOf u + n.toNat⟩
      match s.curTeam.bind fun t => launchOf t u.kind with
      | some ln => if u.kind = .rc then none else (s.teamOn v s.curCtx ln).map fun t => (v, some t)
      | none => none
  | _ => own

/-- The byte of a unit's scratchpad at an offset of a grant (R262), or of a tile. -/
def scrAddr (t : Option Team) (ea : Nat) : Nat :=
  match t with
  | some t => 4096 * t.grant.getD (ea / 4096) 0 + ea % 4096
  | none => ea

/-- Valid offsets of a scratchpad space. -/
def scrSize (t : Option Team) : Nat := match t with | some t => 4096 * t.grant.length | none => 4194304

/-- One lane's scratchpad access of n bytes with an alignment: the offset and the byte of the owner's storage; or the cause
that strikes it. -/
def scrOf (s : State) (a : Space) (p : APath) (need : Need) (al n l ea : Nat) : Except Strike (Acc × UnitId × Nat) :=
  let range : Strike := ⟨l, tCause p ⟨5, 0, 7⟩, tInfo ⟨5, 0, 7⟩ need 0, BitVec.ofNat 64 ea⟩
  match s.scrTarget a with
  | none => .error range
  | some (u, t) =>
    if ea % al ≠ 0 ∨ scrSize t < ea + n then .error range
    else .ok (⟨l, ea, scrAddr t ea, false, false⟩, u, (t.map (·.uid)).getD 0)

/-- Bytes of an address range, cut where a block of 4 KiB ends. -/
def cut4k (a n : Nat) : List (Nat × Nat) :=
  let k := 4096 - a % 4096
  if n ≤ k then [(a, n)] else [(a, k), (a + k, n - k)]

/-- Where bytes at an offset stand in a unit's scratchpad: the granules of a grant need not be neighbours (R164, R262). -/
def scrPieces (t : Option Team) (ea n : Nat) : List (Nat × Nat) := (cut4k ea n).map fun p => (scrAddr t p.1, p.2)

/-- The bytes of a unit's scratchpad. -/
def scrBytes (s : State) (u : UnitId) (a n : Nat) : List Byte := (s.core u).scr.slice a n

def scrPut (s : State) (u : UnitId) (a : Nat) (bs : List Byte) : State :=
  s.modCore u fun c => { c with scr := memPut c.scr a bs }

/-- The value at an offset of a unit's scratchpad. -/
def scrRead (s : State) (u : UnitId) (t : Option Team) (ea n : Nat) : Nat :=
  ofBytes ((scrPieces t ea n).flatMap fun p => s.scrBytes u p.1 p.2)

-- copy channels (R221, R223)

/-- Whether an access to bytes of a scratchpad has to wait at a watermark: offsets are those of the team's grant on a
shader core, of the scratchpad on a tile. -/
def wmWaits (s : State) (u : UnitId) (team ea n : Nat) : Bool :=
  (s.core u).chans.any fun p =>
    let c := p.2
    (c.st == .armed || c.st == .filling) && (u.kind != .sc || c.team == team) &&
    decide (c.lo < ea + n ∧ ea < c.hi ∧ c.wm < ea + n)

-- soft errors (R405, R406)

/-- An uncorrectable granule of a storage among those that bytes of it touch. -/
def badIn (s : State) (st : Storage) (g a n : Nat) : Option Nat :=
  if s.bad = [] then none
  else (s.bad.find? fun b => b.two && b.st == st && decide (a / g ≤ b.addr ∧ b.addr ≤ (a + n - 1) / g)).map (·.addr)

/-- The first uncorrectable granule under pieces of a storage. -/
def badInPieces (s : State) (st : Storage) (g : Nat) (ps : List (Nat × Nat)) : Option Nat := ps.findSome? fun p => s.badIn st g p.1 p.2

/-- The granule of a stream-record slot's dword, of two: they lie behind those of a scratchpad. -/
def sqGranule (reg : Nat) : Nat := 2 ^ 20 + 2 * reg

/-- The granules of a core's own registers that are no warp's: elements of tile registers and dwords of stream-record slots. -/
def coreGranules (u : UnitId) (f : RFile) (reg : Nat) : List (Storage × Nat) :=
  match f with
  | .t => [(.tile u, reg)]
  | .sq => [(.sram u, sqGranule reg), (.sram u, sqGranule reg + 1)]
  | _ => []

/-- The cause and address of an uncorrectable granule that a read of such a register meets. -/
def coreBad (s : State) (u : UnitId) (f : RFile) (reg : Nat) : Option (Nat × Nat) :=
  if s.bad = [] then none
  else ((coreGranules u f reg).find? fun g => s.bad.any fun b => b.two && b.st == g.1 && b.addr == g.2).map fun g =>
    if f = .t then (Cause.tileecc, 4 * g.2) else (Cause.sramecc, 4 * (g.2 - 2 ^ 20))

/-- The cause and address of an uncorrectable granule that a read of bytes meets: in the slice where it holds the line,
else in memory. -/
def homeBad (s : State) (pa n : Nat) : Option (Nat × Nat) :=
  if s.bad = [] then none
  else if (s.lines.get (pa / 128)).isSome then (s.badIn .slice 8 pa n).map fun g => (Cause.sliceecc, 8 * g)
  else (s.badIn .dram 32 pa n).map fun g => (Cause.dramecc, 32 * g)

/-- Granules that a store covers whole hold good data again; the addresses of those it covers in part. -/
def healGranules (s : State) (st : Storage) (g a n : Nat) : List Nat × State :=
  if s.bad = [] then ([], s)
  else
    let hit := s.bad.filter fun b => b.st == st && decide (a / g ≤ b.addr ∧ b.addr ≤ (a + n - 1) / g)
    let whole := fun (b : BadGranule) => decide (a ≤ g * b.addr ∧ g * b.addr + g ≤ a + n)
    (((hit.filter fun b => !whole b && b.two).map (·.addr)),
     { s with bad := s.bad.filter fun b => !(hit.contains b && whole b) })

/-- The storage a unit's scratchpad is, and its cause. -/
def scrStorage (u : UnitId) : Storage × Nat := match u.kind with | .tt => (.tile u, Cause.tileecc) | _ => (.sram u, Cause.sramecc)

/-- A report with no lane, to the fault queue of a context (R387). -/
def note (s : State) (ctx : Nat) (u : UnitId) (slot : Nat) (cause : Nat) (addr info : Dword) : State :=
  s.report ctx ⟨cause, resOf cause, some u, 0, s.warpIdent u slot, 0, addr, info, 0, s.pace u.die⟩

-- completion

/-- An access of a warp is complete, with its results. -/
def endOp (s : State) (o : MemOp) (res : List RegVal) : State :=
  let s := { s with ops := s.ops.filter fun x => x.id != o.id }
  let s := s.pendDone o.unit o.slot o.instr res
  if o.tag = 0 then s else s.hypFree o.ctx o.tag.toNat

/-- The results of an access for the value it answers (R165, R169). -/
def resultsOf (o : MemOp) (val : Nat) : List RegVal :=
  let x := if o.signed then wrap 64 (signed (8 * o.n) val) else val
  o.dst.zipIdx.map fun p =>
    match p.1.file with
    | .v => { p.1 with val := BitVec.ofNat 64 (field x (32 * p.2) 32) }
    | .t | .x => { p.1 with val := BitVec.ofNat 64 (field x (32 * p.2) 32) }
    | .p => { p.1 with val := BitVec.ofNat 64 x }
    | _ => { p.1 with val := BitVec.ofNat 64 (x / 2 ^ (64 * p.2)) }

/-- A lane is taken out of the path, join or loop set in which it stands; answers the record it carried. -/
def unplace (w : Warp) (l : Nat) : Option Nat × Warp :=
  let m := lane l
  let j : Option Nat := match w.pathOf l with
    | some p => p.j
    | none => match (List.range 31).find? fun j => match w.joins.get j with | some r => r.arrived.getLsbD l | none => false with
      | some j => some j
      | none => ((List.range 4).find? fun n => (w.loops.get n).wback.getLsbD l || (w.loops.get n).wexit.getLsbD l).bind
          fun n => (w.loops.get n).lx
  let w := w.leave m
  (j, { w with
    joins := (List.range 31).foldl (fun t j => match t.get j with
      | some r => t.set j (some { r with arrived := r.arrived &&& ~~~ m })
      | none => t) w.joins
    loops := (List.range 4).foldl (fun t n => t.modify n fun x =>
      { x with wback := x.wback &&& ~~~ m, wexit := x.wexit &&& ~~~ m }) w.loops })

/-- Lanes of a warp are parked at an instruction that has issued: they go back to it, wherever they stand (R363). A lane
that has ended or is parked is left. -/
def parkBack (s : State) (u : UnitId) (slot : Nat) (pc : Dword) (xs : List Strike) : State :=
  match s.warp u slot with
  | none => s
  | some w =>
    if slot = trapSlot then
      match xs with
      | [] => s
      | x :: _ => s.hfault u w.ctx pc x.info x.addr
    else
      let xs := xs.filter fun x => w.live.getLsbD x.lane && !(w.parkedLanes).getLsbD x.lane
      let (word, lit) := match s.fetchWord u true pc.toNat with
        | .ok wd => (wd, if wordLen wd = 16 then (match s.fetchWord u true (pc + 8).toNat with
            | .ok l => l | .error _ => 0) else 0)
        | .error _ => ((0 : Dword), (0 : Dword))
      let rs := xs.foldl (fun (a : Warp × List Parked) x =>
        let (j, w) := unplace a.1 x.lane
        (w, a.2 ++ [⟨x.lane, s.mkRec u w x pc word lit j⟩])) (w, [])
      (s.setWarp u slot (some rs.1)).parkLanes u slot rs.2

/-- A fault found at an access after its instruction has issued: the access is gone, the lanes are parked (R363, R384,
R406). -/
def parkLate (s : State) (o : MemOp) (xs : List Strike) : State :=
  match s.warp o.unit o.slot with
  | none => { s with ops := s.ops.filter fun x => x.id != o.id }
  | some w =>
    let pc := ((w.pend.find? fun p => p.id == o.instr).map (·.pc)).getD 0
    (s.endOp o []).parkBack o.unit o.slot pc xs

-- ordering of a warp's accesses (R165, R168, R175, R176, R240)

/-- Two accesses touch a common byte. -/
def overlaps (a b : MemOp) : Bool :=
  a.owner == b.owner && decide (a.pa < b.pa + b.n ∧ b.pa < a.pa + a.n)

/-- Whether an earlier access of the warp, not yet complete, no longer holds up a later one: an acquire holds it until its
answer has moved the agent's program time, and a release waits until what came before is settled at its scope (R168, R237,
R246). -/
def passed (e o : MemOp) : Bool :=
  let perf := e.stage == .performed
  let same := e.path == o.path && (e.lanes &&& o.lanes) != 0
  if same then
    (!overlaps e o || (if o.kind == .load then perf && e.kind == .load else perf)) &&
    !acquires e.ord && (!releases o.ord || settled e o.sc)
  else if e.instr == o.instr then !overlaps e o || perf
  else true

/-- An access may be performed: nothing earlier of its warp holds it up. -/
def ordReady (s : State) (o : MemOp) : Bool :=
  s.ops.all fun e => !(e.unit == o.unit && e.slot == o.slot && decide (e.id < o.id)) || passed e o

-- leased copies (R236, R238)

/-- The copy of a line that an agent may read: held, and not expired. -/
def hitCopy (s : State) (agent line : Nat) : Option Copy :=
  let a := s.agent agent
  match a.copies.get line with
  | some c => if precedes c.rts a.pts then none else some c
  | none => none

/-- A load that takes a lease is served from the agent's copy where it may be (R236). A copy with an uncorrectable error
is dropped and reported (R406). -/
def tryHit (s : State) (o : MemOp) : State :=
  if o.kind ≠ .load ∨ !o.leased ∨ o.sent ∨ !s.ordReady o then s
  else
    let n := unitNo o.unit
    match s.hitCopy n (o.pa / 128) with
    | none => { s with ops := s.ops.map fun (x : MemOp) => if x.id == o.id then { x with sent := true } else x }
    | some c =>
      match s.badIn (.cache o.unit) 4 o.pa o.n with
      | some g =>
        let s := { s with bad := s.bad.filter fun b => !(b.st == Storage.cache o.unit && b.addr == g) }
        let s := s.modAgent n fun a => { a with copies := a.copies.set (o.pa / 128) none }
        let s := { s with ops := s.ops.map fun (x : MemOp) => if x.id == o.id then { x with sent := true } else x }
        s.note o.ctx o.unit o.slot Cause.cacheecc (BitVec.ofNat 64 (4 * g)) 0
      | none =>
        let s := s.modAgent n fun a => { a with pts := later a.pts c.wts }
        s.endOp o (resultsOf o (ofBytes ((c.data.drop (o.pa % 128)).take o.n)))

-- issue

/-- An access before it has its name. -/
def newOp (s : State) (k : OpKind) (p : APath) (a : Acc) : MemOp :=
  { (default : MemOp) with
    unit := s.cur.unit, slot := s.cur.slot, lane := a.lane, lanes := lane a.lane, path := p, kind := k, ea := BitVec.ofNat 64 a.ea
    pa := a.pa, ctx := s.curCtx, lease := s.curW.lease, repl := a.repl, since := s.pace s.cur.unit.die }

/-- Requester class of an access path of a unit (R267). -/
def reqClass (u : UnitId) (p : APath) : Nat :=
  match p with
  | .cpy | .net => 3
  | .trv => 6
  | .sys | .fetch | .lsu | .mtx | .vec => match u.kind with | .tt => 2 | _ => 1

/-- A bucket that is full (R269), in units of 1/16,000 byte. -/
def fullBucket (s : State) (d n c : Nat) : Int := 16000 * 1024 * field (s.reg d (Win.qos n c)).toNat 16 16

/-- Bytes that a request is charged: 128 for each line it touches (R269). -/
def lineBytes (pa n : Nat) : Nat := if n = 0 then 0 else 128 * ((pa + n - 1) / 128 - pa / 128 + 1)

/-- A request goes to its regulator, where that has a rate (R269). -/
def regulate (s : State) (o : MemOp) : State :=
  let d := o.unit.die
  let n := (s.unitSlice o.unit).pidx
  let c := reqClass o.unit o.path
  if o.owner.isSome && o.kind != .ldm || field (s.reg d (Win.qos n c)).toNat 32 32 == 0 then s
  else
    let b := ((s.die d).buckets.get (8 * n + c)).getD ⟨s.fullBucket d n c, s.pace d, [], 0⟩
    s.modDie d fun x => { x with
      buckets := x.buckets.set (8 * n + c) (some { b with queue := b.queue ++ [(o.id, lineBytes o.pa o.n)] }) }

/-- Accesses of an instruction enter flight under its token, and those that a leased copy serves are served. -/
def issueOps (s : State) (h : Head) (m : Lanes) (os : List MemOp) : State :=
  if os = [] then s
  else
    let id := s.nextId
    let s := s.addPend h m true os.length []
    let os := os.zipIdx.map fun p => { p.1 with id := s.nextId + p.2, instr := id }
    let s := { s with nextId := s.nextId + os.length, ops := s.ops ++ os }
    let s := os.foldl tryHit s
    os.foldl (fun s o => if s.ops.any fun x => x.id == o.id then s.regulate o else s) s

/-- Lanes of accesses. -/
def accLanes (as : List Acc) : Lanes := laneSet (as.map (·.lane))

end State

end Sys2Proof.Machine
end

