-- ==== Sys2Proof/Machine/Issue.lean ====
section
/-! DEFINITION. The issue of an instruction: which path of a warp issues, tokens, fetch and decoding, word causes, the
checking scoreboard and what an unchecked hazard may see, congestion admission, ages and the watchdog (R34, R51, R55 to
R59, R266, R363, R372, R379, R382, R406). -/
namespace Sys2Proof.Machine

open Bits

-- choosing a path (R34)

namespace Warp

def readyPaths (w : Warp) : List Path := w.paths.filter fun p => p.wait = .ready

/-- The better of two paths under rules 2 and 3: the smaller M, then the greater age, then the lower PC. -/
def better (w : Warp) (a b : Path) : Path :=
  let ma := w.memCount a.mask
  let mb := w.memCount b.mask
  if mb < ma then b else if ma < mb then a
  else if a.age < b.age then b else if b.age < a.age then a
  else if b.pc.toNat < a.pc.toNat then b else a

/-- The path of greater age, of equal ones that of the lower PC (rules 1 and 3). -/
def older (a b : Path) : Path := if a.age < b.age ∨ (a.age = b.age ∧ b.pc.toNat < a.pc.toNat) then b else a

/-- The path that issues next, and whether its age alone made it (rule 1). A running path that has waited is chosen afresh like
any other. -/
def choose (w : Warp) : Option (Path × Bool) :=
  match w.readyPaths with
  | [] => none
  | p :: r =>
    let running := if w.run < 32 ∧ !w.stalled then w.readyPaths.find? fun q => q.mask.getLsbD w.run else none
    let others := match running with
      | some q => w.readyPaths.filter fun (x : Path) => x.mask != q.mask
      | none => w.readyPaths
    match others.filter fun (x : Path) => decide (992 ≤ x.age) with
    | q :: t => some (t.foldl older q, true)
    | [] => match running with
      | some q => some (q, false)
      | none => some (r.foldl w.better p, false)

/-- A path waits for a memory result: its own resolve or arrival. -/
def awaitsMemory (p : Path) : Bool := match p.wait with | .memArrival _ => true | _ => false

/-- The running path waited on a token or on a memory result, and another path runs (R382). The path that issued last is the one of
age 0. -/
def forced (w : Warp) (k : Nat) : Bool :=
  match if w.run < 32 then w.pathOf w.run else w.paths.find? fun p => p.age == 0 && awaitsMemory p with
  | some p => (w.stalled || awaitsMemory p) && !p.mask.getLsbD k
  | none => false

/-- Every token of a mask is zero (R57). -/
def tokensZero (w : Warp) (wtm : BitVec 6) : Bool := (List.range 6).all fun i => !wtm.getLsbD i || w.tok.get i == 0

end Warp

-- latency classes (R56)

/-- The fixed latency of an instruction, if it has one. -/
def fixedLat (i : Instr) : Option Nat :=
  match i with
  | .iadd .. | .isub .. | .imul .. | .imulh .. | .imad .. | .imadw .. | .imin .. | .imax .. | .iabs .. | .and .. | .or ..
  | .xor .. | .andn .. | .not .. | .lop3 .. | .shl .. | .shr .. | .sar .. | .rotl .. | .clz .. | .ctz .. | .popc ..
  | .brev .. | .bfx .. | .bfi .. | .ilv .. | .dlv .. | .icmp .. | .isel .. | .mov .. | .movi .. | .movk .. | .lea ..
  | .plop .. | .pmov .. => some 4
  | .srd _ _ _ sp => if sp.toNat = 0x073 then none else some 4
  | .fadd .. | .fsub .. | .fmul .. | .ffma .. | .fmin .. | .fmax .. | .fcmp .. | .frnd .. | .ffrc .. | .hxadd ..
  | .hxmul .. | .hxfma .. | .hxmax .. => some 5
  | .cvt .. | .pack .. | .unpk .. | .part .. | .shfl .. | .vote .. | .bcast .. | .matchV .. => some 6
  | _ => none

-- registers of an instruction, as physical ones

/-- The registers of an operand with the numbers as the program names them (R144): (file, physical, named). -/
def regsOfOpd (w : Warp) (o : Opd) : List (RFile × Nat × Nat) :=
  (List.range o.n).map fun i => (o.file, if o.file = .v then w.phys (o.reg + i) else o.reg + i, o.reg + i)

/-- The guard is read too (R51). -/
def guardRead (h : Head) : List (RFile × Nat × Nat) := if h.pg = 7 then [] else [(.p, h.pg.toNat, h.pg.toNat)]

def readsOf (w : Warp) (h : Head) (i : Instr) : List (RFile × Nat × Nat) :=
  (guardRead h ++ (i.opds.filter fun o => !o.wr).flatMap (regsOfOpd w)).filter fun r => !(r.1 == .p && r.2.1 == 7)

def writesOf (w : Warp) (i : Instr) : List (RFile × Nat × Nat) :=
  ((i.opds.filter (·.wr)).flatMap (regsOfOpd w)).filter fun r => !(r.1 == .p && r.2.1 == 7)

-- the checking scoreboard (R58, R379)

/-- Whether a variable-latency producer's result is still to be written, and whether its sources are still to be read. -/
def Prod.pending (w : Warp) (q : Prod) : Bool := q.lat = 0 && w.pend.any fun p => p.id == q.id
def Prod.unread (w : Warp) (q : Prod) : Bool :=
  q.lat = 0 && w.pend.any fun p => p.id == q.id && (p.tok.isSome || q.tok.isNone)

/-- A fixed-latency result that is not yet due at the compiled distance (R55). -/
def Prod.due (q : Prod) : Bool := q.lat != 0 && decide (q.dist < q.lat)

/-- Fixed-latency results that are in place at an instruction that waits on the tokens of `wtm`: their token is among those, or
their latency has passed for sure, in tenths of cycles, wherever in its tick the producer has issued (R57, R58; log 9). -/
def Prod.inPlace (now rate : Nat) (wtm : BitVec 6) (q : Prod) : Bool :=
  q.lat != 0 && (decide (q.since + rate + 10 * q.lat ≤ now) || (match q.tok with | some t => wtm.getLsbD t | none => false))

/-- The producers whose results may still be outstanding. -/
def Warp.pruned (w : Warp) (now rate : Nat) (wtm : BitVec 6) : Warp :=
  { w with prods := w.prods.filter fun (q : Prod) => !q.inPlace now rate wtm }

def sbInfo (pc : Dword) (q : Prod) (short : Nat) (r : RFile × Nat × Nat) : Dword :=
  BitVec.ofNat 64 (pack [(8, r.2.2), (3, fileCode r.1), (3, q.tok.getD 7), (2, 0), (16, short), (32, ((pc - q.pc).toNat / 8))])

/-- What a producer makes of an instruction that reads and writes the given registers (R58). -/
def sbOne (w : Warp) (pc : Dword) (m : Lanes) (rd wr : List (RFile × Nat × Nat)) (q : Prod) : Option (Nat × Dword) :=
  let near := (q.lanes &&& m) != 0
  let on := fun (r : RFile × Nat × Nat) => near || (q.lat == 0 && !perLaneFile r.1)
  let defd := fun (r : RFile × Nat × Nat) => q.defs.contains (r.1, r.2.1) && on r
  let used := fun (r : RFile × Nat × Nat) => q.uses.contains (r.1, r.2.1) && on r
  if q.due then
    match rd.find? fun r => near && defd r with
    | some r => some (Cause.sbfix, sbInfo pc q (q.lat - q.dist) r)
    | none => match wr.find? fun r => near && defd r with
      | some r => some (Cause.sbwrite, sbInfo pc q 0 r)
      | none => none
  else if q.pending w then
    match rd.find? defd with
    | some r => some (Cause.sbvar, sbInfo pc q 0 r)
    | none => match wr.find? fun r => defd r || (q.unread w && used r) with
      | some r => some (Cause.sbwrite, sbInfo pc q 0 r)
      | none => none
  else none

/-- The first producer in program order that an instruction breaks (R379). -/
def sbCheck (w : Warp) (pc : Dword) (m : Lanes) (rd wr : List (RFile × Nat × Nat)) : Option (Nat × Dword) :=
  w.prods.findSome? (sbOne w pc m rd wr)

/-- With the scoreboard off, what a hazarded read may see instead of the register: the value a fixed-latency result
replaced, or the result that a variable-latency producer is still to write (R59). -/
def hazardVals (w : Warp) (m : Lanes) : List RegVal :=
  w.prods.flatMap fun q =>
    if q.due && (q.lanes &&& m) != 0 then q.olds
    else if q.pending w then ((w.pend.find? fun p => p.id == q.id).map (·.res)).getD []
    else []

/-- Registers, lane by lane, that a fixed-latency producer is still to write (R59). -/
def hazardRegs (w : Warp) (m : Lanes) : List (RFile × Nat × Nat) :=
  w.prods.flatMap fun q =>
    if q.due && (q.lanes &&& m) != 0 then q.olds.map fun r => (r.file, r.reg, r.lane) else []

/-- Compiled distances after an instruction of a path: producers gain its STL + 1 in the lanes of the path (R55). -/
def addDist (m : Lanes) (stl : Nat) (qs : List Prod) : List Prod :=
  qs.flatMap fun q =>
    let a := q.lanes &&& m
    let b := q.lanes &&& ~~~ m
    (if a = 0 then [] else [{ q with lanes := a, dist := q.dist + stl + 1 }]) ++ (if b = 0 then [] else [{ q with lanes := b }])

-- congestion admission (R266)

/-- An instruction that sends requests onto the mesh (R266). -/
def isMesh (i : Instr) : Bool :=
  let gl := fun (m : MemRef) => match m.space with | .sp => false | _ => true
  match i with
  | .ld _ _ m .. | .st _ _ m .. | .lds _ _ m .. | .sts _ _ m .. => gl m
  | .atom _ _ _ _ _ m .. | .atoms _ _ _ _ _ m .. | .red _ _ _ m .. => gl m
  | .tld _ _ m .. | .tst _ _ m .. => gl m
  | .ldk .. | .ldm .. | .pref .. | .ecpy .. => true
  | _ => false

namespace State

def capOf (s : State) (u : UnitId) : Nat := field (s.reg u.die Win.mbCfg).toNat (8 * s.congLevel u) 8

/-- Requests for admission are met oldest first while the set is below the cap. -/
def admitNext (s : State) (u : UnitId) : State :=
  s.modCore u fun c =>
    let here := c.admitted.filter (s.staysAdmitted u)
    let room := s.capOf u - here.length
    { c with
      admitted := here ++ (c.admitQ.take room).map fun n => ⟨n, 0, s.cycles u⟩
      admitQ := c.admitQ.drop room }

/-- A memory-bound warp asks to issue a mesh instruction: whether it may. -/
def admission (s : State) (u : UnitId) (slot : Nat) (i : Instr) : Bool × State :=
  match s.warp u slot with
  | none => (true, s)
  | some w =>
    if u.kind = .tt ∨ !isMesh i ∨ !s.memBound u w then (true, s)
    else
      let c := s.core u
      let s := if (c.admitted.any fun a => a.slot == slot) || c.admitQ.contains slot then s
        else s.modCore u fun c => { c with admitQ := c.admitQ ++ [slot] }
      let s := s.admitNext u
      ((s.core u).admitted.any fun a => a.slot == slot, s)

/-- An admitted warp has issued a mesh instruction: after 16 of them it leaves the set (R266). -/
def countAdmitted (s : State) (u : UnitId) (slot : Nat) (i : Instr) : State :=
  if !isMesh i then s
  else s.modCore u fun c => { c with admitted := (c.admitted.map fun a =>
    if a.slot == slot then { a with count := a.count + 1, idle := s.cycles u } else a).filter fun a => decide (a.count < 16) }

-- soft errors in registers (R405, R406)

/-- The granule of a register: v lane by lane, k in halves, p as a whole. -/
def regGranules (r : RFile × Nat) (l : Nat) : List Nat :=
  match r.1 with
  | .v => [256 * l + r.2]
  | .k => [16384 + 2 * r.2, 16384 + 2 * r.2 + 1]
  | .p => [32768 + r.2]
  | _ => []

def regBad (s : State) (u : UnitId) (slot : Nat) (r : RFile × Nat) (l : Nat) : Bool :=
  s.bad.any fun b => b.two && b.st == .reg u slot && (regGranules r l).contains b.addr

/-- Registers that are written: a granule written whole is good again. Of p, whose granule holds every lane's bit, one written in part
keeps its error and is reported (R405, R406). -/
def healRegs (s : State) (u : UnitId) (slot : Nat) (rs : List (RFile × Nat × Nat)) : State :=
  if s.bad = [] then s
  else
    let set := fun (b : BadGranule) =>
      if b.st = .reg u slot ∧ 32768 ≤ b.addr then laneSet ((rs.filter fun r => r.1 == .p && r.2.1 == b.addr - 32768).map (·.2.2)) else 0
    let whole := fun (b : BadGranule) => set b == BitVec.allOnes 32 ||
      (b.st == .reg u slot && rs.any fun r => r.1 != .p && (regGranules (r.1, r.2.1) r.2.2).contains b.addr) ||
      rs.any fun r => (coreGranules u r.1 r.2.1).contains (b.st, b.addr)
    let part := s.bad.filter fun b => b.two && set b != 0 && !whole b
    let ctx := ((s.warp u slot).map (·.ctx)).getD 0
    part.foldl (fun (s : State) b =>
      s.note ctx u slot Cause.regecc 0 (BitVec.ofNat 64 (pack [(8, b.addr - 32768), (3, fileCode .p), (3, 7)])))
      { s with bad := s.bad.filter fun b => !whole b }

/-- Lanes that read a register with an uncorrectable error, with INFO as R379 lays it out (R406). -/
def regEcc (s : State) (u : UnitId) (slot : Nat) (m : Lanes) (rd : List (RFile × Nat × Nat)) : List Strike :=
  if s.bad = [] then []
  else (lanes m).filterMap fun l =>
    (rd.find? fun r => s.regBad u slot (r.1, r.2.1) l).map fun r =>
      ⟨l, Cause.regecc, BitVec.ofNat 64 (pack [(8, r.2.2), (3, fileCode r.1), (3, 7)]), 0⟩

/-- Registers of its core, other than a warp's, that an instruction reads in a lane. -/
def coreReads (s : State) (i : Instr) (m : Lanes) (l : Nat) : List (RFile × Nat) :=
  match i with
  | .movt _ t _ false x =>
    let idx := match x with
      | .imm n => n.toNat
      | .k r => (s.rk r.toNat).toNat % 32
      | .v r => (s.rv (Warp.laneKey m) r.toNat).toNat % 32
    [(.t, 1024 * t.n.toNat + tileCell t.dir idx l)]
  | .tst _ t .. => (List.range 32).map fun c => (.t, 1024 * t.n.toNat + tileCell t.dir l c)
  | .srd _ _ _ sp => if 0x100 ≤ sp.toNat ∧ sp.toNat < 0x180 then [(.sq, sp.toNat - 0x100)] else []
  | _ => []

/-- Lanes that read such a register with an uncorrectable error (R406). -/
def coreEcc (s : State) (u : UnitId) (m : Lanes) (i : Instr) : List Strike :=
  if s.bad = [] then []
  else (lanes m).filterMap fun l => ((s.coreReads i m l).findSome? fun r => s.coreBad u r.1 r.2).map fun x =>
    ⟨l, x.1, 0, BitVec.ofNat 64 x.2⟩

-- fetch and decoding

/-- An uncorrectable error that the fetch of a word meets (R406). -/
def fetchBad (s : State) (u : UnitId) (user : Bool) (va : Nat) : Option (TFault × Nat) :=
  if s.bad = [] then none
  else match s.xlate u user .exec va with
    | .ok x => (s.homeBad x.pa 8).map fun b => (⟨b.1, 0, 0⟩, b.2)
    | .error _ => none

/-- A path's instruction as fetched: word, literal, or the refusal of a fetch with its address. -/
def fetch (s : State) (u : UnitId) (slot : Nat) (pc : Dword) : Except (TFault × Nat) (Dword × Dword) :=
  let user := slot != trapSlot
  if pc.toNat % 8 ≠ 0 then .error (⟨5, 0, 7⟩, pc.toNat)
  else match s.fetchWord u user pc.toNat with
  | .error e => .error (e, pc.toNat)
  | .ok w => match s.fetchBad u user pc.toNat with
    | some e => .error e
    | none =>
    if wordLen w = 16 then
      let a := (pc + 8).toNat
      match s.fetchWord u user a, s.fetchBad u user a with
      | .error e, _ => .error (e, a)
      | .ok _, some e => .error e
      | .ok l, none => .ok (w, l)
    else .ok (w, 0)

/-- A team of a grid issues only once its core has taken on its carve-out (R263). -/
def carveReady (s : State) (u : UnitId) (uid : Nat) : Bool :=
  match s.team? u uid with
  | some t => (match t.src with | .grid .. => t.carve == (s.core u).carve | _ => true)
  | none => true

/-- Whether a unit may issue: its slice runs, nothing halts it, and the warp is not stopped by its watchdog. -/
def mayIssue (s : State) (u : UnitId) (slot : Nat) : Bool :=
  (s.unitSlice u).st == .running && !(s.core u).halted &&
  (match s.warp u slot with | some w => !w.wdTrap && (slot == trapSlot || s.carveReady u w.team) | none => false) &&
  (slot != trapSlot || (s.core u).trap.isSome)

/-- What an issue comes to: a state in which nothing is to be executed, or an instruction with the state before and
after the warp counts the issue. -/
inductive Prep where
  | stop (s : State)
  | run (i : Instr) (h : Head) (byAge : Bool) (before after : State)

/-- The issue port of a slot; the trap slot has one of its own (R21, log 80). -/
def issuePort (u : UnitId) (slot : Nat) : Nat :=
  if slot = trapSlot then 4 else match u.kind with | .sc => slot / 16 | _ => 0

/-- Ages and the watchdog count of an issue, and the turn of its port (R21, R34, R382). -/
def countIssue (s : State) (forced : Bool) : State :=
  let k := s.cur.path
  let s := s.modCur fun w => { w with
    wdcnt := if forced then 1 else w.wdcnt + 1
    paths := w.paths.map fun p => if p.mask.getLsbD k then { p with age := 0 } else { p with age := p.age + 1 } }
  s.modCore s.cur.unit fun c => { c with turn := c.turn.set (issuePort s.cur.unit s.cur.slot) (s.cur.slot + 1) }

/-- A path that waits on its tokens at issue (R34, R57). -/
def awaitToken (s : State) (u : UnitId) (slot k : Nat) : State :=
  s.modWarp u slot fun w => { w with
    run := k, stalled := true
    paths := w.paths.map fun q => if q.mask.getLsbD k then { q with wait := .token } else q }

/-- Lanes of a path whose parking PARK has asked for and which have an instruction in flight, which completes first (R160). -/
def parkHeld (w : Warp) (p : Path) : Bool :=
  w.pend.any fun (q : Pend) => (q.lanes &&& p.mask &&& w.parkReq) != 0

/-- A warp slot has a path that is ready to issue (R21). -/
def slotReady (s : State) (u : UnitId) (slot : Nat) : Bool :=
  s.mayIssue u slot && (match s.warp u slot with
    | some w => (match w.choose with | some (p, _) => !parkHeld w p | none => false)
    | none => false)

/-- The slots of a port in slot order, from the one after that it last issued (R21). -/
def portSlots (s : State) (u : UnitId) (port : Nat) : List Nat :=
  let all := if port = 4 then [trapSlot] else (List.range (slotCount u.kind)).filter fun i => issuePort u i == port
  let t := (s.core u).turn.get port
  (all.filter fun i => decide (t ≤ i)) ++ all.filter fun i => decide (i < t)

/-- The slot that a port issues from: the first of its ready warps in turn (R21). -/
def portChoice (s : State) (u : UnitId) (port : Nat) : Option Nat := (s.portSlots u port).find? (s.slotReady u)

/-- Whether an instruction is one that an orphan does not execute (R166). -/
def gated (word : Dword) : Bool := decide (0x70 ≤ field word.toNat 56 8 ∧ field word.toNat 56 8 ≤ 0x81)

/-- Whether the team of a warp slot holds the tile registers (R191, R227). -/
def slotTiles (s : State) (u : UnitId) (slot : Nat) : Bool :=
  slot != trapSlot && (match (s.warp u slot).bind fun w => s.team? u w.team with | some t => t.tiles | none => false)

/-- RSVCOMBO of a gang form: the team does not hold the tile registers, or SEL comes with GNG.COUNT = 0 (R227, R372). -/
def comboCauses (s : State) (u : UnitId) (slot : Nat) (i : Instr) : List Nat :=
  match i with
  | .gang .. | .movt .. | .tzero .. | .tld .. | .tst .. => causeIf (!s.slotTiles u slot) Cause.rsvcombo
  | .mma _ _ _ _ _ _ sel =>
    causeIf (!s.slotTiles u slot || (sel && field (match s.warp u slot with | some w => w.gng.toNat | none => 0) 32 3 == 0)) Cause.rsvcombo
  | _ => []

/-- The word causes of a decoded instruction at a warp slot (R363, R372). -/
def wordCauses (s : State) (u : UnitId) (slot gran : Nat) (d : Decoded) : List Nat :=
  d.causes ++ d.instr.kindCauses u.kind ++ d.instr.heldCauses gran ++ s.comboCauses u slot d.instr

/-- An instruction whose tokens are clear, up to its execution: orphans are redirected before any fault (R166), then word
causes, the scoreboard, soft errors and congestion admission. -/
def prepWord (s : State) (u : UnitId) (slot : Nat) (byAge forced : Bool) (d : Decoded) (h : Head) : Prep :=
  let i := d.instr
  let chk := (s.ctxDesc s.curCtx).cfg.getLsbD 0
  let m := s.curP.mask
  let s := s.modCur fun w => w.pruned (s.cycles u) (s.clockRate u) h.wtm
  let s := if chk then s else { s with cur := { s.cur with hz := hazardVals s.curW m, hw := hazardRegs s.curW m } }
  let s := if gated s.cur.word then (s.gate h).2 else s
  let w := s.curW
  let p := s.curP
  let stop := fun (f : State → State) => Prep.stop (f (s.countIssue forced))
  if p.mask = 0 then stop id
  else match Cause.first (s.wordCauses u slot w.gran d) with
  | some c => stop fun s => s.raiseAll p.mask c (wordInfo s.cur.word)
  | none =>
    let rd := readsOf w h i
    match if chk then sbCheck w p.pc p.mask rd (writesOf w i) else none with
    | some (c, info) => stop fun s => s.raiseAll p.mask c info
    | none =>
      match s.regEcc u slot (s.execLanes h) rd ++ s.coreEcc u (s.execLanes h) i with
      | x :: xs => stop fun s => s.raise (x :: xs)
      | [] =>
        let (ok, s) := s.admission u slot i
        if !ok then .stop s.blocked else .run i h byAge s (s.countIssue forced)

/-- The issue of a warp slot up to the execution of its instruction. -/
def prep (s : State) (u : UnitId) (slot : Nat) : Prep :=
  if !s.mayIssue u slot then .stop s
  else match s.warp u slot with
  | none => .stop s
  | some w =>
    match w.choose with
    | none => .stop s
    | some (p, byAge) =>
      let k := Warp.laneKey p.mask
      if p.mask &&& w.parkReq ≠ 0 then
        if parkHeld w p then .stop s
        else .stop (s.parkOutside u slot ((lanes (p.mask &&& w.parkReq)).map fun l => ⟨l, Cause.hpark, 0, 0⟩))
      else
      if w.due.any fun x => p.mask.getLsbD x.lane then .stop (s.parkDue u slot p.mask)
      else
      let forced := w.forced k
      let start (len : Nat) (wd lit : Dword) : State :=
        { s.modWarp u slot fun w => { w with run := k, stalled := false } with cur := ⟨u, slot, k, len, wd, lit, [], []⟩ }
      match s.fetch u slot p.pc with
      | .error (e, a) =>
        let s1 := (start 8 0 0).countIssue forced
        .stop (s1.raise ((lanes p.mask).map fun l =>
          ⟨l, tCause .fetch e, tInfo e .exec (count p.mask), BitVec.ofNat 64 a⟩))
      | .ok (wd, lit) =>
        let d := decodeWord wd lit
        match d.instr.head with
        | none => .stop s
        | some h =>
          let full := s.wordCauses u slot w.gran d == [] && (match State.tokOf h with | some t => decide (63 ≤ w.tok.get t) | none => false)
          if !w.tokensZero h.wtm ∨ full then .stop (s.awaitToken u slot k)
          else (start d.len wd lit).prepWord u slot byAge forced d h

-- after the execution

/-- The issuing path is blocked at its instruction. -/
def isBlocked (s : State) : Bool :=
  match s.curW.pathOf s.cur.path with
  | some p => p.wait == .reissue
  | none => false

/-- What the scoreboard keeps of an executed instruction (R55, R58, R59): compiled distances, and a producer's record
while its results are not due or not written. -/
def book (b s : State) (i : Instr) (h : Head) : State :=
  let w := b.curW
  let p := b.curP
  let now := b.cycles b.cur.unit
  let on := b.execLanes h
  let wr := writesOf w i
  let rd := readsOf w h i
  let mine := (s.curW.pend.find? fun q => decide (b.nextId ≤ q.id) && q.pc == p.pc).map (·.id)
  let lat := (fixedLat i).getD 0
  let olds : List RegVal := if lat = 0 then [] else wr.flatMap fun r =>
    if perLaneFile r.1 then (lanes on).map fun l => ⟨r.1, r.2.1, l, w.current r.1 r.2.1 l⟩
    else [⟨r.1, r.2.1, 0, w.current r.1 r.2.1 0⟩]
  let new : List Prod :=
    if on = 0 then []
    else if lat ≠ 0 then
      if wr = [] then [] else [⟨p.pc, p.mask, 0, lat, 0, State.tokOf h, wr.map fun r => (r.1, r.2.1), [], olds, now⟩]
    else match mine with
      | some id => [⟨p.pc, p.mask, id, 0, 0, State.tokOf h, wr.map fun r => (r.1, r.2.1), rd.map fun r => (r.1, r.2.1), [], now⟩]
      | none => []
  let s := s.modCur fun w' =>
    let clob := fun (q : Pend) =>
      if decide (b.nextId ≤ q.id) then b.cur.hw.filter fun x => wr.any fun r => r.1 == x.1 && r.2.1 == x.2.1
      else match w.prods.find? fun x => x.lat = 0 && x.id == q.id with
        | none => []
        | some x => wr.flatMap fun r => if x.defs.contains (r.1, r.2.1) then
            (if perLaneFile r.1 then (lanes on).map fun l => (r.1, r.2.1, l) else [(r.1, r.2.1, 0)]) else []
    { w' with
      pend := w'.pend.map fun q => { q with clob := q.clob ++ clob q }
      prods := (addDist p.mask h.stl.toNat (w'.prods ++ new)).filter fun q => q.due || q.pending w' }
  let sq := match i with
    | .swr _ _ _ sp => if on ≠ 0 ∧ 0x100 ≤ sp.toNat ∧ sp.toNat < 0x180 then [(RFile.sq, sp.toNat - 0x100, 0)] else []
    | _ => []
  s.healRegs s.cur.unit s.cur.slot (sq ++ (i.opds.filter (·.wr)).flatMap fun o => (lanes on).flatMap fun l =>
    (regsOfOpd w o).map fun r => (r.1, r.2.1, l))

/-- The end of an issue: the scoreboard's books, the watchdog (R382), and a path that ran by its age alone ends its turn
(R34). -/
def finish (b s : State) (i : Instr) (h : Head) (byAge : Bool) : State :=
  let s := (book b s i h).countAdmitted b.cur.unit b.cur.slot i
  let s := s.modCur fun w => { w with
    run := if byAge then 32 else w.run
    wdTrap := w.wdTrap || (field w.wdog.toNat 0 24 != 0 && decide (field w.wdog.toNat 0 24 ≤ w.wdcnt)) }
  { s with free := s.free + 1, cur := { s.cur with hz := [], hw := [] } }

end State

end Sys2Proof.Machine
end

