-- ==== Sys2Proof/Machine/Actions.lean ====
section
/-! DEFINITION. What moves between instructions and events: blocked paths try again, caches and translation buffers drop
entries, the fault unit scans a fault queue (R205, R228, R233, R390). -/
namespace Sys2Proof.Machine

open Bits

namespace State

/-- Blocked paths of a warp may issue their instruction again. -/
def wakeWarp (s : State) (u : UnitId) (slot : Nat) : State :=
  s.modWarp u slot fun w => { w with
    paths := w.paths.map fun p => if p.wait = .reissue then { p with wait := .ready } else p }

/-- A translation buffer may drop an entry at any time (R233). -/
def dropTlb (s : State) (d buf i : Nat) : State := s.modDie d fun x => { x with tlb := x.tlb.modify buf fun l => l.eraseIdx i }

/-- A cache may drop a copy at any time (R228). -/
def dropLine (s : State) (agent line : Nat) : State :=
  s.modAgent agent fun a => { a with copies := a.copies.set line none }

/-- A reply of system software, applied (R390). -/
def applyReply (s : State) (ctx at_ : Nat) : State :=
  let d := fun i => s.ctxRead ctx (at_ + 8 * i) 8
  let x := d 1
  let cause := field x 0 8
  let u : UnitId := ⟨match field x 40 2 with | 0 => .sc | 1 => .tt | _ => .rc, field x 42 1, field x 32 8⟩
  let eng := field x 43 3
  let slot := field (d 2) 16 8
  let named := fun (w : Warp) => w.ctx == ctx && warpWord u slot w.widx == BitVec.ofNat 32 (field (d 2) 0 32)
  let m : Lanes := BitVec.ofNat 32 (field (d 2) 32 32)
  let mode : Mode := match field (d 7) 0 2 with | 1 => .retry | 2 => .skip | _ => .kill
  match (s.unitSlice u).st, (s.unitSlice u).ctx with
  | .running, some c =>
    if c.ctxid ≠ ctx then s
    else
      let here := match s.warp u slot with
        | some w => if !named w then 0 else laneSet ((w.parked.filter fun p => m.getLsbD p.lane && p.rec_.cause.toNat == cause).map (·.lane))
        | none => 0
      let s := if m ≠ 0 then s.resumeLanes u slot here mode none else s
      let e := s.engOf u eng
      let s := if eng ≠ 0 ∧ s.engFrozen u e then
          (match mode with
           | .retry => s.engThaw u e
           | .kill => s.engDiscard u e 3
           | .skip => s)
        else s
      s.ctxStore ctx (at_ + 56) 8 (d 7 + (if bit (d 7) 2 then 0 else 4))
  | _, _ => s

/-- The fault unit reads the ring of a context and applies every reply that is not taken (R389, R390). -/
def scanQueue (s : State) (ctx : Nat) : State :=
  let h := s.fqHdr ctx
  if (s.ctxRt ctx).desc.isNone then s
  else (List.range (2 ^ h.log2n)).foldl (fun s i =>
    let at_ := h.base + 64 * i
    let x := s.ctxRead ctx (at_ + 56) 8
    if x % 4 ≠ 0 ∧ !bit x 2 then s.applyReply ctx at_ else s) s

end State

end Sys2Proof.Machine
end

