-- ==== Sys2Proof/Machine/Matrix.lean ====
section
/-! DEFINITION. Matrix operands and matrix summation: format blocks, element codes, block scales, the codebook format, 2:4
sparsity, and the accumulation of one element (R72, R74, R79 to R83, R90 to R92, R193, R195). -/
namespace Sys2Proof.Num

open Bits

/-- An element format of a configuration (R72, R82). -/
inductive Elem where
  | ty (t : Ty)
  | cb4
  deriving DecidableEq, Repr, Inhabited

/-- The element formats by code (R72). -/
def elemOf (c : Nat) : Elem :=
  match [Ty.f32, .f19, .bf16, .f16, .e5m2, .e4m3, .e3m4, .e3m2, .e2m3, .e2m1, .i8, .n8, .i4, .n4, .t2][c]? with
  | some t => .ty t
  | none => .cb4

/-- Container bits of an element (R72, R193). -/
def Elem.bits : Elem → Nat
  | .ty t => containerBits t
  | .cb4 => 4

def Elem.isInt : Elem → Bool
  | .ty .i8 | .ty .n8 | .ty .i4 | .ty .n4 | .ty .t2 => true
  | _ => false

/-- An operand's configuration with its addresses (R82). -/
structure OpCfg where
  elem : Elem
  scf : Nat
  blk : Nat
  saddr : Nat
  xaddr : Nat
  deriving DecidableEq, Repr, Inhabited

/-- An operand's configuration from its three dwords; none where it breaks R79 or R82. -/
def opCfg (cfg saddr xaddr : Nat) : Option OpCfg :=
  let e := elemOf (field cfg 0 4)
  let scf := field cfg 6 2
  let blk := field cfg 4 2
  if cfg / 256 ≠ 0 ∨ scf = 3 ∨ (scf = 0 ∧ blk ≠ 0) ∨ (e = .cb4 ∧ (scf ≠ 0 ∨ blk ≠ 0)) ∨ (scf = 0 ∧ e ≠ .cb4 ∧ saddr ≠ 0) ∨
     (scf = 2 ∧ saddr % 2 ≠ 0) ∨ (e ≠ .cb4 ∧ xaddr ≠ 0) ∨ xaddr % 4 ≠ 0 then none
  else some ⟨e, scf, 16 * 2 ^ blk, saddr, xaddr⟩

/-- A format block: A, B, and DCFG (R82). -/
structure FmtBlock where
  a : OpCfg
  b : OpCfg
  dcfg : Nat
  deriving DecidableEq, Repr, Inhabited

/-- A format block from its eight dwords. -/
def fmtBlock (d : Nat → Nat) : Option FmtBlock :=
  match opCfg (d 0) (d 1) (d 2), opCfg (d 3) (d 4) (d 5) with
  | some a, some b =>
    if d 7 ≠ 0 ∨ d 6 / 512 ≠ 0 ∨ field (d 6) 4 4 ≠ 0 ∨ field (d 6) 0 4 = 15 then none else some ⟨a, b, d 6⟩
  | _, _ => none

/-- A K extent is a multiple of the operand's block length (R80, R81). -/
def OpCfg.fits (c : OpCfg) (k : Nat) : Bool :=
  (c.scf == 0 || k % c.blk == 0) && (c.elem != .cb4 || k % 64 == 0)

/-- Whether the operands are summed as integers (R90, R91). -/
def FmtBlock.ints (f : FmtBlock) : Bool := f.a.elem.isInt && f.b.elem.isInt && f.a.scf == 0 && f.b.scf == 0

-- values (R76, R79 to R81)

/-- A shared block scale (R79). -/
def scaleVal (scf b : Nat) : FVal :=
  if scf = 1 then (if b = 255 then .nan else .fin false (pow2 ((b : Int) - 127)))
  else
    let e := field b 7 8
    let m := field b 0 7
    if e = 255 then .nan
    else if e = 0 then .fin false ((m : Rat) * pow2 (-133))
    else .fin false (((128 + m : Nat) : Rat) * pow2 ((e : Int) - 134))

/-- Codebook values (R81). -/
def cbVal (c : Nat) : Int := [-128, -91, -69, -53, -40, -28, -16, -5, 5, 16, 28, 40, 53, 69, 91, 128].getD c 0

/-- A codebook weight from its code, its block code and its super-scale (R81). -/
def cbWeight (c s x : Nat) : FVal :=
  let n : Int := cbVal c * s
  mul (mul (.fin (decide (n < 0)) n) (decodeF f32 x)) (.fin false (pow2 (-15)))

/-- What an operand reads beside its elements, as (address, bytes): the scale, or the block code and the super-scale, of
element k of row or column i (R80, R81). -/
def OpCfg.sideAt (c : OpCfg) (kext i k : Nat) : List (Nat × Nat) :=
  if c.elem = .cb4 then
    let b := i * (kext / 64) + k / 64
    [(c.saddr + b, 1), (c.xaddr + 4 * (b / 256), 4)]
  else if c.scf = 0 then []
  else [(c.saddr + (i * (kext / c.blk) + k / c.blk) * c.scf, c.scf)]

/-- Elements from one side value to the next. -/
def OpCfg.stride (c : OpCfg) (kext : Nat) : Nat := if c.elem = .cb4 then 64 else if c.scf = 0 then kext else c.blk

/-- All that an operand's row or column i reads beside its elements. -/
def OpCfg.sides (c : OpCfg) (kext i : Nat) : List (Nat × Nat) :=
  (List.range (kext / c.stride kext)).flatMap fun j => c.sideAt kext i (j * c.stride kext)

/-- The value of element k of row or column i, from its code (R76, R80, R81). `rd` reads a number of bytes. -/
def OpCfg.value (c : OpCfg) (rd : Nat → Nat → Nat) (kext i k code : Nat) : FVal :=
  match c.elem, c.sideAt kext i k with
  | .cb4, [(a, n), (x, m)] => cbWeight code (rd a n) (rd x m)
  | .ty t, [(a, n)] => mul (decode t code) (scaleVal c.scf (rd a n))
  | .ty t, _ => decode t code
  | _, _ => .nan

-- 2:4 sparsity (R92, R195)

/-- Where element k of a row stands among the stored ones, for the codes of its groups; none where it is elided. -/
def keptAt (code : Nat → Nat) (k : Nat) : Option Nat :=
  let c := code (k / 4)
  if c % 4 = k % 4 then some (2 * (k / 4)) else if c / 4 % 4 = k % 4 then some (2 * (k / 4) + 1) else none

/-- Whether a group's code names its positions in ascending order. -/
def sparseOk (c : Nat) : Bool := decide (c % 4 < c / 4 % 4)

-- summation (R90, R91)

/-- The exact sum of a group's products. -/
def groupSum : List FVal → FVal
  | [] => .fin false 0
  | p :: r => r.foldl add p

/-- The whole number of an exact value. -/
def toInt : FVal → Int
  | .fin _ q => q.floor
  | _ => 0

/-- One group is added into an accumulator. -/
def accGroup (ints : Bool) (acc : Nat) (ps : List FVal) : Nat :=
  if ints then
    wrap 32 (clampInt (intMin 32 true) (intMax 32 true) (signed 32 acc + ps.foldl (fun n p => n + toInt p) 0))
  else addE f32 acc (rne f32 (groupSum ps))

/-- An accumulator after the groups from the first to the last over K, each of at most 16 products. -/
def accAll (ints : Bool) (acc kext : Nat) (prod : Nat → FVal) : Nat :=
  (List.range (cdiv kext 16)).foldl (fun a g =>
    accGroup ints a ((List.range (min 16 (kext - 16 * g))).map fun i => prod (16 * g + i))) acc

end Sys2Proof.Num
end

