-- ==== Sys2Proof/Machine/Start.lean ====
section
/-! DEFINITION. Starting warps and threads: free slots, what a warp starts with, spawn bins and pending warps, task and
baton queues (R22 to R30, R38, R151 to R154, R262). -/
namespace Sys2Proof.Machine

open Bits

/-- Where the return stack of a slot begins, which k63 holds at the start (R38). -/
def rsbOf (d : CtxDesc) (n : Nat) : Dword :=
  if d.rsbase = 0 then 0 else d.rsbase + BitVec.ofNat 64 (d.rssize * (n + 1))

/-- A warp as it starts: its lanes at the entry, every register 0 but k63 (R23, R26, R153, R154). -/
def startingWarp (d : CtxDesc) (u : UnitId) (slot team : Nat) (entry : Dword) (m : Lanes) (seq : Nat) : Warp :=
  let rsb := rsbOf d (slotNo u slot)
  { (default : Warp) with
    ctx := d.ctxid, entry := entry, team := team, width := laneWidth u.kind, user := slot != trapSlot, gran := 32
    k := Tab.set [] 63 rsb, rsb := rsb, seed := 1, lease := 10, run := 32, startSeq := seq
    wdog := BitVec.ofNat 32 (d.wdog.toNat % 2 ^ 24)
    exited := firstLanes (laneWidth u.kind) &&& ~~~ m
    paths := if m = 0 then [] else [⟨entry, m, none, 0, .ready⟩] }

namespace State

-- slots and granules

/-- Accesses of lanes on the LSU path that are not yet performed (R150, R155). -/
def lsuBusy (s : State) (u : UnitId) (slot : Nat) (m : Lanes) : Bool :=
  s.ops.any fun o => o.unit == u && o.slot == slot && o.path == .lsu && !settled o .pkg && (o.lanes &&& m) != 0

/-- Members of a list chosen freely, n of them: where the spec does not say which of several free slots or granules is taken. -/
def pickFree : Nat → State → List Nat → List Nat × State
  | 0, s, _ => ([], s)
  | n + 1, s, fs =>
    let (x, s) := s.drawFree
    let i := x.toNat % fs.length
    let (r, s) := pickFree n s (fs.eraseIdx i)
    (fs.getD i 0 :: r, s)

/-- Free warp or thread slots of a unit, lowest first. -/
def freeSlots (s : State) (u : UnitId) : List Nat :=
  (List.range (slotCount u.kind)).filter fun i => (s.warp u i).isNone

/-- The slot a warp takes, and the quadrant pointer after it (R262); a thread takes the lowest free slot. -/
def pickSlot (s : State) (u : UnitId) : Option (Nat × Nat) :=
  let c := s.core u
  match u.kind with
  | .sc =>
    let free := s.freeSlots u
    (List.range 4).findSome? fun i =>
      let q := (c.qp + i) % 4
      (free.find? fun n => n / 16 == q).map fun n => (n, (q + 1) % 4)
  | _ => ((s.freeSlots u).head?).map fun n => (n, c.qp)

/-- Granules of a shader core that its warps hold; the trap slot's registers are its own (R366). -/
def granUsed (s : State) (u : UnitId) : Nat :=
  (s.core u).warps.foldl (fun n p => if p.1 = trapSlot then n else n + ((p.2.map (·.gran)).getD 0)) 0

def granFree (s : State) (u : UnitId) : Nat := 512 - s.granUsed u

/-- Granules that a starting warp may take: what the waiting REGX requests ask for is kept for them, oldest first (R41). -/
def granSpare (s : State) (u : UnitId) : Nat := s.granFree u - ((s.core u).regxQ.map (·.n)).sum

/-- A unit has a free slot and, on a shader core, the granules. -/
def hasRoom (s : State) (u : UnitId) (gran : Nat) : Bool :=
  (s.freeSlots u) != [] && (u.kind != .sc || decide (gran ≤ s.granSpare u))

/-- Whether a unit's slice runs a context: a switching slice starts nothing (R274). -/
def runs (s : State) (u : UnitId) (ctx : Nat) : Bool :=
  (s.unitSlice u).st == .running && (match (s.unitSlice u).ctx with | some d => d.ctxid == ctx | none => false)

/-- A one-warp team of its own starts in a free slot of a unit; `f` completes the warp (R26, R153, R154). -/
def startAlone (s : State) (u : UnitId) (ctx : Nat) (src : TeamSrc) (issuer : Option (Nat × Nat)) (entry : Dword)
    (m : Lanes) (f : Warp → Warp) : State :=
  match s.pickSlot u with
  | none => s
  | some (slot, qp) =>
    let (uid, s) := s.fresh
    let w := f (startingWarp (s.ctxDesc ctx) u slot uid entry m uid)
    (s.modCore u fun c => { c with
      qp := qp, teams := c.teams ++ [{ (default : Team) with
        uid := uid, ctx := ctx, src := src, issuer := issuer, nwarps := 1 }] }).setWarp u slot (some w)

-- the spawn pool (R25, R26)

/-- The lowest pool slot of a context that is not in use. -/
def poolTake (s : State) (ctx : Nat) : Option Nat :=
  let used := (s.ctxRt ctx).poolUsed
  ((List.range (used.length + 1)).find? fun i => !used.contains i).bind fun i =>
    if i < (s.ctxDesc ctx).spcount then some i else none

def poolVa (s : State) (ctx i : Nat) : Nat := (s.ctxDesc ctx).spbase.toNat + 64 * i

/-- The record of a pool slot. -/
def poolRec (s : State) (ctx i : Nat) : List Word :=
  (List.range 16).map fun r => BitVec.ofNat 32 (s.ctxRead ctx (s.poolVa ctx i + 4 * r) 4)

-- bins (R24 to R26, R152)

/-- A bin header as it lies before its entry. -/
structure BinHdr where
  thr : Nat
  timer : Nat
  regs : Nat
  deriving DecidableEq, Repr, Inhabited

/-- The header of a dword, where it keeps to R152. -/
def binHdrOf (width x : Nat) : Option BinHdr :=
  let thr := field x 0 6
  let timer := field x 6 17
  let regs := field x 24 6
  if field x 30 34 = 0 ∧ !bit x 23 ∧ 2 ≤ regs ∧ regs ≤ 32 ∧ 64 ≤ timer ∧ timer ≤ 65536 ∧ thr ≤ width then
    some ⟨if thr = 0 then width else thr, timer, regs⟩
  else none

/-- The units on which a bin of a unit may start: itself, then those of its kind in its slice, lowest first (R26). -/
def binUnits (u : UnitId) : List UnitId :=
  u :: (sliceUnits u.die (sliceOf u)).filter fun v => v.kind == u.kind && v != u

/-- Lanes of a starting warp are bound to the interlock entries under which EMIT.spord registered their records (R26, R311). -/
def bindTickets (s : State) (ctx : Nat) (v : UnitId) (slot seq : Nat) (slots : List Nat) : State :=
  let ts := slots.zipIdx.filterMap fun x => ((s.ctxRt ctx).ticketed.find? fun t => t.1 == x.1).map fun t => (t.2, x.2)
  if ts = [] then s
  else
    let s := s.modCtxRt ctx fun c => { c with ticketed := c.ticketed.filter fun t => !slots.contains t.1 }
    s.modSlice v.die (sliceOf v) fun sl => { sl with
      ilock := ts.foldl (fun (t : Tab (Option ILock)) x => match t.get x.1 with
        | some e => if e.st = 1 then t.set x.1 (some { e with st := 2, unit := v, slot := slot, lane := x.2, uid := seq }) else t
        | none => t) sl.ilock }

/-- A launched bin's warp starts where R26 lets it, and its pool slots return; none where it finds no core. -/
def startSpawned (s : State) (ctx : Nat) (u : UnitId) (p : PendWarp) : Option State :=
  ((binUnits u).find? fun v => s.hasRoom v p.regs).map fun v =>
    let recs := p.slots.map (s.poolRec ctx)
    let s := s.modCtxRt ctx fun c => { c with poolUsed := c.poolUsed.filter fun i => !p.slots.contains i }
    let s := match s.pickSlot v with | some x => s.bindTickets ctx v x.1 s.nextId p.slots | none => s
    s.startAlone v ctx .spawned none p.entry (firstLanes p.slots.length) fun w => { w with
      gran := if v.kind = .sc then p.regs else 32, prio := p.prio
      v := recs.zipIdx.foldl (fun t r => r.1.zipIdx.foldl (fun t x => t.set (256 * r.2 + x.2) x.1) t) [] }

/-- The oldest pending warp of a slice starts, where it finds a core (R26). -/
def startPending (s : State) (d i : Nat) : Option State :=
  let sl := s.slice d i
  match sl.pending, sl.ctx, sl.st with
  | p :: r, some c, .running =>
    (s.startSpawned c.ctxid ⟨p.kind, d, p.idx⟩ p).map fun s => s.modSlice d i fun sl => { sl with pending := r }
  | _, _, _ => none

/-- Pending warps start, oldest first, until one finds no core. -/
def startPendings (d i : Nat) : Nat → State → State
  | 0, s => s
  | n + 1, s => match s.startPending d i with
    | some s => startPendings d i n s
    | none => s

/-- Launch of a bin (R26), after the pending warps that can start: its warp starts, or becomes a pending warp of the slice when
no core has room for it; none where the slice holds 64 of them. -/
def launchBin (s : State) (u : UnitId) (b : Nat) : Option State :=
  match (s.core u).bins.get b with
  | none => some s
  | some x =>
    let s := startPendings u.die (sliceOf u) 64 s
    let sl := s.unitSlice u
    if 64 ≤ sl.pending.length then none
    else
      let s := s.modCore u fun c => { c with bins := c.bins.set b none }
      let p : PendWarp := ⟨u.kind, u.idx, x.key, x.regs, x.slots, x.prio⟩
      let ctx := (sl.ctx.map (·.ctxid)).getD 0
      match s.startSpawned ctx u p with
      | some s => some s
      | none => some (s.modSlice u.die (sliceOf u) fun sl => { sl with pending := sl.pending ++ [p] })

def binKeyed (s : State) (u : UnitId) (e : Dword) : Option Nat :=
  (List.range 16).find? fun b => match (s.core u).bins.get b with | some x => x.key == e | none => false

def freeBin (s : State) (u : UnitId) : Option Nat := (List.range 16).find? fun b => ((s.core u).bins.get b).isNone

/-- The bin opened first. -/
def oldestBin (s : State) (u : UnitId) : Nat :=
  ((List.range 16).foldl (fun (a : Option (Nat × Nat)) b => match (s.core u).bins.get b, a with
    | some x, none => some (b, x.opened)
    | some x, some y => if x.opened < y.2 then some (b, x.opened) else a
    | none, _ => a) none).map (·.1) |>.getD 0

/-- The bin header that a keyed entry has, read on the SYS path; what stops the lane where it has none. -/
def readBinHdr (s : State) (u : UnitId) (user : Bool) (e : Dword) : Except (Nat × Dword × Dword) BinHdr :=
  let va := (e - 8).toNat
  match s.xlate u user .read va with
  | .error f => .error (tCause .sys f, tInfo f .read 1, BitVec.ofNat 64 va)
  | .ok x => match binHdrOf (laneWidth u.kind) (s.peek x.pa 8) with
    | some h => .ok h
    | none => .error (Cause.rsvbin, 0, 0)

/-- What a lane's record comes to (R25): a lane that waits for a bin keeps the pool slot it has taken. -/
inductive Spawned where
  | done (s : State) (slot : Nat)
  | waits (s : State) (pool : Option Nat)
  | fault (cause : Nat) (info addr : Dword)

/-- A record appended to a bin that has room for it; a bin that reaches its threshold is launched. -/
def appendRec (s : State) (u : UnitId) (ctx b slot : Nat) (r : List Word) : Spawned :=
  match (s.core u).bins.get b with
  | none => .waits s (some slot)
  | some x =>
    if x.thr ≤ x.slots.length then .waits s (some slot)
    else
      let s := (List.range 8).foldl (fun s i =>
        s.ctxStore ctx (s.poolVa ctx slot + 8 * i) 8 ((r.getD (2 * i) 0).toNat + 2 ^ 32 * (r.getD (2 * i + 1) 0).toNat)) s
      let s := s.modCore u fun c => { c with bins := c.bins.set b (some { x with slots := x.slots ++ [slot] }) }
      .done (if x.slots.length + 1 = x.thr then (s.launchBin u b).getD s else s) slot

/-- The pool slot a lane's record takes, if it has not taken one (R25). -/
def takePool (s : State) (ctx : Nat) (pool : Option Nat) : Option (Nat × State) :=
  match pool with
  | some i => some (i, s)
  | none => (s.poolTake ctx).map fun i => (i, s.modCtxRt ctx fun c => { c with poolUsed := c.poolUsed ++ [i] })

/-- A pool slot that holds no record returns. -/
def poolBack (s : State) (ctx : Nat) (pool : Option Nat) : State :=
  match pool with
  | some i => s.modCtxRt ctx fun c => { c with poolUsed := c.poolUsed.filter fun j => j != i }
  | none => s

/-- One lane of SPAWN, or a record that a sequencer emits (R25). -/
def spawnOne (s : State) (u : UnitId) (user : Bool) (ctx prio : Nat) (e : Dword) (r : List Word) (pool : Option Nat) : Spawned :=
  match s.takePool ctx pool with
  | none => .waits s none
  | some (slot, s) =>
    match s.binKeyed u e with
    | some b => s.appendRec u ctx b slot r
    | none =>
      match s.readBinHdr u user e with
      | .error (c, i, a) => .fault c i a
      | .ok h =>
        let s1 : Option (Nat × State) := match s.freeBin u with
          | some b => some (b, s)
          | none => let b := s.oldestBin u
            (s.launchBin u b).map fun s => (b, s)
        match s1 with
        | none => .waits s (some slot)
        | some (b, s) =>
          let (seq, s) := s.fresh
          let s := s.modCore u fun c => { c with
            bins := c.bins.set b (some ⟨e, s.pace u.die + h.timer, h.thr, h.regs, seq, [], prio⟩) }
          s.appendRec u ctx b slot r

/-- Lanes of SPAWN in ascending order, the first with the pool slot it has taken: the state, the lanes that still wait with the
slot of the first, and those struck. A lane that waits holds those after it. -/
def spawnLanes (u : UnitId) (user : Bool) (ctx prio : Nat) (e : Dword) :
    State → Option Nat → List (Nat × List Word) → State × List (Nat × List Word) × Option Nat × List Strike
  | s, pool, [] => (s.poolBack ctx pool, [], none, [])
  | s, pool, (l, r) :: t =>
    match s.spawnOne u user ctx prio e r pool with
    | .done s _ => spawnLanes u user ctx prio e s none t
    | .waits s pool => (s, (l, r) :: t, pool, [])
    | .fault c i a =>
      let (s, left, pool, xs) := spawnLanes u user ctx prio e (s.poolBack ctx pool) none t
      (s, left, pool, ⟨l, c, i, a⟩ :: xs)

-- task and baton queues (R30, R153, R154, R264)

/-- A baton of one lane for the relay core of a unit's slice. -/
def queueTask (s : State) (u : UnitId) (t : TaskEnt) : State := s.modCore u fun c => { c with taskQ := c.taskQ ++ [t] }

/-- Lanes of BATON in ascending order: a handle each, while the fence table has a slot (R155). Answers the lanes that
wait and the handles given. -/
def batonLanes (u : UnitId) (ctx prio : Nat) (issuer : Option (Nat × Nat)) (e : Dword) (ks : List Dword) :
    State → List (Nat × List Word) → State × List (Nat × List Word) × List (Nat × Word)
  | s, [] => (s, [], [])
  | s, (l, r) :: t =>
    match s.freeFslot ctx with
    | none => (s, (l, r) :: t, [])
    | some k =>
      let (h, s) := s.newHandle ctx k
      let s := s.queueTask ⟨.rc, u.die, sliceOf u⟩ ⟨e, h, prio, prio, s.pace u.die, 0, ks, r, issuer⟩
      let (s, left, hs) := batonLanes u ctx prio issuer e ks s t
      (s, left, (l, h) :: hs)

/-- Effective priorities of waiting tasks (R30): one level more for each 16,384 ticks of waiting, up to 3. -/
def ageTasks (s : State) (u : UnitId) : State :=
  s.modCore u fun c => { c with taskQ := c.taskQ.map fun t =>
    { t with eff := max t.eff (min 3 (t.prio + (s.pace u.die - t.arrived) / 16384)) } }

/-- The waiting task a freed slot goes to: the highest effective priority, then the oldest. -/
def bestTask (q : List TaskEnt) : Option TaskEnt :=
  match q with
  | [] => none
  | t :: r => some (r.foldl (fun a b => if a.eff < b.eff ∨ (a.eff = b.eff ∧ b.arrived < a.arrived) then b else a) t)

/-- The launch whose warps a task of this warp's issue belongs to (R164). -/
def taskIssuer (s : State) (u : UnitId) (w : Warp) : Option (Nat × Nat) :=
  (s.team? u w.team).bind fun t => launchOf t u.kind

-- the ends of tasks (R153, R154, R400)

/-- A task's or baton's handle completes once its thread has retired and every ENOTE it issued has been raised. -/
def threadDone (s : State) (u : UnitId) (ctx : Nat) (h : Word) : State :=
  if h = 0 ∨ ((s.core u).eng.notes.any fun n => n.handle == h) ∨
     ((s.core u).warps.any fun p => match p.2 with | some w => w.handle == h | none => false) then s
  else s.completeHandle ctx h 0

end State

end Sys2Proof.Machine
end

