-- ==== Sys2Proof/Machine/Control.lean ====
section
/-! DEFINITION. Meanings of branches, calls, waits without work, loops, team hurdles, register granules, traps, PARK and
the special registers (R129 to R148, R158 to R161). -/
namespace Sys2Proof.Machine

open Bits

namespace State

-- branches (R132 to R134)

/-- The issuing path splits between a target and the next instruction (R32). Lanes that come to a back edge go the same way,
whatever the branch says (R143). -/
def branch (s : State) (taken : Lanes) (tgt jpc : Dword) : State :=
  let p := s.curP
  let rest := p.mask &&& ~~~ taken
  s.flow s.cur.unit s.cur.slot fun e w =>
    let off := w.offEdge p.pc p.mask
    let w := w.dropLanes p.mask
    if rest &&& off = 0 ∨ taken &&& off = 0 then
      let w := if taken = 0 then w else w.goTo e p.pc tgt taken p.j
      if rest = 0 then w else w.goOn e p.pc s.cur.len rest p.j
    else
      let (j, w) := w.newJoin jpc off p.j
      let w := { w with run := Warp.laneKey rest }
      (w.goOn e p.pc s.cur.len rest (some j)).goTo e p.pc tgt taken (some j)

/-- Lanes grouped by the addresses they go to. -/
def groups (ts : List (Nat × Dword)) : List (Dword × Lanes) :=
  ((ts.map (·.2)).eraseDups).map fun a => (a, laneSet ((ts.filter fun t => t.2 == a).map (·.1)))

/-- Every path of a list leaves the instruction at pc for its place. -/
def landAll (e : FlowEnv) (w : Warp) (pc : Dword) (gs : List (Dword × Lanes)) (j : Option Nat) : Warp :=
  gs.foldl (fun w g => w.goTo e pc g.1 g.2 j) w

-- the return stack (R38, R136 to R140)

/-- The lowest level above every live level of a warp, 4 for none (R136). -/
def freeLevel (w : Warp) : Nat := ([3, 2, 1, 0].find? fun n => (w.loops.get n).st == .live).map (· + 1) |>.getD 0

/-- Address of the spilled entry of a depth (R38). -/
def spillVa (w : Warp) (d : Nat) : Nat := (w.rsb - BitVec.ofNat 64 (32 * (d + 1))).toNat

/-- A spilled entry as memory holds it. -/
def spilled (s : State) (u : UnitId) (slot : Nat) (w : Warp) (d : Nat) : Option RetEnt :=
  match s.xlate u (slot != trapSlot) .read (spillVa w d) with
  | .ok x => some (RetEnt.ofNat (s.peek x.pa 32))
  | .error _ => none

/-- The return-stack entries that may be returned to, topmost first: whether in the core, its place, the entry. -/
def retEntries (s : State) (u : UnitId) (slot : Nat) (w : Warp) : List (Bool × Nat × RetEnt) :=
  (w.rets.zipIdx.map fun p => (true, p.2, p.1)) ++
  (List.range w.rsdep).reverse.filterMap fun d => (s.spilled u slot w d).map fun e => (false, d, e)

/-- The loop base of lanes: the CFB of their innermost call (R137, R140). -/
def loopBase (s : State) (u : UnitId) (slot : Nat) (w : Warp) (m : Lanes) : Nat :=
  ((s.retEntries u slot w).find? fun e => !e.2.2.rtd && (m &&& ~~~ e.2.2.mask) == 0).map (·.2.2.cfb) |>.getD 0

/-- The level an operand names, or none where it is no level (R140). -/
def level (s : State) (lvl : BitVec 2) : Option Nat :=
  let b := s.loopBase s.cur.unit s.cur.slot s.curW s.curP.mask
  if b = 4 ∨ 3 < b + lvl.toNat then none else some (b + lvl.toNat)

/-- A push onto the return stack: what stops it, or the state with the entry pushed (R38, R373). -/
def pushRet (s : State) (e : RetEnt) : Except Strike State :=
  let w := s.curW
  if w.rets.length < 16 then .ok (s.modCur fun w => { w with rets := e :: w.rets })
  else if 65535 ≤ w.rsdep then .error ⟨0, Cause.rstkmax, 0, 0⟩
  else
    let va := spillVa w w.rsdep
    match s.xlate s.cur.unit (s.cur.slot != trapSlot) .write va with
    | .error f => .error ⟨0, tCause .sys f, tInfo f .write 1, BitVec.ofNat 64 va⟩
    | .ok x =>
      let deepest := (w.rets.getLast?).getD default
      let s := s.devStore x.pa (toBytes deepest.toNat 32)
      .ok (s.modCur fun w => { w with rets := e :: w.rets.dropLast, rsdep := w.rsdep + 1 })

/-- Lanes that call go to their targets; the others of the path stand at the return address under a record, or, where
their target is another, stay at the call (R135). The link pair is a result of variable latency (R56). -/
def callLanes (s : State) (h : Head) (m : Lanes) (d : Nat) (tgt : Dword) (stay : Lanes) : State :=
  let p := s.curP
  let calling := m ||| stay
  let rest := p.mask &&& ~~~ calling
  let ret := p.pc + BitVec.ofNat 64 s.cur.len
  let cfb := freeLevel s.curW
  let j := if rest = 0 then p.j else some (s.curW.freeJoin)
  match s.pushRet ⟨cfb, false, m, j, p.pc⟩ with
  | .error x => s.raise (countLanes ((lanes m).map fun l => { x with lane := l }))
  | .ok s =>
    let s := s.addPend h m false 0 ((lanes m).flatMap fun l => s.vres2 l d ret)
    s.flow s.cur.unit s.cur.slot fun e w =>
      let off := w.offEdge p.pc (p.mask &&& ~~~ stay) ||| stay
      let w := w.dropLanes p.mask
      let w := if rest = 0 then w else (w.newJoin ret off p.j).2
      let w := if rest = 0 then w else w.goTo e p.pc ret rest j
      let w := if stay = 0 then w else w.addPath ⟨p.pc, stay, j, 0, .ready⟩
      { w with run := Warp.laneKey m }.goTo e p.pc tgt m j

/-- The deepest-first refill of a return stack whose core part is empty (R38). -/
def refill (s : State) : State :=
  let w := s.curW
  match w.rets, w.rsdep with
  | [], d + 1 => match s.spilled s.cur.unit s.cur.slot w d with
    | some e => s.modCur fun w => { w with rets := [e], rsdep := d }
    | none => s
  | _, _ => s

/-- Spilled entries that have been returned from and lie on top are discarded. -/
def dropSpilled (s : State) : Nat → State
  | 0 => s
  | n + 1 =>
    let w := s.curW
    match w.rets, w.rsdep with
    | [], d + 1 => match s.spilled s.cur.unit s.cur.slot w d with
      | some e => if e.rtd then dropSpilled (s.modCur fun w => { w with rsdep := d }) n else s
      | none => s
    | _, _ => s

/-- The first spilled entry that cannot be read, with the refusal of its read. -/
def spillFault (s : State) : Option Strike :=
  let w := s.curW
  if w.rets = [] then
    match w.rsdep with
    | 0 => none
    | d + 1 => match s.xlate s.cur.unit (s.cur.slot != trapSlot) .read (spillVa w d) with
      | .ok _ => none
      | .error f => some ⟨0, tCause .sys f, tInfo f .read 1, BitVec.ofNat 64 (spillVa w d)⟩
  else none

/-- RET by the set P with entry E (R137): the lanes branch to their links, the entry is returned from, and the levels that
the callee left live end. A spilled entry that can no longer be written keeps its RTD (log 99). -/
def retTo (s : State) (m : Lanes) (a : Nat) (core : Bool) (i : Nat) (en : RetEnt) : State :=
  let p := s.curP
  let rest := p.mask &&& ~~~ m
  let gs := groups ((lanes m).map fun l => (l, s.rv2 l a))
  let s := if core then s.modCur fun w => { w with
      rets := (w.rets.set i { en with rtd := true }).dropWhile (·.rtd) }
    else match s.xlate s.cur.unit (s.cur.slot != trapSlot) .write (spillVa s.curW i) with
      | .ok x => s.devStore x.pa (toBytes ({ en with rtd := true } : RetEnt).toNat 32)
      | .error _ => s
  let s := s.dropSpilled 65536
  s.flow s.cur.unit s.cur.slot fun e w =>
    let w := w.dropLanes p.mask
    let w := [3, 2, 1, 0].foldl (fun w n =>
      let l := w.loop n
      if en.cfb ≤ n ∧ l.st = .live ∧ l.lanes &&& ~~~ m = 0 then w.endLevel e n else w) w
    let w := { w with run := 32 }
    let w := if rest = 0 then w else w.goOn e p.pc s.cur.len rest p.j
    (landAll e w p.pc gs en.jrec).loopTests e

end State

def execNop (_h : Head) (_lit : Option Dword) (s : State) : Host.Outcome State Fault Refusal := .next s.advance

def execBra (h : Head) (tgt : BitVec 20) (joff : BitVec 12) (_dh : BitVec 2) (s : State) :
    Host.Outcome State Fault Refusal :=
  let pc := s.curP.pc
  .next (s.branch (s.execLanes h) (pc + tgt.signExtend 64 <<< 3) (pc + joff.setWidth 64 <<< 3))

def execJmp (h : Head) (tgt : BitVec 20) (_dh : BitVec 2) (s : State) : Host.Outcome State Fault Refusal :=
  let p := s.curP
  let taken := s.execLanes h
  let rest := p.mask &&& ~~~ taken
  .next (s.flow s.cur.unit s.cur.slot fun e w =>
    let w := w.dropLanes p.mask
    let w := if taken ≠ 0 ∧ rest ≠ 0 then { w with run := 32 } else w
    let w := if rest = 0 then w else w.goOn e p.pc s.cur.len rest p.j
    if taken = 0 then w else w.goTo e p.pc (p.pc + tgt.signExtend 64 <<< 3) taken p.j)

def execBrx (h : Head) (a : VReg) (joff : BitVec 12) (s : State) : Host.Outcome State Fault Refusal :=
  let ts := (lanes (s.execLanes h)).map fun l => (l, s.rv2 l a.toNat)
  let bad := ts.filter fun t => t.2.toNat % 8 != 0
  let s := s.raise (bad.map fun t => ⟨t.1, Cause.rsvbra, BitVec.ofNat 64 (0x03 * 2 ^ 56), 0⟩)
  let good := ts.filter fun t => t.2.toNat % 8 == 0
  let p := s.curP
  let rest := p.mask &&& ~~~ laneSet (ts.map (·.1))
  let gs := State.groups good
  .next (s.flow s.cur.unit s.cur.slot fun e w =>
    let off := w.offEdge p.pc p.mask
    let n := (gs.filter fun g => g.2 &&& off != 0).length + (if rest &&& off = 0 then 0 else 1)
    let w := w.dropLanes p.mask
    let (j, w) := if joff ≠ 0 ∧ 1 < n then
        let r := w.newJoin (p.pc + joff.setWidth 64 <<< 3) off p.j
        (some r.1, r.2)
      else (p.j, w)
    let w := if 1 < n then { w with run := 32 } else w
    let w := if rest = 0 then w else w.goOn e p.pc s.cur.len rest j
    State.landAll e w p.pc gs j)

def execCall (h : Head) (d : VReg) (_x : Bool) (off : Dword) (s : State) : Host.Outcome State Fault Refusal :=
  let m := s.execLanes h
  .next (if m = 0 then s.advance else s.callLanes h m d.toNat (s.curP.pc + off <<< 3) 0)

def execCallx (h : Head) (d a : VReg) (s : State) : Host.Outcome State Fault Refusal :=
  let ts := (lanes (s.execLanes h)).map fun l => (l, s.rv2 l a.toNat)
  let bad := ts.filter fun t => t.2.toNat % 8 != 0
  let s := s.raise (bad.map fun t => ⟨t.1, Cause.rsvbra, BitVec.ofNat 64 (0x05 * 2 ^ 56), 0⟩)
  let good := ts.filter fun t => t.2.toNat % 8 == 0
  .next (match good with
    | [] => s.advance
    | t :: r =>
      let low := r.foldl (fun x y => if y.2.toNat < x.toNat then y.2 else x) t.2
      let m := laneSet ((good.filter fun y => y.2 == low).map (·.1))
      s.callLanes h m d.toNat low (laneSet (good.map (·.1)) &&& ~~~ m))

def execRet (h : Head) (a : VReg) (s : State) : Host.Outcome State Fault Refusal :=
  let m := s.execLanes h
  .next (if m = 0 then s.advance
    else match s.spillFault with
    | some x => (s.raise (State.countLanes ((lanes m).map fun l => { x with lane := l }))).advance
    | none =>
      let s := s.refill
      match (s.retEntries s.cur.unit s.cur.slot s.curW).find? fun e => !e.2.2.rtd && (m &&& ~~~ e.2.2.mask) == 0 with
      | none => (s.raiseAll m Cause.retempty).advance
      | some (c, i, e) =>
        if e.mask &&& ~~~ s.curW.exited = m then s.retTo m a.toNat c i e
        else (s.raiseAll m Cause.retpart).advance)

def execExit (h : Head) (s : State) : Host.Outcome State Fault Refusal :=
  let m := s.execLanes h
  let k := Warp.laneKey (s.curP.mask &&& ~~~ m)
  let s := s.exitLanes s.cur.unit s.cur.slot m
  .next { s with cur := { s.cur with path := k } }.advance

-- waiting without work (R139)

def execYield (h : Head) (s : State) : Host.Outcome State Fault Refusal :=
  let m := s.execLanes h
  let s := s.advance
  .next (if m = 0 then s else s.modCur fun w => { w with run := 32 })

def execSleep (h : Head) (a : KReg) (rel : Bool) (s : State) : Host.Outcome State Fault Refusal :=
  let now := BitVec.ofNat 64 (s.pace s.cur.unit.die)
  let t := if rel then now + s.rk a.toNat else s.rk a.toNat
  .next (if s.execLanes h = 0 ∨ t.toNat ≤ now.toNat then s.advance else s.waitFor (.sleep t))

-- loops (R140 to R146)

/-- The window word of LROT (R49, R141). -/
def rwWord (stg : Nat) (size base : Nat) : Word := BitVec.ofNat 32 (pack [(8, base), (9, size), (7, 0), (4, stg)])

/-- The faults of a window for level n (R141). -/
def windowCauses (w : Warp) (n : Nat) (rw : Word) : List Nat :=
  let base := field rw.toNat 0 8
  let size := field rw.toNat 8 9
  let stg := field rw.toNat 24 4
  let others := ([0, 1, 2, 3].filter fun m => m != n && (w.loops.get m).st != .free).map fun m => (w.loops.get m).rw.toNat
  causeIf (base % 8 != 0 || size % 8 != 0) Cause.winalign ++
  causeIf (decide (256 < base + size) || decide (8 * w.gran < base + size)) Cause.winrange ++
  causeIf (others.any fun o => size != 0 && field o 8 9 != 0 && decide (base < field o 0 8 + field o 8 9) &&
    decide (field o 0 8 < base + size)) Cause.winovl ++
  causeIf (decide (8 < stg)) Cause.stgcnt ++
  causeIf (stg != 0 && others.any fun o => field o 24 4 != 0) Cause.stgdup

def execLrot (h : Head) (lvl : BitVec 2) (_x : Bool) (stg : BitVec 4) (size : BitVec 9) (base : BitVec 8) (s : State) :
    Host.Outcome State Fault Refusal :=
  let m := s.execLanes h
  .next (if m = 0 then s.advance
    else match s.level lvl with
    | none => (s.raiseAll m Cause.looplvl).advance
    | some n =>
      let rw := rwWord stg.toNat size.toNat base.toNat
      let w := s.curW
      match Cause.first (causeIf ((w.loops.get n).st != .free) Cause.loopbusy ++ windowCauses w n rw) with
      | some c => (s.raiseAll m c).advance
      | none => (s.modCur fun w => w.modLoop n fun l => { l with rw := rw, rb := 0, st := .armed }).advance)

def execLset (h : Head) (lvl : BitVec 2) (_x : Bool) (cnt : LsetCount) (len : BitVec 11) (s : State) :
    Host.Outcome State Fault Refusal :=
  let m := s.execLanes h
  .next (if m = 0 then s.advance
    else match s.level lvl with
    | none => (s.raiseAll m Cause.looplvl).advance
    | some n =>
      let w := s.curW
      let p := s.curP
      let l := w.loops.get n
      let count : Nat := match cnt with
        | .imm c => c.toNat
        | .k r => (s.rk r.toNat).toNat % 2 ^ 32
      let ls := p.pc + BitVec.ofNat 64 s.cur.len
      let le := ls + BitVec.ofNat 64 (8 * (len.toNat - 1))
      let rest := p.mask &&& ~~~ m
      if l.st = .live then (s.raiseAll m Cause.loopbusy).advance
      else if count = 0 then
        s.flow s.cur.unit s.cur.slot fun e w =>
          let w := (w.dropLanes p.mask).goTo e p.pc (le + BitVec.ofNat 64 (e.len le)) m p.j
          if rest = 0 then w else w.goOn e p.pc s.cur.len rest p.j
      else
        let stg := Warp.winStg l
        let c := count + max stg 1 - 1
        let lc : Word := if c < 2 ^ 32 then BitVec.ofNat 32 c else (Config.freeVal s.free).setWidth 32
        s.flow s.cur.unit s.cur.slot fun e w =>
          let w := w.dropLanes p.mask
          let w := w.modLoop n fun l =>
            { l with lc := lc, ls := ls, le := le, lanes := m, brk := 0, wexit := rest, wback := 0, lx := p.j, st := .live,
                     nlc := none, nls := none, nle := none }
          let w := if stg = 0 then w
            else { w with sp := (w.sp &&& ~~~ BitVec.ofNat 8 (2 ^ stg - 1)) ||| 1 }
          w.goOn e p.pc s.cur.len m p.j)

/-- LBRK (R145). Where some of its lanes stand outside the level, all of them are struck (log 100). -/
def execLbrk (h : Head) (lvl : BitVec 2) (s : State) : Host.Outcome State Fault Refusal :=
  let m := s.execLanes h
  .next (if m = 0 then s.advance
    else match s.level lvl with
    | none => (s.raiseAll m Cause.looplvl).advance
    | some n =>
      let l := s.curW.loops.get n
      let p := s.curP
      if l.st ≠ .live ∨ m &&& ~~~ Warp.loopIn l ≠ 0 then (s.raiseAll m Cause.lbrklvl).advance
      else
        let rest := p.mask &&& ~~~ m
        s.flow s.cur.unit s.cur.slot fun e w =>
          let w := w.dropLanes p.mask
          let w := [0, 1, 2, 3].foldl (fun w k =>
            if n ≤ k ∧ (w.loop k).st = .live then w.modLoop k fun x => { x with brk := x.brk ||| (m &&& x.lanes) } else w) w
          let w := w.modLoop n fun x => { x with wexit := x.wexit ||| m }
          let w := { w with run := if rest = 0 then 32 else Warp.laneKey rest }
          let w := if rest = 0 then w else w.goOn e p.pc s.cur.len rest p.j
          (w.loopTests e).collCheck e)

-- team hurdles (R147, R148, R150)

namespace State

/-- Arrivals of lanes at hurdle h: an open phase with another EXP is a fault (R148). -/
def arrive (s : State) (m : Lanes) (h n : Nat) : Except Unit State :=
  let u := s.cur.unit
  let uid := s.curW.team
  match s.team? u uid with
  | none => .ok s
  | some t =>
    let hd := t.hurdles.get h
    if hd.cnt ≠ 0 ∧ n ≠ hd.exp then .error ()
    else
      let hd' := { hd with exp := if hd.cnt = 0 then n else hd.exp, cnt := hd.cnt + count m }
      let s := s.modTeam u uid fun t => { t with hurdles := t.hurdles.set h hd' }
      .ok (s.modCur fun w => { w with
        arr := w.arr.modify h fun x => x ||| m
        aph := w.aph.modify h fun x => if hd.ph then x ||| m else x &&& ~~~ m })

/-- The wait of HWT and HURD for lanes at hurdle h: what they wait for is set, and what has passed is let go. -/
def awaitHurdle (s : State) (m : Lanes) (h : Nat) : State :=
  let ph := match s.team? s.cur.unit s.curW.team with
    | some t => (t.hurdles.get h).ph
    | none => false
  (s.waitFor (.teamHurdle h m)).flow s.cur.unit s.cur.slot fun e w => passHurdle e h ph w

end State

def execHarr (h : Head) (_x : Bool) (hd : BitVec 4) (n : BitVec 11) (s : State) : Host.Outcome State Fault Refusal :=
  let m := s.execLanes h
  .next (if m = 0 ∨ s.inTrap then s.advance
    else if s.lsuBusy s.cur.unit s.cur.slot m then s.blocked
    else match s.arrive m hd.toNat n.toNat with
    | .error _ => (s.raiseAll m Cause.hurdexp).advance
    | .ok s => (s.advance).hurdleCheck s.cur.unit s.curW.team hd.toNat)

/-- HWT at a team hurdle, which takes no n: N is not looked at (R147; log 101). -/
def execHwt (h : Head) (_x : Bool) (hd : BitVec 4) (_n : BitVec 11) (s : State) : Host.Outcome State Fault Refusal :=
  let m := s.execLanes h
  .next (if m = 0 ∨ s.inTrap then s.advance else s.awaitHurdle m hd.toNat)

def execHurd (h : Head) (_x : Bool) (hd : BitVec 4) (n : BitVec 11) (s : State) : Host.Outcome State Fault Refusal :=
  let m := s.execLanes h
  .next (if m = 0 ∨ s.inTrap then s.advance
    else if s.lsuBusy s.cur.unit s.cur.slot m then s.blocked
    else match s.arrive m hd.toNat n.toNat with
    | .error _ => (s.raiseAll m Cause.hurdexp).advance
    | .ok s => (s.awaitHurdle m hd.toNat).hurdleCheck s.cur.unit s.curW.team hd.toNat)

-- register granules (R40, R41, R158)

namespace State

/-- REGX is complete: the predicate of its lanes enters flight, and the path goes on. -/
def regxDone (s : State) (h : Head) (m : Lanes) (d : PReg) (ok : Bool) : State :=
  (s.inFlight h m false 0 ((lanes m).map fun l => pres l d.toNat ok)).advance

end State

def execRegx (h : Head) (d : PReg) (_x : Bool) (n : BitVec 6) (s : State) : Host.Outcome State Fault Refusal :=
  let m := s.execLanes h
  .next (if m = 0 then s.advance
    else if s.cur.unit.kind ≠ .sc ∨ n = 0 then s.regxDone h m d true
    else if s.inTrap ∨ 32 < s.curW.gran + n.toNat then s.regxDone h m d false
    else
      let s1 := s.modCore s.cur.unit fun c => { c with
        regxQ := c.regxQ ++ [⟨s.cur.slot, s.cur.path, m, n.toNat, d, s.cur.len⟩] }
      let s2 := s1.addPend h m false 1 []
      s2.waitFor .regx)

def execRegs (h : Head) (_x : Bool) (n : BitVec 6) (s : State) : Host.Outcome State Fault Refusal :=
  let m := s.execLanes h
  let keep := s.curW.gran - n.toNat
  let hit := [0, 1, 2, 3].any fun k =>
    let l := s.curW.loops.get k
    l.st != .free && Warp.winSize l != 0 && decide (8 * keep < Warp.winBase l + Warp.winSize l)
  .next (if m = 0 ∨ s.cur.unit.kind ≠ .sc ∨ s.inTrap then s.advance
    else if hit then (s.raiseAll m Cause.winregs).advance
    else (s.modCur fun w => { w with gran := keep, v := w.v.filter fun p => decide (p.1 % 256 < 8 * keep) }).advance)

-- traps (R159, R160)

def execTrap (h : Head) (_x : Bool) (code : BitVec 8) (s : State) : Host.Outcome State Fault Refusal :=
  .next (s.raiseAll (s.execLanes h) Cause.swtrap (BitVec.ofNat 64 (0x18 * 2 ^ 56 + code.toNat))).advance

namespace State

/-- The handler's earlier stores are not yet all performed at home (R369). -/
def storesOut (s : State) (u : UnitId) : Bool :=
  s.ops.any fun o => o.unit == u && o.slot == trapSlot && o.kind == .store && !settled o .pkg

/-- What ERET.retry and ERET.skip reload from the trap frame (R369). -/
def reload (s : State) : State :=
  let u := s.cur.unit
  match (s.core u).trap with
  | none => s
  | some t =>
    let slot := field t.fwarp.toNat 16 8
    match s.warp u slot with
    | none => s
    | some w =>
      let base := (s.curW.k.get 62).toNat / 4096 * 4096
      let rd := fun (o n : Nat) => s.ctxRead w.ctx (base + o) n
      let ls := lanes t.fmask
      let f := { (default : Warp) with width := 32 }.ofRecord ((List.range 512).map fun i => rd (8 * i) 8)
      let w' : Warp := ls.foldl (fun w l =>
        let w := (List.range (8 * w.gran)).foldl (fun w x => w.setV l x (BitVec.ofNat 32 (rd (0x1000 + 128 * x + 4 * l) 4))) w
        (List.range 7).foldl (fun w p => w.setP l p (f.pbit l p)) w) w
      let w' := { w' with k := f.k, hov := f.hov, seed := BitVec.ofNat 32 (Num.seedOf f.seed.toNat) }
      let w' := (List.range 4).foldl (fun w n => w.modLoop n fun l => { l with lc := (f.loops.get n).lc }) w'
      let s := s.setWarp u slot (some w')
      ls.foldl (fun s l => if f.hyOf l = w.hyOf l then s else s.setHy u slot l (f.hyOf l).toNat) s

/-- A HY of the frame that HSET would refuse (R369, R374). -/
def reloadBad (s : State) : Bool :=
  match (s.core s.cur.unit).trap with
  | none => false
  | some t =>
    match s.warp s.cur.unit (field t.fwarp.toNat 16 8) with
    | none => false
    | some w =>
      let base := (s.curW.k.get 62).toNat / 4096 * 4096
      (lanes t.fmask).any fun l =>
        let h := s.ctxRead w.ctx (base + 0xB40 + l) 1
        h != (w.hyOf l).toNat && h != 0 && (s.hypAt w.ctx h).st != HEnt.opened

/-- ERET (R159, R369): privileged; RETRY and SKIP with a trap frame first wait for the handler's stores. -/
def eret (s : State) (h : Head) (mode : Mode) : State :=
  let m := s.execLanes h
  if m = 0 then s.advance
  else if !s.inTrap then (s.raiseAll m Cause.privop).advance
  else if mode = .kill ∨ s.curW.k.get 62 = 0 then s.closeTrap mode
  else if s.storesOut s.cur.unit then s.blocked
  else if s.reloadBad then s.raiseAll m Cause.hsetst
  else s.reload.closeTrap mode

/-- The warp that PARK and UNPARK name, if it is one of the context on this core (R160, R373). -/
def parkTarget (s : State) (ident : Word) : Option Nat :=
  let slot := field ident.toNat 16 8
  match s.warp s.cur.unit slot with
  | some w =>
    if slot ≠ trapSlot ∧ w.ctx = s.curCtx ∧ warpWord s.cur.unit slot w.widx = ident then some slot else none
  | none => none

/-- Lanes of a warp are parked at their next instruction; those that wait, or have an instruction in flight, are parked when
that is over (R160). -/
def parkSome (s : State) (u : UnitId) (slot : Nat) (m : Lanes) : State :=
  match s.warp u slot with
  | none => s
  | some w =>
    let m := m &&& w.live &&& ~~~ w.parkedLanes
    let now := (lanes m).filter fun l => match w.pathOf l with
      | some p => (p.wait == .ready || p.wait == .token || p.wait == .reissue) &&
          !(w.pend.any fun (q : Pend) => q.lanes.getLsbD l)
      | none => false
    let later := m &&& ~~~ laneSet now
    let s := s.modWarp u slot fun w => { w with parkReq := w.parkReq ||| later }
    s.parkOutside u slot (now.map fun l => ⟨l, Cause.hpark, 0, 0⟩)

end State

def execEretRetry (h : Head) (s : State) : Host.Outcome State Fault Refusal := .next (s.eret h .retry)

def execEretSkip (h : Head) (s : State) : Host.Outcome State Fault Refusal := .next (s.eret h .skip)

def execEretKill (h : Head) (s : State) : Host.Outcome State Fault Refusal := .next (s.eret h .kill)

def execPark (h : Head) (a b : KReg) (s : State) : Host.Outcome State Fault Refusal :=
  let m := s.execLanes h
  .next (if m = 0 then s.advance
    else if !s.inTrap then (s.raiseAll m Cause.privop).advance
    else match s.parkTarget ((s.rk a.toNat).setWidth 32) with
    | none => s.raiseAll m Cause.parktgt
    | some slot => (s.parkSome s.cur.unit slot ((s.rk b.toNat).setWidth 32)).advance)

def execUnparkRetry (h : Head) (a b : KReg) (s : State) : Host.Outcome State Fault Refusal :=
  let m := s.execLanes h
  .next (if m = 0 then s.advance
    else if !s.inTrap then (s.raiseAll m Cause.privop).advance
    else match s.parkTarget ((s.rk a.toNat).setWidth 32) with
    | none => s.raiseAll m Cause.parktgt
    | some slot => (s.resumeLanes s.cur.unit slot ((s.rk b.toNat).setWidth 32) .retry none).advance)

def execUnparkSkip (h : Head) (a b : KReg) (s : State) : Host.Outcome State Fault Refusal :=
  let m := s.execLanes h
  .next (if m = 0 then s.advance
    else if !s.inTrap then (s.raiseAll m Cause.privop).advance
    else match s.parkTarget ((s.rk a.toNat).setWidth 32) with
    | none => s.raiseAll m Cause.parktgt
    | some slot => (s.resumeLanes s.cur.unit slot ((s.rk b.toNat).setWidth 32) .skip none).advance)

end Sys2Proof.Machine
end

