-- ==== Sys2Proof/Machine/Hyp.lean ====
section
/-! DEFINITION. Meanings of the hypothesis forms (R180 to R186, R374, R385). -/
namespace Sys2Proof.Machine

open Bits

namespace State

/-- What stops a lane from taking a hypothesis (R181, R374). An entry of a reserved STATE is not OPEN, and that cause ranks before
HTABLE (R364). -/
def hsetCause (s : State) (ctx h : Nat) : Option Nat :=
  if h = 0 ∨ (s.hypAt ctx h).st = HEnt.opened then none else some Cause.hsetst

/-- Lanes take hypotheses (R182, R385): lanes for which a cause holds keep theirs and are struck. -/
def hsetLanes (s : State) (ids : List (Nat × Nat)) : State :=
  let ctx := s.curCtx
  let u := s.cur.unit
  let slot := s.cur.slot
  let bad := ids.filterMap fun p => (s.hsetCause ctx p.2).map fun c => (⟨p.1, c, 0, 0⟩ : Strike)
  let good := ids.filter fun p => (s.hsetCause ctx p.2).isNone
  (good.foldl (fun s p => s.setHy u slot p.1 p.2) s).raise bad

/-- FREE entries of a table, lowest first (R182). -/
def freeHyps (s : State) (ctx : Nat) : List Nat :=
  ((List.range 256).drop 1).filter fun h => (s.hypAt ctx h).st == HEnt.free

/-- What stops HNEW under a parent, HFULL apart (R181, R374). -/
def hnewCause (s : State) (ctx p : Nat) : Option Nat :=
  let e := s.hypAt ctx p
  if e.st ≠ HEnt.opened then some Cause.hparent
  else if e.depth = 255 then some Cause.hdepth
  else none

/-- New children of parents, one for each of a list, in order; the identifiers (R182). -/
def openHyps (s : State) (ctx : Nat) : List Nat → List Nat × State
  | [] => ([], s)
  | p :: r =>
    let h := (s.freeHyps ctx).headD 0
    let s := s.setHyp ctx h ⟨HEnt.opened, (s.hypAt ctx p).depth + 1, p, 0, 0⟩
    let (hs, s) := openHyps s ctx r
    (h :: hs, s)

/-- The entries that HQRY.anc reads from b up until it meets a (R182). -/
def ancWalk (s : State) (ctx a : Nat) : Nat → Nat → List Nat
  | 0, b => [b]
  | n + 1, b =>
    if a = b ∨ b = 0 ∨ (s.hypAt ctx b).st ≠ HEnt.opened then [b] else b :: ancWalk s ctx a n (s.hypAt ctx b).parent

/-- HRES enters its ordering unit's queue; the path waits until it is accepted or refused (R185, R186). -/
def hres (s : State) (h : Head) (d a : KReg) (refute : Bool) : State :=
  let (m, s) := s.gate h
  if m = 0 then s.advance
  else
    let id := s.nextId
    let r : Resolve :=
      { ctx := s.curCtx, h := (s.rk a.toNat).setWidth 8, refute := refute, unit := s.cur.unit, slot := s.cur.slot, lanes := m
        pc := s.curP.pc, d := d, id := id, stage := .sent, toNotify := [], toAck := [], par := 0, tags := [], words := 0, posts := [] }
    let s := s.addPend h m false 1 []
    { s with resolves := s.resolves ++ [r] }.waitFor (.memArrival id)

end State

def execHset (h : Head) (a : VK) (s : State) : Host.Outcome State Fault Refusal :=
  let (m, s) := s.gate h
  .next (s.hsetLanes ((lanes m).map fun l => (l, (s.srcVK l a).toNat % 256))).advance

def execHnew (h : Head) (d a : VK) (s : State) : Host.Outcome State Fault Refusal :=
  let (m, s) := s.gate h
  let ctx := s.curCtx
  .next (if m = 0 then s.advance
    else match d with
    | .v d =>
      let ps := (lanes m).map fun l => (l, (s.srcVK l a).toNat % 256)
      let full := decide ((s.freeHyps ctx).length < count m)
      let bad := ps.filterMap fun p => (match s.hnewCause ctx p.2 with
        | some c => some c
        | none => if full then some Cause.hfull else none).map fun c => (⟨p.1, c, 0, 0⟩ : State.Strike)
      let good := if full then [] else ps.filter fun p => (s.hnewCause ctx p.2).isNone
      let (hs, s) := s.openHyps ctx (good.map (·.2))
      let s := s.raise bad
      (s.inFlight h (laneSet (good.map (·.1))) false 0
        ((good.zip hs).map fun p => s.vres p.1.1 d.toNat (BitVec.ofNat 32 p.2))).advance
    | .k d =>
      let p := (s.srcVK 0 a).toNat % 256
      match s.hnewCause ctx p, s.freeHyps ctx with
      | some c, _ => (s.raiseAll m c).advance
      | none, [] => (s.raiseAll m Cause.hfull).advance
      | none, _ :: _ =>
        let (hs, s) := s.openHyps ctx [p]
        (s.inFlight h m false 0 [State.kres d.toNat (BitVec.ofNat 64 (hs.headD 0))]).advance)

def execHresConfirm (h : Head) (d a : KReg) (s : State) : Host.Outcome State Fault Refusal := .next (s.hres h d a false)

def execHresRefute (h : Head) (d a : KReg) (s : State) : Host.Outcome State Fault Refusal := .next (s.hres h d a true)

def execHqryInfo (h : Head) (d a : KReg) (s : State) : Host.Outcome State Fault Refusal :=
  let (m, s) := s.gate h
  let id := (s.rk a.toNat).toNat % 256
  .next (if m = 0 then s.advance
    else if s.hypBad s.curCtx id then (s.raiseAll m Cause.htable).advance
    else (s.inFlight h m false 0 [State.kres d.toNat
      (BitVec.ofNat 64 (s.ctxRead s.curCtx (s.hypVa s.curCtx id) 8))]).advance)

def execHqryAnc (h : Head) (d : PReg) (a b : VReg) (s : State) : Host.Outcome State Fault Refusal :=
  let (m, s) := s.gate h
  let ctx := s.curCtx
  let rs := (lanes m).map fun l =>
    let x := (s.rv l a.toNat).toNat % 256
    (l, x, s.ancWalk ctx x 256 ((s.rv l b.toNat).toNat % 256))
  let bad := rs.filter fun r => r.2.2.any (s.hypBad ctx)
  let good := rs.filter fun r => !r.2.2.any (s.hypBad ctx)
  let s := s.raise (bad.map fun r => ⟨r.1, Cause.htable, 0, 0⟩)
  .next (s.inFlight h (laneSet (good.map (·.1))) false 0
    (good.map fun r => State.pres r.1 d.toNat (r.2.2.getLast? == some r.2.1))).advance

end Sys2Proof.Machine
end

