-- ==== Sys2Proof/Machine/Special.lean ====
section
/-! DEFINITION. Meanings of SRD and SWR: the special registers (R20, R29, R48, R49, R119, R146, R161, R192, R366, R372,
R373). -/
namespace Sys2Proof.Machine

open Bits

namespace State

/-- The value of a special register in a lane; FNEW apart. -/
def special (s : State) (sp l : Nat) : Dword :=
  let u := s.cur.unit
  let w := s.curW
  let c := s.core u
  let n := fun (x : Nat) => BitVec.ofNat 64 x
  let t := c.trap.getD default
  if sp = 0x000 then n l
  else if sp = 0x001 then (s.warpIdent u s.cur.slot).setWidth 64
  else if sp = 0x002 then n (pack [(28, w.teamIdx), (4, min w.heat 15)])
  else if sp = 0x003 then n (pack [(8, u.idx), (2, kindCode u.kind)])
  else if sp = 0x004 then n u.die
  else if sp = 0x005 then n (s.pace u.die)
  else if sp < 0x014 then (w.loops.get (sp - 0x010)).lc.setWidth 64
  else if sp < 0x018 then (w.loops.get (sp - 0x014)).ls
  else if sp < 0x01C then (w.loops.get (sp - 0x018)).le
  else if sp < 0x020 then (w.loops.get (sp - 0x01C)).rw.setWidth 64
  else if sp < 0x024 then (w.loops.get (sp - 0x020)).rb.setWidth 64
  else if sp = 0x024 then w.sp.setWidth 64
  else if sp = 0x030 then (w.hyOf l).setWidth 64
  else if sp = 0x031 then w.hov
  else if sp = 0x040 then w.gng
  else if sp < 0x060 then n (c.chans.get (sp - 0x050)).wm
  else if sp = 0x070 then w.seed.setWidth 64
  else if sp = 0x071 then n (s.congLevel u)
  else if sp = 0x072 then w.wdog.setWidth 64
  else if sp < 0x180 then c.sq.get (sp - 0x100)
  else if sp = 0x800 then n (s.ctxDesc w.ctx).cfg.toNat
  else if sp = 0x801 then t.fcause.setWidth 64
  else if sp = 0x802 then t.fpc
  else if sp = 0x803 then t.fmask.setWidth 64
  else if sp = 0x804 then t.faddr
  else if sp = 0x805 then t.fwarp.setWidth 64
  else t.finfo

/-- Whether a GNG value, its read-only bits apart, follows R192 for a warp of a team. With COUNT 0 the fields name no warp and
hold any value (log 84). -/
def gngOk (w : Warp) (nwarps : Nat) (v : Nat) : Bool :=
  let n := field v 32 3
  let fs := (List.range n).map fun i => field v (5 * i) 5
  (if n = 0 then true
   else decide (2 ≤ n ∧ n ≤ 6) && decide fs.Nodup && fs.all (fun f => decide (f < nwarps)) && fs.contains w.widx &&
     field v (5 * n) (30 - 5 * n) == 0)

/-- A write of GNG by GANG or SWR, once for the path (R192); read-only bits keep their 0 (R5, R49). -/
def writeGng (s : State) (m : Lanes) (v : Dword) : State :=
  let v := v &&& 0x73FFFFFFF
  let w := s.curW
  let nw := (((s.team? s.cur.unit w.team).map (·.nwarps)).getD 1)
  if gngOk w nw v.toNat then s.modCur fun w => { w with gng := v } else s.raiseAll m Cause.rsvgng

/-- LC, LS or LE of a level as SWR changes it: of a live level at its next back-edge test (R146). -/
def loopWrite (l : Loop) (sp : Nat) (v : Dword) : Loop :=
  match decide (sp < 0x014), decide (sp < 0x018), l.st with
  | true, _, .live => { l with nlc := some (v.setWidth 32) }
  | true, _, _ => { l with lc := v.setWidth 32 }
  | false, true, .live => { l with nls := some v }
  | false, true, _ => { l with ls := v }
  | false, false, .live => { l with nle := some v }
  | false, false, _ => { l with le := v }

/-- A write of a uniform special register by the lanes m (R49, R161). -/
def writeSpecial (s : State) (m : Lanes) (sp : Nat) (v : Dword) : State :=
  let u := s.cur.unit
  let w := s.curW
  let x := v.toNat % 2 ^ 32
  let trap := fun (f : OpenTrap → OpenTrap) => s.modCore u fun c => { c with trap := c.trap.map f }
  if sp < 0x01C then
    if 0x014 ≤ sp ∧ v.toNat % 8 ≠ 0 then s.raiseAll m Cause.specval
    else s.modCur fun w => w.modLoop (sp % 4) fun l => loopWrite l sp v
  else if sp < 0x020 then
    let rw : Word := BitVec.ofNat 32 x &&& 0x0F01FFFF
    let busy := (w.loops.get (sp - 0x01C)).st != .free
    match Cause.first (causeIf busy Cause.loopbusy ++ windowCauses w (sp - 0x01C) rw) with
    | some c => s.raiseAll m c
    | none => s.modCur fun w => w.modLoop (sp - 0x01C) fun l => { l with rw := rw }
  else if sp < 0x024 then
    let size := Warp.winSize (w.loops.get (sp - 0x020))
    let off := x % 256
    if (size ≠ 0 ∧ size ≤ off) ∨ (size = 0 ∧ off ≠ 0) then s.raiseAll m Cause.specval
    else s.modCur fun w => w.modLoop (sp - 0x020) fun l => { l with rb := BitVec.ofNat 32 off }
  else if sp = 0x024 then s.modCur fun w => { w with sp := BitVec.ofNat 8 x }
  else if sp = 0x031 then s.modCur fun w => { w with hov := v }
  else if sp = 0x040 then s.writeGng m v
  else if sp = 0x070 then s.modCur fun w => { w with seed := BitVec.ofNat 32 (Num.seedOf x) }
  else if sp = 0x072 then s.modCur fun w => { w with wdog := BitVec.ofNat 32 (x % 2 ^ 24) }
  else if sp < 0x180 then s.modCore u fun c => { c with sq := c.sq.set (sp - 0x100) v }
  else if sp = 0x800 then
    s.modCtxRt w.ctx fun c => { c with desc := c.desc.map fun d => { d with cfg := BitVec.ofNat 2 x } }
  else if sp = 0x802 then trap fun t => { t with fpc := v }
  else if sp = 0x803 then trap fun t => { t with fmask := BitVec.ofNat 32 x }
  else if sp = 0x805 then trap fun t => { t with fwarp := BitVec.ofNat 32 x }
  else s

end State

def execSrd (h : Head) (d : VK) (_x : Bool) (spec : BitVec 12) (s : State) : Host.Outcome State Fault Refusal :=
  let sp := spec.toNat
  let m := s.execLanes h
  .next (if m = 0 then s.advance
    else if Spec.priv sp && !s.inTrap then (s.raiseAll m Cause.privspec).advance
    else if sp = 0x073 then
      match s.freeFslot s.curCtx with
      | none => s.blocked
      | some k =>
        let (hd, s) := s.newHandle s.curCtx k
        let s := s.modCtxRt s.curCtx fun c => { c with fnew := c.fnew ++ [hd] }
        let v : Dword := hd.setWidth 64
        (s.inFlight h m false 0 (match d with
          | .k d => [State.kres d.toNat v]
          | .v d => (lanes m).flatMap fun l => s.vres2 l d.toNat v)).advance
    else match d with
    | .k d => (s.write [State.kres d.toNat (s.special sp 0)]).advance
    | .v d => (s.write ((lanes m).flatMap fun l => s.resW l d (Spec.wide sp) (s.special sp l))).advance)

def execSwr (h : Head) (a : VK) (_x : Bool) (spec : BitVec 12) (s : State) : Host.Outcome State Fault Refusal :=
  let sp := spec.toNat
  let m := s.execLanes h
  let val := fun (l : Nat) => match a with
    | .k r => s.rk r.toNat
    | .v r => s.srcW l r (Spec.wide sp)
  .next (match lowest m with
    | none => s.advance
    | some l0 =>
      if Spec.priv sp && !s.inTrap then (s.raiseAll m Cause.privspec).advance
      else if Spec.ro sp then (s.raiseAll m Cause.specro).advance
      else if sp = 0x030 then (s.hsetLanes ((lanes m).map fun l => (l, (val l).toNat % 256))).advance
      else (s.writeSpecial m sp (val l0)).advance)

end Sys2Proof.Machine
end

