-- ==== Sys2Proof/Machine/Tex.lean ====
section
/-! DEFINITION. Texture sampling: descriptors, levels of detail, the texels a sample reads, and its channels (R308 to
R310). -/
namespace Sys2Proof.Machine

open Bits

/-- A descriptor from its eight dwords; none where it breaks R308. -/
def texDesc? (d : Nat → Nat) : Option TexDesc :=
  let x := d 1
  let t : TexDesc := ⟨d 0, field x 0 16, field x 16 16, field x 32 4 + 1, field x 36 4, field x 40 2, field x 42 2, bit x 44, bit x 45,
    field (d 2) 0 32, field (d 2) 32 32⟩
  if (List.range 5).any (fun i => d (3 + i) != 0) ∨ x / 2 ^ 46 ≠ 0 ∨ t.wrapU = 3 ∨ t.wrapV = 3 ∨ 3 < t.fmt ∨ 15 < t.levels ∨
     t.w = 0 ∨ 16384 < t.w ∨ t.h = 0 ∨ 16384 < t.h ∨ t.base % 128 ≠ 0 then none
  else some t

namespace TexDesc

/-- Bytes of a texel. -/
def texel (t : TexDesc) : Nat := match t.fmt with | 1 => 8 | 2 => 16 | _ => 4

def width (t : TexDesc) (l : Nat) : Nat := max 1 (t.w / 2 ^ l)
def height (t : TexDesc) (l : Nat) : Nat := max 1 (t.h / 2 ^ l)
def pitch (t : TexDesc) (l : Nat) : Nat := cdiv (t.width l * t.texel) 128 * 128

/-- Where a level begins. -/
def levelAt (t : TexDesc) (l : Nat) : Nat := t.base + ((List.range l).map fun k => t.pitch k * t.height k).sum

/-- The address of a texel. -/
def addr (t : TexDesc) (l i j : Nat) : Nat := t.levelAt l + j * t.pitch l + i * t.texel

end TexDesc

/-- Wrap of R309. -/
def texWrap (i : Int) (n mode : Nat) : Nat :=
  match mode with
  | 0 => (i % n).toNat
  | 1 => (min (max i 0) ((n : Int) - 1)).toNat
  | _ => let m := (i % (2 * n : Nat)).toNat; if m < n then m else 2 * n - 1 - m

/-- An F32 coordinate; a non-finite one is read as 0 (R309). -/
def finiteF32 (b : Nat) : Rat := match Num.decodeF Num.f32 b with | .fin _ q => q | _ => 0

/-- Q8 of R309, in 256ths. -/
def q8 (f : Rat) : Nat := (Num.roundInt .rne 0 (f * 256)).toNat

/-- log2 of a positive value. -/
def log2Rat (q : Rat) : Rat :=
  let e := Num.floorLog2 q
  (e : Rat) + mkRat (Num.log2Fix (q / Num.pow2 e)) (2 ^ Num.fp)

/-- The level of detail used, from lambda; none where the descriptor's limits leave no level (R309): a blend needs the level below
it, the nearest level half a level more. -/
def texLod (t : TexDesc) (blend : Bool) (lam : Rat) : Option Rat :=
  let top : Rat := ((t.levels - 1 : Nat) : Rat)
  let up : Option Rat := match Num.decodeF Num.f32 t.bias with
    | .fin _ b => some (if lam + b < 0 then 0 else lam + b)
    | .inf n => some (if n then 0 else top)
    | .nan => none
  let lim : Option Rat := match Num.decodeF Num.f32 t.lodmax with
    | .fin _ m => some (if m < top then m else top)
    | .inf n => if n then none else some top
    | .nan => none
  match up, lim with
  | some a, some b => let x := if a < b then a else b; if x < (if blend then 0 else -(1 / 2)) then none else some x
  | _, _ => none

/-- A texel of a sample: its weight, its level and its place. -/
structure TexTap where
  weight : Rat
  level : Nat
  i : Nat
  j : Nat
  deriving DecidableEq, Repr, Inhabited

/-- The texels that Level reads (R309). -/
def texLevel (t : TexDesc) (filt : Bool) (wt : Rat) (u v : Rat) (l : Nat) : List TexTap :=
  let x := u * (t.width l : Rat) - 1 / 2
  let y := v * (t.height l : Rat) - 1 / 2
  let tap := fun (w : Rat) (i j : Int) => (⟨w, l, texWrap i (t.width l) t.wrapU, texWrap j (t.height l) t.wrapV⟩ : TexTap)
  if !filt then [tap wt (x + 1 / 2).floor (y + 1 / 2).floor]
  else
    let i := x.floor
    let j := y.floor
    let a : Rat := mkRat (q8 (x - i)) 256
    let b : Rat := mkRat (q8 (y - j)) 256
    [tap (wt * (1 - a) * (1 - b)) i j, tap (wt * a * (1 - b)) (i + 1) j, tap (wt * (1 - a) * b) i (j + 1), tap (wt * a * b) (i + 1) (j + 1)]

/-- The texels of Sample at a level of detail (R309). -/
def texSample (t : TexDesc) (u v lod : Rat) : List TexTap :=
  if !t.mipf then texLevel t t.filt 1 u v (lod + 1 / 2).floor.toNat
  else
    let l := lod.floor.toNat
    let w : Rat := mkRat (q8 (lod - (l : Rat))) 256
    texLevel t t.filt (1 - w) u v l ++ texLevel t t.filt w u v (min (l + 1) (t.levels - 1))

/-- The texels of TEXG (R310): the four of bilinear filtering at the nearest level, each as it is. -/
def texGather (t : TexDesc) (u v lod : Rat) : List TexTap :=
  (texLevel t true 1 u v (lod + 1 / 2).floor.toNat).map fun p => { p with weight := 1 }

/-- A channel of a texel from its bytes (R308). -/
def texChannel (fmt x c : Nat) : Num.FVal :=
  match fmt with
  | 0 => .fin false (mkRat (field x (8 * c) 8) 255)
  | 1 => Num.decodeF Num.f16 (field x (16 * c) 16)
  | 2 => Num.decodeF Num.f32 (field x (32 * c) 32)
  | _ => if c = 0 then Num.decodeF Num.f32 (field x 0 32) else .fin false (if c = 3 then 1 else 0)

/-- A channel of a sample, rounded once. -/
def texMix (fmt c : Nat) (ts : List (TexTap × Nat)) : Nat :=
  Num.rne Num.f32 (ts.foldl (fun (a : Num.FVal) x => Num.add a (Num.mul (.fin false x.1.weight) (texChannel fmt x.2 c))) (.fin true 0))

def TexRec.taps (r : TexRec) : List TexTap :=
  if r.gather = 0 then texSample r.desc (finiteF32 r.u) (finiteF32 r.v) r.lod
  else texGather r.desc (finiteF32 r.u) (finiteF32 r.v) r.lod

/-- The four results of a lane from its texels. -/
def TexRec.finish (r : TexRec) (lane : Nat) (texels : List Nat) : List RegVal :=
  let ts := r.taps.zip texels
  (List.range 4).map fun c =>
    let x := if r.gather = 0 then texMix r.desc.fmt c ts
      else texMix r.desc.fmt (r.gather - 1) ((ts.drop c).take 1)
    ⟨.v, r.dst.getD c 0, lane, BitVec.ofNat 64 x⟩

/-- The word of a texel's bytes that an access brought: texel k, word j is result 4k + j of file x. -/
def texWordNo (k j : Nat) : Nat := 4 * k + j

/-- A texel from what has come of it. -/
def texelOf (res : List RegVal) (words lane k : Nat) : Option Nat :=
  let ws := (List.range words).map fun j => (res.find? fun r => r.file == .x && r.lane == lane && r.reg == texWordNo k j).map (·.val.toNat)
  if ws.all (·.isSome) then some (ws.zipIdx.foldl (fun n w => n + w.1.getD 0 * 2 ^ (32 * w.2)) 0) else none

/-- The results of a sample in flight once its texels have come; a lane that was parked gets none. -/
def texResults (p : Pend) : List RegVal :=
  (p.res.filter fun r => r.file != .x) ++ p.tex.flatMap fun x =>
    let ts := (List.range x.2.taps.length).map (texelOf p.res (x.2.desc.texel / 4) x.1)
    if ts.all (·.isSome) then x.2.finish x.1 (ts.map fun t => t.getD 0) else []

namespace State

/-- The texels of an instruction have all come: its channels are computed (R309). -/
def texDone (s : State) (u : UnitId) (slot id : Nat) : State :=
  let one := fun (p : Pend) => if p.id = id ∧ p.hold = 0 ∧ p.tex ≠ [] then { p with res := texResults p, tex := [] } else p
  if (match s.warp u slot with | some w => w.pend.any fun p => p.id == id && p.tex != [] | none => false) then
    s.modWarp u slot fun w => { w with pend := w.pend.map one }
  else s

end State

end Sys2Proof.Machine
end

