-- ==== Sys2Proof/Machine/Work.lean ====
section
/-! DEFINITION. Meanings of SPAWN, TASK, FWAIT, FTEST, CANCEL and BATON, and of what goes on with a SPAWN or BATON whose
lanes wait (R27 to R29, R151 to R157, R264, R399 to R402). -/
namespace Sys2Proof.Machine

open Bits

namespace State

/-- The record registers of lanes, as read at issue (R151, R154). -/
def recordsOf (s : State) (m : Lanes) (a words : Nat) : List (Nat × List Word) :=
  (lanes m).map fun l => (l, (List.range (words + 1)).map fun i => s.rv l (a + i))

/-- The lanes of a form that did not come through wait with the path; where none is left, the path goes on. -/
def workOn (s : State) (id : Nat) (baton : Bool) (dst : Nat) (e : Dword) (left : List (Nat × List Word)) (ks : List Dword)
    (pool : Option Nat) : State :=
  if left = [] then (s.pendDone s.cur.unit s.cur.slot id []).advance
  else s.waitFor (.work baton id dst e left ks (s.pace s.cur.unit.die) pool)

/-- A waiting SPAWN or BATON of a warp is tried again (R25, R155). -/
def workAgain (s : State) (u : UnitId) (slot : Nat) (baton : Bool) : State :=
  match s.warp u slot with
  | none => s
  | some w =>
    match w.paths.find? fun p => match p.wait with | .work b .. => b == baton | _ => false with
    | none => s
    | some p =>
      match p.wait with
      | .work _ id dst e left ks since pool =>
        let now := s.pace u.die
        let (s, left', pool', xs) :=
          if baton then
            let (s, left', hs) := batonLanes u w.ctx w.prio (s.taskIssuer u w) e ks s left
            (s.modWarp u slot fun w => { w with pend := w.pend.map fun q =>
              if q.id == id then { q with res := q.res ++ hs.map fun x => ⟨.v, dst, x.1, x.2.setWidth 64⟩ } else q }, left', none, [])
          else spawnLanes u (slot != trapSlot) w.ctx w.prio e s pool left
        let s := s.modWarp u slot fun w => { w with paths := w.paths.map fun (q : Path) =>
          if q.wait == p.wait then
            { q with wait := .work baton id dst e left' ks (if left'.length < left.length then now else since) pool' } else q }
        let s := s.parkBack u slot p.pc xs
        if left' ≠ [] then s
        else
          let s := s.pendDone u slot id []
          s.flow u slot fun e w =>
            match w.paths.find? fun (q : Path) => (q.mask &&& p.mask) != 0 && q.pc == p.pc with
            | some q => w.pathOn e q
            | none => w
      | _ => s

end State

def execSpawn (h : Head) (a : VReg) (_x : Bool) (words : BitVec 4) (off : BitVec 60) (s : State) :
    Host.Outcome State Fault Refusal :=
  let m := s.execLanes h
  let u := s.cur.unit
  let w := s.curW
  let e := s.curP.pc + off.signExtend 64 <<< 3
  .next (if m = 0 then s.advance
    else if s.lsuBusy u s.cur.slot m then s.blocked
    else
      let id := s.nextId
      let rs := s.recordsOf m a.toNat words.toNat
      let s := s.addPend h m false 1 []
      let (s, left, pool, xs) := State.spawnLanes u (!s.inTrap) w.ctx w.prio e s none rs
      (s.raise (State.countLanes xs)).workOn id false 0 e left [] pool)

namespace State

/-- The tile a TASK selector names (R153): none where it lies outside the context's slices. Its reserved bits are not looked at (log
102). -/
def taskTile (s : State) (u : UnitId) (ctx sel : Nat) : Option UnitId :=
  if bit sel 15 then
    let ts := (List.range 4).map fun j => (⟨.tt, u.die, 4 * sliceOf u + j⟩ : UnitId)
    match ts with
    | t :: r => some (r.foldl (fun a b => if (s.freeSlots a).length < (s.freeSlots b).length then b else a) t)
    | [] => none
  else
    let t : UnitId := ⟨.tt, field sel 8 1, field sel 0 6⟩
    if (s.ctxSlices ctx).contains (16 * t.die + sliceOf t) then some t else none

end State

def execTask (h : Head) (d a : KReg) (_x : Bool) (off : Dword) (s : State) : Host.Outcome State Fault Refusal :=
  let m := s.execLanes h
  let u := s.cur.unit
  let w := s.curW
  let e := s.curP.pc + off <<< 3
  .next (if m = 0 then s.advance
    else if s.lsuBusy u s.cur.slot m then s.blocked
    else match s.taskTile u w.ctx (s.rk (a.toNat + 1)).toNat with
    | none => (s.raiseAll m Cause.tasksel).advance
    | some t =>
      match s.freeFslot w.ctx with
      | none => s.blocked
      | some k =>
        let arg := s.rk a.toNat
        let (hd, s) := s.newHandle w.ctx k
        let s := s.queueTask t ⟨e, hd, w.prio, w.prio, s.pace t.die, arg, [], [], s.taskIssuer u w⟩
        (s.inFlight h m false 0 [State.kres d.toNat (hd.setWidth 64)]).advance)

def execBaton (h : Head) (d a : VReg) (_x : Bool) (words : BitVec 4) (off : BitVec 60) (s : State) :
    Host.Outcome State Fault Refusal :=
  let m := s.execLanes h
  let u := s.cur.unit
  let w := s.curW
  let e := s.curP.pc + off.signExtend 64 <<< 3
  .next (if m = 0 then s.advance
    else if s.lsuBusy u s.cur.slot m then s.blocked
    else
      let id := s.nextId
      let rs := s.recordsOf m a.toNat words.toNat
      let ks := (List.range 32).map fun i => s.rk i
      let dst := w.phys d.toNat
      let s := s.addPend h m false 1 []
      let (s, left, hs) := State.batonLanes u w.ctx w.prio (s.taskIssuer u w) e ks s rs
      let s := s.modCur fun (w : Warp) => { w with pend := w.pend.map fun (q : Pend) =>
        if q.id == id then { q with res := hs.map fun x => ⟨.v, dst, x.1, x.2.setWidth 64⟩ } else q }
      s.workOn id true dst e left ks none)

-- fence handles (R28, R29, R156, R157, R401)

namespace State

/-- The handles an instruction names, one for each executing lane. -/
def handlesOf (s : State) (m : Lanes) (a : VK) : List (Nat × Word) := (lanes m).map fun l => (l, (s.srcVK l a).setWidth 32)

/-- What R401 makes of a handle: the cause that strikes, or none. -/
def handleCause (s : State) (ctx : Nat) (h : Word) : Option Nat :=
  if h = 0 ∨ s.handleOk ctx h then none
  else
    let f := s.fslot ctx (handleSlot h)
    if handleSlot h < (s.ctxDesc ctx).ftsize ∧ handleGen h ≠ 0 ∧ handleGen h = prevGen f.gen ∧ f.retired then
      some Cause.hretired
    else some Cause.hstale

/-- The issuer's own handle, or the DONE handle of its own grid (R373). -/
def ownHandle (s : State) (h : Word) (done : Bool) : Bool :=
  let w := s.curW
  h != 0 && (h == w.handle || (done && (match s.curTeam.map fun (t : Team) => t.src with
    | some (TeamSrc.grid q r) => s.grids.any fun g => g.ctx == w.ctx && g.queue == q && g.ridx == r && g.done == h
    | _ => false)))

/-- Lanes whose handles are struck. -/
def handleStrikes (s : State) (hs : List (Nat × Word)) (self grid : Bool) : List Strike :=
  hs.filterMap fun x =>
    if self && s.ownHandle x.2 grid then some ⟨x.1, Cause.selfwait, 0, 0⟩
    else (s.handleCause s.curCtx x.2).map fun c => ⟨x.1, c, 0, 0⟩

/-- Whether a good handle is complete: null, complete, or freed and not allocated again (R156). -/
def handleDone (s : State) (ctx : Nat) (h : Word) : Bool := h == 0 || (s.fslot ctx (handleSlot h)).st != 1

/-- Results of FWAIT and CANCEL in their register file. -/
def vkRes (s : State) (d : VK) (rs : List (Nat × Nat)) : List RegVal :=
  match d with
  | .v d => rs.map fun x => s.vres x.1 d.toNat (BitVec.ofNat 32 x.2)
  | .k d => (rs.take 1).map fun x => kres d.toNat (BitVec.ofNat 64 x.2)

/-- The slot of a complete handle becomes free (R28). -/
def freeHandle (s : State) (ctx : Nat) (h : Word) : State :=
  if h = 0 then s
  else
    let f := s.fslot ctx (handleSlot h)
    if f.st = 2 then s.setFslot ctx (handleSlot h) { f with st := 0 } else s

/-- Whether the distributor has taken a launch that names a handle (R29). -/
def launchTaken (s : State) (ctx : Nat) (h : Word) : Bool := s.grids.any fun g => g.ctx == ctx && g.done == h

/-- A handle that completes a grid and no thread: from FNEW, or host-owned (R29). -/
def isDoneHandle (s : State) (ctx : Nat) (h : Word) : Bool :=
  let d := s.ctxDesc ctx
  (s.ctxRt ctx).fnew.contains h || decide (d.ftsize - d.fthost ≤ handleSlot h)

/-- CANCEL of one handle (R29, R157, R264): the result and what becomes of the work. -/
def cancelOne (s : State) (ctx : Nat) (h : Word) : Nat × State :=
  if s.handleDone ctx h then (2, s)
  else match s.cores.find? fun p => p.2.taskQ.any (fun t => t.handle == h) && s.runs (unitOf p.1) ctx with
  | some (n, _) =>
    (0, (s.modCore (unitOf n) fun c => { c with taskQ := c.taskQ.filter fun t => t.handle != h }).completeHandle ctx h 1)
  | none =>
    if s.launchTaken ctx h then (3, s)
    else if s.isDoneHandle ctx h then (0, s.completeHandle ctx h 1)
    else (1, s)

def cancelAll (ctx : Nat) : State → List (Nat × Word) → List (Nat × Nat) × State
  | s, [] => ([], s)
  | s, (l, h) :: t =>
    let (r, s) := s.cancelOne ctx h
    let (rs, s) := cancelAll ctx s t
    ((l, r) :: rs, s)

/-- An acquire of everything performed before: the agent's program time passes every write (R155, R240). -/
def acquireAll (s : State) (u : UnitId) : State := s.modAgent (unitNo u) fun a => { a with pts := later a.pts s.latest }

end State

def execFwait (h : Head) (d a : VK) (s : State) : Host.Outcome State Fault Refusal :=
  let m := s.execLanes h
  .next (if m = 0 then s.advance
    else
      let ctx := s.curCtx
      let hs := s.handlesOf m a
      let xs := s.handleStrikes hs true true
      let good := hs.filter fun x => !(xs.any fun y => y.lane == x.1)
      let s := s.raise xs
      if good = [] then s.advance
      else if good.all fun x => s.handleDone ctx x.2 then
        let rs := good.map fun x => (x.1, if x.2 = 0 then 0 else (s.fslot ctx (State.handleSlot x.2)).status)
        let s := good.foldl (fun s x => s.freeHandle ctx x.2) s
        ((s.acquireAll s.cur.unit).inFlight h (laneSet (good.map (·.1))) false 0 (s.vkRes d rs)).advance
      else s.blocked)

def execFtest (h : Head) (d : PReg) (a : VK) (s : State) : Host.Outcome State Fault Refusal :=
  let m := s.execLanes h
  let ctx := s.curCtx
  let hs := s.handlesOf m a
  let xs := s.handleStrikes hs false false
  let good := hs.filter fun x => !(xs.any fun y => y.lane == x.1)
  let s := s.raise xs
  .next (s.inFlight h (laneSet (good.map (·.1))) false 0
    (good.map fun x => State.pres x.1 d.toNat (s.handleDone ctx x.2))).advance

def execCancel (h : Head) (d a : VK) (s : State) : Host.Outcome State Fault Refusal :=
  let m := s.execLanes h
  let ctx := s.curCtx
  let hs := s.handlesOf m a
  let xs := s.handleStrikes hs true false
  let good := hs.filter fun x => !(xs.any fun y => y.lane == x.1)
  let s := s.raise xs
  let once := match a with | .k _ => good.take 1 | .v _ => good
  let (rs, s) := State.cancelAll ctx s once
  .next (s.inFlight h (laneSet (good.map (·.1))) false 0 (s.vkRes d rs)).advance

end Sys2Proof.Machine
end

