-- ==== Sys2Proof/Machine/Warps.lean ====
section
/-! DEFINITION. Events of warps and cores: results written, bins and queues served, register requests answered, waits that
end, deferred parking, warps, teams and grids that retire, and the traps that no instruction raises (R25, R26, R30, R34,
R41, R42, R57, R59, R138, R139, R155, R160, R258, R331, R344, R366, R380, R382, R383, R402). -/
namespace Sys2Proof.Machine

open Bits

namespace State

-- results (R56, R57, R59, R165)

/-- The registers a pending instruction is still to write, each once, in order. -/
def pendRegs (p : Pend) : List (RFile × Nat) := (p.res.map fun r => (r.file, r.reg)).eraseDups

/-- Stores and atomics without a result read their sources before they are complete; their token clears then (R57). -/
def earlyToken (s : State) (p : Pend) : Bool :=
  let os := s.ops.filter fun o => o.instr == p.id
  decide (0 < p.hold) && p.res == [] && p.tok.isSome && os != [] && os.all fun o => match o.kind with
    | .store | .scrStore => true
    | .atomic | .scrAtomic => o.dst == []
    | _ => false

/-- Chosen results of a pending instruction reach their registers; a result whose register a later instruction has
written may be lost (R59). When none is left, the instruction is complete. -/
def writeback (s : State) (u : UnitId) (slot id : Nat) (m : Lanes) (regs : BitVec 16) : State :=
  let s := s.texDone u slot id
  match (s.warp u slot).bind fun w => w.pend.find? fun p => p.id == id with
  | none => s
  | some p =>
    if s.earlyToken p then
      s.modWarp u slot fun w =>
        ({ w with pend := w.pend.map fun (q : Pend) => if q.id == id then { q with tok := none } else q }).tokDec p.tok
    else if p.hold ≠ 0 then s
    else
      let keys := pendRegs p
      let chosen := fun (r : RegVal) =>
        if r.file = .t then m.getLsbD (r.reg % 1024 / 32) else
        if r.file = .sq then true else
        (!perLaneFile r.file || m.getLsbD r.lane) && regs.getLsbD ((keys.idxOf? (r.file, r.reg)).getD 16)
      let now := p.res.filter chosen
      let kept := now.filter fun r => !(p.clob.contains (r.file, r.reg, r.lane) &&
        Config.freeSide s.free (sideKey r.file r.reg r.lane 1))
      let rest := p.res.filter fun r => !chosen r
      let s := s.modCore u fun c => { c with
        tiles := kept.foldl (fun t r => if r.file = .t then t.set r.reg (r.val.setWidth 32) else t) c.tiles
        sq := kept.foldl (fun t r => if r.file = .sq then t.set r.reg r.val else t) c.sq }
      let s := s.modWarp u slot fun w =>
        let w := w.applyAll kept
        if rest = [] then ({ w with pend := w.pend.filter fun (q : Pend) => q.id != id }).tokDec p.tok
        else { w with pend := w.pend.map fun (q : Pend) => if q.id == id then { q with res := rest } else q }
      { (s.leaveAdmitted u).healRegs u slot (kept.map fun r => (r.file, r.reg, r.lane)) with free := s.free + 1 }

-- paths

/-- A path of a warp that waited goes on to its next instruction. -/
def pathOn (s : State) (u : UnitId) (slot : Nat) (p : Path) : State :=
  s.flow u slot fun e w => w.pathOn e p

/-- Blocked paths of a warp try their instruction again. -/
def retry (s : State) (u : UnitId) (slot : Nat) : State :=
  s.modWarp u slot fun w => { w with
    paths := w.paths.map fun (p : Path) => if p.wait = .reissue then { p with wait := .ready } else p }

-- REGX (R41, R42)

/-- A REGX request is answered: its predicate enters the results, and its path goes on. -/
def regxAnswer (s : State) (u : UnitId) (r : RegxReq) (ok : Bool) : State :=
  let s := s.modCore u fun c => { c with regxQ := c.regxQ.filter fun x => x != r }
  match s.warp u r.slot with
  | none => s
  | some w =>
    match w.pathOf r.path with
    | none => s
    | some p =>
      let id := ((w.pend.find? fun q => q.hold == 1 && q.pc == p.pc && q.lanes == r.lanes && !q.mem).map (·.id)).getD 0
      let s := s.modWarp u r.slot fun w => { w with gran := if ok then w.gran + r.n else w.gran }
      (s.pendDone u r.slot id ((lanes r.lanes).map fun l => pres l r.d.toNat ok)).pathOn u r.slot p

/-- A path that waits in REGX, or for what another warp of its core has to do (R42). -/
def waitsOnCore (p : Path) : Bool :=
  match p.wait with
  | .regx | .teamHurdle .. | .latch | .coll => true
  | _ => false

/-- Every resident warp of a core waits (R42). -/
def allWait (s : State) (u : UnitId) : Bool :=
  !((s.core u).latches.any fun l => l.full) && (s.core u).warps.all fun p => match p.2 with
    | some w => p.1 == trapSlot || (w.parked == [] && w.live != 0 && w.paths.all waitsOnCore)
    | none => true

/-- The request of the warp that started last. -/
def youngest (s : State) (u : UnitId) : Option RegxReq :=
  (s.core u).regxQ.foldl (fun (a : Option RegxReq) b => match a with
    | none => some b
    | some x =>
      let t := fun (r : RegxReq) => ((s.warp u r.slot).map (·.startSeq)).getD 0
      if t x < t b then some b else a) none

-- retirement (R138, R258)

/-- A grid has one team fewer running; the header of a queue whose latest launch it is follows (R257). The grid completes
when none is left and all have been placed (R258). -/
def gridDec (s : State) (ctx q r heat : Nat) : State :=
  let mine := fun (g : Grid) => g.ctx == ctx && g.queue == q && g.ridx == r
  match s.grids.find? mine with
  | none => s
  | some g =>
    let g' := { g with live := g.live - 1 }
    let opened := [0, 1].any fun d => (s.die d).launches.any fun l => l.ctx == ctx && l.queue == q && l.ridx == r
    let s := { s with grids := s.grids.map fun x => if mine x then g' else x }
    let up := fun (s : State) (d : Nat) => s.modDie d fun x => { x with launches := x.launches.map fun l =>
      if l.ctx == ctx && l.queue == q && l.ridx == r then { l with maxHeat := some (max ((l.maxHeat).getD 0) heat) } else l }
    let s := up (up s 0) 1
    let s := if s.peek (g.hdr + 16) 8 = r + 1 then
        let s := s.devStoreN (g.hdr + 40) 4 g'.live
        s.devStoreN (g.hdr + 44) 4 (setField (s.peek (g.hdr + 44) 4) 0 4 (min heat 15))
      else s
    if g'.live = 0 ∧ !opened then
      let s := { s with grids := s.grids.filter fun x => !mine x }
      let s := s.completeHandle ctx g.done 0
      if g.notify then s.interrupt (homeDie g.hdr) (s.ctxPart ctx) else s
    else s

/-- A team retires with its last warp: its scratchpad and tile registers are free, its channels idle (R138, R221). -/
def retireTeam (s : State) (u : UnitId) (t : Team) : State :=
  let s := s.modCore u fun c => { c with
    teams := c.teams.filter fun x => x.uid != t.uid
    chans := if u.kind = .sc then (List.range 16).foldl (fun cs i => cs.modify i fun x =>
      if x.team = t.uid ∧ x.st ≠ .idle then { x with st := .idle } else x) c.chans else c.chans }
  match t.src with
  | .grid q r => s.gridDec t.ctx q r t.heat
  | _ => s

/-- Nothing of a warp is left: every lane has exited and every memory operation is complete (R138). -/
def mayRetire (s : State) (u : UnitId) (slot : Nat) (w : Warp) : Bool :=
  slot != trapSlot && w.live == 0 && w.pend.all (fun p => !p.mem) && s.ops.all fun o => !(o.unit == u && o.slot == slot)

def retireWarp (s : State) (u : UnitId) (slot : Nat) : State :=
  match s.warp u slot with
  | none => s
  | some w =>
    if !s.mayRetire u slot w then s
    else
      let s := s.modDie u.die fun x => { x with freedAt := x.pace + 1 }
      let s := s.modCore u fun c => { c with
        warps := c.warps.set slot none
        admitted := c.admitted.filter fun a => a.slot != slot
        admitQ := c.admitQ.filter fun n => n != slot }
      let s := s.threadDone u w.ctx w.handle
      match s.team? u w.team with
      | none => s
      | some t => if s.teamSlots u t.uid = [] then s.retireTeam u t else s

-- stuck teams (R380)

/-- A path that waits at a collective, hurdle or latch. -/
def deadWait (p : Path) : Bool :=
  match p.wait with
  | .coll | .teamHurdle .. | .latch => true
  | _ => false

/-- Every non-exited lane of a team waits for its own team, and nothing of it is on its way. -/
def teamStuck (s : State) (u : UnitId) (t : Team) : Bool :=
  let ws := (s.teamSlots u t.uid).filterMap fun slot => (s.warp u slot).map fun w => (slot, w)
  ws != [] && decide (0 < s.teamLive u t.uid) && !((s.core u).latches.any fun l => l.full && l.team == t.uid) &&
  ws.all fun x => x.2.parked == [] && x.2.paths.all deadWait && s.ops.all fun o => !(o.unit == u && o.slot == x.1)

/-- What COLLDEAD reports of a path (R380). -/
def deadInfo (s : State) (u : UnitId) (t : Team) (w : Warp) (p : Path) : Dword :=
  match p.wait with
  | .teamHurdle h _ =>
    let hd := t.hurdles.get h
    let e := if hd.exp ≠ 0 then hd.exp else s.teamLive u t.uid
    BitVec.ofNat 64 (pack [(8, 2), (8, h), (16, 0), (32, e - hd.cnt)])
  | .latch =>
    let l := ((s.core u).latches.find? fun l => l.team == t.uid && l.ents.any fun e => e.widx == w.widx).getD default
    let tile := match (l.ents.find? fun e => e.widx == w.widx).map (·.instr) with
      | some (.mma _ d ..) => d.n.toNat
      | _ => 0
    let miss := l.list_.zipIdx.foldl (fun n x => n + (if l.ents.any fun e => e.widx == x.1 then 0 else 2 ^ x.2)) 0
    BitVec.ofNat 64 (pack [(8, 3), (8, tile), (16, 0), (32, miss)])
  | _ =>
    match w.colls.find? fun c => (c.arrived &&& p.mask) != 0 with
    | some c =>
      let miss := Warp.groupMask c.base c.size &&& ~~~ w.excused c.pc &&& ~~~ c.arrived
      BitVec.ofNat 64 (pack [(8, 1), (8, c.greg), (16, 0), (32, miss.toNat)])
    | none => BitVec.ofNat 64 1

/-- COLLDEAD strikes a stuck team (R380): the path is taken out of what it waits at. Arrivals at a hurdle stay as R148 has them. -/
def strikeDead (s : State) (u : UnitId) (t : Team) : State :=
  match (s.teamSlots u t.uid).find? fun slot => match s.warp u slot with | some w => w.paths.any deadWait | none => false with
  | none => s
  | some slot =>
    match s.warp u slot with
    | none => s
    | some w =>
      match w.paths.find? deadWait with
      | none => s
      | some p =>
        let info := s.deadInfo u t w p
        let s := (s.modTeam u t.uid fun t => { t with stuck := none }).withdraw u slot p
        s.parkBack u slot p.pc ((lanes p.mask).map fun l => ⟨l, Cause.colldead, info, 0⟩)

end State

def execResultWriteback (u : UnitId) (slot id : Nat) (lanes : Lanes) (regs : BitVec 16) (s : State) :
    Host.Outcome State Fault Refusal :=
  .next (s.writeback u slot id lanes regs)

def execSpawnBinDeadline (u : UnitId) (bin : Nat) (s : State) : Host.Outcome State Fault Refusal :=
  .next (match (s.core u).bins.get bin, (s.unitSlice u).st with
    | some b, .running => if b.deadline ≤ s.pace u.die ∧ b.slots ≠ [] then (s.launchBin u bin).getD s else s
    | _, _ => s)

def execPoolSlotTake (u : UnitId) (slot : Nat) (s : State) : Host.Outcome State Fault Refusal :=
  .next (s.workAgain u slot false)

def execPendingWarpStart (die slice : Nat) (s : State) : Host.Outcome State Fault Refusal :=
  .next ((s.startPending die slice).getD s)

def execBinLaunchRetry (u : UnitId) (bin : Nat) (s : State) : Host.Outcome State Fault Refusal :=
  .next (match (s.core u).bins.get bin, (s.unitSlice u).st with
    | some b, .running =>
      if b.thr ≤ b.slots.length ∨ b.deadline ≤ s.pace u.die then (s.launchBin u bin).getD s else s
    | _, _ => s)

def execTaskDispatch (u : UnitId) (s : State) : Host.Outcome State Fault Refusal :=
  let s' := s.ageTasks u
  .next (match State.bestTask (s'.core u).taskQ, (s.unitSlice u).ctx with
    | some t, some d =>
      if !s.runs u d.ctxid ∨ s.freeSlots u = [] then s
      else
        let s := s'.modCore u fun c => { c with taskQ := c.taskQ.filter fun (x : TaskEnt) => x.handle != t.handle }
        let src : TeamSrc := if u.kind = .rc then .baton t.handle else .task t.handle
        s.startAlone u d.ctxid src t.issuer t.entry 1 fun w =>
          let k := t.ks.zipIdx.foldl (fun k x => k.set x.2 x.1) w.k
          let k := if u.kind = .rc then k else k.set 0 t.arg
          { w with
            k := k.set 32 (t.handle.setWidth 64), handle := t.handle, prio := t.prio
            v := t.recw.zipIdx.foldl (fun v x => v.set x.2 x.1) [] }
    | _, _ => s)

def execTaskPriorityAgeing (u : UnitId) (s : State) : Host.Outcome State Fault Refusal := .next (s.ageTasks u)

def execFenceSlotWaitEnd (u : UnitId) (slot : Nat) (s : State) : Host.Outcome State Fault Refusal :=
  .next (match s.warp u slot with
    | some w => if (s.freeFslot w.ctx).isSome then (s.retry u slot).workAgain u slot true else s
    | none => s)

def execQueueRoomWaitEnd (u : UnitId) (slot : Nat) (s : State) : Host.Outcome State Fault Refusal :=
  .next (s.retry u slot)

def execRegxGrant (u : UnitId) (s : State) : Host.Outcome State Fault Refusal :=
  .next (match (s.core u).regxQ with
    | r :: _ => if r.n ≤ s.granFree u then s.regxAnswer u r true else s
    | [] => s)

def execRegxRefusal (u : UnitId) (s : State) : Host.Outcome State Fault Refusal :=
  .next (match s.youngest u with
    | some r =>
      let served := match (s.core u).regxQ with | x :: _ => decide (x.n ≤ s.granFree u) | [] => false
      if s.allWait u ∧ !served then s.regxAnswer u r false else s
    | none => s)

def execSleepRelease (u : UnitId) (slot path : Nat) (s : State) : Host.Outcome State Fault Refusal :=
  .next (match (s.warp u slot).bind fun w => w.pathOf path with
    | some p => match p.wait with
      | .sleep t => if t.toNat ≤ s.pace u.die then s.pathOn u slot p else s
      | _ => s
    | none => s)

def execParkDeferred (u : UnitId) (slot lane : Nat) (s : State) : Host.Outcome State Fault Refusal :=
  .next (match s.warp u slot with
    | some w =>
      let s := match w.pathOf lane with
        | some p => if w.parkReq.getLsbD lane && !State.parkHeld w p then s.parkSome u slot (p.mask &&& w.parkReq) else s
        | none => s
      match (s.warp u slot).bind fun w => w.pathOf lane with
      | some p =>
        let busy := (p.wait == .ready || p.wait == .token || p.wait == .reissue) &&
          w.pend.any fun (q : Pend) => (q.lanes &&& p.mask) != 0
        if s.atBoundary u slot p && !busy then (s.withdraw u slot p).parkDue u slot p.mask else s
      | none => s
    | none => s)

def execWarpRetire (u : UnitId) (slot : Nat) (s : State) : Host.Outcome State Fault Refusal :=
  .next (s.retireWarp u slot)

def execTrapTaken (u : UnitId) (s : State) : Host.Outcome State Fault Refusal :=
  .next (if (s.unitSlice u).st = .running then s.takeTrap u else s)

/-- A team has been stuck for 1,024 cycles (R380). -/
def State.colldead (s : State) (u : UnitId) (team : Nat) : State :=
  match s.team? u team with
  | some t => match t.stuck with
    | some since => if s.teamStuck u t && decide (since + 10240 ≤ s.cycles u) then s.strikeDead u t else s
    | none => s
  | none => s

def execColldead (u : UnitId) (team : Nat) (s : State) : Host.Outcome State Fault Refusal := .next (s.colldead u team)

/-- A path that the watchdog leaves where it waits (R382). -/
def State.atHurdle (p : Path) : Bool := match p.wait with | .teamHurdle .. | .memHurdle .. => true | _ => false

/-- The watchdog (R382): lanes in paths, hurdle waits apart, are parked, those that are at no boundary when they come to one. -/
def execWdog (u : UnitId) (slot : Nat) (s : State) : Host.Outcome State Fault Refusal :=
  .next (match s.warp u slot with
    | some w =>
      let hit := (w.paths.filter fun p => !State.atHurdle p).partition (s.atBoundary u slot)
      let set := fun (ps : List Path) => ps.foldl (fun m p => m ||| p.mask) (0 : Lanes)
      let isWd := fun (c : Nat) => c == Cause.wdog
      let raised := (match (s.core u).trap with | some t => t.slot == slot && isWd (t.fcause.toNat % 256) | none => false) ||
        ((s.core u).trapQ.any fun t => t.slot == slot && isWd t.rec_.cause.toNat) || w.due.any fun x => isWd x.cause
      let info : Dword := BitVec.ofNat 64 w.wdcnt
      if !w.wdTrap ∨ raised then s
      else if hit.1 = [] ∧ hit.2 = [] then s.modWarp u slot fun w => { w with wdTrap := false }
      else
        let s := s.modWarp u slot fun w => { w with due := w.due ++ (lanes (set hit.2)).map fun l => ⟨l, Cause.wdog, info, 0⟩ }
        (hit.1.foldl (fun (s : State) p => s.withdraw u slot p) s).parkOutside u slot
          ((lanes (set hit.1)).map fun l => ⟨l, Cause.wdog, info, 0⟩)
    | none => s)

/-- The handler of a watchdog trap has been given DEADLINE ticks (R383). -/
def State.deadline (s : State) (u : UnitId) : State :=
  let c := s.core u
  let open_ := match c.trap with
    | some t => if t.fcause.toNat % 256 = Cause.wdog then [(t.raised, t.slot, t.fpc)] else []
    | none => []
  let waiting := (c.trapQ.filter fun t => t.rec_.cause.toNat == Cause.wdog).map fun t => (t.rec_.tick, t.slot, t.rec_.pc)
  match (s.unitSlice u).ctx with
    | some d =>
      match (open_ ++ waiting).find? fun x => decide (x.1 + d.deadline.toNat ≤ s.pace u.die) with
      | some x =>
        if d.deadline = 0 then s
        else s.killContext d.ctxid
          ⟨Cause.deadline, 0, some u, 0, s.warpIdent u x.2.1, 0, 0, 0, x.2.2, s.pace u.die⟩
      | none => s
    | none => s

def execDeadline (u : UnitId) (s : State) : Host.Outcome State Fault Refusal := .next (s.deadline u)

/-- A lane of SPAWN has waited 65,536 ticks for a pool slot (R402). -/
def State.poolfull (s : State) (u : UnitId) (slot lane : Nat) : State :=
  match s.warp u slot with
    | none => s
    | some w =>
      match w.paths.find? fun p => match p.wait with
        | .work false _ _ _ ((l, _) :: _) _ since none => l == lane && decide (since + 65536 ≤ s.pace u.die)
        | _ => false with
      | none => s
      | some p =>
        match p.wait with
        | .work b id dst e (_ :: t) ks _ _ =>
          if (s.poolTake w.ctx).isSome then s
          else
            let s := s.modWarp u slot fun w => { w with paths := w.paths.map fun (q : Path) =>
              if q.wait == p.wait then { q with wait := .work b id dst e t ks (s.pace u.die) none } else q }
            let s := s.parkBack u slot p.pc
              [⟨lane, Cause.poolfull, BitVec.ofNat 64 ((s.ctxDesc w.ctx).spcount % 2 ^ 32), 0⟩]
            if t = [] then (s.workAgain u slot false).pendDone u slot id [] else s
        | _ => s

def execPoolfull (u : UnitId) (slot lane : Nat) (s : State) : Host.Outcome State Fault Refusal := .next (s.poolfull u slot lane)

def execBlockThrottle (u : UnitId) (up : Bool) (s : State) : Host.Outcome State Fault Refusal :=
  let k := (s.core u).clock
  .next (s.setSteps u (if up then k - 1 else k + 1))

end Sys2Proof.Machine
end

