-- ==== Sys2Proof/Machine/Gang.lean ====
section
/-! DEFINITION. Meanings of the gang forms and of the events of a rendezvous latch (R190 to R199, R227, R381). -/
namespace Sys2Proof.Machine

open Bits

-- tile registers (R191)

/-- An element of a tile register as a result still to be written. -/
def tileVal (t cell : Nat) (x : Word) : RegVal := ⟨.t, 1024 * t + cell, 0, x.setWidth 64⟩

namespace State

/-- An element of a tile register; where a write of it is on its way, the old value or the new (R191). A write that has landed is seen by
every warp (log 76). -/
def tileRead (s : State) (u : UnitId) (reg : Nat) : Word :=
  let c := s.core u
  let v := c.tiles.get reg
  match c.warps.findSome? fun p => p.2.bind fun w => w.pend.findSome? fun q => q.res.find? fun r => r.file == .t && r.reg == reg with
  | some r => if Config.freeSide s.free (8192 * (reg + 1) + 3) then r.val.setWidth 32 else v
  | none => v

/-- A gang form acts with its executing lanes. That the team holds the tile registers is checked with the word (R227, R363:
State.comboCauses). -/
def gangForm (s : State) (h : Head) (f : Lanes → State) : State :=
  let m := s.execLanes h
  if m = 0 then s.advance else f m

-- the rendezvous latch (R194, R381)

def modLatches (s : State) (u : UnitId) (f : List Latch → List Latch) : State :=
  s.modCore u fun c => { c with latches := f c.latches }

/-- The dense K of a container width (R193). -/
def mmaK (bits : Nat) : Nat := 512 / bits

/-- Whether listed warps issued alike, onto distinct tiles. -/
def gangAgrees (l : Latch) : Bool :=
  let key := fun (e : LatchEnt) => match e.instr with
    | .mma _ _ _ _ _ sp sel => (e.gng, e.bcol, e.fb, sp, sel)
    | _ => (e.gng, e.bcol, e.fb, false, false)
  let tile : LatchEnt → Nat := fun e => match e.instr with | .mma _ d .. => d.n.toNat | _ => 0
  (match l.ents with
   | [] => true
   | e :: r => r.all fun x => key x == key e) && decide (l.ents.map tile).Nodup

/-- The part of a listed warp. -/
def latchPart (l : Latch) (widx : Nat) : Option LatchEnt := l.ents.find? fun e => e.widx == widx

/-- The first listed warp's part. -/
def latchFirst (l : Latch) : LatchEnt := ((l.list_.head?).bind (latchPart l)).getD default

def isSparse (e : LatchEnt) : Bool × Bool :=
  match e.instr with
  | .mma _ _ _ _ _ sp sel => (sp, sel)
  | _ => (false, false)

/-- The cause of a format block that MMA cannot use, or the block (R82, R193, R227). -/
def mmaBlock (d : List Nat) (sparse : Bool) : Except Nat Num.FmtBlock :=
  match Num.fmtBlock fun i => d.getD i 0 with
  | none => .error Cause.rsvfb
  | some f =>
    let big := fun (c : Num.OpCfg) => decide (2 ^ 32 ≤ c.saddr ∨ 2 ^ 32 ≤ c.xaddr)
    if f.dcfg ≠ 0 ∨ big f.a ∨ big f.b then .error Cause.rsvfb
    else if f.a.elem.bits ≠ f.b.elem.bits ∨ (sparse ∧ f.a.elem.bits = 32) then .error Cause.rsvcombo
    else if f.a.fits (mmaK f.a.elem.bits) && f.b.fits (mmaK f.a.elem.bits) then .ok f
    else .error Cause.rsvfb

/-- A format block on the MTX path (R82, R83, R391, R406, R409), for n lanes: its dwords, or what strikes them. -/
def formatBlock (s : State) (u : UnitId) (user : Bool) (n a : Nat) : Except (Nat × Dword × Dword) (List Nat) :=
  if a % 64 ≠ 0 then .error (Cause.rsvfb, 0, 0)
  else match s.xlate u user .read a with
    | .error e => .error (tCause .mtx e, tInfo e .read n, BitVec.ofNat 64 a)
    | .ok x =>
      if s.lostPa u.die x.pa then .error (Cause.dielost, 0, BitVec.ofNat 64 a)
      else match s.homeBad x.pa 64 with
        | some (c, g) => .error (c, 0, BitVec.ofNat 64 g)
        | none => .ok (s.peekDwords x.pa 8)

/-- A full latch reads and checks its format block (R83, R194): the dwords, or what strikes every issuing lane. -/
def latchBlock (s : State) (u : UnitId) (l : Latch) : Except Strike (List Nat) :=
  let e := latchFirst l
  match s.formatBlock u true (l.ents.foldl (fun n e => n + count e.lanes) 0) e.fb.toNat with
  | .error x => .error ⟨0, x.1, x.2.1, x.2.2⟩
  | .ok d =>
    match mmaBlock d (isSparse e).1 with
    | .error c => .error ⟨0, c, 0, 0⟩
    | .ok _ => .ok d

/-- The last listed warp has issued: the warps must agree, and the format block is read (R194, R381). -/
def latchFull (s : State) (u : UnitId) (l : Latch) : State :=
  if !gangAgrees l then s.failLatch u l fun _ n => ⟨n, Cause.gangmis, latchInfo l, 0⟩
  else match s.latchBlock u l with
    | .error x => s.failLatch u l fun _ n => { x with lane := n }
    | .ok d => s.modLatches u fun ls => ls.map fun (x : Latch) => if x.id == l.id then { x with full := true, fb := d } else x

/-- MMA joins the latch that waits for its warp, or opens one (R194). -/
def joinLatch (s : State) (h : Head) (m : Lanes) (i : Instr) (a : VReg) (b : KReg) (c : VReg) : State :=
  let u := s.cur.unit
  let w := s.curW
  let n := field w.gng.toNat 32 3
  let list := if n = 0 then [w.widx] else (List.range n).map fun j => field w.gng.toNat (5 * j) 5
  let e : LatchEnt :=
    { widx := w.widx, slot := s.cur.slot, pc := s.curP.pc, word := s.cur.word, lanes := m, instr := i, gng := w.gng
      bcol := s.rk b.toNat, fb := s.rk (b.toNat + 1), rows := (lanes m).map fun l => (l, s.rv l a.toNat)
      codes := (List.range 32).map fun l =>
        (List.range (min 8 (8 * w.gran - c.toNat))).map fun j => s.rv l (c.toNat + j)
      id := s.nextId }
  let s := s.addPend h m false 1 []
  let waits := fun (l : Latch) => !l.full && l.team == w.team && l.list_.contains w.widx && (latchPart l w.widx).isNone
  let (id, s) : Nat × State := match (s.core u).latches.find? waits with
    | some l => (l.id, s.modLatches u fun ls => ls.map fun (x : Latch) => if x.id == l.id then { x with ents := x.ents ++ [e] } else x)
    | none =>
      let (id, s) := s.fresh
      (id, s.modLatches u fun ls => ls ++ [(⟨id, w.team, list, s.pace u.die, [e], false, []⟩ : Latch)])
  let s := s.waitFor .latch
  match (s.core u).latches.find? fun (l : Latch) => l.id == id with
  | some l => if l.list_.all fun x => (latchPart l x).isSome then s.latchFull u l else s
  | none => s

-- the joint operation (R194, R195)

/-- A read of the joint operation at a scratchpad offset: what strikes it, if anything (R164, R406). -/
def mmaBad (s : State) (u : UnitId) (t : Team) (l : Nat) (r : Nat × Nat) : Option Strike :=
  if scrSize (some t) < r.1 + r.2 then
    some ⟨l, tCause .mtx ⟨5, 0, 7⟩, tInfo ⟨5, 0, 7⟩ .read 0, BitVec.ofNat 64 r.1⟩
  else (s.badInPieces (.sram u) 4 (scrPieces (some t) r.1 r.2)).map fun g => ⟨l, Cause.sramecc, 0, BitVec.ofNat 64 (4 * g)⟩

/-- Bytes that a row of A takes in the scratchpad. -/
def rowBytes (sparse : Bool) : Nat := if sparse then 32 else 64

/-- The codes of a row under 2:4 sparsity: those of its lane, or of the first warp's lane (R195). -/
def rowCodes (l : Latch) (e : LatchEnt) (lane : Nat) : List Word :=
  let src := if (isSparse e).2 then latchFirst l else e
  src.codes.getD lane []

/-- The code of group q of a row. -/
def codeAt (ws : List Word) (q : Nat) : Nat := field (ws.getD (q / 8) 0).toNat (4 * (q % 8)) 4

/-- All that the operation reads for B. -/
def readsB (f : Num.FmtBlock) (bcol : Nat) : List (Nat × Nat) :=
  (List.range 32).flatMap fun j => (bcol + 64 * j, 64) :: f.b.sides (mmaK f.b.elem.bits) j

/-- The accumulator tile that a part names. -/
def mmaTile (e : LatchEnt) : Nat := match e.instr with | .mma _ d .. => d.n.toNat | _ => 0

/-- What strikes a lane of warp g (R194, R195, R364). -/
def laneStrike (s : State) (u : UnitId) (t : Team) (f : Num.FmtBlock) (l : Latch) (e : LatchEnt) (g lane : Nat) : Option Strike :=
  let k := mmaK f.a.elem.bits
  let sp := (isSparse e).1
  let off := ((e.rows.find? fun r => r.1 == lane).map (·.2.toNat)).getD 0
  let bcol := e.bcol.toNat % 2 ^ 32
  let ws := rowCodes l e lane
  let range := fun (a : Nat) => (⟨lane, tCause .mtx ⟨5, 0, 7⟩, tInfo ⟨5, 0, 7⟩ .read 0, BitVec.ofNat 64 a⟩ : Strike)
  let xs := (if sp ∧ (e.codes.getD lane []).length < k / 32 then [⟨lane, Cause.regrange, 0, 0⟩] else []) ++
    (if off % 16 ≠ 0 then [range off] else []) ++ (if bcol % 64 ≠ 0 then [range bcol] else []) ++
    (((off, rowBytes sp) :: f.a.sides k (32 * g + lane)) ++ readsB f bcol).filterMap (s.mmaBad u t lane) ++
    (((List.range 32).findSome? fun j => s.coreBad u .t (1024 * mmaTile e + 32 * lane + j)).map fun x =>
      (⟨lane, x.1, 0, BitVec.ofNat 64 x.2⟩ : Strike)).toList ++
    (if sp ∧ !((List.range (k / 4)).all fun q => Num.sparseOk (codeAt ws q)) then [⟨lane, Cause.rsvsparse, 0, 0⟩] else [])
  (rankStrikes xs).head?

/-- What the operation reads, to be held behind watermarks (R199, R223). -/
def latchReads (f : Num.FmtBlock) (l : Latch) : List (Nat × Nat) :=
  readsB f ((latchFirst l).bcol.toNat % 2 ^ 32) ++
  l.list_.zipIdx.flatMap fun p => match latchPart l p.1 with
    | none => []
    | some e => e.rows.flatMap fun r =>
      (r.2.toNat, rowBytes (isSparse e).1) :: f.a.sides (mmaK f.a.elem.bits) (32 * p.2 + r.1)

/-- The new elements of row i of warp g's tile. -/
def mmaRow (s : State) (u : UnitId) (t : Team) (f : Num.FmtBlock) (l : Latch) (e : LatchEnt) (g : Nat) (r : Nat × Word) :
    List RegVal :=
  let k := mmaK f.a.elem.bits
  let w := f.a.elem.bits
  let rd := s.scrRead u (some t)
  let sp := (isSparse e).1
  let row := rd r.2.toNat (rowBytes sp)
  let ws := rowCodes l e r.1
  let bcol := (latchFirst l).bcol.toNat % 2 ^ 32
  let tile := mmaTile e
  let av := fun (x : Nat) =>
    match (if sp then Num.keptAt (codeAt ws) x else some x) with
    | some p => some (f.a.value rd k (32 * g + r.1) x (field row (w * p) w))
    | none => none
  (List.range 32).map fun j =>
    let col := rd (bcol + 64 * j) 64
    let prod := fun (x : Nat) => match av x with
      | none => Num.FVal.fin false 0
      | some a => Num.mul a (f.b.value rd k j x (field col (w * x) w))
    let cell := 32 * r.1 + j
    tileVal tile cell (BitVec.ofNat 32 (Num.accAll f.ints (s.tileRead u (1024 * tile + cell)).toNat k prod))

/-- The joint operation: every read is checked, then every row's elements enter the results of their warp, whose path goes
on (R194). -/
def latchDone (s : State) (u : UnitId) (l : Latch) : State :=
  match s.team? u l.team, Num.fmtBlock fun i => l.fb.getD i 0 with
  | some t, some f =>
    let parts := l.list_.zipIdx.filterMap fun p => (latchPart l p.1).map fun e => (e, p.2)
    let struck := parts.flatMap fun p => (lanes p.1.lanes).filterMap fun n =>
      (s.laneStrike u t f l p.1 p.2 n).map fun x => (p.1.widx, x)
    if struck ≠ [] then
      let low := parts.foldl (fun (a : Option (Nat × Strike)) p => match a, struck.find? fun x => x.1 == p.1.widx with
        | some y, some x => if x.1 < y.1 then some x else some y
        | none, x => x
        | y, none => y) none
      s.failLatch u l fun e n =>
        match struck.find? fun x => x.1 == e.widx && x.2.lane == n with
        | some x => x.2
        | none => { (low.map (·.2)).getD default with lane := n }
    else if (latchReads f l).any fun r => s.wmWaits u l.team r.1 r.2 then s
    else
      let s := s.modLatches u fun ls => ls.filter fun x => x.id != l.id
      let res := parts.map fun p => (p.1, p.1.rows.flatMap (s.mmaRow u t f l p.1 p.2))
      res.foldl (fun s p =>
        let s := s.pendDone u p.1.slot p.1.id p.2
        match (s.warp u p.1.slot).bind fun w => w.pathOf (Warp.laneKey p.1.lanes) with
        | some q => s.pathOn u p.1.slot q
        | none => s) s
  | _, _ => s

-- memory transfers (R199)

/-- The pieces of lane r's 128 bytes: up to the end of a line, and the rest, as (address, first word, bytes). -/
def rowPieces (ea : Nat) : List (Nat × Nat × Nat) :=
  let n := 128 - ea % 128
  if n = 128 then [(ea, 0, 128)] else [(ea, 0, n), ((ea + n) % 2 ^ 64, n / 4, 128 - n)]

/-- The address of lane r's row or column (R163, R199). -/
def tileEa (s : State) (r : MemRef) (l : Nat) : Nat :=
  match r.space with
  | .glk => (s.eaOf r 4 l + 128 * l) % 2 ^ 64
  | _ => s.eaOf r 4 l

/-- The elements that words c to c + n - 1 of lane l's transfer name. -/
def tileCells (d : TileRef) (l c n : Nat) : List RegVal :=
  (List.range n).map fun i => tileVal d.n.toNat (tileCell d.dir l (c + i)) 0

/-- A datum made of tile elements. -/
def tileData (s : State) (cells : List RegVal) : Nat :=
  pack (cells.map fun c => (32, (s.tileRead s.cur.unit c.reg).toNat))

/-- Accesses of TLD and TST to a scratchpad: for each lane its row, in pieces that each stand in one granule (R164, R199, R262),
with their owner, its team, and the first word and bytes of the piece; or a lane that is struck. -/
def tileScr (s : State) (m : Lanes) (need : Need) (r : MemRef) : List (Acc × UnitId × Nat × Nat × Nat) × State :=
  let rs := (lanes m).map fun l =>
    let ea := s.tileEa r l
    match s.scrOf r.space .mtx need 4 128 l ea with
    | .error e => (Except.error e : Except Strike (List (Acc × UnitId × Nat × Nat × Nat)))
    | .ok _ => .ok ((cut4k ea 128).flatMap fun p =>
        (oks [s.scrOf r.space .mtx need 4 p.2 l p.1]).map fun a => (a.1, a.2.1, a.2.2, (p.1 - ea) / 4, p.2))
  ((oks rs).flatten, s.raise (countLanes (errs rs)))

/-- Accesses of TLD and TST to memory: a lane both of whose pieces translate, or a lane that is struck. -/
def tileAccs (s : State) (m : Lanes) (need : Need) (ea : Nat → Nat) : List (Nat × List (Acc × Nat × Nat)) × State :=
  let rs := (lanes m).map fun l =>
    let ps := (rowPieces (ea l)).map fun p => (s.accOf .mtx need 4 l p.1).map fun a => (a, p.2.1, p.2.2)
    match errs ps with
    | e :: _ => (Except.error e : Except Strike (Nat × List (Acc × Nat × Nat)))
    | [] => .ok (l, oks ps)
  (oks rs, s.raise (countLanes (errs rs)))

end State

def execGang (h : Head) (a : KReg) (s : State) : Host.Outcome State Fault Refusal :=
  .next (s.gangForm h fun m => (s.writeGng m (s.rk a.toNat)).advance)

def execMma (h : Head) (d : TileRef) (a : VReg) (b : KReg) (c : VReg) (sparse sel : Bool) (s : State) :
    Host.Outcome State Fault Refusal :=
  .next (s.gangForm h fun m => s.joinLatch h m (.mma h d a b c sparse sel) a b c)

def execMovt (h : Head) (t : TileRef) (r : VReg) (write : Bool) (i : MovtIdx) (s : State) : Host.Outcome State Fault Refusal :=
  .next (s.gangForm h fun m =>
    let idx := match i with
      | .imm x => x.toNat
      | .k x => (s.rk x.toNat).toNat % 32
      | .v x => (s.rv (Warp.laneKey m) x.toNat).toNat % 32
    let cell := fun (l : Nat) => tileCell t.dir idx l
    (s.inFlight h m false 0 ((lanes m).map fun l =>
      if write then tileVal t.n.toNat (cell l) (s.rv l r.toNat)
      else s.vres l r.toNat (s.tileRead s.cur.unit (1024 * t.n.toNat + cell l)))).advance)

def execTzero (h : Head) (d : TileRef) (s : State) : Host.Outcome State Fault Refusal :=
  .next (s.gangForm h fun m => (s.inFlight h m false 0 ((List.range 1024).map fun c => tileVal d.n.toNat c 0)).advance)

def execTld (h : Head) (d : TileRef) (r : MemRef) (_w : Wid) (f : MemFlags) (s : State) : Host.Outcome State Fault Refusal :=
  .next (s.gangForm h fun m =>
    match r.space with
    | .gl | .glk | .kc =>
      let (as, s1) := s.tileAccs m .read (s.tileEa r)
      (s1.issueOps h (laneSet (as.map (·.1))) (as.flatMap fun x => x.2.map fun a =>
        { s1.newOp .load .mtx a.1 with
          n := a.2.2, ch := f.ch, dst := State.tileCells d x.1 a.2.1 (a.2.2 / 4)
          leased := !f.lh && !a.1.nocache && !State.onExpander a.1.pa })).advance
    | _ =>
      let (as, s1) := s.tileScr m .read r
      (s1.issueOps h (State.accLanes (as.map (·.1))) (as.map fun a =>
        { s1.newOp .scrLoad .mtx a.1 with
          n := a.2.2.2.2, dst := State.tileCells d a.1.lane a.2.2.2.1 (a.2.2.2.2 / 4), owner := some a.2.1, team := a.2.2.1 })).advance)

def execTst (h : Head) (d : TileRef) (r : MemRef) (_w : Wid) (f : MemFlags) (s : State) : Host.Outcome State Fault Refusal :=
  .next (s.gangForm h fun m =>
    match r.space with
    | .gl | .glk | .kc =>
      let (as, s1) := s.tileAccs m .write (s.tileEa r)
      (s1.issueOps h (laneSet (as.map (·.1))) (as.flatMap fun x => x.2.map fun a =>
        { s1.newOp .store .mtx a.1 with
          n := a.2.2, ch := f.ch, data := s.tileData (State.tileCells d x.1 a.2.1 (a.2.2 / 4)) })).advance
    | _ =>
      let (as, s1) := s.tileScr m .write r
      (s1.issueOps h (State.accLanes (as.map (·.1))) (as.map fun a =>
        { s1.newOp .scrStore .mtx a.1 with
          n := a.2.2.2.2, data := s.tileData (State.tileCells d a.1.lane a.2.2.2.1 (a.2.2.2.2 / 4)), owner := some a.2.1
          team := a.2.2.1 })).advance)

def execGangMmaDone (u : UnitId) (latch : Nat) (s : State) : Host.Outcome State Fault Refusal :=
  .next (match (s.core u).latches.find? fun l => l.id == latch with
    | some l => if l.full then s.latchDone u l else s
    | none => s)

/-- A latch has held its first warp for 131,072 ticks (R381). -/
def State.gangtime (s : State) (u : UnitId) (latch : Nat) : State :=
  match (s.core u).latches.find? fun l => l.id == latch with
  | some l =>
    if !l.full ∧ l.since + 131072 ≤ s.pace u.die then s.failLatch u l fun _ n => ⟨n, Cause.gangtime, State.latchInfo l, 0⟩ else s
  | none => s

def execGangtime (u : UnitId) (latch : Nat) (s : State) : Host.Outcome State Fault Refusal := .next (s.gangtime u latch)

end Sys2Proof.Machine
end

