-- ==== Sys2Proof/Machine/Stream.lean ====
section
/-! DEFINITION. Stream pattern records and their walks, and how an engine reaches the storage that a record names (R202,
R203, R223, R393, R405, R406, R409). -/
namespace Sys2Proof.Machine

open Bits

/-- A stream pattern record (R202); counts and strides of dimensions 0 to NDIM. -/
structure Rec where
  base : Nat
  space : Nat
  ew : Nat
  counts : List Nat
  strides : List Int
  ind : Bool
  idim : Nat
  iew : Nat
  isp : Bool
  hyp : Bool
  ibase : Nat
  deriving DecidableEq, Repr, Inhabited

/-- A record from its eight dwords; none where it breaks R202. -/
def recOf? (ds : List Dword) : Option Rec :=
  let d := fun i => (ds.getD i 0).toNat
  let c := d 1
  let nd := field c 8 2 + 1
  let cs := (List.range nd).map fun i => field (d (2 + i)) 0 24
  if c / 2 ^ 20 ≠ 0 ∨ field c 10 3 ≠ 0 ∨ bit c 7 ∨ bit c 3 ∨ d 6 ≠ 0 ∨ 4 < field c 4 3 ∨ 3 < field c 0 3 ∨ 1 < field c 16 2 ∨
     (bit c 13 ∧ nd ≤ field c 14 2) ∨ cs.any (· == 0) ∨ (List.range (4 - nd)).any (fun i => d (2 + nd + i) != 0) then none
  else some
    { base := d 0, space := field c 0 3, ew := field c 4 3, counts := cs
      strides := (List.range nd).map fun i => signed 40 (field (d (2 + i)) 24 40)
      ind := bit c 13, idim := field c 14 2, iew := field c 16 2, isp := bit c 18, hyp := bit c 19, ibase := d 7 }

namespace Rec

/-- Bits of an element. -/
def width (r : Rec) : Nat := 2 ^ (r.ew + 1)

/-- Elements of the walk. -/
def total (r : Rec) : Nat := r.counts.foldl (· * ·) 1

/-- The counters at a position of the walk, dimension 0 fastest (R203). -/
def counters : List Nat → Nat → List Nat
  | [], _ => []
  | n :: r, e => e % n :: counters r (e / n)

def at_ (r : Rec) (e : Nat) : List Nat := counters r.counts e

/-- The count of a dimension; 1 above NDIM. -/
def count (r : Rec) (i : Nat) : Nat := r.counts.getD i 1

/-- The index table read of a position: address and bytes. -/
def idxAt (r : Rec) (e : Nat) : Option (Nat × Nat) :=
  if r.ind then
    let w := if r.iew = 0 then 2 else 4
    some (r.ibase + (r.at_ e).getD r.idim 0 * w, w)
  else none

/-- The bit at which a position's element begins. `raw` is what its index table read gave. -/
def bitAt (r : Rec) (e raw : Nat) : Int :=
  let x := fun i => if r.ind ∧ i = r.idim then (if r.iew = 0 then (raw : Int) else signed 32 raw) else ((r.at_ e).getD i 0 : Int)
  let off := r.strides.zipIdx.foldl (fun (a : Int) p => a + x p.2 * p.1) 0
  8 * (r.base : Int) + off * (r.width : Int)

/-- The byte an element begins in, and the bytes it takes. -/
def byteAt (r : Rec) (e raw : Nat) : Int × Nat := (r.bitAt e raw / 8, if r.ew < 2 then 1 else r.width / 8)

end Rec

-- the storage of a space (R202, R203)

/-- An access of an engine: space, need, address and bytes; index tables of the issuer's scratchpad are of space 4. -/
structure EAcc where
  space : Nat
  need : Need
  addr : Int
  n : Nat
  deriving DecidableEq, Repr, Inhabited

/-- What becomes of an access: nothing, a cause that stops its command with the address, an uncorrectable granule with its
cause and address, or a wait at a watermark. -/
inductive EFate where
  | ok
  | stop (cause : Nat) (addr : Dword)
  | ecc (cause : Nat) (addr : Dword)
  | waits
  deriving DecidableEq, Repr, Inhabited

namespace State

/-- The scratchpad team of a command: that of its issuer on a shader core, none on a tile. -/
def cmdTeam (s : State) (c : Cmd) : Option Team := if c.unit.kind = .sc then s.team? c.unit c.team else none

/-- Bytes of a scratchpad-like space that a command reaches. -/
def spaceSize (s : State) (c : Cmd) (space : Nat) : Nat :=
  match space with
  | 1 => if c.unit.kind = .tt then 4194304 else 0
  | 2 => if c.unit.kind = .tt then 1048576 else 0
  | 3 => if c.unit.kind = .sc then scrSize (some ((s.cmdTeam c).getD default)) else 0
  | _ => match c.unit.kind with
    | .tt => 4194304
    | _ => scrSize (some ((s.cmdTeam c).getD default))

/-- Where bytes at an offset stand in the scratchpad of a command's unit. -/
def spacePieces (s : State) (c : Cmd) (a n : Nat) : List (Nat × Nat) :=
  scrPieces (if c.unit.kind = .sc then some ((s.cmdTeam c).getD default) else none) a n

/-- Granules of accumulator memory lie behind those of the scratchpad. -/
def accGran : Nat := 2 ^ 20

/-- The fate of an access on a path (R203, R223, R393, R406, R409). -/
def fate (s : State) (c : Cmd) (p : APath) (a : EAcc) : EFate :=
  let range := EFate.stop (tCause p ⟨5, 0, 7⟩) (BitVec.ofInt 64 a.addr)
  if a.addr < 0 then range
  else
    let x := a.addr.toNat
    if a.space = 0 then
      if 2 ^ 64 < x + a.n then range
      else
        match ([x, x + a.n - 1].findSome? fun b => match s.xlate c.unit true a.need b with
          | .error e => some (EFate.stop (tCause p e) (BitVec.ofNat 64 b))
          | .ok y => if s.lostPa c.unit.die y.pa then some (EFate.stop Cause.dielost (BitVec.ofNat 64 b)) else none) with
        | some f => f
        | none =>
          if a.need = .write ∨ s.bad = [] then .ok
          else match (cut4k x a.n).findSome? fun p => match s.xlate c.unit true .read p.1 with
              | .ok y => s.homeBad y.pa p.2
              | .error _ => none with
            | some (cause, g) => .ecc cause (BitVec.ofNat 64 g)
            | none => .ok
    else if s.spaceSize c a.space < x + a.n then range
    else if a.space = 2 then
      (if a.need = .write then .ok
       else match s.badIn (.tile c.unit) 4 (4 * accGran + x) a.n with
        | some g => .ecc Cause.tileecc (BitVec.ofNat 64 (4 * (g - accGran)))
        | none => .ok)
    else
      let (st, cause) := scrStorage c.unit
      match if a.need = .write then none else s.badInPieces st 4 (s.spacePieces c x a.n) with
      | some g => .ecc cause (BitVec.ofNat 64 (4 * g))
      | none => if s.wmWaits c.unit c.team x a.n then .waits else .ok

/-- The first access that does not go through, faults before waits. -/
def fates (s : State) (c : Cmd) (p : APath) (as : List EAcc) : EFate :=
  let fs := as.map (s.fate c p)
  match fs.find? fun f => match f with | .stop .. | .ecc .. => true | _ => false with
  | some f => f
  | none => if fs.contains .waits then .waits else .ok

/-- Bytes read by a command, each from its own page or granule (R203, R232, R262). -/
def engRead (s : State) (c : Cmd) (space a n : Nat) : Nat :=
  match space with
  | 0 => ofBytes ((cut4k a n).flatMap fun p => match s.xlate c.unit true .read p.1 with
      | .ok x => memBytes s.mem x.pa p.2
      | .error _ => List.replicate p.2 0)
  | 2 => ofBytes ((s.core c.unit).eng.acc.slice a n)
  | _ => ofBytes ((s.spacePieces c a n).flatMap fun p => s.scrBytes c.unit p.1 p.2)

/-- The space of an index table. -/
def idxSpace (r : Rec) : Nat := if r.isp then 4 else 0

/-- What the index table of a record gives at a position; 0 where there is none. -/
def idxRaw (s : State) (c : Cmd) (r : Rec) (e : Nat) : Nat :=
  match r.idxAt e with
  | some (a, n) => s.engRead c (idxSpace r) a n
  | none => 0

/-- The index table read of a position, as an access. -/
def idxAcc (r : Rec) (e : Nat) : List EAcc := match r.idxAt e with | some (a, n) => [⟨idxSpace r, .read, (a : Nat), n⟩] | none => []

/-- The accesses of positions of a record: first the index table reads; where one of those does not go through, they
alone. -/
def recAccs (s : State) (c : Cmd) (p : APath) (r : Rec) (need : Need) (es : List Nat) : List EAcc :=
  let ix := (es.flatMap (idxAcc r)).eraseDups
  if s.fates c p ix ≠ .ok then ix
  else ix ++ es.map fun e =>
    let b := r.byteAt e (s.idxRaw c r e)
    ⟨r.space, need, b.1, b.2⟩

/-- The code of a position's element. -/
def elemCode (s : State) (c : Cmd) (r : Rec) (e : Nat) : Nat :=
  let b := (r.bitAt e (s.idxRaw c r e)).toNat
  if r.ew < 2 then field (s.engRead c r.space (b / 8) 1) (b % 8) r.width else s.engRead c r.space (b / 8) (r.width / 8)

/-- A store over bytes of a storage: granules covered whole are good again, those covered in part are reported (R406). -/
def healNote (s : State) (c : Cmd) (st : Storage) (cause base a n : Nat) : State :=
  let (part, s) := s.healGranules st 4 (4 * base + a) n
  part.foldl (fun s g => s.note c.ctx c.unit c.slot cause (BitVec.ofNat 64 (4 * (g - base))) 0) s

/-- Bytes written to a space of the command's own unit. -/
def engWrite (s : State) (c : Cmd) (space a : Nat) (bs : List Byte) : State :=
  if space = 2 then
    (s.healNote c (.tile c.unit) Cause.tileecc accGran a bs.length).modEng c.unit fun x => { x with acc := memPut x.acc a bs }
  else
    let (st, cause) := scrStorage c.unit
    ((s.spacePieces c a bs.length).foldl (fun (x : State × List Byte) p =>
      (((x.1.healNote c st cause 0 p.1 p.2).scrPut c.unit p.1 (x.2.take p.2)), x.2.drop p.2)) (s, bs)).1

/-- A write of a code into a position's element, in a tile's scratchpad or accumulator memory. -/
def putElem (s : State) (c : Cmd) (r : Rec) (e code : Nat) : State :=
  let b := (r.bitAt e (s.idxRaw c r e)).toNat
  let a := b / 8
  s.engWrite c r.space a
    (if r.ew < 2 then toBytes (setField (s.engRead c r.space a 1) (b % 8) r.width code) 1 else toBytes code (r.width / 8))

end State

end Sys2Proof.Machine
end

