-- ==== Sys2Proof/Machine/EngCheck.lean ====
section
/-! DEFINITION. What an engine command must keep to (R82, R207, R210, R211, R218, R226, R227), and progress images (R216). -/
namespace Sys2Proof.Machine

open Bits

/-- The format block of a command: with FB = 0 every operand is F32 without scales (R207, R210). -/
def fbOf (c : Cmd) : Option Num.FmtBlock := Num.fmtBlock fun i => (c.fb.getD i 0).toNat

/-- FMT and SAT of DCFG (R82). -/
def dFmt (f : Num.FmtBlock) : Num.Elem := Num.elemOf (field f.dcfg 0 4)
def dSat (f : Num.FmtBlock) : Bool := bit f.dcfg 8

/-- The extents of an EMM: dense K of a step, M, N, steps S, outer T (R207). -/
structure EmmShape where
  ka : Nat
  m : Nat
  n : Nat
  steps : Nat
  outer : Nat
  deriving DecidableEq, Repr, Inhabited

def emmShape (a b : Rec) : EmmShape := ⟨b.count 0, a.count 1, b.count 1, a.count 2, a.count 3⟩

/-- Groups of 16 dense positions in one outer t (R215). -/
def EmmShape.groups (x : EmmShape) : Nat := x.steps * x.ka / 16

/-- Causes of an EMM (R207, R227). -/
def emmCauses (f : Num.FmtBlock) (sparse : Bool) (a b d : Rec) : List Nat :=
  let x := emmShape a b
  let k := if sparse then 2 * a.count 0 else a.count 0
  causeIf (f.dcfg != 0) Cause.rsvfb ++
  causeIf (f.a.elem.bits != f.b.elem.bits || (sparse && f.a.elem.bits == 32) || a.hyp || b.hyp || d.hyp) Cause.rsvcombo ++
  causeIf (!(a.space == 1 && b.space == 1 && d.space == 2 && a.width == f.a.elem.bits && b.width == f.b.elem.bits &&
    d.width == 32 && d.counts.length == 3 && !d.ind && decide (x.m ≤ 128) && decide (x.n ≤ 128) && k == x.ka &&
    d.count 0 == x.n && d.count 1 == x.m && d.count 2 == x.outer && b.count 2 == x.steps && b.count 3 == x.outer &&
    x.ka % 16 == 0 && f.a.fits x.ka && f.b.fits x.ka)) Cause.rsvcount

/-- Whether an operation of EVX or ERED is on integers. -/
def evxInt : EvxOp → Bool
  | .iadd | .imax | .imul | .imov => true
  | _ => false

def eredInt : EredOp → Bool
  | .iadd | .imax | .imin => true
  | _ => false

/-- An element format that an integer operation does not take (R210). -/
def floatFmt (e : Num.Elem) : Bool := e != .ty .f32 && !e.isInt

/-- Causes that the formats of a vector command break: a CB4 or scaled operand, a floating-point format on an integer
operation (R210, R227). -/
def vecFmtCauses (int : Bool) (used : List Num.OpCfg) (f : Num.FmtBlock) : List Nat :=
  causeIf (used.any (fun o => o.elem == .cb4 || o.scf != 0) ||
    (int && (used.any (fun o => floatFmt o.elem) || floatFmt (dFmt f)))) Cause.rsvcombo

def vecRec (r : Rec) (bits : Nat) : Bool := (r.space == 1 || r.space == 2) && r.width == bits

/-- Causes of an EVX; `b` is its record where it reads one (R210). -/
def evxCauses (op : EvxOp) (f : Num.FmtBlock) (a : Rec) (b : Option Rec) (d : Rec) : List Nat :=
  vecFmtCauses (evxInt op) (if b.isSome then [f.a, f.b] else [f.a]) f ++
  causeIf (a.hyp || d.hyp || (b.map (·.hyp)).getD false) Cause.rsvcombo ++
  causeIf (!(vecRec a f.a.elem.bits && vecRec d (dFmt f).bits && a.total == d.total &&
    (match b with | some b => vecRec b f.b.elem.bits && b.total == d.total | none => true))) Cause.rsvcount

/-- Causes of an ERED (R211). -/
def eredCauses (op : EredOp) (f : Num.FmtBlock) (a d : Rec) : List Nat :=
  vecFmtCauses (eredInt op) [f.a] f ++ causeIf (a.hyp || d.hyp) Cause.rsvcombo ++
  causeIf (!(vecRec a f.a.elem.bits && vecRec d (dFmt f).bits && d.total * a.count 0 == a.total)) Cause.rsvcount

/-- The kind of core that a space belongs to. -/
def spaceKind (space : Nat) : CoreKind := if space = 3 then .sc else .tt

/-- Causes of an ECPY on a kind of core, receivers apart (R218, R227). -/
def ecpyCauses (k : CoreKind) (mc : Bool) (ch : Nat) (a d : Rec) : List Nat :=
  causeIf (a.hyp || (d.hyp && d.space != 0)) Cause.rsvcombo ++
  causeIf (a.total != d.total || a.ew != d.ew || d.space == 2 || (d.space == 0 && (mc || ch != 0)) ||
    (a.space != 0 && spaceKind a.space != k) || (!mc && d.space != 0 && spaceKind d.space != k)) Cause.rsvcount

/-- Causes of a COLL for n members (R226): whatever its records are not is a count or a role. -/
def collCauses (op : CollOp) (n root : Nat) (a d : Rec) : List Nat :=
  let c := a.total
  causeIf (a.hyp || d.hyp) Cause.rsvcombo ++
  causeIf (!(a.space == 1 && d.space == 1 && a.ew == 4 && d.ew == 4 &&
    (match op with
     | .allred => d.total == c
     | .bcast => d.total == c && decide (root < n)
     | .redsc => c % n == 0 && d.total * n == c
     | .allgat => d.total == n * c))) Cause.rsvcount

/-- The units of a copy's receivers: number and unit (R218). -/
def receivers (kv kv1 : Dword) (space : Nat) : List (Nat × UnitId) :=
  ((List.range 64).filter fun i => kv.getLsbD i).map fun i => (i, ⟨spaceKind space, field kv1.toNat 8 1, field kv1.toNat 0 8 + i⟩)

/-- Cores of a kind in a die (R12). -/
def unitCount : CoreKind → Nat
  | .sc => 128 | .tt => 64 | .rc => 16

namespace State

/-- A receiver of the mask outside the context's slices (R397). -/
def recvOut (s : State) (ctx : Nat) (kv kv1 : Dword) (space : Nat) : Bool :=
  (receivers kv kv1 space).any fun r =>
    decide (unitCount r.2.kind ≤ r.2.idx) || !(s.ctxSlices ctx).contains (16 * r.2.die + sliceOf r.2)

/-- Members of a group descriptor as (package, die, tile), read on the NET path; or what stops the reader (R225). -/
def collGroup (s : State) (u : UnitId) (a : Nat) : Except (Nat × Dword × Dword) (List (Nat × Nat × Nat)) :=
  if a % 8 ≠ 0 then .error (Cause.rsvdesc, 0, 0)
  else
    let bad := fun (b : Nat) (e : TFault) => (tCause .net e, tInfo e .read 1, (BitVec.ofNat 64 b : Dword))
    match s.xlate u true .read a with
    | .error e => .error (bad a e)
    | .ok x =>
      let h := s.peek x.pa 8
      let n := h % 2 ^ 16
      if h / 2 ^ 16 ≠ 0 ∨ n < 2 ∨ 1024 < n then .error (Cause.rsvdesc, 0, 0)
      else
        let ms := (List.range n).map fun m => match s.xlate u true .read (a + 8 + 4 * m) with
          | .error e => (Except.error (bad (a + 8 + 4 * m) e) : Except (Nat × Dword × Dword) Nat)
          | .ok y => .ok (s.peek y.pa 4)
        match errs ms, oks ms with
        | e :: _, _ => .error e
        | [], ws =>
          if ws.any fun w => w / 2 ^ 10 ≠ 0 then .error (Cause.rsvdesc, 0, 0)
          else .ok (ws.map fun w => (field w 0 3, field w 3 1, field w 4 6))

/-- The rank of a tile in a group. -/
def rankOf (s : State) (u : UnitId) (ms : List (Nat × Nat × Nat)) : Option Nat :=
  ms.findIdx? fun m => m.1 == field (s.reg u.die Win.dtcfg).toNat 0 3 && m.2.1 == u.die && m.2.2 == u.idx

/-- Causes of a command with its records read (R207 to R211, R218, R226, R397), and the cause, INFO and address of a
descriptor it cannot read. -/
def cmdCauses (s : State) (c : Cmd) : List Nat × Option (Nat × Dword × Dword) :=
  let a := recOf? c.ra
  let b := recOf? c.rb
  let d := recOf? c.rd
  let rsv := fun (rs : List (Option Rec)) => causeIf (rs.any (·.isNone)) Cause.rsvrec
  match c.instr with
  | .emm _ _ _ sp =>
    (rsv [a, b, d] ++ (match fbOf c, a, b, d with
      | some f, some a, some b, some d => emmCauses f sp a b d
      | none, _, _, _ => [Cause.rsvfb]
      | _, _, _, _ => []), none)
  | .evx _ _ op bs =>
    let two := !bs && !op.unary
    (rsv ([a, d] ++ (if two then [b] else [])) ++ (match fbOf c, a, d with
      | some f, some a, some d => if two && b.isNone then [] else evxCauses op f a (if two then b else none) d
      | none, _, _ => [Cause.rsvfb]
      | _, _, _ => []), none)
  | .ered _ _ op =>
    (rsv [a, d] ++ (match fbOf c, a, d with
      | some f, some a, some d => eredCauses op f a d
      | none, _, _ => [Cause.rsvfb]
      | _, _, _ => []), none)
  | .ecpy _ _ ch mc =>
    (rsv [a, d] ++ (match a, d with
      | some a, some d => ecpyCauses c.unit.kind mc ch.toNat a d ++ causeIf (mc && s.recvOut c.ctx c.kv c.kv1 d.space) Cause.recvout
      | _, _ => []), none)
  | .coll _ _ op _ =>
    match s.collGroup c.unit c.kv.toNat with
    | .error e => (rsv [a, d], some e)
    | .ok ms =>
      (rsv [a, d] ++ causeIf (s.rankOf c.unit ms).isNone Cause.rsvdesc ++ (match a, d with
        | some a, some d => collCauses op ms.length (field c.kv1.toNat 32 16) a d
        | _, _ => []), none)
  | _ => ([], none)

end State

-- progress images (R216)

/-- Counters of a walk at a position, four of them. -/
def fourAt (r : Rec) (e : Nat) : List Nat := let c := r.at_ e; (List.range 4).map fun i => c.getD i 0

/-- The position whose counters are given. -/
def posOf : List Nat → List Nat → Nat
  | n :: ns, c :: cs => c + n * posOf ns cs
  | _, _ => 0

def roundCode : Round → Nat
  | .rne => 0 | .rtz => 1 | .rup => 2 | .rdn => 3 | .sto => 4

def roundOf? (n : Nat) : Option Round := [Round.rne, .rtz, .rup, .rdn, .sto][n]?

/-- Positions of a chunk of a record's walk: 4,096 bytes (R215, R220). -/
def perChunk (r : Rec) : Nat := 32768 / r.width

/-- CNT0 to CNT3 of a command (R215). -/
def progress (c : Cmd) : List Nat :=
  match c.instr, recOf? c.ra, recOf? c.rd with
  | .emm .., _, _ => [0, 0, c.cnt2, c.cnt3]
  | .evx .., _, some d => fourAt d c.pos
  | .ered .., some a, _ => fourAt a (c.pos * a.count 0)
  | .ecpy .., some a, _ => fourAt a (c.chunks * perChunk a)
  | _, _, _ => [0, 0, 0, 0]

/-- Where a command's current accumulator region begins. -/
def accRegion (c : Cmd) : Nat :=
  match c.instr, recOf? c.ra, recOf? c.rb, recOf? c.rd with
  | .emm .., some a, some b, some d => (d.byteAt (c.cnt3 * (emmShape a b).m * (emmShape a b).n) 0).1.toNat
  | _, _, _, _ => 0

/-- The 40 dwords of a command's progress image with its TIME. -/
def imageAt (c : Cmd) (time : Nat) : List Nat :=
  let n := progress c
  let f := fun (ds : List Dword) => (List.range 8).map fun i => (ds.getD i 0).toNat
  [c.word.toNat, c.kv.toNat, time,
   pack [(32, n.getD 0 0), (32, n.getD 1 0)], pack [(32, n.getD 2 0), (32, n.getD 3 0)], c.lfsr.toNat,
   pack [(3, roundCode c.mode), (6, 0), (1, ofBool c.zdone), (22, 0), (16, if c.isCopy then c.chunks else 0), (8, c.slot),
     (8, c.unit.idx)],
   accRegion c] ++
  (if c.isCopy ∨ c.isColl then [if c.isCopy then c.refusal.toNat else 0, c.kv1.toNat, 0, 0, 0, 0, 0, 0] else f c.fb) ++
  f c.ra ++ f c.rb ++ f c.rd

/-- The progress image of a command: TIME is k[TI], or 0 (R216). -/
def imageOf (c : Cmd) : List Nat := imageAt c (if c.timed then c.time else 0)

/-- The receivers that have accepted a copy which goes on from its image: once a chunk is sent, all that have not refused. -/
def tookCopy (c : Cmd) : Dword :=
  match c.instr, recOf? c.rd with
  | .ecpy _ _ _ mc, some d =>
    if c.chunks = 0 then 0 else if d.space = 0 then 1 else (if mc then c.kv else 1) &&& ~~~ c.refused
  | _, _ => 0

/-- The chunks that a copy has sent, from the position at which its next chunk begins and the low 16 bits of their number; none
where the two do not agree. Past its last chunk the counters of the walk are 0 again (R215, R216). -/
def copyChunks (a : Rec) (pos mstep : Nat) : Option Nat :=
  let all := cdiv a.total (perChunk a)
  if pos < a.total ∧ pos % perChunk a = 0 ∧ pos / perChunk a % 2 ^ 16 = mstep then some (pos / perChunk a)
  else if pos = 0 ∧ all % 2 ^ 16 = mstep then some all
  else none

/-- A command from its image, for what `base` gives besides; none where CMD is no command of the queue or the progress
lies outside the command (R217). -/
def ofImage (ds : List Nat) (q : Nat) (base : Cmd) : Option Cmd :=
  let d := fun i => ds.getD i 0
  let w : Dword := BitVec.ofNat 64 (d 0)
  let i := (decodeWord w 0).instr
  let recs := fun o => (List.range 8).map fun j => (BitVec.ofNat 64 (d (o + j)) : Dword)
  let n := [field (d 3) 0 32, field (d 3) 32 32, field (d 4) 0 32, field (d 4) 32 32]
  let here : Bool := match i with
    | .emm .. => q == 0
    | .evx .. | .ered .. => q == 1
    | .ecpy _ e _ _ => decide (2 ≤ q) && q == e.q.toNat
    | .coll .. => q == 2
    | .emode _ e _ => q == e.q.toNat
    | _ => false
  let ti := match i with
    | .emm _ e _ _ | .evx _ e _ _ | .ered _ e _ | .ecpy _ e _ _ | .coll _ e _ _ => e.ti != 0
    | _ => false
  match roundOf? (field (d 6) 0 3) with
  | none => none
  | some mode =>
    if !here ∨ (decodeWord w 0).causes ≠ [] then none
    else
      let c : Cmd := { base with
        instr := i, word := w, kv := BitVec.ofNat 64 (d 1), time := d 2, timed := ti, mode := mode, lfsr := BitVec.ofNat 32 (Num.seedOf (field (d 5) 0 32))
        zdone := bit (d 6) 9, cnt2 := n.getD 2 0, cnt3 := n.getD 3 0, chunks := field (d 6) 32 16, begun := true
        ra := recs 16, rb := recs 24, rd := recs 32 }
      let c := match i with
        | .ecpy .. => { c with refused := BitVec.ofNat 64 (d 8), kv1 := BitVec.ofNat 64 (d 9) }
        | .coll .. => { c with kv1 := BitVec.ofNat 64 (d 9) }
        | _ => { c with fb := recs 8 }
      match i, recOf? c.ra, recOf? c.rb, recOf? c.rd with
      | .emm .., some a, some b, _ =>
        let x := emmShape a b
        if x.outer ≤ c.cnt3 ∨ x.groups ≤ c.cnt2 then none else some c
      | .evx .., _, _, some r =>
        let p := posOf r.counts n
        if p < r.total ∧ fourAt r p = n then some { c with pos := p } else none
      | .ered .., some a, _, _ =>
        let p := posOf a.counts n
        if p < a.total ∧ fourAt a p = n then some { c with pos := p / a.count 0 } else none
      | .ecpy .., some a, _, _ => (copyChunks a (posOf a.counts n) c.chunks).map fun k =>
          let c := { c with chunks := k }
          { c with accepted := tookCopy c }
      | .coll .., _, _, _ | .emode .., _, _, _ => some c
      | _, _, _, _ => none

end Sys2Proof.Machine
end

