-- ==== Sys2Proof/Machine/Repl.lean ====
section
/-! DEFINITION. Replicated pages: the replication table, stamps, frames, and updates on their way (R242 to R244, R333 to
R336, R417). -/
namespace Sys2Proof.Machine

open Bits

namespace State

/-- The number of a die of this package in its domain (R332). -/
def domNo (s : State) (d : Nat) : Nat := 2 * field (s.reg d Win.dtcfg).toNat 0 3 + d

/-- The partition identifier of a partition entry (R255). -/
def ptnOf (s : State) (d pidx : Nat) : Nat := field (s.reg d (Win.peCfg pidx)).toNat 48 16

/-- The entries of a partition's replication table as (page number, HOLD, HOME) (R243). -/
def replTable (s : State) (d pidx : Nat) : List (Nat × Nat × Nat) :=
  let base := (s.reg d (Win.peRbase pidx)).toNat
  (List.range ((s.reg d (Win.peRcnt pidx)).toNat)).map fun i =>
    let x := s.peek (base + 16 * i) 16
    (field x 12 44, field x 64 16, field x 56 3)

/-- The domain die that homes a replicated page: the table's, or the one that took over (R243, R418). -/
def replHome (s : State) (d pidx pa : Nat) : Nat :=
  match (s.die d).homes.get (pa / 4096) with
  | some t => t
  | none => match (s.replTable d pidx).find? fun e => e.1 == pa / 4096 with
    | some e => 2 * e.2.2 + homeDie pa
    | none => s.domNo d

/-- Whether a die holds a replica of a page (R243). -/
def holds (s : State) (d pidx pa : Nat) : Bool :=
  (s.replTable d pidx).any fun e => e.1 == pa / 4096 && bit e.2.1 (s.domNo d)

/-- Whether a page stands in a partition's replication table (R243). -/
def isRepl (s : State) (d pidx pa : Nat) : Bool := (s.replTable d pidx).any fun e => e.1 == pa / 4096

/-- The partition entry of a die that carries a partition identifier. -/
def entryOf (s : State) (d ptn : Nat) : Nat :=
  ((List.range 32).find? fun n => bit (s.reg d (Win.peCfg n)).toNat 32 && s.ptnOf d n == ptn).getD 0

/-- A store to a replicated page of a partition is outstanding at a die (R243). -/
def replOut (s : State) (d ptn : Nat) : Bool :=
  (s.die d).upd.any (fun m => m.ptn == ptn) || (s.die d).homeUpd.any (fun h => h.ptn == ptn) ||
  s.ops.any fun o => o.repl && !o.vc.isEmpty && homeDie o.pa == d && s.ptnOf d (s.unitSlice o.unit).pidx == ptn

/-- The sharer set of a partition, as a mask: the OR of HOLD over the table, taken over by the replica unit while no store to a
replicated page of the partition is outstanding (R243). -/
def sharerMask (s : State) (d pidx : Nat) : Nat :=
  let now := (s.replTable d pidx).foldl (fun m e => m ||| e.2.1) 0
  match (s.die d).shared.get (s.ptnOf d pidx) with
  | some m => if s.replOut d (s.ptnOf d pidx) then m else now
  | none => now

/-- The dies of the sharer set that have not been fenced (R243, R412). -/
def sharers (s : State) (d pidx : Nat) : List Nat :=
  (List.range 16).filter fun t => bit (s.sharerMask d pidx) t && !(s.die d).fenced.contains (.die t)

/-- The replica unit takes over the sharer set as it stands (R243). -/
def holdSharers (s : State) (d pidx : Nat) : State :=
  s.modDie d fun x => { x with shared := x.shared.set (s.ptnOf d pidx) (some (s.sharerMask d pidx)) }

/-- A die's vector clock of a partition: 16 entries, and behind them the latest of its own stamps that is applied. -/
def clockOf (s : State) (d ptn : Nat) : List Nat :=
  let c := (s.die d).vc.get ptn
  (List.range 17).map fun i => c.getD i 0

def setClock (s : State) (d ptn : Nat) (c : List Nat) : State :=
  s.modDie d fun x => { x with vc := x.vc.set ptn c }

/-- A store of an agent of the package is stamped at its replica die (R244). -/
def stampOf (s : State) (d ptn : Nat) : List Nat × State :=
  let c := s.clockOf d ptn
  let w := s.domNo d
  let c' := c.set w ((c.getD w 0 + 1) % 2 ^ 16)
  (c'.take 16, s.setClock d ptn c')

-- messages (R333, R334, R336)

/-- The common header of a message. -/
def msgHead (addr arg ptn stamper type : Nat) : List Byte :=
  toBytes (pack [(8, type), (4, 0), (4, stamper), (16, ptn), (32, arg), (64, addr)]) 16

/-- SACK of a connection: bit i, frame ACKSEQ + 1 + i has come (R333). -/
def sackOf (c : Conn) : BitVec 32 :=
  BitVec.ofNat 32 ((List.range 32).foldl (fun n i => n + (if c.early.any fun f => f.seq == (c.expect + 1 + i) % 2 ^ 32 then 2 ^ i else 0)) 0)

/-- A frame as it leaves, with what its connection acknowledges. -/
def stampFrame (c : Conn) (f : Frame) : Frame := { f with ackSeq := c.expect, sack := sackOf c }

/-- The payload of a transport frame (R333): the header, whole messages, and the CRC over both. -/
def framePayload (f : Frame) : List Byte :=
  let b := toBytes (pack [(128, 0), (4, f.dst), (4, f.src), (4, f.ver), (4, f.cls), (16, f.body.length), (32, f.sack.toNat), (32, f.seq),
    (32, f.ackSeq)]) 32 ++ f.body
  b ++ toBytes (crc32c b).toNat 4

/-- The MAC address of a domain die's transport, its first octet first (R332). -/
def macOf (s : State) (d t : Nat) : List Byte := toBytesBE (field (s.reg d (Win.dtpeer (t / 2) (t % 2))).toNat 0 48) 6

/-- A frame on an Ethernet port: Ethernet II, EtherType 0x88B5 (R333); a short one is filled up to 46 bytes of payload (log 93). -/
def ethFrame (s : State) (d : Nat) (f : Frame) : List Byte :=
  let p := framePayload f
  s.macOf d f.dst ++ s.macOf d f.src ++ [0x88, 0xB5] ++ p ++ List.replicate (46 - p.length) 0

/-- The transport frame that bytes from an Ethernet port hold: of the EtherType, of at most 9,000 bytes of payload, and with a good
CRC; none otherwise (R333). -/
def frameOf (bs : List Byte) : Option Frame :=
  let p := bs.drop 14
  let h := ofBytes (p.take 32)
  let n := field h 144 16
  if (bs.drop 12).take 2 = [0x88, 0xB5] ∧ 36 + n ≤ p.length ∧ p.length ≤ 9000 ∧
      ofBytes ((p.drop (32 + n)).take 4) = (crc32c (p.take (32 + n))).toNat then
    some { seq := field h 192 32, ackSeq := field h 224 32, sack := BitVec.ofNat 32 (field h 160 32), cls := field h 140 4
           ver := field h 136 4, src := field h 132 4, dst := field h 128 4, body := (p.drop 32).take n }
  else none

/-- A frame leaves a die: through port (t + c) mod 4 for class c to die t (R332). -/
def frameOut (s : State) (d : Nat) (f : Frame) : State :=
  { s with out := s.out ++ [.frame d ((f.dst + f.cls) % 4) (s.ethFrame d f)] }

/-- A peer that a die exchanges frames with (R332). -/
def peerOn (s : State) (d t : Nat) : Bool :=
  bit (s.reg d Win.dtcfg).toNat 16 && bit (s.reg d (Win.dtpeer (t / 2) (t % 2))).toNat 48

/-- Frames that wait on a connection leave while at most 256 are unacknowledged (R335). -/
def pump (s : State) (d dst cls : Nat) : State :=
  let c := (s.die d).conns.get (8 * dst + cls)
  let n := 256 - (c.unacked.filter fun u => u.2.2.2 != 0).length
  let go := (c.unacked.filter fun u => u.2.2.2 == 0).take n
  let now := s.pace d
  let s := s.modDie d fun x => { x with conns := x.conns.set (8 * dst + cls) { c with
    unacked := c.unacked.map fun u => if u.2.2.2 == 0 && go.any (fun g => g.1 == u.1) then (u.1, u.2.1, now, 1) else u } }
  go.foldl (fun (s : State) u => s.frameOut d (stampFrame c u.2.1)) s

/-- A frame of one message to a domain die: numbered on its connection, and kept until it is acknowledged (R335). A die
that has been fenced gets none (R408), nor does one that is no peer (R332; log 89). -/
def sendFrame (s : State) (d dst cls : Nat) (body : List Byte) : State :=
  if (s.die d).fenced.contains (.die dst) ∨ !s.peerOn d dst then s
  else
    let k := 8 * dst + cls
    let c := (s.die d).conns.get k
    let f : Frame := ⟨c.nextSeq, c.expect, 0, cls, 1, s.domNo d, dst, body⟩
    (s.modDie d fun x => { x with
      conns := x.conns.set k { c with nextSeq := (c.nextSeq + 1) % 2 ^ 32, unacked := c.unacked ++ [(c.nextSeq, f, 0, 0)] } }).pump d dst cls

/-- The bytes of an update message (R336). -/
def updateBytes (m : UpdateMsg) : List Byte :=
  let mask := m.words.foldl (fun a w => a ||| 2 ^ w.1) 0
  msgHead m.addr mask m.ptn m.stamper 1 ++
  (List.range 16).flatMap (fun i => toBytes (m.vc.getD i 0) 2) ++
  (List.range 32).flatMap fun i =>
    toBytes (((m.words.find? fun (w : Nat × Word) => w.1 == i).map fun (w : Nat × Word) => w.2.toNat).getD 0) 4

/-- An update as its bytes say it. -/
def updateOf (bs : List Byte) (home : Nat) : UpdateMsg :=
  let f := fun o n => ofBytes ((bs.drop o).take n)
  let h := f 0 16
  { addr := field h 64 64, ptn := field h 16 16, stamper := field h 12 4, home := home
    vc := (List.range 16).map fun i => f (16 + 2 * i) 2
    words := ((List.range 32).filter fun i => bit (field h 32 32) i).map fun i => (i, BitVec.ofNat 32 (f (48 + 4 * i) 4)) }

-- updates (R244, R245)

/-- An update reaches a die's replica unit; one from another home is kept in the replay log, the last 16,384 of each
home (R417). -/
def receiveUpdate (s : State) (d : Nat) (m : UpdateMsg) : State :=
  s.modDie d fun x =>
    let mine := (x.log.filter fun u => u.home == m.home).length
    let log := if m.home = s.domNo d then x.log
      else (if 16384 ≤ mine then (match x.log.findIdx? fun u => u.home == m.home with
        | some i => x.log.eraseIdx i | none => x.log) else x.log) ++ [m]
    { x with upd := x.upd ++ [m], log := log }

/-- The home forwards an update to every die of the sharer set and waits for their answers (R244). -/
def forwardUpdate (s : State) (d pidx : Nat) (m : UpdateMsg) (op old : Option Nat) : State :=
  let ts := s.sharers d pidx
  let s := (s.holdSharers d pidx).modDie d fun x => { x with homeUpd := x.homeUpd ++ [⟨m.addr, m.stamper, m.vc, ts, op, old, m.ptn⟩] }
  ts.foldl (fun s t =>
    if t / 2 = s.domNo d / 2 then s.receiveUpdate (t % 2) m
    else s.sendFrame d t 2 (updateBytes m)) s

/-- A line as it will stand when the updates that wait at its home have been applied. -/
def lineAhead (s : State) (d base : Nat) : List Byte :=
  ((s.die d).upd.filter fun m => m.addr == base && m.home == s.domNo d).foldl (fun (l : List Byte) m =>
    m.words.foldl (fun (l : List Byte) w => (toBytes w.2.toNat 4).zipIdx.foldl (fun (l : List Byte) b => l.set (4 * w.1 + b.2) b.1) l) l)
    (memBytes s.mem base 128)

/-- The words of a line that bytes at an address touch, with the values they take. -/
def wordsAt (s : State) (d pa : Nat) (bs : List Byte) : List (Nat × Word) :=
  let at_ := pa % 128
  let line := bs.zipIdx.foldl (fun (l : List Byte) b => l.set (at_ + b.2) b.1) (s.lineAhead d (pa - at_))
  ((List.range 32).filter fun i => decide (at_ < 4 * i + 4 ∧ 4 * i < at_ + bs.length)).map fun i =>
    (i, BitVec.ofNat 32 (ofBytes ((line.drop (4 * i)).take 4)))

/-- A store on its way to the home of its page, as a message of class 0: its sector, the bytes written and their values
(R334, log 30). -/
def storeMsg (sector mask data : Nat) (vc : List Nat) (ptn me : Nat) : List Byte :=
  msgHead sector mask ptn me (Config.msgType 0) ++ ((List.range 16).flatMap fun i => toBytes (vc.getD i 0) 2) ++ toBytes data 32

/-- Words of a line that the device stores to a replicated page without a lane that waits for them: one update where the page
is homed here, else a store for each sector on its way to the home (R244). -/
def postWords (s : State) (d pidx pa : Nat) (ws : List (Nat × Word)) : State :=
  let ptn := s.ptnOf d pidx
  let me := s.domNo d
  let home := s.replHome d pidx pa
  let base := pa / 128 * 128
  if home = me then
    let (vc, s) := s.stampOf d ptn
    s.forwardUpdate d pidx ⟨base, ws, vc, me, ptn, me⟩ none none
  else (List.range 4).foldl (fun s k =>
    let mine := ws.filter fun w => w.1 / 8 == k
    if mine = [] then s
    else
      let (vc, s) := s.stampOf d ptn
      let at_ := fun (w : Nat × Word) => 4 * (w.1 % 8)
      s.sendFrame d home 0 (storeMsg (base + 32 * k) (mine.foldl (fun m w => m + 15 * 2 ^ at_ w) 0)
        (mine.foldl (fun m w => m + w.2.toNat * 2 ^ (8 * at_ w)) 0) vc ptn me)) s

/-- A store of the device's own to memory of a partition: at home, or to every replica of a replicated page (R237, R244). -/
def partStore (s : State) (pidx pa : Nat) (bs : List Byte) : State :=
  let d := homeDie pa
  if s.isRepl d pidx pa then s.postWords d pidx pa (s.wordsAt d pa bs) else s.devStore pa bs

end State

end Sys2Proof.Machine
end

