-- ==== Sys2Proof/Machine/Slice.lean ====
section
/-! DEFINITION. What stands at a home slice beside the bytes of its lines: the regulators that meter requests, the order in
which they are served, the system cache, soft errors, the doorbells of headers, and the warps that wait at a hurdle word
(R149, R150, R172, R229, R257, R258, R267 to R270, R374, R389, R405, R406). -/
namespace Sys2Proof.Machine

open Bits

/-- A queue header as the distributor reads it. -/
structure LHdr where
  pa : Nat
  base : Nat
  widx : Nat
  ridx : Nat
  log2n : Nat
  cfirst : Nat
  ccount : Nat
  daff : Nat
  stop : Bool
  deriving DecidableEq, Repr, Inhabited

/-- Bytes of a carve-out code (R70). -/
def carveBytes (c : Nat) : Nat := 1024 * [0, 32, 64, 128, 192, 256, 320].getD c 0

namespace State

-- the data caches of units (R228, R263)

/-- Lines that an agent's data cache holds at most; the caches of the host complex are no part of the device. -/
def cacheLines (s : State) (n : Nat) : Option Nat :=
  if n = hostAgent then none
  else match (unitOf n).kind with
    | .sc => some ((393216 - carveBytes (s.core (unitOf n)).carve) / 128)
    | _ => some 512

/-- Copies leave a cache until it holds no more lines than it has room for; which ones is not given (R228). -/
def fitCache (n cap : Nat) : Nat → Tab (Option Copy) → Tab (Option Copy)
  | 0, t => t
  | k + 1, t => if t.length ≤ cap then t else fitCache n cap k (t.eraseIdx (Config.victim n k % t.length))

/-- An agent's cache within its size. -/
def trimCache (s : State) (n : Nat) : State :=
  match s.cacheLines n with
  | none => s
  | some cap => s.modAgent n fun a => { a with copies := fitCache n cap a.copies.length a.copies }

/-- A core has switched its carve-out: the lines in the region that changes role are dropped (R263). -/
def shrinkCache (s : State) (u : UnitId) (old : Nat) : State :=
  if carveBytes (s.core u).carve ≤ carveBytes old then s
  else (s.modAgent (unitNo u) fun a => { a with
    copies := a.copies.filter fun c => !Config.inCarve (s.core u).carve c.1 }).trimCache (unitNo u)

-- the system cache (R267, R268)

def setKey (pa : Nat) : Nat := 4096 * homeNo pa + Config.setOf (pa / 128) % 4096

/-- Lines a requester holds in a slice. -/
def sliceHeld (s : State) (home n c : Nat) : Nat :=
  s.sets.foldl (fun a p => if p.1 / 4096 = home then a + (p.2.filter fun w => w.pidx == n && w.cls == c).length else a) 0

/-- Lines a requester may hold in a slice of a die. -/
def allocLimit (s : State) (d n c : Nat) : Nat := 2048 * field (s.reg d (Win.qos n c)).toNat 0 6

/-- A line leaves its slice (R235, R268). -/
def evict (s : State) (line : Nat) : State :=
  match s.lines.get line with
  | some t => { s with lines := s.lines.set line none, mts := s.mts.modify (homeNo (128 * line)) fun m => later m t.rts }
  | none => s

/-- An access brings its line into its slice, where the allocation rules let it (R268). A streaming access leaves it at
the lowest replacement priority. -/
def touch (s : State) (pa pidx cls : Nat) (stream : Bool) : State :=
  if onExpander pa then s
  else
    let k := setKey pa
    let line := pa / 128
    let ws := s.sets.get k
    let me : Way := ⟨line, pidx, cls⟩
    let put := fun (r : List Way) (w : Way) => if stream then w :: r else r ++ [w]
    match ws.find? fun w => w.line == line with
    | some w => { s with sets := s.sets.set k (put (ws.filter fun x => x.line != line) w) }
    | none =>
      let home := homeNo pa
      let d := homeDie pa
      let m := s.mts.get home
      let fill := fun (s : State) (r : List Way) =>
        { s with sets := s.sets.set k (put r me), lines := s.lines.set line (some ⟨m, m⟩) }
      if ws.length < 16 then fill s ws
      else if s.allocLimit d pidx cls ≤ s.sliceHeld home pidx cls then
        let s := { s with self_ := s.self_.modify (8 * (32 * d + pidx) + cls) fun n => min (n + 1) (2 ^ 32 - 1) }
        match ws.find? fun w => w.pidx == pidx && w.cls == cls with
        | some w => fill (s.evict w.line) (ws.filter fun x => x.line != w.line)
        | none => s
      else
        match (match ws.find? fun w => decide (s.allocLimit d w.pidx w.cls ≤ s.sliceHeld home w.pidx w.cls) with
          | some w => some w | none => ws.head?) with
        | some w => fill (s.evict w.line) (ws.filter fun x => x.line != w.line)
        | none => fill s ws

/-- Lines come into their slices for a requester (R268). -/
def touchLines (s : State) (pidx cls : Nat) (ls : List Nat) : State := ls.foldl (fun (s : State) l => s.touch l pidx cls false) s

/-- The partition entry of the context a unit runs. -/
def partOf (s : State) (u : UnitId) : Nat := (s.unitSlice u).pidx

/-- Whether a regulator still holds a request back (R269). -/
def waitsReg (s : State) (o : MemOp) : Bool :=
  (s.die o.unit.die).buckets.any fun p => match p.2 with | some b => b.queue.any fun q => q.1 == o.id | none => false

-- buckets (R269)

/-- RATE of a regulator. -/
def rateOf (s : State) (d n c : Nat) : Nat := field (s.reg d (Win.qos n c)).toNat 32 32

/-- Sixteenths of its rate at which a regulator fills: BSCALE for a BULK one while its entry's scaling applies (R269,
R272). -/
def bulkScale (s : State) (d n c : Nat) : Nat :=
  if field (s.reg d (Win.qos n c)).toNat 14 2 = 2 ∧ (s.die d).scaled.get n then field (s.reg d (Win.peCfg n)).toNat 44 4 else 16

/-- The bucket of a regulator as it stands now. -/
def bucketNow (s : State) (d n c : Nat) : Bucket :=
  let full := s.fullBucket d n c
  let now := s.pace d
  match (s.die d).buckets.get (8 * n + c) with
  | none => ⟨full, now, [], 0⟩
  | some b => { b with t := min full (b.t + ((s.rateOf d n c * s.bulkScale d n c * (now - b.since) : Nat) : Int)), since := now }

def setBucket (s : State) (d n c : Nat) (b : Option Bucket) : State :=
  s.modDie d fun x => { x with buckets := x.buckets.set (8 * n + c) b }

/-- A bucket brought up to the present tick; a regulator with RATE 0 has none. -/
def settle (s : State) (d n c : Nat) : State := if s.rateOf d n c = 0 then s else s.setBucket d n c (some (s.bucketNow d n c))

/-- Whether a bucket lets a request of b bytes leave. -/
def bucketLets (s : State) (d n c : Nat) (k : Bucket) (b : Nat) : Bool := decide (min (16000 * (b : Int)) (s.fullBucket d n c) ≤ k.t)

/-- A request of a head or an encoder passes its regulator, or waits (none). -/
def meter (s : State) (d n c bytes : Nat) : Option State :=
  if s.rateOf d n c = 0 then some s
  else
    let k := s.bucketNow d n c
    if k.queue = [] ∧ s.bucketLets d n c k bytes then some (s.setBucket d n c (some { k with t := k.t - 16000 * (bytes : Int) }))
    else none

/-- What an access asks of its regulator: a request of its class on its die (R267). -/
def meterFor (s : State) (u : UnitId) (p : APath) (bytes : Nat) : Option State :=
  s.meter u.die (s.unitSlice u).pidx (reqClass u p) bytes

/-- The write of a partition entry's BSCALE leaves what its buckets have gathered (R269). -/
def settleAll (s : State) (d n : Nat) : State := (List.range 7).foldl (fun s c => s.settle d n c) s

-- the order of service (R270)

/-- The regulator of an access, 8 * entry + class. -/
def regulatorOf (s : State) (o : MemOp) : Nat := 8 * s.partOf o.unit + reqClass o.unit o.path

/-- The latency class of a regulator. -/
def latOf (s : State) (d r : Nat) : Nat := field (s.reg d (Win.qos (r / 8) (r % 8))).toNat 14 2

/-- Where an access is served: a home slice, or an expander port. -/
def servedAt (pa : Nat) : Nat := if onExpander pa then 64 + portOf pa else homeNo pa

/-- The die of such a place. -/
def placeDie (n : Nat) : Nat := if n < 64 then n / 32 else (n - 64) / 2

/-- Of two accesses that meet, the first is served before the second: ISO before LOW before BULK, and within one class the
regulators in turn from behind the one served last (R270). -/
def servedFirst (s : State) (place : Nat) (e o : MemOp) : Bool :=
  let a := s.regulatorOf e
  let b := s.regulatorOf o
  let la := s.latOf e.unit.die a
  let lb := s.latOf o.unit.die b
  let turn := fun (r : Nat) => (r + 256 - s.served.get place) % 256
  decide (la < lb) || (la == lb && decide (turn a < turn b))

-- soft errors at home (R405, R406)

/-- A store over bytes: granules it covers whole are good again; those it covers in part are reported (R406). -/
def storeHeal (s : State) (ctx : Nat) (u : UnitId) (slot pa n : Nat) : State :=
  if s.bad = [] then s
  else
    let (a, s) := s.healGranules .slice 8 pa n
    let (b, s) := s.healGranules .dram 32 pa n
    let s := a.foldl (fun s g => s.note ctx u slot Cause.sliceecc (BitVec.ofNat 64 (8 * g)) 0) s
    b.foldl (fun s g => s.note ctx u slot Cause.dramecc (BitVec.ofNat 64 (32 * g)) 0) s

-- launch-queue headers (R257, R258, R374)

/-- Launch queues of a context (R254). -/
def lqCount (s : State) (ctx : Nat) : Nat := if (s.ctxDesc ctx).lqn = 0 then 16 else (s.ctxDesc ctx).lqn

/-- Where a queue's header stands. -/
def lqHdrPa (s : State) (ctx q : Nat) : Nat := s.ctxPa ctx .rw (s.ctxRead ctx ((s.ctxDesc ctx).lqbase.toNat + 8 * q) 8)

def lqHdr (s : State) (ctx q : Nat) : LHdr :=
  let pa := s.lqHdrPa ctx q
  let x := s.peek pa 64
  ⟨pa, field x 0 64, field x 64 64, field x 128 64, field x 192 4, field x 200 9, field x 209 9, field x 218 2, bit x 220⟩

/-- Whether a queue holds back since it refused an entry; STOP set since then and clear again ends it (R374). -/
def queueStuck (s : State) (d ctx q : Nat) : Bool := (s.die d).stuckQ.any fun x => x.1 == ctx && x.2.1 == q

/-- What the distributor sees of STOP in the header of a queue that holds back. -/
def seeStop (s : State) (d ctx q : Nat) (stop : Bool) : State :=
  if !s.queueStuck d ctx q then s
  else s.modDie d fun x => { x with stuckQ := x.stuckQ.filterMap fun y =>
    if y.1 == ctx && y.2.1 == q then (if stop then some (ctx, q, true) else if y.2.2 then none else some y) else some y }

-- doorbells (R258, R389)

/-- Contexts whose fault-queue header lies in the line of a physical address. -/
def fqOwners (s : State) (pa : Nat) : List Nat :=
  s.ctxs.filterMap fun p => match p.2.desc with
    | some _ => if s.ctxPa p.1 .read (s.fqVa p.1) / 128 = pa / 128 then some p.1 else none
    | none => none

/-- A store or atomic performed at home on a queue header rings its doorbell: the distributor sees STOP of a queue that holds
back (R258, R374), and the fault unit scans a fault queue (R389). -/
def doorbell (s : State) (pa : Nat) : State :=
  let s := [0, 1].foldl (fun s d => (s.die d).stuckQ.foldl (fun s x =>
    let h := s.lqHdr x.1 x.2.1
    if h.pa / 128 = pa / 128 then s.seeStop d x.1 x.2.1 h.stop else s) s) s
  (s.fqOwners pa).foldl (fun s c => { s.fqInterrupt c with agenda := .faultScan c :: s.agenda }) s

-- accesses under way

/-- The new value of an atomic (R174). -/
def atomNew (op : AtomOp) (w o b c : Nat) : Nat :=
  let f : Num.FFmt := if w = 64 then Num.f64 else Num.f32
  match op with
  | .add => (o + b) % 2 ^ w
  | .and => o &&& b
  | .or => o ||| b
  | .xor => o ^^^ b
  | .min => if signed w o ≤ signed w b then o else b
  | .max => if signed w b ≤ signed w o then o else b
  | .minu => min o b
  | .maxu => max o b
  | .xchg => b
  | .cas => if o = c then b else o
  | .inc => if b ≤ o then 0 else o + 1
  | .dec => if o = 0 ∨ b < o then b else o - 1
  | .fadd => Num.addE f o b
  | .fmin => Num.minE f o b
  | .fmax => Num.maxE f o b

def setOp (s : State) (o : MemOp) : State := { s with ops := s.ops.map fun (x : MemOp) => if x.id == o.id then o else x }

def getOp (s : State) (id : Nat) : Option MemOp := s.ops.find? fun o => o.id == id

/-- The agent's program time as a request carries it. -/
def ptsOf (s : State) (o : MemOp) : BitVec 16 := (s.agent (unitNo o.unit)).pts

-- memory hurdles (R149, R150)

/-- Warps that wait at a hurdle word see its new phase; a path of which every lane has passed goes on, having acquired
(R149, R150, R382). -/
def phaseNotify (s : State) (pa : Nat) (ph : Bool) : State :=
  s.cores.foldl (fun s c => c.2.warps.foldl (fun s p =>
    match p.2 with
    | none => s
    | some w =>
      let here := fun (q : Path) => match q.wait with | .memHurdle _ pa' _ _ => pa' == pa | _ => false
      if w.paths.any here then
        let u := unitOf c.1
        let t := (s.lineTs pa).wts
        let s := s.modAgent (unitNo u) fun a => { a with pts := later a.pts t }
        s.flow u p.1 fun e (w : Warp) => w.paths.foldl (fun w q =>
          match q.wait with
          | .memHurdle a pa' left phs =>
            if pa' = pa then
              let stay := left &&& (if ph then phs else ~~~ phs)
              let w := if stay = left then w else { w with wdcnt := 0 }
              if stay = 0 ∧ !e.held then w.pathOn e q
              else { w with paths := w.paths.map fun x =>
                if x.mask = q.mask then { x with wait := .memHurdle a pa' stay phs } else x }
            else w
          | _ => w) w
      else s) s) s

/-- Hurdle words at which warps wait, within bytes of memory. -/
def hurdlesIn (s : State) (pa n : Nat) : List Nat :=
  (s.cores.flatMap fun c => c.2.warps.flatMap fun p => match p.2 with
    | none => []
    | some w => w.paths.filterMap fun q => match q.wait with
      | .memHurdle _ a _ _ => if a < pa + n ∧ pa < a + 8 then some a else none
      | _ => none).eraseDups

/-- Bytes have been written at home: a multicast whose copy is older is closed to the warp that wrote them, waiting warps see a
phase that has flipped, and headers ring (R149, R172, R258, R389). -/
def written (s : State) (pa n : Nat) (who : Option (UnitId × Nat)) : State :=
  let s := match who with
    | none => s
    | some k => { s with windows := s.windows.map fun (x : Window) =>
        if !x.opened ∧ x.pa < pa + n ∧ pa < x.pa + 128 * x.lines then { x with tainted := k :: x.tainted } else x }
  let s := (s.hurdlesIn pa n).foldl (fun s a => s.phaseNotify a (bit (s.peek a 8) 63)) s
  s.doorbell pa

/-- An arrival of HURD has been performed: its lanes wait on the phase it found (R149). -/
def hurdleWait (s : State) (o : MemOp) : State :=
  let phs : Lanes := if o.val % 2 = 1 then BitVec.allOnes 32 else 0
  let s := s.modWarp o.unit o.slot fun w => { w with paths := w.paths.map fun p =>
    if (p.wait == Wait.memArrival (o.id)) then { p with wait := .memHurdle o.ea o.pa (p.mask &&& o.lanes) phs } else p }
  s.phaseNotify o.pa (bit (s.peek o.pa 8) 63)

/-- The hurdle word after arrivals, and whether its phase flipped. -/
def hurdleWord (x n : Nat) : Nat × Bool :=
  let cnt := (field x 0 32 + n) % 2 ^ 32
  if field x 32 31 ≤ cnt then (setField (setField x 0 32 0) 63 1 (1 - field x 63 1), true) else (setField x 0 32 cnt, false)

end State

end Sys2Proof.Machine
end

