-- ==== Sys2Proof/Machine/Update.lean ====
section
/-! DEFINITION. Updates of replicated pages as a die applies them, atomics among them, and what their writers are told (R237,
R244 to R246, R250). -/
namespace Sys2Proof.Machine

open Bits

namespace State

/-- a precedes or equals b in serial arithmetic (R239, R245). -/
def notAfter (a b : Nat) : Bool := let x := BitVec.ofNat 16 a; let y := BitVec.ofNat 16 b; x == y || precedes x y

/-- Whether a die may apply an update (R245). -/
def canApply (s : State) (d : Nat) (m : UpdateMsg) : Bool :=
  let c := s.clockOf d m.ptn
  let w := m.stamper
  let me := s.domNo d
  (if w = me then m.vc.getD w 0 == (c.getD 16 0 + 1) % 2 ^ 16 else m.vc.getD w 0 == (c.getD w 0 + 1) % 2 ^ 16) &&
  (List.range 16).all fun x => x == w || notAfter (m.vc.getD x 0) (c.getD x 0)

/-- The first of a die's updates, in their order of arrival, that it may apply: those ready together are applied in that order
(R245). -/
def firstReady (s : State) (d : Nat) : Option Nat := (s.die d).upd.findIdx? (s.canApply d)

/-- The access of this package whose stamp an update carries, at the die that stamped it. -/
def updOp (s : State) (d : Nat) (m : UpdateMsg) : Option MemOp :=
  if m.stamper ≠ s.domNo d then none
  else s.ops.find? fun o => o.repl && o.stage == .waitApplied && homeDie o.pa == d && o.vc == m.vc && o.pa / 128 * 128 == m.addr

/-- The words of an update written at a replica, as a store performed at its slice (R237, R245). A store of an agent of this
package is performed there for it, at every scope up to PKG (R246). -/
def applyWords (s : State) (d : Nat) (m : UpdateMsg) : State :=
  let op := s.updOp d m
  let pts := match op with | some o => s.ptsOf o | none => (s.lineTs m.addr).rts
  let s := match op with
    | some o => (s.storeHeal o.ctx o.unit o.slot o.pa o.n).touch o.pa (s.partOf o.unit) (reqClass o.unit o.path) o.ch
    | none => s
  let s := s.reachPt m.addr (s.storeWts m.addr pts)
  let line := m.words.foldl (fun (l : List Byte) w =>
    (toBytes w.2.toNat 4).zipIdx.foldl (fun (l : List Byte) b => l.set (4 * w.1 + b.2) b.1) l) (memBytes s.mem m.addr 128)
  let (w, s) := s.homeStore m.addr line pts
  let s := s.written m.addr 128 (op.map fun o => (o.unit, o.slot))
  match op with
  | some o => (s.setOp { o with near := true, wts := w }).modAgent (unitNo o.unit) fun a => { a with pts := later a.pts w }
  | none => s

/-- The last answer to a stamped store, atomic or arrival has come: it is performed at DOMAIN (R246). -/
def opApplied (s : State) (id : Nat) (val : Option Nat) : State :=
  match s.getOp id with
  | none => s
  | some o =>
    let o := { o with stage := .performed, val := val.getD o.val }
    let s := s.setOp o
    if o.kind = .hurdle then s.hurdleWait o else s

/-- An APPLIED answer reaches the home of an update (R244): with the last one the writer is acknowledged. -/
def appliedAt (s : State) (d addr stamper src : Nat) : State :=
  match (s.die d).homeUpd.findIdx? fun h => h.addr == addr && h.stamper == stamper && h.waiting.contains src with
  | none => s
  | some i =>
    match (s.die d).homeUpd[i]? with
    | none => s
    | some h =>
      let left := h.waiting.filter fun x => x != src
      if left ≠ [] then s.modDie d fun x => { x with homeUpd := x.homeUpd.set i { h with waiting := left } }
      else
        let s := s.modDie d fun x => { x with homeUpd := x.homeUpd.eraseIdx i }
        match h.op with
        | some id => s.opApplied id none
        | none => if stamper / 2 = s.domNo d / 2 then s
          else match h.old with
            | none => s.sendFrame d stamper 1 (msgHead addr (h.vc.getD stamper 0) 0 stamper (Config.msgType 1))
            | some v => s.sendFrame d stamper 1 (msgHead addr (h.vc.getD stamper 0) 0 stamper (Config.msgType 6) ++ toBytes v 8)

/-- A die applies an update of its list (R245) and answers APPLIED. -/
def applyAt (s : State) (d i : Nat) : State :=
  match (s.die d).upd[i]? with
  | none => s
  | some m =>
    let c := s.clockOf d m.ptn
    let w := m.stamper
    let v := m.vc.getD w 0
    let c := if w = s.domNo d then c.set 16 v else c.set w (if notAfter (c.getD w 0) v then v else c.getD w 0)
    let s := s.setClock d m.ptn c
    let s := s.modDie d fun x => { x with upd := x.upd.eraseIdx i }
    let s := if s.holds d (s.entryOf d m.ptn) m.addr ∧ homeDie m.addr = d then s.applyWords d m else s
    if m.home / 2 = s.domNo d / 2 then s.appliedAt (m.home % 2) m.addr m.stamper (s.domNo d)
    else s.sendFrame d m.home 1 (msgHead m.addr 0 m.ptn m.stamper (Config.msgType 2))

/-- An atomic on a replicated page at its home die: once its update may be applied there, and no other is ready, it takes effect
on what the replica holds, and its update goes to every sharer (R174, R242, R250). None: it has to wait. -/
def replRmw (s : State) (d pidx pa n : Nat) (new : Nat → Nat) (vc : List Nat) (stamper ptn : Nat) (op : Option Nat) (answer : Bool) :
    Option State :=
  let old := s.peek pa n
  let base := pa / 128 * 128
  let ws := (List.range (n / 4)).map fun i => ((pa - base) / 4 + i, (BitVec.ofNat 32 (field (new old) (32 * i) 32) : Word))
  let m : UpdateMsg := ⟨base, ws, vc, stamper, ptn, s.domNo d⟩
  if !s.canApply d m ∨ (s.firstReady d).isSome then none
  else
    let s := s.forwardUpdate d pidx m op (if answer then some old else none)
    some (match (s.die d).upd.findIdx? (· == m) with
      | some i => s.applyAt d i
      | none => s)

/-- An atomic of another package on a page homed here, as its message gives it (R174, R334; log 30). -/
def tryAtomic (s : State) (d : Nat) (b : List Byte) : Option State :=
  let f := fun o n => ofBytes ((b.drop o).take n)
  let h := f 0 16
  let n := if field h 36 8 = 8 then 8 else 4
  let ptn := field h 16 16
  let new := fun (x : Nat) =>
    if field h 32 4 = 15 then (hurdleWord x (f 48 8)).1
    else atomNew ((atomOf (field h 32 4)).getD .add) (8 * n) x (f 48 8) (f 56 8)
  s.replRmw d (s.entryOf d ptn) (field h 64 64) n new ((List.range 16).map fun i => f (16 + 2 * i) 2) (field h 12 4) ptn none true

/-- Atomics of other packages that wait at a die are performed as far as they may be, in their order of arrival. -/
def runAtomics (d : Nat) : Nat → State → State
  | 0, s => s
  | n + 1, s => match (s.die d).atomQ with
    | [] => s
    | b :: r => match s.tryAtomic d b with
      | some t => runAtomics d n (t.modDie d fun x => { x with atomQ := r })
      | none => s

/-- A die applies an update whose turn it is (R245); what waited for it at its home follows. -/
def applyUpdate (s : State) (d i : Nat) : State :=
  if s.firstReady d ≠ some i then s
  else let s := s.applyAt d i
    runAtomics d (s.die d).atomQ.length s

/-- The package's stamps of a partition, by die; and whether the updates that carry them have been applied (R246). -/
def stampsNow (s : State) (pidx : Nat) : List Nat :=
  [0, 1].map fun d => (s.clockOf d (s.ptnOf d pidx)).getD (s.domNo d) 0

def stampsApplied (s : State) (pidx : Nat) (l : List Nat) : Bool :=
  [0, 1].all fun d => notAfter (l.getD d 0) ((s.clockOf d (s.ptnOf d pidx)).getD 16 0)

end State

end Sys2Proof.Machine
end

