-- ==== Sys2Proof/Machine/Home.lean ====
section
/-! DEFINITION. Accesses performed at their home: fills of a system-cache slice, soft errors met there, loads, stores,
versions, atomics, hurdle arrivals and doorbells (R149, R174, R183, R184, R236, R237, R239, R258, R268, R330, R384, R389,
R406), and what an agent does with an answer (R236, R237, R241). -/
namespace Sys2Proof.Machine

open Bits

namespace State

-- performing (R236, R237)

/-- A load is served (R184, R236, R330): its value is fixed, and a lease granted where it asks for one. -/
def performLoad (s : State) (o : MemOp) : State :=
  let part := s.partOf o.unit
  let bad := match s.homeBad o.pa o.n with
    | some b => some b
    | none => if o.hy = 0 then none else (s.badIn .version 8 o.pa o.n).map fun g => (Cause.vsecc, 8 * g)
  match bad with
  | some (c, a) => s.parkLate o ((lanes o.lanes).map fun l => ⟨l, c, 0, BitVec.ofNat 64 a⟩)
  | none =>
    let s := s.touch o.pa part (reqClass o.unit o.path) o.ch
    if o.leased then
      let (w, r, s) := s.homeLease o.pa (s.ptsOf o) o.lease.toNat
      s.setOp { o with
        stage := .performed, wts := w, rts := r, val := s.peek o.pa o.n, data := s.peek (o.pa / 128 * 128) 128 }
    else
      let w := if onExpander o.pa then s.ptsOf o else notBehind (s.ptsOf o) (s.lineTs o.pa).wts
      s.setOp { o with stage := .performed, wts := w, val := ofBytes (s.seenBytes o.ctx o.hy o.pa o.n) }

/-- A stamped store to a replicated page goes to its home's replica unit as an update (R244). -/
def performRepl (s : State) (o : MemOp) (bs : List Byte) : State :=
  let d := homeDie o.pa
  let part := s.partOf o.unit
  let s := s.setOp { o with stage := .waitApplied }
  s.forwardUpdate d part ⟨o.pa / 128 * 128, s.wordsAt d o.pa bs, o.vc, s.domNo d, s.ptnOf d part, s.domNo d⟩ (some o.id) none

/-- A stamped atomic or hurdle arrival on a replicated page is performed at its home once its own update may be applied there
(R250): `new` gives the value it leaves, `val` what its lanes get. -/
def performRmw (s : State) (o : MemOp) (new : Nat → Nat) (val : Nat → Nat) : State :=
  let d := homeDie o.pa
  let part := s.partOf o.unit
  let t := s.setOp { o with stage := .waitApplied, val := val (s.peek o.pa o.n) }
  (t.replRmw d part o.pa o.n new o.vc (s.domNo d) (s.ptnOf d part) (some o.id) false).getD s

/-- Bytes that an access writes are performed at home under R237, or wait for package time under R239. -/
def performBytes (s : State) (o : MemOp) (bs : List Byte) (old : Nat) : State :=
  let w := s.storeWts o.pa (s.ptsOf o)
  if s.beyondPt o.pa w then s.setOp { o with stage := .waitPt, wts := w }
  else
    let s := s.storeHeal o.ctx o.unit o.slot o.pa o.n
    let s := s.touch o.pa (s.partOf o.unit) (reqClass o.unit o.path) o.ch
    let (w, s) := s.homeStore o.pa bs (s.ptsOf o)
    (s.setOp { o with stage := .performed, wts := w, val := old, data := ofBytes bs }).written o.pa o.n (some (o.unit, o.slot))

/-- A store is performed: as a version, to a replicated page, or to its line (R183, R237, R244, R384). -/
def performStore (s : State) (o : MemOp) : State :=
  let bs := toBytes o.data o.n
  if o.tag ≠ 0 then
    if s.verRoom o.ctx o.tag o.pa then
      let (part, s) := s.healGranules .version 8 o.pa o.n
      let s := part.foldl (fun s g => s.note o.ctx o.unit o.slot Cause.vsecc (BitVec.ofNat 64 (8 * g)) 0) s
      let s := (s.putVers o.ctx o.tag o.pa bs).syncVcnt o.ctx o.tag.toNat
      s.setOp { o with stage := .performed, wts := s.ptsOf o }
    else s.setOp { o with stage := .waitSpace, since := s.pace o.unit.die }
  else if o.repl then (if o.vc = [] then s else s.performRepl o bs)
  else s.performBytes o bs 0

/-- An atomic is performed at its home as one operation (R174, R175). -/
def performAtomic (s : State) (o : MemOp) : State :=
  match s.homeBad o.pa o.n with
  | some (c, a) => s.parkLate o ((lanes o.lanes).map fun l => ⟨l, c, 0, BitVec.ofNat 64 a⟩)
  | none =>
    let old := s.peek o.pa o.n
    let new := fun (x : Nat) => atomNew o.aop (8 * o.n) x o.data o.cmp
    if o.repl then (if o.vc = [] then s else s.performRmw o new id)
    else s.performBytes o (toBytes (new old) o.n) old

/-- An arrival at a hurdle word is performed (R149): PH goes to the arriving lanes, and a flip to every waiting warp. On a
replicated page it goes to the page's home as an atomic does (R244). -/
def performHurdle (s : State) (o : MemOp) : State :=
  match s.homeBad o.pa 8 with
  | some (c, a) => s.parkLate o ((lanes o.lanes).map fun l => ⟨l, c, 0, BitVec.ofNat 64 a⟩)
  | none =>
    let new := fun (x : Nat) => (hurdleWord x o.data).1
    if o.repl then (if o.vc = [] then s else s.performRmw o new fun x => field x 63 1)
    else
      let x := s.peek o.pa 8
      let s := s.performBytes o (toBytes (new x) 8) (field x 63 1)
      match s.getOp o.id with
      | some o' => if o'.stage = .performed then s.hurdleWait o' else s
      | none => s

/-- An access whose turn has come is performed at the place that orders it: its home slice, or an expander port. -/
def performOp (s : State) (o : MemOp) : State :=
  match o.kind with
  | .load => s.performLoad o
  | .store => s.performStore o
  | .atomic => s.performAtomic o
  | .hurdle => s.performHurdle o
  | _ => s

/-- An access may be performed: issued, in its warp's order, past its regulator, its home reachable. -/
def opReady (s : State) (o : MemOp) : Bool :=
  (o.stage == .issued) && s.ordReady o && !s.waitsReg o && !s.lostPa o.unit.die o.pa && o.owner.isNone

/-- No request that has come to the same slice or port is served before an access (R270), and none of its own unit's has been sent
there before it on the same class (R319). A request is taken to have come there in the tick after its issue (log 86). -/
def itsTurn (s : State) (place : Nat) (o : MemOp) : Bool :=
  s.ops.all fun e => !(e.id != o.id && servedAt e.pa == place && (!e.leased || e.sent) && s.opReady e &&
    ((decide (e.since < s.pace e.unit.die) && s.servedFirst place e o) ||
     (e.unit == o.unit && e.path == o.path && decide (e.id < o.id))))

/-- An access is served at its slice or port: it is performed, and its regulator was the last one served there (R270). -/
def serve (s : State) (o : MemOp) : State :=
  { s with served := s.served.set (servedAt o.pa) (s.regulatorOf o + 1) }.performOp o

-- answers (R236, R237, R241)

/-- A line's copy as a reply carries it; an agent that holds a later one keeps it (R241). -/
def keepReply (s : State) (agent line : Nat) (c : Copy) : State :=
  let a := s.agent agent
  let old := match a.copies.get line with | some x => precedes c.wts x.wts | none => false
  if old || !Config.keepCopy agent line then s
  else (s.modAgent agent fun a => { a with copies := a.copies.set line (some c) }).trimCache agent

/-- Replies and acks of one line are applied at an agent in wts order (R241). -/
def inTurn (s : State) (o : MemOp) : Bool :=
  s.ops.all fun e => !(e.unit == o.unit && e.pa / 128 == o.pa / 128 && e.stage == .performed && e.tag == 0 && o.tag == 0 &&
    (e.kind == .load) != (o.kind == .load) && precedes e.wts o.wts)

/-- The data reply of a load is taken (R236). -/
def takeReply (s : State) (o : MemOp) : State :=
  let n := unitNo o.unit
  let s := s.modAgent n fun a => { a with pts := later a.pts o.wts }
  let s := if o.leased then s.keepReply n (o.pa / 128) ⟨toBytes o.data 128, o.wts, o.rts⟩ else s
  s.endOp o (resultsOf o o.val)

/-- The ack of a store, an atomic or a hurdle arrival is taken (R175, R237). -/
def takeAck (s : State) (o : MemOp) : State :=
  let n := unitNo o.unit
  let line := o.pa / 128
  let merge := fun (c : Copy) =>
    ({ data := c.data.zipIdx.map (fun p => if o.pa % 128 ≤ p.2 ∧ p.2 < o.pa % 128 + o.n
        then BitVec.ofNat 8 (o.data / 256 ^ (p.2 - o.pa % 128)) else p.1), wts := o.wts, rts := o.wts } : Copy)
  let s := s.modAgent n fun a =>
    let a := { a with pts := later a.pts o.wts }
    if o.tag ≠ 0 then a
    else match o.kind, a.copies.get line with
      | .store, some c => if precedes o.wts c.wts then a else { a with copies := a.copies.set line (some (merge c)) }
      | .store, none => a
      | _, _ => { a with copies := a.copies.set line none }
  match o.kind with
  | .store => s.endOp o []
  | _ => s.endOp o (resultsOf o o.val)

end State

end Sys2Proof.Machine
end

