-- ==== Sys2Proof/Machine/Memory.lean ====
section
/-! DEFINITION. Meanings of the memory forms and of the memory hurdles, up to the point where their accesses enter flight
(R147, R149, R162 to R179, R391). -/
namespace Sys2Proof.Machine

open Bits

namespace State

/-- Destination registers of a v datum, as results still to be filled in (R165). -/
def vdst (s : State) (l : Nat) (d : VReg) (w : Wid) : List RegVal :=
  (List.range (Opd.regsOf w)).map fun i => s.vres l (d.toNat + i) 0

/-- The bytes of a store's datum, as a number (R165). -/
def vsrc (s : State) (l : Nat) (d : VReg) (w : Wid) : Nat :=
  pack ((List.range (Opd.regsOf w)).map fun i => (32, (s.rv l (d.toNat + i)).toNat)) % 2 ^ (8 * w.bytes)

def widSigned : Wid → Bool
  | .s8 | .s16 => true
  | _ => false

/-- Scratchpad accesses of lanes: those that reach their storage, and the others struck (R164, R391). -/
def scrs (s : State) (a : Space) (p : APath) (m : Lanes) (need : Need) (n : Nat) (ea : Nat → Nat) :
    List (Acc × UnitId × Nat) × State :=
  let rs := (lanes m).map fun l => s.scrOf a p need n n l (ea l)
  (oks rs, s.raise (countLanes (errs rs)))

/-- An operand of an atomic (R174). -/
def atomSrc (s : State) (l : Nat) (r : VReg) (w : Wid) : Nat :=
  if w = .b64 then (s.rv2 l r.toNat).toNat else (s.rv l r.toNat).toNat

def atomDst (s : State) (l : Nat) (d : VReg) (w : Wid) : List RegVal :=
  if w = .b64 then s.vres2 l d.toNat 0 else [s.vres l d.toNat 0]

/-- The compare operand, of CAS only (R174). -/
def atomCmp (s : State) (l : Nat) (c : VReg) (op : AtomOp) (w : Wid) : Nat := if op = .cas then s.atomSrc l c w else 0

/-- Atomics of lanes at home or at a scratchpad's port (R174, R175); `dst` gives a lane's result registers. -/
def atomics (s : State) (h : Head) (m : Lanes) (op : AtomOp) (r : MemRef) (w : Wid) (f : MemFlags) (b c : VReg)
    (dst : Nat → List RegVal) : State :=
  let fill := fun (l : Nat) (o : MemOp) =>
    { o with n := w.bytes, aop := op, data := s.atomSrc l b w, cmp := s.atomCmp l c op w, ord := f.ord, sc := f.sc, dst := dst l }
  match r.space with
  | .gl | .glk | .kc =>
    let (as, s1) := s.globals .lsu m .rw w.bytes (s.eaOf r w.bytes)
    (s1.issueOps h (accLanes as) (as.map fun a => fill a.lane (s1.newOp .atomic .lsu a))).advance
  | _ =>
    let (as, s1) := s.scrs r.space .lsu m .rw w.bytes (s.eaOf r w.bytes)
    (s1.issueOps h (accLanes (as.map (·.1))) (as.map fun a =>
      { fill a.1.lane (s1.newOp .scrAtomic .lsu a.1) with owner := some a.2.1, team := a.2.2 })).advance

/-- Accesses of lanes of the issuing warp that a fence still waits for (R176, R246): an acquire fence until every load and atomic
has answered, a release fence until every access is settled at its scope. -/
def fenceBusy (s : State) (m : Lanes) (acq rel : Bool) (sc : Scope) : Bool :=
  s.ops.any fun o =>
    o.unit == s.cur.unit && o.slot == s.cur.slot && o.path == .lsu && (o.lanes &&& m) != 0 &&
    (let reads := o.kind == .load || o.kind == .atomic || o.kind == .scrLoad || o.kind == .scrAtomic
     (acq && reads) || (rel && !settled o sc))

/-- The access class of an engine command (R177). -/
def cmdClass (c : Cmd) : Nat :=
  match c.instr with
  | .emm .. => 1
  | .evx .. | .ered .. => 2
  | .ecpy .. => 3
  | .coll .. => 5
  | _ => 7

/-- Producer accesses that an FXP still waits for (R177): lanes' own accesses by path, commands queued by the thread,
copies and LDMs, and sequencer work that the lanes started, on the cores whose sequencers it runs on. A load is waited for until
it has answered, every other access until it is settled at the scope (R246). -/
def fxpBusy (s : State) (m : Lanes) (prod : BitVec 7) (sc : Scope) : Bool :=
  let u := s.cur.unit
  let slot := s.cur.slot
  let pathNo := fun (p : APath) => match p with | .lsu => 0 | .mtx => 1 | .vec => 2 | .cpy => 3 | .trv => 4 | .net => 5 | _ => 7
  (s.ops.any fun o => o.unit == u && o.slot == slot && (o.lanes &&& m) != 0 && prod.getLsbD (pathNo o.path) &&
    (o.kind == .load || o.kind == .scrLoad || !settled o sc)) ||
  (s.allCmds.any fun c => c.unit == u && c.slot == slot && c.owner == s.curW.startSeq && prod.getLsbD (cmdClass c)) ||
  (prod.getLsbD 4 && s.cores.any fun c => c.2.gslots.any fun p => match p.2 with
    | some g => g.unit == u && g.warp == slot && m.getLsbD g.lane && g.st != .ended
    | none => false)

/-- The lines that PREF and CFLUSH act on, for a lane: their virtual addresses (R179). -/
def linesOf (s : State) (r : MemRef) (n : Wid) (l : Nat) : List Nat :=
  let base := s.eaOf r 128 l / 128 * 128
  (List.range (2 ^ n.code)).map fun i => (base + 128 * i) % 2 ^ 64

/-- Prefetch of one line (R179): into the agent's cache with a lease, or into its home slice only. -/
def prefetch (s : State) (va : Nat) (stream : Bool) : State :=
  let u := s.cur.unit
  match s.xlate u (s.cur.slot != trapSlot) .read va with
  | .error _ => s
  | .ok x =>
    if x.nocache ∨ onExpander x.pa ∨ s.lostPa u.die x.pa ∨ (s.homeBad x.pa 128).isSome then s
    else
      let line := x.pa / 128
      let n := unitNo u
      if stream then s.touch x.pa (s.partOf u) (reqClass u .lsu) true
      else if (s.hitCopy n line).isSome then s
      else
        let s := s.touch x.pa (s.partOf u) (reqClass u .lsu) false
        let (w, r, s) := s.homeLease x.pa (s.agent n).pts s.curW.lease.toNat
        let s := s.modAgent n fun a => { a with pts := later a.pts w }
        s.keepReply n line ⟨memBytes s.mem (line * 128) 128, w, r⟩

/-- A hurdle word's address, if every rule of it holds for a path (R149, R163); the strike otherwise. -/
def hurdleAcc (s : State) (a : KReg) (need : Need) : Except Strike Acc :=
  let ea := (s.rk a.toNat).toNat
  if ea % 8 ≠ 0 then .error ⟨0, Cause.rsvhurd, BitVec.ofNat 64 (field s.cur.word.toNat 56 8 * 2 ^ 56), 0⟩
  else s.accOf .lsu need 8 0 ea

def memScope : MemHurdleScope → Scope
  | .cluster => .cluster | .die => .die | .pkg => .pkg | .domain => .domain

/-- One cause for all lanes of an instruction that acts once for its path. -/
def raiseOnce (s : State) (m : Lanes) (x : Strike) : State := s.raise (countLanes ((lanes m).map fun l => { x with lane := l }))

/-- An arrival at a hurdle word enters flight, one operation for the path (R149): a release at its scope (R150). -/
def arriveMem (s : State) (h : Head) (m : Lanes) (a : Acc) (sc : MemHurdleScope) (dst : List RegVal) : State :=
  s.issueOps h m [{ s.newOp .hurdle .lsu a with
    lane := Warp.laneKey m, lanes := m, n := 8, data := count m, ord := .release, sc := memScope sc, dst := dst }]

end State

def execLd (h : Head) (d : VReg) (r : MemRef) (w : Wid) (f : MemFlags) (s : State) : Host.Outcome State Fault Refusal :=
  let (m, s) := s.gate h
  let (as, s1) := s.globals .lsu m .read w.bytes (s.eaOf r w.bytes)
  .next (s1.issueOps h (State.accLanes as) (as.map fun a =>
    let hy := s1.curW.hyOf a.lane
    { s1.newOp .load .lsu a with
      n := w.bytes, ord := f.ord, sc := f.sc, hy := hy, ch := f.ch, signed := State.widSigned w, dst := s1.vdst a.lane d w
      leased := hy == 0 && !f.lh && !a.nocache && !State.onExpander a.pa })).advance

def execSt (h : Head) (d : VReg) (r : MemRef) (w : Wid) (f : MemFlags) (s : State) : Host.Outcome State Fault Refusal :=
  let (m, s) := s.gate h
  let (as, s1) := s.globals .lsu m .write w.bytes (s.eaOf r w.bytes)
  .next (s1.issueOps h (State.accLanes as) (as.map fun a =>
    { s1.newOp .store .lsu a with
      n := w.bytes, ord := f.ord, sc := f.sc, ch := f.ch, data := s1.vsrc a.lane d w
      tag := if f.ht then s1.curW.hyOf a.lane else 0 })).advance

def execLds (h : Head) (d : VReg) (r : MemRef) (w : Wid) (f : MemFlags) (s : State) : Host.Outcome State Fault Refusal :=
  let (m, s) := s.gate h
  let (as, s1) := s.scrs r.space .lsu m .read w.bytes (s.eaOf r w.bytes)
  .next (s1.issueOps h (State.accLanes (as.map (·.1))) (as.map fun a =>
    { s1.newOp .scrLoad .lsu a.1 with
      n := w.bytes, ord := f.ord, sc := f.sc, signed := State.widSigned w, dst := s1.vdst a.1.lane d w
      owner := some a.2.1, team := a.2.2 })).advance

def execSts (h : Head) (d : VReg) (r : MemRef) (w : Wid) (f : MemFlags) (s : State) : Host.Outcome State Fault Refusal :=
  let (m, s) := s.gate h
  let (as, s1) := s.scrs r.space .lsu m .write w.bytes (s.eaOf r w.bytes)
  .next (s1.issueOps h (State.accLanes (as.map (·.1))) (as.map fun a =>
    { s1.newOp .scrStore .lsu a.1 with
      n := w.bytes, ord := f.ord, sc := f.sc, data := s1.vsrc a.1.lane d w, owner := some a.2.1, team := a.2.2 })).advance

def execLdk (h : Head) (d : KReg) (r : MemRef) (w : Wid) (f : MemFlags) (s : State) : Host.Outcome State Fault Refusal :=
  let (m, s) := s.gate h
  .next (match lowest m with
    | none => s.advance
    | some l => match s.accOf .lsu .read w.bytes l (s.eaOf r w.bytes l) with
      | .error x => (s.raiseOnce m x).advance
      | .ok a => (s.issueOps h m [{ s.newOp .load .lsu a with
          lanes := m, n := w.bytes, ch := f.ch, signed := State.widSigned w
          dst := (if w = .b128 then [State.kres d.toNat 0, State.kres (d.toNat + 1) 0] else [State.kres d.toNat 0])
          leased := !f.lh && !a.nocache && !State.onExpander a.pa }]).advance)

def execLdm (h : Head) (d : KReg) (r : MemRef) (_w : Wid) (_f : MemFlags) (s : State) : Host.Outcome State Fault Refusal :=
  let (m, s) := s.gate h
  let k := (s.rk d.toNat).toNat
  let dst := field k 0 32
  let n := field k 32 16
  let u := s.cur.unit
  .next (match lowest m with
    | none => s.advance
    | some l =>
      let ea := s.eaOf r 1 l
      let range : State.Strike := ⟨l, tCause .cpy ⟨5, 0, 7⟩, tInfo ⟨5, 0, 7⟩ .read 0, BitVec.ofNat 64 ea⟩
      if field k 48 16 ≠ 0 ∨ n = 0 ∨ 512 < n ∨ dst % 128 ≠ 0 then
        (s.raiseAll m Cause.rsvdesc (BitVec.ofNat 64 (0x75 * 2 ^ 56))).advance
      else match s.xlate u (s.cur.slot != trapSlot) .read ea, s.scrTarget .sp with
        | .error e, _ => (s.raiseOnce m ⟨l, tCause .cpy e, tInfo e .read 0, BitVec.ofNat 64 ea⟩).advance
        | .ok _, none => (s.raiseOnce m range).advance
        | .ok x, some (v, t) =>
          if ea % 128 ≠ 0 ∨ ea / 2 ^ x.bits ≠ (ea + 128 * n - 1) / 2 ^ x.bits ∨ State.scrSize t < dst + 128 * n then
            (s.raiseOnce m range).advance
          else if s.lostPa u.die x.pa then (s.raiseOnce m ⟨l, Cause.dielost, 0, BitVec.ofNat 64 ea⟩).advance
          else (s.issueOps h m [{ s.newOp .ldm .cpy ⟨l, ea, x.pa, x.nocache, x.repl⟩ with
            lanes := m, n := 128 * n, data := dst, owner := some v, team := (t.map (·.uid)).getD 0, line := 2 * n }]).advance)

def execAtom (h : Head) (d b c : VReg) (op : AtomOp) (r : MemRef) (w : Wid) (f : MemFlags) (s : State) :
    Host.Outcome State Fault Refusal :=
  let (m, s) := s.gate h
  .next (s.atomics h m op r w f b c fun l => s.atomDst l d w)

def execAtoms (h : Head) (d b c : VReg) (op : AtomOp) (r : MemRef) (w : Wid) (f : MemFlags) (s : State) :
    Host.Outcome State Fault Refusal :=
  let (m, s) := s.gate h
  .next (s.atomics h m op r w f b c fun l => s.atomDst l d w)

def execRed (h : Head) (b : VReg) (op : AtomOp) (r : MemRef) (w : Wid) (f : MemFlags) (s : State) :
    Host.Outcome State Fault Refusal :=
  let (m, s) := s.gate h
  .next (s.atomics h m op r w f b b fun _ => [])

def execFence (h : Head) (ord : MemOrd) (sc : Scope) (s : State) : Host.Outcome State Fault Refusal :=
  let (m, s) := s.gate h
  .next (if s.fenceBusy m (acquires ord) (releases ord) sc then s.blocked else s.advance)

def execFxp (h : Head) (_x : Bool) (prod _cons : BitVec 7) (sc : Scope) (s : State) : Host.Outcome State Fault Refusal :=
  let (m, s) := s.gate h
  .next (if m ≠ 0 ∧ s.fxpBusy m prod sc then s.blocked else s.advance)

def execPref (h : Head) (r : MemRef) (n : Wid) (f : MemFlags) (s : State) : Host.Outcome State Fault Refusal :=
  let (m, s) := s.gate h
  .next (((lanes m).flatMap (s.linesOf r n)).foldl (fun s va => s.prefetch va f.ch) s).advance

def execLease (h : Head) (_x : Bool) (src : LeaseSrc) (s : State) : Host.Outcome State Fault Refusal :=
  let (m, s) := s.gate h
  let n : BitVec 12 := match src with
    | .imm n => n
    | .k r => let x := (s.rk r.toNat).setWidth 12; if x = 0 then 1 else x
  .next (if m = 0 then s.advance else (s.modCur fun w => { w with lease := n }).advance)

def execCflush (h : Head) (r : MemRef) (n : Wid) (_f : MemFlags) (s : State) : Host.Outcome State Fault Refusal :=
  let (m, s) := s.gate h
  let a := unitNo s.cur.unit
  .next (((lanes m).flatMap (s.linesOf r n)).foldl (fun s va =>
    match s.xlate s.cur.unit (s.cur.slot != trapSlot) .read va with
    | .ok x => s.modAgent a fun g => { g with copies := g.copies.set (x.pa / 128) none }
    | .error _ => s) s).advance

-- memory hurdles (R149)

def execHarrMem (h : Head) (_x : Bool) (sc : MemHurdleScope) (d : PReg) (a : KReg) (s : State) :
    Host.Outcome State Fault Refusal :=
  let m := s.execLanes h
  .next (if m = 0 then s.advance
    else match s.hurdleAcc a .rw with
    | .error x => (s.raiseOnce m x).advance
    | .ok acc => (s.arriveMem h m acc sc ((lanes m).map fun l => State.pres l d.toNat false)).advance)

def execHurdMem (h : Head) (_x : Bool) (sc : MemHurdleScope) (a : KReg) (s : State) : Host.Outcome State Fault Refusal :=
  let m := s.execLanes h
  .next (if m = 0 then s.advance
    else match s.hurdleAcc a .rw with
    | .error x => (s.raiseOnce m x).advance
    | .ok acc =>
      let id := s.nextId + 1
      (s.arriveMem h m acc sc []).waitFor (.memArrival id))

def execHwtMem (h : Head) (_x : Bool) (_sc : MemHurdleScope) (d : PReg) (a : KReg) (s : State) :
    Host.Outcome State Fault Refusal :=
  let m := s.execLanes h
  .next (if m = 0 then s.advance
    else match s.hurdleAcc a .read with
    | .error x => (s.raiseOnce m x).advance
    | .ok acc =>
      let phs := laneSet ((lanes m).filter fun l => s.rp l d.toNat)
      let ph := bit (s.peek acc.pa 8) 63
      let stay := m &&& (if ph then phs else ~~~ phs)
      let s := s.modAgent (unitNo s.cur.unit) fun g => { g with pts := later g.pts (s.lineTs acc.pa).wts }
      if stay = 0 ∧ !(s.held s.cur.unit s.cur.slot) then (s.modCur fun w => { w with wdcnt := 0 }).advance
      else s.waitFor (.memHurdle (BitVec.ofNat 64 acc.ea) acc.pa stay phs))

end Sys2Proof.Machine
end

