-- ==== Sys2Proof/Machine/Engine.lean ====
section
/-! DEFINITION. Meanings of the engine forms up to the point where they hold their queue entries: STREC, EMM, EVX, ERED,
ECPY, COLL, EMODE, ENOTE, EWAIT, ESAVE, ERES and the channel forms (R200 to R227, R393 to R398). -/
namespace Sys2Proof.Machine

open Bits

namespace State

/-- Entries of a queue (R205). -/
def queueCap : Nat := 32

/-- A dword of a stream-record slot; where a STREC of it is on its way, the old value or the new (R57, R59). -/
def sqRead (s : State) (u : UnitId) (reg : Nat) : Dword :=
  let c := s.core u
  match c.warps.findSome? fun p => p.2.bind fun w => w.pend.findSome? fun q => q.res.find? fun r => r.file == .sq && r.reg == reg with
  | some r => if Config.freeSide s.free (8192 * (reg + 1) + 4) then r.val else c.sq.get reg
  | none => c.sq.get reg

def sqRec (s : State) (u : UnitId) (n : Nat) : List Dword := (List.range 8).map fun i => s.sqRead u (8 * n + i)

/-- The bytes of the granules of a slot, as ranges of the core's own storage. -/
def sqBad (s : State) (u : UnitId) (slot : Nat) : Option Nat :=
  (s.badIn (.sram u) 4 (4 * sqGranule (8 * slot)) 64).map fun g => 4 * (g - 2 ^ 20)

/-- The command of the issuing path. -/
def newCmd (s : State) (i : Instr) (m : Lanes) : Cmd :=
  let w := s.curW
  { (default : Cmd) with
    instr := i, word := s.cur.word, unit := s.cur.unit, slot := s.cur.slot, owner := w.startSeq, lanes := m, ctx := w.ctx
    team := w.team, handle := if s.cur.unit.kind = .tt then w.handle else 0, hy := w.hyOf (Warp.laneKey m), mode := .rne, lfsr := 1 }

/-- The queue of an engine of the issuing unit has room (R205). -/
def hasQueueRoom (s : State) (q : Nat) : Bool := decide ((s.engQueue s.cur.unit q).length < queueCap)

/-- A command takes its queue entry. -/
def enqueue (s : State) (q : Nat) (c : Cmd) : State :=
  let (id, s) := s.fresh
  let s := s.setQueue s.cur.unit q (s.engQueue s.cur.unit q ++ [{ c with id := id }])
  if q = 3 then s.markDce s.cur.unit.die (dceOf s.cur.unit) else s

/-- An issued form whose token clears by itself; nothing is to be written. -/
def tokenOnly (s : State) (h : Head) (m : Lanes) : State := s.inFlight h m false 0 []

/-- A command with its operands read, the causes that strike its issuer, and where a structure cannot be read the cause
with its INFO and address. -/
def readCmd (s : State) (i : Instr) (m : Lanes) (e : EFields) (rb : Bool) : Cmd × List Nat × Option (Nat × Dword × Dword) :=
  let u := s.cur.unit
  let c := s.newCmd i m
  let k := fun (r : KReg) => s.rk r.toNat
  let fb := if e.fb = 0 then .ok [] else s.formatBlock u (s.cur.slot != trapSlot) 1 (k e.fb).toNat
  let c := { c with
    ra := s.sqRec u e.sa.toNat, rb := if rb then s.sqRec u e.sb.toNat else [], rd := s.sqRec u e.sd.toNat
    fb := match fb with | .ok d => d.map (BitVec.ofNat 64) | .error _ => []
    timed := e.ti != 0, time := if e.ti = 0 then 0 else (k e.ti).toNat }
  let c := match i with
    | .emm _ _ _ true | .evx _ _ _ true => { c with kv := k e.d }
    | .ecpy .. | .coll .. => { c with kv := k e.d, kv1 := s.rk (e.d.toNat + 1) }
    | _ => c
  let (cs, x) := s.cmdCauses c
  let slots := [e.sa.toNat, e.sd.toNat] ++ (if rb then [e.sb.toNat] else [])
  let ecc := (slots.findSome? (s.sqBad u)).map fun a => (Cause.sramecc, (0 : Dword), (BitVec.ofNat 64 a : Dword))
  let x := match fb, x with
    | .error y, _ => some y
    | .ok _, some y => some y
    | .ok _, none => ecc
  (c, cs, x)

/-- A command of the executing lanes: struck for the cause that ranks first, blocked where its queue is full, or queued
(R131, R201, R205, R363). `f` completes the queued one. RSVCOMBO, which ranks with the word, strikes the path's every lane. -/
def engForm (s : State) (h : Head) (i : Instr) (e : EFields) (q : Nat) (rb : Bool) (f : State → Lanes → Cmd → State) : State :=
  let m := s.execLanes h
  if m = 0 then s.advance
  else
    let (c, cs, x) := s.readCmd i m e rb
    let xs := cs.map (fun n => (⟨Warp.laneKey m, n, 0, 0⟩ : Strike)) ++ (x.map fun y => (⟨Warp.laneKey m, y.1, y.2.1, y.2.2⟩ : Strike)).toList
    match rankStrikes xs with
    | y :: _ =>
      (s.raiseOnce (if y.cause = Cause.rsvcombo then s.curP.mask else m) y).advance
    | [] => if s.hasQueueRoom q then (f s m c).advance else s.blocked

/-- A command whose token clears once it holds its entry (R201). -/
def plainQueue (q : Nat) (h : Head) (s : State) (m : Lanes) (c : Cmd) : State := (s.enqueue q c).tokenOnly h m

-- the notify combiner (R213, R214)

def tagCnt (s : State) (u : UnitId) (owner tag : Nat) : TagCnt :=
  (((s.core u).eng.counts.find? fun t => t.owner == owner && t.tag == tag)).getD ⟨owner, tag, 0, 0⟩

def setCnt (s : State) (u : UnitId) (t : TagCnt) : State :=
  s.modEng u fun e => { e with counts := t :: e.counts.filter fun x => !(x.owner == t.owner && x.tag == t.tag) }

/-- The blocking forms at which a path of a warp stands: instructions of its lanes there that still wait. -/
def blockedPends (w : Warp) (p : Path) : List Nat :=
  (w.pend.filter fun (q : Pend) => q.pc == p.pc && (q.lanes &&& p.mask) != 0 && decide (0 < q.hold) && !q.mem).map (·.id)

/-- Paths of a thread whose EWAIT is over go on, and its token may clear; their return is an acquire (R201, R214). -/
def releaseWaits (s : State) (u : UnitId) (slot owner tag : Nat) : State :=
  match s.warp u slot with
  | none => s
  | some w =>
    if w.startSeq ≠ owner then s
    else
      let n := (s.tagCnt u owner tag).raised
      (w.paths.filter fun p => match p.wait with | .ewait t k => t == tag && decide (k ≤ n) | _ => false).foldl
        (fun s p => (blockedPends w p).foldl (fun s id => s.pendDone u slot id []) ((s.acquireAll u).pathOn u slot p)) s

/-- ENOTEs all of whose entries have been reached are raised, in the order of those with their tag (R213). -/
def raiseNotes : Nat → State → UnitId → State
  | 0, s, _ => s
  | n + 1, s, u =>
    let ns := (s.core u).eng.notes
    match ns.zipIdx.find? fun p => p.1.left == [] && !((ns.take p.2).any fun x => x.owner == p.1.owner && x.tag == p.1.tag) with
    | none => s
    | some (x, _) =>
      let s := s.modEng u fun e => { e with notes := e.notes.filter fun y => y.id != x.id }
      let t := s.tagCnt u x.owner x.tag
      let s := (s.setCnt u { t with raised := (t.raised + 1) % 2 ^ 32 }).releaseWaits u x.slot x.owner x.tag
      let ctx := ((s.unitSlice u).ctx.map (·.ctxid)).getD 0
      raiseNotes n (s.threadDone u ctx x.handle) u

/-- The entries of a queue that have been reached: no earlier command of their thread is left there (R213). -/
def reachNotes (s : State) (u : UnitId) (q : Nat) : State :=
  let reached := fun (x : Note) (e : Nat × Nat) =>
    e.1 == q && (s.cmdsIn u q x.owner).all fun c => c.isNote || decide (e.2 < c.id)
  let s' := s.modEng u fun e => { e with notes := e.notes.map fun x => { x with left := x.left.filter fun y => !reached x y } }
  raiseNotes ((s.core u).eng.notes.length) s' u

-- images in memory (R216, R217)

/-- Pages that n bytes at an address touch. -/
def pagesOf (a n : Nat) : List Nat := a :: ((List.range (cdiv n 4096)).map fun i => (a / 4096 + 1 + i) * 4096).filter fun b => decide (b < a + n)

/-- The path of a queue's engine. -/
def queuePath (q : Nat) : APath := match q with | 0 => .mtx | 1 => .vec | _ => .cpy

/-- What refuses an access to an image. -/
def imageBad (s : State) (a : Nat) (need : Need) (q : Nat) : Option (Nat × Dword × Dword) :=
  let p := queuePath q
  if a % 64 ≠ 0 then some (tCause p ⟨5, 0, 7⟩, tInfo ⟨5, 0, 7⟩ need 1, BitVec.ofNat 64 a)
  else (pagesOf a 320).findSome? fun b => match s.xlate s.cur.unit (s.cur.slot != trapSlot) need b with
    | .error e => some (tCause p e, tInfo e need 1, BitVec.ofNat 64 b)
    | .ok x => if s.lostPa s.cur.unit.die x.pa then some (Cause.dielost, 0, BitVec.ofNat 64 b) else none

/-- Dwords stored at consecutive addresses by a unit: each performed at home. -/
def storeDwords (s : State) (u : UnitId) : Nat → List Nat → State
  | _, [] => s
  | a, d :: r =>
    let s' := match s.xlate u true .write a with
      | .ok x =>
        let (w, t) := s.homeStore x.pa (toBytes d 8) (s.agent (unitNo u)).pts
        t.modAgent (unitNo u) fun g => { g with pts := later g.pts w }
      | .error _ => s
    storeDwords s' u (a + 8) r

/-- A thread's mode and LFSR state for a queue (R212). -/
def modeOf (s : State) (u : UnitId) (owner q : Nat) : ModeEnt :=
  ((s.core u).eng.modes.find? fun x => x.owner == owner && x.q == q).getD ⟨owner, q, .rne, 1⟩

def setMode (s : State) (u : UnitId) (x : ModeEnt) : State :=
  s.modEng u fun e => { e with modes := x :: e.modes.filter fun y => !(y.owner == x.owner && y.q == x.q) }

/-- A command as it is saved: one that has not begun takes its thread's mode (R212, R216). -/
def asSaved (s : State) (u : UnitId) (q : Nat) (c : Cmd) : Cmd :=
  if c.begun then c else let x := s.modeOf u c.owner q; { c with mode := x.mode, lfsr := x.lfsr }

/-- A tile's copy engine stands at a chunk boundary: no flit of the copy being sent is on its way, and no chunk is loaded
in part (R215). -/
def atChunk (s : State) (c : Cmd) : Bool := c.runs == [] && !s.flits.any fun f => f.cmd == c.id

/-- The copy that is sent first of those buffered: the earliest, and of equal times the one that entered first (R219). -/
def firstCopy (cs : List Cmd) : Option Cmd :=
  match cs with
  | [] => none
  | c :: r => some (r.foldl (fun a b => if b.time < a.time then b else a) c)

/-- The copy at the head of a tile's buffer, and no other, stands at its head from now on (R219). -/
def markHead (s : State) (u : UnitId) : State :=
  s.modEng u fun e =>
    let k := (firstCopy e.tbuf).map (·.id)
    { e with tbuf := e.tbuf.map fun (c : Cmd) =>
        if k = some c.id then { c with headAt := some (c.headAt.getD (s.pace u.die)) } else { c with headAt := none } }

/-- The command that ESAVE takes from a queue, and the state without it (R217). -/
def takeSaved (s : State) (u : UnitId) (q : Nat) : Option Cmd × State :=
  match (s.core u).eng.running.get q with
  | some c => (some c, s.setRunning u q none)
  | none =>
    match if q = 2 then firstCopy (s.core u).eng.tbuf else none with
    | some c => (some c, (s.modEng u fun e => { e with tbuf := e.tbuf.filter fun x => x.id != c.id }).markHead u)
    | none =>
      match (s.engQueue u q).find? fun c => !c.isNote with
      | some c =>
        let s := s.setQueue u q ((s.engQueue u q).filter fun x => x.id != c.id)
        (some c, if c.isColl then s.modEng u fun e => { e with colls := e.colls.filter fun p => p.cmd != c.id } else s)
      | none => (none, s)

/-- The command has left and its image is written; a copy's record says that it ended, in the image it was resumed from or in
its issuer's registers (R216, R217). Where both are one image, the new image stands (log 81). -/
def saveImage (s : State) (r : SaveReq) : State :=
  let (c, s) := s.takeSaved r.unit r.q
  let ds := match c with
    | some c => imageOf (s.asSaved r.unit r.q c)
    | none => List.replicate 40 0
  let s := match c with
    | some c => s.finishCmd c (Cause.engine 2 3)
    | none => s
  (s.storeDwords r.unit r.addr.toNat ds).pendDone r.unit r.slot r.pend []

/-- Saves that wait for a tile's copy engine to reach its boundary (R215). -/
def settleSaves (s : State) (u : UnitId) : State :=
  match (s.core u).eng.saves with
  | [] => s
  | r :: _ =>
    if match (s.core u).eng.running.get 2 with | some c => s.atChunk c | none => true then
      (s.modEng u fun e => { e with saves := e.saves.drop 1 }).saveImage r
    else s

-- channels (R221)

/-- The team whose channels a warp of a shader core arms; a tile's belong to none. -/
def chanTeam (s : State) : Option Nat := if s.cur.unit.kind = .sc then s.curTeam.map (·.uid) else some 0

/-- Bytes of the scratchpad that a channel may guard. -/
def chanSize (s : State) : Nat :=
  match s.cur.unit.kind with
  | .tt => 4194304
  | _ => match s.curTeam with | some t => scrSize (some t) | none => 0

/-- Another team holds a channel. -/
def chanTaken (s : State) (ch : Nat) : Bool :=
  let c := (s.core s.cur.unit).chans.get ch
  s.cur.unit.kind == .sc && c.st != .idle && s.chanTeam != some c.team

/-- A form of the executing lanes that acts once for its path, with a cause that may strike it. -/
def onceForm (s : State) (h : Head) (bad : Lanes → Option (Nat × Dword × Dword)) (f : State → Lanes → State) : State :=
  let m := s.execLanes h
  if m = 0 then s.advance
  else match bad m with
    | some (c, i, a) => (s.raiseOnce m ⟨0, c, i, a⟩).advance
    | none => f s m

end State

def execStrec (h : Head) (e : EFields) (s : State) : Host.Outcome State Fault Refusal :=
  let m := s.execLanes h
  .next (if m = 0 then s.advance
    else match s.accOf .lsu .read 64 (Warp.laneKey m) (s.rk e.d.toNat).toNat with
    | .error x => (s.raiseOnce m x).advance
    | .ok a => (s.issueOps h m [{ s.newOp .load .lsu a with
        lanes := m, n := 64, dst := (List.range 8).map fun i => ⟨.sq, 8 * e.sd.toNat + i, 0, 0⟩
        leased := !a.nocache && !State.onExpander a.pa }]).advance)

def execEmm (h : Head) (e : EFields) (acc sparse : Bool) (s : State) : Host.Outcome State Fault Refusal :=
  .next (s.engForm h (.emm h e acc sparse) e 0 true (State.plainQueue 0 h))

def execEvx (h : Head) (e : EFields) (op : EvxOp) (bs : Bool) (s : State) : Host.Outcome State Fault Refusal :=
  .next (s.engForm h (.evx h e op bs) e 1 (!bs && !op.unary) (State.plainQueue 1 h))

def execEred (h : Head) (e : EFields) (op : EredOp) (s : State) : Host.Outcome State Fault Refusal :=
  .next (s.engForm h (.ered h e op) e 1 false (State.plainQueue 1 h))

def execEcpy (h : Head) (e : EFields) (ch : BitVec 4) (mc : Bool) (s : State) : Host.Outcome State Fault Refusal :=
  let q := e.q.toNat
  .next (s.engForm h (.ecpy h e ch mc) e q false fun s m c =>
    let id := s.nextId
    (s.addPend h m false 1 []).enqueue q { c with pend := some id })

def execColl (h : Head) (e : EFields) (op : CollOp) (red : CollRed) (s : State) : Host.Outcome State Fault Refusal :=
  .next (s.engForm h (.coll h e op red) e 2 false (State.plainQueue 2 h))

def execEmode (h : Head) (e : EFields) (rm : Round) (s : State) : Host.Outcome State Fault Refusal :=
  let m := s.execLanes h
  let q := e.q.toNat
  .next (if m = 0 then s.advance
    else if !s.hasQueueRoom q then s.blocked
    else (((s.enqueue q { s.newCmd (.emode h e rm) m with kv := if rm = .sto then s.rk e.d.toNat else 0 })).tokenOnly h m).advance)

def execEnote (h : Head) (e : EFields) (tag : BitVec 5) (s : State) : Host.Outcome State Fault Refusal :=
  let m := s.execLanes h
  let u := s.cur.unit
  let qs := (List.range 4).filter fun q => e.sa.getLsbD q
  .next (if m = 0 then s.advance
    else if !qs.all s.hasQueueRoom then s.blocked
    else
      let (id, s) := s.fresh
      let c := { s.newCmd (.enote h e tag) m with note := id }
      let r := qs.foldl (fun (a : State × List (Nat × Nat)) q => (a.1.enqueue q c, a.2 ++ [(q, a.1.nextId)])) (s, [])
      let s := r.1.modEng u fun x => { x with notes := x.notes ++ [⟨id, c.owner, c.slot, tag.toNat, c.handle, r.2⟩] }
      let t := s.tagCnt u c.owner tag.toNat
      ((s.setCnt u { t with issued := (t.issued + 1) % 2 ^ 32 }).tokenOnly h m).advance)

def execEwait (h : Head) (_e : EFields) (tag : BitVec 5) (s : State) : Host.Outcome State Fault Refusal :=
  let m := s.execLanes h
  let t := s.tagCnt s.cur.unit s.curW.startSeq tag.toNat
  .next (if m = 0 then s.advance
    else if t.issued ≤ t.raised then ((s.acquireAll s.cur.unit).tokenOnly h m).advance
    else (s.addPend h m false 1 []).waitFor (.ewait tag.toNat t.issued))

def execEsave (h : Head) (e : EFields) (s : State) : Host.Outcome State Fault Refusal :=
  let a := s.rk e.d.toNat
  let q := e.q.toNat
  let u := s.cur.unit
  .next (s.onceForm h (fun _ => s.imageBad a.toNat .write q) fun s m =>
    let r : SaveReq := ⟨q, u, s.cur.slot, s.nextId, a⟩
    let s := (s.addPend h m false 1 []).advance
    if q = 2 then (s.modEng u fun x => { x with saves := x.saves ++ [r] }).settleSaves u else s.saveImage r)

def execEres (h : Head) (e : EFields) (s : State) : Host.Outcome State Fault Refusal :=
  let a := s.rk e.d.toNat
  let q := e.q.toNat
  let u := s.cur.unit
  .next (s.onceForm h (fun _ => s.imageBad a.toNat .read q) fun s m =>
    let ds := (List.range 40).map fun i => match s.xlate u (s.cur.slot != trapSlot) .read (a.toNat + 8 * i) with
      | .ok x => s.peek x.pa 8
      | .error _ => 0
    let bad := (s.raiseAll m (Cause.engine q 1)).advance
    if ds.getD 0 0 = 0 then (s.tokenOnly h m).advance
    else match ofImage ds q (s.newCmd default m) with
      | none => bad
      | some c =>
        if (s.cmdCauses c).1 ≠ [] ∨ (s.cmdCauses c).2.isSome then bad
        else
          let c := { c with image := if c.isCopy then some a else none }
          if s.engFrozen u q then
            let (id, s) := s.fresh
            (((s.setQueue u q ({ c with id := id } :: s.engQueue u q)).engThaw u q).tokenOnly h m).advance
          else if s.hasQueueRoom q then ((s.enqueue q c).tokenOnly h m).advance
          else s.blocked)

def execWmrd (h : Head) (e : EFields) (ch : BitVec 4) (s : State) : Host.Outcome State Fault Refusal :=
  let c := (s.core s.cur.unit).chans.get ch.toNat
  let st := match c.st with | .idle => 0 | .armed => 1 | .filling => 2 | .done => 3
  .next (s.onceForm h (fun _ => none) fun s m =>
    (s.inFlight h m false 0 [State.kres e.d.toNat (BitVec.ofNat 64 (pack [(32, c.wm), (2, st)]))]).advance)

def execWmset (h : Head) (e : EFields) (ch : BitVec 4) (s : State) : Host.Outcome State Fault Refusal :=
  let k := (s.rk e.d.toNat).toNat
  let lo := field k 0 32
  let hi := field k 32 32
  let ok := lo % 128 = 0 ∧ hi % 128 = 0 ∧ lo < hi ∧ hi ≤ s.chanSize
  .next (s.onceForm h (fun _ => if ok ∧ !s.chanTaken ch.toNat then none else some (Cause.rsvwm, 0, 0)) fun s m =>
    ((s.modCore s.cur.unit fun c => { c with chans := c.chans.modify ch.toNat fun x =>
      { lo := lo, hi := hi, wm := lo, st := .armed, team := s.chanTeam.getD 0, gen := x.gen + 1, written := [] } }).tokenOnly h m).advance)

def execWmsetOff (h : Head) (_e : EFields) (ch : BitVec 4) (s : State) : Host.Outcome State Fault Refusal :=
  .next (s.onceForm h (fun _ => if s.chanTaken ch.toNat then some (Cause.rsvwm, 0, 0) else none) fun s m =>
    ((s.modCore s.cur.unit fun c => { c with chans := c.chans.modify ch.toNat fun x => { x with st := .idle } }).tokenOnly h m).advance)

end Sys2Proof.Machine
end

