-- ==== Sys2Proof/Machine/EngStep.lean ====
section
/-! DEFINITION. The matrix and vector engines: how their commands start, and their steps (R205 to R215, R393, R395). -/
namespace Sys2Proof.Machine

open Bits

namespace State

/-- The unit runs the context of a command. -/
def engLive (s : State) (u : UnitId) (ctx : Nat) : Bool :=
  let sl := s.unitSlice u
  sl.st == .running && sl.ctx.map (·.ctxid) == some ctx

/-- A command is stopped before a step: its queue freezes and its issuer is struck with STOPPED or ECC (R393, R395). -/
def engStop (s : State) (c : Cmd) (e kind cause : Nat) (addr : Dword) : State :=
  let k := Cause.engine e kind
  (s.engFreeze c.unit e (BitVec.ofNat 8 k)).strikeIssuer c k (BitVec.ofNat 64 (cause + (if kind = 0 then 2 ^ 8 * engCode e else 0))) addr

/-- The lines of global memory that accesses of a command touch, by physical address. -/
def globalLines (s : State) (c : Cmd) (as : List EAcc) : List Nat :=
  ((as.filter fun a => a.space == 0).flatMap fun a =>
    let x := a.addr.toNat
    (List.range ((x + a.n - 1) / 128 - x / 128 + 1)).filterMap fun i =>
      match s.xlate c.unit true .read (128 * (x / 128 + i)) with
      | .ok y => some (128 * (y.pa / 128))
      | .error _ => none).eraseDups

/-- Accesses of a command pass its regulator and come into their slices (R267 to R269); none: they wait. -/
def engMeter (s : State) (c : Cmd) (p : APath) (as : List EAcc) : Option State :=
  match s.globalLines c as with
  | [] => some s
  | ls => (s.meterFor c.unit p (128 * ls.length)).map fun s => s.touchLines (s.partOf c.unit) (reqClass c.unit p) ls

/-- A step of a command, once its accesses go through and its regulator lets them (R267, R393). -/
def engAct (s : State) (c : Cmd) (e : Nat) (p : APath) (as : List EAcc) (f : State → State) : State :=
  match s.fates c p as with
  | .ok => ((s.engMeter c p as).map f).getD s
  | .stop cause a => s.engStop c e 0 cause a
  | .ecc cause a => s.engStop c e 2 cause a
  | .waits => s

/-- A matrix or vector engine that may take the head of its queue (R205). -/
def engIdle (s : State) (u : UnitId) (q : Nat) : Bool :=
  decide (q < 2) && u.kind == .tt && (s.engRunning u q).isNone && !s.engFrozen u q && (s.unitSlice u).st == .running

/-- The head of a queue starts with its thread's mode and state (R212), or leaves as an ENOTE. `go` tells which commands
may start. -/
def startHead (s : State) (u : UnitId) (q : Nat) (go : Cmd → Bool) : State :=
  if !s.engIdle u q then s
  else match s.engQueue u q with
    | [] => s
    | c :: r =>
      match c.instr with
      | .emode .. => s
      | _ =>
        if !go c then s
        else
          let s := s.setQueue u q r
          if c.isNote then s else s.setRunning u q (some { s.asSaved u q c with begun := true })

/-- A command leaves its engine, complete. -/
def engEnd (s : State) (u : UnitId) (e : Nat) (c : Cmd) : State := (s.setRunning u e none).finishCmd c 0

-- the matrix engine (R207 to R209)

end State

/-- Where one group of an EMM stands: the outer counter, the step, the group within the step. -/
structure EmmAt where
  t : Nat
  st : Nat
  g : Nat
  deriving DecidableEq, Repr, Inhabited

/-- The group a command performs next. -/
def emmAt (x : EmmShape) (c : Cmd) : EmmAt := ⟨c.cnt3, c.cnt2 / (x.ka / 16), c.cnt2 % (x.ka / 16)⟩

/-- Stored elements of A in one row of a step. -/
def EmmShape.stored (x : EmmShape) (sp : Bool) : Nat := if sp then x.ka / 2 else x.ka

/-- Walk position of A's first stored element of row i at a group, and of B's element of column j. -/
def EmmShape.aPos (x : EmmShape) (sp : Bool) (p : EmmAt) (i : Nat) : Nat :=
  ((p.t * x.steps + p.st) * x.m + i) * x.stored sp + p.g * (if sp then 8 else 16)

def EmmShape.bPos (x : EmmShape) (p : EmmAt) (j : Nat) : Nat := ((p.t * x.steps + p.st) * x.n + j) * x.ka + 16 * p.g

def EmmShape.dPos (x : EmmShape) (t i j : Nat) : Nat := (t * x.m + i) * x.n + j

/-- The first 2:4 code of row i at a group (R209). -/
def EmmShape.metaPos (x : EmmShape) (p : EmmAt) (i : Nat) : Nat := ((p.t * x.steps + p.st) * x.m + i) * (x.ka / 4) + 4 * p.g

/-- Positions of A, B and D that a group touches. -/
def EmmShape.aAll (x : EmmShape) (sp : Bool) (p : EmmAt) : List Nat :=
  (List.range x.m).flatMap fun i => (List.range (if sp then 8 else 16)).map fun k => x.aPos sp p i + k

def EmmShape.bAll (x : EmmShape) (p : EmmAt) : List Nat :=
  (List.range x.n).flatMap fun j => (List.range 16).map fun k => x.bPos p j + k

def EmmShape.dAll (x : EmmShape) (t : Nat) : List Nat :=
  (List.range x.m).flatMap fun i => (List.range x.n).map fun j => x.dPos t i j

/-- What an operand reads beside its elements at a group, for its rows or columns. -/
def sideAccs (o : Num.OpCfg) (kext k0 row0 n : Nat) : List EAcc :=
  ((List.range n).flatMap fun i => (List.range 16).flatMap fun k => o.sideAt kext (row0 + i) (k0 + k)).eraseDups.map fun r =>
    ⟨1, .read, (r.1 : Int), r.2⟩

namespace State

/-- Every access of a group (R393). `zero` tells that D is zeroed first. -/
def emmAccs (s : State) (c : Cmd) (f : Num.FmtBlock) (sp zero : Bool) (a b d : Rec) : List EAcc :=
  let x := emmShape a b
  let p := emmAt x c
  let kext := x.steps * x.ka
  let k0 := p.st * x.ka + 16 * p.g
  s.recAccs c .mtx a .read (x.aAll sp p) ++ s.recAccs c .mtx b .read (x.bAll p) ++
  sideAccs f.a kext k0 (p.t * x.m) x.m ++ sideAccs f.b kext k0 (p.t * x.n) x.n ++
  (if sp then (List.range x.m).map fun i => ⟨1, .read, (((c.kv.toNat % 2 ^ 32) + x.metaPos p i / 2 : Nat) : Int), 2⟩ else []) ++
  s.recAccs c .mtx d (if zero then .write else .rw) (x.dAll p.t)

/-- The 2:4 code of one group of four of row i. -/
def emmCode (s : State) (c : Cmd) (x : EmmShape) (p : EmmAt) (i q : Nat) : Nat :=
  let m := x.metaPos p i + q
  field (s.engRead c 1 (c.kv.toNat % 2 ^ 32 + m / 2) 1) (4 * (m % 2)) 4

/-- The scales, block codes and super-scales of a group: each block's are read once per instruction (R83). -/
def emmSides (s : State) (c : Cmd) (f : Num.FmtBlock) (a b : Rec) : List (Bool × Nat × Nat × Nat) :=
  let x := emmShape a b
  let p := emmAt x c
  let kext := x.steps * x.ka
  let k0 := p.st * x.ka + 16 * p.g
  let of := fun (isB : Bool) (o : Num.OpCfg) (row0 n : Nat) =>
    (((List.range n).flatMap fun i => o.sideAt kext (row0 + i) k0).eraseDups).map fun r =>
      (isB, r.1, r.2, (c.side? isB r.1 r.2).getD (s.engRead c 1 r.1 r.2))
  of false f.a (p.t * x.m) x.m ++ of true f.b (p.t * x.n) x.n

/-- A new element of D: one group of products is added (R208). -/
def emmCell (s : State) (c : Cmd) (f : Num.FmtBlock) (sp : Bool) (a b d : Rec) (i j : Nat) : Nat :=
  let x := emmShape a b
  let p := emmAt x c
  let kext := x.steps * x.ka
  let k0 := p.st * x.ka + 16 * p.g
  let rd := fun (isB : Bool) (at_ n : Nat) => (c.side? isB at_ n).getD 0
  let prod := fun (k : Nat) =>
    match (if sp then Num.keptAt (s.emmCode c x p i) k else some k) with
    | none => Num.FVal.fin false 0
    | some q =>
      Num.mul (f.a.value (rd false) kext (p.t * x.m + i) (k0 + k) (s.elemCode c a (x.aPos sp p i + q)))
        (f.b.value (rd true) kext (p.t * x.n + j) (k0 + k) (s.elemCode c b (x.bPos p j + k)))
  Num.accGroup f.ints (s.elemCode c d (x.dPos p.t i j)) ((List.range 16).map prod)

/-- One step of the matrix engine: a group over all of M and N (R208, R215). Elements of D are written in its visiting
order. -/
def emmStep (s : State) (c : Cmd) (acc sp : Bool) (f : Num.FmtBlock) (a b d : Rec) : State :=
  let x := emmShape a b
  let p := emmAt x c
  let zero := !acc && !c.zdone
  s.engAct c 0 .mtx (s.emmAccs c f sp zero a b d) fun s =>
    if sp ∧ !((List.range x.m).all fun i => (List.range 4).all fun q => Num.sparseOk (s.emmCode c x p i q)) then
      s.engStop c 0 0 Cause.rsvsparse 0
    else
      let c := { c with sides := s.emmSides c f a b }
      let s := if zero then (x.dAll p.t).foldl (fun s e => s.putElem c d e 0) s else s
      let s := (List.range x.m).foldl (fun s i => (List.range x.n).foldl (fun s j =>
        s.putElem c d (x.dPos p.t i j) (s.emmCell c f sp a b d i j)) s) s
      let next := c.cnt2 + 1
      if next < x.groups then s.setRunning c.unit 0 (some { c with cnt2 := next, zdone := !acc })
      else if c.cnt3 + 1 < x.outer then s.setRunning c.unit 0 (some { c with cnt2 := 0, cnt3 := c.cnt3 + 1, zdone := false })
      else s.engEnd c.unit 0 c

-- the vector engine (R210, R211)

end State

/-- The 32-bit pattern of an element of a format: F32 for a floating-point operation, I32 for an integer one (R210). -/
def vecIn (int : Bool) (e : Num.Elem) (code : Nat) : Word :=
  match e with
  | .ty .f32 => BitVec.ofNat 32 code
  | .ty t => if int then BitVec.ofInt 32 (Num.toInt (Num.decode t code)) else BitVec.ofNat 32 (Num.rne Num.f32 (Num.decode t code))
  | .cb4 => 0

/-- A result narrowed to the result format (R84, R85, R210). -/
def vecOut (int sat : Bool) (e : Num.Elem) (mode : Round) (q : Nat) (r : Word) : Nat :=
  match e with
  | .ty .f32 => if int then r.toNat else Num.convert .f32 .f32 mode q sat r.toNat
  | .ty t => Num.convert t (if int then .i32 else .f32) mode q sat r.toNat
  | .cb4 => 0

/-- An EVX operation on 32-bit patterns (R88, R89, R210). -/
def evxFn (op : EvxOp) (a b : Word) : Word :=
  let x := a.toNat
  let y := b.toNat
  let w := fun (n : Nat) => (BitVec.ofNat 32 n : Word)
  match op with
  | .fadd => w (Num.addE Num.f32 x y)
  | .fsub => w (Num.subE Num.f32 x y)
  | .fmul => w (Num.mulE Num.f32 x y)
  | .fmin => w (Num.minE Num.f32 x y)
  | .fmax => w (Num.maxE Num.f32 x y)
  | .fmov => w (Num.rne Num.f32 (Num.decodeF Num.f32 x))
  | .fexp2 => w (Num.exp2F32 x)
  | .frcp => w (Num.rcpE Num.f32 x)
  | .frsq => w (Num.rsqE Num.f32 x)
  | .ftanh => w (Num.tanhF32 x)
  | .iadd => a + b
  | .imax => if a.slt b then b else a
  | .imul => a * b
  | .flog2 => w (Num.log2F32 x)
  | .imov => a

/-- The combination of an ERED, on patterns that `eredIn` has prepared, and its identity (R93, R211). -/
def eredFn (op : EredOp) (a b : Word) : Word :=
  match op with
  | .fadd | .fssq => BitVec.ofNat 32 (Num.addE Num.f32 a.toNat b.toNat)
  | .fmax | .famax => BitVec.ofNat 32 (Num.maxE Num.f32 a.toNat b.toNat)
  | .fmin => BitVec.ofNat 32 (Num.minE Num.f32 a.toNat b.toNat)
  | .iadd => a + b
  | .imax => if a.slt b then b else a
  | .imin => if a.slt b then a else b

def eredIdent (op : EredOp) : Word :=
  match op with
  | .fadd | .fssq => 0x80000000
  | .fmax => 0xFF800000
  | .fmin => 0x7F800000
  | .iadd | .famax => 0
  | .imax => 0x80000000
  | .imin => 0x7FFFFFFF

/-- An input of an ERED: squared for .fssq, without its sign for .famax (R211). -/
def eredIn (op : EredOp) (x : Word) : Word :=
  match op with
  | .fssq => BitVec.ofNat 32 (Num.mulE Num.f32 x.toNat x.toNat)
  | .famax => x &&& 0x7FFFFFFF
  | _ => x

/-- A reduction by the tree of R93, padded to a power of two with the identity (R95). -/
def eredTree (op : EredOp) (xs : List Word) : Word :=
  let k := if xs.length ≤ 1 then 0 else Nat.log2 (xs.length - 1) + 1
  (redTree (eredFn op) k (xs ++ List.replicate (2 ^ k - xs.length) (eredIdent op))).headD 0

namespace State

/-- A result of a position is written; under STO one draw is made for every result, one that DCFG leaves at 32 bits among them
(R86, R212, log 82). -/
def vecPut (s : State) (c : Cmd) (int : Bool) (f : Num.FmtBlock) (d : Rec) (lfsr : Word) (e : Nat) (r : Word) : Word × State :=
  let l := if c.mode = .sto then BitVec.ofNat 32 (Num.draw lfsr.toNat) else lfsr
  (l, s.putElem c d e (vecOut int (dSat f) (dFmt f) c.mode l.toNat r))

/-- The end of a step at position p: the command goes on, or leaves its final state to its thread (R212). -/
def vecEnd (s : State) (c : Cmd) (total p : Nat) (lfsr : Word) : State :=
  if p < total then s.setRunning c.unit 1 (some { c with pos := p, lfsr := lfsr })
  else
    let x := s.modeOf c.unit c.owner 1
    (if c.mode = .sto then s.setMode c.unit { x with lfsr := lfsr } else s).engEnd c.unit 1 c

/-- One step of an EVX: 256 result positions (R210, R215). -/
def evxStep (s : State) (c : Cmd) (op : EvxOp) (bs : Bool) (f : Num.FmtBlock) (a : Rec) (b : Option Rec) (d : Rec) : State :=
  let last := min (c.pos + 256) d.total
  let es := (List.range (last - c.pos)).map (c.pos + ·)
  let int := evxInt op
  let accs := s.recAccs c .vec a .read es ++ (match b with | some b => s.recAccs c .vec b .read es | none => []) ++
    s.recAccs c .vec d .write es
  s.engAct c 1 .vec accs fun s =>
    let r := es.foldl (fun (x : Word × State) e =>
      let t := x.2
      let av := vecIn int f.a.elem (t.elemCode c a e)
      let bv := if bs then c.kv.setWidth 32 else match b with
        | some b => vecIn int f.b.elem (t.elemCode c b e)
        | none => 0
      t.vecPut c int f d x.1 e (evxFn op av bv)) (c.lfsr, s)
    r.2.vecEnd c d.total last r.1

/-- One step of an ERED: 256 results, or the input elements of 256 results (R211, R215). -/
def eredStep (s : State) (c : Cmd) (op : EredOp) (f : Num.FmtBlock) (a d : Rec) : State :=
  let last := min (c.pos + 256) d.total
  let es := (List.range (last - c.pos)).map (c.pos + ·)
  let n := a.count 0
  let int := eredInt op
  let ins := fun (e : Nat) => (List.range n).map fun k => e * n + k
  s.engAct c 1 .vec (s.recAccs c .vec a .read (es.flatMap ins) ++ s.recAccs c .vec d .write es) fun s =>
    let r := es.foldl (fun (x : Word × State) e =>
      let t := x.2
      t.vecPut c int f d x.1 e (eredTree op ((ins e).map fun k => eredIn op (vecIn int f.a.elem (t.elemCode c a k))))) (c.lfsr, s)
    r.2.vecEnd c d.total last r.1

/-- The running command of a matrix or vector engine that may make a step. -/
def stepCmd (s : State) (u : UnitId) (e : Nat) : Option Cmd :=
  if u.kind = .tt ∧ !s.engFrozen u e then (s.engRunning u e).filter fun c => s.engLive u c.ctx else none

end State

def execEngineCommandStart (u : UnitId) (q : Nat) (s : State) : Host.Outcome State Fault Refusal :=
  .next (s.startHead u q fun c => !c.timed)

def execEngineIssueTime (u : UnitId) (q : Nat) (s : State) : Host.Outcome State Fault Refusal :=
  .next (s.startHead u q fun c => c.timed && decide (c.time ≤ s.pace u.die))

def execMatrixEngineStep (u : UnitId) (s : State) : Host.Outcome State Fault Refusal :=
  .next (match s.stepCmd u 0 with
    | none => s
    | some c =>
      match c.instr, fbOf c, recOf? c.ra, recOf? c.rb, recOf? c.rd with
      | .emm _ _ acc sp, some f, some a, some b, some d => s.emmStep c acc sp f a b d
      | _, _, _, _, _ => s)

def execVectorEngineStep (u : UnitId) (s : State) : Host.Outcome State Fault Refusal :=
  .next (match s.stepCmd u 1 with
    | none => s
    | some c =>
      match c.instr, fbOf c, recOf? c.ra, recOf? c.rd with
      | .evx _ _ op bs, some f, some a, some d => s.evxStep c op bs f a (if bs || op.unary then none else recOf? c.rb) d
      | .ered _ _ op, some f, some a, some d => s.eredStep c op f a d
      | _, _, _, _ => s)

def execEmodeApply (u : UnitId) (q : Nat) (s : State) : Host.Outcome State Fault Refusal :=
  .next (if s.engIdle u q ∨ (q = 2 ∧ u.kind = .tt ∧ (s.unitSlice u).st = .running ∧ !s.engFrozen u 2) then
    match s.engQueue u q with
    | c :: r =>
      match c.instr with
      | .emode _ _ rm =>
        let x := s.modeOf u c.owner q
        (s.setQueue u q r).setMode u { x with
          mode := rm, lfsr := if rm = .sto then BitVec.ofNat 32 (Num.seedOf c.kv.toNat) else x.lfsr }
      | _ => s
    | [] => s
  else s)

def execEnoteReached (u : UnitId) (q : Nat) (s : State) : Host.Outcome State Fault Refusal := .next (s.reachNotes u q)

end Sys2Proof.Machine
end

