-- ==== Sys2Proof/Machine/Copies.lean ====
section
/-! DEFINITION. Copies: the time-sorted buffer, the pacer ring and its slots, flits, receivers, global destinations and die
copy engines (R215, R218 to R224, R275, R320 to R324, R384, R393, R396, R397, R400, R409, R419). -/
namespace Sys2Proof.Machine

open Bits

-- the ring (R320, R321)

def stations : Nat := 104

/-- The station through which a unit's scratchpad is reached. -/
def stationOf (u : UnitId) : Nat := match u.kind with | .tt => u.idx | _ => 2 * clusterOf u

def sliceStation (i : Nat) : Nat := 64 + i
def bridgeStation (b : Nat) : Nat := 96 + b

/-- Hops from one station to another on a track. -/
def hops (track own to_ : Nat) : Nat :=
  if track % 2 = 0 then (to_ + stations - own) % stations else (own + stations - to_) % stations

/-- A slot that an agent may load: its cycle, its track and the hops it travels. -/
structure RingSlot where
  cycle : Nat
  track : Nat
  span : Nat
  deriving DecidableEq, Repr, Inhabited

/-- The nearest bridge that a slot reaches, and its hops from the owner. -/
def RingSlot.bridge (r : RingSlot) (own : Nat) : Option (Nat × Nat) :=
  ((List.range r.span).map (· + 1)).findSome? fun h =>
    ((List.range 8).find? fun b => hops r.track own (bridgeStation b) == h).map fun b => (b, h)

namespace State

/-- The PACE that ring cycles of a die follow (R321, R414). -/
def ringPace (s : State) (d : Nat) : Nat := if d = 1 ∧ s.lostPeer 1 then s.pace 1 else s.pace 0

/-- Ring cycles that begin in the present tick: cycle n begins at floor(5n / 12). -/
def cyclesNow (s : State) (d : Nat) : List Nat :=
  let p := s.ringPace d
  (List.range 3).filterMap fun i => let n := cdiv (12 * p) 5 + i; if 5 * n / 12 = p then some n else none

/-- A ring cycle has begun. -/
def cycleBegun (s : State) (d n : Nat) : Bool := decide (5 * n / 12 ≤ s.ringPace d)

/-- The cycle in which a bank that has been found valid becomes active: the first multiple of 1,024 that begins at or after AT
and the write of SWAP (R322). -/
def swapCycle (s : State) (d : Nat) : Nat :=
  1024 * cdiv (cdiv (12 * max (s.reg d Win.ringswap).toNat (s.die d).swapAt) 5) 1024

/-- The bank that a ring cycle follows. -/
def bankAt (s : State) (d n : Nat) : Nat :=
  let c := (s.reg d Win.ringctl).toNat
  if bit c 0 ∧ s.swapCycle d ≤ n then 1 - field c 1 1 else field c 1 1

/-- Track k's 32 bits of an entry of a bank (R321). -/
def bankWord (s : State) (d b e k : Nat) : Nat := field (s.reg d (Win.bank b + 16 * e + 8 * (k / 2))).toNat (32 * (k % 2)) 32

/-- The 32 bits of a track in the active bank at a ring cycle. -/
def slotWord (s : State) (d n k : Nat) : Nat := s.bankWord d (s.bankAt d n) (n % 1024) k

/-- The first slot of the present tick that a station may load for a station, past what it has loaded, at or after a cycle,
that reaches what it has to (R323). -/
def findSlot (s : State) (d own for_ from_ : Nat) (ok : RingSlot → Bool) : Option RingSlot :=
  let past := (s.die d).lpos.get own
  ((s.cyclesNow d).flatMap fun n => (List.range 4).map fun k => (n, k)).findSome? fun p =>
    let w := s.slotWord d p.1 p.2
    let r : RingSlot := ⟨p.1, p.2, field w 14 7⟩
    if bit w 21 && field w 0 7 == own && field w 7 7 == for_ && decide (from_ ≤ p.1) && decide (past ≤ 4 * p.1 + p.2) && ok r then
      some r
    else none

/-- A slot has been loaded. -/
def slotTaken (s : State) (d own : Nat) (r : RingSlot) : State :=
  s.modDie d fun x => { x with lpos := x.lpos.set own (4 * r.cycle + r.track + 1) }

-- the running copy of an engine

/-- The flits of a copy that are on their way. -/
def flitsOf (s : State) (c : Cmd) : List Flit := s.flits.filter fun f => f.cmd == c.id

/-- The engine of a copy: 2 for a tile's, 3 for a die copy engine. -/
def copyEng (c : Cmd) : Nat := if c.onDce then 3 else 2

/-- A copy has ended: its record is written, and saves that waited for it go on. -/
def endCopy (s : State) (c : Cmd) (status : Nat) : State :=
  let e := copyEng c
  let s := (s.setRunning c.unit e none).finishCmd c status
  if e = 2 then s.settleSaves c.unit else s

/-- The status of a copy that every accepting receiver has taken (R218, R409, R419). -/
def doneStatus (c : Cmd) : Nat := if c.down then Cause.agentdown else if c.lost ≠ [] then Cause.linkerr else 0

/-- A copy that has loaded its last chunk and has no flit on its way is complete (R220); one whose chunk has landed lets a
save go on. -/
def copySettle (s : State) (c : Cmd) (total : Nat) : State :=
  if c.runs = [] ∧ s.flitsOf c = [] then
    if total ≤ c.chunks then s.endCopy c (doneStatus c)
    else if copyEng c = 2 then s.settleSaves c.unit else s
  else s

/-- Chunks of a copy. -/
def chunksOf (a : Rec) : Nat := cdiv a.total (perChunk a)

/-- The receivers of a copy: number and unit; none for a global destination. -/
def targets (c : Cmd) (d : Rec) : List (Nat × UnitId) :=
  match c.instr with
  | .ecpy _ _ _ mc => if d.space = 0 then [] else if mc then receivers c.kv c.kv1 d.space else [(0, c.unit)]
  | _ => []

def chanOf (c : Cmd) : Nat := match c.instr with | .ecpy _ _ ch _ => ch.toNat | _ => 0

/-- What a copy is sent with: it is its engine's, and a global destination always takes it. -/
def sendCopy (s : State) (c : Cmd) (late : Bool) : State :=
  let n0 := cdiv (12 * s.ringPace c.unit.die) 5
  let g := match recOf? c.rd with | some d => d.space == 0 | none => false
  let c := { c with late := late, n0 := n0, accepted := if g then 1 else c.accepted }
  let s := s.setRunning c.unit (copyEng c) (some c)
  match recOf? c.rd with
  | some d => if c.retired ∨ (d.space ≠ 0 ∧ targets c d = []) then s.endCopy c 0 else s
  | none => s

/-- A copy at the head of its buffer or queue: sent, sent late, or not sent for having come there late (R396). -/
def headCopy (s : State) (c : Cmd) : State :=
  let p := c.headAt.getD (s.pace c.unit.die)
  let late := c.timed && decide (c.time < p) && !(c.begun && decide (0 < c.chunks))
  if late ∧ !c.retired ∧ (s.ctxDesc c.ctx).cfg.getLsbD 1 then
    (s.finishCmd c Cause.late).strikeIssuer c Cause.late (BitVec.ofNat 64 (p - c.time)) 0
  else s.sendCopy c late

/-- The tag of a copy's global stores, and whether its hypothesis is refuted (R183, R185, R220). -/
def copyTag (s : State) (c : Cmd) (d : Rec) : BitVec 8 × Bool :=
  if d.hyp ∧ c.hy ≠ 0 then
    let h := c.hy.toNat
    (BitVec.ofNat 8 (s.rewriteHy c.unit c.ctx h), s.hypSeen c.unit c.ctx h == HEnt.refuted)
  else (0, false)

/-- Whether a destination in a scratchpad lies outside its space (R202, R203). A receiver of a multicast to shader cores
refuses what lies outside its grant. -/
def dstRange (s : State) (c : Cmd) (d : Rec) (e : Nat) : Option Int :=
  let b := d.byteAt e (s.idxRaw c d e)
  let mc := match c.instr with | .ecpy _ _ _ mc => mc | _ => false
  let lim := if d.space = 1 then 4194304 else if mc then 2 ^ 32 else s.spaceSize c 3
  if b.1 < 0 ∨ (lim : Int) < b.1 + b.2 then some b.1 else none

/-- The fate of a chunk's accesses (R393). -/
def chunkFate (s : State) (c : Cmd) (a d : Rec) (es : List Nat) : EFate :=
  let src := s.recAccs c .cpy a .read es
  let dst := if d.space = 0 then s.recAccs c .cpy d .write es else es.flatMap (idxAcc d)
  match s.fates c .cpy (src ++ dst) with
  | .ok => if d.space = 0 then .ok else match es.findSome? (s.dstRange c d) with
    | some x => .stop (tCause .cpy ⟨5, 0, 7⟩) (BitVec.ofInt 64 x)
    | none => .ok
  | f => f

/-- The lines of global memory that positions of a copy are read from. -/
def srcLines (s : State) (c : Cmd) (a : Rec) (es : List Nat) : List Nat := s.globalLines c (s.recAccs c .cpy a .read es)

/-- Positions of a copy's current chunk: the first and the one past the last. -/
def chunkAt (c : Cmd) (a : Rec) : Nat × Nat := (c.chunks * perChunk a, min a.total ((c.chunks + 1) * perChunk a))

/-- Before a chunk is begun (R215, R217, R220, R393, R400): what happens instead of it, if anything does. A chunk that has
been begun is sent to its end (R276). -/
def chunkGate (s : State) (c : Cmd) (a d : Rec) : Option State :=
  let e := copyEng c
  if c.runs ≠ [] then none
  else
    let landed := s.flitsOf c = []
    let x := chunkAt c a
    if x.2 ≤ x.1 then some (s.copySettle c (chunksOf a))
    else if c.retired then some (if landed then s.endCopy c 0 else s)
    else if (s.copyTag c d).2 then some (if landed then s.endCopy { c with discarded := true } 1 else s)
    else if !s.engLive c.unit c.ctx ∨ s.engFrozen c.unit e ∨ (e = 2 ∧ (s.core c.unit).eng.saves ≠ []) then
      some (if e = 2 then s.settleSaves c.unit else s)
    else match s.chunkFate c a d ((List.range (x.2 - x.1)).map (x.1 + ·)) with
      | .ok => none
      | .waits => some s
      | .stop cause ad => some (if landed then s.engStop c e 0 cause ad else s)
      | .ecc cause ad => some (if landed then s.engStop c e 2 cause ad else s)

-- flits

/-- Bytes of an element at its destination: address, bits and value. -/
def elemBytes (bit_ w code : Nat) : List (Nat × Nat × Nat) :=
  if w < 8 then [(bit_ / 8, (2 ^ w - 1) * 2 ^ (bit_ % 8), code * 2 ^ (bit_ % 8))]
  else (List.range (w / 8)).map fun i => (bit_ / 8 + i, 255, code / 256 ^ i % 256)

/-- Bytes in the order written; parts of one byte that follow one another are one. -/
def joinBytes (xs : List (Nat × Nat × Nat)) : List (Nat × Nat × Nat) :=
  (xs.foldl (fun (acc : List (Nat × Nat × Nat)) x => match acc with
    | y :: r => if y.1 = x.1 then (x.1, y.2.1 ||| x.2.1, (y.2.2 &&& (255 - x.2.1)) ||| x.2.2) :: r else x :: acc
    | [] => [x]) []).reverse

/-- What positions of a copy carry: every byte with its place at the receiver. -/
def copyBytes (s : State) (c : Cmd) (a d : Rec) (es : List Nat) : List FByte :=
  let xs := es.flatMap fun e => elemBytes (d.bitAt e (s.idxRaw c d e)).toNat d.width (s.elemCode c a e)
  (joinBytes xs).map fun x =>
    let at_ := if d.space = 0 then (match s.xlate c.unit true .write x.1 with | .ok y => y.pa | .error _ => 0) else x.1
    ⟨at_, BitVec.ofNat 8 x.2.1, BitVec.ofNat 8 x.2.2, x.1⟩

/-- The lowest destination byte of a whole copy, and the one past its highest. -/
def copySpan (s : State) (c : Cmd) (d : Rec) : Nat × Nat :=
  (List.range d.total).foldl (fun (m : Nat × Nat) e =>
    let b := d.byteAt e (s.idxRaw c d e)
    (min m.1 b.1.toNat, max m.2 (b.1.toNat + b.2))) (2 ^ 64, 0)

/-- The receivers that a flit is loaded for, on this die and on the other, as (number, place, station): those of the whole command, or
the slices of its global destination (R323). -/
def flitTo (c : Cmd) (d : Rec) (die : Nat) (bs : List FByte) : List (Nat × Rx × Nat) × List (Nat × Rx × Nat) :=
  let all : List (Nat × (Nat × Rx × Nat)) :=
    if d.space = 0 then
      (((bs.filter fun b => !onExpander b.at_).map fun b => homeNo b.at_).eraseDups).map fun n => (n / 32, (0, Rx.home n, sliceStation (n % 32)))
    else (targets c d).map fun t => (t.2.die, (t.1, Rx.unit t.2, stationOf t.2))
  ((all.filter fun x => x.1 == die).map (·.2), (all.filter fun x => x.1 != die).map (·.2))

/-- The expander ports that bytes of a global destination go to, over the mesh (R330). -/
def portsTo (d : Rec) (bs : List FByte) : List Hop :=
  if d.space ≠ 0 then []
  else (((bs.filter fun b => onExpander b.at_).map fun b => servedAt b.at_).eraseDups).map fun n => ⟨0, Rx.home n, 0⟩

/-- The die of a receiver. -/
def hopDie (h : Hop) : Nat := match h.rx with | .home n => placeDie n | .unit u => u.die

/-- A flit that travels on the mesh to an expander port. -/
def onMesh (f : Flit) : Bool := f.dests.any fun h => match h.rx with | .home n => decide (64 ≤ n) | .unit _ => false

/-- A receiver that still takes the flits of a copy. -/
def takesFlits (c : Cmd) (d : Rec) (t : Nat × Rx × Nat) : Bool := d.space == 0 || !(c.refused ||| c.cut).getLsbD t.1

/-- Receivers on a die that the engine's die has fenced count as refusing (R409). -/
def refuseLost (s : State) (c : Cmd) (d : Rec) : Cmd :=
  if !s.lostPeer c.unit.die then c
  else
    let gone := (targets c d).filter fun t => t.2.die != c.unit.die
    if gone = [] then c
    else { c with refused := gone.foldl (fun m t => m ||| BitVec.ofNat 64 (2 ^ t.1)) c.refused, down := true }

/-- The progress of a copy after a run of positions has been loaded. -/
def loaded (c : Cmd) (a : Rec) (first n : Nat) : Cmd :=
  let x := chunkAt c a
  let runs := c.runs ++ [(first, n)]
  if x.2 - x.1 ≤ runs.foldl (fun t r => t + r.2) 0 then { c with chunks := c.chunks + 1, runs := [] } else { c with runs := runs }

/-- A flit of positions is loaded at a station of a die in the first slot that reaches its receivers, if there is one in
this tick (R321, R323, R324). What goes to an expander port needs no slot (R330). -/
def loadFlit (s : State) (c : Cmd) (a d : Rec) (die own for_ first n : Nat) : State :=
  let c := s.refuseLost c d
  let es := (List.range n).map (first + ·)
  let bs := s.copyBytes c a d es
  let (here, there) := flitTo c d die bs
  let ports := portsTo d bs
  let base : Flit := {
    id := 0, die := die, src := own, issuer := c.unit, dce := false, cmd := c.id, chunk := c.chunks, ch := chanOf c, ctx := c.ctx
    tag := (s.copyTag c d).1, dests := [], bytes := bs, span := s.copySpan c d, bridge := none, since := none, posts := none }
  let mesh := ports.map fun h => ({ base with die := hopDie h, dests := [h] } : Flit)
  let put := fun (s : State) (fs : List Flit) =>
    let s := s.touchLines (s.partOf c.unit) 3 (s.srcLines c a es)
    let (i, s) := s.fresh
    let s := { s with nextId := s.nextId + fs.length, flits := s.flits ++ fs.zipIdx.map fun (p : Flit × Nat) => ({ p.1 with id := i + p.2 } : Flit) }
    (s.setRunning c.unit 2 (some (loaded c a first n))).copySettle (loaded c a first n) (chunksOf a)
  if here = [] ∧ there = [] ∧ ports ≠ [] then (if s.cycleBegun die (c.n0 + 32) then put s mesh else s.setRunning c.unit 2 (some c))
  else
    let ok := fun (r : RingSlot) => here.all (fun t => decide (hops r.track own t.2.2 ≤ r.span)) && (there.isEmpty || (r.bridge own).isSome)
    match s.findSlot die own for_ (c.n0 + 32) ok with
    | none => s.setRunning c.unit 2 (some c)
    | some r =>
      let here := here.filter (takesFlits c d)
      let there := there.filter (takesFlits c d)
      let at0 : Flit := { base with dests := here.map fun t => ⟨t.1, t.2.1, r.cycle + hops r.track own t.2.2⟩ }
      let across : List Flit := match r.bridge own with
        | some (b, h) => if there = [] then [] else
          [{ base with die := 1 - die, dests := there.map (fun t => ⟨t.1, t.2.1, r.cycle + h + 96⟩), bridge := some b }]
        | none => []
      put (s.slotTaken die own r) ((if here = [] then [] else [at0]) ++ across ++ mesh)

/-- The next flit of a copy whose source is in the tile. -/
def flitLoad (s : State) (c : Cmd) (a d : Rec) : State :=
  match s.chunkGate c a d with
  | some s => s
  | none =>
    let x := chunkAt c a
    let first := x.1 + c.runs.foldl (fun t r => t + r.2) 0
    let n := min (2048 / a.width) (x.2 - first)
    s.loadFlit c a d c.unit.die (stationOf c.unit) (stationOf c.unit) first n

/-- Whether a slice homes the line in which a position's element begins, or a port serves it. -/
def homedAt (s : State) (c : Cmd) (a : Rec) (home e : Nat) : Bool :=
  match s.xlate c.unit true .read (a.byteAt e (s.idxRaw c a e)).1.toNat with
  | .ok x => servedAt x.pa == home
  | .error _ => false

/-- Whether a port serves some position of a copy's current chunk. -/
def ports (s : State) (c : Cmd) (a : Rec) (place : Nat) : Bool :=
  let x := chunkAt c a
  ((List.range (x.2 - x.1)).map (x.1 + ·)).any (s.homedAt c a place)

/-- The next run of a slice for a copy whose source is in global memory (R323). What comes from an expander port is loaded at the
engine's own station (R330; log 91). -/
def runLoad (s : State) (c : Cmd) (a d : Rec) (home : Nat) : State :=
  match s.chunkGate c a d with
  | some s => s
  | none =>
    let x := chunkAt c a
    let open_ := fun (e : Nat) => decide (e < x.2) && !(c.runs.any fun r => decide (r.1 ≤ e ∧ e < r.1 + r.2)) && s.homedAt c a home e
    match ((List.range (x.2 - x.1)).map (x.1 + ·)).find? open_ with
    | none => s
    | some f =>
      let n := (((List.range (2048 / a.width)).map (f + ·)).takeWhile open_).length
      if 64 ≤ home then s.loadFlit c a d c.unit.die (stationOf c.unit) (stationOf c.unit) f n
      else s.loadFlit c a d (home / 32) (sliceStation (home % 32)) (stationOf c.unit) f n

-- receivers (R222, R223, R275)

/-- A range is written under a channel's current arming (R223). -/
def advanceWm : Nat → Chan → Chan
  | 0, c => c
  | n + 1, c =>
    match c.written.find? fun r => decide (r.1 ≤ c.wm ∧ c.wm < r.2) with
    | some r => advanceWm n { c with wm := min r.2 c.hi, written := c.written.filter fun x => decide (min r.2 c.hi < x.2) }
    | none => c

def wroteByte (c : Chan) (a : Nat) : Chan :=
  let ws := match c.written.findIdx? fun r => r.2 == a with
    | some i => c.written.modify i fun r => (r.1, a + 1)
    | none => c.written ++ [(a, a + 1)]
  let c := advanceWm (ws.length + 1) { c with written := ws }
  if c.wm = c.hi then { c with st := .done } else c

/-- Runs of whole bytes at consecutive places, as (first, bytes). -/
def byteRuns (bs : List FByte) : List (Nat × Nat) :=
  (bs.foldl (fun (acc : List (Nat × Nat)) (b : FByte) =>
    if b.mask != 255 then acc
    else match acc with
      | r :: t => if r.1 + r.2 = b.at_ then (r.1, r.2 + 1) :: t else (b.at_, 1) :: acc
      | [] => [(b.at_, 1)]) []).reverse

/-- Granules under a flit's bytes are good again or reported (R406); `pl` tells where a byte stands in the storage. -/
def healFlit (s : State) (f : Flit) (st : Storage) (g cause : Nat) (pl : Nat → Nat) (bs : List FByte) : State :=
  if s.bad = [] then s
  else (byteRuns bs).foldl (fun (s : State) r =>
    let (part, s) := s.healGranules st g (pl r.1) r.2
    part.foldl (fun (s : State) x => s.note f.ctx f.issuer 0 cause (BitVec.ofNat 64 (g * x)) 0) s) s

/-- Bytes of a flit written to a unit's scratchpad, and counted where the arming still stands. -/
def writeUnit (s : State) (u : UnitId) (x : RxSt) (f : Flit) : State :=
  let bs := f.bytes
  let t := if u.kind = .sc then s.team? u x.team else none
  if u.kind = .sc ∧ t = none then s
  else
    let s := s.healFlit f (scrStorage u).1 4 (scrStorage u).2 (scrAddr t) bs
    let s := bs.foldl (fun (s : State) b =>
      let a := scrAddr t b.at_
      let old := (s.core u).scr.get a
      s.scrPut u a [(old &&& ~~~ b.mask) ||| b.val]) s
    let one := fun (k : Chan) (b : FByte) => if k.st = ChanSt.filling ∧ k.lo ≤ b.at_ ∧ b.at_ < k.hi then wroteByte k b.at_ else k
    let count := fun (k : Chan) => if k.gen = x.gen then bs.foldl one k else k
    s.modCore u fun c => { c with chans := c.chans.modify f.ch count }

/-- Whether a unit takes part in a copy: its slice runs the context, or the copy comes from that very slice (R275). -/
def takesCopies (s : State) (issuer u : UnitId) (ctx : Nat) : Bool :=
  s.engLive u ctx || (issuer.die == u.die && sliceOf issuer == sliceOf u)

/-- A flit at a receiving unit: what becomes of the copy there, and the state (R222, R275). -/
def atUnit (s : State) (c : Cmd) (f : Flit) (no : Nat) (u : UnitId) : Cmd × State :=
  let b : Dword := BitVec.ofNat 64 (2 ^ no)
  if (c.refused ||| c.cut).getLsbD no then (c, s)
  else
    let k := (s.core u).chans.get f.ch
    let takes := s.takesCopies c.unit u c.ctx
    match c.rxs.find? fun x => x.no == no with
    | some x =>
      if !takes && f.chunk != x.last then ({ c with cut := c.cut ||| b }, s)
      else
        let x := { x with last := f.chunk }
        ({ c with rxs := x :: c.rxs.filter fun y => y.no != no }, s.writeUnit u x f)
    | none =>
      let x : RxSt := ⟨no, k.gen, k.team, f.chunk⟩
      let c' := { c with accepted := c.accepted ||| b, rxs := x :: c.rxs }
      if !takes then ({ c with refused := c.refused ||| b }, s)
      else if c.begun ∧ 0 < f.chunk then (c', s.writeUnit u x f)
      else if (k.st = .armed ∨ k.st = .filling) ∧ k.wm ≤ f.span.1 ∧ f.span.2 ≤ k.hi then
        (c', (s.modCore u fun y => { y with chans := y.chans.modify f.ch fun z => { z with st := .filling } }).writeUnit u x f)
      else ({ c with refused := c.refused ||| b }, s)

-- global destinations (R220, R237, R239, R384)

/-- Bytes of a line are stored at home: as versions, as an update of a replicated page, or as one store. -/
def storeLine (s : State) (f : Flit) (line : Nat) (bs : List FByte) : State :=
  let part := s.partOf f.issuer
  let d := homeDie (128 * line)
  if f.tag ≠ 0 then
    (bs.foldl (fun (s : State) b => s.putVers f.ctx f.tag b.at_
        [((s.seenByte f.ctx f.tag b.at_) &&& ~~~ b.mask) ||| b.val]) (s.healFlit f .version 8 Cause.vsecc id bs)).syncVcnt f.ctx f.tag.toNat
  else if s.isRepl d part (128 * line) then
    let mem := bs.foldl (fun m (b : FByte) => m.set b.at_ ((m.get b.at_ &&& ~~~ b.mask) ||| b.val)) s.mem
    let ws := ((List.range 32).filter fun i => bs.any fun b => b.at_ / 4 == 32 * line + i).map fun i =>
      (i, (BitVec.ofNat 32 (ofBytes (memBytes mem (128 * line + 4 * i) 4)) : Word))
    s.postWords d part (128 * line) ws
  else
    let n := unitNo f.issuer
    let s := s.healFlit f .slice 8 Cause.sliceecc id bs
    let s := s.healFlit f .dram 32 Cause.dramecc id bs
    let s := s.touch (128 * line) part 3 false
    let (w, s) := s.homeStore (128 * line) [] (s.agent n).pts
    let s := { s with mem := bs.foldl (fun m (b : FByte) => m.set b.at_ ((m.get b.at_ &&& ~~~ b.mask) ||| b.val)) s.mem }
    (s.modAgent n fun a => { a with pts := later a.pts w }).written (128 * line) 128 none

/-- A line's store has to wait: for package time, or for version space. -/
def lineWaits (s : State) (f : Flit) (line : Nat) : Bool :=
  if f.tag ≠ 0 then !s.verRoom f.ctx f.tag (128 * line)
  else s.beyondPt (128 * line) (s.storeWts (128 * line) (s.agent (unitNo f.issuer)).pts)

/-- Lines of a flit's bytes that a home slice or an expander port takes. -/
def linesAt (f : Flit) (home : Nat) : List Nat := ((f.bytes.map fun b => b.at_ / 128).eraseDups).filter fun l => servedAt (128 * l) == home

/-- The copy stops at the boundary before a chunk whose tagged store found no space (R384). -/
def copyFull (s : State) (c : Cmd) (f : Flit) (line : Nat) : State :=
  let ea := ((f.bytes.find? fun b => b.at_ / 128 == line).map (·.ea)).getD 0
  let c := { c with chunks := f.chunk, runs := [] }
  let s := { s with flits := s.flits.filter fun g => !(g.cmd == c.id && decide (f.chunk ≤ g.chunk)) }
  (s.setRunning c.unit (copyEng c) (some c)).engStop c (copyEng c) 0 Cause.vsfull (BitVec.ofNat 64 ea)

-- arrivals

/-- The copy that a flit belongs to, while its engine holds it. -/
def flitCmd (s : State) (f : Flit) : Option Cmd := (s.engRunning f.issuer (if f.dce then 3 else 2)).filter fun c => c.id == f.cmd

/-- A flit has been taken by one of its receivers. -/
def flitTaken (s : State) (f : Flit) (h : Hop) : State :=
  let left := f.dests.filter fun x => !(x.no == h.no && x.rx == h.rx)
  { s with flits := if left = [] then s.flits.filter (fun g => g.id != f.id)
      else s.flits.map fun (g : Flit) => if g.id == f.id then { g with dests := left, since := none, posts := none } else g }

/-- A flit is taken at a receiver that it has reached. A flit whose copy has been discarded is dropped. -/
def takeFlit (s : State) (f : Flit) (h : Hop) : State :=
  match s.flitCmd f with
  | none => s.flitTaken f h
  | some c =>
    let total := match recOf? c.ra with | some a => chunksOf a | none => 0
    match h.rx with
    | .unit u =>
      let (c, s) := s.atUnit c f h.no u
      ((s.flitTaken f h).setRunning c.unit (copyEng c) (some c)).copySettle c total
    | .home n =>
      match (linesAt f n).find? (s.lineWaits f) with
      | some l =>
        if f.tag = 0 then s
        else match f.since with
          | none => { s with flits := s.flits.map fun (g : Flit) => if g.id == f.id then { g with since := some (s.pace (placeDie n)) } else g }
          | some t => if t + 4096 ≤ s.pace (placeDie n) then s.copyFull c f l else s
      | none =>
        let part := s.partOf f.issuer
        let s := if f.posts.isSome then s
          else (linesAt f n).foldl (fun s l => s.storeLine f l (f.bytes.filter fun b => b.at_ / 128 == l)) s
        let posts := f.posts.getD (s.stampsNow part)
        if s.stampsApplied part posts then (s.flitTaken f h).copySettle c total
        else { s with flits := s.flits.map fun (g : Flit) => if g.id == f.id then { g with posts := some posts } else g }

/-- No flit of an earlier chunk of the copy is still on its way to a receiver. -/
def chunkTurn (s : State) (f : Flit) (h : Hop) : Bool :=
  !s.flits.any fun g => g.cmd == f.cmd && decide (g.chunk < f.chunk) && g.dests.any fun x => x.no == h.no && x.rx == h.rx

/-- A queue head of the tile's copy engine passes on: an ENOTE leaves, a copy enters the buffer (R205, R219). -/
def bufferEntry (s : State) (u : UnitId) : State :=
  if u.kind ≠ .tt ∨ (s.unitSlice u).st ≠ .running ∨ s.engFrozen u 2 then s
  else match s.engQueue u 2 with
    | [] => s
    | c :: r =>
      if c.isNote then s.setQueue u 2 r
      else if c.isCopy ∧ (s.core u).eng.tbuf.length < 64 then
        (State.modEng (s.setQueue u 2 r) u fun e =>
          { e with tbuf := e.tbuf ++ [{ c with time := if c.timed then c.time else s.pace u.die, headAt := none }] }).markHead u
      else s

-- die copy engines (R219)

/-- A chunk of a die copy engine leaves on the mesh, once the regulator of its class lets it (R219, R267). -/
def meshChunk (s : State) (c : Cmd) (a d : Rec) : State :=
  match s.chunkGate c a d with
  | some s => s
  | none =>
    let x := chunkAt c a
    let c := s.refuseLost c d
    let es := (List.range (x.2 - x.1)).map (x.1 + ·)
    let bs := s.copyBytes c a d es
    let (here, there) := flitTo c d c.unit.die bs
    let all := (((here ++ there).filter (takesFlits c d)).map fun t => (⟨t.1, t.2.1, 0⟩ : Hop)) ++ portsTo d bs
    match s.engMeter c .cpy (s.recAccs c .cpy a .read es ++ (if d.space = 0 then s.recAccs c .cpy d .write es else [])) with
    | none => s
    | some s =>
    let (i, s) := s.fresh
    let f : Flit := {
      id := i, die := c.unit.die, src := 0, issuer := c.unit, dce := true, cmd := c.id, chunk := c.chunks, ch := chanOf c, ctx := c.ctx
      tag := (s.copyTag c d).1, dests := all, bytes := bs, span := s.copySpan c d
      bridge := none, since := none, posts := none }
    let s := if f.dests = [] then s else { s with flits := s.flits ++ [f] }
    let c := { c with chunks := c.chunks + 1 }
    (s.setRunning c.unit 3 (some c)).copySettle c (chunksOf a)

/-- The head of a die copy engine's queue: an ENOTE leaves, a copy whose time has come is sent. -/
def dceHead (s : State) (die e : Nat) : State :=
  match (s.die die).dce.get e with
  | [] => s
  | c :: r =>
    let pop := fun (s : State) => (s.modDie die fun d => { d with dce := d.dce.set e r }).markDce die e
    if (s.unitSlice c.unit).st ≠ .running ∨ (s.die die).dceFrozen.get e then s
    else if c.isNote then pop s
    else if c.timed ∧ s.pace die < c.time then s
    else (pop s).headCopy c

/-- A tile's copy engine sends the first copy of its buffer whose time has come (R219). -/
def copySend (s : State) (u : UnitId) : State :=
  if u.kind ≠ .tt ∨ (s.unitSlice u).st ≠ .running ∨ s.engFrozen u 2 ∨ (s.engRunning u 2).isSome then s
  else match firstCopy (s.core u).eng.tbuf with
    | none => s
    | some c =>
      if s.pace u.die < c.time then s
      else ((s.modEng u fun e => { e with tbuf := e.tbuf.filter fun x => x.id != c.id }).markHead u).headCopy c

/-- A tile's copy engine loads the next flit of a copy from its own storage, or what an expander has sent it (R323, R330). -/
def copyLoad (s : State) (u : UnitId) : State :=
  match s.engRunning u 2 with
  | none => s
  | some c => match recOf? c.ra, recOf? c.rd with
    | some a, some d => if a.space ≠ 0 then s.flitLoad c a d
      else [64, 65, 66, 67].foldl (fun (s : State) p => match s.engRunning u 2 with
        | some c => if s.ports c a p then s.runLoad c a d p else s
        | none => s) s
    | _, _ => s

/-- A flit is taken at a receiver whose station it reached some ring cycles ago (R323). -/
def flitArrive (s : State) (flit ago : Nat) : State :=
  match s.flits.find? fun f => f.id == flit with
  | none => s
  | some f =>
    if f.dce ∨ f.bridge ≠ none then s
    else match f.dests.find? fun h => s.cycleBegun f.die (h.at_ + ago) && s.chunkTurn f h with
      | some h => s.takeFlit f h
      | none => s

/-- The cycle in which a crossing flit is held at the peer bridge. -/
def heldAt (f : Flit) : Nat := f.dests.foldl (fun m h => max m h.at_) 0

/-- A crossing flit is loaded at the peer bridge in its first slot whose FOR names the sending station, those of that station in
their order of arrival (R324). A receiver that the slot's span does not reach gets nothing of it (log 87). -/
def flitCross (s : State) (flit : Nat) : State :=
  match s.flits.find? fun f => f.id == flit with
  | none => s
  | some f =>
    match f.bridge with
    | none => s
    | some b =>
      let due := heldAt f
      let first := fun (g : Flit) => decide (heldAt g < due) || (heldAt g == due && decide (g.id < f.id))
      if s.lostPeer f.die then { s with flits := s.flits.filter fun g => g.id != flit }
      else if !s.cycleBegun f.die due ∨
          (s.flits.any fun g => g.id != flit && g.bridge == some b && g.die == f.die && g.src == f.src && first g) then s
      else
        let own := bridgeStation b
        let st := fun (h : Hop) => match h.rx with | .unit u => stationOf u | .home n => sliceStation (n % 32)
        match s.findSlot f.die own f.src due fun _ => true with
        | none => s
        | some r =>
          let s := s.slotTaken f.die own r
          let ds := (f.dests.filter fun h => decide (hops r.track own (st h) ≤ r.span)).map fun (h : Hop) =>
            { h with at_ := r.cycle + hops r.track own (st h) }
          if ds ≠ [] then
            { s with flits := s.flits.map fun (g : Flit) => if g.id == flit then { g with bridge := none, dests := ds } else g }
          else
            let s := { s with flits := s.flits.filter fun g => g.id != flit }
            match s.flitCmd f with
            | some c => s.copySettle c (match recOf? c.ra with | some a => chunksOf a | none => 0)
            | none => s

end State

def execCopySend (u : UnitId) (s : State) : Host.Outcome State Fault Refusal := .next (s.copySend u)

def execCopyFlitLoad (u : UnitId) (s : State) : Host.Outcome State Fault Refusal := .next (s.copyLoad u)

def execSliceRunLoad (die slice : Nat) (u : UnitId) (s : State) : Host.Outcome State Fault Refusal :=
  .next (match s.engRunning u 2 with
    | none => s
    | some c => match recOf? c.ra, recOf? c.rd with
      | some a, some d => if a.space = 0 then s.runLoad c a d (32 * die + slice) else s
      | _, _ => s)

def execFlitArrival (flit : Nat) (s : State) : Host.Outcome State Fault Refusal := .next (s.flitArrive flit 0)

def execBridgeCrossing (flit : Nat) (s : State) : Host.Outcome State Fault Refusal := .next (s.flitCross flit)

def execDieCopySend (die e : Nat) (s : State) : Host.Outcome State Fault Refusal :=
  .next (match (s.die die).dceRun.get e with
    | none => s.dceHead die e
    | some c => match recOf? c.ra, recOf? c.rd with
      | some a, some d => s.meshChunk c a d
      | _, _ => s)

def execCopyChunkArrival (die e : Nat) (s : State) : Host.Outcome State Fault Refusal :=
  .next (match s.flits.find? fun f => f.dce && f.issuer.die == die && dceOf f.issuer == e with
    | none => s
    | some f => match f.dests.head? with
      | some h => s.takeFlit f h
      | none => s)

end Sys2Proof.Machine
end

