-- ==== Sys2Proof/Machine/Pace.lean ====
section
/-! DEFINITION. The PACE counter, its slewing, and the times that pass or stand still with it (R325, R380, R414, R424). -/
namespace Sys2Proof.Machine

open Bits

namespace State

/-- The correction still to apply on a die. -/
def paceAdj (s : State) (d : Nat) : Int := (s.reg d Win.paceadj).toInt

/-- Ticks by which PACE of a die advances in one tick of time: once in 10,000 of them one tick more or less while a correction
is left (R325). -/
def paceStep (s : State) (d : Nat) : Nat :=
  if (s.die d).paceFrac + 1 < 10000 ∨ s.paceAdj d = 0 then 1 else if 0 < s.paceAdj d then 2 else 0

/-- The correction and the phase of its slewing after one tick of time. -/
def slew (s : State) (d : Nat) : State :=
  let x := s.die d
  if x.paceFrac + 1 < 10000 then s.modDie d fun x => { x with paceFrac := x.paceFrac + 1 }
  else
    let a := s.paceAdj d
    let s := s.modDie d fun x => { x with paceFrac := 0 }
    if a = 0 then s else s.setReg d Win.paceadj (BitVec.ofInt 64 (if 0 < a then a - 1 else a + 1))

/-- Times of a halted core stand still for n ticks, which are t tenths of a cycle (R424). -/
def holdTimes (n t : Nat) (c : Core) : Core :=
  { c with
    latches := c.latches.map fun l => { l with since := l.since + n }
    trap := c.trap.map fun t => { t with raised := t.raised + n }
    teams := c.teams.map fun x => { x with stuck := x.stuck.map (· + t) } }

/-- What a core's clocks show after n ticks: a team that is stuck has been so from its first such tick (R380). -/
def corePast (s : State) (u : UnitId) (n : Nat) : State :=
  if (s.core u).halted then s.modCore u (holdTimes n (n * s.clockRate u))
  else if (s.core u).teams = [] then s
  else s.modCore u fun c => { c with teams := c.teams.map fun t =>
    { t with stuck := if s.teamStuck u t then some (t.stuck.getD (s.cycles u)) else none } }

/-- PACE of a die moves to a later tick. -/
def paceTo (s : State) (d p : Nat) : State :=
  let n := p - s.pace d
  if n = 0 then s
  else
    let s := s.modDie d fun x => { x with pace := p }
    (s.cores.map (·.1)).foldl (fun s k => let u := unitOf k; if u.die = d then s.corePast u n else s) s

end State

end Sys2Proof.Machine
end

