-- ==== Sys2Proof/Machine/Platform.lean ====
section
/-! DEFINITION. Registers of the window with effects of their own, the ring's banks, attestation, resets and bring-up, power,
heat and wear (R5, R6, R318, R321, R322, R325, R328, R340 to R347, R411, R429). -/
namespace Sys2Proof.Machine

open Bits

namespace State

-- the ring's banks (R322)

/-- A slot of a bank with V = 1. -/
structure BankSlot where
  e : Nat
  track : Nat
  owner : Nat
  for_ : Nat
  span : Nat
  deriving DecidableEq, Repr, Inhabited

/-- The owned slots of a bank, entry by entry. -/
def bankSlots (s : State) (d b : Nat) : List BankSlot :=
  (List.range 1024).flatMap fun e => (List.range 4).filterMap fun k =>
    let w := s.bankWord d b e k
    if bit w 21 then some ⟨e, k, field w 0 7, field w 7 7, field w 14 7⟩ else none

namespace BankSlot

/-- SPAN, OWNER and FOR keep to R322. -/
def ok (x : BankSlot) : Bool :=
  decide (1 ≤ x.span ∧ x.span ≤ 103) && decide (x.owner ≤ 103) && decide (x.for_ ≤ 103) &&
  (if x.owner < 64 then x.for_ == x.owner else if x.owner < 96 then decide (x.for_ < 64) else decide (x.for_ < 96))

/-- The station after h hops. -/
def reach (x : BankSlot) (h : Nat) : Nat := if x.track % 2 = 0 then (x.owner + h) % stations else (x.owner + stations - h % stations) % stations

/-- Places of a slot: station and entry, hop by hop. -/
def places (x : BankSlot) : List (Nat × Nat) := (List.range (x.span + 1)).map fun h => (x.reach h, (x.e + h) % 1024)

/-- Two slots of one track meet. -/
def meets (x y : BankSlot) : Bool := x.track == y.track && x != y && x.places.any fun p => y.places.contains p

/-- The cycle in which a slot passes a bridge: toward the other die, or from it. -/
def crosses (x : BankSlot) (bridge : Nat) (from_ : Bool) : Option Nat :=
  let b := bridgeStation bridge
  if from_ then (if x.owner = b then some x.e else none)
  else if x.owner = b then none
  else ((List.range (x.span + 1)).find? fun h => x.reach h == b).map fun h => (x.e + h) % 1024

/-- A slot can carry a flit across a bridge. -/
def usesBridge (x : BankSlot) (bridge : Nat) : Bool := (x.crosses bridge true).isSome || (x.crosses bridge false).isSome

end BankSlot

/-- More than 5 flits can cross a bridge one way in 12 consecutive cycles, this slot's among them. -/
def crowded (xs : List BankSlot) (x : BankSlot) : Bool :=
  (List.range 8).any fun b => [true, false].any fun way =>
    match x.crosses b way with
    | none => false
    | some c =>
      let cs := xs.filterMap fun y => y.crosses b way
      (List.range 12).any fun i =>
        let first := (c + 1024 - i) % 1024
        decide (5 < (cs.filter fun z => decide ((z + 1024 - first) % 1024 < 12)).length)

/-- A bridge that carries no flit: its ring module is down, or the other die is lost (R414, R420). -/
def bridgeDown (s : State) (d b : Nat) : Bool := s.lostPeer d || !bit (s.reg d (Win.ucie (3 * b))).toNat 0

/-- The first entry of a bank that breaks R322, R414 or R420. -/
def bankError (s : State) (d b : Nat) : Option Nat :=
  let xs := s.bankSlots d b
  (xs.find? fun x => !x.ok || xs.any x.meets || crowded xs x || (List.range 8).any fun k => s.bridgeDown d k && x.usesBridge k).map (·.e)

/-- The swap of banks that was asked for, once its cycle has begun (R322). -/
def bankSwap (s : State) (die : Nat) : State :=
  let c := (s.reg die Win.ringctl).toNat
  if bit c 0 ∧ s.cycleBegun die (s.swapCycle die) then
    s.setReg die Win.ringctl (BitVec.ofNat 64 (setField (setField c 0 1 0) 1 1 (1 - field c 1 1)))
  else s

-- resets (R341)

/-- Registers that a warm reset keeps, and those that every reset keeps (R341, R346). -/
def warmKeeps : List Nat := [Win.portcfg 0, Win.portcfg 1, Win.paceadj, Win.dtcfg]
def allKeep : List Nat := [Win.wear, Win.life]

/-- A die after a reset: only the registers kept, and the powered time behind it. -/
def resetDie (s : State) (d : Nat) (keep : List Nat) : Die :=
  let win : Tab (Option Dword) := keep.foldl (fun t o => t.set o ((s.die d).win.get o)) []
  let x := s.die d
  { (default : Die) with win := win, upBase := x.upBase + s.pace d, wornAt := x.wornAt, eolReported := x.eolReported,
                         eolAt := x.eolAt }

/-- The package after a reset that keeps some registers. What has left the device has left it, and what moves next is the
environment's. Memory is zeroed in step 4, and what stands behind a root port is not the package's. -/
def resetPackage (s : State) (keep : List Nat) : State :=
  { State.reset with
    agenda := s.agenda, out := s.out, free := s.free, nextId := s.nextId, mem := s.mem
    dies := (Tab.set [] 0 (s.resetDie 0 keep)).set 1 (s.resetDie 1 keep) }

def setReady (s : State) (stage : Nat) (ready : Bool) : State := { s with plat := { s.plat with stage := stage, ready := ready } }

def bothDies (s : State) (f : State → Nat → State) : State := f (f s 0) 1

-- firmware (R342)

/-- Whether a die accepts a firmware image: a header of LEN, VER and zeros, a body of LEN bytes whose key has the digest in the die's
fuses, and a signature of header and body that verifies under it. -/
def acceptsImage (die : Nat) (image : List Byte) : Bool :=
  let len := ofBytes (image.take 8)
  let signed_ := image.take (256 + len)
  let sig := image.drop (256 + len)
  let key := Config.imageKey (signed_.drop 256)
  image.length == 388 + len && ((image.drop 16).take 240).all (· == 0) && sha512 key == Config.fuse die &&
  P521.verifies (ofBytesBE (key.take 66), ofBytesBE (key.drop 66)) (sha512 signed_) (ofBytesBE (sig.take 66)) (ofBytesBE (sig.drop 66))

/-- VER of an image. -/
def imageVer (image : List Byte) : Dword := BitVec.ofNat 64 (ofBytes ((image.drop 8).take 8))

def stall (s : State) : State := { s with plat := { s.plat with stalled := true } }

/-- Die 0 runs an image that it has accepted (R341 step 2). -/
def runImage (s : State) (image : List Byte) : State :=
  let s := (s.setReg 0 Win.fwver (imageVer image)).setReady 2 false
  { s with plat := { s.plat with image := image, stalled := false } }

/-- Modules that carry mesh traffic (R327). -/
def meshModules : List Nat := (List.range 24).filter fun m => m % 3 != 0

/-- The UCIe modules after training (R327): of each the lanes that were repaired, or none where it did not train. -/
def trainModules (s : State) (mods : List (Option Nat)) : State :=
  s.bothDies fun s d => (List.range 24).foldl (fun (s : State) m => s.setReg d (Win.ucie m) (match mods.getD m none with
    | some k => BitVec.ofNat 64 (pack [(1, 1), (1, ofBool (k != 0)), (6, 0), (8, k)])
    | none => 0)) s

/-- The roles that ports take at a reset (R328, R341 step 5). -/
def takeRoles (s : State) : State :=
  s.bothDies fun s d => s.modDie d fun x => { x with
    roles := (Tab.set [] 0 (field (s.reg d (Win.portcfg 0)).toNat 0 2)).set 1 (field (s.reg d (Win.portcfg 1)).toNat 0 2) }

/-- The next step of bring-up (R341). In step 2 the first image is the one on the flash, tried once; in step 3 the images are what the
sideband has brought to die 1, the same image sent twice at most (R428). A step that fails leaves bring-up where it stands (R342, R420,
R428). -/
def bringUp (s : State) (images : List (List Byte)) (mods : List (Option Nat)) : State :=
  if s.plat.stalled then s
  else match s.plat.stage with
  | 0 => s.setReady 1 false
  | 1 => if acceptsImage 0 (images.headD []) then s.runImage (images.headD []) else s.stall
  | 2 =>
    let s := s.trainModules mods
    if meshModules.all fun m => (mods.getD m none).isNone then s.stall
    else match (images.take 2).find? (acceptsImage 1) with
      | some i => (s.setReg 1 Win.fwver (imageVer i)).setReady 3 false
      | none => s.stall
  | 3 => ({ s with mem := s.mem.filter fun c => onExpander c.1, lines := [] } : State).setReady 4 false
  | 4 => s.takeRoles.setReady 5 false
  | 5 => s.setReady 6 true
  | _ => s

-- power, heat and wear (R344 to R346, R429)

/-- A report to every context bound to a slice of a die, in whose entry DIE is that die (log 67). -/
def dieReport (s : State) (d cause info : Nat) : State :=
  let cs := ((List.range 16).filterMap fun i => (s.slice d i).ctx.map (·.ctxid)).eraseDups
  cs.foldl (fun s c => s.report c ⟨cause, resOf cause, some ⟨.sc, d, 0⟩, 0, 0, 0, 0, BitVec.ofNat 64 info, 0, s.pace d⟩) s

/-- Shader cores and tensor tiles of the package. -/
def powerUnits : List UnitId :=
  [0, 1].flatMap fun d => (List.range 128).map (fun i => ⟨.sc, d, i⟩) ++ (List.range 64).map fun i => ⟨.tt, d, i⟩

/-- Steps of 100 MHz below its clock that an aged die's units keep (R429). -/
def eolSteps (s : State) (d : Nat) : Nat := if (s.die d).eolReported then 2 else 0

/-- End of life (R429), once the monitors have given their values. -/
def atEol (s : State) (d : Nat) : Bool :=
  let w := (s.reg d Win.wear).toNat
  ((s.die d).win.get Win.wear).isSome &&
  (decide (field w 16 16 < 30) || field w 32 16 == 0xFFFF || field (s.reg d Win.life).toNat 0 32 == 0)

end State

namespace State

/-- PACEADJ is replaced (R325). -/
def paceadjWrite (s : State) (die : Nat) (v : Dword) : State := if !s.plat.ready then s else s.setReg die Win.paceadj v

/-- SWAP: the inactive bank is checked, and refused or set to swap (R322). -/
def swapRequest (s : State) (die : Nat) (v : Dword) : State :=
  let c := (s.reg die Win.ringctl).toNat
  if !s.plat.ready ∨ !v.getLsbD 0 ∨ bit c 0 then s
  else match s.bankError die (1 - field c 1 1) with
    | some e => (s.setReg die Win.ringctl (BitVec.ofNat 64 (setField c 2 1 1))).setReg die Win.ringerr (BitVec.ofNat 64 e)
    | none => (s.setReg die Win.ringctl (BitVec.ofNat 64 (setField (setField c 2 1 0) 0 1 1))).modDie die fun x =>
        { x with swapAt := s.ringPace die }

end State

def execPaceadjWrite (die : Nat) (v : Dword) (s : State) : Host.Outcome State Fault Refusal := .next (s.paceadjWrite die v)

def execRingSwapRequest (die : Nat) (v : Dword) (s : State) : Host.Outcome State Fault Refusal := .next (s.swapRequest die v)

/-- The swap: the bank is active, and SWAP reads 0 (R322). -/
def execRingBankSwap (die : Nat) (s : State) : Host.Outcome State Fault Refusal := .next (s.bankSwap die)

/-- PWRSTAT is read: LIMITED clears (R9, R345). -/
def execPwrstatLimitedRead (die : Nat) (s : State) : Host.Outcome State Fault Refusal := .next (s.answerReg die Win.pwrstat)

namespace State

/-- DTPEER written: V set from 0 lets a fenced peer die rejoin, on fresh connections (R335, R411). -/
def peerWrite (s : State) (die t : Nat) (off : Nat) (v : Dword) : State :=
  let was := bit (s.reg die off).toNat 48
  let s := s.plainWrite die off v
  if !was ∧ bit (s.reg die off).toNat 48 ∧ t / 2 ≠ s.domNo die / 2 then
    s.modDie die fun x => { x with
      fenced := x.fenced.filter fun a => a != .die t, scrubbed := x.scrubbed.filter fun a => a != .die t
      replay := x.replay.set t 0, heard := x.heard.set t (some x.pace)
      conns := (List.range 8).foldl (fun t' c => t'.set (8 * t + c) default) x.conns }
  else s

/-- A write of a register that has no row of its own (R5, R6, R256, R322, R343). -/
def regWrite (s : State) (die off : Nat) (v : Dword) : State :=
  match Win.kindOf off with
  | .paceadj | .ringctl | .xinvc | .slctl _ | .qos .. | .attctl | .rstctl => s
  | .slnext i => if (s.slice die i).go then s else s.plainWrite die off v
  | .bank b _ _ =>
    let c := (s.reg die Win.ringctl).toNat
    if b = field c 1 1 ∨ bit c 0 then s else s.plainWrite die off v
  | .attaddr => if (s.die die).attBusy.isSome then s else s.plainWrite die off v
  | .peCfg n => (s.settleAll die n).plainWrite die off v
  | .dtpeer p d => s.peerWrite die (2 * p + d) off v
  | .dtcfg =>
    let was := bit (s.reg die off).toNat 16
    let s := s.plainWrite die off v
    if !was ∧ bit (s.reg die off).toNat 16 then s.modDie die fun x => { x with conns := [] } else s
  | _ => s.plainWrite die off v

end State

-- attestation (R343)

/-- GO: the nonce is read, and the report begins. -/
def State.attGo (s : State) (die : Nat) (v : Dword) : State :=
  if !s.plat.ready ∨ !v.getLsbD 0 ∨ (s.die die).attBusy.isSome then s
  else
    let nonce := memBytes s.mem (s.reg die Win.attaddr).toNat 64
    s.modDie die fun x => { x with attBusy := some nonce }

def execAttctlGo (die : Nat) (v : Dword) (s : State) : Host.Outcome State Fault Refusal := .next (s.attGo die v)

/-- A report (R343): nonce, digest of the running image, IDENT and PACE, and the signature of these under the die's identity key. -/
def State.attReport (s : State) (die : Nat) (nonce : List Byte) : List Byte :=
  let body := nonce ++ sha512 s.plat.image ++ toBytes (State.identWord die).toNat 8 ++ toBytes (s.pace die) 8
  body ++ P521.sign (Config.identityKey die) (Config.signNonce s.free) (sha512 body)

/-- The report is written, and GO reads 0. A nonce stored since GO may be in it. -/
def execAttestationDone (die : Nat) (s : State) : Host.Outcome State Fault Refusal :=
  .next (match (s.die die).attBusy with
    | none => s
    | some old =>
      let a := (s.reg die Win.attaddr).toNat
      let rep := s.attReport die (if Config.freeSide s.free 0 then memBytes s.mem a 64 else old)
      let s := { s with free := s.free + 1 }
      let s := if isMemory (a + 64) && isMemory (a + 339) && s.portOpen (a + 64) then
        (List.range 276).foldl (fun s i => s.devStore (a + 64 + i) [rep.getD i 0]) s else s
      s.modDie die fun x => { x with attBusy := none })

-- resets and bring-up (R341)

def execColdReset (s : State) : Host.Outcome State Fault Refusal := .next ((s.resetPackage State.allKeep).setReady 1 false)

/-- WARM: every register but those that a warm reset keeps takes its reset value (R341). -/
def State.warmReset (s : State) (v : Dword) : State :=
  if v.getLsbD 0 then (s.resetPackage (State.allKeep ++ State.warmKeeps)).setReady 1 false else s

def execWarm (_die : Nat) (v : Dword) (s : State) : Host.Outcome State Fault Refusal := .next (s.warmReset v)

def execBringUpStep (images : List (List Byte)) (mods : List (Option Nat)) (s : State) : Host.Outcome State Fault Refusal :=
  .next (s.bringUp images mods)

-- power, wear and heat (R345, R346, R429)

/-- A window of 1 ms ends with an average power. -/
def State.powerWindow (s : State) (watts : Nat) : State :=
  let lim := field (s.reg 0 Win.pwrcfg).toNat 0 11
  let w := min watts 2047
  let s := s.bothDies fun s d =>
    let v := (s.reg d Win.pwrstat).toNat
    let n := field v 32 32
    s.setReg d Win.pwrstat (BitVec.ofNat 64 (pack [(11, w), (21, 0), (32, if lim < w then min (n + 1) (2 ^ 32 - 1) else n)]))
  let s := { s with plat := { s.plat with winAt := s.pace 0 } }
  if lim < w then State.powerUnits.foldl (fun s u => s.setSteps u ((s.core u).clock + 1)) s
  else if w + 50 < lim then State.powerUnits.foldl (fun s u => s.setSteps u (max (s.eolSteps u.die) ((s.core u).clock - 1))) s
  else s

/-- A window ends 1 ms after the one before it. -/
def execPowerWindow (watts : Nat) (s : State) : Host.Outcome State Fault Refusal :=
  .next (if s.pace 0 < s.plat.winAt + 1000000 then s else s.powerWindow watts)

/-- Ticks of powered time of a die. -/
def State.powered (s : State) (die : Nat) : Nat := (s.die die).upBase + s.pace die

/-- The monitors' values, once per hour of powered time (R346). -/
def execWearUpdate (die rodrift emstress srmargin hours : Nat) (s : State) : Host.Outcome State Fault Refusal :=
  .next (if 2 ≤ die ∨ s.powered die < (s.die die).wornAt + 3600000000000 then s
    else ((s.setReg die Win.wear (BitVec.ofNat 64 (pack [(16, 0), (16, srmargin), (16, emstress), (16, rodrift)]))).setReg die Win.life
      (BitVec.ofNat 64 (pack [(32, hours)]))).modDie die fun x => { x with wornAt := s.powered die })

/-- A die at the end of its life says so once per hour, and its units stay 200 MHz below their clocks (R429). -/
def execWearEol (die : Nat) (s : State) : Host.Outcome State Fault Refusal :=
  .next (if 2 ≤ die ∨ !s.atEol die ∨ ((s.die die).eolReported ∧ s.powered die < (s.die die).eolAt + 3600000000000) then s
    else
      let us := ((State.powerUnits.filter fun u => u.die == die) ++ (List.range 16).map fun i => (⟨.rc, die, i⟩ : UnitId))
      let s := s.modDie die fun x => { x with eolReported := true, eolAt := s.powered die }
      (us.foldl (fun s u => s.setSteps u (max (s.core u).clock 2)) s).dieReport die Cause.weareol 0)

/-- A die measures its hottest block: THERMAL is reported once per millisecond while it throttles (R347, R429). -/
def execThermal (die kind temp : Nat) (s : State) : Host.Outcome State Fault Refusal :=
  .next (if 2 ≤ die then s
    else
      let soon : Bool := match (s.die die).hotAt with | some t => decide (s.pace die < t + 1000000) | none => false
      let say := decide (105 ≤ temp) && !soon
      let s := s.modDie die fun x => { x with hot := temp, hotAt := if say then some x.pace else x.hotAt }
      if say then s.dieReport die Cause.thermal (pack [(8, kind), (8, 0), (16, temp)]) else s)

/-- At 120 °C the package powers off; every state of it is lost (R347, R429). -/
def execThermalPowerOff (s : State) : Host.Outcome State Fault Refusal :=
  if (s.die 0).hot < 120 ∧ (s.die 1).hot < 120 then .next s
  else
    let s := s.resetPackage State.allKeep
    .next { s with mem := s.mem.filter fun c => State.onExpander c.1, plat := { s.plat with off := true } }

end Sys2Proof.Machine
end

