-- ==== Sys2Proof/Machine/Coll.lean ====
section
/-! DEFINITION. Collectives: what a member sends, what it holds, and the write of its destination (R225, R226, R275, R334,
R393, R398, R409). -/
namespace Sys2Proof.Machine

open Bits

/-- A member of a group as the word of its descriptor. -/
def memberWord (m : Nat × Nat × Nat) : Nat := pack [(3, m.1), (1, m.2.1), (6, m.2.2)]

/-- The combination of a collective and its identity (R93, R226). -/
def collFn (r : CollRed) (a b : Word) : Word :=
  match r with
  | .fadd => eredFn .fadd a b
  | .fmax => eredFn .fmax a b
  | .iadd => eredFn .iadd a b
  | .imax => eredFn .imax a b

def collIdent (r : CollRed) : Word :=
  match r with
  | .fadd => eredIdent .fadd
  | .fmax => eredIdent .fmax
  | .iadd => eredIdent .iadd
  | .imax => eredIdent .imax

/-- The values of one element over all ranks, combined by the tree of R93. -/
def collTree (r : CollRed) (xs : List Word) : Word :=
  let k := if xs.length ≤ 1 then 0 else Nat.log2 (xs.length - 1) + 1
  (redTree (collFn r) k (xs ++ List.replicate (2 ^ k - xs.length) (collIdent r))).headD 0

/-- A member's destination from every rank's source (R226). -/
def collResult (op : CollOp) (red : CollRed) (root rank : Nat) (srcs : List (List Word)) : List Word :=
  let c := (srcs.map List.length).foldl max 0
  let all := fun (e : Nat) => collTree red (srcs.map fun x => x.getD e 0)
  match op with
  | .allred => (List.range c).map all
  | .redsc =>
    let b := c / srcs.length
    (List.range b).map fun e => all (rank * b + e)
  | .allgat => srcs.flatten
  | .bcast => srcs.getD root []

/-- What of one rank's source has come, in place; none while a part is missing. -/
def collSource (total : Nat) (ms : List CollMsg) : Option (List Word) :=
  let at_ := fun (e : Nat) => ms.findSome? fun m => if m.first ≤ e then m.data[e - m.first]? else none
  let xs := (List.range total).map at_
  if xs.all (·.isSome) then some (xs.map fun x => x.getD 0) else none

/-- Words of a source that one frame carries (R333: at most 9,000 bytes). -/
def collFrame : Nat := 2048

/-- A contribution as a message of class 3: the common header, then rank, receiving tile, operation, first element and
total, then its words (R334). -/
def collBytes (m : CollMsg) (rank tile ptn : Nat) : List Byte :=
  let op := match m.op with | .allred => 0 | .redsc => 1 | .allgat => 2 | .bcast => 3
  let red := match m.red with | .fadd => 0 | .fmax => 1 | .iadd => 2 | .imax => 3
  toBytes (pack [(8, Config.msgType 3), (8, 0), (16, ptn), (32, m.seq), (64, m.desc.toNat)]) 16 ++
  toBytes (pack [(16, rank), (8, tile), (4, op), (4, red), (16, m.src)]) 6 ++ toBytes (pack [(32, m.first), (32, m.total)]) 8 ++
  m.data.flatMap fun w => toBytes w.toNat 4

/-- A contribution from its bytes: the receiving tile, the partition and the message. -/
def collOf (bs : List Byte) : Nat × Nat × CollMsg :=
  let f := fun o n => ofBytes ((bs.drop o).take n)
  let h := f 0 16
  let op := match field (f 19 1) 0 4 with | 0 => CollOp.allred | 1 => .redsc | 2 => .allgat | _ => .bcast
  let red := match field (f 19 1) 4 4 with | 0 => CollRed.fadd | 1 => .fmax | 2 => .iadd | _ => .imax
  (f 18 1, field h 16 16,
   { desc := BitVec.ofNat 64 (h / 2 ^ 64), seq := field h 32 32, src := f 20 2, op := op, red := red, first := f 22 4, total := f 26 4
     data := (List.range ((bs.length - 30) / 4)).map fun i => BitVec.ofNat 32 (f (30 + 4 * i) 4) })

namespace State

def collArgs (c : Cmd) : CollOp × CollRed := match c.instr with | .coll _ _ op red => (op, red) | _ => (.allred, .fadd)

/-- What a member sends of its source, in parts that a frame can carry (R226). -/
def collMsgs (s : State) (c : Cmd) (data : List Word) : List CollMsg :=
  let (op, red) := collArgs c
  let src := memberWord (field (s.reg c.unit.die Win.dtcfg).toNat 0 3, c.unit.die, c.unit.idx)
  (List.range (max 1 (cdiv data.length collFrame))).map fun i =>
    ⟨c.kv, field c.kv1.toNat 0 32, src, op, red, collFrame * i, data.length, (data.drop (collFrame * i)).take collFrame⟩

/-- A contribution leaves for a member: over the fabric within the package, else on the transport (R226, R334). -/
def collSend (s : State) (c : Cmd) (rank : Nat) (m : CollMsg) (to_ : Nat × Nat × Nat) : State :=
  let d := c.unit.die
  if to_.1 = field (s.reg d Win.dtcfg).toNat 0 3 then
    let u : UnitId := ⟨.tt, to_.2.1, to_.2.2⟩
    { s with collNet := s.collNet ++ [⟨u, c.ctx, none, m, none, u == c.unit⟩] }
  else s.sendFrame d (2 * to_.1 + to_.2.1) 3 (collBytes m rank to_.2.2 (s.ptnOf d (s.partOf c.unit)))

/-- A unit's slice runs what a contribution is for (R275). -/
def collTaken (s : State) (x : CollNet) : Bool :=
  match x.ptn with
  | none => s.engLive x.dst x.ctx
  | some p => (s.unitSlice x.dst).st == .running && s.ptnOf x.dst.die (s.partOf x.dst) == p

/-- The command leaves the copy queue, ended (R226, R398). -/
def collEnd (s : State) (c : Cmd) : State :=
  let u := c.unit
  let key := (c.kv, field c.kv1.toNat 0 32)
  let s := s.setQueue u 2 ((s.engQueue u 2).filter fun x => x.id != c.id)
  s.modEng u fun e => { e with colls := e.colls.filter fun p => p.cmd != c.id, sent := e.sent.filter fun k => k != key }

/-- A collective that fails: its destination stays, and its issuer is struck (R398). -/
def collFail (s : State) (c : Cmd) (cause rank : Nat) : State := (s.collEnd c).strikeIssuer c cause (BitVec.ofNat 64 rank) 0

/-- Contributions held for a collective, by rank; each with those of a member that name another collective. -/
def collHeld (s : State) (c : Cmd) (p : CollPart) : List (Nat × List CollNet) :=
  let here := s.collNet.filter fun x => x.dst == c.unit && x.arrived && (x.ptn.isSome || x.ctx == c.ctx)
  p.members.zipIdx.map fun m => (m.2, here.filter fun x => x.msg.src == memberWord m.1)

/-- Whether a contribution belongs to a member's collective. -/
def collSame (c : Cmd) (total : Nat) (m : CollMsg) : Bool :=
  let (op, red) := collArgs c
  m.desc == c.kv && m.seq == field c.kv1.toNat 0 32 && m.op == op && m.red == red && m.total == total

/-- A collective whose members have all contributed writes its destination and is complete; one that finds another
collective in its place fails (R226, R398). -/
def collCheck (s : State) (u : UnitId) : State :=
  match (s.core u).eng.colls.head?, (s.engQueue u 2).head? with
  | some p, some c =>
    if c.id ≠ p.cmd ∨ s.engFrozen u 4 ∨ !s.engLive u c.ctx then s
    else
      let total := p.data.length
      let held := s.collHeld c p
      let bad := held.filter fun h => match h.2.head? with | some x => !collSame c total x.msg | none => false
      match bad.head? with
      | some b => s.collFail c Cause.collmis b.1
      | none =>
        let srcs := held.map fun h => collSource total ((h.2.filter fun x => collSame c total x.msg).map (·.msg))
        if srcs.any (·.isNone) then s
        else match recOf? c.rd, s.rankOf u p.members with
          | some d, some r =>
            let (op, red) := collArgs c
            let out := collResult op red (field c.kv1.toNat 32 16) r (srcs.map fun x => x.getD [])
            s.engAct c 4 .net (s.recAccs c .net d .write (List.range d.total)) fun s =>
              let s := out.zipIdx.foldl (fun s x => s.putElem c d x.2 x.1.toNat) s
              let s := { s with collNet := s.collNet.filter fun x =>
                !(x.dst == u && x.arrived && (x.ptn.isSome || x.ctx == c.ctx) && collSame c total x.msg) }
              s.collEnd c
          | _, _ => s
  | _, _ => s

/-- The collective at the head of a copy queue is begun: its group and its source are read, and its contributions leave,
unless they left before it was saved. -/
def collStart (s : State) (u : UnitId) (c : Cmd) : State :=
  if (s.core u).eng.colls ≠ [] ∨ s.engFrozen u 4 ∨ !s.engLive u c.ctx ∨ (c.timed ∧ s.pace u.die < c.time) then s
  else match s.collGroup u c.kv.toNat, recOf? c.ra with
    | .error e, _ => s.engStop c 4 0 e.1 e.2.2
    | .ok ms, some a =>
      s.engAct c 4 .net (s.recAccs c .net a .read (List.range a.total)) fun s =>
        let data := (List.range a.total).map fun e => (BitVec.ofNat 32 (s.elemCode c a e) : Word)
        let key := (c.kv, field c.kv1.toNat 0 32)
        let gone := (s.core u).eng.sent.contains key
        let rank := (s.rankOf u ms).getD 0
        let s := s.modEng u fun e => { e with
          colls := [⟨c.id, ms, data, s.pace u.die⟩], sent := if gone then e.sent else key :: e.sent }
        let s := if gone then s else (s.collMsgs c data).foldl (fun s m => ms.foldl (fun s t => s.collSend c rank m t) s) s
        s.collCheck u
    | _, _ => s

/-- A member whose die is fenced (R409), as its rank. -/
def collLost (s : State) (u : UnitId) (p : CollPart) : Option Nat :=
  p.members.findIdx? fun m => (s.die u.die).fenced.contains (.die (2 * m.1 + m.2.1))

end State

/-- Events of a copy queue: its head enters the buffer, leaves, or, a collective, is begun. -/
def execCopyBufferEntry (u : UnitId) (s : State) : Host.Outcome State Fault Refusal :=
  .next (match (s.engQueue u 2).head? with
    | some c => if c.isColl ∧ u.kind = .tt then s.collStart u c else s.bufferEntry u
    | none => s)

/-- A contribution arrives: those of one tile to another come in the order in which they were sent (R319). -/
def execCollContribution (u : UnitId) (m : CollMsg) (s : State) : Host.Outcome State Fault Refusal :=
  .next (match s.collNet.findIdx? fun x => x.dst == u && x.msg.src == m.src && !x.arrived && x.refused.isNone with
    | none => s
    | some i =>
      if (s.collNet[i]?).map (·.msg) ≠ some m then s
      else
      let take := fun (x : CollNet) => if s.collTaken x then { x with arrived := true } else { x with refused := some (s.pace u.die) }
      ({ s with collNet := s.collNet.modify i take } : State).collCheck u)

def execCollResend (u : UnitId) (i : Nat) (s : State) : Host.Outcome State Fault Refusal :=
  let again := fun (x : CollNet) => match x.refused with
    | some t => if x.dst == u && decide (t + 16000 ≤ s.pace u.die) then { x with refused := none } else x
    | none => x
  .next { s with collNet := s.collNet.modify i again }

/-- A member of a collective is lost, or has not contributed for 2^20 ticks (R398, R409). -/
def State.colltime (s : State) (u : UnitId) : State :=
  match (s.core u).eng.colls.head?, (s.engQueue u 2).head? with
  | some p, some c =>
    if c.id ≠ p.cmd then s
    else match s.collLost u p with
      | some r => s.collFail c Cause.colltime r
      | none =>
        if s.pace u.die < p.since + 2 ^ 20 then s
        else match (s.collHeld c p).find? fun h =>
            (collSource p.data.length ((h.2.filter fun x => State.collSame c p.data.length x.msg).map (·.msg))).isNone with
          | some h => s.collFail c Cause.colltime h.1
          | none => s
  | _, _ => s

def execColltime (u : UnitId) (s : State) : Host.Outcome State Fault Refusal := .next (s.colltime u)

end Sys2Proof.Machine
end

