-- ==== Sys2Proof/Machine/Flags.lean ====
section
/-! DEFINITION. Conditions: the comparisons of R62 on integers and on floating-point values, and the range of saturation
(R73, R100). -/
namespace Sys2Proof.Machine

/-- A comparison code on 32-bit integers (R62, R106); ORD and UNO are reserved there. -/
def icond (cc : Cmp) (a b : Word) : Bool :=
  match cc with
  | .eq => a == b
  | .ne => a != b
  | .lt => decide (a.toInt < b.toInt)
  | .le => decide (a.toInt ≤ b.toInt)
  | .gt => decide (b.toInt < a.toInt)
  | .ge => decide (b.toInt ≤ a.toInt)
  | .ltu => decide (a.toNat < b.toNat)
  | .leu => decide (a.toNat ≤ b.toNat)
  | .gtu => decide (b.toNat < a.toNat)
  | .geu => decide (b.toNat ≤ a.toNat)
  | .ord | .uno => false

/-- A comparison code on floating-point values (R62). -/
def fcond (cc : Cmp) (a b : Num.FVal) : Bool :=
  match cc, Num.cmpF a b with
  | .ord, o => o.isSome
  | .uno, o => o.isNone
  | .eq, some o => o == .eq
  | .ne, some o => o != .eq
  | .lt, some o | .ltu, some o => o == .lt
  | .le, some o | .leu, some o => o != .gt
  | .gt, some o | .gtu, some o => o == .gt
  | .ge, some o | .geu, some o => o != .lt
  | .ne, none | .ltu, none | .leu, none | .gtu, none | .geu, none => true
  | .eq, none | .lt, none | .le, none | .gt, none | .ge, none => false

/-- Int(x, w, U) of R100. -/
def intOf (w : Nat) (u : Bool) (x : Nat) : Int := if u then ((x % 2 ^ w : Nat) : Int) else Bits.signed w x

/-- The narrowing of R100: clamped to the range of the width under SAT, else modulo 2^w. -/
def narrow (w : Nat) (sat u : Bool) (z : Int) : Nat :=
  Bits.wrap w (if sat then Num.clampInt (Num.intMin w (!u)) (Num.intMax w (!u)) z else z)

end Sys2Proof.Machine
end

