-- ==== Sys2Proof/Machine/Cross.lean ====
section
/-! DEFINITION. Meanings of PART, the cross-lane reads and the collectives (R35 to R37, R122 to R128). -/
namespace Sys2Proof.Machine

open Bits

namespace State

/-- The size of a group register; on a one-lane warp each group is the single lane (R35). -/
def groupOf (s : State) (g : GReg) : Nat :=
  if s.curW.width = 1 then 1 else 4 * 2 ^ (s.hazard .g g.toNat 0 ((3 - s.curW.grp.get g.toNat).setWidth 64)).toNat

/-- A cross-lane read of register x of lane j by a lane of a group (R37): the register as sources are read for a lane of
the path; a live lane elsewhere gives its current value, or, where a write to it is in flight, either that or the new
value; an exited lane gives the fill. -/
def crossRead (s : State) (j x : Nat) (fill : Word) : Word :=
  let w := s.curW
  if w.width ≤ j ∨ w.exited.getLsbD j then fill
  else if s.curP.mask.getLsbD j then s.rv j x
  else
    let cur := w.getV j x
    match w.pend.findSome? fun p => p.res.find? fun r => r.file = .v && r.reg == w.phys x && r.lane == j with
    | some r => if Config.freeSide s.free (sideKey .v (w.phys x) j 2) then r.val.setWidth 32 else cur
    | none => cur

/-- The source lane of SHFL: the index within the group, if it lies inside (R124). -/
def shflSrc (m : ShflMode) (i b n : Nat) : Option Nat :=
  let j : Int := match m with
    | .idx => b
    | .up => (i : Int) - b
    | .down => i + b
    | .xor => (i ^^^ b : Nat)
  if 0 ≤ j ∧ j < n then some j.toNat else none

-- collectives

/-- The instance of a collective for a group that a lane of the issuing path joins: an open one, or a new one of the same
size as the other open instances of the collective, or of the group register's size (R123). -/
def collSize (s : State) (g : GReg) : Nat :=
  match s.curW.colls.find? fun c => c.pc == s.curP.pc && c.greg == g.toNat with
  | some c => c.size
  | none => s.groupOf g

/-- A collective (R36, R123): every active lane executes it, those whose guard holds contribute the value that `f` reads;
the path waits until its groups are complete. -/
def collective (s : State) (h : Head) (i : Instr) (g : GReg) (f : Nat → Dword) : State :=
  let n := s.collSize g
  let pc := s.curP.pc
  let act := s.curP.mask
  let on := s.execLanes h
  let bases := ((lanes act).map fun l => l / n * n).eraseDups
  let id := s.nextId
  let s1 := s.addPend h act false bases.length []
  let s2 := s1.modCur fun w => bases.foldl (fun w b =>
    let gm := Warp.groupMask b n
    let vals := (lanes (on &&& gm)).map fun l => (l, f l)
    let old := (w.colls.find? fun c => c.pc == pc && c.greg == g.toNat && c.base == b).getD ⟨pc, i, g.toNat, n, b, 0, 0, [], []⟩
    let new := { old with
      arrived := old.arrived ||| (act &&& gm), contrib := old.contrib ||| (on &&& gm),
      vals := old.vals ++ vals, ids := old.ids ++ [id] }
    { w with colls := (w.colls.filter fun c => !(c.pc == pc && c.greg == g.toNat && c.base == b)) ++ [new] }) w
  (s2.waitFor .coll).flow s.cur.unit s.cur.slot fun e w => w.collCheck e

end State

/-- PART (R122): a write for the warp when some lane executes. -/
def execPart (h : Head) (d : GReg) (size : BitVec 2) (s : State) : Host.Outcome State Fault Refusal :=
  .next (s.uniform h fun _ => [⟨.g, d.toNat, 0, size.setWidth 64⟩])

def execShfl (h : Head) (m : ShflMode) (d a : VReg) (b : SrcB) (c : VReg) (g : GReg) (s : State) :
    Host.Outcome State Fault Refusal :=
  .next (s.lane32 h d fun l =>
    let n := s.groupOf g
    let base := l / n * n
    let fill := s.rv l c.toNat
    match State.shflSrc m (l - base) (s.srcB l b).toNat n with
    | some j => s.crossRead (base + j) a.toNat fill
    | none => fill)

def execBcast (h : Head) (d a : VReg) (b : BcastSrc) (c : VReg) (g : GReg) (s : State) :
    Host.Outcome State Fault Refusal :=
  .next (s.lane32 h d fun l =>
    let n := s.groupOf g
    let base := l / n * n
    let fill := s.rv l c.toNat
    let at_ := fun (x : Nat) => if x < n then s.crossRead (base + x) a.toNat fill else fill
    match b with
    | .k r => at_ ((s.rk r.toNat).toNat % 2 ^ 32)
    | .lit x => at_ (x.toNat % 2 ^ 32)
    | .first =>
      match lowest (s.execLanes h &&& Warp.groupMask base n) with
      | some j => s.crossRead j a.toNat fill
      | none => fill)

def execVote (h : Head) (m : VoteMode) (d : BitVec 8) (a : PReg) (g : GReg) (s : State) :
    Host.Outcome State Fault Refusal :=
  .next (s.collective h (.vote h m d a g) g fun l => BitVec.ofNat 64 (ofBool (s.rp l a.toNat)))

def execRedux (h : Head) (op : RedOp) (d a : VReg) (g : GReg) (s : State) : Host.Outcome State Fault Refusal :=
  .next (s.collective h (.redux h op d a g) g fun l => (s.rv l a.toNat).setWidth 64)

def execScan (h : Head) (op : RedOp) (d a : VReg) (g : GReg) (excl : Bool) (s : State) :
    Host.Outcome State Fault Refusal :=
  .next (s.collective h (.scan h op d a g excl) g fun l => (s.rv l a.toNat).setWidth 64)

def execMatchV (h : Head) (d a : VReg) (g : GReg) (w : Bool) (s : State) : Host.Outcome State Fault Refusal :=
  .next (s.collective h (.matchV h d a g w) g fun l => s.srcW l a w)

end Sys2Proof.Machine
end

