-- ==== Sys2Proof/Machine/Graphics.lean ====
section
/-! DEFINITION. Meanings of the graphics forms: TRACE, TQRY, the texture forms, the ordered interlock and REFIT (R290, R291,
R297 to R301, R308 to R313, R375). -/
namespace Sys2Proof.Machine

open Bits

/-- The shader core whose sequencers and texture unit a warp or thread uses (R297). -/
def gcoreOf (u : UnitId) (slot : Nat) : UnitId :=
  match u.kind with | .rc => ⟨.sc, u.die, 8 * u.idx + slot % 8⟩ | _ => u

/-- Slots of a sequencer (R289). -/
def gcap : GUnit → Nat
  | .trav => 256 | .raster => 32 | .depth => 64

/-- The number of a sequencer slot in Core.gslots. -/
def gkey (g : GUnit) (slot : Nat) : Nat := 256 * g.code + slot

/-- A sequencer slot's handle (R298). -/
def gHandle (v : UnitId) (g : GUnit) (slot : Nat) : Word := BitVec.ofNat 32 (pack [(8, slot), (2, g.code), (8, v.idx), (1, v.die)])

-- fields of a graphics descriptor (R299)

namespace GSlot

def field_ (g : GSlot) (i : Nat) : Nat := (g.desc.getD i 0).toNat
def nb (g : GSlot) : Nat := g.field_ 0
def pb (g : GSlot) : Nat := g.field_ 1
def sentry (g : GSlot) : Dword := g.desc.getD 3 0
def bq (g : GSlot) : Nat := g.field_ 4

end GSlot

/-- A graphics descriptor keeps to R299. -/
def traceDescOk (d : List Dword) : Bool :=
  let f := fun i => (d.getD i 0).toNat
  f 2 == 0 && f 5 / 2 ^ 16 == 0 && f 6 == 0 && f 7 == 0 && f 1 % 16 == 0 && f 0 % 64 == 0

/-- A refit descriptor keeps to R313 and to the alignment of the structures it names (R299, R302). -/
def refitDescOk (d : List Dword) : Bool :=
  let f := fun i => (d.getD i 0).toNat
  f 7 == 0 && f 0 % 64 == 0

/-- A slot's work as it starts (R291, R298). -/
def startSlot (s : State) (u : UnitId) (g : GUnit) (n : Nat) (any : Bool) (at_ : Dword) (ds : List Dword) (l : Nat)
    (inp : List Word) : GSlot :=
  let entry := field (ds.getD 5 0).toNat 0 16
  { (default : GSlot) with
    warp := s.cur.slot, unit := u, lane := l, ctx := s.curCtx, owner := s.curW.startSeq
    m := inp.zipIdx.foldl (fun t x => t.set x.2 x.1) []
    res := if g = .trav then [inp.getD 7 0, 0xFFFFFFFF, 0, 0] else [0, 0, 0, 0]
    latch := List.replicate 16 0, desc := ds, descAddr := at_, any := any, pc := entry
    st := if entry < n then .running else .ended
    cause := if entry < n then 0 else BitVec.ofNat 8 Cause.mtarget }

namespace State

def gslot (s : State) (v : UnitId) (g : GUnit) (slot : Nat) : Option GSlot := (s.core v).gslots.get (gkey g slot)

def setGslot (s : State) (v : UnitId) (g : GUnit) (slot : Nat) (x : Option GSlot) : State :=
  s.modCore v fun c => { c with gslots := c.gslots.set (gkey g slot) x }

def freeGslots (s : State) (v : UnitId) (g : GUnit) : List Nat := (List.range (gcap g)).filter fun i => (s.gslot v g i).isNone

/-- The 64 bytes of a descriptor that a form reads at issue on the TRV path (R298, R310, R313): its dwords, or what strikes
the lanes. One that is not 64-byte aligned breaks its layout. -/
def trvBlock (s : State) (a : Dword) (al cause : Nat) : Except (Nat × Dword × Dword) (List Dword) :=
  let u := s.cur.unit
  if a.toNat % al ≠ 0 then .error (cause, 0, 0)
  else
    let ps := (cut4k a.toNat 64).map fun p => match s.xlate u (s.cur.slot != trapSlot) .read (p.1 % 2 ^ 64) with
      | .error e => Except.error (tCause .trv e, tInfo e .read 1, BitVec.ofNat 64 p.1)
      | .ok x =>
        if s.lostPa u.die x.pa then .error (Cause.dielost, 0, BitVec.ofNat 64 p.1)
        else match s.homeBad x.pa p.2 with
          | some (c, g) => .error (c, 0, BitVec.ofNat 64 g)
          | none => .ok (memBytes s.mem x.pa p.2)
    match errs ps with
    | e :: _ => .error e
    | [] => .ok ((List.range 8).map fun i => BitVec.ofNat 64 (field (ofBytes (oks ps).flatten) (64 * i) 64))

/-- A form that reads one descriptor for its path: struck where the descriptor is refused or breaks its layout. -/
def descForm (s : State) (h : Head) (a : Dword) (al cause : Nat) (ok : List Dword → Bool) (f : Lanes → List Dword → State) : State :=
  let m := s.execLanes h
  if m = 0 then s.advance
  else match s.trvBlock a al cause with
    | .error (c, i, x) => (s.raiseOnce m ⟨0, c, i, x⟩).advance
    | .ok ds => if ok ds then f m ds else (s.raiseAll m cause).advance

end State

def execTrace (h : Head) (d a : VReg) (b : KReg) (g : GUnit) (any : Bool) (s : State) : Host.Outcome State Fault Refusal :=
  let v := gcoreOf s.cur.unit s.cur.slot
  let n := ((s.core v).cstores.get g.code).n
  let m := s.execLanes h
  let at_ := s.rk b.toNat
  .next (if m ≠ 0 ∧ n = 0 then (s.raiseAll m Cause.csempty).advance
    else s.descForm h at_ 64 Cause.tracedesc traceDescOk fun m ds =>
      let free := s.freeGslots v g
      let ls := lanes m
      if free.length < ls.length then s.blocked
      else
        let (slots, s) := State.pickFree ls.length s free
        let work := ls.map fun l => startSlot s s.cur.unit g n any at_ ds l ((List.range 8).map fun i => s.rv l (a.toNat + i))
        let s := (slots.zip work).foldl (fun s x => s.setGslot v g x.1 (some x.2)) s
        (s.inFlight h m false 0 ((ls.zip slots).map fun x => s.vres x.1 d.toNat (gHandle v g x.2))).advance)

namespace State

/-- The sequencer slot a handle names for a warp or thread; none where the handle names no busy slot of its core (R300,
R375). -/
def handleSlotOf (s : State) (x : Word) : Option (GUnit × Nat × GSlot) :=
  let v := gcoreOf s.cur.unit s.cur.slot
  let slot := field x.toNat 0 8
  let go := fun (g : GUnit) => if x = gHandle v g slot then (s.gslot v g slot).map fun y => (g, slot, y) else none
  match field x.toNat 8 2 with
  | 0 => go .trav | 1 => go .raster | 2 => go .depth | _ => none

/-- The strike that a slot ended by a cause brings its lane (R375, R402). -/
def slotStrike (l : Nat) (x : Word) (g : GSlot) : Strike :=
  ⟨l, g.cause.toNat, if g.cause.toNat = Cause.poolfull then g.info.setWidth 64 else x.setWidth 64, BitVec.ofNat 64 g.pc⟩

end State

def execTqry (h : Head) (d a : VReg) (keep : Bool) (s : State) : Host.Outcome State Fault Refusal :=
  let m := s.execLanes h
  let v := gcoreOf s.cur.unit s.cur.slot
  let hs := (lanes m).map fun l => (l, s.rv l a.toNat, s.handleSlotOf (s.rv l a.toNat))
  let bad := hs.filterMap fun x => match x.2.2 with
    | none => some (⟨x.1, Cause.tqryslot, 0, 0⟩ : State.Strike)
    | some _ => none
  let good := hs.filterMap fun x => x.2.2.map fun y => (x.1, x.2.1, y)
  .next (if m = 0 then s.advance
    else
      let s := s.raise bad
      if good = [] then s.advance
      else if good.any fun x => x.2.2.2.2.st != .ended then s.blocked
      else
        let struck := good.filter fun x => x.2.2.2.2.cause != 0
        let fine := good.filter fun x => x.2.2.2.2.cause == 0
        let freed := (if keep then [] else fine) ++ struck.filter fun x => resOf x.2.2.2.2.cause.toNat == 0
        let s := freed.foldl (fun s x => s.setGslot v x.2.2.1 x.2.2.2.1 none) s
        let res := fine.flatMap fun x => (List.range 4).map fun i => s.vres x.1 (d.toNat + i) (x.2.2.2.2.res.getD i 0)
        let s := s.raise (struck.map fun x => State.slotStrike x.1 x.2.1 x.2.2.2.2)
        (s.inFlight h (laneSet (fine.map (·.1))) false 0 res).advance)

-- texture (R308 to R310)

namespace State

/-- One lane's sample: its record and texel accesses, or its results free where the descriptor's limits leave no level. -/
structure TexLane where
  lane : Nat
  rec_ : Option TexRec
  deriving DecidableEq, Repr, Inhabited

/-- The texel accesses of a lane, or the cause that strikes it. -/
def texAccs (s : State) (l : Nat) (r : TexRec) : Except Strike (List Acc) :=
  let as := r.taps.map fun (t : TexTap) => s.accOf .trv .read r.desc.texel l (r.desc.addr t.level t.i t.j % 2 ^ 64)
  match errs as with
  | e :: _ => .error e
  | [] => .ok (oks as)

/-- Free values for the four channels of lanes. -/
def freeTexels (d : VReg) : List Nat → State → List RegVal × State
  | [], s => ([], s)
  | l :: r, s =>
    let (a, s) := s.drawFree
    let (b, s) := s.drawFree
    let (c, s) := s.drawFree
    let (e, s) := s.drawFree
    let (rs, s) := freeTexels d r s
    ([a, b, c, e].zipIdx.map (fun x => s.vres l (d.toNat + x.2) (x.1.setWidth 32)) ++ rs, s)

/-- The accesses of one lane's texels, each word of them a result of the sample. -/
def texOps (s : State) (as : List Acc) (texel : Nat) : List MemOp :=
  as.zipIdx.map fun p =>
    { s.newOp .load .trv p.1 with
      n := texel, leased := !p.1.nocache && !onExpander p.1.pa
      dst := (List.range (texel / 4)).map fun j => ⟨.x, texWordNo p.2 j, p.1.lane, 0⟩ }

/-- What the three texture forms share: `lod` gives a lane's lambda, `gather` the channel of TEXG plus one. -/
def texForm (s : State) (h : Head) (d a : VReg) (b : KReg) (gather : Nat) (lam : TexDesc → Nat → Rat) : State :=
  s.descForm h (s.rk b.toNat) 64 Cause.texdesc (fun ds => (texDesc? fun i => (ds.getD i 0).toNat).isSome) fun m ds =>
    let t := (texDesc? fun i => (ds.getD i 0).toNat).getD default
    let dst := (List.range 4).map fun i => s.curW.phys (d.toNat + i)
    let mk := fun (l : Nat) => (texLod t (t.mipf && gather == 0) (lam t l)).map fun x =>
      (⟨(s.rv l a.toNat).toNat, (s.rv l (a.toNat + 1)).toNat, x, gather, dst, t⟩ : TexRec)
    let open_ := (lanes m).filter fun l => (mk l).isNone
    let recs := (lanes m).filterMap fun l => (mk l).map fun r => (l, r, s.texAccs l r)
    let bad := recs.filterMap fun x => match x.2.2 with | .error e => some e | .ok _ => none
    let good := recs.filterMap fun x => match x.2.2 with | .ok as => some (x.1, x.2.1, as) | .error _ => none
    let s := s.raise (countLanes bad)
    let (res, s) := freeTexels d open_ s
    let ls := laneSet (open_ ++ good.map (·.1))
    let id := s.nextId
    if good = [] then (s.inFlight h ls false 0 res).advance
    else
      let s := s.issueOps h ls (good.flatMap fun x => s.texOps x.2.2 t.texel)
      (s.modCur fun w => { w with pend := w.pend.map fun (q : Pend) =>
        if q.id == id then { q with res := q.res ++ res, tex := good.map fun x => (x.1, x.2.1) } else q }).advance

/-- Lambda of a lane's quad (R310); where a difference is not finite, neither is lambda, which is then read as 0 (R309, log 88). -/
def quadLambda (s : State) (a : VReg) (t : TexDesc) (l : Nat) : Rat :=
  let q := l / 4 * 4
  let gone := fun (j : Nat) => decide (s.curW.width ≤ j) || s.curW.exited.getLsbD j
  let at_ := fun (x j : Nat) => Num.decodeF Num.f32 (s.crossRead j x 0).toNat
  let diff := fun (x j : Nat) => if gone q || gone (q + j) then Num.FVal.fin false 0 else Num.add (at_ x (q + j)) (Num.neg (at_ x q))
  let ds := [(a.toNat, 1, t.w), (a.toNat, 2, t.w), (a.toNat + 1, 1, t.h), (a.toNat + 1, 2, t.h)].map fun x =>
    match diff x.1 x.2.1 with
    | .fin _ r => some ((if r < 0 then -r else r) * (x.2.2 : Rat))
    | _ => none
  let rho := ds.foldl (fun (x : Rat) y => let z := y.getD 0; if x < z then z else x) 0
  if ds.any (·.isNone) ∨ rho = 0 ∨ s.curW.width = 1 then 0 else log2Rat rho

end State

def execTexs (h : Head) (d a : VReg) (b : KReg) (s : State) : Host.Outcome State Fault Refusal :=
  .next (s.texForm h d a b 0 fun t l => s.quadLambda a t l)

def execTexl (h : Head) (d a : VReg) (b : KReg) (s : State) : Host.Outcome State Fault Refusal :=
  .next (s.texForm h d a b 0 fun _ l => finiteF32 (s.rv l (a.toNat + 2)).toNat)

def execTexg (h : Head) (d a : VReg) (b : KReg) (c : BitVec 2) (s : State) : Host.Outcome State Fault Refusal :=
  .next (s.texForm h d a b (c.toNat + 1) fun _ l => finiteF32 (s.rv l (a.toNat + 2)).toNat)

-- the ordered interlock (R311, R312)

namespace State

/-- The entry a ticket names, where it is bound to a lane of the issuing warp. -/
def ticketOf (s : State) (l : Nat) (x : Word) : Option ILock :=
  match (s.unitSlice s.cur.unit).ilock.get x.toNat with
  | some e => if e.st = 2 ∧ e.unit = s.cur.unit ∧ e.slot = s.cur.slot ∧ e.lane = l ∧ e.uid = s.curW.startSeq then some e else none
  | none => none

/-- Lanes with their tickets' entries, and those struck for a ticket that is not theirs. -/
def ticketsOf (s : State) (m : Lanes) (a : VReg) : List (Nat × Nat × ILock) × List Strike :=
  let ts := (lanes m).map fun l => (l, (s.rv l a.toNat).toNat, s.ticketOf l (s.rv l a.toNat))
  (ts.filterMap fun x => x.2.2.map fun e => (x.1, x.2.1, e),
   ts.filterMap fun x => if x.2.2.isNone then some ⟨x.1, Cause.ordticket, 0, 0⟩ else none)

/-- An earlier entry of the key of an entry is not released. -/
def earlierOpen (s : State) (e : ILock) : Bool :=
  (ilocks (s.unitSlice s.cur.unit)).any fun q => q.2.key == e.key && decide (q.2.order < e.order) && !s.ilockReleased q.2

end State

def execOrdb (h : Head) (a : VReg) (s : State) : Host.Outcome State Fault Refusal :=
  let m := s.execLanes h
  let (good, bad) := s.ticketsOf m a
  .next (if m = 0 then s.advance
    else
      let s := s.raise bad
      if good = [] then s.advance
      else if good.any fun x => s.earlierOpen x.2.2 then s.blocked
      else ((s.acquireAll s.cur.unit).tokenOnly h (laneSet (good.map (·.1)))).advance)

def execOrde (h : Head) (a : VReg) (s : State) : Host.Outcome State Fault Refusal :=
  let m := s.execLanes h
  let u := s.cur.unit
  let (good, bad) := s.ticketsOf m a
  .next (if m = 0 then s.advance
    else
      let s := s.raise bad
      let s := s.modSlice u.die (sliceOf u) fun sl => { sl with
        ilock := good.foldl (fun (t : Tab (Option ILock)) x => t.set x.2.1 (some { x.2.2 with st := 3, rel := s.nextId })) sl.ilock }
      ((s.ilockSweep u.die (sliceOf u)).tokenOnly h (laneSet (good.map (·.1)))).advance)

-- refit (R313)

def execRefit (h : Head) (d a : KReg) (s : State) : Host.Outcome State Fault Refusal :=
  .next (s.descForm h (s.rk a.toNat) 1 Cause.refitdesc refitDescOk fun m ds =>
    match s.freeFslot s.curCtx with
    | none => s.blocked
    | some k =>
      let (hd, s) := s.newHandle s.curCtx k
      let s := s.modDie s.cur.unit.die fun x => { x with
        refitQ := x.refitQ ++ [{ (default : RefitJob) with desc := ds, ctx := s.curCtx, handle := hd }] }
      (s.inFlight h m false 0 [State.kres d.toNat (hd.setWidth 64)]).advance)

end Sys2Proof.Machine
end

