-- ==== Sys2Proof/Machine/Micro.lean ====
section
/-! DEFINITION. The graphics sequencers: issuing a microword, the meanings of the microwords, data that returns, lazy building
and interlock registration (R289 to R295, R301 to R304, R306, R307, R311, R402, R406, R425). -/
namespace Sys2Proof.Machine

open Bits Sys2Proof.Num

namespace GSlot

def rd (g : GSlot) (r : BitVec 6) : Word := g.m.get r.toNat
def wr (g : GSlot) (r : Nat) (x : Word) : GSlot := { g with m := g.m.set r x }
def wrAll (g : GSlot) (r : Nat) (xs : List Word) : GSlot := { g with m := xs.zipIdx.foldl (fun t x => t.set (r + x.2) x.1) g.m }

/-- Flags; f7 reads 1 and ignores writes (R291). -/
def flag (g : GSlot) (c : BitVec 6) : Bool := c.toNat == 7 || g.f.getLsbD c.toNat
def setFlag (g : GSlot) (d : BitVec 6) (b : Bool) : GSlot :=
  if 7 ≤ d.toNat then g
  else { g with f := if b then g.f ||| BitVec.ofNat 7 (2 ^ d.toNat) else g.f &&& ~~~ BitVec.ofNat 7 (2 ^ d.toNat) }

/-- The next microword in sequence (R294). -/
def next (g : GSlot) : GSlot := { g with pc := g.pc + 1, st := .running }

/-- The slot's work ends (R294, R295). -/
def stop (g : GSlot) (c : Nat) (info : Word) : GSlot := { g with st := .ended, cause := BitVec.ofNat 8 c, info := info }

end GSlot

/-- An immediate taken under IM (R293). -/
def immWord (m : Micro) : Word := if m.int then m.imm.signExtend 32 else m.imm ++ (0 : BitVec 16)

namespace State

def mslot (s : State) : GSlot := (s.gslot s.mcur.unit s.mcur.g s.mcur.slot).getD default

def setMslot (s : State) (g : GSlot) : State := s.setGslot s.mcur.unit s.mcur.g s.mcur.slot (some g)

/-- Microwords in the control store of the sequencer that issues. -/
def mcount (s : State) : Nat := ((s.core s.mcur.unit).cstores.get s.mcur.g.code).n

/-- The slot ends with a cause that is raised at its TQRY (R295, R375). -/
def mstop (s : State) (c : Nat) : State := s.setMslot (s.mslot.stop c 0)

/-- A microword that changes only its slot and goes on. -/
def mstep (s : State) (f : GSlot → GSlot) : State := s.setMslot (f s.mslot).next

/-- A microword with a range of n registers from r on (R295). -/
def mrange (s : State) (r : BitVec 6) (n : Nat) (f : State) : State := if 64 < r.toNat + n then s.mstop Cause.mrange else f

/-- A microword with a target (R295). -/
def mtarget (s : State) (m : Micro) (f : State) : State := if s.mcount ≤ m.imm.toNat then s.mstop Cause.mtarget else f

/-- The control-store granule of a microword with an uncorrectable error. -/
def csBad (s : State) (v : UnitId) (g : GUnit) (pc : Nat) : Bool := (s.badIn (.control v) 8 (8 * (4096 * g.code + pc)) 8).isSome

/-- A sequencer slot that issues when its turn comes (R292): it runs or tries again, on a slice that runs. -/
def microReady (s : State) (u : UnitId) (g : GUnit) (slot : Nat) : Bool :=
  match s.gslot u g slot with
  | some x => (s.unitSlice u).st == .running && !(s.core u).halted && (x.st == .running || x.st == .retry)
  | none => false

/-- The slot that a sequencer issues from: the first ready one after that it last issued, in slot order (R292). -/
def microChoice (s : State) (u : UnitId) (g : GUnit) : Option Nat :=
  let t := (s.core u).gturn.get g.code
  let all := List.range (gcap g)
  ((all.filter fun i => decide (t ≤ i)) ++ all.filter fun i => decide (i < t)).find? (s.microReady u g)

/-- The microword a sequencer slot issues (R292), where its slot runs or tries again on a slice that runs; otherwise the
state with nothing changed, or with the slot ended by what is wrong with the microword (R295, R377, R406). -/
def microPrep (s : State) (u : UnitId) (g : GUnit) (slot : Nat) : Except State (Instr × State) :=
  match s.gslot u g slot with
  | none => .error s
  | some x =>
    if !s.microReady u g slot then .error s
    else
      let s := { s.modCore u fun c => { c with gturn := c.gturn.set g.code (slot + 1) } with mcur := ⟨u, g, slot⟩ }
      let c := (s.core u).cstores.get g.code
      if c.n ≤ x.pc then .error (s.mstop Cause.mtarget)
      else if s.csBad u g x.pc then .error (s.mstop Cause.csecc)
      else match decodeMicro (c.words.get x.pc) with
        | some i => .ok (i, s)
        | none => .error (s.mstop Cause.mrsv)

-- accesses of a slot (R301)

/-- Translation of an access of the lane that started a slot. -/
def mxlate (s : State) (v : UnitId) (g : GSlot) (need : Need) (va : Nat) : Except TFault Xlat := s.xlate v (g.warp != trapSlot) need va

/-- Where a fetch microword reads, and how many bytes; none for every other microword. -/
def fetchOf (g : GSlot) (i : Instr) : Option (Nat × Nat) :=
  match i with
  | .nfetchFetch m => some ((g.nb + 64 * (g.rd m.a).toNat) % 2 ^ 64, 64)
  | .pfetch m => some ((g.pb + 48 * (g.rd m.a).toNat) % 2 ^ 64, 4 * m.imm.toNat)
  | _ => none

/-- The cause of a fetch that is refused (R295, R375, R425). -/
def fetchCause (e : TFault) : Nat := if 5 < e.kind then e.kind else Cause.mfetch

/-- A fetch holds its slot until the data is in place (R292); an address without a mapping ends its work (R295). -/
def mfetch (s : State) (i : Instr) : State :=
  let g := s.mslot
  match fetchOf g i with
  | none => s
  | some (a, n) =>
    match s.mxlate s.mcur.unit g .read a, s.mxlate s.mcur.unit g .read ((a + n - 1) % 2 ^ 64) with
    | .ok _, .ok _ => s.setMslot { g with st := .fetch, fetch := some i }
    | .error e, _ | .ok _, .error e => s.mstop (fetchCause e)

/-- The data of a fetch is read at home, each word once, and put in place, once the regulator of its class lets it (R267, R301,
R406, R425). -/
def fetchReturn (s : State) : State :=
  let g := s.mslot
  let v := s.mcur.unit
  match g.fetch with
  | none => s
  | some i =>
    match fetchOf g i with
    | none => s
    | some (a, n) =>
      let ws := (List.range (n / 4)).map fun j => s.mxlate v g .read ((a + 4 * j) % 2 ^ 64)
      let pas := (oks ws).map (·.pa)
      match errs ws with
      | e :: _ => s.mstop (fetchCause e)
      | [] =>
      if pas.any (s.lostPa v.die) then s.mstop Cause.dielost
      else match pas.findSome? fun p => s.homeBad p 4 with
        | some (c, _) => s.mstop c
        | none =>
          let xs := pas.map fun p => BitVec.ofNat 32 (s.peek p 4)
          let ls := (pas.map fun p => 128 * (p / 128)).eraseDups
          match s.meterFor v .trv (128 * ls.length) with
          | none => s
          | some s =>
          let s := s.touchLines (s.partOf v) (reqClass v .trv) ls
          let s := pas.foldl (fun s p => if onExpander p then s
            else s.modAgent (unitNo v) fun x => { x with pts := later x.pts (s.lineTs p).wts }) s
          let g := { g with fetch := none }
          match i with
          | .pfetch m => s.setMslot (g.wrAll m.d.toNat xs).next
          | _ => s.setMslot ({ g with latch := xs } : GSlot).next

end State

def execNfetchFetch (m : Micro) (s : State) : Host.Outcome State Fault Refusal := .next (s.mfetch (.nfetchFetch m))

def execNfetchRaw (m : Micro) (s : State) : Host.Outcome State Fault Refusal :=
  .next (s.mrange m.d 16 (s.mstep fun g => g.wrAll m.d.toNat ((List.range 16).map fun i => g.latch.getD i 0)))

-- the default node (R302, R304)

/-- n bits of a node from bit lo up. -/
def nodeField (ws : List Word) (lo n : Nat) : Nat := field (pack (ws.map fun w => (32, w.toNat))) lo n

/-- The bound of a child on an axis, 0 to 2, low or high: ORIGIN plus the byte times the scale. -/
def childBound (ws : List Word) (i a : Nat) (hi : Bool) : FVal :=
  let o := decodeF f32 (nodeField ws (32 * a) 32)
  let sc : Rat := pow2 ((nodeField ws (96 + 8 * a) 8 : Nat) - 127 : Int)
  let q := nodeField ws (256 + 48 * i + 8 * (if hi then a + 3 else a)) 8
  add o (.fin false (((q : Nat) : Rat) * sc))

def childRef (ws : List Word) (i : Nat) : Nat := nodeField ws (128 + 32 * i) 32
def childLeaf (ws : List Word) (i : Nat) : Bool := nodeField ws (120 + i) 1 == 1
def childUnb (ws : List Word) (i : Nat) : Bool := nodeField ws (124 + i) 1 == 1

/-- The eight words that NFETCH.child decodes (R304). -/
def childWords (ws : List Word) (i : Nat) : List Word :=
  let c := childRef ws i
  let lo := (List.range 3).map fun a => BitVec.ofNat 32 (roundF f32 .rdn 0 (childBound ws i a false))
  let hi := (List.range 3).map fun a => BitVec.ofNat 32 (roundF f32 .rup 0 (childBound ws i a true))
  let kind := if c = 0xFFFFFFFF then 0 else if childLeaf ws i then c % 16 + 1 else if childUnb ws i then 18 else 17
  lo ++ hi ++ [BitVec.ofNat 32 (if childLeaf ws i then c / 16 else c), BitVec.ofNat 32 kind]

def execNfetchChild (m : Micro) (s : State) : Host.Outcome State Fault Refusal :=
  .next (s.mrange m.d 8 (s.mstep fun g => g.wrAll m.d.toNat (childWords g.latch ((g.rd m.a).toNat % 4))))

def execPfetch (m : Micro) (s : State) : Host.Outcome State Fault Refusal := .next (s.mrange m.d m.imm.toNat (s.mfetch (.pfetch m)))

-- arithmetic (R294)

def GSlot.opB (g : GSlot) (m : Micro) : Word := if m.im then immWord m else g.rd m.b

/-- An operation of two sources, integer or F32. -/
def GSlot.two (g : GSlot) (m : Micro) (i : Word → Word → Word) (f : Nat → Nat → Nat) : GSlot :=
  let a := g.rd m.a
  let b := g.opB m
  g.wr m.d.toNat (if m.int then i a b else BitVec.ofNat 32 (f a.toNat b.toNat))

def execXfma (m : Micro) (s : State) : Host.Outcome State Fault Refusal :=
  .next (s.mstep fun g =>
    let a := g.rd m.a
    let b := g.rd m.b
    let c := if m.im then immWord m else g.rd m.c
    g.wr m.d.toNat (if m.int then (if m.sn then a * b - c else a * b + c)
      else BitVec.ofNat 32 ((if m.sn then fmsE else fmaE) f32 a.toNat b.toNat c.toNat)))

def execXmul (m : Micro) (s : State) : Host.Outcome State Fault Refusal :=
  .next (s.mstep fun g => g.two m (fun a b => a * b) (mulE f32))

def execXmin (m : Micro) (s : State) : Host.Outcome State Fault Refusal :=
  .next (s.mstep fun g => g.two m (fun a b => if b.toInt < a.toInt then b else a) (minE f32))

def execXmax (m : Micro) (s : State) : Host.Outcome State Fault Refusal :=
  .next (s.mstep fun g => g.two m (fun a b => if a.toInt < b.toInt then b else a) (maxE f32))

def execXcmp (m : Micro) (cc : Cmp) (s : State) : Host.Outcome State Fault Refusal :=
  .next (s.mstep fun g =>
    let a := g.rd m.a
    let b := g.opB m
    g.setFlag m.d ((if m.int then icond cc a b else fcond cc (decodeF f32 a.toNat) (decodeF f32 b.toNat)) && g.flag m.c))

def execXsel (m : Micro) (s : State) : Host.Outcome State Fault Refusal :=
  .next (s.mstep fun g => g.wr m.d.toNat (if g.flag m.c != m.sn then g.rd m.a else g.opB m))

def execXrcp (m : Micro) (s : State) : Host.Outcome State Fault Refusal :=
  .next (s.mstep fun g => g.wr m.d.toNat (BitVec.ofNat 32 (rcpE f32 (g.rd m.a).toNat)))

def execXrcpSq (m : Micro) (s : State) : Host.Outcome State Fault Refusal :=
  .next (s.mstep fun g => g.wr m.d.toNat (BitVec.ofNat 32 (rsqE f32 (g.rd m.a).toNat)))

-- stack and flow (R294); the stack is held topmost entry first

def execSpush (m : Micro) (s : State) : Host.Outcome State Fault Refusal :=
  .next (if 64 ≤ s.mslot.stack.length then s.mstop Cause.mstack else s.mstep fun g => { g with stack := g.rd m.a :: g.stack })

def execSpop (m : Micro) (s : State) : Host.Outcome State Fault Refusal :=
  .next (s.mtarget m (match s.mslot.stack with
    | [] => s.setMslot { s.mslot with pc := m.imm.toNat, st := .running }
    | x :: r => s.mstep fun g => { g.wr m.d.toNat x with stack := r }))

def execMicroGo (m : Micro) (s : State) : Host.Outcome State Fault Refusal :=
  .next (s.mtarget m (s.setMslot { s.mslot with pc := m.imm.toNat, st := .running }))

def execGoif (m : Micro) (s : State) : Host.Outcome State Fault Refusal :=
  .next (s.mtarget m (if s.mslot.flag m.c != m.sn then s.setMslot { s.mslot with pc := m.imm.toNat, st := .running }
    else s.mstep fun g => g))

-- results (R295)

def execEmitHit (m : Micro) (s : State) : Host.Outcome State Fault Refusal :=
  let g := s.mslot
  .next (if fcond .lt (decodeF f32 (g.rd m.a).toNat) (decodeF f32 (g.m.get 7).toNat) then
    let g := ({ g.wr 7 (g.rd m.a) with res := [g.rd m.a, g.rd m.b, g.rd m.c, g.rd m.d] } : GSlot)
    s.setMslot (if g.any then g.stop 0 0 else g.next)
  else s.mstep fun g => g)

def execEmitOut (m : Micro) (s : State) : Host.Outcome State Fault Refusal :=
  .next (s.mrange m.a 4 (s.mstep fun g => { g with res := (List.range 4).map fun i => g.m.get (m.a.toNat + i) }))

namespace State

/-- An interlock registration that sent no record is taken back. -/
def dropTicket (s : State) (g : GSlot) : State :=
  if g.waitAt = 0 then s
  else
    let u := s.mcur.unit
    (s.modSlice u.die (sliceOf u) fun sl => { sl with ilock := sl.ilock.set (g.waitAt - 1) none }).ilockSweep u.die (sliceOf u)

/-- A record goes to SENTRY as if the starting lane had issued SPAWN (R25, R295): once the lane's earlier LSU accesses are
performed (R155). It waits where that waits, for a pool slot 65,536 ticks at most (R402). A record with a ticket lies in its pool
slot under it (R311). -/
def mspawn (s : State) (rec : List Word) (ticket : Option Nat) : State :=
  let g := s.mslot
  let now := s.pace s.mcur.unit.die
  let prio := match s.warp g.unit g.warp with | some w => w.prio | none => 0
  if s.ownerHere g.unit g.warp g.owner && s.lsuBusy g.unit g.warp (lane g.lane) then s.setMslot { g with st := .retry, tick := now }
  else match s.spawnOne g.unit (g.warp != trapSlot) g.ctx prio g.sentry rec g.pool with
  | .done s slot =>
    let s := match ticket with
      | some t => s.modCtxRt g.ctx fun c => { c with ticketed := c.ticketed ++ [(slot, t)] }
      | none => s
    s.setMslot { g.next with waitAt := 0, pool := none }
  | .fault _ _ _ => ((s.poolBack g.ctx g.pool).dropTicket g).setMslot { g.stop Cause.spawnrec 0 with waitAt := 0, pool := none }
  | .waits s pool =>
    let since := if g.st = .retry ∧ pool = none then g.tick else now
    if since + 65536 ≤ now ∧ pool = none then
      (s.dropTicket g).setMslot { g.stop Cause.poolfull (BitVec.ofNat 32 (s.ctxDesc g.ctx).spcount) with waitAt := 0 }
    else s.setMslot { g with st := .retry, tick := since, pool := pool }

/-- The record of EMIT.spawn and EMIT.spord. -/
def mrecord (s : State) (m : Micro) : List Word := (List.range 16).map fun i => s.mslot.m.get (m.a.toNat + i)

/-- A record with the ticket of its registration in word 15 (R311). -/
def withTicket (rec : List Word) (t : Nat) : List Word := rec.set 15 (BitVec.ofNat 32 t)

end State

def execEmitSpawn (m : Micro) (s : State) : Host.Outcome State Fault Refusal := .next (s.mrange m.a 16 (s.mspawn (s.mrecord m) none))

def execEmitSpord (m : Micro) (s : State) : Host.Outcome State Fault Refusal :=
  let g := s.mslot
  .next (s.mrange m.a 16 (
    if g.waitAt = 0 then s.setMslot { g with st := .order, fetch := some (.emitSpord m) }
    else s.mspawn (State.withTicket (s.mrecord m) (g.waitAt - 1)) (some (g.waitAt - 1))))

def execMicroDone (_m : Micro) (s : State) : Host.Outcome State Fault Refusal := .next (s.setMslot (s.mslot.stop 0 0))

-- lazy building (R306, R307)

namespace State

/-- A builder-queue header where it keeps to R306: BASE, WIDX, RIDX and LOG2N. -/
def buildQueue (s : State) (v : UnitId) (g : GSlot) : Option (Nat × Nat × Nat × Nat) :=
  let ps := (List.range 64).map fun i => s.mxlate v g .rw ((g.bq + i) % 2 ^ 64)
  match errs ps with
  | [] =>
    let h := ofBytes ((oks ps).map fun x => s.mem.get x.pa)
    if h / 2 ^ 196 ≠ 0 ∨ field h 0 64 % 32 ≠ 0 then none
    else some (field h 0 64, field h 64 64, field h 128 64, field h 192 4)
  | _ => none

/-- Stores of the device for a slot, at addresses of its context. -/
def mstore (s : State) (g : GSlot) (va n x : Nat) : State :=
  match s.mxlate s.mcur.unit g .write va with
  | .ok p => s.devStoreN p.pa n x
  | .error _ => s

/-- DONE of a builder-queue entry. -/
def entryDone (s : State) (v : UnitId) (g : GSlot) (e : Nat) : Bool :=
  match s.mxlate v g .read ((e + 16) % 2 ^ 64) with
  | .ok p => s.peek p.pa 4 != 0
  | .error _ => false

/-- LAZY for a node (R307). -/
def mlazy (s : State) (m : Micro) : State :=
  let g := s.mslot
  let v := s.mcur.unit
  let node := g.rd m.a
  let merge := (s.die v.die).merge
  let parked := fun (e : Nat) => ({ g with st := .lazy, waitAt := e, fetch := some (.lazy m) } : GSlot)
  if g.bq = 0 then s.mstop Cause.lazynoq
  else match merge.find? fun k => k.1 == g.ctx && k.2.1 == g.descAddr && k.2.2.2 == node with
    | some k => s.setMslot (parked k.2.2.1)
    | none => match s.buildQueue v g with
      | none => s.mstop Cause.buildq
      | some (base, widx, ridx, log2n) =>
        let e := (base + 32 * (widx % 2 ^ log2n)) % 2 ^ 64
        let ok := match s.mxlate v g .rw e with | .ok _ => true | .error _ => false
        if 2 ^ log2n ≤ (widx + 2 ^ 64 - ridx) % 2 ^ 64 ∨ 256 ≤ merge.length then s.setMslot { g with st := .retry }
        else if !ok then s.mstop Cause.buildq
        else
          let s := s.mstore g ((e + 16) % 2 ^ 64) 4 0
          let s := s.mstore g ((e + 8) % 2 ^ 64) 4 node.toNat
          let s := s.mstore g e 8 g.descAddr.toNat
          let s := s.mstore g (g.bq + 8) 8 ((widx + 1) % 2 ^ 64)
          let s := s.modDie v.die fun d => { d with merge := d.merge ++ [(g.ctx, g.descAddr, e, node)] }
          s.setMslot (parked e)

end State

def execLazy (m : Micro) (s : State) : Host.Outcome State Fault Refusal := .next (s.mtarget m (s.mlazy m))

-- events

def execFetchDataReturn (u : UnitId) (g : GUnit) (slot : Nat) (s : State) : Host.Outcome State Fault Refusal :=
  .next (match s.gslot u g slot with
    | some x => if x.st = .fetch ∧ (s.unitSlice u).st ≠ .idle then ({ s with mcur := ⟨u, g, slot⟩ } : State).fetchReturn else s
    | none => s)

def execLazyWake (u : UnitId) (g : GUnit) (slot : Nat) (s : State) : Host.Outcome State Fault Refusal :=
  .next (match s.gslot u g slot with
    | some x => match x.st, x.fetch with
      | .lazy, some (.lazy m) =>
        if (s.unitSlice u).st ≠ .running ∨ !s.entryDone u x x.waitAt then s
        else
          let s := s.modDie u.die fun d => { d with
            merge := d.merge.filter fun k => !(k.1 == x.ctx && k.2.1 == x.descAddr && k.2.2.1 == x.waitAt) }
          s.setGslot u g slot (some { x with st := .running, pc := m.imm.toNat, waitAt := 0, fetch := none })
      | _, _ => s
    | none => s)

def execInterlockRegistration (u : UnitId) (g : GUnit) (slot : Nat) (s : State) : Host.Outcome State Fault Refusal :=
  .next (match s.gslot u g slot with
    | some x => match x.st, x.fetch with
      | .order, some (.emitSpord m) =>
        if (s.unitSlice u).st ≠ .running then s
        else
          let s := ({ s with mcur := ⟨u, g, slot⟩ } : State).ilockSweep u.die (sliceOf u)
          let sl := s.unitSlice u
          match (List.range 4096).find? fun k => (sl.ilock.get k).isNone with
          | none => s
          | some k =>
            let e : ILock := { (default : ILock) with key := x.rd m.a, order := sl.ilockSeq, st := 1 }
            let s := s.modSlice u.die (sliceOf u) fun sl => { sl with
              ilock := sl.ilock.set k (some e), ilockSeq := sl.ilockSeq + 1 }
            (s.setMslot { x with st := .running, fetch := none, waitAt := k + 1 }).mspawn (State.withTicket (s.mrecord m) k) (some k)
      | _, _ => s
    | none => s)

end Sys2Proof.Machine
end

