-- ==== Sys2Proof/Machine/Image.lean ====
section
/-! DEFINITION. The sections of a slice image as a switch writes them (R280 to R287, R316, R317). -/
namespace Sys2Proof.Machine

open Bits

/-- Dwords filled with zeros up to n. -/
def padDwords (ds : List Nat) (n : Nat) : List Nat := ds ++ List.replicate (n - ds.length) 0

/-- A section ends at a multiple of 4 KiB (R280). -/
def padPages (ds : List Nat) : List Nat := padDwords ds (cdiv ds.length 512 * 512)

def chanCode : ChanSt → Nat
  | .idle => 0 | .armed => 1 | .filling => 2 | .done => 3

/-- A channel record (R282). -/
def chanDwords (c : Chan) (trec : Nat) : List Nat := [pack [(2, chanCode c.st), (6, 0), (6, trec), (18, 0), (32, c.wm)], pack [(32, c.lo), (32, c.hi)]]

/-- A bin record (R282). -/
def binDwords (b : Option Bin) : List Nat :=
  match b with
  | none => List.replicate 32 0
  | some b => padDwords ([b.key.toNat, b.deadline, b.slots.length, 0] ++ dwordsOf (pack (b.slots.map fun i => (32, i))) 16) 32

/-- A team record (R282). -/
def teamDwords (t : Team) : List Nat :=
  let src := match t.src with
    | .grid q r => pack [(4, q), (4, 0), (56, r)]
    | _ => 16
  padDwords ([src, pack [(28, t.idx), (4, min t.heat 15), (6, t.nwarps), (2, 0), (7, t.grant.length), (1, 0), (3, t.carve)]] ++
    (List.range 16).map fun h => let x := t.hurdles.get h; pack [(32, x.cnt), (20, 0), (11, x.exp), (1, ofBool x.ph)]) 32

/-- Storage of bytes as dwords, n of them from byte a on. -/
def scrDwords (t : Tab Byte) (a n : Nat) : List Nat := (List.range n).map fun i => ofBytes (t.slice (a + 8 * i) 8)

/-- The state code of a sequencer slot's work (R316): a fetch is over at the boundary. -/
def gstCode : GSt → Nat
  | .ended => 3 | .lazy => 2 | _ => 1

namespace GSlot

/-- A ray record (R316). -/
def ray (g : GSlot) (key : Nat) (ident : Word) : List Nat :=
  let ws := fun (xs : List Nat) (n : Nat) => dwordsOf (pack (xs.map fun x => (32, x))) n
  [pack [(8, key % 256), (2, key / 256), (2, gstCode g.st), (12 + 4, 16 * g.pc), (7, g.stack.length), (7, g.f.toNat), (1, ofBool g.any)],
   pack [(32, ident.toNat), (5, g.lane)], if g.st = .lazy then g.waitAt else 0] ++ List.replicate 5 0 ++
  (List.range 8).map (fun i => (g.desc.getD i 0).toNat) ++
  ws ((List.range 16).map fun i => (g.latch.getD i 0).toNat) 8 ++ ws ((List.range 4).map fun i => (g.res.getD i 0).toNat) 2 ++
  List.replicate 6 0 ++ ws ((List.range 64).map fun i => (g.m.get i).toNat) 32 ++
  ws ((List.range 64).map fun i => (g.stack.reverse.getD i 0).toNat) 32

end GSlot

/-- The registration order of an interlock entry as the image holds it: its number while every number of the table fits the
field, else its rank (R317). -/
def ilockOrder (es : List (Nat × ILock)) (e : ILock) : Nat :=
  if es.all fun q => decide (q.2.order < 2 ^ 32) then e.order else (es.filter fun q => decide (q.2.order < e.order)).length

/-- An interlock entry (R317). -/
def ilockDwords (es : List (Nat × ILock)) (e : Option ILock) (ident : Word) : List Nat :=
  match e with
  | none => [0, 0]
  | some e => [pack [(32, e.key.toNat), (32, ilockOrder es e)], pack [(32, ident.toNat), (5, e.lane), (2, e.st)]]

/-- A task or baton entry (R287). -/
def taskDwords (t : TaskEnt) : List Nat :=
  [t.entry.toNat, pack [(32, t.handle.toNat), (2, t.prio)], t.arrived, t.recw.length - 1, t.arg.toNat, 0, 0, 0] ++
  dwordsOf (pack ((List.range 16).map fun i => (32, (t.recw.getD i 0).toNat))) 8 ++ (List.range 32).map fun i => (t.ks.getD i 0).toNat

/-- The vector registers of a thread: 1 KiB (R286). -/
def threadV (w : Warp) : List Nat := (List.range 128).map fun i => (w.v.get (2 * i)).toNat + 2 ^ 32 * (w.v.get (2 * i + 1)).toNat

/-- An image per command, and zeros up to n images (R216, R286). -/
def imagesOf (cs : List Cmd) (n : Nat) : List Nat := padDwords (cs.flatMap imageOf) (40 * n)

/-- The warps of a core in ascending slot order, the trap slot last. -/
def Core.warpList (c : Core) : List (Nat × Warp) := c.warps.filterMap fun p => p.2.map fun w => (p.1, w)

def Core.trecOf (c : Core) (uid : Nat) : Nat := (c.teams.findIdx? fun t => t.uid == uid).getD 0

/-- A trap slot as binding loads it (R366). -/
def trapWarp (d : CtxDesc) (u : UnitId) (seq : Nat) : Warp :=
  { startingWarp d u trapSlot 0 d.trappc 0 seq with exited := 0, gran := if u.kind = .sc then 2 else 32 }

namespace State

/-- The section of a shader core (R281). -/
def scSection (s : State) (u : UnitId) : List Nat :=
  let c := s.core u
  let ws := c.warpList
  let parked := ws.flatMap fun w => ((List.range 32).filterMap fun l => w.2.parked.find? fun p => p.lane == l).flatMap (parkedDwords w.1)
  let rays := c.gslots.filterMap fun p => p.2.map fun g => (p.1, g)
  let parts : List (List Nat) :=
    [ws.flatMap fun w => w.2.record u w.1 (c.trecOf w.2.team),
     ws.flatMap fun w => w.2.vDwords (8 * w.2.gran) false,
     c.teams.flatMap fun t => t.grant.flatMap fun g => scrDwords c.scr (4096 * g) 512,
     if c.teams.any (·.tiles) then (List.range 8192).map fun i => (c.tiles.get (2 * i)).toNat + 2 ^ 32 * (c.tiles.get (2 * i + 1)).toNat
       else [],
     parked,
     rays.flatMap fun g => g.2.ray g.1 (s.warpIdent g.2.unit g.2.warp),
     padDwords [pack ([1, 2, 0].map fun k => (8, (rays.filter fun g => g.1 / 256 == k).length))] 8 ++
       (if u.idx % 8 = 0 then (List.range 4096).flatMap fun t =>
          let e := (s.unitSlice u).ilock.get t
          ilockDwords (ilocks (s.unitSlice u)) e (match e with | some e => s.warpIdent e.unit e.slot | none => 0)
        else [])]
  let offs := (parts.foldl (fun (a : List Nat × Nat) p => (a.1 ++ [a.2], a.2 + 8 * p.length)) ([], 0x6000)).1
  let head := padDwords ([pack [(3, c.carve), (1, 0), (2, c.qp), (2, 0), (7, c.teams.length), (1, 0), (7, ws.length), (1, 0),
      (16, parked.length / 8), (24, rays.length)], 0] ++ offs) 32
  padPages (padDwords (head ++ (List.range 16).flatMap (fun i => chanDwords (c.chans.get i) (c.trecOf (c.chans.get i).team)) ++
    (List.range 128).map (fun i => (c.sq.get i).toNat) ++ (List.range 16).flatMap (fun b => binDwords (c.bins.get b)) ++
    padDwords (c.teams.flatMap teamDwords) 2048) (0x6000 / 8) ++ parts.flatten)

/-- The commands of a queue in the order they are saved, the stopped one first (R286). -/
def savedQueue (s : State) (u : UnitId) (q : Nat) : List Cmd :=
  let e := (s.core u).eng
  ((e.running.get q).toList ++ e.queues.get q).map (s.asSaved u q)

/-- The section of a tensor tile (R286). -/
def ttSection (s : State) (u : UnitId) (d : CtxDesc) : List Nat :=
  let c := s.core u
  let slots := (List.range 8).map fun i => c.warps.get i
  let owner := fun i => match c.warps.get i with | some w => w.startSeq | none => 0
  let has := fun i => (c.warps.get i).isSome
  let cnt := fun t g => if has t then (let x := s.tagCnt u (owner t) g; pack [(32, x.issued), (32, x.raised)]) else 0
  let mode := fun t q => if has t then (let x := s.modeOf u (owner t) q; pack [(3, roundCode x.mode), (29, 0), (32, x.lfsr.toNat)]) else 0
  let tasks := c.taskQ.flatMap taskDwords
  let o := 0x18000 + 8 * tasks.length
  let queues := (List.range 3).flatMap fun i =>
    padDwords ((if (c.eng.running.get i).isSome then [] else List.replicate 40 0) ++ imagesOf (s.savedQueue u i) 0) 1320
  let head := padDwords [pack [(8, (slots.filter (·.isSome)).length), (16, c.taskQ.length)], 0, 0x18000, o, o + 4096 * d.tslive] 32
  padPages (head ++ (List.range 16).flatMap (fun i => chanDwords (c.chans.get i) 0) ++ (List.range 128).map (fun i => (c.sq.get i).toNat) ++
    (List.range 8).flatMap (fun t => (List.range 32).map (cnt t)) ++ (List.range 8).flatMap (fun t => (List.range 3).map (mode t)) ++
    List.replicate 40 0 ++
    (slots.zipIdx.flatMap fun p => match p.1 with | some w => w.record u p.2 0 | none => List.replicate 512 0) ++
    (slots.flatMap fun p => match p with | some w => threadV w | none => List.replicate 128 0) ++
    queues ++ List.replicate 136 0 ++ padDwords ((c.eng.tbuf.map (s.asSaved u 2)).flatMap fun c => imageAt c c.time) (40 * 64) ++ tasks ++
    scrDwords c.scr 0 (512 * d.tslive) ++ scrDwords c.eng.acc 0 (512 * d.acclive))

/-- The section of a relay core (R287); its header counts threads and batons as a tile's does. -/
def rcSection (s : State) (u : UnitId) : List Nat :=
  let c := s.core u
  let slots := (List.range 64).map fun i => c.warps.get i
  padPages (padDwords [pack [(8, (slots.filter (·.isSome)).length), (16, c.taskQ.length)], 0, 0x51000] 512 ++
    (slots.zipIdx.flatMap fun p => match p.1 with | some w => w.record u p.2 0 | none => List.replicate 512 0) ++
    (slots.flatMap fun p => match p with | some w => threadV w | none => List.replicate 128 0) ++ c.taskQ.flatMap taskDwords)

/-- The die copy engine that a slice's units reach, and their commands there, the stopped one first (R201, R287). -/
def dceCmds (s : State) (d i : Nat) : List Cmd :=
  let e := i / 2
  (((s.die d).dceRun.get e).toList ++ (s.die d).dce.get e).filter fun c => sliceOf c.unit == i

/-- Nothing of a unit is to be saved: it holds no more than a trap slot as its binding loaded it, and of a tile's storage
only what lies past the saved parts is written (R280, R286). -/
def holdsNothing (s : State) (u : UnitId) (x : CtxDesc) : Bool :=
  let c := s.core u
  let idle := fun (w : Warp) => { w with startSeq := 0 } == trapWarp x u 0
  c.warpList.all (fun p => p.1 == trapSlot && idle p.2) && c.teams == [] && c.trap.isNone && c.trapQ == [] && c.taskQ == [] &&
  c.sq == [] && (List.range 16).all (fun k => { c.chans.get k with gen := 0 } == (default : Chan)) &&
  (match u.kind with
   | .sc => c.carve == 0 && c.qp == 0 && c.tiles == [] && c.bins.all (fun b => b.2.isNone) && c.gslots.all (fun g => g.2.isNone) &&
     (u.idx % 8 != 0 || (s.unitSlice u).ilock.all fun e => e.2.isNone)
   | .tt => engCmds c.eng == [] && c.eng.counts == [] && c.eng.modes == [] &&
     c.scr.all (fun p => decide (4096 * x.tslive ≤ p.1)) && c.eng.acc.all (fun p => decide (4096 * x.acclive ≤ p.1))
   | .rc => true)

/-- The sections of a slice in directory order; one that has nothing to save has length 0 (R280). -/
def sections (s : State) (d i : Nat) (x : CtxDesc) : List (List Nat) :=
  let of := fun (u : UnitId) (sec : List Nat) => if s.holdsNothing u x then [] else sec
  (List.range 8).map (fun j => of ⟨.sc, d, 8 * i + j⟩ (s.scSection ⟨.sc, d, 8 * i + j⟩)) ++
  (List.range 4).map (fun j => of ⟨.tt, d, 4 * i + j⟩ (s.ttSection ⟨.tt, d, 4 * i + j⟩ x)) ++
  [of ⟨.rc, d, i⟩ (s.rcSection ⟨.rc, d, i⟩), padPages (imagesOf (s.dceCmds d i) 0)]

/-- The header of a slice image and what follows it, as it stands while it is being written (R280). -/
def sliceImage (s : State) (d i : Nat) (x : CtxDesc) : List Nat :=
  let secs := s.sections d i x
  let dir := (secs.foldl (fun (a : List Nat × Nat) p => (a.1 ++ (if p = [] then [0, 0] else [a.2, 8 * p.length]), a.2 + 8 * p.length)) ([], 4096)).1
  let body := secs.flatten
  padDwords ([2, 0, x.ctxid, 4096 + 8 * body.length, 0, 0, 0, 0] ++ dir) 512 ++ body

end State

end Sys2Proof.Machine
end

