-- ==== Sys2Proof/Machine/Restore.lean ====
section
/-! DEFINITION. Reading a slice image back into a slice (R280 to R288, R316, R317, R404). -/
namespace Sys2Proof.Machine

open Bits

/-- A section of an image, as dwords. -/
abbrev Section := List Nat

namespace Section

def at_ (x : Section) (byte : Nat) : Nat := x.getD (byte / 8) 0
def part (x : Section) (byte n : Nat) : List Nat := (x.drop (byte / 8)).take n
def words (x : Section) (byte n : Nat) : List Word :=
  (List.range n).map fun i => BitVec.ofNat 32 (field (x.at_ (byte + 4 * i)) (32 * ((byte / 4 + i) % 2)) 32)

end Section

/-- Bytes of a section put into a storage, n dwords from address a on. -/
def putDwords (t : Tab Byte) (a : Nat) (ds : List Nat) : Tab Byte := memPut t a (ds.flatMap fun x => toBytes x 8)

-- what a layout has to hold to (R280 to R287)

/-- Parts that a shader-core section names lie in it, and its counts keep their ranges. -/
def scLayoutOk (x : Section) : Bool :=
  let h := x.at_ 0
  let n := 8 * x.length
  field h 3 1 == 0 && field h 6 2 == 0 && field h 15 1 == 0 && field h 23 1 == 0 && decide (field h 0 3 ≤ 6) &&
  decide (field h 8 7 ≤ 64) && decide (field h 16 7 ≤ 65) && x.at_ 8 == 0 && decide (0x6000 ≤ n) &&
  (List.range 7).all (fun i => x.at_ (16 + 8 * i) % 8 == 0 && decide (0x6000 ≤ x.at_ (16 + 8 * i) ∧ x.at_ (16 + 8 * i) ≤ n)) &&
  decide (x.at_ 16 + 4096 * field h 16 7 ≤ n) && decide (x.at_ 48 + 64 * field h 24 16 ≤ n) &&
  decide (x.at_ 56 + 768 * field h 40 24 ≤ n) && decide (x.at_ 64 + 64 ≤ n)

/-- A warp record of n team records: its codes are defined and its counts keep their ranges (R283 to R285). -/
def warpRecOk (ds : List Nat) (nteams lim : Nat) : Bool :=
  let h := ofDwords (ds.take 8)
  let f := fun lo n => field h lo n
  let at_ := fun o n => ofDwords ((ds.drop o).take n)
  let live := f 64 8 == 1
  (live || f 64 8 == 2) && f 6 58 == 0 && f 87 9 == 0 && f 128 16 == 0 && f 160 5 == 0 && decide (f 203 5 ≤ 16) &&
  decide (f 197 6 ≤ 32) && decide (1 ≤ f 166 6 ∧ f 166 6 ≤ 32) && decide (if live then f 72 8 < lim else f 72 8 = 64) &&
  (!live || nteams == 0 || decide (f 0 6 < nteams)) &&
  ((List.range 32).filter fun i => field (at_ (40 + 3 * i) 3) 64 32 != 0).length == f 197 6 &&
  (List.range 32).all (fun i => decide (field (at_ (40 + 3 * i) 3) 108 3 < 4)) &&
  (List.range 4).all (fun i => decide (field (at_ (8 + 8 * i) 8) 177 2 < 3))

/-- The warp records of a shader-core section. -/
def scWarps (x : Section) : List (List Nat) := (List.range (field (x.at_ 0) 16 7)).map fun i => x.part (x.at_ 16 + 4096 * i) 512

/-- A tile's or relay core's thread records, by slot; none where the record is empty. -/
def threadRecs (x : Section) (first n : Nat) : List (Nat × List Nat) :=
  (List.range n).filterMap fun i =>
    let r := x.part (first + 4096 * i) 512
    if field (ofDwords (r.take 8)) 64 8 = 0 then none else some (i, r)

/-- A section of the slice's directory entry k keeps to its layout. -/
def sectionOk (k : Nat) (x : Section) (d : CtxDesc) : Bool :=
  if x = [] then true
  else if k < 8 then
    scLayoutOk x && (scWarps x).all fun r => warpRecOk r (field (x.at_ 0) 8 7) 64
  else if k < 12 then
    decide (0x18000 ≤ 8 * x.length) && decide (x.at_ 0x18 + 4096 * d.tslive ≤ 8 * x.length) &&
    decide (x.at_ 0x20 + 4096 * d.acclive ≤ 8 * x.length) && decide (x.at_ 0x10 + 384 * field (x.at_ 0) 8 16 ≤ 8 * x.length) &&
    (threadRecs x 0x1000 8).all fun r => warpRecOk r.2 0 8
  else if k = 12 then
    decide (0x51000 ≤ 8 * x.length) && decide (x.at_ 0x10 + 384 * field (x.at_ 0) 8 16 ≤ 8 * x.length) &&
    (threadRecs x 0x1000 64).all fun r => warpRecOk r.2 0 64
  else true

/-- The header of an image keeps to R280: `len` bytes lie behind it. -/
def headerOk (h : List Nat) (d : CtxDesc) : Bool :=
  let g := fun i => h.getD i 0
  g 0 / 4 == 0 && g 2 == d.ctxid && decide (4096 ≤ g 3) && decide (g 3 ≤ max 4096 d.savestride.toNat) &&
  (List.range 4).all (fun i => g (4 + i) == 0) && (h.drop 36).all (· == 0) &&
  (List.range 14).all fun i =>
    let o := g (8 + 2 * i)
    let n := g (9 + 2 * i)
    n == 0 || (o % 4096 == 0 && n % 8 == 0 && decide (4096 ≤ o) && decide (o + n ≤ g 3))

-- records

def chanOfRec (a b : Nat) (team : Nat) : Chan :=
  { (default : Chan) with
    st := match field a 0 2 with | 0 => .idle | 1 => .armed | 2 => .filling | _ => .done
    wm := field a 32 32, lo := field b 0 32, hi := field b 32 32, team := team }

def taskOfRec (ds : List Nat) (baton : Bool) (issuer : Option (Nat × Nat)) : TaskEnt :=
  let d := fun i => ds.getD i 0
  let p := field (d 1) 32 2
  { entry := BitVec.ofNat 64 (d 0), handle := BitVec.ofNat 32 (d 1), prio := p, eff := p, arrived := d 2, arg := BitVec.ofNat 64 (d 4)
    ks := if baton then (ds.drop 16).map (BitVec.ofNat 64) else []
    recw := if baton then (Section.words ds 64 16).take (field (d 3) 0 5 + 1) else [], issuer := issuer }

/-- A team of a record whose granules begin at a given one (R282). -/
def teamOfRec (ds : List Nat) (uid ctx first : Nat) : Team :=
  let a := ds.getD 0 0
  let b := ds.getD 1 0
  { (default : Team) with
    uid := uid, ctx := ctx, src := if bit a 4 then .spawned else .grid (field a 0 4) (field a 8 56)
    idx := field b 0 28, heat := field b 28 4, nwarps := field b 32 6, grant := (List.range (field b 40 7)).map (first + ·)
    carve := field b 48 3
    hurdles := (List.range 16).foldl (fun t h =>
      let x := ds.getD (2 + h) 0
      t.set h ⟨bit x 63, field x 0 32, field x 52 11⟩) [] }

/-- A sequencer slot's work from its ray record; `u` is the core or relay core of the starting lane. -/
def gslotOfRec (x : Section) (u : UnitId) (ctx owner : Nat) (word descAddr : Dword) : GSlot :=
  let h := x.at_ 0
  let slot := field (x.at_ 8) 16 8
  let st : GSt := match field h 10 2 with | 2 => .lazy | 3 => .ended | _ => .running
  { (default : GSlot) with
    warp := slot, unit := u, lane := field (x.at_ 8) 32 5, ctx := ctx, owner := owner
    m := (x.words 0x100 64).zipIdx.foldl (fun t p => t.set p.2 p.1) [], f := BitVec.ofNat 7 (field h 35 7)
    stack := ((x.words 0x200 64).take (field h 28 7)).reverse, pc := field h 16 12, latch := x.words 0x80 16, res := x.words 0xC0 4
    desc := (x.part 0x40 8).map (BitVec.ofNat 64), descAddr := descAddr, any := bit h 42, st := st, waitAt := if st = .lazy then x.at_ 16 else 0
    fetch := if st = .lazy then decodeMicro word else none }

/-- What an image says of a command: an ENOTE's entry, or a command with its progress. -/
def cmdOfRec (ds : List Nat) (q : Nat) (stopped : Bool) (base : Cmd) : Option Cmd :=
  let w : Dword := BitVec.ofNat 64 (ds.getD 0 0)
  match (decodeWord w 0).instr with
  | .enote h e tag => some { base with instr := .enote h e tag, word := w }
  | _ => (ofImage ds q base).map fun c =>
    { c with begun := stopped || c.pos != 0 || c.chunks != 0 || c.cnt2 != 0 || c.cnt3 != 0 || c.zdone }

/-- Images up to the first empty one. -/
def imageList (x : Section) (byte n : Nat) : List (List Nat) :=
  ((List.range n).map fun i => x.part (byte + 320 * i) 40).takeWhile fun d => d.getD 0 0 != 0

namespace State

/-- What a context kept of a unit while its slice was switched out. -/
def heldOf (s : State) (ctx : Nat) (u : UnitId) : Held :=
  ((s.ctxRt ctx).held.find? fun h => h.unit == u).getD { (default : Held) with unit := u }

/-- A warp from its record and registers, in its saved slot; what the record lacks comes from what the context kept. -/
def warpBack (s : State) (d : CtxDesc) (u : UnitId) (slot team : Nat) (ds : List Nat) (v : Tab Word) (parked : List Parked) : State :=
  let (seq, s) := s.fresh
  let base := startingWarp d u slot team 0 (firstLanes 32) seq
  let w := Warp.ofRecord ds base
  let h := (s.heldOf d.ctxid u).warps.find? fun x => x.slot == slot
  let isLane := fun (l : Nat) => decide (l < w.width)
  let fix := fun (p : Path) => match p.wait with
    | .memHurdle a _ l ph => { p with wait := .memHurdle a (s.ctxPa d.ctxid .rw a.toNat) l ph }
    | .teamHurdle n l => { p with wait := .teamHurdle n (l &&& w.arr.get n) }
    | _ => p
  let k32 : Word := if u.kind = .sc ∨ slot = trapSlot then 0 else (w.k.get 32).setWidth 32
  s.setWarp u slot (some { w with
    v := v, parked := parked.filter fun p => isLane p.lane, paths := w.paths.map fix
    entry := match h with | some x => x.entry | none => ((w.paths.head?).map (·.pc)).getD 0
    prio := (h.map (·.prio)).getD 0, handle := (h.map (·.handle)).getD k32
    parkReq := (h.map (·.parkReq)).getD 0, wdTrap := (h.map (·.wdTrap)).getD false
    loops := ((h.map (·.loops)).getD []).zipIdx.foldl (fun t x => t.modify x.2 fun l =>
      { l with nlc := x.1.1, nls := x.1.2.1, nle := x.1.2.2 }) w.loops })

/-- Registers of one lane's thread: 1 KiB (R286, R287). -/
def threadVBack (x : Section) (byte : Nat) : Tab Word := (x.words byte 256).zipIdx.foldl (fun t p => t.set p.2 p.1) []

/-- A thread of a tile or relay core: a team of its own, its registers and record (R286, R287). -/
def threadBack (s : State) (d : CtxDesc) (u : UnitId) (slot : Nat) (ds : List Nat) (v : Tab Word) : State :=
  let (uid, s) := s.fresh
  let s := s.warpBack d u slot uid ds v []
  let hd := ((s.warp u slot).map (·.handle)).getD 0
  let src : TeamSrc := if hd = 0 then .spawned else if u.kind = .rc then .baton hd else .task hd
  let issuer := ((s.heldOf d.ctxid u).warps.find? fun x => x.slot == slot).bind (·.issuer)
  s.modCore u fun c => { c with teams := c.teams ++ [{ (default : Team) with
    uid := uid, ctx := d.ctxid, src := src, issuer := issuer, nwarps := 1 }] }

/-- What the image of every unit leaves to what the context kept: traps, stopped engines, collectives under way. -/
def heldBack (s : State) (d : CtxDesc) (u : UnitId) : State :=
  let h := s.heldOf d.ctxid u
  let own := fun (slot : Nat) => match s.warp u slot with | some w => w.startSeq | none => 0
  s.modCore u fun c => { c with
    trap := h.trap, trapQ := h.trapQ
    warps := match h.trapWarp with | some w => c.warps.set trapSlot (some w) | none => c.warps
    eng := { c.eng with
      frozen := h.frozen, stop := h.stop, sent := h.sent
      counts := c.eng.counts ++ h.counts.map fun p => { p.2 with owner := own p.1 } } }

/-- A shader core from its section (R281, R288, R316). -/
def scBack (s : State) (d : CtxDesc) (u : UnitId) (x : Section) : State :=
  let h := x.at_ 0
  let off := fun i => x.at_ (16 + 8 * i)
  let hd := s.heldOf d.ctxid u
  let teams := (List.range (field h 8 7)).foldl (fun (a : List Team × Nat × Nat) i =>
    let t := teamOfRec (x.part (0x1600 + 256 * i) 32) a.2.2 d.ctxid a.2.1
    (a.1 ++ [{ t with tiles := hd.tiles == some i }], a.2.1 + t.grant.length, a.2.2 + 1)) ([], 0, s.nextId)
  let s := { s with nextId := teams.2.2 }
  let ts := teams.1
  let scr := (List.range teams.2.1).foldl (fun t g => putDwords t (4096 * g) (x.part (off 2 + 4096 * g) 512)) []
  let tiles : Tab Word := if off 3 < off 4 then (x.words (off 3) 16384).zipIdx.foldl (fun t p => t.set p.2 p.1) [] else []
  let uidOf := fun i => ((ts[i]?).map (·.uid)).getD 0
  let chans := (List.range 16).foldl (fun (t : Tab Chan) i =>
    let a := x.at_ (0x100 + 16 * i)
    let c := chanOfRec a (x.at_ (0x108 + 16 * i)) (uidOf (field a 8 6))
    t.set i (if c.st = .idle then { c with team := 0 } else c)) []
  let s := s.modCore u fun c => { c with
    carve := field h 0 3, qp := field h 4 2, teams := ts, scr := scr, tiles := tiles, chans := chans
    sq := ((x.part 0x200 128).map (BitVec.ofNat 64)).zipIdx.foldl (fun t p => t.set p.2 p.1) [] }
  let parked := (List.range (field h 24 16)).map fun i =>
    let r := x.part (off 4 + 64 * i) 8
    (field (r.getD 0 0) 0 8, (⟨field (r.getD 0 0) 8 5, FaultRec.ofDwords (r.drop 1)⟩ : Parked))
  let s := ((scWarps x).foldl (fun (a : State × Nat) r =>
    let w := ofDwords (r.take 8)
    let n := 8 * field w 166 6
    let slot := if field w 64 8 = 2 then trapSlot else field w 72 8
    let v := Warp.vOfDwords (x.part a.2 (16 * n)) n
    (a.1.warpBack d u slot (if slot = trapSlot then 0 else uidOf (field w 0 6)) r v ((parked.filter fun p => p.1 == slot).map (·.2)),
      a.2 + 128 * n)) (s, off 1)).1
  let bins := (List.range 16).foldl (fun (a : Tab (Option Bin) × Nat) i =>
    let r := x.part (0x600 + 256 * i) 32
    let key := r.getD 0 0
    if key = 0 then a
    else
      let hdr := (binHdrOf 32 (s.ctxRead d.ctxid (key - 8) 8)).getD ⟨32, 1024, 2⟩
      (a.1.set i (some { key := BitVec.ofNat 64 key, deadline := r.getD 1 0, thr := hdr.thr, regs := hdr.regs, opened := a.2, prio := 0
                         slots := ((Section.words r 0x20 32).take (field (r.getD 2 0) 0 6)).map fun w => field w.toNat 0 20 }), a.2 + 1))
    ([], s.nextId)
  let s := { s.modCore u fun c => { c with bins := bins.1 } with nextId := bins.2 }
  let rc : UnitId := ⟨.rc, u.die, sliceOf u⟩
  (List.range (field h 40 24)).foldl (fun s i =>
    let r := x.part (off 5 + 768 * i) 96
    let ident := field (r.getD 1 0) 0 32
    let slot := field ident 16 8
    let v := if (s.warp u slot).isSome ∧ (s.warpIdent u slot).toNat = ident then u else rc
    let own := match s.warp v slot with | some w => w.startSeq | none => 0
    let k := field (r.getD 0 0) 0 8 + 256 * field (r.getD 0 0) 8 2
    let st := (s.core u).cstores.get (field (r.getD 0 0) 8 2)
    s.modCore u fun c => { c with
      gslots := c.gslots.set k (some (gslotOfRec r v d.ctxid own (st.words.get (field (r.getD 0 0) 16 12))
        (((hd.rays.find? fun y => y.1 == k).map (·.2)).getD 0))) }) s

/-- The interlock table of a slice, which stands behind the section of its first shader core (R317). -/
def ilockBack (s : State) (d : CtxDesc) (die i : Nat) (x : Section) : State :=
  let o := x.at_ (16 + 48) + 64
  let hd := s.heldOf d.ctxid ⟨.sc, die, 8 * i⟩
  let t := (List.range 4096).foldl (fun (t : Tab (Option ILock)) k =>
    let a := x.at_ (o + 16 * k)
    let b := x.at_ (o + 16 * k + 8)
    if field b 37 2 = 0 then t
    else
      let slot := field b 16 8
      let us := (List.range 8).map fun j => (⟨.sc, die, 8 * i + j⟩ : UnitId)
      let u := ((hd.bound.find? fun p => p.1 == k).map (·.2)).getD
        ((us.find? fun u => (s.warp u slot).isSome && (s.warpIdent u slot).toNat == field b 0 32).getD default)
      let own := match s.warp u slot with | some w => w.startSeq | none => 0
      t.set k (some ⟨BitVec.ofNat 32 a, field a 32 32, field b 37 2, u, slot, field b 32 5, own, 0⟩)) []
  s.modSlice die i fun sl => { sl with
    ilock := t, ilockSeq := t.foldl (fun n p => max n ((p.2.map fun e => e.order + 1).getD 0)) 0, pending := hd.pending }

-- engines (R286, R288)

/-- The parts of a command that its slot's thread or warp gives. -/
def cmdBase (s : State) (d : CtxDesc) (u : UnitId) (slot : Nat) : Cmd :=
  let w := (s.warp u slot).getD default
  { (default : Cmd) with
    unit := u, slot := slot, owner := w.startSeq, lanes := w.live, ctx := d.ctxid, team := w.team
    handle := if u.kind = .tt then w.handle else 0, hy := w.hyOf (Warp.laneKey w.live), mode := .rne, lfsr := 1 }

/-- Commands of images; the first may be the stopped one. Each gets a name. -/
def cmdsBack (s : State) (d : CtxDesc) (u : UnitId) (q : Nat) (stopped : Bool) : List (List Nat) → List Cmd × State
  | [] => ([], s)
  | r :: t =>
    let c := cmdOfRec r q stopped (s.cmdBase d u (field (r.getD 6 0) 48 8))
    let (id, s) := s.fresh
    let (cs, s) := cmdsBack s d u q false t
    ((match c with | some c => [{ c with id := id }] | none => []) ++ cs, s)

/-- The unit a die copy engine command's image names: by the spaces of its records, else a shader core that has the slot
(R216). -/
def dceUnit (s : State) (die i : Nat) (r : List Nat) : UnitId :=
  let n := field (r.getD 6 0) 56 8
  let slot := field (r.getD 6 0) 48 8
  let sc : UnitId := ⟨.sc, die, n⟩
  let tt : UnitId := ⟨.tt, die, n⟩
  let sp : Nat → Nat := fun o => ((recOf? ((List.range 8).map fun j => (BitVec.ofNat 64 (r.getD (o + j) 0) : Dword))).map (·.space)).getD 0
  if sp 16 = 3 ∨ sp 32 = 3 then sc
  else if sp 16 = 1 ∨ sp 16 = 2 ∨ sp 32 = 1 ∨ sp 32 = 2 then tt
  else if sliceOf sc = i ∧ (s.warp sc slot).isSome then sc else tt

/-- An image of a queue names a command that may stand there, and whose fields and records keep its limits (R216, R217, R404). -/
def imageFits (s : State) (d : CtxDesc) (u : UnitId) (q : Nat) (r : List Nat) : Bool :=
  match cmdOfRec r q false (s.cmdBase d u 0) with
  | some c => c.isNote || (s.cmdCauses c).1 == []
  | none => false

/-- The command images of a section of the slice (R286, R287). -/
def imagesFit (s : State) (d : CtxDesc) (die i k : Nat) (x : Section) : Bool :=
  if 8 ≤ k ∧ k < 12 then
    let u : UnitId := ⟨.tt, die, 4 * i + (k - 8)⟩
    (List.range 3).all (fun q => (imageList x (0xB000 + 10560 * q) 1 ++ imageList x (0xB000 + 10560 * q + 320) 32).all (s.imageFits d u q)) &&
    (imageList x 0x13000 64).all (s.imageFits d u 2)
  else if k = 13 then (imageList x 0 (x.length / 40)).all fun r => s.imageFits d (s.dceUnit die i r) 3 r
  else true

/-- The ENOTEs whose entries stand in a tile's queues: entries of one thread and word belong together, counted from the
last. Notes of which every entry has been reached follow, as the combiner's counts tell (R213). -/
def notesBack (s : State) (u : UnitId) : State :=
  let e := (s.core u).eng
  let es := [0, 1, 2, 3].flatMap fun q => ((if q = 3 then s.engQueue u 3 else e.queues.get q).filter fun c => c.isNote && c.unit == u).map fun c => (q, c)
  let keys := (es.map fun p => (p.2.owner, p.2.word)).eraseDups
  let tagOf := fun (c : Cmd) => match c.instr with | .enote _ _ t => t.toNat | _ => 0
  let mk := keys.flatMap fun k =>
    let of := fun q => (es.filter fun p => p.1 == q && p.2.owner == k.1 && p.2.word == k.2).map (·.2)
    let n := [0, 1, 2, 3].foldl (fun n q => max n (of q).length) 0
    let c := ((es.find? fun p => p.2.owner == k.1 && p.2.word == k.2).map (·.2)).getD default
    (List.range n).map fun i =>
      let j := n - 1 - i
      (⟨0, c.owner, c.slot, tagOf c, c.handle, [0, 1, 2, 3].filterMap fun q =>
        if j < (of q).length then (((of q)[(of q).length - 1 - j]?).map fun c => (q, c.id)) else none⟩ : Note)
  let more := e.counts.flatMap fun t =>
    let known := (mk.filter fun n => n.owner == t.owner && n.tag == t.tag).length
    let slot := (((s.core u).warps.find? fun p => match p.2 with | some w => w.startSeq == t.owner | none => false).map (·.1)).getD 0
    List.replicate (min 1024 ((t.issued + 2 ^ 32 - t.raised) % 2 ^ 32 - known))
      (⟨0, t.owner, slot, t.tag, (((s.warp u slot).map (·.handle)).getD 0), []⟩ : Note)
  let ns := (mk ++ more).zipIdx.map fun p => { p.1 with id := s.nextId + p.2 }
  { s.modEng u fun e => { e with notes := ns } with nextId := s.nextId + ns.length }

/-- A tensor tile from its section (R286, R288). -/
def ttBack (s : State) (d : CtxDesc) (u : UnitId) (x : Section) : State :=
  let s := (threadRecs x 0x1000 8).foldl (fun s r => s.threadBack d u r.1 r.2 (threadVBack x (0x9000 + 1024 * r.1))) s
  let own := fun t => match s.warp u t with | some w => w.startSeq | none => 0
  let here := (List.range 8).filter fun t => (s.warp u t).isSome
  let counts := here.flatMap fun t => (List.range 32).filterMap fun g =>
    let v := x.at_ (0x600 + 8 * (32 * t + g))
    if v = 0 then none else some (⟨own t, g, field v 0 32, field v 32 32⟩ : TagCnt)
  let modes := here.flatMap fun t => (List.range 3).map fun q =>
    let v := x.at_ (0xE00 + 8 * (3 * t + q))
    (⟨own t, q, (roundOf? (field v 0 3)).getD .rne, BitVec.ofNat 32 (Num.seedOf (field v 32 32))⟩ : ModeEnt)
  let asked := (s.heldOf d.ctxid u).issuers
  let s := s.modCore u fun c => { c with
    chans := (List.range 16).foldl (fun t i => t.set i (chanOfRec (x.at_ (0x100 + 16 * i)) (x.at_ (0x108 + 16 * i)) 0)) []
    sq := ((x.part 0x200 128).map (BitVec.ofNat 64)).zipIdx.foldl (fun t p => t.set p.2 p.1) []
    scr := putDwords [] 0 (x.part (x.at_ 0x18) (512 * d.tslive))
    taskQ := (List.range (field (x.at_ 0) 8 16)).map fun i => taskOfRec (x.part (x.at_ 0x10 + 384 * i) 48) false (asked.getD i none)
    eng := { c.eng with counts := counts, modes := modes, acc := putDwords [] 0 (x.part (x.at_ 0x20) (512 * d.acclive)) } }
  let s := [0, 1, 2].foldl (fun s q =>
    let o := 0xB000 + 10560 * q
    let (run, s) := s.cmdsBack d u q true (imageList x o 1)
    let (cs, s) := s.cmdsBack d u q false (imageList x (o + 320) 32)
    (s.setRunning u q run.head?).setQueue u q cs) s
  let (buf, s) := s.cmdsBack d u 2 false (imageList x 0x13000 64)
  let buf := buf.map fun (c : Cmd) => if c.timed then c else { c with time := s.pace u.die }
  (s.modEng u fun e => { e with tbuf := buf }).markHead u

/-- A relay core from its section (R287). -/
def rcBack (s : State) (d : CtxDesc) (u : UnitId) (x : Section) : State :=
  let s := (threadRecs x 0x1000 64).foldl (fun s r => s.threadBack d u r.1 r.2 (threadVBack x (0x41000 + 1024 * r.1))) s
  s.modCore u fun c => { c with
    taskQ := (List.range (field (x.at_ 0) 8 16)).map fun i => taskOfRec (x.part (x.at_ 0x10 + 384 * i) 48) true
      ((s.heldOf d.ctxid u).issuers.getD i none) }

/-- The die copy engine commands of a slice re-enter the queue, in saved order (R287, R288). -/
def dceBack (s : State) (d : CtxDesc) (die i : Nat) (x : Section) : State :=
  (imageList x 0 (x.length / 40)).foldl (fun s r =>
    let u := s.dceUnit die i r
    let (cs, s) := s.cmdsBack d u 3 false [r]
    (s.modDie die fun y => { y with dce := y.dce.modify (i / 2) fun q => q ++ cs }).markDce die (i / 2)) s

-- the whole image

/-- n dwords of a context's memory, page by page; none where a page is refused. -/
def imgRead (s : State) (ctx va : Nat) (n : Nat) : Option (List Nat) :=
  let pages := pagesOf va (8 * n)
  let ok := match (s.ctxRt ctx).desc with
    | some d => pages.all fun p => match translate s (s.ctxRt ctx).die d (s.ctxRt ctx).pidx false .read p with | .ok _ => true | .error _ => false
    | none => false
  if ok then some ((List.range n).map fun i => s.ctxRead ctx (va + 8 * i) 8) else none

/-- Where the slice image of a slice lies (R280). -/
def imageVa (d : CtxDesc) (die i : Nat) : Nat := (d.savebase.toNat + d.savestride.toNat * (16 * die + i)) % 2 ^ 64

/-- The reason of SWITCHFAIL where the image cannot be restored; else the state with the slice restored, every unit's time at
the latest PT (R278, R288, R404). -/
def restoreSlice (s : State) (d : CtxDesc) (die i : Nat) : Except Nat State :=
  let va := imageVa d die i
  match s.imgRead d.ctxid va 512 with
  | none => .error 4
  | some h =>
    if h.getD 0 0 % 4 ≠ 1 then .error 2
    else if !headerOk h d then .error 3
    else
      let secs := (List.range 14).map fun k => s.imgRead d.ctxid ((va + h.getD (8 + 2 * k) 0) % 2 ^ 64) (h.getD (9 + 2 * k) 0 / 8)
      if secs.any (·.isNone) then .error 4
      else
        let x := fun k => ((secs[k]?).bind id).getD []
        if !(List.range 14).all fun k => sectionOk k (x k) d && s.imagesFit d die i k (x k) then .error 3
        else
          let sc := fun j => (⟨.sc, die, 8 * i + j⟩ : UnitId)
          let tt := fun j => (⟨.tt, die, 4 * i + j⟩ : UnitId)
          let s := s.rcBack d ⟨.rc, die, i⟩ (x 12)
          let s := (List.range 8).foldl (fun s j => if x j = [] then s else s.scBack d (sc j) (x j)) s
          let s := if x 0 = [] then s else s.ilockBack d die i (x 0)
          let s := (List.range 4).foldl (fun s j => if x (8 + j) = [] then s else s.ttBack d (tt j) (x (8 + j))) s
          let s := s.dceBack d die i (x 13)
          let s := (sliceUnits die i).foldl (fun s u => s.heldBack d u) s
          let s := (sliceUnits die i).foldl (fun s u => if u.kind = .rc then s else s.notesBack u) s
          let s := (sliceUnits die i).foldl (fun s u => s.modAgent (unitNo u) fun a => { a with pts := s.pt }) s
          let waits := (sliceUnits die i).flatMap fun u => (s.core u).warpList.flatMap fun w => w.2.paths.filterMap fun p =>
            match p.wait with | .memHurdle _ pa _ _ => some pa | _ => none
          let s := waits.foldl (fun s pa => s.phaseNotify pa (bit (s.peek pa 8) 63)) s
          .ok ((sliceUnits die i).foldl (fun s u => (s.core u).warpList.foldl (fun s w => s.unhold u w.1) s) s)

end State

end Sys2Proof.Machine
end

