-- ==== Sys2Proof/Machine/Switch.lean ====
section
/-! DEFINITION. Switching a slice: the write of GO, stopping, saving, binding, and the end of the switch (R254, R256, R263,
R274 to R280, R289, R290, R366, R370, R374, R404). -/
namespace Sys2Proof.Machine

open Bits

def inSlice (die i : Nat) (u : UnitId) : Bool := u.die == die && sliceOf u == i

-- the context descriptor (R254)

/-- The fields of a descriptor. -/
def ctxDescOf (x : Nat) : CtxDesc :=
  let d := fun lo => BitVec.ofNat 64 (field x lo 64)
  { ctxid := field x 64 16, satpMode := field x 60 4, asid := field x 44 16, root := field x 0 44, ftbase := d 128
    ftsize := field x 192 21, fthost := field x 213 21, spbase := d 256, spcount := field x 320 32, hybase := d 384, lqbase := d 448
    lqn := field x 512 4, savebase := d 576, savestride := d 640, trappc := d 704, csraster := d 768, csdepth := d 832
    cstrav := d 896, tslive := field x 960 32, acclive := field x 992 32, cfg := BitVec.ofNat 2 (field x 1024 2)
    wdog := BitVec.ofNat 32 (field x 1056 32), deadline := d 1088, rssize := field x 1152 32, rsbase := d 1184 }

/-- A descriptor has no reserved bit set, no reserved value, and every field in its range; TRAPPC's alignment is apart. -/
def ctxDescOk (x : Nat) : Bool :=
  let d := ctxDescOf x
  [(80, 48), (234, 22), (352, 32), (516, 60), (1026, 30), (1248, 800)].all (fun r => field x r.1 r.2 == 0) &&
  (d.satpMode == 8 || d.satpMode == 9 || (d.satpMode == 0 && d.asid == 0 && d.root == 0)) &&
  decide (1 ≤ d.ftsize ∧ d.ftsize ≤ 2 ^ 20) && decide (d.fthost < d.ftsize) && decide (1 ≤ d.spcount ∧ d.spcount ≤ 2 ^ 20) &&
  d.spbase.toNat % 64 == 0 && d.hybase.toNat % 4096 == 0 && d.savebase.toNat % 4096 == 0 && d.savestride.toNat % 4096 == 0 &&
  decide (d.tslive ≤ 1024) && decide (d.acclive ≤ 256) && d.rssize % 32 == 0 && d.rsbase.toNat % 4096 == 0

namespace State

-- stopping (R276, R277)

/-- A path leaves a wait that is saved as not issued. Of a SPAWN or BATON, the lanes that have been served go on. -/
def stopPath (s : State) (u : UnitId) (slot : Nat) (p : Path) : State :=
  match p.wait with
  | .work _ id _ _ left _ _ pool =>
    let go := p.mask &&& ~~~ laneSet (left.map (·.1))
    let s := s.poolBack (((s.warp u slot).map (·.ctx)).getD 0) pool
    s.flow u slot fun e w =>
      let q := w.pend.find? fun q => q.id == id
      let w := w.applyAll ((q.map (·.res)).getD [])
      let w := Warp.tokDec { w with pend := w.pend.filter fun (x : Pend) => x.id != id } (q.bind (·.tok))
      let w : Warp := { w with paths := w.paths.map fun (x : Path) => if x.mask = p.mask then { x with wait := .ready } else x }
      if go = 0 then w else w.pathOn e { p with mask := go }
  | _ => s.withdraw u slot p

/-- Every path of a unit that may is taken out of its wait; lanes that are due at a boundary are parked. -/
def stopUnit (s : State) (u : UnitId) : State :=
  (s.core u).warpList.foldl (fun s p =>
    let s := p.2.paths.foldl (fun s q => s.stopPath u p.1 q) s
    match s.warp u p.1 with
    | none => s
    | some w => (w.paths.filter fun q => s.atBoundary u p.1 q && w.due.any fun x => q.mask.getLsbD x.lane).foldl
        (fun s q => s.parkDue u p.1 q.mask) s) s

/-- A scratchpad access that waits at a watermark. -/
def atWatermark (s : State) (o : MemOp) : Bool :=
  (match o.kind with | .scrLoad | .scrStore | .scrAtomic => true | _ => false) && o.stage == .issued &&
  s.wmWaits (o.owner.getD default) o.team o.ea.toNat o.n

/-- Nothing of a warp is in flight but the copies whose records it will get. -/
def quietWarp (s : State) (w : Warp) : Bool :=
  w.paths.all (fun p => match p.wait with | .ready | .trapHold | .sleep _ | .teamHurdle .. | .memHurdle .. => true | _ => false) &&
  w.pend.all fun q => s.allCmds.any fun c => c.pend == some q.id

/-- A unit stands at its boundary (R276). -/
def quietUnit (s : State) (u : UnitId) : Bool :=
  let c := s.core u
  c.warpList.all (fun p => s.quietWarp p.2) && !c.latches.any (·.full) && c.eng.saves == [] &&
  (match c.eng.running.get 2 with | some x => s.atChunk x | none => true) &&
  !c.gslots.any fun p => match p.2 with | some g => g.st == .fetch | none => false

/-- Every unit of a slice stands at its boundary, and the chunk that each of its receivers was taking is whole (R275, R276).
A state that is discarded does not wait for a watermark. -/
def quietSlice (s : State) (die i : Nat) (save : Bool) : Bool :=
  let here := inSlice die i
  (sliceUnits die i).all s.quietUnit &&
  s.ops.all (fun o => !here o.unit || (!save && s.atWatermark o)) && s.resolves.all (fun r => !here r.unit) &&
  s.flits.all fun f => !here f.issuer && (f.dests.all fun h => match h.rx with
    | .unit u => !here u || (match s.flitCmd f with
      | some c => !c.rxs.any fun x => x.no == h.no && x.last == f.chunk
      | none => true)
    | .home _ => true)

/-- Copies from outside that a receiver of the slice has not taken whole are cut there (R275). -/
def cutCopies (s : State) (die i : Nat) : State :=
  s.mapAllCmds fun c =>
    if inSlice die i c.unit ∨ !c.isCopy then c
    else match recOf? c.ra, recOf? c.rd with
      | some a, some d =>
        let gone := (targets c d).filter fun t => inSlice die i t.2 && c.rxs.any fun x => x.no == t.1 && decide (x.last + 1 < chunksOf a)
        { c with cut := gone.foldl (fun m t => m ||| BitVec.ofNat 64 (2 ^ t.1)) c.cut }
      | _, _ => c

-- saving (R274 step 3, R280)

/-- What the image has no place for, kept with the context. -/
def keepUnit (s : State) (u : UnitId) : Held :=
  let c := s.core u
  let here := inSlice u.die (sliceOf u)
  let slotOf := fun (owner : Nat) => (c.warps.find? fun p => match p.2 with | some w => w.startSeq == owner | none => false).map (·.1)
  let first := u.kind == .sc && u.idx % 8 == 0
  { unit := u, trap := c.trap, trapQ := c.trapQ, trapWarp := if u.kind = .sc then none else c.warps.get trapSlot
    frozen := c.eng.frozen, stop := c.eng.stop, sent := c.eng.sent
    counts := if u.kind = .sc then c.eng.counts.filterMap fun t => (slotOf t.owner).map fun n => (n, t) else []
    bound := if first then (ilocks (s.unitSlice u)).filterMap fun p => if here p.2.unit then some (p.1, p.2.unit) else none else []
    pending := if first then (s.unitSlice u).pending else [], tiles := c.teams.findIdx? (·.tiles)
    issuers := c.taskQ.map (·.issuer)
    rays := c.gslots.filterMap fun p => p.2.map fun g => (p.1, g.descAddr)
    warps := c.warpList.map fun p => ⟨p.1, p.2.entry, p.2.prio, p.2.handle, p.2.parkReq, p.2.wdTrap,
      (List.range 4).map fun n => let l := p.2.loop n; (l.nlc, l.nls, l.nle),
      (s.team? u p.2.team).bind (·.issuer)⟩ }

/-- A sequencer that stands at an EMIT of a record with a ticket or a pool slot in hand gives it back; it emits again after the
restore. -/
def untakeTickets (s : State) (ctx die i : Nat) : State :=
  let pools := (sliceUnits die i).flatMap fun u => (s.core u).gslots.filterMap fun p => p.2.bind (·.pool)
  let s := pools.foldl (fun s k => s.poolBack ctx (some k)) s
  let keys := (sliceUnits die i).flatMap fun u => (s.core u).gslots.filterMap fun p => p.2.bind fun g =>
    if (g.st = .retry ∨ g.st = .order) ∧ g.waitAt ≠ 0 then some (g.waitAt - 1) else none
  s.modSlice die i fun sl => { sl with ilock := keys.foldl (fun (t : Tab (Option ILock)) k => t.set k none) sl.ilock }

/-- The slice image is written; STATE 1 last (R274, R280). -/
def saveSlice (s : State) (d : CtxDesc) (die i : Nat) : Option State :=
  let s := s.untakeTickets d.ctxid die i
  let img := s.sliceImage die i d
  let va := imageVa d die i
  let ok := fun p => match translate s (s.ctxRt d.ctxid).die d (s.ctxRt d.ctxid).pidx false .write p with | .ok _ => true | .error _ => false
  if (pagesOf va (8 * img.length)).all ok then
    let s := s.ctxStoreDwords d.ctxid va img
    let s := s.modCtxRt d.ctxid fun c => { c with
      held := (sliceUnits die i).map s.keepUnit ++ c.held.filter fun h => !inSlice die i h.unit }
    let s := s.ctxStore d.ctxid (va + 8) 8 (s.pace die)
    some (s.ctxStore d.ctxid va 8 1)
  else none

/-- A refused save leaves STATE 2 behind where the header can be written (R404). -/
def saveFailed (s : State) (d : CtxDesc) (die i : Nat) : State :=
  let va := imageVa d die i
  let s := match translate s (s.ctxRt d.ctxid).die d (s.ctxRt d.ctxid).pidx false .write va with
    | .ok _ => s.ctxStore d.ctxid va 8 2
    | .error _ => s
  s.killContext d.ctxid ⟨Cause.switchfail, 0, none, 0, 0, 0, 0, 1, 0, s.pace die⟩

-- leaving (R274 step 4, R370)

/-- Lanes that are given up name no hypothesis any more (R180); those of a killed context stay as they are (R370). -/
def dropRefs (s : State) (die i : Nat) : State :=
  (sliceUnits die i).foldl (fun s u => (s.core u).warpList.foldl (fun s p =>
    (lanes p.2.live).foldl (fun s l => s.refDec p.2.ctx (p.2.hyOf l).toNat) s) s) s

/-- Pool slots of records that are given up are free (R25). -/
def dropPool (s : State) (ctx die i : Nat) : State :=
  let gone := ((sliceUnits die i).flatMap fun u => (s.core u).bins.flatMap fun b => match b.2 with | some b => b.slots | none => []) ++
    (s.slice die i).pending.flatMap (·.slots) ++
    ((sliceUnits die i).flatMap fun u => (s.core u).warpList.flatMap fun p => p.2.paths.filterMap fun (q : Path) => match q.wait with
      | .work _ _ _ _ _ _ _ pool => pool
      | _ => none) ++
    (sliceUnits die i).flatMap fun u => (s.core u).gslots.filterMap fun p => p.2.bind (·.pool)
  s.modCtxRt ctx fun c => { c with
    poolUsed := c.poolUsed.filter fun k => !gone.contains k, ticketed := c.ticketed.filter fun t => !gone.contains t.1 }

/-- Units of a slice hold nothing; caches are empty, copies and contributions of the slice are gone. -/
def emptySlice (s : State) (die i : Nat) : State :=
  let here := inSlice die i
  let s := s.cutCopies die i
  let e := i / 2
  let ours := fun (c : Cmd) => here c.unit
  let s := s.modDie die fun x => { x with
    dceFrozen := if ((x.dceRun.get e).filter ours).isSome then x.dceFrozen.set e false else x.dceFrozen
    dce := x.dce.modify e fun q => q.filter fun c => !ours c, dceRun := x.dceRun.modify e fun c => c.filter fun c => !ours c }
  let s := (sliceUnits die i).foldl (fun s u =>
    let gens := fun (c : Core) => (List.range 16).foldl (fun (t : Tab Chan) k => t.set k { (default : Chan) with gen := (c.chans.get k).gen + 1 }) []
    (s.modCore u fun c => { (default : Core) with
      halted := c.halted, clock := c.clock, cyc := c.cyc, cycAt := c.cycAt, turn := c.turn, gturn := c.gturn, chans := gens c }).modAgent (unitNo u) fun a =>
      { a with copies := [] }) s
  let s := { s with ops := s.ops.filter fun o => !here o.unit }
  s.modSlice die i fun sl => { sl with pending := [], ilock := [], ilockSeq := 0 }

-- binding (R254, R289, R290, R366)

/-- The control-store image of an address: its microwords, or none where its header breaks R290. One in a lost range leaves the
store empty (R425). -/
def csImage (s : State) (ctx : Nat) (va : Dword) (cap : Nat) : Option CStore :=
  let lost := fun (a : Nat) => s.lostPa (s.ctxRt ctx).die (s.ctxPa ctx .read a)
  if va = 0 ∨ (pagesOf va.toNat (64 + 8 * cap)).any lost then some default
  else
    let h := (List.range 8).map fun j => s.ctxRead ctx (va.toNat + 8 * j) 8
    let n := field (h.getD 0 0) 0 16
    if h.getD 0 0 / 2 ^ 16 ≠ 0 ∨ (h.drop 1).any (· != 0) ∨ n = 0 ∨ cap < n ∨ va.toNat % 64 ≠ 0 then none
    else some ⟨n, (List.range n).foldl (fun t j => t.set j (BitVec.ofNat 64 (s.ctxRead ctx (va.toNat + 64 + 8 * j) 8))) []⟩

/-- The control stores of a slice's shader cores are loaded (R290); a bad header is reported and leaves its store empty. -/
def loadStores (s : State) (d : CtxDesc) (die i : Nat) : State :=
  [(GUnit.trav, d.cstrav, 4096), (.raster, d.csraster, 2048), (.depth, d.csdepth, 1024)].foldl (fun s g =>
    let st := s.csImage d.ctxid g.2.1 g.2.2
    let s := if st.isNone then s.report d.ctxid ⟨Cause.csimg, 0, none, 0, 0, 0, g.2.1, 0, 0, s.pace die⟩ else s
    (List.range 8).foldl (fun s j => s.modCore ⟨.sc, die, 8 * i + j⟩ fun c =>
      { c with cstores := c.cstores.set g.1.code (st.getD default) }) s) s

/-- Trap slots of a slice start (R366); none is loaded with TRAPPC 0. -/
def loadTraps (s : State) (d : CtxDesc) (die i : Nat) : State :=
  if d.trappc = 0 then s
  else (sliceUnits die i).foldl (fun s u =>
    let (seq, s) := s.fresh
    s.setWarp u trapSlot (some (trapWarp d u seq))) s

/-- A context takes a slice (R254, R274 step 4). -/
def bindSlice (s : State) (d : CtxDesc) (pidx die i : Nat) : State :=
  let s := s.modCtxRt d.ctxid fun c => { c with desc := some d, pidx := pidx, die := die, killed := none }
  let s := s.modSlice die i fun sl => { sl with ctx := some d, pidx := pidx }
  (s.loadStores d die i).loadTraps d die i

/-- The incoming context is killed and the slice ends idle (R374, R404). -/
def bindFails (s : State) (d : CtxDesc) (die i cause reason : Nat) : State :=
  let s := s.modCtxRt d.ctxid fun c => if c.desc.isSome then c else { c with desc := some d, die := die }
  let s := s.killContext d.ctxid ⟨cause, 0, none, 0, 0, 0, 0, BitVec.ofNat 64 reason, 0, s.pace die⟩
  (s.emptySlice die i).modSlice die i fun sl => { sl with ctx := none, st := .idle }

/-- The incoming context of SLNEXT is bound, and restored where asked (R274 steps 4 and 5). -/
def bindNext (s : State) (die i : Nat) (restore : Bool) : State :=
  let next := (s.reg die (Win.slnext i)).toNat
  if next / 256 = 0 then s.modSlice die i fun sl => { sl with ctx := none, st := .idle }
  else
    let x := s.peek (next / 256 * 256) 256
    let d := ctxDescOf x
    if !ctxDescOk x then s.bindFails d die i Cause.switchfail 5
    else if d.trappc.toNat % 8 ≠ 0 then s.bindFails d die i Cause.trappcx 0
    else
      let s := s.bindSlice d (field next 0 5) die i
      if !restore then s.modSlice die i fun sl => { sl with st := .running }
      else match s.restoreSlice d die i with
        | .error r => s.bindFails d die i Cause.switchfail r
        | .ok s =>
          let s := s.modSlice die i fun sl => { sl with st := .running }
          { s with agenda := .faultScan d.ctxid :: s.agenda }

/-- GO reads 0 and TLAST is written (R274 step 6, R256). -/
def endSwitch (s : State) (die i : Nat) : State :=
  let sl := s.slice die i
  let v := (s.reg die (Win.slctl i)).toNat
  let t := min (s.pace die - sl.goAt) (2 ^ 32 - 1)
  let s := s.setReg die (Win.slctl i) (BitVec.ofNat 64 (setField v 32 32 t))
  s.modSlice die i fun sl => { sl with go := false, st := if sl.st = .switching then .idle else sl.st }

/-- What leaves with a context that is not saved: nothing of it completes. -/
def discardSlice (s : State) (ctx die i : Nat) (killed : Bool) : State :=
  let s := if killed then { s with collNet := s.collNet.filter fun x => !(x.ptn.isNone && x.ctx == ctx) } else s.dropRefs die i
  s.dropPool ctx die i

/-- A slice whose units all stand at their boundaries switches. -/
def completeSwitch (s : State) (die i : Nat) : State :=
  let sl := s.slice die i
  let s := match sl.ctx with
    | none => s
    | some d =>
      if sl.doSave ∧ (s.ctxRt d.ctxid).killed.isNone then
        match s.saveSlice d die i with
        | some s => s
        | none => (s.saveFailed d die i).discardSlice d.ctxid die i true
      else s.discardSlice d.ctxid die i (s.ctxRt d.ctxid).killed.isSome
  let s := s.emptySlice die i
  let s := if sl.go then s.bindNext die i sl.doRestore else s.modSlice die i fun sl => { sl with ctx := none, st := .idle }
  s.endSwitch die i

end State

/-- The write of SLCTL: SAVE and RESTORE are set, and GO starts the switch; while GO reads 1 the write is ignored (R256). -/
def State.slctlWrite (s : State) (die slice : Nat) (v : Dword) : State :=
  let sl := s.slice die slice
  if 2 ≤ die ∨ 16 ≤ slice ∨ !s.plat.ready ∨ sl.go then s
  else
    let s := s.plainWrite die (Win.slctl slice) v
    if v.getLsbD 0 then s.modSlice die slice fun sl => { sl with
      st := .switching, go := true, goAt := s.pace die, doSave := v.getLsbD 2, doRestore := v.getLsbD 3 }
    else s

def execSlctlGo (die slice : Nat) (v : Dword) (s : State) : Host.Outcome State Fault Refusal := .next (s.slctlWrite die slice v)

/-- Every unit of a switching slice has come to its boundary: the switch is done. -/
def execSwitchComplete (die slice : Nat) (s : State) : Host.Outcome State Fault Refusal :=
  .next (if (s.slice die slice).st ≠ .switching then s
    else
      let t := (sliceUnits die slice).foldl State.stopUnit s
      if t.quietSlice die slice (s.slice die slice).doSave then t.completeSwitch die slice else s)

end Sys2Proof.Machine
end

