-- ==== Sys2Proof/Machine/Agents.lean ====
section
/-! DEFINITION. Agents that stop answering: heartbeats, fencing and what ends with it, the scrub, and the repair of replicated
pages whose home is lost (R407 to R418). -/
namespace Sys2Proof.Machine

open Bits

/-- The number under which a hearer keeps what it heard of an agent. -/
def agentNo : Agent → Nat
  | .die t => t
  | .host d => 16 + d

namespace State

/-- Whether a domain die belongs to the package of a die. -/
def samePkg (s : State) (d t : Nat) : Bool := t / 2 == s.domNo d / 2

/-- An agent is heard at the present tick (R407). -/
def hear (s : State) (d : Nat) (a : Agent) : State :=
  s.modDie d fun x => { x with heard := x.heard.set (agentNo a) (some x.pace) }

-- what ends when the other die of the package is fenced (R409, R410, R413, R415, R416)

/-- The causes of global stores whose acks will not come: one for each lane of a warp (R410). -/
def unacked (s : State) (os : List MemOp) : State :=
  let keys := (os.map fun o => (o.unit, o.slot, o.lane)).eraseDups
  let s := os.foldl (fun s o => s.endOp o []) s
  keys.foldl (fun s k =>
    let mine := os.filter fun o => o.unit == k.1 && o.slot == k.2.1 && o.lane == k.2.2
    let ea := ((mine.head?).map (·.ea)).getD 0
    let info := BitVec.ofNat 64 mine.length
    match s.warp k.1 k.2.1 with
    | some w => if w.live.getLsbD k.2.2 then s.strikeBoundary k.1 k.2.1 (lane k.2.2) Cause.unacked info ea
        else s.note w.ctx k.1 k.2.1 Cause.unacked ea info
    | none => match mine.head? with
      | some o => s.note o.ctx k.1 k.2.1 Cause.unacked ea info
      | none => s) s

/-- Accesses of a die's units that are on their way to the other die end (R409). A store that was stamped is left to the
repair of its page (R418). -/
def endAccesses (s : State) (d : Nat) : State :=
  let out := s.ops.filter fun o => o.unit.die == d && o.owner.isNone && homeDie o.pa != d && !(o.repl && o.stage == .waitApplied)
  let (stores, others) := out.partition fun o => o.kind == .store
  let s := others.foldl (fun s o => s.parkLate o ((lanes o.lanes).map fun l => ⟨l, Cause.dielost, 0, o.ea⟩)) s
  s.unacked stores

/-- Waits at hurdle words of the other die end with DIELOST (R409, log 31). -/
def endHurdleWaits (s : State) (d : Nat) : State :=
  s.cores.foldl (fun s c =>
    if (unitOf c.1).die ≠ d then s
    else c.2.warpList.foldl (fun s p => p.2.paths.foldl (fun s q => match q.wait with
      | .memHurdle a pa _ _ => if homeDie pa = d then s
          else s.parkBack (unitOf c.1) p.1 q.pc ((lanes q.mask).map fun l => ⟨l, Cause.dielost, 0, a⟩)
      | _ => s) s) s) s

/-- Copies whose receivers or places lie on the other die: the receivers count as refusing, and flits on their way there are
gone. A copy to its memory stops at the first chunk that was lost (R393, R409). -/
def endCopies (s : State) (d : Nat) : State :=
  let far := fun (f : Flit) => f.die != d || (f.bridge.isSome && f.issuer.die != d)
  let gone := s.flits.filter far
  let s := { s with flits := s.flits.filter fun f => !far f }
  let s := s.mapAllCmds fun c =>
    if c.unit.die ≠ d ∨ !c.isCopy ∨ c.accepted ||| c.refused = 0 then c
    else match recOf? c.rd with | some r => if r.space = 0 then c else s.refuseLost c r | none => c
  let cs := s.allCmds.filter fun c => c.unit.die == d && c.isCopy && (s.engRunning c.unit (copyEng c)).any fun r => r.id == c.id
  cs.foldl (fun s c => match recOf? c.ra, recOf? c.rd with
    | some a, some r =>
      let lost := (gone.filter fun f => f.cmd == c.id).map (·.chunk)
      if r.space = 0 ∧ lost ≠ [] then
        let c := { c with chunks := lost.foldl min c.chunks, runs := [] }
        (s.setRunning c.unit (copyEng c) (some c)).engStop c (copyEng c) 0 Cause.dielost 0
      else s.copySettle c (chunksOf a)
    | _, _ => s) s

/-- Collectives with a member that a die has fenced end at once (R409). -/
def endColls (s : State) (d : Nat) : State :=
  s.cores.foldl (fun s c =>
    let u := unitOf c.1
    if u.die ≠ d then s
    else match c.2.eng.colls.head?, (s.engQueue u 2).head? with
      | some p, some x => if x.id ≠ p.cmd then s else match s.collLost u p with
          | some r => s.collFail x Cause.colltime r
          | none => s
      | _, _ => s) s

/-- Tasks and batons on the lost die complete with AGENTDOWN (R409). -/
def endTasks (s : State) (o : Nat) : State :=
  s.cores.foldl (fun s c =>
    let u := unitOf c.1
    if u.die ≠ o then s
    else match (s.unitSlice u).ctx with
      | some d => ((c.2.taskQ.map (·.handle)) ++ c.2.warpList.map (fun p => p.2.handle)).foldl
          (fun s h => s.completeHandle d.ctxid h Cause.agentdown) s
      | none => s) s

/-- Resolves wait for the lost die's units no more (R409). -/
def endNotices (s : State) (o : Nat) : State :=
  { s with resolves := s.resolves.map fun (r : Resolve) => { r with
    toNotify := r.toNotify.filter fun u => u.die != o, toAck := r.toAck.filter fun u => u.die != o } }

/-- Versions held on the lost die are gone (R413, R416). -/
def endVersions (s : State) (o : Nat) : State :=
  let gone := s.vers.filter fun v => homeDie v.pa == o
  let s := { s with vers := s.vers.filter fun v => homeDie v.pa != o }
  ((gone.map fun v => (v.ctx, v.tag.toNat)).eraseDups).foldl (fun s k => s.syncVcnt k.1 k.2) s

/-- The slices of the lost die are lost as under a switch with SAVE = 0 (R415). -/
def endSlices (s : State) (o : Nat) : State :=
  (List.range 16).foldl (fun s i =>
    let s := match (s.slice o i).ctx with
      | some d => s.discardSlice d.ctxid o i (s.ctxRt d.ctxid).killed.isSome
      | none => s
    (s.emptySlice o i).modSlice o i fun sl => { sl with st := .idle, ctx := none, go := false }) s

/-- Physical places of the structures without which a context cannot run (R415), page by page. -/
def vitalPas (s : State) (c : CtxDesc) (d : Nat) : List Nat :=
  let root := match c.satpMode with
    | 0 => []
    | _ => match stage2 s d (s.ctxRt c.ctxid).pidx .read (c.root * 4096) with | .ok l => [l.pa] | .error _ => []
  let q := s.fqHdr c.ctxid
  let parts := [(c.ftbase.toNat, 16 * c.ftsize), (c.spbase.toNat, 64 * c.spcount), (c.hybase.toNat, 4096), (s.fqVa c.ctxid, 64),
    (q.base, 64 * 2 ^ q.log2n), (c.lqbase.toNat, 8 * if c.lqn = 0 then 16 else c.lqn)]
  ((parts.flatMap fun p => pagesOf p.1 p.2).map (s.ctxPa c.ctxid .read)) ++ root

/-- Contexts of a die with a vital structure in the lost range are killed (R415). -/
def endContexts (s : State) (d : Nat) (had : List (Nat × Nat)) : State :=
  let ids := (((List.range 16).filterMap fun i => (s.slice d i).ctx.map (·.ctxid)) ++ had.map (·.1)).eraseDups
  ids.foldl (fun s id =>
    let s := s.modCtxRt id fun c => if (c.die == d) then c else { c with die := d }
    let c := s.ctxDesc id
    let desc := (had.filter fun x => x.1 == id).map (·.2)
    if (s.vitalPas c d ++ desc).any fun a => homeDie a != d then
      s.killContext id ⟨Cause.dielost, 0, none, 0, 0, 0, 0, 0, 0, s.pace d⟩
    else s) s

/-- Contexts bound to slices, with the addresses of their descriptors. -/
def boundDescs (s : State) : List (Nat × Nat) :=
  s.slices.filterMap fun p => p.2.ctx.map fun c => (c.ctxid, (s.reg (p.1 / 16) (Win.slnext (p.1 % 16))).toNat / 256 * 256)

/-- A die loses the other die of its package (R409, R410, R413, R415, R416). -/
def losePeer (s : State) (d : Nat) : State :=
  let o := 1 - d
  let had := s.boundDescs
  let s := { s with agents := s.agents.map fun (p : Nat × LeaseAgent) =>
    if p.1 = hostAgent ∨ (unitOf p.1).die ≠ d then p
    else (p.1, { p.2 with copies := p.2.copies.filter fun c => homeDie (128 * c.1) == d }) }
  let s := ((s.endAccesses d).endHurdleWaits d).endTasks o
  let s := ((s.endCopies d).endColls d).endNotices o
  let s := { s with collNet := s.collNet.filter fun x => x.dst.die == d }
  let s := ((s.endSlices o).modDie o fun x => { x with launches := [] }).endVersions o
  let s := { s with beats := s.beats.filter fun b => (s.getOp b.op).isSome }
  s.endContexts d had

-- fencing (R407, R408)

/-- The report of a fenced agent. -/
def downReport (s : State) (d : Nat) (a : Agent) (scrub : Bool) : State :=
  let f := ((s.die d).heard.get (64 + agentNo a)).getD 0
  let (no, h) := match a with
    | .die t => (t, false)
    | .host k => (s.domNo k, true)
  s.dieReport d Cause.agentdown (pack [(4, no), (4, 0), (1, ofBool h), (1, ofBool scrub), (22, 0), (32, f)])

/-- A die fences an agent: what waits on it ends. The tick F is kept beside what was heard, 64 numbers up. -/
def fence (s : State) (d : Nat) (a : Agent) : State :=
  if (s.die d).fenced.contains a then s
  else
    let s := s.modDie d fun x => { x with fenced := a :: x.fenced, heard := x.heard.set (64 + agentNo a) (some x.pace) }
    let s := match a with
      | .host _ => s
      | .die w => if s.samePkg d w then s.losePeer d else s.endColls d
    s.downReport d a false

-- the scrub (R412)

/-- What names a fenced agent is taken out of a die's tables. -/
def scrubDie (s : State) (d : Nat) (a : Agent) : State :=
  match a with
  | .host _ => s
  | .die w =>
    let s := (s.die d).homeUpd.foldl (fun s h => if h.waiting.contains w then s.appliedAt d h.addr h.stamper w else s) s
    if !s.samePkg d w then s
    else
      let here := fun (id : Nat) => match s.getOp id with | some o => o.unit.die == d | none => false
      let s := { s with windows := (s.windows.filter fun (x : Window) => placeDie x.slice == d).map fun (x : Window) =>
        { x with members := x.members.filter here, late := x.late.filter fun l => here l.1 } }
      s.modDie d fun x => { x with
        tlb := (x.tlb.map fun p => (p.1, p.2.filter fun t => homeDie t.pa == d)).filter fun p => !p.2.isEmpty
        walks := x.walks.filter fun e => homeDie e.base == d }

-- replicated pages whose home is lost (R417, R418)

/-- Every update that a die may apply is applied, one after another. -/
def drain (d : Nat) : Nat → State → State
  | 0, s => s
  | n + 1, s => match (s.die d).upd.findIdx? (s.canApply d) with
    | some i => drain d n (s.applyUpdate d i)
    | none => s

/-- Two updates are the same one: equal in stamping die and in the stamper's entry (R418). -/
def sameStamp (a b : UpdateMsg) : Bool :=
  a.ptn == b.ptn && a.stamper == b.stamper && a.vc.getD a.stamper 0 == b.vc.getD b.stamper 0

/-- An update or void stamp that a survivor has sent is kept for step 3, unless it is known or applied already. A real update
takes the place of a void. -/
def exchanged (s : State) (d : Nat) (m : UpdateMsg) : State :=
  let k := s.clockOf d m.ptn
  let done := notAfter (m.vc.getD m.stamper 0) (if m.stamper = s.domNo d then k.getD 16 0 else k.getD m.stamper 0)
  s.modDie d fun x =>
    match x.upd.findIdx? (sameStamp m) with
    | some i => if m.words ≠ [] ∧ (x.upd.getD i default).words = [] then { x with upd := x.upd.set i m } else x
    | none => if done then x else { x with upd := x.upd ++ [m] }

/-- Own stamps whose stores were sent to a lost home and never acknowledged, as updates without words (R418). -/
def ownVoids (s : State) (d w : Nat) : List UpdateMsg :=
  let me := s.domNo d
  (s.ops.filter fun o => o.repl && o.stage == .waitApplied && homeDie o.pa == d &&
    !((s.die d).homeUpd.any fun h => h.op == some o.id) && s.replHome d (s.partOf o.unit) o.pa == w).map fun o =>
      ⟨o.pa / 128 * 128, [], o.vc, me, s.ptnOf d (s.partOf o.unit), w⟩

/-- The dies of this package that are at a step of the repair after the loss of w. -/
def repairing (s : State) (w step : Nat) : List Nat :=
  [0, 1].filter fun d => (s.die d).fenced.contains (.die w) && (s.die d).replay.get w == step

def setReplay (s : State) (d w step : Nat) : State := s.modDie d fun x => { x with replay := x.replay.set w step }

/-- Step 2 on a die: its log of pages homed on w, and its void stamps, go to the other survivors. -/
def sendLog (s : State) (d w : Nat) : State :=
  let me := s.domNo d
  let voids := s.ownVoids d w
  let ms := ((s.die d).log.filter fun m => m.home == w) ++ voids
  let s := s.modDie d fun x => { x with voids := x.voids ++ voids.map fun m => (w, m.addr, m.vc.getD me 0) }
  let s := voids.foldl (fun s m => s.exchanged d m) s
  ms.foldl (fun s m => (s.sharers d (s.entryOf d m.ptn)).foldl (fun s t =>
    if t = me then s
    else if s.samePkg d t then s.exchanged (t % 2) m
    else s.sendFrame d t 2 (updateBytes m)) s) s

/-- Pages of a die's replication tables that are homed on a lost die, each with its new home (R418). -/
def promotions (s : State) (d w : Nat) : List (Nat × Nat) :=
  (List.range 32).flatMap fun n => (s.replTable d n).filterMap fun e =>
    if homeDie (4096 * e.1) = d ∧ s.replHome d n (4096 * e.1) = w then
      ((List.range 16).find? fun t => bit e.2.1 t && !(s.die d).fenced.contains (.die t)).map fun t => (e.1, t)
    else none

/-- Step 5 on a die: stores whose acks were pending at w are reported (R410, R418). -/
def failAcks (s : State) (d w : Nat) : State :=
  let me := s.domNo d
  let lost := (s.die d).voids.filter fun v => v.1 == w
  let os := s.ops.filter fun o => o.repl && o.stage == .waitApplied && homeDie o.pa == d &&
    lost.any fun v => v.2.1 == o.pa / 128 * 128 && v.2.2 == o.vc.getD me 0
  (s.unacked os).modDie d fun x => { x with voids := x.voids.filter fun v => v.1 != w }

end State

/-- An agent of the package sends its heartbeat, 10,000 ticks after the one before (R407): a die also to every peer. -/
def execHeartbeatSend (a : Agent) (s : State) : Host.Outcome State Fault Refusal :=
  .next (match a with
    | .host d =>
      if 2 ≤ d ∨ s.pace d < s.plat.hostHbAt.get d + 10000 then s
      else
        let n := (s.plat.hostHb.get d + 1) % 2 ^ 32
        { s with
          plat := { s.plat with hostHb := s.plat.hostHb.set d n, hostHbAt := s.plat.hostHbAt.set d (s.pace d) }
          out := s.out ++ [.heartbeat a n] }
    | .die t =>
      let d := t % 2
      if s.domNo d ≠ t ∨ s.pace d < (s.die d).hbAt + 10000 then s
      else
        let n := ((s.die d).hbCount + 1) % 2 ^ 32
        let s := s.modDie d fun x => { x with hbCount := n, hbAt := x.pace }
        let s := { s with out := s.out ++ [.heartbeat a n] }
        ((List.range 16).filter fun p => !s.samePkg d p && s.peerOn d p).foldl (fun s p =>
          s.sendFrame d p 4 (State.msgHead 0 n 0 t (Config.msgType 4))) s)

/-- A die hears an agent; of its own package, one that has sent this heartbeat (R407). -/
def execHeartbeat (die : Nat) (a : Agent) (count : Nat) (s : State) : Host.Outcome State Fault Refusal :=
  let sent := match a with
    | .die t => if s.samePkg die t then t != s.domNo die && s.out.contains (.heartbeat a count) else s.peerOn die t
    | .host _ => s.out.contains (.heartbeat a count)
  .next (if 2 ≤ die ∨ (s.die die).fenced.contains a ∨ !sent then s else s.hear die a)

/-- Three heartbeats of an agent have been missed: it is fenced (R407, R408). -/
def State.agentDown (s : State) (die : Nat) (a : Agent) : State :=
  match (s.die die).heard.get (agentNo a) with
  | some t => if die < 2 ∧ t + 30000 ≤ s.pace die then s.fence die a else s
  | none => s

def execAgentDown (die : Nat) (a : Agent) (s : State) : Host.Outcome State Fault Refusal := .next (s.agentDown die a)

/-- The scrub engine has walked the tables of a die (R412). -/
def State.scrub (s : State) (die : Nat) (a : Agent) : State :=
  if !(s.die die).fenced.contains a ∨ (s.die die).scrubbed.contains a then s
  else ((s.scrubDie die a).modDie die fun x => { x with scrubbed := a :: x.scrubbed }).downReport die a true

def execScrub (die : Nat) (a : Agent) (s : State) : Host.Outcome State Fault Refusal := .next (s.scrub die a)

/-- Agents that a die has missed for 30,000 ticks are fenced, and 1 ms later the scrub has ended (R407, R412). -/
def State.agentsDue (s : State) (d : Nat) : State :=
  let all := ((List.range 16).map Agent.die) ++ [.host 0, .host 1]
  let s := all.foldl (fun (s : State) a => s.agentDown d a) s
  (s.die d).fenced.foldl (fun (s : State) a => match (s.die d).heard.get (64 + agentNo a) with
    | some f => if f + 1000000 ≤ s.pace d then s.scrub d a else s
    | none => s) s

def execReplayDrain (w : Nat) (s : State) : Host.Outcome State Fault Refusal :=
  .next ((s.repairing w 0).foldl (fun s d => (State.drain d (s.die d).upd.length s).setReplay d w 1) s)

/-- Entries are those that survivors of other packages have sent. -/
def execReplayExchange (w : Nat) (entries : List UpdateMsg) (s : State) : Host.Outcome State Fault Refusal :=
  .next (let ds := s.repairing w 1
    let s := ds.foldl (fun s d => s.sendLog d w) s
    ds.foldl (fun s d => (entries.foldl (fun s m => s.exchanged d m) s).setReplay d w 2) s)

def execReplayApply (w : Nat) (s : State) : Host.Outcome State Fault Refusal :=
  .next ((s.repairing w 2).foldl (fun s d =>
    let s := State.drain d (s.die d).upd.length s
    (s.modDie d fun x => { x with upd := x.upd.filter fun m => m.stamper != w }).setReplay d w 3) s)

def execHomePromote (w : Nat) (s : State) : Host.Outcome State Fault Refusal :=
  .next ((s.repairing w 3).foldl (fun s d =>
    let ps := s.promotions d w
    (s.modDie d fun x => { x with homes := ps.foldl (fun t p => t.set p.1 (some p.2)) x.homes }).setReplay d w 4) s)

def execReplayAcks (w : Nat) (s : State) : Host.Outcome State Fault Refusal :=
  .next ((s.repairing w 4).foldl (fun s d => (s.failAcks d w).setReplay d w 5) s)

end Sys2Proof.Machine
end

