-- ==== Sys2Proof/Machine/Convert.lean ====
section
/-! DEFINITION. Meanings of the conversion and predicate forms, with the draws of stochastic rounding (R86, R115 to
R121). -/
namespace Sys2Proof.Machine

open Bits Sys2Proof.Num

/-- A run of conversions in order: each draws once under STO (R86). Answers the encodings and the final state. -/
def convertAll (dst src : Ty) (rm : Round) (sat : Bool) : Nat → List Nat → List Nat × Nat
  | seed, [] => ([], seed)
  | seed, b :: r =>
    let q := if rm = .sto then draw (seedOf seed) else seed
    let t := convertAll dst src rm sat q r
    (convert dst src rm q sat b :: t.1, t.2)

/-- Elements of a container width packed into a register, element 0 lowest (R74). -/
def packElems (w : Nat) (es : List Nat) : Word := BitVec.ofNat 32 (pack (es.map fun e => (w, e)))

namespace State

/-- Elements converted for the executing lanes in lane order, within a lane in element order; SEED holds the final state
of STO (R86, R119). `n` elements come from each lane by `src`. -/
def convLanes (s : State) (h : Head) (dst ty : Ty) (rm : Round) (sat : Bool) (n : Nat) (src : Nat → Nat → Nat)
    (res : Nat → List Nat → List RegVal) : State :=
  let ls := lanes (s.execLanes h)
  let seed := s.curW.seed.toNat
  let r := convertAll dst ty rm sat seed (ls.flatMap fun l => (List.range n).map (src l))
  let rs := ls.zipIdx.flatMap fun p => res p.1 ((r.1.drop (n * p.2)).take n)
  ((s.write rs).modCur fun w => { w with seed := BitVec.ofNat 32 r.2 }).advance

end State

def execCvt (h : Head) (d a : VReg) (dst src : Ty) (rm : Round) (sat : Bool) (s : State) :
    Host.Outcome State Fault Refusal :=
  .next (s.convLanes h dst src rm sat 1 (fun l _ => (s.srcW l a src.wide).toNat % 2 ^ src.cont)
    fun l es => s.resW l d dst.wide (BitVec.ofNat 64 (es.headD 0)))

def execPack (h : Head) (d a : VReg) (dst src : Ty) (rm : Round) (sat : Bool) (s : State) :
    Host.Outcome State Fault Refusal :=
  .next (s.convLanes h dst src rm sat dst.packN (fun l i => (s.rv l (a.toNat + i)).toNat)
    fun l es => [s.vres l d.toNat (packElems dst.cont es)])

def execUnpk (h : Head) (d a : VReg) (dst src : Ty) (s : State) : Host.Outcome State Fault Refusal :=
  .next (s.perLane h fun l => (List.range src.packN).map fun i =>
    s.vres l (d.toNat + i) (BitVec.ofNat 32
      (roundTo dst .rne 0 (Num.decode src (field (s.rv l a.toNat).toNat (src.cont * i) src.cont)))))

/-- PLOP of R120. -/
def plop (lut : BitVec 4) (or : Bool) (a b c : Bool) : Bool :=
  let t := lut.getLsbD (2 * ofBool a + ofBool b)
  if or then t || c else t && c

def execPlop (h : Head) (d a b c : PReg) (lut : BitVec 4) (or : Bool) (s : State) : Host.Outcome State Fault Refusal :=
  .next (s.laneP h d fun l => plop lut or (s.rp l a.toNat) (s.rp l b.toNat) (s.rp l c.toNat))

def execPmov (h : Head) (f : PmovForm) (s : State) : Host.Outcome State Fault Refusal :=
  .next (match f with
    | .tov d => s.lane32 h d fun l => BitVec.ofNat 32 (pack ((List.range 8).map fun p => (1, ofBool (s.rp l p))))
    | .fromv a => s.perLane h fun l => (List.range 7).map fun p => State.pres l p ((s.rv l a.toNat).getLsbD p)
    | .sp d a => s.laneP h d fun _ => (s.hazard .sp a.toNat 0 (BitVec.ofNat 64 (ofBool (s.curW.sp.getLsbD a.toNat)))).getLsbD 0)

end Sys2Proof.Machine
end

