-- ==== Sys2Proof/Machine/Distrib.lean ====
section
/-! DEFINITION. Launch queues and the distributor: taking an entry, placement passes, carve-outs, and the congestion level
(R22, R23, R70, R257 to R266, R374). -/
namespace Sys2Proof.Machine

open Bits

-- launch descriptors and queue headers (R70, R257)

/-- A field of a descriptor given as dwords. -/
def descField (ds : List Dword) (lo n : Nat) : Nat := field (ofDwords (ds.map (·.toNat))) lo n

namespace Launch

def fld (l : Launch) (lo n : Nat) : Nat := descField l.desc lo n
def entry (l : Launch) : Dword := l.desc.getD 0 0
def teams (l : Launch) : Nat := l.fld 64 32 * l.fld 96 32 * l.fld 128 32
def teamLanes (l : Launch) : Nat := l.fld 160 16 * l.fld 176 16 * l.fld 192 16
def warps (l : Launch) : Nat := cdiv l.teamLanes 32
def regs (l : Launch) : Nat := l.fld 208 8
def carve (l : Launch) : Nat := l.fld 216 3
def scratch (l : Launch) : Nat := l.fld 224 32
def prio (l : Launch) : Nat := l.fld 256 2
def memb (l : Launch) : Bool := l.fld 288 1 == 1
def notify (l : Launch) : Bool := l.fld 289 1 == 1
def tiles (l : Launch) : Bool := l.fld 290 1 == 1
def argp (l : Launch) : Nat := l.fld 320 64
def arglen (l : Launch) : Nat := l.fld 384 16
def done (l : Launch) : Word := BitVec.ofNat 32 (l.fld 416 32)

/-- Scratchpad granules of a team (R260). -/
def scr (l : Launch) : Nat := cdiv l.scratch 4096

/-- The descriptor keeps to R70. -/
def ok (l : Launch) : Bool :=
  let one := fun (n hi : Nat) => decide (1 ≤ n ∧ n ≤ hi)
  l.fld 448 576 == 0 && l.fld 400 16 == 0 && l.fld 291 29 == 0 && l.fld 258 14 == 0 && l.fld 219 5 == 0 &&
  decide (l.arglen ≤ 256) && l.arglen % 8 == 0 && l.argp % 8 == 0 && l.carve != 7 && one l.regs 32 &&
  one l.teamLanes 1024 && one l.teams (2 ^ 28) && decide (l.scratch ≤ carveBytes l.carve) && l.entry.toNat % 8 == 0

end Launch

namespace State

/-- Eligible cores of a queue, in package order (R257). -/
def eligible (s : State) (ctx : Nat) (h : LHdr) : List UnitId :=
  (List.range 256).filterMap fun n =>
    let u : UnitId := ⟨.sc, n / 128, n % 128⟩
    if (s.ctxSlices ctx).contains (16 * u.die + sliceOf u) ∧ (h.ccount = 0 ∨ h.cfirst ≤ n ∧ n < h.cfirst + h.ccount) ∧
       (h.daff = 0 ∨ h.daff = u.die + 1) then some u else none

-- fitting (R260)

/-- Grid teams of a core. -/
def gridTeams (s : State) (u : UnitId) : List Team :=
  (s.core u).teams.filter fun t => match t.src with | .grid .. => true | _ => false

/-- The carve-out a core has, or is about to take on for a team placed on it (R263). -/
def coreCarve (s : State) (u : UnitId) : Nat := match s.gridTeams u with | t :: _ => t.carve | [] => (s.core u).carve

/-- Scratchpad granules of a core that a team at a carve-out would find free. -/
def scrFree (s : State) (u : UnitId) (c : Nat) : List Nat :=
  let used := (s.core u).teams.flatMap (·.grant)
  (List.range (carveBytes c / 4096)).filter fun g => !used.contains g

def tilesHeld (s : State) (u : UnitId) : Bool := (s.core u).teams.any (·.tiles)

/-- A team of a launch fits on a core. -/
def fits (s : State) (l : Launch) (u : UnitId) : Bool :=
  (s.unitSlice u).st == .running && decide (l.warps ≤ (s.freeSlots u).length) && decide (l.warps * l.regs ≤ s.granSpare u) &&
  (s.coreCarve u == l.carve || s.gridTeams u == []) && decide (l.scr ≤ (s.scrFree u l.carve).length) &&
  !(l.tiles && s.tilesHeld u)

/-- A team fits on an empty core. -/
def fitsEmpty (l : Launch) : Bool := decide (l.warps ≤ 64 ∧ l.warps * l.regs ≤ 512 ∧ l.scr ≤ carveBytes l.carve / 4096)

/-- Free units of the launch's limiting resource on a core (R260, R261). -/
def freeUnits (s : State) (l : Launch) (u : UnitId) : Nat :=
  let perScr := if l.scr = 0 then 1024 else carveBytes l.carve / 4096 / l.scr
  let perReg := 512 / (l.warps * l.regs)
  let perSlot := 64 / l.warps
  if l.tiles then (if s.tilesHeld u then 0 else 1)
  else if perScr ≤ perReg ∧ perScr ≤ perSlot then (s.scrFree u l.carve).length
  else if perReg ≤ perSlot then s.granSpare u
  else (s.freeSlots u).length

-- taking an entry (R258, R374)

/-- What the distributor finds wrong with an entry: the cause that ranks first. -/
def launchCause (s : State) (h : LHdr) (l : Launch) : Option Nat :=
  let ctx := l.ctx
  let es := s.eligible ctx h
  let badHdr := h.daff = 3 ∨ 256 < h.cfirst + h.ccount
  let argOk := l.arglen == 0 || (match (s.ctxRt ctx).desc with
    | some d => [l.argp, l.argp + l.arglen - 1].all fun a =>
        match translate s (s.ctxRt ctx).die d (s.ctxRt ctx).pidx false .read a with | .ok _ => true | .error _ => false
    | none => false)
  if !l.ok then some Cause.lqdesc
  else if es ≠ [] ∧ !badHdr ∧ !fitsEmpty l then some Cause.lqfit
  else if l.fld 272 16 ≠ s.ptnOf (homeDie h.pa) (s.ctxPart ctx) ∨ (es = [] ∧ !badHdr) then some Cause.lqptn
  else if l.done ≠ 0 ∧ !(s.handleOk ctx l.done && (s.fslot ctx (handleSlot l.done)).st == 1) then some Cause.donebad
  else if badHdr then some Cause.lqhdr
  else if !argOk then some Cause.argread
  else none

/-- A report of the distributor (R374). -/
def launchReport (s : State) (d ctx cause : Nat) : State :=
  s.report ctx ⟨cause, resOf cause, none, 0, 0, 0, 0, 0, 0, s.pace d⟩

/-- The entry RIDX of a queue as a launch. -/
def nextLaunch (s : State) (d ctx q : Nat) (h : LHdr) : Launch :=
  let at_ := h.base + 128 * (h.ridx % 2 ^ h.log2n)
  let ds := (List.range 16).map fun i => BitVec.ofNat 64 (s.ctxRead ctx (at_ + 8 * i) 8)
  let l : Launch := { (default : Launch) with ctx := ctx, queue := q, ridx := h.ridx, hdr := h.pa, desc := ds, opent := s.pace d }
  { l with args := (List.range (min l.arglen 256 / 8)).flatMap fun i => toBytes (s.ctxRead ctx (l.argp + 8 * i) 8) 8 }

/-- NEXT, LIVE, LRH and OPENT of the open launch (R257). -/
def storeOpen (s : State) (l : Launch) (live lrh : Nat) : State :=
  let s := s.devStoreN (l.hdr + 40) 4 live
  let s := s.devStoreN (l.hdr + 44) 4 (pack [(4, lrh), (28, l.next)])
  s.devStoreN (l.hdr + 48) 8 l.opent

/-- The distributor takes the entry RIDX of a queue it serves, where it may (R258). -/
def takeLaunch (s : State) (d ctx q : Nat) : State :=
  if q ≥ s.lqCount ctx ∨ s.ctxSlices ctx = [] ∨ (s.ctxRt ctx).killed.isSome then s
  else
    let h := s.lqHdr ctx q
    let opened := [0, 1].any fun d => (s.die d).launches.any fun l => l.ctx == ctx && l.queue == q
    if homeDie h.pa ≠ d then s
    else
      let s := s.seeStop d ctx q h.stop
      if h.stop ∨ h.ridx = h.widx ∨ opened ∨ s.queueStuck d ctx q then s
      else
        let l := s.nextLaunch d ctx q h
        match s.launchCause h l with
        | some c => (s.modDie d fun x => { x with stuckQ := x.stuckQ ++ [(ctx, q, false)] }).launchReport d ctx c
        | none =>
          let s := (s.storeOpen l 0 0).devStoreN (h.pa + 16) 8 ((h.ridx + 1) % 2 ^ 64)
          let s := s.modDie d fun x => { x with launches := x.launches ++ [l] }
          { s with grids := s.grids ++ [{ (default : Grid) with
            ctx := ctx, queue := q, ridx := h.ridx, hdr := h.pa, live := 0, total := l.teams, done := l.done, notify := l.notify }] }

-- placement (R259 to R262)

/-- Effective priority of an open launch (R259). -/
def effPrio (now : Nat) (l : Launch) : Nat := min 3 (l.prio + (now - l.opent) / 16384)

/-- It has stood at effective priority 3 for 16,384 ticks. -/
def blocking (now : Nat) (l : Launch) : Bool := decide (l.opent + (4 - l.prio) * 16384 ≤ now)

/-- The order of a placement pass. -/
def before (now : Nat) (a b : Launch) : Bool :=
  let x := effPrio now a
  let y := effPrio now b
  decide (y < x) || (x == y && (decide (a.opent < b.opent) || (a.opent == b.opent &&
    (decide (a.ctx < b.ctx) || (a.ctx == b.ctx && decide (a.queue < b.queue))))))

def insertLaunch (now : Nat) (l : Launch) : List Launch → List Launch
  | [] => [l]
  | x :: r => if before now l x then l :: x :: r else x :: insertLaunch now l r

/-- The core that receives the next team (R261). -/
def pickCore (s : State) (l : Launch) (us : List UnitId) (first : Bool) : Option UnitId :=
  match us.filter (s.fits l) with
  | [] => none
  | u :: r => some (if first then u else r.foldl (fun a b => if s.freeUnits l a < s.freeUnits l b then b else a) u)

/-- Warp i of a team as it starts (R19, R23). -/
def gridWarp (s : State) (l : Launch) (u : UnitId) (slot uid seq i heat : Nat) : Warp :=
  let w := startingWarp (s.ctxDesc l.ctx) u slot uid l.entry (firstLanes (l.teamLanes - 32 * i)) seq
  { w with
    widx := i, teamIdx := l.next, heat := min heat 15, gran := l.regs, memb := l.memb, prio := l.prio
    k := (List.range 32).foldl (fun k j => k.set j (BitVec.ofNat 64 (ofBytes ((l.args.drop (8 * j)).take 8)))) w.k }

/-- The warps of a team take their slots, in warp-index order (R262). -/
def placeWarps (l : Launch) (u : UnitId) (uid heat : Nat) : Nat → State → State
  | 0, s => s
  | n + 1, s =>
    match s.pickSlot u with
    | none => s
    | some (slot, qp) =>
      let (seq, s) := s.fresh
      let w := s.gridWarp l u slot uid seq (l.warps - (n + 1)) heat
      placeWarps l u uid heat n ((s.modCore u fun c => { c with qp := qp }).setWarp u slot (some w))

/-- A team of a launch is placed on a core; which of its free granules it is granted is open (R262). -/
def placeTeam (s : State) (l : Launch) (u : UnitId) (heat : Nat) : State :=
  let (uid, s) := s.fresh
  let (gs, s) := pickFree l.scr s (s.scrFree u l.carve)
  let t : Team := { (default : Team) with
    uid := uid, ctx := l.ctx, src := .grid l.queue l.ridx, idx := l.next, heat := heat, nwarps := l.warps, carve := l.carve
    grant := gs, tiles := l.tiles }
  placeWarps l u uid heat l.warps (s.modCore u fun c => { c with teams := c.teams ++ [t] })

/-- Teams of a launch are placed in index order until the next fits nowhere; answers how many were placed. -/
def placeTeams (us : List UnitId) (first : Bool) (heat : Nat) : Nat → State → Launch → Nat × Launch × State
  | 0, s, l => (0, l, s)
  | n + 1, s, l =>
    match s.pickCore l us first with
    | none => (0, l, s)
    | some u =>
      let (k, l, s) := placeTeams us first heat n (s.placeTeam l u heat) { l with next := l.next + 1 }
      (k + 1, l, s)

def sameLaunch (a b : Launch) : Bool := a.ctx == b.ctx && a.queue == b.queue && a.ridx == b.ridx

/-- One launch's turn in a pass; answers whether it placed a team. -/
def launchTurn (s : State) (d : Nat) (l : Launch) : Bool × State :=
  let put := fun (s : State) (l : Launch) => s.modDie d fun x => { x with launches := x.launches.map fun y => if sameLaunch y l then l else y }
  match s.eligible l.ctx (s.lqHdr l.ctx l.queue) with
  | [] => (false, if l.lost then s else (put s { l with lost := true }).launchReport d l.ctx Cause.lqptn)
  | us =>
    let lrh := field (s.peek (l.hdr + 44) 4) 0 4
    let heat := if !l.placed then 0 else 1 + l.maxHeat.getD lrh
    let (n, l', s) := placeTeams us (!l.placed) heat (l.teams - l.next) s { l with lost := false }
    if n = 0 then (false, put s l')
    else
      let l' := { l' with placed := true, maxHeat := none, opent := s.pace d }
      let up := fun (g : Grid) => if g.ctx == l.ctx && g.queue == l.queue && g.ridx == l.ridx then { g with live := g.live + n } else g
      let s := { s with grids := s.grids.map up }
      let live := ((s.grids.find? fun g => g.ctx == l.ctx && g.queue == l.queue && g.ridx == l.ridx).map (·.live)).getD 0
      let s := s.storeOpen l' live lrh
      (true, if l'.teams ≤ l'.next then s.modDie d fun x => { x with launches := x.launches.filter fun y => !sameLaunch y l' }
        else put s l')

/-- The launches of a pass in order; a blocking one that places nothing ends the pass (R259). -/
def passLaunches (d now : Nat) : List Launch → State → State
  | [], s => s
  | l :: r, s =>
    let (ok, s) := s.launchTurn d l
    if !ok && blocking now l then s else passLaunches d now r s

/-- A placement pass (R259): one in a tick, with the launches opened in earlier ticks, and none in a tick in which capacity has been
freed already, since it is for later passes. -/
def placementPass (s : State) (d : Nat) : State :=
  let now := s.pace d
  if now ≤ (s.die d).lastPass ∨ (s.die 0).freedAt = s.pace 0 + 1 ∨ (s.die 1).freedAt = s.pace 1 + 1 then s
  else
    let s := s.modDie d fun x => { x with lastPass := now }
    let ls := (s.die d).launches.filter fun l => decide (l.opent < now)
    passLaunches d now (ls.foldl (fun r l => insertLaunch now l r) []) s

/-- Every header that a die's distributor serves is read (R258). -/
def pollHeaders (s : State) (d : Nat) : State :=
  let s := s.modDie d fun x => { x with polled := x.pace }
  s.ctxs.foldl (fun s c => (List.range (s.lqCount c.1)).foldl (fun s q => s.takeLaunch d c.1 q) s) s

end State

def execLaunchEntryTake (die ctx queue : Nat) (s : State) : Host.Outcome State Fault Refusal := .next (s.takeLaunch die ctx queue)

/-- The distributor reads every header it serves, each 16,384 ticks (R258). -/
def execQueueHeaderPoll (die : Nat) (s : State) : Host.Outcome State Fault Refusal :=
  .next (if s.pace die < (s.die die).polled + 16384 then s else s.pollHeaders die)

def execPlacementPass (die : Nat) (s : State) : Host.Outcome State Fault Refusal := .next (s.placementPass die)

def execCarveoutSwitch (u : UnitId) (code : Nat) (s : State) : Host.Outcome State Fault Refusal :=
  .next (if s.gridTeams u ≠ [] ∧ s.coreCarve u = code ∧ (s.core u).carve ≠ code then
    (s.modCore u fun c => { c with carve := code, scr := [] }).shrinkCache u (s.core u).carve else s)

-- congestion (R265, R266)

def execCongestionWindow (die : Nat) (occ : List Nat) (s : State) : Host.Outcome State Fault Refusal :=
  let cfg := (s.reg die Win.congCfg).toNat
  let level := fun (n : Nat) => ((List.range 3).filter fun i => decide (field cfg (8 * i) 8 ≤ n)).length
  .next (if s.pace die = 0 ∨ s.pace die % 256 ≠ 0 then s
    else s.modDie die fun x => { x with cong := (List.range 32).foldl (fun t c => t.set c (level (occ.getD c 0))) x.cong })

def execAdmissionTimeout (u : UnitId) (slot : Nat) (s : State) : Host.Outcome State Fault Refusal :=
  .next (s.modCore u fun c => { c with admitted := c.admitted.filter fun a => !(a.slot == slot && decide (a.idle + 10240 ≤ s.cycles u)) })

end Sys2Proof.Machine
end

