-- ==== Sys2Proof/Machine/Fp.lean ====
section
/-! DEFINITION. Meanings of the floating-point forms: FP32, packed F16 and FP64 (R88, R89, R110 to R114). -/
namespace Sys2Proof.Machine

open Bits Sys2Proof.Num

/-- A function on F32 encodings as one on registers, with the clamp of SAT (R111). -/
def f32Op1 (f : Nat → Nat) (a : Word) : Word := BitVec.ofNat 32 (f a.toNat)
def f32Op2 (sat : Bool) (f : Nat → Nat → Nat) (a b : Word) : Word := BitVec.ofNat 32 (satIf sat f32 (f a.toNat b.toNat))
def f32Op3 (sat : Bool) (f : Nat → Nat → Nat → Nat) (a b c : Word) : Word :=
  BitVec.ofNat 32 (satIf sat f32 (f a.toNat b.toNat c.toNat))

/-- An operation on the two F16 elements of registers (R113). -/
def hxOp2 (sat : Bool) (f : Nat → Nat → Nat) (a b : Word) : Word :=
  let e := fun i => satIf sat f16 (f (field a.toNat (16 * i) 16) (field b.toNat (16 * i) 16))
  BitVec.ofNat 32 (pack [(16, e 0), (16, e 1)])

def hxOp3 (sat : Bool) (f : Nat → Nat → Nat → Nat) (a b c : Word) : Word :=
  let e := fun i => satIf sat f16 (f (field a.toNat (16 * i) 16) (field b.toNat (16 * i) 16) (field c.toNat (16 * i) 16))
  BitVec.ofNat 32 (pack [(16, e 0), (16, e 1)])

def f64Op2 (f : Nat → Nat → Nat) (a b : Dword) : Dword := BitVec.ofNat 64 (f a.toNat b.toNat)
def f64Op3 (f : Nat → Nat → Nat → Nat) (a b c : Dword) : Dword := BitVec.ofNat 64 (f a.toNat b.toNat c.toNat)

def execFadd (h : Head) (d a : VReg) (b : SrcB) (sat : Bool) (s : State) : Host.Outcome State Fault Refusal :=
  .next (s.lane32 h d fun l => f32Op2 sat (addE f32) (s.rv l a.toNat) (s.srcB l b))

def execFsub (h : Head) (d a : VReg) (b : SrcB) (sat : Bool) (s : State) : Host.Outcome State Fault Refusal :=
  .next (s.lane32 h d fun l => f32Op2 sat (subE f32) (s.rv l a.toNat) (s.srcB l b))

def execFmul (h : Head) (d a : VReg) (b : SrcB) (sat : Bool) (s : State) : Host.Outcome State Fault Refusal :=
  .next (s.lane32 h d fun l => f32Op2 sat (mulE f32) (s.rv l a.toNat) (s.srcB l b))

def execFfma (h : Head) (d a : VReg) (b : SrcB) (c : VReg) (sat : Bool) (s : State) :
    Host.Outcome State Fault Refusal :=
  .next (s.lane32 h d fun l => f32Op3 sat (fmaE f32) (s.rv l a.toNat) (s.srcB l b) (s.rv l c.toNat))

def execFmin (h : Head) (d a : VReg) (b : SrcB) (s : State) : Host.Outcome State Fault Refusal :=
  .next (s.lane32 h d fun l => f32Op2 false (minE f32) (s.rv l a.toNat) (s.srcB l b))

def execFmax (h : Head) (d a : VReg) (b : SrcB) (s : State) : Host.Outcome State Fault Refusal :=
  .next (s.lane32 h d fun l => f32Op2 false (maxE f32) (s.rv l a.toNat) (s.srcB l b))

def execFcmp (h : Head) (cc : Cmp) (d : PReg) (a : VReg) (b : SrcB) (c : PReg) (s : State) :
    Host.Outcome State Fault Refusal :=
  .next (s.laneP h d fun l =>
    fcond cc (decodeF f32 (s.rv l a.toNat).toNat) (decodeF f32 (s.srcB l b).toNat) && s.rp l c.toNat)

def execFrcp (h : Head) (d a : VReg) (s : State) : Host.Outcome State Fault Refusal :=
  .next (s.laneVar32 h d fun l => f32Op1 (rcpE f32) (s.rv l a.toNat))

def execFrsq (h : Head) (d a : VReg) (s : State) : Host.Outcome State Fault Refusal :=
  .next (s.laneVar32 h d fun l => f32Op1 (rsqE f32) (s.rv l a.toNat))

def execFsqrt (h : Head) (d a : VReg) (s : State) : Host.Outcome State Fault Refusal :=
  .next (s.laneVar32 h d fun l => f32Op1 (sqrtE f32) (s.rv l a.toNat))

def execFexp2 (h : Head) (d a : VReg) (s : State) : Host.Outcome State Fault Refusal :=
  .next (s.laneVar32 h d fun l => f32Op1 exp2F32 (s.rv l a.toNat))

def execFlog2 (h : Head) (d a : VReg) (s : State) : Host.Outcome State Fault Refusal :=
  .next (s.laneVar32 h d fun l => f32Op1 log2F32 (s.rv l a.toNat))

def execFsin (h : Head) (d a : VReg) (s : State) : Host.Outcome State Fault Refusal :=
  .next (s.laneVar32 h d fun l => f32Op1 sinF32 (s.rv l a.toNat))

def execFcos (h : Head) (d a : VReg) (s : State) : Host.Outcome State Fault Refusal :=
  .next (s.laneVar32 h d fun l => f32Op1 cosF32 (s.rv l a.toNat))

def execFtanh (h : Head) (d a : VReg) (s : State) : Host.Outcome State Fault Refusal :=
  .next (s.laneVar32 h d fun l => f32Op1 tanhF32 (s.rv l a.toNat))

def execFrnd (h : Head) (d a : VReg) (rm : Round) (s : State) : Host.Outcome State Fault Refusal :=
  .next (s.lane32 h d fun l => f32Op1 (rndF32 rm) (s.rv l a.toNat))

def execFfrc (h : Head) (d a : VReg) (s : State) : Host.Outcome State Fault Refusal :=
  .next (s.lane32 h d fun l => f32Op1 frcF32 (s.rv l a.toNat))

def execHxadd (h : Head) (d a : VReg) (b : SrcB) (sat : Bool) (s : State) : Host.Outcome State Fault Refusal :=
  .next (s.lane32 h d fun l => hxOp2 sat (addE f16) (s.rv l a.toNat) (s.srcB l b))

def execHxmul (h : Head) (d a : VReg) (b : SrcB) (sat : Bool) (s : State) : Host.Outcome State Fault Refusal :=
  .next (s.lane32 h d fun l => hxOp2 sat (mulE f16) (s.rv l a.toNat) (s.srcB l b))

def execHxfma (h : Head) (d a : VReg) (b : SrcB) (c : VReg) (sat : Bool) (s : State) :
    Host.Outcome State Fault Refusal :=
  .next (s.lane32 h d fun l => hxOp3 sat (fmaE f16) (s.rv l a.toNat) (s.srcB l b) (s.rv l c.toNat))

def execHxmax (h : Head) (d a : VReg) (b : SrcB) (min : Bool) (s : State) : Host.Outcome State Fault Refusal :=
  .next (s.lane32 h d fun l => hxOp2 false (if min then minE f16 else maxE f16) (s.rv l a.toNat) (s.srcB l b))

def execDadd (h : Head) (d a : VReg) (b : SrcB) (s : State) : Host.Outcome State Fault Refusal :=
  .next (s.laneVar64 h d fun l => f64Op2 (addE f64) (s.rv2 l a.toNat) (s.srcB2 l b))

def execDmul (h : Head) (d a : VReg) (b : SrcB) (s : State) : Host.Outcome State Fault Refusal :=
  .next (s.laneVar64 h d fun l => f64Op2 (mulE f64) (s.rv2 l a.toNat) (s.srcB2 l b))

def execDfma (h : Head) (d a : VReg) (b : SrcB) (c : VReg) (s : State) : Host.Outcome State Fault Refusal :=
  .next (s.laneVar64 h d fun l => f64Op3 (fmaE f64) (s.rv2 l a.toNat) (s.srcB2 l b) (s.rv2 l c.toNat))

def execDcmp (h : Head) (cc : Cmp) (d : PReg) (a : VReg) (b : SrcB) (c : PReg) (s : State) :
    Host.Outcome State Fault Refusal :=
  .next (s.perLaneVar h fun l => [State.pres l d.toNat
    (fcond cc (decodeF f64 (s.rv2 l a.toNat).toNat) (decodeF f64 (s.srcB2 l b).toNat) && s.rp l c.toNat)])

end Sys2Proof.Machine
end

