-- ==== Sys2Proof/Machine/MemEvents.lean ====
section
/-! DEFINITION. Meanings of the events of the memory system: accesses at home and their answers, package time, replicas,
merged reads, hurdle arrivals, translation, resolves and the version store (R149, R164, R170 to R173, R180, R185 to R188,
R230 to R245, R330, R384). An event whose condition does not hold changes nothing. -/
namespace Sys2Proof.Machine

open Bits

namespace State

/-- A store or atomic on its way to the home of its page, as a message of class 0: 80 bytes of a store, 64 of an atomic or of a
hurdle arrival (R334, log 30). -/
def reqBytes (o : MemOp) (vc : List Nat) (ptn me : Nat) : List Byte :=
  match o.kind with
  | .atomic | .hurdle => msgHead o.pa (pack [(4, if o.kind = .hurdle then 15 else o.aop.code), (8, o.n)]) ptn me (Config.msgType 5) ++
      ((List.range 16).flatMap fun i => toBytes (vc.getD i 0) 2) ++ toBytes o.data 8 ++ toBytes o.cmp 8
  | _ => storeMsg (o.pa / 32 * 32) ((2 ^ o.n - 1) * 2 ^ (o.pa % 32)) (o.data % 2 ^ (8 * o.n) * 2 ^ (8 * (o.pa % 32))) vc ptn me

/-- An event about an access of a kind. -/
def onOp (s : State) (id : Nat) (ok : MemOp → Bool) (f : MemOp → State) : State :=
  match s.getOp id with
  | some o => if ok o then f o else s
  | none => s

-- package time (R239)

/-- The slices agree PT and send it to every agent; stores that wait for it are performed. -/
def exchangePt (s : State) : State :=
  let waiting := s.ops.filter fun o => o.stage == .waitPt
  let pt := waiting.foldl (fun t o => later t o.wts) (later s.pt s.latest)
  let s := { s.sendPt pt with ptSent := max (s.pace 0) (s.pace 1) }
  waiting.foldl (fun s o => s.performOp o) s

-- merged reads (R170 to R173)

/-- Addresses of the lines of a range that a slice homes, or an expander port serves. -/
def segment (pa lines home : Nat) : List Nat :=
  ((List.range lines).map fun i => pa + 128 * i).filter fun a => servedAt a == home

/-- The stores of an LDM's warp to its range are all acknowledged (R172). -/
def ldmClear (s : State) (o : MemOp) : Bool :=
  s.ops.all fun e => !(e.unit == o.unit && e.slot == o.slot && decide (e.id < o.id) && e.kind == .store &&
    decide (e.pa < o.pa + o.n ∧ o.pa < e.pa + e.n))

/-- A window closes: the segment is read at home once (R171). A granule in error parks the lanes of every member. -/
def closeWindow (s : State) (w : Window) : State :=
  let as := segment w.pa w.lines w.slice
  match as.findSome? fun a => s.homeBad a 128 with
  | some (c, g) =>
    let s := { s with windows := s.windows.filter fun x => x.id != w.id }
    w.members.foldl (fun s id => match s.getOp id with
      | some o => s.parkLate o ((lanes o.lanes).map fun l => ⟨l, c, 0, BitVec.ofNat 64 g⟩)
      | none => s) s
  | none =>
    let cls := w.members.findSome? fun id => (s.getOp id).map fun o => s.regulatorOf o
    let s := match cls with
      | some r => as.foldl (fun (s : State) a => s.touch a (r / 8) (r % 8) false) s
      | none => s
    let beats := as.flatMap fun a => [memBytes s.mem a 64, memBytes s.mem (a + 64) 64]
    let addrs := as.flatMap fun a => [a, a + 64]
    { s with windows := s.windows.map fun (x : Window) =>
        if x.id == w.id then { x with opened := false, beats := beats, addrs := addrs, next := 0 } else x }

/-- A segment request arrives at a slice (R171), or at an expander port, which reads for it alone (R330). -/
def segmentArrive (s : State) (o : MemOp) (home : Nat) : State :=
  let lines := o.n / 128
  let part := s.partOf o.unit
  let key := fun (w : Window) => w.slice == home && w.ctx == part && w.pa == o.pa && w.lines == lines
  let s := s.setOp { o with vc := home :: o.vc }
  let now := s.pace (placeDie home)
  let alone := decide (64 ≤ home)
  let window := fun (id : Nat) => { (default : Window) with
    id := id, slice := home, ctx := part, pa := o.pa, lines := lines, closesAt := if alone then now else now + 64, opened := true
    members := [o.id] }
  if alone then
    let (id, s) := s.fresh
    let s := { s with windows := s.windows ++ [window id] }
    s.closeWindow (window id)
  else match s.windows.find? fun w => key w && w.opened && decide (now < w.closesAt) with
  | some w => { s with windows := s.windows.map fun (x : Window) => if x.id == w.id then { x with members := x.members ++ [o.id] } else x }
  | none => match s.windows.find? fun w => key w && !w.opened && decide (w.next < w.beats.length) &&
        !w.tainted.contains (o.unit, o.slot) with
    | some w => { s with windows := s.windows.map fun (x : Window) =>
        if x.id == w.id then { x with late := x.late ++ [(o.id, x.next)] } else x }
    | none =>
      let (id, s) := s.fresh
      { s with windows := s.windows ++ [window id] }

/-- The next beat of a multicast leaves; behind the last, late joiners get what they missed (R171). -/
def sendBeat (s : State) (w : Window) : State :=
  let b := fun (op i : Nat) => (⟨op, w.addrs.getD i 0, w.beats.getD i []⟩ : Beat)
  let takers := w.members ++ (w.late.filter fun l => decide (l.2 ≤ w.next)).map (·.1)
  let s := { s with beats := s.beats ++ takers.map fun op => b op w.next }
  if w.next + 1 < w.beats.length then
    { s with windows := s.windows.map fun (x : Window) => if x.id == w.id then { x with next := w.next + 1 } else x }
  else
    { s with
      beats := s.beats ++ w.late.flatMap fun l => (List.range l.2).map fun i => b l.1 i
      windows := s.windows.filter fun x => x.id != w.id }

/-- A beat is written to the scratchpad of its LDM (R173), its 64 bytes at once (log 103). -/
def takeBeat (s : State) (o : MemOp) : State :=
  match s.beats.findIdx? fun b => b.op == o.id with
  | none => s
  | some i =>
    let b := s.beats.getD i default
    let u := o.owner.getD default
    let t := s.team? u o.team
    let s := { s with beats := s.beats.eraseIdx i }
    let a := scrAddr (if u.kind = .sc then t else none) (o.data + (b.pa - o.pa))
    let s := (s.healGranules (scrStorage u).1 4 a 64).2.scrPut u a b.data
    if o.line ≤ 1 then s.endOp o [] else s.setOp { o with line := o.line - 1 }

-- scratchpad ports (R164)

/-- A scratchpad access is performed at the owning core's port. -/
def portAccess (s : State) (o : MemOp) : State :=
  let u := o.owner.getD default
  let (st, cause) := scrStorage u
  let bad := if o.kind = .scrStore then none else s.badIn st 4 o.pa o.n
  match bad with
  | some g => s.parkLate o ((lanes o.lanes).map fun l => ⟨l, cause, 0, BitVec.ofNat 64 (4 * g)⟩)
  | none =>
    let old := ofBytes (s.scrBytes u o.pa o.n)
    let put := fun (bs : List Byte) =>
      let (part, s) := s.healGranules st 4 o.pa o.n
      let s := part.foldl (fun (s : State) g => s.note o.ctx o.unit o.slot cause (BitVec.ofNat 64 (4 * g)) 0) s
      s.scrPut u o.pa bs
    match o.kind with
    | .scrStore => (put (toBytes o.data o.n)).endOp o []
    | .scrAtomic => (put (toBytes (atomNew o.aop (8 * o.n) old o.data o.cmp) o.n)).endOp o (resultsOf o old)
    | _ => s.endOp o (resultsOf o old)

-- translation buffers (R233, R234)

/-- A translation enters a buffer of so many entries; a full one makes room (R233). -/
def putTlb (size k : Nat) (t : Tlb) (l : List Tlb) : List Tlb :=
  (if l.length < size then l else l.eraseIdx (Config.tlbVictim k (t.va / 4096) % l.length)) ++ [t]

/-- Cached translations and entries that a walk would have used but for an uncorrectable error are dropped, and the error is
reported (R406). -/
def dropBadEnts (s : State) (u : UnitId) (c : CtxDesc) (pidx va gpa : Nat) : State :=
  let vmid := vmidOf s u.die pidx
  let t? := fun (t : Tlb) => t.bad && t.vmid == vmid && (t.global || t.asid == c.asid) && t.va / 2 ^ t.bits == va / 2 ^ t.bits
  let w? := fun (e : WalkEnt) => e.bad && e.vmid == vmid && (!e.st1 || e.asid == c.asid) &&
    e.pfx == (if e.st1 then va else gpa) / 2 ^ (21 + 9 * e.lvl)
  let x := s.die u.die
  let n := ((tlbsOf u).flatMap x.tlb.get).countP t? + x.walks.countP w?
  let s := s.modDie u.die fun d => { d with
    tlb := (tlbsOf u).foldl (fun b k => b.modify k fun l => l.filter fun t => !t? t) d.tlb
    walks := d.walks.filter fun e => !w? e }
  (List.range n).foldl (fun (s : State) _ => s.note c.ctxid u 0 Cause.cacheecc 0 0) s

/-- A walk fills the translation buffers of its unit and cluster with the translation, where some access may use it, and the die's
walk cache with the tables it went through (R233). -/
def fillTlb (s : State) (u : UnitId) (va : Nat) : State :=
  let sl := s.unitSlice u
  match sl.ctx with
  | none => s
  | some c =>
    match [Need.read, Need.exec, Need.write].findSome? fun n =>
      match walkBoth s u.die c sl.pidx false n va with | .ok x => some x | .error _ => none with
    | none => s
    | some x =>
      let vmid := vmidOf s u.die sl.pidx
      if 64 ≤ x.bits ∨ (tlbHit s u c sl.pidx va).isSome then s
      else
        let t : Tlb := {
          ctx := c.ctxid, asid := c.asid, vmid := vmid, va := va, pa := x.pa, bits := x.bits, perm1 := x.perm1
          perm2 := x.perm2, global := x.perm1.getLsbD 5, gpa := x.gpa, nocache := x.nocache, repl := x.repl, lvl1 := x.lvl1
          lvl2 := x.lvl2, bad := false }
        let ent := fun (st1 : Bool) (addr : Nat) (p : Nat × Nat) => (⟨vmid, c.asid, st1, p.1, addr / 2 ^ (21 + 9 * p.1), p.2, false⟩ : WalkEnt)
        let new := (walked1 s u.die c sl.pidx va).map (ent true va) ++ (walked2 s u.die sl.pidx x.gpa).map (ent false x.gpa)
        let s := s.dropBadEnts u c sl.pidx va x.gpa
        s.modDie u.die fun d => { d with
          tlb := (tlbsOf u).foldl (fun b k => b.modify k (putTlb (if k = unitNo u then 128 else 4096) k t)) d.tlb
          walks := d.walks ++ new.filter fun e => !d.walks.contains e }

/-- Whether an invalidation names a cached translation (R234). -/
def invMatches (v page : Nat) (t : Tlb) : Bool :=
  let vm := t.vmid == field v 32 14
  let asid := t.global || t.asid == field v 16 16
  match field v 2 2 with
  | 0 => true
  | 1 => vm
  | 2 => vm && (bit v 1 || asid)
  | _ => vm && (bit v 1 || (asid && t.va / 2 ^ t.bits == page / 2 ^ t.bits))

/-- Whether an invalidation names an entry of the walk cache (R234). -/
def invWalk (v page : Nat) (e : WalkEnt) : Bool :=
  let vm := e.vmid == field v 32 14
  let here := e.pfx == page / 2 ^ (21 + 9 * e.lvl)
  match field v 2 2 with
  | 0 => true
  | 1 => vm
  | 2 => vm && (bit v 1 || (e.st1 && e.asid == field v 16 16))
  | _ => vm && (if bit v 1 then e.st1 || here else e.st1 && e.asid == field v 16 16 && here)

-- resolves (R185, R186)

/-- The table changes of step 1. -/
def resolveTable (s : State) (r : Resolve) : State :=
  let h := r.h.toNat
  let ctx := r.ctx
  let sub := s.hypSubtree ctx h
  if r.refute then sub.foldl (fun s e => s.setHyp ctx e { s.hypAt ctx e with st := HEnt.refuted }) s
  else
    let p := (s.hypAt ctx h).parent
    let s := sub.foldl (fun s e =>
      if e = h then s.setHyp ctx e { s.hypAt ctx e with st := HEnt.confirmed }
      else
        let x := s.hypAt ctx e
        s.setHyp ctx e { x with depth := x.depth - 1, parent := if x.parent = h then p else x.parent }) s
    s

/-- The oldest accepted resolve of a context starts, when none of it runs. -/
def beginResolve (s : State) (ctx : Nat) : State :=
  if s.resolves.any fun r => r.ctx == ctx && (r.stage == .accepted || r.stage == .merged) then s
  else match s.resolves.find? fun r => r.ctx == ctx && r.stage == .queued with
    | none => s
    | some r =>
      let us := (s.ctxUnits ctx).filter fun u => !s.lostPeer (s.ctxRt ctx).die || u.die == (s.ctxRt ctx).die
      let tags := if r.refute then s.hypSubtree r.ctx r.h.toNat else [r.h.toNat]
      let par := (s.hypAt r.ctx r.h.toNat).parent
      let s := s.resolveTable r
      { s with resolves := s.resolves.map fun (x : Resolve) =>
          if x.id == r.id then { x with stage := .accepted, toNotify := us, toAck := us, par := par, tags := tags } else x }

/-- What makes a resolve refused on its arrival, earlier ones of its context counted (R181, R186). -/
def resolveCause (s : State) (r : Resolve) : Option Nat :=
  let h := r.h.toNat
  let before := s.resolves.filter fun x => x.ctx == r.ctx && x.stage == .queued
  let taken := before.any fun x => x.h == r.h || (x.refute && (s.chainOf r.ctx h).contains x.h.toNat)
  if h = 0 then some Cause.hresroot
  else if (s.hypAt r.ctx h).st ≠ HEnt.opened ∨ taken then some Cause.hresst
  else none

/-- A resolve arrives at its ordering unit (R186). -/
def resolveArrive (s : State) (i : Nat) : State :=
  match s.resolves[i]? with
  | none => s
  | some r =>
    if r.stage ≠ .sent then s
    else match s.resolveCause r with
      | some c =>
        let s := { s with resolves := s.resolves.eraseIdx i }
        let s := s.pendDone r.unit r.slot r.id []
        s.parkBack r.unit r.slot r.pc ((lanes r.lanes).map fun l => ⟨l, c, 0, 0⟩)
      | none =>
        let s := { s with resolves := s.resolves.eraseIdx i ++ [{ r with stage := .queued }] }
        let s := s.flow r.unit r.slot fun e (w : Warp) =>
          match w.paths.find? fun (p : Path) => p.wait == Wait.memArrival r.id with
          | some p => w.pathOn e p
          | none => w
        s.beginResolve r.ctx

/-- The versions of a line enter memory as one ordinary store (R185); to a replicated page, as an update. -/
def mergeLine (s : State) (ctx line : Nat) (vs : List Version) : State :=
  let pa := 128 * line
  let part := s.ctxPart ctx
  let d := homeDie pa
  let mem := vs.foldl (fun m v => m.set v.pa v.val) s.mem
  if s.isRepl d part pa then
    let ws := ((List.range 32).filter fun i => vs.any fun v => v.pa / 4 == pa / 4 + i).map fun i =>
      (i, (BitVec.ofNat 32 (ofBytes (memBytes mem (pa + 4 * i) 4)) : Word))
    s.postWords d part pa ws
  else
    let w := s.storeWts pa (s.lineTs pa).rts
    let s := (s.reachPt pa w).putTs pa ⟨w, w⟩
    { s with mem := mem, latest := if onExpander pa then s.latest else later s.latest w }.written pa 128 none

/-- The end of a resolve: k[D] gets the number of versioned words, and the next resolve starts (R185, R186). Its completion is an
acquire of what was merged (R247, R253). -/
def resolveEnd (s : State) (r : Resolve) : State :=
  let s := s.modAgent (unitNo r.unit) fun a => { a with pts := later a.pts s.latest }
  let s := { s with resolves := s.resolves.filter fun x => x.id != r.id }
  let s := s.pendDone r.unit r.slot r.id [kres r.d.toNat (BitVec.ofNat 64 r.words)]
  let s := r.tags.foldl (fun s t => s.hypFree r.ctx t) s
  s.beginResolve r.ctx

/-- Step 3 of a resolve: the versions are merged or discarded (R185). It ends once the words that went to replicated pages are
performed in the package (R253). -/
def sweep (s : State) (r : Resolve) : State :=
  let ctx := r.ctx
  let tags := r.tags
  let mine := fun (v : Version) => v.ctx == ctx && tags.contains v.tag.toNat
  let n := tags.foldl (fun n t => n + s.verWords ctx (BitVec.ofNat 8 t)) 0
  let vs := s.vers.filter mine
  let p := r.par
  let bad := if s.bad = [] ∨ r.refute then [] else vs.filterMap fun v => s.badIn .version 8 v.pa 1
  let s := { s with
    vers := s.vers.filter (fun v => !mine v)
    bad := s.bad.filter fun b => !(b.st == Storage.version && vs.any fun v => v.pa / 8 == b.addr) }
  let s := if r.refute then s
    else if p ≠ 0 then (vs.foldl (fun (s : State) (v : Version) => s.putVers ctx (BitVec.ofNat 8 p) v.pa [v.val]) s).syncVcnt ctx p
    else
      let lines := (vs.map fun v => v.pa / 128).eraseDups
      lines.foldl (fun s l => s.mergeLine ctx l (vs.filter fun v => v.pa / 128 == l)) s
  let s := bad.eraseDups.foldl (fun s g => s.note ctx r.unit r.slot Cause.vsecc (BitVec.ofNat 64 (8 * g)) 0) s
  let s := tags.foldl (fun s t => s.syncVcnt ctx t) s
  let posts := s.stampsNow (s.ctxPart ctx)
  let r' := { r with stage := .merged, words := n, posts := posts }
  if s.stampsApplied (s.ctxPart ctx) posts then s.resolveEnd r'
  else { s with resolves := s.resolves.map fun (x : Resolve) => if x.id == r.id then r' else x }

end State

def execLoadRequestAtHome (op : Nat) (s : State) : Host.Outcome State Fault Refusal :=
  .next (s.onOp op (fun o => o.kind == .load && !State.onExpander o.pa && s.opReady o && s.itsTurn (State.servedAt o.pa) o) fun o =>
    let s := s.tryHit o
    match s.getOp op with
    | some o => s.serve o
    | none => s)

def execDataReply (op : Nat) (s : State) : Host.Outcome State Fault Refusal :=
  .next (s.onOp op (fun o => o.kind == .load && o.stage == .performed && s.inTurn o) s.takeReply)

def execStoreAtHome (op : Nat) (s : State) : Host.Outcome State Fault Refusal :=
  .next (s.onOp op (fun o => o.kind == .store && !State.onExpander o.pa && s.opReady o && s.itsTurn (State.servedAt o.pa) o) s.serve)

def execAtomicAtHome (op : Nat) (s : State) : Host.Outcome State Fault Refusal :=
  .next (s.onOp op (fun o => o.kind == .atomic && !State.onExpander o.pa && s.opReady o && s.itsTurn (State.servedAt o.pa) o) s.serve)

def execStoreAck (op : Nat) (s : State) : Host.Outcome State Fault Refusal :=
  .next (s.onOp op (fun o => (o.kind == .store || o.kind == .atomic || o.kind == .hurdle) && o.stage == .performed &&
    s.inTurn o) s.takeAck)

def execLeaseTick (agent : Nat) (s : State) : Host.Outcome State Fault Refusal :=
  .next (if State.agentNos.contains agent then s.modAgent agent fun a => { a with pts := a.pts + 1 } else s)

def execPackageTimeExchange (s : State) : Host.Outcome State Fault Refusal :=
  .next (if s.ptSent + 256 ≤ max (s.pace 0) (s.pace 1) then s.exchangePt else s)

def execReplicaStamp (op : Nat) (s : State) : Host.Outcome State Fault Refusal :=
  .next (s.onOp op (fun o => o.repl && o.tag == 0 && o.vc.isEmpty && o.kind != .load && o.kind != .ldm && s.opReady o)
    fun o =>
      let d := homeDie o.pa
      let part := s.partOf o.unit
      let home := s.replHome d part o.pa
      if (s.die d).fenced.contains (.die home) then s
      else
        let (vc, s) := s.stampOf d (s.ptnOf d part)
        let o := { o with vc := vc, wts := s.ptsOf o }
        if home = s.domNo d then s.setOp o
        else (s.setOp { o with stage := .waitApplied }).sendFrame d home 0 (State.reqBytes o vc (s.ptnOf d part) (s.domNo d)))

def execUpdate (die : Nat) (m : UpdateMsg) (s : State) : Host.Outcome State Fault Refusal :=
  .next (if (s.die die).fenced.contains (.die m.home) ∨ !bit (s.reg die Win.dtcfg).toNat 16 then s else s.receiveUpdate die m)

def execUpdateApply (die i : Nat) (s : State) : Host.Outcome State Fault Refusal := .next (s.applyUpdate die i)

def execApplied (die addr stamper src : Nat) (s : State) : Host.Outcome State Fault Refusal :=
  .next (if (s.die die).fenced.contains (.die src) then s else s.appliedAt die addr stamper src)

def execLdmSegmentRequest (op slice : Nat) (s : State) : Host.Outcome State Fault Refusal :=
  .next (s.onOp op (fun o => o.kind == .ldm && !o.vc.contains slice && (State.segment o.pa (o.n / 128) slice).length != 0 &&
    s.ldmClear o && !s.waitsReg o && !s.lostPa o.unit.die o.pa && s.itsTurn slice o) fun o => s.segmentArrive o slice)

def execMergeWindowClose (w : Nat) (s : State) : Host.Outcome State Fault Refusal :=
  .next (match s.windows.find? fun x => x.id == w with
    | some x => if x.opened ∧ x.closesAt ≤ s.pace (State.placeDie x.slice) then s.closeWindow x else s
    | none => s)

def execMulticastBeat (w : Nat) (s : State) : Host.Outcome State Fault Refusal :=
  .next (match s.windows.find? fun x => x.id == w with
    | some x => if x.opened then s else s.sendBeat x
    | none => s)

def execLdmBeatArrival (op : Nat) (s : State) : Host.Outcome State Fault Refusal :=
  .next (s.onOp op (fun o => o.kind == .ldm) s.takeBeat)

def execMemoryHurdleArrival (op : Nat) (s : State) : Host.Outcome State Fault Refusal :=
  .next (s.onOp op (fun o => o.kind == .hurdle && !State.onExpander o.pa && s.opReady o && s.itsTurn (State.servedAt o.pa) o) s.serve)

def execPageWalk (u : UnitId) (va : Dword) (s : State) : Host.Outcome State Fault Refusal := .next (s.fillTlb u va.toNat)

/-- XINVC is written: an invalidation starts, unless one is under way (R234). -/
def State.invalidate (s : State) (die : Nat) (v : Dword) : State :=
  if !s.plat.ready ∨ (s.die die).inval.isSome then s
  else
    let s := s.plainWrite die Win.xinvc v
    if v.getLsbD 0 then s.modDie die fun d => { d with inval := some (s.reg die Win.xinvc, s.nextId) } else s

def execTranslationInvalidation (die : Nat) (v : Dword) (s : State) : Host.Outcome State Fault Refusal := .next (s.invalidate die v)

/-- Every access of the die that began before the invalidation has completed: one through a dropped entry is among them. -/
def execInvalidationDone (die : Nat) (s : State) : Host.Outcome State Fault Refusal :=
  .next (match (s.die die).inval with
    | none => s
    | some (v, id) =>
      if (s.ops.any fun o => decide (o.id < id) && o.unit.die == die && (o.kind == .ldm || (o.owner.isNone && o.stage != .performed))) ∨
          s.flits.any (fun f => decide (f.id < id) && f.issuer.die == die) then s
      else
        let page := (s.reg die Win.xinva).toNat
        s.modDie die fun d => { d with
          tlb := d.tlb.map (fun p => (p.1, p.2.filter fun t => !State.invMatches v.toNat page t)) |>.filter (fun p => !p.2.isEmpty)
          walks := d.walks.filter fun e => !State.invWalk v.toNat page e
          inval := none })

def execResolveArrival (i : Nat) (s : State) : Host.Outcome State Fault Refusal := .next (s.resolveArrive i)

def execHypothesisStateNotice (u : UnitId) (s : State) : Host.Outcome State Fault Refusal :=
  .next { s with resolves := s.resolves.map fun (r : Resolve) =>
    if r.stage == .accepted then { r with toNotify := r.toNotify.filter fun x => x != u } else r }

def execResolveCoreAck (u : UnitId) (s : State) : Host.Outcome State Fault Refusal :=
  .next { s with resolves := s.resolves.map fun (r : Resolve) =>
    let tags := r.tags
    let busy := s.ops.any (fun o => o.unit == u && o.ctx == r.ctx && o.kind == .store && o.tag != 0 && tags.contains o.tag.toNat) ||
      s.flits.any fun f => f.issuer == u && f.ctx == r.ctx && f.tag != 0 && tags.contains f.tag.toNat
    if r.stage == .accepted && !r.toNotify.contains u && !busy then { r with toAck := r.toAck.filter fun x => x != u }
    else r }

def execVersionSweep (ctx : Nat) (s : State) : Host.Outcome State Fault Refusal :=
  .next (match s.resolves.find? fun r => r.ctx == ctx && r.stage == .merged with
    | some r => if s.stampsApplied (s.ctxPart ctx) r.posts then s.resolveEnd r else s
    | none => match s.resolves.find? fun r => r.ctx == ctx && r.stage == .accepted && r.toAck.isEmpty && r.toNotify.isEmpty with
      | some r => s.sweep r
      | none => s)

def execVersionSpaceFreed (op : Nat) (s : State) : Host.Outcome State Fault Refusal :=
  .next (s.onOp op (fun o => o.stage == .waitSpace && s.verRoom o.ctx o.tag o.pa) s.performStore)

/-- A tagged store has waited 4,096 ticks for version space (R384). -/
def State.vsfull (s : State) (op : Nat) : State :=
  s.onOp op (fun o => o.stage == .waitSpace && decide (o.since + 4096 ≤ s.pace o.unit.die)) fun o =>
    s.parkLate o [⟨o.lane, Cause.vsfull, BitVec.ofNat 64 (s.verWords o.ctx o.tag), o.ea⟩]

def execVsfull (op : Nat) (s : State) : Host.Outcome State Fault Refusal := .next (s.vsfull op)

def execExpanderAccess (op : Nat) (s : State) : Host.Outcome State Fault Refusal :=
  .next (s.onOp op (fun o => State.onExpander o.pa && s.opReady o && s.itsTurn (State.servedAt o.pa) o) s.serve)

def execScratchpadPortAccess (op : Nat) (s : State) : Host.Outcome State Fault Refusal :=
  .next (s.onOp op (fun o => (o.kind == .scrLoad || o.kind == .scrStore || o.kind == .scrAtomic) && s.ordReady o &&
    !s.wmWaits (o.owner.getD default) o.team o.ea.toNat o.n) s.portAccess)

end Sys2Proof.Machine
end

