-- ==== Sys2Proof/Machine/Qos.lean ====
section
/-! DEFINITION. Regulators and their buckets, display heads, and video encoders (R267 to R272, R337, R338, R403). -/
namespace Sys2Proof.Machine

open Bits

namespace State

-- reports of partitions (R403)

/-- The context that a partition's reports go to (R403): that of the lowest-numbered slice of the entry. -/
def partReporter (s : State) (d n : Nat) : Option Nat :=
  let m := (s.reg d (Win.peCfg n)).toNat
  ((List.range 32).find? fun i => bit m i).bind fun i => (s.slice (i / 16) (i % 16)).ctx.map (·.ctxid)

def partReport (s : State) (d n cause info : Nat) : State :=
  match s.partReporter d n with
  | some ctx => s.report ctx ⟨cause, resOf cause, none, 0, 0, 0, 0, BitVec.ofNat 64 info, 0, s.pace d⟩
  | none => s

end State

def execBucketRefill (die n c : Nat) (s : State) : Host.Outcome State Fault Refusal := .next (s.settle die n c)

def execRegulatorRelease (die n c : Nat) (s : State) : Host.Outcome State Fault Refusal :=
  .next (if s.rateOf die n c = 0 then s
    else
      let k := s.bucketNow die n c
      match k.queue with
      | (_, b) :: r => if s.bucketLets die n c k b then s.setBucket die n c (some { k with t := k.t - 16000 * (b : Int), queue := r }) else s
      | [] => s)

/-- A regulator's register is written; its bucket keeps what it has gathered, up to the new size (R267, R269). -/
def State.qosWrite (s : State) (die n c : Nat) (v : Dword) : State :=
  let off := Win.qos n c
  let w := (s.reg die off &&& ~~~ Win.mask (.qos n c)) ||| (v &&& Win.mask (.qos n c))
  if 32 ≤ n ∨ 7 ≤ c ∨ !s.plat.ready ∨ !Win.legal (.qos n c) w then s
  else
    let old := s.bucketNow die n c
    let was := s.rateOf die n c
    let s := s.plainWrite die off v
    let full := s.fullBucket die n c
    if s.rateOf die n c = 0 then s.setBucket die n c none
    else if was = 0 then s.setBucket die n c (some ⟨full, s.pace die, [], 0⟩)
    else s.setBucket die n c (some { old with t := min full old.t })

def execQosWrite (die n c : Nat) (v : Dword) (s : State) : Host.Outcome State Fault Refusal := .next (s.qosWrite die n c v)

def execQosrep (die n c : Nat) (s : State) : Host.Outcome State Fault Refusal :=
  .next (match (s.die die).buckets.get (8 * n + c) with
    | some b => match b.queue.head?.bind fun q => s.getOp q.1 with
      | some o =>
        let now := s.pace die
        if o.since + 1000000 ≤ now ∧ b.rep + 1000000 ≤ now then
          (s.setBucket die n c (some { b with rep := now })).partReport die n Cause.qosrep
            (pack [(8, c), (8, n), (16, die), (32, now - o.since)])
        else s
      | none => s
    | none => s)

def execQstatSelfRead (die n c : Nat) (s : State) : Host.Outcome State Fault Refusal :=
  .next (if 32 ≤ n ∨ 7 ≤ c then s else s.answerReg die (Win.qstat n c))

-- heads (R271, R272, R337)

namespace State

def headEn (s : State) (d h : Nat) : Bool := bit (s.reg d (Win.hqos h)).toNat 5
def headPart (s : State) (d h : Nat) : Nat := field (s.reg d (Win.hqos h)).toNat 0 5
def headReg (s : State) (d h r : Nat) : Nat := (s.reg d (Win.head h + 8 * r)).toNat

/-- An assigned head that scans out. -/
def headOn (s : State) (d h : Nat) : Bool := decide (h < 8) && s.headEn d h && bit (s.headReg d h 3) 8

/-- A head that scans out to an encoder of its own partition entry, both assigned (R338). -/
def encFrom (s : State) (d e h : Nat) : Bool :=
  let v := (s.reg d (Win.veown e)).toNat
  decide (e < 8) && bit v 5 && s.headOn d h && field (s.headReg d h 3) 0 4 == 8 + e && s.headPart d h == field v 0 5

def headHeight (s : State) (d h : Nat) : Nat := field (s.headReg d h 1) 16 16

/-- Physical addresses of n bytes of a partition's guest physical space, where the second stage gives them all. -/
def gpaBytes (s : State) (d n : Nat) (need : Need) (gpa len : Nat) : Option (List Nat) :=
  let ps := (List.range len).map fun i => stage2 s d n need (gpa + i)
  match errs ps with
  | [] => let as := (oks ps).map (·.pa); if as.all fun a => isMemory a && s.portOpen a then some as else none
  | _ => none

/-- A head fetches the next line of its frame into its FIFO (R337): none where it has to wait or has nothing to fetch. -/
def fetchLine (s : State) (d h : Nat) : Option State :=
  match (s.die d).surf.get h with
  | none => none
  | some base =>
    let y := (s.die d).fetched.get h
    let g := s.headReg d h 1
    let len := field g 0 16 * (if field (s.headReg d h 3) 6 2 = 2 then 8 else 4)
    let n := s.headPart d h
    let at_ := base + y * field g 32 32
    if !s.headOn d h ∨ s.headHeight d h ≤ y ∨ 512 ≤ ((s.die d).fifo.get h).length then none
    else match s.gpaBytes d n .read at_ len with
      | none => none
      | some pas => (s.meter d n 4 (lineBytes at_ len)).map fun s =>
          (s.touchLines n 4 ((pas.map fun a => 128 * (a / 128)).eraseDups)).modDie d fun x => { x with
            fifo := x.fifo.modify h fun q => q ++ [pas.map s.mem.get], fetched := x.fetched.set h (y + 1) }

def fetchLines (d h : Nat) : Nat → State → State
  | 0, s => s
  | n + 1, s => match s.fetchLine d h with | some s => fetchLines d h n s | none => s

end State

def execScanOutFifoFill (die hd lines : Nat) (s : State) : Host.Outcome State Fault Refusal := .next (State.fetchLines die hd (min lines 512) s)

namespace State

/-- A head whose FIFO is below UMARK becomes urgent (R272). -/
def headUrgent (s : State) (die hd : Nat) : State :=
  let r := (s.reg die (Win.hqos hd)).toNat
  if 8 ≤ hd ∨ !s.headEn die hd ∨ (s.die die).urgent.get hd ∨ field r 18 10 ≤ ((s.die die).fifo.get hd).length then s
  else (s.setReg die (Win.hqos hd) (BitVec.ofNat 64 (setField r 48 16 (min (field r 48 16 + 1) 65535)))).modDie die fun x =>
    { x with urgent := x.urgent.set hd true }

/-- An urgent head whose FIFO holds RMARK lines has recovered (R272). -/
def headRecovery (s : State) (die hd : Nat) : State :=
  let r := (s.reg die (Win.hqos hd)).toNat
  if (s.die die).urgent.get hd ∧ field r 28 10 ≤ ((s.die die).fifo.get hd).length then
    s.modDie die fun x => { x with urgent := x.urgent.set hd false }
  else s

/-- Whether the BULK regulators of an entry are to be scaled: some head assigned to it is urgent (R272). -/
def wantsScale (s : State) (n : Nat) : Bool :=
  [0, 1].any fun d => (List.range 8).any fun h => s.headEn d h && s.headPart d h == n && (s.die d).urgent.get h

/-- The scaling of an entry on a die follows its heads; its buckets keep what they have gathered (R272). -/
def followScale (s : State) (die n : Nat) : State :=
  let want := s.wantsScale n
  if (s.die die).scaled.get n = want then s
  else
    let s := (List.range 7).foldl (fun s c => if (((s.die die).buckets.get (8 * n + c)).isSome) then s.settle die n c else s) s
    s.modDie die fun x => { x with scaled := x.scaled.set n want, scaleDue := x.scaleDue.set n none }

/-- At the end of a tick of a die: heads that have run low are urgent, those that have filled up are not, and a change of scaling
comes within 8 ticks on a die that has a head of the entry, within 64 on the other (R272). -/
def headsTick (s : State) (d : Nat) : State :=
  let s := (List.range 8).foldl (fun (s : State) h => if s.headEn d h then (s.headUrgent d h).headRecovery d h else s) s
  let ns := ((List.range 8).filter fun h => s.headEn 0 h).map (s.headPart 0) ++ ((List.range 8).filter fun h => s.headEn 1 h).map (s.headPart 1) ++
    ((s.die d).scaled.map (·.1))
  ns.eraseDups.foldl (fun (s : State) n =>
    if (s.die d).scaled.get n = s.wantsScale n then s.modDie d fun x => { x with scaleDue := x.scaleDue.set n none }
    else
      let here := (List.range 8).any fun h => s.headEn d h && s.headPart d h == n
      let due := ((s.die d).scaleDue.get n).getD (s.pace d + if here then 8 else 64)
      if due ≤ s.pace d then s.followScale d n else s.modDie d fun x => { x with scaleDue := x.scaleDue.set n (some due) }) s

end State

def execHeadUrgent (die hd : Nat) (s : State) : Host.Outcome State Fault Refusal := .next (s.headUrgent die hd)

def execHeadRecovery (die hd : Nat) (s : State) : Host.Outcome State Fault Refusal := .next (s.headRecovery die hd)

def execHqosUrgnRead (die hd : Nat) (s : State) : Host.Outcome State Fault Refusal :=
  .next (if 8 ≤ hd then s else s.answerReg die (Win.hqos hd))

def execBulkScalingChange (die n : Nat) (s : State) : Host.Outcome State Fault Refusal := .next (s.followScale die n)

def execDisplayLineDue (die hd : Nat) (s : State) : Host.Outcome State Fault Refusal :=
  let x := s.die die
  .next (if !s.headOn die hd ∨ (x.surf.get hd).isNone ∨ s.headHeight die hd ≤ x.pixLine.get hd then s
    else
      let off := Win.head hd + 0x20
      let s := s.setReg die off (BitVec.ofNat 64 (setField (s.reg die off).toNat 0 1 0))
      let (line, q, miss) := match x.fifo.get hd with
        | l :: r => (l, r, 0)
        | [] => (x.shown.get hd, [], 1)
      let s := s.modDie die fun x => { x with
        fifo := x.fifo.set hd q, shown := x.shown.set hd line, pixLine := x.pixLine.modify hd (· + 1)
        repeated := x.repeated.modify hd (· + miss) }
      { s with out := s.out ++ [.line die hd line] })

def execVerticalBlank (die hd : Nat) (s : State) : Host.Outcome State Fault Refusal :=
  let x := s.die die
  .next (if !s.headOn die hd ∨ ((x.surf.get hd).isSome ∧ x.pixLine.get hd < s.headHeight die hd) then s
    else
      let off := Win.head hd + 0x20
      let r := (s.reg die off).toNat
      let frames := field r 32 32 + (if (x.surf.get hd).isSome then 1 else 0)
      let miss := x.repeated.get hd
      let s := s.setReg die off (BitVec.ofNat 64 (pack [(1, 1), (31, 0), (32, frames)]))
      let e := field (s.headReg die hd 3) 0 4 - 8
      let sent := (x.surf.get hd).isSome && decide (8 ≤ field (s.headReg die hd 3) 0 4) && s.encFrom die e hd
      let s := s.modDie die fun x => { x with
        surf := x.surf.set hd (some (s.headReg die hd 0)), fifo := x.fifo.set hd [], pixLine := x.pixLine.set hd 0
        fetched := x.fetched.set hd 0, repeated := x.repeated.set hd 0
        encDue := if sent then x.encDue.modify e (· + 1) else x.encDue }
      if miss = 0 then s
      else s.partReport die (s.headPart die hd) Cause.dispunder (pack [(16, min miss 65535), (3, hd), (1, die)]))

-- encoders (R338)

namespace State

/-- A frame of a stream is stored behind the last in its ring: none where it has to wait for its regulator. Without room for it in
the ring, or where the partition maps the ring nowhere (log 94), the frame is skipped. -/
def storeFrame (s : State) (die e : Nat) (bytes : List Byte) : Option State :=
  let r := fun i => (s.reg die (Win.enc e + 8 * i)).toNat
  let n := field (s.reg die (Win.veown e)).toNat 0 5
  let size := r 2
  let pas := (List.range bytes.length).map fun i => s.gpaBytes die n .write (r 1 + (r 3 + i) % size) 1
  if size = 0 ∨ size < (r 3 - r 4) + bytes.length ∨ pas.any (·.isNone) then some s
  else (s.meter die n 5 (lineBytes (r 1 + r 3 % size) bytes.length)).map fun s =>
    let s := (pas.zip bytes).foldl (fun s p => match p.1 with
      | some (a :: _) => ((s.touchLines n 5 [128 * (a / 128)]).partStore n a [p.2]).written a 1 none
      | _ => s) s
    s.setReg die (Win.enc e + 0x18) (BitVec.ofNat 64 (r 3 + bytes.length))

end State

/-- An encoder takes the next frame that its head has scanned out (R338). -/
def execEncoderFrame (die e : Nat) (bytes : List Byte) (s : State) : Host.Outcome State Fault Refusal :=
  .next (if 8 ≤ e ∨ (s.die die).encDue.get e = 0 then s
    else match s.storeFrame die e bytes with
      | none => s
      | some s => s.modDie die fun x => { x with encDue := x.encDue.modify e (· - 1) })

end Sys2Proof.Machine
end

