-- ==== Sys2Proof/Machine/Links.lean ====
section
/-! DEFINITION. Links and what comes in from outside: bad flits and modules, transport frames and their connections, the
clock's messages, and soft errors (R326, R327, R333 to R336, R405, R407, R419 to R421, R426). -/
namespace Sys2Proof.Machine

open Bits

namespace State

-- UCIe (R419)

/-- UP of a module reads 0 on both dies. -/
def moduleDown (s : State) (m : Nat) : State :=
  s.bothDies fun s d => s.setReg d (Win.ucie m) (BitVec.ofNat 64 (setField (s.reg d (Win.ucie m)).toNat 0 1 0))

def dieUnits (d : Nat) : List UnitId := (List.range 16).flatMap (sliceUnits d)

-- the domain transport (R333 to R335)

/-- A comes at or before b in the numbers of a connection, which count modulo 2^32. -/
def seqLe (a b : Nat) : Bool := decide ((b + 2 ^ 32 - a) % 2 ^ 32 < 2 ^ 31)

/-- A frame's acknowledgements are taken. -/
def takeAcks (c : Conn) (f : Frame) : Conn :=
  let shown := ((List.range 32).filter fun i => f.sack.getLsbD i).map fun i => (f.ackSeq + 1 + i) % 2 ^ 32
  let open_ := fun (q : Nat) => seqLe f.ackSeq q
  let sacked := ((c.sacked ++ shown).eraseDups).filter open_
  { c with unacked := c.unacked.filter (fun u => u.2.2.2 == 0 || (open_ u.1 && !sacked.contains u.1)), sacked := sacked }

/-- The bytes of a message type, cut from a frame. -/
def cutBytes (n : Nat) (bs : List Byte) : List (List Byte) :=
  (List.range (bs.length / n)).map fun i => (bs.drop (n * i)).take n

/-- A store of another package to a page homed on a die becomes an update; one of the checkpoint is written inside the open
window (R244, R426). -/
def takeStore (s : State) (d src : Nat) (b : List Byte) : State :=
  let f := fun o n => ofBytes ((b.drop o).take n)
  let h := f 0 16
  let pa := field h 64 64
  let mask := field h 32 32
  let ptn := field h 16 16
  let data := (b.drop 48).take 32
  let bytes := ((List.range 32).filter (bit mask)).map fun i => (pa + i, data.getD i 0)
  if ptn = 0xFFFF then
    match (s.die d).ckWin with
    | some (from_, lo, len) =>
      if from_ = src ∧ bytes.all fun x => decide (lo ≤ x.1 ∧ x.1 < lo + len) then
        bytes.foldl (fun s x => s.devStore x.1 [x.2]) s
      else s
    | none => s
  else
    let vc := (List.range 16).map fun i => f (16 + 2 * i) 2
    let base := pa / 128 * 128
    let line := s.lineAhead d base
    let put := bytes.foldl (fun (l : List Byte) x => l.set (x.1 - base) x.2) line
    let ws := ((List.range 32).filter fun i => bytes.any fun x => (x.1 - base) / 4 == i).map fun i =>
      (i, (BitVec.ofNat 32 (ofBytes ((put.drop (4 * i)).take 4)) : Word))
    s.forwardUpdate d (s.entryOf d ptn) ⟨base, ws, vc, field h 12 4, ptn, s.domNo d⟩ none none

/-- An atomic of another package on a page homed on a die is performed in its turn (R174, R242, R250). -/
def takeAtomic (s : State) (d : Nat) (b : List Byte) : State :=
  let s := s.modDie d fun x => { x with atomQ := x.atomQ ++ [b] }
  runAtomics d (s.die d).atomQ.length s

/-- A line is read for another package: what its slice holds goes back, with wts and rts (R334, log 30). -/
def takeRead (s : State) (d src : Nat) (b : List Byte) : State :=
  let h := ofBytes (b.take 16)
  let pa := field h 64 64
  let n := min (field h 32 32) (128 - pa % 128)
  if homeDie pa ≠ d ∨ !isMemory pa then s
  else
    let t := s.lineTs pa
    s.sendFrame d src 1 (msgHead pa n (field h 16 16) (field h 12 4) (Config.msgType 8) ++
      toBytes (pack [(16, t.wts.toNat), (16, t.rts.toNat), (96, 0)]) 16 ++ memBytes s.mem pa n)

/-- The acknowledgement of a stamped store or atomic reaches its die. -/
def takeRsp (s : State) (d src : Nat) (b : List Byte) : State :=
  let h := ofBytes (b.take 16)
  let addr := field h 64 64
  let type := field h 0 8
  if type = Config.msgType 2 % 256 then s.appliedAt d addr (field h 12 4) src
  else
    let me := s.domNo d
    match s.ops.find? fun o => o.repl && o.stage == .waitApplied && homeDie o.pa == d && o.pa / 128 * 128 == addr &&
        o.vc.getD me 0 == field h 32 32 && !((s.die d).homeUpd.any fun x => x.op == some o.id) with
    | none => s
    | some o =>
      let old := ofBytes ((b.drop 16).take 8)
      s.opApplied o.id (if type = Config.msgType 6 % 256 then some (if o.kind = .hurdle then field old 63 1 else old) else none)

/-- A frame in its turn: each of its messages is delivered, told apart by the TYPE of the first (log 30). Data that no access of this
package has asked for, and window credits, have nothing to act on. -/
def deliver (s : State) (d : Nat) (f : Frame) : State :=
  let type := field (ofBytes (f.body.take 16)) 0 8
  match f.cls with
  | 0 =>
    if type = Config.msgType 5 % 256 then (cutBytes 64 f.body).foldl (fun s b => s.takeAtomic d b) s
    else if type = Config.msgType 0 % 256 then (cutBytes 80 f.body).foldl (fun s b => s.takeStore d f.src b) s
    else if type = Config.msgType 7 % 256 then (cutBytes 16 f.body).foldl (fun s b => s.takeRead d f.src b) s
    else s
  | 1 =>
    if type = Config.msgType 8 % 256 then s
    else (cutBytes (if type = Config.msgType 6 % 256 then 24 else 16) f.body).foldl (fun s b => s.takeRsp d f.src b) s
  | 2 => (cutBytes 176 f.body).foldl (fun s b =>
      let m := updateOf b f.src
      if m.words = [] ∨ (s.die d).replay.any fun r => r.2 == 1 || r.2 == 2 then s.exchanged d m else s.receiveUpdate d m) s
  | 3 =>
    let (tile, ptn, m) := collOf f.body
    { s with collNet := s.collNet ++ [⟨⟨.tt, d, tile % 64⟩, 0, some ptn, m, none, false⟩] }
  | _ => if type = Config.msgType 4 % 256 then s.hear d (.die f.src) else s

/-- Frames of a connection that have come early are delivered once it is their turn. -/
def deliverEarly (d k : Nat) : Nat → State → State
  | 0, s => s
  | n + 1, s =>
    let c := (s.die d).conns.get k
    match c.early.find? fun f => f.seq == c.expect with
    | none => s
    | some f =>
      let s := s.modDie d fun x => { x with conns := x.conns.set k { c with
        expect := (c.expect + 1) % 2 ^ 32, early := c.early.filter fun g => g.seq != f.seq } }
      deliverEarly d k n (s.deliver d f)

/-- A frame of a connection: acknowledgements are taken, and its messages delivered in order and once. A frame without
messages only acknowledges (log 30). -/
def takeFrame (s : State) (d : Nat) (f : Frame) : State :=
  let k := 8 * f.src + f.cls
  let s := (s.modDie d fun x => { x with conns := x.conns.modify k fun c => takeAcks c f }).pump d f.src f.cls
  if f.body = [] then s
  else
    let c := (s.die d).conns.get k
    let new := seqLe c.expect f.seq && !c.early.any fun g => g.seq == f.seq
    let s := if new then s.modDie d fun x => { x with conns := x.conns.set k { c with early := c.early ++ [f] } } else s
    let s := deliverEarly d k (c.early.length + 1) s
    let c := (s.die d).conns.get k
    s.frameOut d (stampFrame c ⟨c.nextSeq, 0, 0, f.cls, 1, s.domNo d, f.src, []⟩)

end State

-- links

/-- A flit crosses a ring module with a bad CRC: it is dropped, and its copy is short of a chunk (R327, R419). -/
def execLinkErr (die module flit : Nat) (s : State) : Host.Outcome State Fault Refusal :=
  .next (match s.flits.find? fun f => f.id == flit with
    | none => s
    | some f =>
      if f.die ≠ die ∨ f.dce ∨ module % 3 ≠ 0 ∨ f.bridge ≠ some (module / 3) then s
      else
        let now := s.pace die
        let bad := (((s.die die).badFlits.get module).filter fun t => decide (now < t + 1000000)) ++ [now]
        let s := { s with flits := s.flits.filter fun g => g.id != flit }
        let s := s.modDie die fun x => { x with badFlits := x.badFlits.set module bad }
        let s := s.report f.ctx ⟨Cause.linkerr, resOf Cause.linkerr, some f.issuer, 0, 0, 0, 0,
          BitVec.ofNat 64 (pack [(5, module), (27, 0), (32, bad.length)]), 0, now⟩
        match s.flitCmd f with
        | none => s
        | some c =>
          let c := { c with lost := c.lost ++ [f.chunk] }
          match recOf? c.ra with
          | some a => (s.setRunning c.unit 2 (some c)).copySettle c (State.chunksOf a)
          | none => s)

/-- A mesh module goes down. With the last of them, die 1 halts its units and cuts its links, and die 0 fences it (R419). -/
def execMeshModuleDown (module : Nat) (s : State) : Host.Outcome State Fault Refusal :=
  .next (if 24 ≤ module ∨ module % 3 = 0 ∨ !bit (s.reg 0 (Win.ucie module)).toNat 0 then s
    else
      let s := s.moduleDown module
      if (State.meshModules.any fun m => bit (s.reg 0 (Win.ucie m)).toNat 0) ∨ s.lostPeer 0 ∨ s.lostPeer 1 then s
      else
        let s := (State.dieUnits 1).foldl (fun s u => s.modCore u fun c => { c with halted := true }) s
        let s := (List.range 8).foldl (fun s b => s.moduleDown (3 * b)) s
        s.fence 0 (.die (s.domNo 1)))

-- transport

/-- Bytes arrive at an Ethernet port of a die. What is no frame of the transport, one of a reserved class, for another die, or from
a fenced agent is discarded (R333, R334, R408). -/
def execFrameReceive (die : Nat) (bytes : List Byte) (s : State) : Host.Outcome State Fault Refusal :=
  .next (match State.frameOf bytes with
    | none => s
    | some f =>
      if 2 ≤ die ∨ 5 ≤ f.cls ∨ f.ver ≠ 1 ∨ f.dst ≠ s.domNo die ∨ !s.peerOn die f.src ∨ s.samePkg die f.src ∨
        (s.die die).fenced.contains (.die f.src) then s
      else s.takeFrame die f)

/-- A frame is sent again: 32 us have passed, or SACK shows three later frames (R335). -/
def execFrameResend (die dst cls seq : Nat) (s : State) : Host.Outcome State Fault Refusal :=
  let k := 8 * dst + cls
  let c := (s.die die).conns.get k
  .next (match c.unacked.find? fun u => u.1 == seq && u.2.2.2 != 0 with
    | none => s
    | some (_, f, t, n) =>
      let passed := (c.sacked.filter fun q => q != seq && State.seqLe seq q).length
      if 16 ≤ n ∨ (s.pace die < t + 32000 ∧ passed < 3) ∨ !s.peerOn die dst then s
      else
        let s := s.modDie die fun x => { x with conns := x.conns.set k { c with
          unacked := c.unacked.map fun u => if u.1 == seq then (seq, f, s.pace die, n + 1) else u } }
        s.frameOut die (State.stampFrame c f))

/-- A frame has been sent 16 times without an acknowledgement: its receiver is fenced (R421). -/
def execConnectionDown (die dst cls : Nat) (s : State) : Host.Outcome State Fault Refusal :=
  .next (if die < 2 ∧ ((s.die die).conns.get (8 * dst + cls)).unacked.any fun u => decide (16 ≤ u.2.2.2 ∧ u.2.2.1 + 32000 ≤ s.pace die) then
      s.fence die (.die dst)
    else s)

/-- The package's clock has measured its offset from the domain's reference (R325, R326, R414). It says LOCK only within 10 ticks of
the reference, so that two dies that say it are within 20 of each other (log 90). -/
def execPtpMessage (die : Nat) (ofs : BitVec 32) (lock : Bool) (s : State) : Host.Outcome State Fault Refusal :=
  .next (if 2 ≤ die then s
    else
      let lock := lock && decide (ofs.toInt.natAbs ≤ 10)
      let s := s.setReg die Win.pacestat (BitVec.ofNat 64 (pack [(1, ofBool lock), (31, 0), (32, ofs.toNat)]))
      if bit (s.reg die Win.dtcfg).toNat 3 ∨ (die = 1 ∧ !s.lostPeer 1) then s
      else s.setReg die Win.paceadj (BitVec.ofInt 64 (-ofs.toInt)))

-- soft errors (R405)

/-- A granule takes an error: one bit is corrected and leaves nothing behind, two cannot be. -/
def execSoftError (st : Storage) (addr : Nat) (two : Bool) (s : State) : Host.Outcome State Fault Refusal :=
  .next (if !two then s
    else match st with
    | .tlb d b => s.modDie d fun x => { x with tlb := x.tlb.modify b fun l => l.modify addr fun t => { t with bad := true } }
    | .walks d => s.modDie d fun x => { x with walks := x.walks.modify addr fun e => { e with bad := true } }
    | _ => if s.bad.contains ⟨st, addr, true⟩ then s else { s with bad := s.bad ++ [⟨st, addr, true⟩] })

end Sys2Proof.Machine
end

