-- ==== Sys2Proof/Machine/Inbound.lean ====
section
/-! DEFINITION. Accesses from outside: the PCIe functions, the CXL.mem decoder, and the host cores, to memory and to the die register
windows (R237, R239, R258, R267, R318, R329, R339 to R341). -/
namespace Sys2Proof.Machine

open Bits

namespace State

-- the register window (R318, R340)

/-- A write of the window by system software: the effect of the register's own, or a plain write (R5, R6, R9, R318, R341). -/
def writeReg (s : State) (die off : Nat) (v : Dword) : State :=
  if 2 ≤ die then s
  else if off = Win.rstctl then s.warmReset v
  else if !s.plat.ready then s
  else match Win.kindOf off with
    | .paceadj => s.paceadjWrite die v
    | .ringctl => s.swapRequest die v
    | .xinvc => s.invalidate die v
    | .slctl i => s.slctlWrite die i v
    | .qos n c => s.qosWrite die n c v
    | .attctl => s.attGo die v
    | _ => s.regWrite die off v

/-- The register that an access meets: die and offset (R318, R329, R340). -/
def regAt (src : HostFrom) (a : Nat) : Option (Nat × Nat) :=
  let at_ := fun (o : Nat) => if o < 0x4000000 then some (o / 0x2000000, o % 0x2000000) else none
  match src with
  | .bar0 => at_ a
  | .core .. => if 0x30000000000 ≤ a then at_ (a - 0x30000000000) else none
  | _ => none

-- memory

/-- Some port presents the device's functions. -/
def endpoint (s : State) : Bool := [0, 1].any fun d => [0, 1].any fun p => (s.die d).roles.get p == 0

/-- An access can come from there: the functions while a port is an endpoint (R329), the host cores of two dies. -/
def sourceOn (s : State) (src : HostFrom) : Bool :=
  match src with
  | .bar2 fn => s.endpoint && decide (fn ≤ 32)
  | .core d _ => decide (d < 2)
  | _ => s.endpoint

/-- The die and the partition entry whose HOST regulator meters an access: that of the function, or of the VMID (R329, R339). -/
def hostEntry (s : State) (src : HostFrom) : Nat × Nat :=
  match src with
  | .bar2 fn => (0, fn - 1)
  | .core d (some v) => (d, ((List.range 32).find? fun n => bit (s.reg d (Win.peCfg n)).toNat 32 && vmidOf s d n == v).getD 0)
  | .core d none => (d, 0)
  | _ => (0, 0)

/-- Where an access finds a byte: the physical function, the decoder and a host core memory itself, virtual function n + 1 the guest
physical space of partition entry n. -/
def hostPa (s : State) (src : HostFrom) (off : Nat) (need : Need) : Option Nat :=
  match src with
  | .bar0 => none
  | .hdm | .bar2 0 => if off < 0xC000000000 then some off else none
  | .core _ _ => if isMemory off && s.portOpen off then some off else none
  | .bar2 (n + 1) => match stage2 s 0 n need off with
    | .ok l => if isMemory l.pa && s.portOpen l.pa then some l.pa else none
    | .error _ => none

/-- What a read answers where there is no memory: 0 above that of the physical function, an open value where a partition or a host core
has nothing mapped (log 95). -/
def hostVoid (s : State) (src : HostFrom) (off : Nat) : Byte :=
  match src with
  | .bar2 (_ + 1) | .core _ _ => (Config.freeVal (s.free + off)).setWidth 8
  | _ => 0

/-- Bytes cut where a line ends, with their addresses. -/
def cutLines (a : Nat) (bs : List Byte) : List (Nat × List Byte) :=
  (List.range (cdiv (a % 128 + bs.length) 128)).map fun i =>
    let lo := 128 * i - a % 128
    (a + lo, (bs.drop lo).take (128 * (i + 1) - a % 128 - lo))

/-- A host core reads bytes of a line: its complex is one lease agent (R235, R236, R339). -/
def hostLoad (s : State) (entry pa n : Nat) : List Byte × State :=
  match s.hitCopy hostAgent (pa / 128) with
  | some c => ((c.data.drop (pa % 128)).take n, s.modAgent hostAgent fun a => { a with pts := later a.pts c.wts })
  | none =>
    let bs := memBytes s.mem pa n
    if onExpander pa then (bs, s)
    else
      let (w, r, s) := (s.touch pa entry 0 false).homeLease pa (s.agent hostAgent).pts Config.hostLease
      (bs, (s.modAgent hostAgent fun a => { a with pts := later a.pts w }).keepReply hostAgent (pa / 128)
        ⟨memBytes s.mem (pa / 128 * 128) 128, w, r⟩)

/-- A host core writes bytes of a line at its home (R237, R339). -/
def hostStore (s : State) (entry pa : Nat) (bs : List Byte) : State :=
  if s.isRepl (homeDie pa) entry pa then s.partStore entry pa bs
  else
    let pts := (s.agent hostAgent).pts
    let (w, s) := (s.reachPt pa (s.storeWts pa pts)).homeStore pa bs pts
    s.modAgent hostAgent fun a => { a with pts := later a.pts w, copies := a.copies.set (pa / 128) none }

/-- Bytes of a line are read for an access: with current data and no lease for a function (R329). -/
def hostRead (s : State) (src : HostFrom) (a n : Nat) : List Byte × State :=
  let entry := (s.hostEntry src).2
  match s.hostPa src a .read with
  | none => ((List.range n).map fun i => s.hostVoid src (a + i), s)
  | some pa => match src with
    | .core _ _ => s.hostLoad entry pa n
    | _ => (memBytes s.mem pa n, s.touch pa entry 0 false)

/-- Bytes of a line are stored for an access, as a store performed at home (R237, R329); granules that they cover whole are good again,
and a header rings (R258, R406). -/
def hostWrite (s : State) (src : HostFrom) (a : Nat) (bs : List Byte) : State :=
  let entry := (s.hostEntry src).2
  match s.hostPa src a .write with
  | none => s
  | some pa =>
    let s := s.touch pa entry 0 false
    let s := match src with
      | .core _ _ => s.hostStore entry pa bs
      | .bar2 (_ + 1) => s.partStore entry pa bs
      | _ => s.devStore pa bs
    let s := (s.healGranules .dram 32 pa bs.length).2
    ((s.healGranules .slice 8 pa bs.length).2).written pa bs.length none

end State

/-- A write of a register that has no row of its own. -/
def execRegisterWrite (die off : Nat) (v : Dword) (s : State) : Host.Outcome State Fault Refusal :=
  .next (if 2 ≤ die ∨ !s.plat.ready then s else s.regWrite die off v)

/-- An access from outside reads n bytes: of memory, or a register as an aligned dword. Before bring-up is complete, all but the open
registers read 0 (R341). -/
def execInboundRead (src : HostFrom) (pa n : Nat) (s : State) : Host.Outcome State Fault Refusal :=
  let put := fun (r : List Byte × State) => { r.2 with out := r.2.out ++ [.read src pa r.1], free := r.2.free + 1 }
  .next (if !s.sourceOn src then s
    else match State.regAt src pa with
      | some (d, off) =>
        if n ≠ 8 ∨ off % 8 ≠ 0 then put (List.replicate n 0, s)
        else put (let (v, s) := s.readReg d off; (toBytes v.toNat 8, s))
      | none =>
        if !s.plat.ready then put (List.replicate n 0, s)
        else match s.meter (s.hostEntry src).1 (s.hostEntry src).2 0 (State.lineBytes pa n) with
          | none => s
          | some s => put ((State.cutLines pa (List.replicate n 0)).foldl (fun (r : List Byte × State) p =>
              let (bs, t) := r.2.hostRead src p.1 p.2.length
              (r.1 ++ bs, t)) ([], s)))

/-- An access from outside writes bytes: to memory, or a register as an aligned dword. Before bring-up is complete, only RSTCTL takes
one (R341). -/
def execInboundWrite (src : HostFrom) (pa : Nat) (bytes : List Byte) (s : State) : Host.Outcome State Fault Refusal :=
  .next (if !s.sourceOn src then s
    else match State.regAt src pa with
      | some (d, off) => if bytes.length ≠ 8 ∨ off % 8 ≠ 0 then s else s.writeReg d off (BitVec.ofNat 64 (ofBytes bytes))
      | none =>
        if !s.plat.ready then s
        else match s.meter (s.hostEntry src).1 (s.hostEntry src).2 0 (State.lineBytes pa bytes.length) with
          | none => s
          | some s => (State.cutLines pa bytes).foldl (fun (s : State) p => s.hostWrite src p.1 p.2) s)

end Sys2Proof.Machine
end

