-- ==== Sys2Proof/Machine/Integer.lean ====
section
/-! DEFINITION. Meanings of the integer, logic, shift, bit, compare, select and move forms (R99 to R109). -/
namespace Sys2Proof.Machine

open Bits

/-- The results of R100 to R109 for one lane, apart from where they are read and written. -/
def widthOf (w : Bool) : Nat := if w then 64 else 32

/-- IADD and ISUB: the exact sum or difference, narrowed (R100). -/
def addSub (sub w sat u : Bool) (x y : Dword) : Dword :=
  let n := widthOf w
  let a := intOf n u x.toNat
  let b := intOf n u y.toNat
  BitVec.ofNat 64 (narrow n sat u (if sub then a - b else a + b))

/-- IMAD with its addend; IMUL has addend 0 (R100). -/
def mulAdd (sat u : Bool) (x y c : Word) : Word :=
  BitVec.ofNat 32 (narrow 32 sat u (intOf 32 u x.toNat * intOf 32 u y.toNat + intOf 32 u c.toNat))

def mulAddWide (sat u : Bool) (x y : Word) (c : Dword) : Dword :=
  BitVec.ofNat 64 (narrow 64 sat u (intOf 32 u x.toNat * intOf 32 u y.toNat + intOf 64 u c.toNat))

def mulHigh (u : Bool) (x y : Word) : Word :=
  BitVec.ofNat 32 (wrap 32 ((intOf 32 u x.toNat * intOf 32 u y.toNat) / (2 ^ 32 : Nat)))

def minMax (max u : Bool) (x y : Word) : Word :=
  if (intOf 32 u x.toNat ≤ intOf 32 u y.toNat) != max then x else y

def absolute (sat : Bool) (x : Word) : Word := BitVec.ofNat 32 (narrow 32 sat false x.toInt.natAbs)

def lop3 (lut : BitVec 8) (d a b : Word) : Word :=
  BitVec.ofNat 32 ((List.range 32).foldl (fun r i =>
    r + 2 ^ i * ofBool (lut.getLsbD (4 * ofBool (d.getLsbD i) + 2 * ofBool (a.getLsbD i) + ofBool (b.getLsbD i)))) 0)

/-- The shift count of R102. -/
def shiftCount (w clamp : Bool) (b : Word) : Nat :=
  if clamp then min b.toNat (widthOf w) else b.toNat % widthOf w

def shiftLeft (w : Bool) (x : Dword) (n : Nat) : Dword := BitVec.ofNat 64 (x.toNat * 2 ^ n % 2 ^ widthOf w)
def shiftRight (w : Bool) (x : Dword) (n : Nat) : Dword := BitVec.ofNat 64 (x.toNat % 2 ^ widthOf w / 2 ^ n)
def shiftArith (w : Bool) (x : Dword) (n : Nat) : Dword :=
  BitVec.ofNat 64 (wrap (widthOf w) (signed (widthOf w) x.toNat / (2 ^ n : Nat)))
def rotLeft (w : Bool) (x : Dword) (n : Nat) : Dword :=
  let v := x.toNat % 2 ^ widthOf w
  BitVec.ofNat 64 (v * 2 ^ n % 2 ^ widthOf w ||| v / 2 ^ (widthOf w - n))

def clz (x : Word) : Word := BitVec.ofNat 32 (if x = 0 then 32 else 31 - Nat.log2 x.toNat)
def ctz (x : Word) : Word := BitVec.ofNat 32 (((List.range 32).find? fun i => x.getLsbD i).getD 32)
def popc (x : Word) : Word := BitVec.ofNat 32 (popcount 32 x.toNat)
def brev (x : Word) : Word :=
  BitVec.ofNat 32 ((List.range 32).foldl (fun r i => r + 2 ^ i * ofBool (x.getLsbD (31 - i))) 0)

/-- BFX of R104. -/
def bfx (u : Bool) (a b : Word) : Word :=
  let pos := field b.toNat 0 8
  let m := min (field b.toNat 8 8) 32
  let f := a.toNat / 2 ^ pos % 2 ^ m
  let neg := !u && decide (1 ≤ m ∧ m < 32) && bit f (m - 1)
  BitVec.ofNat 32 (if neg then wrap 32 ((f : Int) - (2 ^ m : Nat)) else f)

/-- BFI of R104. -/
def bfi (a b c : Word) : Word :=
  let pos := field b.toNat 0 8
  let m := min (field b.toNat 8 8) 32
  let mask : Word := BitVec.ofNat 32 ((2 ^ m - 1) * 2 ^ pos)
  (a &&& ~~~ mask) ||| (BitVec.ofNat 32 (c.toNat * 2 ^ pos) &&& mask)

/-- Bits of the sources dealt out in turn (R105). -/
def deal (n k : Nat) (src : List Word) : Word :=
  BitVec.ofNat 32 ((List.range k).foldl (fun r i =>
    r + (src.zipIdx.foldl (fun q p => q + 2 ^ (n * i + p.2) * ofBool (p.1.getLsbD i)) 0)) 0)

/-- Every n-th bit from s on, k of them (R105). -/
def gather (n k s : Nat) (a : Word) : Word :=
  BitVec.ofNat 32 ((List.range k).foldl (fun r i => r + 2 ^ i * ofBool (a.getLsbD (n * i + s))) 0)

def ilv (three : Bool) (a b c : Word) : Word := if three then deal 3 10 [a, b, c] else deal 2 16 [a, b]

def dlv (three : Bool) (a b : Word) : Word :=
  let s := b.toNat % 4
  if three then (if s = 3 then 0 else gather 3 10 s a) else (if 2 ≤ s then 0 else gather 2 16 s a)

def leaAddr (u : Bool) (sh : Nat) (a : Dword) (b : Word) : Dword :=
  a + (if u then b.setWidth 64 else b.signExtend 64) <<< sh

/-- The value of an immediate of MOVI and MOVK (R54, R108). -/
def immVal : Imm → Dword
  | .short i => i.signExtend 64
  | .lit x => x

-- meanings

def execIadd (h : Head) (d a : VReg) (b : SrcB) (w sat u : Bool) (s : State) : Host.Outcome State Fault Refusal :=
  .next (s.laneW h d w fun l => addSub false w sat u (s.srcW l a w) (s.srcBW l b w))

def execIsub (h : Head) (d a : VReg) (b : SrcB) (w sat u : Bool) (s : State) : Host.Outcome State Fault Refusal :=
  .next (s.laneW h d w fun l => addSub true w sat u (s.srcW l a w) (s.srcBW l b w))

def execImul (h : Head) (d a : VReg) (b : SrcB) (sat u : Bool) (s : State) : Host.Outcome State Fault Refusal :=
  .next (s.lane32 h d fun l => mulAdd sat u (s.rv l a.toNat) (s.srcB l b) 0)

def execImulh (h : Head) (d a : VReg) (b : SrcB) (u : Bool) (s : State) : Host.Outcome State Fault Refusal :=
  .next (s.lane32 h d fun l => mulHigh u (s.rv l a.toNat) (s.srcB l b))

def execImad (h : Head) (d a : VReg) (b : SrcB) (c : VReg) (sat u : Bool) (s : State) :
    Host.Outcome State Fault Refusal :=
  .next (s.lane32 h d fun l => mulAdd sat u (s.rv l a.toNat) (s.srcB l b) (s.rv l c.toNat))

def execImadw (h : Head) (d a : VReg) (b : SrcB) (c : VReg) (sat u : Bool) (s : State) :
    Host.Outcome State Fault Refusal :=
  .next (s.laneW h d true fun l => mulAddWide sat u (s.rv l a.toNat) (s.srcB l b) (s.rv2 l c.toNat))

def execImin (h : Head) (d a : VReg) (b : SrcB) (u : Bool) (s : State) : Host.Outcome State Fault Refusal :=
  .next (s.lane32 h d fun l => minMax false u (s.rv l a.toNat) (s.srcB l b))

def execImax (h : Head) (d a : VReg) (b : SrcB) (u : Bool) (s : State) : Host.Outcome State Fault Refusal :=
  .next (s.lane32 h d fun l => minMax true u (s.rv l a.toNat) (s.srcB l b))

def execIabs (h : Head) (d a : VReg) (sat : Bool) (s : State) : Host.Outcome State Fault Refusal :=
  .next (s.lane32 h d fun l => absolute sat (s.rv l a.toNat))

def execAnd (h : Head) (d a : VReg) (b : SrcB) (s : State) : Host.Outcome State Fault Refusal :=
  .next (s.lane32 h d fun l => s.rv l a.toNat &&& s.srcB l b)

def execOr (h : Head) (d a : VReg) (b : SrcB) (s : State) : Host.Outcome State Fault Refusal :=
  .next (s.lane32 h d fun l => s.rv l a.toNat ||| s.srcB l b)

def execXor (h : Head) (d a : VReg) (b : SrcB) (s : State) : Host.Outcome State Fault Refusal :=
  .next (s.lane32 h d fun l => s.rv l a.toNat ^^^ s.srcB l b)

def execAndn (h : Head) (d a : VReg) (b : SrcB) (s : State) : Host.Outcome State Fault Refusal :=
  .next (s.lane32 h d fun l => s.rv l a.toNat &&& ~~~ s.srcB l b)

def execNot (h : Head) (d a : VReg) (s : State) : Host.Outcome State Fault Refusal :=
  .next (s.lane32 h d fun l => ~~~ s.rv l a.toNat)

def execLop3 (h : Head) (d a : VReg) (b : SrcB) (lut : BitVec 8) (s : State) : Host.Outcome State Fault Refusal :=
  .next (s.lane32 h d fun l => lop3 lut (s.rv l d.toNat) (s.rv l a.toNat) (s.srcB l b))

def execShl (h : Head) (d a : VReg) (b : SrcB) (w clamp : Bool) (s : State) : Host.Outcome State Fault Refusal :=
  .next (s.laneW h d w fun l => shiftLeft w (s.srcW l a w) (shiftCount w clamp (s.srcB l b)))

def execShr (h : Head) (d a : VReg) (b : SrcB) (w clamp : Bool) (s : State) : Host.Outcome State Fault Refusal :=
  .next (s.laneW h d w fun l => shiftRight w (s.srcW l a w) (shiftCount w clamp (s.srcB l b)))

def execSar (h : Head) (d a : VReg) (b : SrcB) (w clamp : Bool) (s : State) : Host.Outcome State Fault Refusal :=
  .next (s.laneW h d w fun l => shiftArith w (s.srcW l a w) (shiftCount w clamp (s.srcB l b)))

def execRotl (h : Head) (d a : VReg) (b : SrcB) (w : Bool) (s : State) : Host.Outcome State Fault Refusal :=
  .next (s.laneW h d w fun l => rotLeft w (s.srcW l a w) (shiftCount w false (s.srcB l b)))

def execClz (h : Head) (d a : VReg) (s : State) : Host.Outcome State Fault Refusal :=
  .next (s.lane32 h d fun l => clz (s.rv l a.toNat))

def execCtz (h : Head) (d a : VReg) (s : State) : Host.Outcome State Fault Refusal :=
  .next (s.lane32 h d fun l => ctz (s.rv l a.toNat))

def execPopc (h : Head) (d a : VReg) (s : State) : Host.Outcome State Fault Refusal :=
  .next (s.lane32 h d fun l => popc (s.rv l a.toNat))

def execBrev (h : Head) (d a : VReg) (s : State) : Host.Outcome State Fault Refusal :=
  .next (s.lane32 h d fun l => brev (s.rv l a.toNat))

def execBfx (h : Head) (d a : VReg) (b : SrcB) (u : Bool) (s : State) : Host.Outcome State Fault Refusal :=
  .next (s.lane32 h d fun l => bfx u (s.rv l a.toNat) (s.srcB l b))

def execBfi (h : Head) (d a : VReg) (b : SrcB) (c : VReg) (s : State) : Host.Outcome State Fault Refusal :=
  .next (s.lane32 h d fun l => bfi (s.rv l a.toNat) (s.srcB l b) (s.rv l c.toNat))

def execIlv (h : Head) (d a : VReg) (b : SrcB) (c : VReg) (three : Bool) (s : State) :
    Host.Outcome State Fault Refusal :=
  .next (s.lane32 h d fun l => ilv three (s.rv l a.toNat) (s.srcB l b) (s.rv l c.toNat))

def execDlv (h : Head) (d a : VReg) (b : SrcB) (three : Bool) (s : State) : Host.Outcome State Fault Refusal :=
  .next (s.lane32 h d fun l => dlv three (s.rv l a.toNat) (s.srcB l b))

def execIcmp (h : Head) (cc : Cmp) (d : PReg) (a : VReg) (b : SrcB) (c : PReg) (s : State) :
    Host.Outcome State Fault Refusal :=
  .next (s.laneP h d fun l => icond cc (s.rv l a.toNat) (s.srcB l b) && s.rp l c.toNat)

def execIsel (h : Head) (d a : VReg) (b : SrcB) (c : PReg) (s : State) : Host.Outcome State Fault Refusal :=
  .next (s.lane32 h d fun l => if s.rp l c.toNat then s.rv l a.toNat else s.srcB l b)

def execMov (h : Head) (d : MovDst) (b : SrcB) (s : State) : Host.Outcome State Fault Refusal :=
  .next (match d with
    | .v r => s.lane32 h r fun l => s.srcB l b
    | .w r => s.laneW h r true fun l => s.srcB2 l b
    | .k r => s.uniform h fun l => [State.kres r.toNat ((s.srcB l b).setWidth 64)]
    | .wk r => s.uniform h fun l => [State.kres r.toNat (s.srcB2 l b)])

def execMovi (h : Head) (d : VReg) (w : Bool) (imm : Imm) (s : State) : Host.Outcome State Fault Refusal :=
  .next (s.laneW h d w fun _ => immVal imm)

def execMovk (h : Head) (d : KReg) (src : MovkSrc) (imm : Imm) (s : State) : Host.Outcome State Fault Refusal :=
  .next (s.uniform h fun _ => [State.kres d.toNat (match src with
    | .imm => immVal imm
    | .add a => s.rk a.toNat + immVal imm)])

def execLea (h : Head) (d a : VReg) (b : SrcB) (sh : BitVec 3) (u : Bool) (s : State) :
    Host.Outcome State Fault Refusal :=
  .next (s.laneW h d true fun l => leaAddr u sh.toNat (s.rv2 l a.toNat) (s.srcB l b))

end Sys2Proof.Machine
end

