-- ==== Sys2Proof/Machine/Mgmt.lean ====
section
/-! DEFINITION. The management port: halting a unit, snapshots, firmware, and checkpoints (R422 to R424, R426 to R428). -/
namespace Sys2Proof.Machine

open Bits

/-- The unit a record names, where there is one (R20, R422). -/
def mgmtUnit? (r : MgmtRec) : Option UnitId :=
  match r.kind.toNat with
  | 0 => if r.unit.toNat < 128 then some ⟨.sc, r.die.toNat, r.unit.toNat⟩ else none
  | 1 => if r.unit.toNat < 64 then some ⟨.tt, r.die.toNat, r.unit.toNat⟩ else none
  | 2 => if r.unit.toNat < 16 then some ⟨.rc, r.die.toNat, r.unit.toNat⟩ else none
  | _ => none

namespace State

/-- The port's answer (R422). -/
def answer (s : State) (r : MgmtRec) (status : Nat) : State := { s with out := s.out ++ [.answer r status] }

/-- A command whose record has the right code, no reserved bit, and a unit (R422, R423). -/
def onUnit (s : State) (r : MgmtRec) (code : Nat) (f : UnitId → State) : State :=
  if r.cmd.toNat ≠ code then s
  else match mgmtUnit? r with
    | some u => if r.resv then s.answer r 2 else f u
    | none => s.answer r 2

/-- A command to a die. -/
def onDie (s : State) (r : MgmtRec) (code : Nat) (f : State) : State :=
  if r.cmd.toNat ≠ code then s else if r.resv then s.answer r 2 else f

/-- Every lane of a unit in a path is parked with DBGHALT (R423). -/
def dbgHalt (s : State) (u : UnitId) : State :=
  (s.core u).warpList.foldl (fun s p =>
    if p.1 = trapSlot then s
    else s.strikeBoundary u p.1 (p.2.paths.foldl (fun m q => m ||| q.mask) 0) Cause.dbghalt 0 0) s

/-- A unit's section of the save area (R281, R286, R287). -/
def snapSection (s : State) (u : UnitId) : List Nat :=
  match u.kind with
  | .sc => s.scSection u
  | .tt => s.ttSection u ((s.unitSlice u).ctx.getD default)
  | .rc => s.rcSection u

/-- Dwords stored at home at consecutive physical addresses. -/
def putDwords (s : State) (pa : Nat) : List Nat → State
  | [] => s
  | x :: r => putDwords (s.devStoreN pa 8 x) (pa + 8) r

end State

def execHalt (r : MgmtRec) (s : State) : Host.Outcome State Fault Refusal :=
  .next (s.onUnit r 0x01 fun u =>
    (if r.arg0.getLsbD 0 then s.dbgHalt u else s.modCore u fun c => { c with halted := true }).answer r 0)

def execResume (r : MgmtRec) (s : State) : Host.Outcome State Fault Refusal :=
  .next (s.onUnit r 0x02 fun u =>
    if (s.core u).halted then (s.modCore u fun c => { c with halted := false }).answer r 0 else s.answer r 1)

def execSnap (r : MgmtRec) (s : State) : Host.Outcome State Fault Refusal :=
  .next (s.onUnit r 0x03 fun u =>
    let ds := s.snapSection u
    let a := r.addr.toNat
    if !(s.core u).halted ∨ a % 8 ≠ 0 ∨ !(List.range ds.length).all fun i => isMemory (a + 8 * i) && s.portOpen (a + 8 * i) then s.answer r 1
    else (s.putDwords a ds).answer r 0)

/-- The image that follows the record on the port as LEN bytes, its header and body and then its signature (R342), is verified, once
that on the flash has failed; bring-up goes on from step 3 (R428). -/
def execFwload (r : MgmtRec) (signed sig : List Byte) (s : State) : Host.Outcome State Fault Refusal :=
  let image := signed ++ sig
  .next (s.onDie r 0x10 (
    if r.die ≠ 0 ∨ s.plat.ready ∨ s.plat.stage ≠ 1 ∨ !s.plat.stalled ∨ image.length ≠ r.arg0.toNat ∨ !State.acceptsImage 0 image then
      s.answer r 1
    else (s.runImage image).answer r 0))

def execUnknownManagementCommand (r : MgmtRec) (s : State) : Host.Outcome State Fault Refusal :=
  .next (if [0x01, 0x02, 0x03, 0x10, 0x20, 0x21, 0x22].contains r.cmd.toNat then s else s.answer r 2)

-- checkpoints (R426, R427)

namespace State

/-- A plan: its identifier, and its segments as (source, length, target, target address). None where a reserved field is not
0. -/
def planOf (s : State) (a : Nat) : Option (Dword × List (Nat × Nat × Nat × Nat)) :=
  let n := s.peek a 8
  let seg := fun i => (s.peek (a + 64 + 32 * i) 8, s.peek (a + 72 + 32 * i) 8, s.peek (a + 80 + 32 * i) 8, s.peek (a + 88 + 32 * i) 8)
  let segs := (List.range (min n 1018)).map seg
  if s.peek (a + 16) 48 ≠ 0 ∨ segs.any fun x => decide (1 < x.2.2.1 % 8 ∨ 2 ^ 7 ≤ x.2.2.1) then none
  else some (BitVec.ofNat 64 (s.peek (a + 8) 8), segs)

/-- A plan that can be carried out: not longer than a commit record, segments of whole pages of the package's memory, targets
that are there, and no source over the plan itself. -/
def planOk (s : State) (a : Nat) (segs : List (Nat × Nat × Nat × Nat)) : Bool :=
  decide (s.peek a 8 ≤ 1018) && segs.all fun x =>
    x.1 % 4096 == 0 && x.2.1 % 4096 == 0 && decide (x.1 + x.2.1 ≤ 0xC000000000) &&
    decide (x.1 + x.2.1 ≤ a ∨ a + 64 + 32 * segs.length ≤ x.1) &&
    (if x.2.2.1 % 8 = 0 then decide (x.2.2.1 / 8 < 4) && onExpander x.2.2.2 && isMemory x.2.2.2 && s.portOpen x.2.2.2 &&
        portOf x.2.2.2 == x.2.2.1 / 8
      else s.peerOn 0 (x.2.2.1 / 8) && !(s.die 0).fenced.contains (.die (x.2.2.1 / 8)))

/-- STOP is set in every launch queue of a context. -/
def stopQueues (s : State) (ctx : Nat) : State :=
  (List.range (s.lqCount ctx)).foldl (fun s q =>
    let h := s.lqHdr ctx q
    s.devStoreN (h.pa + 24) 8 (setField (s.peek (h.pa + 24) 8) 28 1 1)) s

/-- Firmware quiesces the package: STOP on every launch queue, and every slice on its way out, saved, with nothing to follow
(R427). -/
def quiesce (s : State) : State :=
  let s := ((s.slices.filterMap fun p => p.2.ctx.map (·.ctxid)).eraseDups).foldl stopQueues s
  [0, 1].foldl (fun s d => (List.range 16).foldl (fun s i =>
    let sl := s.slice d i
    if sl.go ∨ (sl.ctx.isNone ∧ sl.st = .idle) then s
    else
      let s := s.setReg d (Win.slnext i) ((s.reg d (Win.slnext i)) &&& 0xFF)
      let s := s.plainWrite d (Win.slctl i) 4
      s.modSlice d i fun sl => { sl with st := .switching, go := true, goAt := s.pace d, doSave := true, doRestore := false }) s) s

/-- Nothing runs any more, and no resolve, refit or die copy is left. -/
def quiet (s : State) : Bool :=
  (s.slices.all fun p => p.2.st == .idle) && s.resolves == [] &&
  [0, 1].all fun d => (s.die d).refit.isNone && (s.die d).refitQ == [] && (s.die d).dce == [] && (s.die d).dceRun == []

/-- A store of the checkpoint to a domain die: sectors of REQ messages with PTN 0xFFFF. -/
def sendCkpt (s : State) (t pa : Nat) (bs : List Byte) : State :=
  (List.range (cdiv bs.length 32)).foldl (fun s i =>
    s.sendFrame 0 t 0 (storeMsg (pa + 32 * i) (2 ^ 32 - 1) (ofBytes ((bs.drop (32 * i)).take 32)) [] 0xFFFF (s.domNo 0))) s

/-- Bytes go to a segment's target. -/
def toTarget (s : State) (target pa : Nat) (bs : List Byte) : State :=
  if target % 8 = 0 then bs.zipIdx.foldl (fun s b => s.devStore (pa + b.2) [b.1]) s else s.sendCkpt (target / 8) pa bs

/-- Where a target's commit record stands: behind the last of its segments (log 32). -/
def commitAt (segs : List (Nat × Nat × Nat × Nat)) (target : Nat) : Nat :=
  ((segs.filter fun x => x.2.2.1 == target).getLast?).elim 0 fun x => x.2.2.2 + x.2.1

/-- A commit record (R426). -/
def commitBytes (ident : Dword) (pace : Nat) (crcs : List Word) : List Byte :=
  let b := toBytes ident.toNat 8 ++ toBytes pace 8 ++ toBytes crcs.length 8 ++ crcs.flatMap fun c => toBytes c.toNat 4
  b ++ List.replicate (4096 - b.length) 0

/-- The targets of a plan, each once. -/
def targetsOf (segs : List (Nat × Nat × Nat × Nat)) : List Nat := (segs.map fun x => x.2.2.1).eraseDups

end State

def execCkpt (r : MgmtRec) (s : State) : Host.Outcome State Fault Refusal :=
  .next (s.onDie r 0x20 (
    if r.die ≠ 0 ∨ s.plat.ckpt.isSome ∨ !s.plat.ready then s.answer r 1
    else match s.planOf r.addr.toNat with
      | none => s.answer r 2
      | some (id, segs) =>
        if !s.planOk r.addr.toNat segs then s.answer r 1
        else
          let s := s.quiesce
          { s with plat := { s.plat with ckpt := some ⟨r, segs, id, 0, [], false⟩ } }))

/-- The die copy engines read every segment at home and write it to its target (R426, R427). -/
def execCheckpointTransfer (s : State) : Host.Outcome State Fault Refusal :=
  .next (match s.plat.ckpt with
    | none => s
    | some k =>
      if k.written ∨ !s.quiet then s
      else
        let data := k.segs.map fun x => memBytes s.mem x.1 x.2.1
        let now := s.pace 0
        let s := (k.segs.zip data).foldl (fun s x => s.toTarget x.1.2.2.1 x.1.2.2.2 x.2) s
        { s with plat := { s.plat with ckpt := some { k with pace := now, crcs := data.map crc32c, written := true } } })

/-- Every segment has been written: the commit records follow, and the port answers. -/
def execCheckpointCommit (s : State) : Host.Outcome State Fault Refusal :=
  .next (match s.plat.ckpt with
    | none => s
    | some k =>
      let open_ := k.segs.any fun x => x.2.2.1 % 8 == 1 && ((s.die 0).conns.get (8 * (x.2.2.1 / 8))).unacked != []
      if !k.written ∨ open_ then s
      else
        let s := (State.targetsOf k.segs).foldl (fun s t =>
          s.toTarget t (State.commitAt k.segs t) (State.commitBytes k.ident k.pace k.crcs)) s
        ({ s with plat := { s.plat with ckpt := none } } : State).answer k.rec_ 0)

def execCkrecv (r : MgmtRec) (s : State) : Host.Outcome State Fault Refusal :=
  .next (s.onDie r 0x21 ((s.modDie r.die.toNat fun x => { x with
    ckWin := if r.arg1 = 0 then none else some (field r.arg0.toNat 0 4, r.addr.toNat, r.arg1.toNat) }).answer r 0))

namespace State

/-- What lies at a target: an expander's memory, or what the target die has sent back: its commit record, then its segments in
plan order. -/
def fromTargets (s : State) (segs : List (Nat × Nat × Nat × Nat)) (remote : List Byte) : List (Nat × List Byte) × List (List Byte) :=
  let (cs, rest) := (targetsOf segs).foldl (fun (a : List (Nat × List Byte) × List Byte) t =>
    if t % 8 = 0 then (a.1 ++ [(t, memBytes s.mem (commitAt segs t) 4096)], a.2)
    else (a.1 ++ [(t, a.2.take 4096)], a.2.drop 4096)) ([], remote)
  let (ds, _) := segs.foldl (fun (a : List (List Byte) × List Byte) x =>
    if x.2.2.1 % 8 = 0 then (a.1 ++ [memBytes s.mem x.2.2.2 x.2.1], a.2)
    else (a.1 ++ [(List.range x.2.1).map fun i => a.2.getD i 0], a.2.drop x.2.1)) ([], rest)
  (cs, ds)

end State

/-- The segments of a plan come back, and every CRC is checked (R427). A target without the plan's commit record holds no
checkpoint. -/
def execCkrest (r : MgmtRec) (remote : List Byte) (s : State) : Host.Outcome State Fault Refusal :=
  .next (s.onDie r 0x22 (
    if r.die ≠ 0 ∨ !s.plat.ready then s.answer r 1
    else match s.planOf r.addr.toNat with
      | none => s.answer r 2
      | some (id, segs) =>
        if !s.planOk r.addr.toNat segs then s.answer r 1
        else
          let (cs, ds) := s.fromTargets segs remote
          let crcs := ds.map crc32c
          let good := cs.all fun c =>
            ofBytes (c.2.take 8) == id.toNat && ofBytes ((c.2.drop 16).take 8) == segs.length &&
            (crcs.zipIdx.all fun x => ofBytes ((c.2.drop (24 + 4 * x.2)).take 4) == x.1.toNat)
          let s := (segs.zip ds).foldl (fun s x => x.2.zipIdx.foldl (fun s b => s.devStore (x.1.1 + b.2) [b.1]) s) s
          s.answer r (if good then 0 else 1)))

end Sys2Proof.Machine
end

