-- ==== Sys2Proof/Machine/Refit.lean ====
section
/-! DEFINITION. The refit engine of a die (R302, R303, R313 to R315, R375, R395, R406). -/
namespace Sys2Proof.Machine

open Bits Sys2Proof.Num

namespace RefitJob

def fld (j : RefitJob) (i : Nat) : Nat := (j.desc.getD i 0).toNat
def nb (j : RefitJob) : Nat := j.fld 0
def pb (j : RefitJob) : Nat := j.fld 1
def bx (j : RefitJob) : Nat := j.fld 2
def cnt (j : RefitJob) : Nat := j.fld 3
def start (j : RefitJob) : Nat := j.fld 4
def nstart (j : RefitJob) : Nat := field (j.fld 5) 0 32
def thresh (j : RefitJob) : Nat := field (j.fld 5) 32 32
def resVa (j : RefitJob) : Nat := j.fld 6

end RefitJob

/-- No parent, and no child. -/
def noNode : Nat := 0xFFFFFFFF

namespace State

-- accesses of the engine; a failure is the status with which the handle completes (R395)

/-- Where an access of the engine lands: translated under the refit's context, aligned, its home not lost. -/
def refitPa (s : State) (d : Nat) (j : RefitJob) (need : Need) (al va : Nat) : Except Nat Nat :=
  let c := s.ctxRt j.ctx
  match translate s d (s.ctxDesc j.ctx) c.pidx true need (va % 2 ^ 64) with
  | .ok x => if va % al ≠ 0 ∨ s.lostPa d x.pa then .error 0xA4 else .ok x.pa
  | .error _ => .error 0xA4

/-- n words read at home. -/
def refitWords (s : State) (d : Nat) (j : RefitJob) (va n : Nat) : Except Nat (List Word) :=
  let ps := (List.range n).map fun i => s.refitPa d j .read 4 (va + 4 * i)
  match errs ps with
  | e :: _ => .error e
  | [] =>
    if (oks ps).any fun p => (s.homeBad p 4).isSome then .error 0xA6
    else .ok ((oks ps).map fun p => BitVec.ofNat 32 (s.peek p 4))

def refitNode (s : State) (d : Nat) (j : RefitJob) (n : Nat) : Except Nat (List Word) := s.refitWords d j (j.nb + 64 * n) 16

/-- Bytes stored at home; granules they cover in part are reported (R406). -/
def refitStore (s : State) (d : Nat) (j : RefitJob) (al va : Nat) (bs : List Byte) : Except Nat State :=
  let ps := (cut4k va bs.length).map fun p => (s.refitPa d j .write al p.1).map fun pa => (pa, (bs.drop (p.1 - va)).take p.2)
  match errs ps with
  | e :: _ => .error e
  | [] => .ok ((oks ps).foldl (fun (s : State) p =>
    let (a, s) := s.healGranules .slice 8 p.1 p.2.length
    let (b, s) := s.healGranules .dram 32 p.1 p.2.length
    let rep := fun (c : Nat) (g : Nat) (s : State) =>
      s.report j.ctx ⟨c, resOf c, none, 0, 0, 0, BitVec.ofNat 64 g, 0, 0, s.pace d⟩
    let s := a.foldl (fun s g => rep Cause.sliceecc (8 * g) s) s
    let s := b.foldl (fun s g => rep Cause.dramecc (32 * g) s) s
    s.partStore (s.ctxRt j.ctx).pidx p.1 p.2) s)

/-- The refit ends: RES is written where the engine began it, and the handle completes (R314, R395). -/
def refitEnd (s : State) (d : Nat) (j : RefitJob) (status : Nat) (began : Bool) : State :=
  let s := s.modDie d fun x => { x with refit := none }
  if !began then s.completeHandle j.ctx j.handle status
  else match s.refitStore d j 8 j.resVa (toBytes (pack [(32, j.faded), (32, j.nodes)]) 8) with
    | .ok s => s.completeHandle j.ctx j.handle status
    | .error e => s.completeHandle j.ctx j.handle (if status = 0 then e else status)

end State

-- trees (R302)

def nodeParent (ws : List Word) : Nat := nodeField ws 448 32

/-- Children with a reference, and those that are built internal nodes. -/
def nodeChildren (ws : List Word) : List Nat := (List.range 4).filter fun i => childRef ws i != noNode
def builtInternal (ws : List Word) : List Nat := (nodeChildren ws).filter fun i => !childLeaf ws i && !childUnb ws i

namespace State

/-- The arrival counters that a refit reaches: of a node and its ancestors; a node met before ends the chain. -/
def countersUp (s : State) (d : Nat) (j : RefitJob) : Nat → Nat → List Nat → Except Nat (List Nat)
  | 0, _, seen => .ok seen
  | fuel + 1, n, seen =>
    if n = noNode ∨ seen.contains n then .ok seen
    else match s.refitNode d j n with
      | .error e => .error e
      | .ok ws => countersUp s d j fuel (nodeParent ws) (n :: seen)

/-- The nodes whose counters have to be 0, from start node i on. -/
def countersAll (s : State) (d : Nat) (j : RefitJob) : Nat → Nat → List Nat → Except Nat (List Nat)
  | 0, _, seen => .ok seen
  | k + 1, i, seen =>
    match s.refitWords d j (j.start + 4 * i) 1 with
    | .error e => .error e
    | .ok ws =>
      match s.countersUp d j (2 ^ 32) ((ws.getD 0 0).toNat) seen with
      | .error e => .error e
      | .ok seen => countersAll s d j k (i + 1) seen

/-- Whether every counter of a list of nodes is 0; else the status. -/
def countersZero (s : State) (d : Nat) (j : RefitJob) : List Nat → Except Nat Unit
  | [] => .ok ()
  | n :: r =>
    match s.refitWords d j (j.cnt + 4 * n) 1 with
    | .error e => .error e
    | .ok ws => if ws.getD 0 0 = 0 then countersZero s d j r else .error 0xA5

end State

-- boxes (R314): six values, lows and then highs

def emptyBox : List FVal := List.replicate 3 (.inf false) ++ List.replicate 3 (.inf true)

/-- The union of boxes; NaN wherever one of them holds NaN. -/
def unionBox (a b : List FVal) : List FVal :=
  (List.range 6).map fun i =>
    let x := a.getD i .nan
    let y := b.getD i .nan
    if isNan x || isNan y then .nan else if i < 3 then fminV x y else fmaxV x y

/-- PrimBox of a primitive record (R303, R314); a reserved kind has no stated box. -/
def primBox (ws : List Word) : List FVal :=
  let f := fun i => decodeF f32 (ws.getD i 0).toNat
  match (ws.getD 10 0).toNat with
  | 0 =>
    let v := fun k => [f (3 * k), f (3 * k + 1), f (3 * k + 2)]
    let b := fun k => v k ++ v k
    unionBox (unionBox (b 0) (b 1)) (b 2)
  | 1 =>
    let r := if ltF (f 3) (.fin false 0) then neg (f 3) else f 3
    (List.range 3).map (fun a => add (f a) (neg r)) ++ (List.range 3).map (fun a => add (f a) r)
  | _ => List.replicate 6 .nan

namespace State

/-- The union of the boxes of n primitives from index i on. -/
def primsBox (s : State) (d : Nat) (j : RefitJob) : Nat → Nat → Except Nat (List FVal)
  | 0, _ => .ok emptyBox
  | n + 1, i =>
    match s.refitWords d j (j.pb + 48 * i) 12, primsBox s d j n (i + 1) with
    | .ok ws, .ok b => .ok (unionBox (primBox ws) b)
    | .error e, _ => .error e
    | _, .error e => .error e

/-- b[i] of RefitNode: the box of a child. -/
def childBox (s : State) (d : Nat) (j : RefitJob) (ws : List Word) (i : Nat) : Except Nat (List FVal) :=
  let c := childRef ws i
  if childLeaf ws i then s.primsBox d j (c % 16 + 1) (c / 16)
  else if childUnb ws i then
    .ok ((List.range 3).map (fun a => decodeF f32 (roundF f32 .rdn 0 (childBound ws i a false))) ++
      (List.range 3).map (fun a => decodeF f32 (roundF f32 .rup 0 (childBound ws i a true))))
  else match s.refitWords d j (j.bx + 32 * c) 6 with
    | .ok ws => .ok (ws.map fun w => decodeF f32 w.toNat)
    | .error e => .error e

def childBoxes (s : State) (d : Nat) (j : RefitJob) (ws : List Word) : List Nat → Except Nat (List (Nat × List FVal))
  | [] => .ok []
  | i :: r =>
    match s.childBox d j ws i, childBoxes s d j ws r with
    | .ok b, .ok bs => .ok ((i, b) :: bs)
    | .error e, _ => .error e
    | _, .error e => .error e

end State

/-- A finite value. -/
def finVal (v : FVal) : Option Rat := match v with | .fin _ q => some q | _ => none

/-- e_a of RefitNode: the least exponent whose scale covers a length. -/
def boxExp (len : Rat) : Nat := ((List.range 254).find? fun i => decide (len ≤ 255 * pow2 ((i : Nat) + 1 - 127 : Int))).getD 253 + 1

/-- What RefitNode computes for one axis from the union and the children's bounds: ORIGIN, EXP, and each child's QLO and QHI;
none for a value that a non-finite bound leaves open. -/
def axisFields (lo hi : FVal) (kids : List (Nat × FVal × FVal)) :
    Option Nat × Option Nat × List (Nat × Option (Nat × Nat)) :=
  let ob := if isNan lo then none else some (roundF f32 .rdn 0 lo)
  match ob.bind fun b => finVal (decodeF f32 b), finVal hi with
  | some o, some h =>
    let e := boxExp (h - o)
    let sc := pow2 ((e : Nat) - 127 : Int)
    (ob, some e, kids.map fun k => (k.1, match finVal k.2.1, finVal k.2.2 with
      | some x, some y => some (((x - o) / sc).floor.toNat, min 255 ((y - o) / sc).ceil.toNat)
      | _, _ => none))
  | _, _ => (ob, none, kids.map fun k => (k.1, none))

/-- SA of a finite box. -/
def surface (u : List FVal) : Option Rat :=
  match u.map finVal with
  | [some a, some b, some c, some x, some y, some z] =>
    let dx := x - a
    let dy := y - b
    let dz := z - c
    some (2 * (dx * dy + dy * dz + dz * dx))
  | _ => none

/-- A node's 512 bits with new values in some of its fields. -/
def setNode (x : Nat) (fs : List (Nat × Nat × Nat)) : Nat := fs.foldl (fun x f => setField x f.1 f.2.1 f.2.2) x

namespace State

/-- The fields of a node that RefitNode writes, as (bit, width, value); open values are free. -/
def nodeFields (s : State) (j : RefitJob) (ws : List Word) (u : List FVal) (bs : List (Nat × List FVal)) : List (Nat × Nat × Nat) × State :=
  let axes := (List.range 3).map fun a => axisFields (u.getD a .nan) (u.getD (a + 3) .nan) (bs.map fun b => (b.1, b.2.getD a .nan, b.2.getD (a + 3) .nan))
  let (x, s) := s.drawFree
  let (y, s) := s.drawFree
  let (z, s) := s.drawFree
  let (p, s) := s.drawFree
  let frees := [x.toNat, y.toNat, z.toNat]
  let q := fun (i a v : Nat) (hi : Bool) => (256 + 48 * i + 8 * (if hi then a + 3 else a), 8, v)
  let ofAxis := fun (a : Nat) (r : Option Nat × Option Nat × List (Nat × Option (Nat × Nat))) =>
    let fv := frees.getD a 0
    [(32 * a, 32, r.1.getD fv), (96 + 8 * a, 8, r.2.1.getD (fv / 2 ^ 32))] ++ r.2.2.flatMap fun k =>
      let v := k.2.getD (fv / 2 ^ (16 * k.1), fv / 2 ^ (16 * k.1 + 8))
      [q k.1 a v.1 false, q k.1 a v.2 true]
  let faded := match surface u with
    | some sa => ofBool (fcond .gt (.fin false sa) (mul (decodeF f32 j.thresh) (decodeF f32 (2 ^ 16 * nodeField ws 480 16))))
    | none => p.toNat % 2
  ((axes.zipIdx.flatMap fun r => ofAxis r.2 r.1) ++ [(496, 1, faded)], s)

/-- The six words of a BX entry; NaN bounds are free. -/
def bxWords (s : State) (u : List FVal) : List Nat × State :=
  u.zipIdx.foldl (fun (r : List Nat × State) v =>
    if isNan v.1 then
      let (x, s) := r.2.drawFree
      (r.1 ++ [x.toNat % 2 ^ 32], s)
    else (r.1 ++ [roundF f32 (if v.2 < 3 then .rdn else .rup) 0 v.1], r.2)) ([], s)

/-- The lines of memory that the work on a node touches, by physical address (R269). -/
def refitLines (s : State) (d : Nat) (j : RefitJob) (n : Nat) : List Nat :=
  let node := match s.refitNode d j n with | .ok ws => ws | .error _ => []
  let kids := (nodeChildren node).flatMap fun i =>
    let c := childRef node i
    if childLeaf node i then (List.range (c % 16 + 1)).flatMap fun k => [j.pb + 48 * (c / 16 + k), j.pb + 48 * (c / 16 + k) + 47]
    else if childUnb node i then [] else [j.bx + 32 * c]
  let up := if nodeParent node = noNode then [] else [j.nb + 64 * nodeParent node, j.cnt + 4 * nodeParent node]
  (([j.nb + 64 * n, j.bx + 32 * n] ++ kids ++ up).filterMap fun va => match s.refitPa d j .read 1 va with
    | .ok pa => some (128 * (pa / 128))
    | .error _ => none).eraseDups

/-- RefitNode(n) (R314). -/
def refitOne (s : State) (d : Nat) (j : RefitJob) (n : Nat) : Except Nat (RefitJob × State) :=
  let putBx := fun (s : State) (j : RefitJob) (u : List FVal) =>
    let (xs, s) := s.bxWords u
    match s.refitStore d j 4 (j.bx + 32 * n) (xs.flatMap fun x => toBytes x 4) with
    | .ok s => Except.ok (j, s)
    | .error e => .error e
  match s.refitNode d j n with
  | .error e => .error e
  | .ok ws =>
    match s.childBoxes d j ws (nodeChildren ws) with
    | .error e => .error e
    | .ok [] => putBx s j emptyBox
    | .ok bs =>
      let u := bs.foldl (fun u b => unionBox u b.2) emptyBox
      let (fs, s) := s.nodeFields j ws u bs
      let x := setNode (pack (ws.map fun w => (32, w.toNat))) fs
      match s.refitStore d j 64 (j.nb + 64 * n) (toBytes x 64) with
      | .error e => .error e
      | .ok s => putBx s { j with nodes := j.nodes + 1, faded := j.faded + field x 496 1 } u

/-- The arrival at the parent of a node that has been refitted: the parent, where this was the last one (R314). -/
def refitUp (s : State) (d : Nat) (j : RefitJob) (n : Nat) : Except Nat (Option Nat × State) :=
  match s.refitNode d j n with
  | .error e => .error e
  | .ok ws =>
    let p := nodeParent ws
    if p = noNode then .ok (none, s)
    else if j.seen.any fun x => x.toNat == p then .error Cause.refittree
    else match s.refitNode d j p, s.refitWords d j (j.cnt + 4 * p) 1 with
      | .ok pw, .ok c =>
        let k := (builtInternal pw).length
        let x := (c.getD 0 0).toNat + 1
        if k < x then .error Cause.refittree
        else match s.refitStore d j 4 (j.cnt + 4 * p) (toBytes (if x = k then 0 else x) 4) with
          | .ok s => .ok (if x = k then some p else none, s)
          | .error e => .error e
      | .error e, _ => .error e
      | _, .error e => .error e

/-- Start nodes enter progress in list order, while fewer than 16 nodes are in it. -/
def refitFill (s : State) (d : Nat) : Nat → RefitJob → Except Nat RefitJob
  | 0, j => .ok j
  | k + 1, j =>
    if 16 ≤ j.work.length ∨ j.nstart ≤ j.startAt then .ok j
    else match s.refitWords d j (j.start + 4 * j.startAt) 1 with
      | .ok ws => refitFill s d k { j with work := j.work ++ [ws.getD 0 0], startAt := j.startAt + 1 }
      | .error e => .error e

/-- The engine goes on with a refit, or ends it. -/
def refitPut (s : State) (d : Nat) (j : RefitJob) : State :=
  match s.refitFill d 16 j with
  | .error e => s.refitEnd d j e true
  | .ok j => if j.work = [] then s.refitEnd d j 0 true else s.modDie d fun x => { x with refit := some j }

end State

def execRefitStart (die : Nat) (s : State) : Host.Outcome State Fault Refusal :=
  .next (match (s.die die).refit, (s.die die).refitQ with
    | none, j :: r =>
      let s := s.modDie die fun x => { x with refitQ := r }
      if s.ctxSlices j.ctx = [] then s.refitEnd die j 0xA7 false
      else match s.countersAll die j j.nstart 0 [] with
        | .error e => s.refitEnd die j e true
        | .ok ns => match s.countersZero die j ns with
          | .error 0xA5 => s.refitEnd die j 0xA5 false
          | .error e => s.refitEnd die j e true
          | .ok _ => s.refitPut die j
    | _, _ => s)

def execRefitNode (die i : Nat) (s : State) : Host.Outcome State Fault Refusal :=
  .next (match (s.die die).refit with
    | none => s
    | some j =>
      match j.work[i]? with
      | none => s
      | some n =>
        let part := (s.ctxRt j.ctx).pidx
        let ls := s.refitLines die j n.toNat
        match s.meter die part 6 (128 * ls.length) with
        | none => s
        | some s =>
        let s := s.touchLines part 6 ls
        match s.refitOne die j n.toNat with
        | .error e => s.refitEnd die j e true
        | .ok (j, s) =>
          match s.refitUp die { j with seen := j.seen ++ [n] } n.toNat with
          | .error e => s.refitEnd die j e true
          | .ok (p, s) => s.refitPut die { j with
              seen := j.seen ++ [n]
              work := match p with | some p => j.work.set i (BitVec.ofNat 32 p) | none => j.work.eraseIdx i })

end Sys2Proof.Machine
end

