-- ==== Sys2Proof/Machine/Dispatch.lean ====
section
/-! DEFINITION. One arm for each constructor of Instr: the meaning it calls. -/
namespace Sys2Proof.Machine

def exec (i : Instr) (s : State) : Host.Outcome State Fault Refusal :=
  match i with
  -- control (R129)
  | .nop h lit => Sys2Proof.Machine.execNop h lit s
  | .bra h tgt joff dh => Sys2Proof.Machine.execBra h tgt joff dh s
  | .jmp h tgt dh => Sys2Proof.Machine.execJmp h tgt dh s
  | .brx h a joff => Sys2Proof.Machine.execBrx h a joff s
  | .call h d x off => Sys2Proof.Machine.execCall h d x off s
  | .callx h d a => Sys2Proof.Machine.execCallx h d a s
  | .ret h a => Sys2Proof.Machine.execRet h a s
  | .exit h => Sys2Proof.Machine.execExit h s
  | .yield h => Sys2Proof.Machine.execYield h s
  | .sleep h a rel => Sys2Proof.Machine.execSleep h a rel s
  | .lset h lvl x n len => Sys2Proof.Machine.execLset h lvl x n len s
  | .lrot h lvl x stg size base => Sys2Proof.Machine.execLrot h lvl x stg size base s
  | .lbrk h lvl => Sys2Proof.Machine.execLbrk h lvl s
  | .hurd h x hd n => Sys2Proof.Machine.execHurd h x hd n s
  | .hurdMem h x sc a => Sys2Proof.Machine.execHurdMem h x sc a s
  | .harr h x hd n => Sys2Proof.Machine.execHarr h x hd n s
  | .harrMem h x sc d a => Sys2Proof.Machine.execHarrMem h x sc d a s
  | .hwt h x hd n => Sys2Proof.Machine.execHwt h x hd n s
  | .hwtMem h x sc d a => Sys2Proof.Machine.execHwtMem h x sc d a s
  | .spawn h a x words off => Sys2Proof.Machine.execSpawn h a x words off s
  | .task h d a x off => Sys2Proof.Machine.execTask h d a x off s
  | .fwait h d a => Sys2Proof.Machine.execFwait h d a s
  | .ftest h d a => Sys2Proof.Machine.execFtest h d a s
  | .cancel h d a => Sys2Proof.Machine.execCancel h d a s
  | .baton h d a x words off => Sys2Proof.Machine.execBaton h d a x words off s
  | .regx h d x n => Sys2Proof.Machine.execRegx h d x n s
  | .regs h x n => Sys2Proof.Machine.execRegs h x n s
  | .trap h x code => Sys2Proof.Machine.execTrap h x code s
  | .eretRetry h => Sys2Proof.Machine.execEretRetry h s
  | .eretSkip h => Sys2Proof.Machine.execEretSkip h s
  | .eretKill h => Sys2Proof.Machine.execEretKill h s
  | .srd h d x spec => Sys2Proof.Machine.execSrd h d x spec s
  | .swr h a x spec => Sys2Proof.Machine.execSwr h a x spec s
  | .park h a b => Sys2Proof.Machine.execPark h a b s
  | .unparkRetry h a b => Sys2Proof.Machine.execUnparkRetry h a b s
  | .unparkSkip h a b => Sys2Proof.Machine.execUnparkSkip h a b s
  -- integer (R99 to R105)
  | .iadd h d a b w sat u => Sys2Proof.Machine.execIadd h d a b w sat u s
  | .isub h d a b w sat u => Sys2Proof.Machine.execIsub h d a b w sat u s
  | .imul h d a b sat u => Sys2Proof.Machine.execImul h d a b sat u s
  | .imulh h d a b u => Sys2Proof.Machine.execImulh h d a b u s
  | .imad h d a b c sat u => Sys2Proof.Machine.execImad h d a b c sat u s
  | .imadw h d a b c sat u => Sys2Proof.Machine.execImadw h d a b c sat u s
  | .imin h d a b u => Sys2Proof.Machine.execImin h d a b u s
  | .imax h d a b u => Sys2Proof.Machine.execImax h d a b u s
  | .iabs h d a sat => Sys2Proof.Machine.execIabs h d a sat s
  | .and h d a b => Sys2Proof.Machine.execAnd h d a b s
  | .or h d a b => Sys2Proof.Machine.execOr h d a b s
  | .xor h d a b => Sys2Proof.Machine.execXor h d a b s
  | .andn h d a b => Sys2Proof.Machine.execAndn h d a b s
  | .not h d a => Sys2Proof.Machine.execNot h d a s
  | .lop3 h d a b lut => Sys2Proof.Machine.execLop3 h d a b lut s
  | .shl h d a b w clamp => Sys2Proof.Machine.execShl h d a b w clamp s
  | .shr h d a b w clamp => Sys2Proof.Machine.execShr h d a b w clamp s
  | .sar h d a b w clamp => Sys2Proof.Machine.execSar h d a b w clamp s
  | .rotl h d a b w => Sys2Proof.Machine.execRotl h d a b w s
  | .clz h d a => Sys2Proof.Machine.execClz h d a s
  | .ctz h d a => Sys2Proof.Machine.execCtz h d a s
  | .popc h d a => Sys2Proof.Machine.execPopc h d a s
  | .brev h d a => Sys2Proof.Machine.execBrev h d a s
  | .bfx h d a b u => Sys2Proof.Machine.execBfx h d a b u s
  | .bfi h d a b c => Sys2Proof.Machine.execBfi h d a b c s
  | .ilv h d a b c three => Sys2Proof.Machine.execIlv h d a b c three s
  | .dlv h d a b three => Sys2Proof.Machine.execDlv h d a b three s
  | .icmp h cc d a b c => Sys2Proof.Machine.execIcmp h cc d a b c s
  | .isel h d a b c => Sys2Proof.Machine.execIsel h d a b c s
  | .mov h d b => Sys2Proof.Machine.execMov h d b s
  | .movi h d w imm => Sys2Proof.Machine.execMovi h d w imm s
  | .movk h d src imm => Sys2Proof.Machine.execMovk h d src imm s
  | .lea h d a b s_ u => Sys2Proof.Machine.execLea h d a b s_ u s
  | .cvt h d a dst src rm sat => Sys2Proof.Machine.execCvt h d a dst src rm sat s
  | .pack h d a dst src rm sat => Sys2Proof.Machine.execPack h d a dst src rm sat s
  | .unpk h d a dst src => Sys2Proof.Machine.execUnpk h d a dst src s
  | .plop h d a b c lut or_ => Sys2Proof.Machine.execPlop h d a b c lut or_ s
  | .pmov h f => Sys2Proof.Machine.execPmov h f s
  | .part h d size => Sys2Proof.Machine.execPart h d size s
  | .shfl h m d a b c g => Sys2Proof.Machine.execShfl h m d a b c g s
  | .vote h m d a g => Sys2Proof.Machine.execVote h m d a g s
  | .redux h op d a g => Sys2Proof.Machine.execRedux h op d a g s
  | .scan h op d a g excl => Sys2Proof.Machine.execScan h op d a g excl s
  | .bcast h d a b c g => Sys2Proof.Machine.execBcast h d a b c g s
  | .matchV h d a g w => Sys2Proof.Machine.execMatchV h d a g w s
  -- floating point (R110 to R114)
  | .fadd h d a b sat => Sys2Proof.Machine.execFadd h d a b sat s
  | .fsub h d a b sat => Sys2Proof.Machine.execFsub h d a b sat s
  | .fmul h d a b sat => Sys2Proof.Machine.execFmul h d a b sat s
  | .ffma h d a b c sat => Sys2Proof.Machine.execFfma h d a b c sat s
  | .fmin h d a b => Sys2Proof.Machine.execFmin h d a b s
  | .fmax h d a b => Sys2Proof.Machine.execFmax h d a b s
  | .fcmp h cc d a b c => Sys2Proof.Machine.execFcmp h cc d a b c s
  | .frcp h d a => Sys2Proof.Machine.execFrcp h d a s
  | .frsq h d a => Sys2Proof.Machine.execFrsq h d a s
  | .fsqrt h d a => Sys2Proof.Machine.execFsqrt h d a s
  | .fexp2 h d a => Sys2Proof.Machine.execFexp2 h d a s
  | .flog2 h d a => Sys2Proof.Machine.execFlog2 h d a s
  | .fsin h d a => Sys2Proof.Machine.execFsin h d a s
  | .fcos h d a => Sys2Proof.Machine.execFcos h d a s
  | .ftanh h d a => Sys2Proof.Machine.execFtanh h d a s
  | .frnd h d a rm => Sys2Proof.Machine.execFrnd h d a rm s
  | .ffrc h d a => Sys2Proof.Machine.execFfrc h d a s
  | .hxadd h d a b sat => Sys2Proof.Machine.execHxadd h d a b sat s
  | .hxmul h d a b sat => Sys2Proof.Machine.execHxmul h d a b sat s
  | .hxfma h d a b c sat => Sys2Proof.Machine.execHxfma h d a b c sat s
  | .hxmax h d a b min_ => Sys2Proof.Machine.execHxmax h d a b min_ s
  | .dadd h d a b => Sys2Proof.Machine.execDadd h d a b s
  | .dmul h d a b => Sys2Proof.Machine.execDmul h d a b s
  | .dfma h d a b c => Sys2Proof.Machine.execDfma h d a b c s
  | .dcmp h cc d a b c => Sys2Proof.Machine.execDcmp h cc d a b c s
  -- memory (R162 to R189)
  | .ld h d m w f => Sys2Proof.Machine.execLd h d m w f s
  | .st h d m w f => Sys2Proof.Machine.execSt h d m w f s
  | .lds h d m w f => Sys2Proof.Machine.execLds h d m w f s
  | .sts h d m w f => Sys2Proof.Machine.execSts h d m w f s
  | .ldk h d m w f => Sys2Proof.Machine.execLdk h d m w f s
  | .ldm h d m w f => Sys2Proof.Machine.execLdm h d m w f s
  | .atom h d b c op m w f => Sys2Proof.Machine.execAtom h d b c op m w f s
  | .atoms h d b c op m w f => Sys2Proof.Machine.execAtoms h d b c op m w f s
  | .red h b op m w f => Sys2Proof.Machine.execRed h b op m w f s
  | .fence h ord sc => Sys2Proof.Machine.execFence h ord sc s
  | .fxp h x prod cons sc => Sys2Proof.Machine.execFxp h x prod cons sc s
  | .pref h m n f => Sys2Proof.Machine.execPref h m n f s
  | .lease h x s_ => Sys2Proof.Machine.execLease h x s_ s
  | .cflush h m n f => Sys2Proof.Machine.execCflush h m n f s
  | .hset h a => Sys2Proof.Machine.execHset h a s
  | .hnew h d a => Sys2Proof.Machine.execHnew h d a s
  | .hresConfirm h d a => Sys2Proof.Machine.execHresConfirm h d a s
  | .hresRefute h d a => Sys2Proof.Machine.execHresRefute h d a s
  | .hqryInfo h d a => Sys2Proof.Machine.execHqryInfo h d a s
  | .hqryAnc h d a b => Sys2Proof.Machine.execHqryAnc h d a b s
  -- gang and engine forms (R190 to R227)
  | .gang h a => Sys2Proof.Machine.execGang h a s
  | .mma h d a b c sparse sel => Sys2Proof.Machine.execMma h d a b c sparse sel s
  | .movt h t r write i_ => Sys2Proof.Machine.execMovt h t r write i_ s
  | .tzero h d => Sys2Proof.Machine.execTzero h d s
  | .tld h d m w f => Sys2Proof.Machine.execTld h d m w f s
  | .tst h d m w f => Sys2Proof.Machine.execTst h d m w f s
  | .strec h e => Sys2Proof.Machine.execStrec h e s
  | .emm h e acc sparse => Sys2Proof.Machine.execEmm h e acc sparse s
  | .evx h e op bs => Sys2Proof.Machine.execEvx h e op bs s
  | .ered h e op => Sys2Proof.Machine.execEred h e op s
  | .ecpy h e ch mc => Sys2Proof.Machine.execEcpy h e ch mc s
  | .emode h e rm => Sys2Proof.Machine.execEmode h e rm s
  | .enote h e tag => Sys2Proof.Machine.execEnote h e tag s
  | .ewait h e tag => Sys2Proof.Machine.execEwait h e tag s
  | .esave h e => Sys2Proof.Machine.execEsave h e s
  | .eres h e => Sys2Proof.Machine.execEres h e s
  | .wmrd h e ch => Sys2Proof.Machine.execWmrd h e ch s
  | .wmset h e ch => Sys2Proof.Machine.execWmset h e ch s
  | .wmsetOff h e ch => Sys2Proof.Machine.execWmsetOff h e ch s
  | .coll h e op red => Sys2Proof.Machine.execColl h e op red s
  -- graphics (R297)
  | .trace h d a b u any => Sys2Proof.Machine.execTrace h d a b u any s
  | .tqry h d a keep => Sys2Proof.Machine.execTqry h d a keep s
  | .texs h d a b => Sys2Proof.Machine.execTexs h d a b s
  | .texl h d a b => Sys2Proof.Machine.execTexl h d a b s
  | .texg h d a b c => Sys2Proof.Machine.execTexg h d a b c s
  | .ordb h a => Sys2Proof.Machine.execOrdb h a s
  | .orde h a => Sys2Proof.Machine.execOrde h a s
  | .refit h d a => Sys2Proof.Machine.execRefit h d a s
  -- microwords (R293, R294), acting on the slot of State.mcur
  | .nfetchFetch m => Sys2Proof.Machine.execNfetchFetch m s
  | .nfetchRaw m => Sys2Proof.Machine.execNfetchRaw m s
  | .nfetchChild m => Sys2Proof.Machine.execNfetchChild m s
  | .pfetch m => Sys2Proof.Machine.execPfetch m s
  | .xfma m => Sys2Proof.Machine.execXfma m s
  | .xmul m => Sys2Proof.Machine.execXmul m s
  | .xmin m => Sys2Proof.Machine.execXmin m s
  | .xmax m => Sys2Proof.Machine.execXmax m s
  | .xcmp m cc => Sys2Proof.Machine.execXcmp m cc s
  | .xsel m => Sys2Proof.Machine.execXsel m s
  | .xrcp m => Sys2Proof.Machine.execXrcp m s
  | .xrcpSq m => Sys2Proof.Machine.execXrcpSq m s
  | .spush m => Sys2Proof.Machine.execSpush m s
  | .spop m => Sys2Proof.Machine.execSpop m s
  | .microGo m => Sys2Proof.Machine.execMicroGo m s
  | .goif m => Sys2Proof.Machine.execGoif m s
  | .emitHit m => Sys2Proof.Machine.execEmitHit m s
  | .emitSpawn m => Sys2Proof.Machine.execEmitSpawn m s
  | .emitSpord m => Sys2Proof.Machine.execEmitSpord m s
  | .emitOut m => Sys2Proof.Machine.execEmitOut m s
  | .lazy m => Sys2Proof.Machine.execLazy m s
  | .microDone m => Sys2Proof.Machine.execMicroDone m s
  -- events of warps and cores
  | .resultWriteback u slot_ id lanes regs => Sys2Proof.Machine.execResultWriteback u slot_ id lanes regs s
  | .spawnBinDeadline u bin => Sys2Proof.Machine.execSpawnBinDeadline u bin s
  | .poolSlotTake u slot_ => Sys2Proof.Machine.execPoolSlotTake u slot_ s
  | .pendingWarpStart die slice => Sys2Proof.Machine.execPendingWarpStart die slice s
  | .binLaunchRetry u bin => Sys2Proof.Machine.execBinLaunchRetry u bin s
  | .taskDispatch u => Sys2Proof.Machine.execTaskDispatch u s
  | .taskPriorityAgeing u => Sys2Proof.Machine.execTaskPriorityAgeing u s
  | .fenceSlotWaitEnd u slot_ => Sys2Proof.Machine.execFenceSlotWaitEnd u slot_ s
  | .queueRoomWaitEnd u slot_ => Sys2Proof.Machine.execQueueRoomWaitEnd u slot_ s
  | .regxGrant u => Sys2Proof.Machine.execRegxGrant u s
  | .regxRefusal u => Sys2Proof.Machine.execRegxRefusal u s
  | .sleepRelease u slot_ path => Sys2Proof.Machine.execSleepRelease u slot_ path s
  | .parkDeferred u slot_ lane => Sys2Proof.Machine.execParkDeferred u slot_ lane s
  | .warpRetire u slot_ => Sys2Proof.Machine.execWarpRetire u slot_ s
  | .trapTaken u => Sys2Proof.Machine.execTrapTaken u s
  | .gangMmaDone u latch => Sys2Proof.Machine.execGangMmaDone u latch s
  | .gangtime u latch => Sys2Proof.Machine.execGangtime u latch s
  | .colldead u team => Sys2Proof.Machine.execColldead u team s
  | .wdog u slot_ => Sys2Proof.Machine.execWdog u slot_ s
  | .deadline u => Sys2Proof.Machine.execDeadline u s
  -- events of the memory system
  | .loadRequestAtHome op => Sys2Proof.Machine.execLoadRequestAtHome op s
  | .dataReply op => Sys2Proof.Machine.execDataReply op s
  | .storeAtHome op => Sys2Proof.Machine.execStoreAtHome op s
  | .atomicAtHome op => Sys2Proof.Machine.execAtomicAtHome op s
  | .storeAck op => Sys2Proof.Machine.execStoreAck op s
  | .leaseTick agent => Sys2Proof.Machine.execLeaseTick agent s
  | .packageTimeExchange => Sys2Proof.Machine.execPackageTimeExchange s
  | .replicaStamp op => Sys2Proof.Machine.execReplicaStamp op s
  | .update die m => Sys2Proof.Machine.execUpdate die m s
  | .updateApply die i_ => Sys2Proof.Machine.execUpdateApply die i_ s
  | .applied die addr stamper src => Sys2Proof.Machine.execApplied die addr stamper src s
  | .ldmSegmentRequest op slice => Sys2Proof.Machine.execLdmSegmentRequest op slice s
  | .mergeWindowClose w => Sys2Proof.Machine.execMergeWindowClose w s
  | .multicastBeat w => Sys2Proof.Machine.execMulticastBeat w s
  | .ldmBeatArrival op => Sys2Proof.Machine.execLdmBeatArrival op s
  | .memoryHurdleArrival op => Sys2Proof.Machine.execMemoryHurdleArrival op s
  | .pageWalk u va => Sys2Proof.Machine.execPageWalk u va s
  | .translationInvalidation die v => Sys2Proof.Machine.execTranslationInvalidation die v s
  | .invalidationDone die => Sys2Proof.Machine.execInvalidationDone die s
  | .resolveArrival i_ => Sys2Proof.Machine.execResolveArrival i_ s
  | .hypothesisStateNotice u => Sys2Proof.Machine.execHypothesisStateNotice u s
  | .resolveCoreAck u => Sys2Proof.Machine.execResolveCoreAck u s
  | .versionSweep ctx => Sys2Proof.Machine.execVersionSweep ctx s
  | .versionSpaceFreed op => Sys2Proof.Machine.execVersionSpaceFreed op s
  | .vsfull op => Sys2Proof.Machine.execVsfull op s
  -- events of the engines and copies
  | .engineCommandStart u q => Sys2Proof.Machine.execEngineCommandStart u q s
  | .engineIssueTime u q => Sys2Proof.Machine.execEngineIssueTime u q s
  | .matrixEngineStep u => Sys2Proof.Machine.execMatrixEngineStep u s
  | .vectorEngineStep u => Sys2Proof.Machine.execVectorEngineStep u s
  | .emodeApply u q => Sys2Proof.Machine.execEmodeApply u q s
  | .enoteReached u q => Sys2Proof.Machine.execEnoteReached u q s
  | .copyBufferEntry u => Sys2Proof.Machine.execCopyBufferEntry u s
  | .copySend u => Sys2Proof.Machine.execCopySend u s
  | .dieCopySend die e => Sys2Proof.Machine.execDieCopySend die e s
  | .sliceRunLoad die slice u => Sys2Proof.Machine.execSliceRunLoad die slice u s
  | .flitArrival flit => Sys2Proof.Machine.execFlitArrival flit s
  | .bridgeCrossing flit => Sys2Proof.Machine.execBridgeCrossing flit s
  | .collContribution u m => Sys2Proof.Machine.execCollContribution u m s
  | .collResend u i_ => Sys2Proof.Machine.execCollResend u i_ s
  | .colltime u => Sys2Proof.Machine.execColltime u s
  -- events of the graphics units
  | .fetchDataReturn u g slot_ => Sys2Proof.Machine.execFetchDataReturn u g slot_ s
  | .lazyWake u g slot_ => Sys2Proof.Machine.execLazyWake u g slot_ s
  | .interlockRegistration u g slot_ => Sys2Proof.Machine.execInterlockRegistration u g slot_ s
  | .refitStart die => Sys2Proof.Machine.execRefitStart die s
  | .refitNode die i_ => Sys2Proof.Machine.execRefitNode die i_ s
  -- events of the distributor, regulators and display
  | .launchEntryTake die ctx queue => Sys2Proof.Machine.execLaunchEntryTake die ctx queue s
  | .queueHeaderPoll die => Sys2Proof.Machine.execQueueHeaderPoll die s
  | .placementPass die => Sys2Proof.Machine.execPlacementPass die s
  | .carveoutSwitch u code => Sys2Proof.Machine.execCarveoutSwitch u code s
  | .congestionWindow die occ => Sys2Proof.Machine.execCongestionWindow die occ s
  | .admissionTimeout u slot_ => Sys2Proof.Machine.execAdmissionTimeout u slot_ s
  | .bucketRefill die n c => Sys2Proof.Machine.execBucketRefill die n c s
  | .regulatorRelease die n c => Sys2Proof.Machine.execRegulatorRelease die n c s
  | .headUrgent die hd => Sys2Proof.Machine.execHeadUrgent die hd s
  | .headRecovery die hd => Sys2Proof.Machine.execHeadRecovery die hd s
  | .bulkScalingChange die n => Sys2Proof.Machine.execBulkScalingChange die n s
  | .displayLineDue die hd => Sys2Proof.Machine.execDisplayLineDue die hd s
  | .verticalBlank die hd => Sys2Proof.Machine.execVerticalBlank die hd s
  | .encoderFrame die e bytes => Sys2Proof.Machine.execEncoderFrame die e bytes s
  | .qosrep die n c => Sys2Proof.Machine.execQosrep die n c s
  -- events of switches, registers and the platform
  | .slctlGo die slice v => Sys2Proof.Machine.execSlctlGo die slice v s
  | .switchComplete die slice => Sys2Proof.Machine.execSwitchComplete die slice s
  | .poolfull u slot_ lane => Sys2Proof.Machine.execPoolfull u slot_ lane s
  | .paceadjWrite die v => Sys2Proof.Machine.execPaceadjWrite die v s
  | .ringSwapRequest die v => Sys2Proof.Machine.execRingSwapRequest die v s
  | .ringBankSwap die => Sys2Proof.Machine.execRingBankSwap die s
  | .qosWrite die n c v => Sys2Proof.Machine.execQosWrite die n c v s
  | .qstatSelfRead die n c => Sys2Proof.Machine.execQstatSelfRead die n c s
  | .hqosUrgnRead die hd => Sys2Proof.Machine.execHqosUrgnRead die hd s
  | .pwrstatLimitedRead die => Sys2Proof.Machine.execPwrstatLimitedRead die s
  | .registerWrite die off v => Sys2Proof.Machine.execRegisterWrite die off v s
  | .attctlGo die v => Sys2Proof.Machine.execAttctlGo die v s
  | .attestationDone die => Sys2Proof.Machine.execAttestationDone die s
  | .coldReset => Sys2Proof.Machine.execColdReset s
  | .warm die v => Sys2Proof.Machine.execWarm die v s
  | .bringUpStep images mods => Sys2Proof.Machine.execBringUpStep images mods s
  | .powerWindow watts => Sys2Proof.Machine.execPowerWindow watts s
  | .wearUpdate die rodrift emstress srmargin hours => Sys2Proof.Machine.execWearUpdate die rodrift emstress srmargin hours s
  | .wearEol die => Sys2Proof.Machine.execWearEol die s
  | .thermal die kind temp => Sys2Proof.Machine.execThermal die kind temp s
  | .thermalPowerOff => Sys2Proof.Machine.execThermalPowerOff s
  | .heartbeatSend a => Sys2Proof.Machine.execHeartbeatSend a s
  | .heartbeat die a count => Sys2Proof.Machine.execHeartbeat die a count s
  | .agentDown die a => Sys2Proof.Machine.execAgentDown die a s
  | .scrub die a => Sys2Proof.Machine.execScrub die a s
  | .replayDrain w => Sys2Proof.Machine.execReplayDrain w s
  | .replayExchange w entries => Sys2Proof.Machine.execReplayExchange w entries s
  | .replayApply w => Sys2Proof.Machine.execReplayApply w s
  | .homePromote w => Sys2Proof.Machine.execHomePromote w s
  | .replayAcks w => Sys2Proof.Machine.execReplayAcks w s
  | .linkErr die module flit => Sys2Proof.Machine.execLinkErr die module flit s
  | .meshModuleDown module => Sys2Proof.Machine.execMeshModuleDown module s
  | .frameReceive die bytes => Sys2Proof.Machine.execFrameReceive die bytes s
  | .frameResend die dst cls seq => Sys2Proof.Machine.execFrameResend die dst cls seq s
  | .connectionDown die dst cls => Sys2Proof.Machine.execConnectionDown die dst cls s
  | .ptpMessage die ofs lock => Sys2Proof.Machine.execPtpMessage die ofs lock s
  | .inboundRead src pa n => Sys2Proof.Machine.execInboundRead src pa n s
  | .inboundWrite src pa bytes => Sys2Proof.Machine.execInboundWrite src pa bytes s
  | .expanderAccess op => Sys2Proof.Machine.execExpanderAccess op s
  | .halt r => Sys2Proof.Machine.execHalt r s
  | .resume r => Sys2Proof.Machine.execResume r s
  | .snap r => Sys2Proof.Machine.execSnap r s
  | .fwload r signed sig => Sys2Proof.Machine.execFwload r signed sig s
  | .ckpt r => Sys2Proof.Machine.execCkpt r s
  | .checkpointTransfer => Sys2Proof.Machine.execCheckpointTransfer s
  | .checkpointCommit => Sys2Proof.Machine.execCheckpointCommit s
  | .ckrecv r => Sys2Proof.Machine.execCkrecv r s
  | .ckrest r remote => Sys2Proof.Machine.execCkrest r remote s
  | .unknownManagementCommand r => Sys2Proof.Machine.execUnknownManagementCommand r s
  | .scratchpadPortAccess op => Sys2Proof.Machine.execScratchpadPortAccess op s
  | .copyFlitLoad u => Sys2Proof.Machine.execCopyFlitLoad u s
  | .copyChunkArrival die e => Sys2Proof.Machine.execCopyChunkArrival die e s
  | .scanOutFifoFill die hd lines => Sys2Proof.Machine.execScanOutFifoFill die hd lines s
  | .softError st addr two => Sys2Proof.Machine.execSoftError st addr two s
  | .blockThrottle u up => Sys2Proof.Machine.execBlockThrottle u up s

end Sys2Proof.Machine
end

