-- ==== Sys2Proof/Machine/Place.lean ====
section
/-! DEFINITION. Placing an instruction where the next step fetches, and the stand-in for a loaded program where no warp
runs (log 1). -/
namespace Sys2Proof.Machine

open Bits

/-- A context that maps every address to itself and leaves every facility empty. -/
def standInCtx : CtxDesc := { (default : CtxDesc) with ctxid := 0, satpMode := 0 }

/-- Where the stand-in's program begins. -/
def standInPc : Dword := 0x10000

/-- A warp of 32 lanes with all registers 0 at the stand-in's program. -/
def standInWarp : Warp :=
  { (default : Warp) with
    entry := standInPc, width := 32, user := true, gran := 32, seed := 1, lease := 10, run := 0
    paths := [⟨standInPc, firstLanes 32, none, 0, .ready⟩] }

namespace State

/-- The stand-in for a launch: slice 0 of die 0 runs a context, and slot 0 of its first shader core a warp. -/
def standIn (s : State) : State :=
  let u : UnitId := ⟨.sc, 0, 0⟩
  let s := s.modSlice 0 0 fun sl => { sl with st := .running, ctx := some standInCtx, pidx := 0 }
  let s := s.modCtxRt 0 fun c => { c with desc := some standInCtx, pidx := 0, die := 0 }
  let s := s.modCore u fun c => { c with teams := [{ (default : Team) with nwarps := 1 }] }
  { s.setWarp u 0 (some standInWarp) with cur := { s.cur with unit := u, slot := 0, path := 0 } }

/-- Whether the slot that last issued has a path that can be fetched for. -/
def canPlace (s : State) : Bool :=
  s.slotReady s.cur.unit s.cur.slot &&
  (match s.curW.choose with
   | some (p, _) => (List.range 16).all fun i =>
       match s.xlate s.cur.unit (s.cur.slot != trapSlot) .exec (p.pc.toNat + i) with | .ok _ => true | .error _ => false
   | none => false)

/-- Bytes written where a fetch at an address reads them. -/
def placeBytes (s : State) (va : Nat) : List Byte → State
  | [] => s
  | b :: r =>
    let s' := match s.xlate s.cur.unit (s.cur.slot != trapSlot) .exec va with
      | .ok x => { s with mem := s.mem.set x.pa b }
      | .error _ => s
    placeBytes s' (va + 1) r

/-- The instruction whose bits are w (16 bytes from bit 0 up), where the next step fetches. -/
def placeWord (s : State) (nbits w : Nat) : State :=
  let s := if s.canPlace then s else s.standIn
  let pc := match s.curW.choose with | some (p, _) => p.pc.toNat | none => 0
  let s := s.placeBytes pc (toBytes (w % 2 ^ nbits) 16)
  let port := issuePort s.cur.unit s.cur.slot
  { s.modCore s.cur.unit fun c => { c with turn := c.turn.set port s.cur.slot } with agenda := [.issue s.cur.unit port] }

end State

end Sys2Proof.Machine
end

