-- ==== Sys2Proof/Machine/Tick.lean ====
section
/-! DEFINITION. The passing of time: what is due in a tick has happened before the next one begins (R25, R44, R171, R239, R258, R272,
R320 to R325, R380, R383, R384, R398, R402, R407, R412, R414). -/
namespace Sys2Proof.Machine

namespace State

-- the pacer ring (R323, R324)

/-- Ring cycles from a flit's arrival at a station until its receiver has written it, at the latest (R320, R323). -/
def writeLag (f : Flit) : Nat := if f.dests.all fun h => match h.rx with | .unit u => u.kind != .sc | .home _ => true then 4 else 12

/-- Something is done n times over. -/
def again (f : State → State) : Nat → State → State
  | 0, s => s
  | n + 1, s => again f n (f s)

/-- Units with an engine. -/
def engUnits (s : State) (d : Nat) : List UnitId := (s.cores.map fun c => unitOf c.1).filter fun u => u.die == d && u.kind == .tt

/-- What the ring of a die owes the present tick: copies whose time has come are sent, owned slots are loaded, bridges load what they
hold, receivers have written what reached them, and a swap that is due takes place. -/
def ringTick (s : State) (d : Nat) : State :=
  let us := s.engUnits d
  let s := us.foldl (fun (s : State) u => (again (fun s => s.copyLoad u) 12 s).copySend u) s
  let mine := fun (s : State) => (s.flits.filter fun f => f.die == d && !f.dce)
  let s := ((mine s).filter fun f => f.bridge.isSome).foldl (fun (s : State) f => s.flitCross f.id) s
  let s := ((mine s).filter fun f => !onMesh f).foldl (fun (s : State) f => again (fun s => s.flitArrive f.id (writeLag f)) f.dests.length s) s
  s.bankSwap d

/-- The rings whose cycles follow PACE of a die (R321, R414). -/
def ringsOf (s : State) (d : Nat) : List Nat := if d = 0 then (if s.lostPeer 1 then [0] else [0, 1]) else if s.lostPeer 1 then [1] else []

-- the ends and beginnings of ticks

/-- What a tick of a die owes before it ends. -/
def endTick (s : State) (d : Nat) : State := (s.ringsOf d).foldl ringTick (s.headsTick d)

/-- Merge windows of a die that are due close, before any arrival of the tick (R171). -/
def closeDue (s : State) (d : Nat) : State :=
  (s.windows.filter fun w => w.opened && placeDie w.slice == d && decide (w.closesAt ≤ s.pace d)).foldl closeWindow s

/-- Spawn bins of a die whose deadline has come are launched (R25, R44). -/
def binsDue (s : State) (d : Nat) : State :=
  s.cores.foldl (fun (s : State) c =>
    let u := unitOf c.1
    if u.die ≠ d ∨ (s.unitSlice u).st ≠ .running then s
    else c.2.bins.foldl (fun (s : State) b => match b.2 with
      | some x => if x.deadline ≤ s.pace d ∧ x.slots ≠ [] then (s.launchBin u b.1).getD s else s
      | none => s) s) s

/-- Lanes of SPAWN that wait for a pool slot: slot and lane. -/
def poolWaits (s : State) (u : UnitId) : List (Nat × Nat) :=
  (s.core u).warps.flatMap fun x => (x.2.getD default).paths.filterMap fun (p : Path) =>
    match p.wait with
    | .work false _ _ _ ((l, _) :: _) _ _ none => some (x.1, l)
    | _ => none

/-- What has waited too long on a unit is struck: WDOG traps, the members of a collective, gang latches, stuck teams and lanes
without a pool slot (R44, R380, R383, R398, R402). -/
def unitDue (s : State) (u : UnitId) : State :=
  if (s.unitSlice u).st ≠ .running then s
  else
    let s := (s.deadline u).colltime u
    let s := (s.core u).latches.foldl (fun (s : State) l => s.gangtime u l.id) s
    let s := (s.core u).teams.foldl (fun (s : State) t => s.colldead u t.uid) s
    (s.poolWaits u).foldl (fun (s : State) w => s.poolfull u w.1 w.2) s

/-- Everything that has waited too long on a die (R384, R407, R412). -/
def waitsDue (s : State) (d : Nat) : State :=
  let us := (s.cores.map fun c => unitOf c.1).filter fun u => u.die == d
  let s := us.foldl (fun (s : State) u => s.unitDue u) s
  let ids := (s.ops.filter fun o => o.stage == .waitSpace && o.unit.die == d).map (·.id)
  (ids.foldl (fun (s : State) i => s.vsfull i) s).agentsDue d

/-- What a tick of a die begins with. -/
def beginTick (s : State) (d : Nat) : State :=
  let s := ((s.closeDue d).binsDue d).waitsDue d
  let s := if s.ptSent + 256 ≤ s.pace d then s.exchangePt else s
  if (s.die d).polled + 16384 ≤ s.pace d then s.pollHeaders d else s

/-- PACE of a die advances by so many ticks, one after another. -/
def passTicks (d : Nat) : Nat → State → State
  | 0, s => s
  | n + 1, s =>
    let s := s.endTick d
    passTicks d n ((s.paceTo d (s.pace d + 1)).beginTick d)

/-- One tick of time on a die. While both dies run, die 1 follows die 0 and stays within 2 ticks of it (R325); a die that has
fenced the other goes its own way (R414). -/
def tickDie (s : State) (d : Nat) : State :=
  if d = 0 then
    let s := passTicks 0 (s.paceStep 0) (s.slew 0)
    if s.lostPeer 1 then s else passTicks 1 (s.pace 0 - 2 - s.pace 1) s
  else if d = 1 then
    if s.lostPeer 1 then passTicks 1 (s.paceStep 1) (s.slew 1)
    else passTicks 1 (min (s.pace 1 + 1) (s.pace 0 + 2) - s.pace 1) s
  else s

end State

end Sys2Proof.Machine
end

