-- ==== Sys2Proof/Machine/Step.lean ====
section
/-! DEFINITION. One step of the machine: the next mover of the agenda moves (R17). -/
namespace Sys2Proof.Machine

/-- A warp slot issues: fetch, checks, the instruction's own meaning, and the books. An instruction that is blocked at
issue counts no issue. -/
def issueStep (s : State) (u : UnitId) (slot : Nat) : Host.Outcome State Fault Refusal :=
  match s.prep u slot with
  | .stop s' => .next s'
  | .run i h byAge b s' =>
    match exec i b with
    | .next t =>
      if t.isBlocked then .next t
      else match exec i s' with
        | .next t => .next (State.finish b t i h byAge)
        | .fault f => .fault f
        | .refused r => .refused r
    | .fault f => .fault f
    | .refused r => .refused r

/-- An issue port chooses a ready warp, if there is one, which issues (R21). -/
def portStep (s : State) (u : UnitId) (port : Nat) : Host.Outcome State Fault Refusal :=
  match s.portChoice u port with
  | some slot => issueStep s u slot
  | none => .next s

/-- A graphics sequencer slot issues a microword. -/
def microStep (s : State) (u : UnitId) (g : GUnit) (slot : Nat) : Host.Outcome State Fault Refusal :=
  match s.microPrep u g slot with
  | .error s' => .next s'
  | .ok (i, s') => exec i s'

/-- A graphics sequencer chooses a ready slot, if there is one, which issues (R292). -/
def sequencerStep (s : State) (u : UnitId) (g : GUnit) : Host.Outcome State Fault Refusal :=
  match s.microChoice u g with
  | some slot => microStep s u g slot
  | none => .next s

/-- What a mover does. -/
def act (s : State) : Action → Host.Outcome State Fault Refusal
  | .issue u port => portStep s u port
  | .micro u g => sequencerStep s u g
  | .event e => if e.isEvent then exec e s else .next s
  | .tick d => .next (s.tickDie d)
  | .wake u slot => .next (s.wakeWarp u slot)
  | .dropTranslation d b i => .next (s.dropTlb d b i)
  | .dropCopy a l => .next (s.dropLine a l)
  | .faultScan c => .next (s.scanQueue c)

/-- One step. A package that is powered off does nothing more (R429). With an empty agenda the port that last issued
issues again. -/
def step (s : State) : Host.Outcome State Fault Refusal :=
  if s.plat.off then
    match s.agenda with
    | .event .coldReset :: r => exec .coldReset { s with agenda := r }
    | _ => .fault .poweredOff
  else match s.agenda with
    | [] => portStep s s.cur.unit (State.issuePort s.cur.unit s.cur.slot)
    | a :: r => act { s with agenda := r } a

/-- A state that runs the instruction of the given bits next (see State.placeWord). -/
def State.withFetchWord (s : State) (nbits w : Nat) : State := s.placeWord nbits w

end Sys2Proof.Machine
end

