-- ==== Sys2Proof/Safety.lean ====
section
/-! DEFINITION. What counts as a safe run: no step is refused, and no step stops unless the package is powered off. -/
namespace Sys2Proof

/-- A step from a state stops only because the package is powered off (R429). -/
def SafeStep (s : Machine.State) : Prop :=
  (∃ t, Machine.step s = .next t) ∨ (s.plat.off = true ∧ Machine.step s = .fault .poweredOff)

/-- Every state that k steps reach from s is one from which a step is safe. -/
def SafeFor : Nat → Machine.State → Prop
  | 0, _ => True
  | k + 1, s => SafeStep s ∧ ∀ t, Machine.step s = .next t → SafeFor k t

end Sys2Proof
end

