-- ==== Sys2Proof/Safety/Terms.lean ====
section
/-! DEFINITION. The terms in which statements about single instructions are made: the issuing warp, how a path goes on,
what registers an instruction changes, and what it puts into flight. -/
namespace Sys2Proof.Terms

open Machine

/-- The slot of the issue holds the warp w. -/
def Issuing (s : State) (w : Warp) : Prop := s.warp s.cur.unit s.cur.slot = some w

/-- A lane executes the instruction: it stands in the issuing path and its guard holds (R51). -/
def executes (s : State) (h : Head) (l : Nat) : Bool := decide (l < 32) && s.curP.mask.getLsbD l && (s.rp l h.pg.toNat != h.pn)

/-- No context's interrupt goes to memory of the device: PIRQA names a host core or the host's space, or is 0 (R331). -/
def IrqOutside (s : State) : Prop :=
  ∀ c, ∀ d < 2, s.reg d (Win.pirqa (s.ctxPart c)) = 0 ∨ isMemory ((s.reg d (Win.pirqa (s.ctxPart c))).toNat / 4 * 4) = false

/-- The state with the issuing slot's warp replaced, and nothing else changed. -/
def put (s : State) (w : Warp) : State := s.setWarp s.cur.unit s.cur.slot (some w)

/-- The issuing path has gone on to the next instruction: past its own one (R54), or into a back edge or a join that
stands there (R33, R143). -/
def onward (s : State) (w : Warp) : Warp :=
  (w.dropLanes s.curP.mask).goOn (s.flowEnv s.cur.unit s.cur.slot) s.curP.pc s.cur.len s.curP.mask s.curP.j

/-- The two warps differ at most in where their lanes stand: paths, joins, loop levels, the running path, the stage
predicates that a loop shifts and the watchdog count that an arrival zeroes. Every register stays. -/
def FlowOnly (w w' : Warp) : Prop :=
  w' = { w with paths := w'.paths, run := w'.run, joins := w'.joins, loops := w'.loops, sp := w'.sp, wdcnt := w'.wdcnt }

/-- A register of a lane that had the value old is given the value new: it holds that, or, where an unchecked earlier result is
still to be written to it, possibly still the old one (R59). -/
def Took {α : Type} (s : State) (f : RFile) (r l : Nat) (old new got : α) : Prop :=
  got = new ∨ ((f, r, l) ∈ s.cur.hw ∧ got = old)

/-- Of the v registers, exactly those for which `res` has a value (by lane and physical number) take it. -/
def VRegs (s : State) (w w' : Warp) (res : Nat → Nat → Option Word) : Prop :=
  ∀ k, match res (k / 256) (k % 256) with
    | some x => Took s .v (k % 256) (k / 256) (w.v.get k) x (w'.v.get k)
    | none => w'.v.get k = w.v.get k

/-- Of the predicates p0 to p6, exactly those for which `res` has a value (by lane and number) take it. -/
def PRegs (s : State) (w w' : Warp) (res : Nat → Nat → Option Bool) : Prop :=
  ∀ l < 32, ∀ p < 7, match res l p with
    | some x => Took s .p p l (w.pbit l p) x (w'.pbit l p)
    | none => w'.pbit l p = w.pbit l p

/-- One v register of each executing lane. -/
def one (s : State) (h : Head) (w : Warp) (d : VReg) (f : Nat → Word) : Nat → Nat → Option Word :=
  fun l r => if executes s h l ∧ r = w.phys d.toNat then some (f l) else none

/-- A pair of v registers of each executing lane, the low half in the lower one (R46). -/
def two (s : State) (h : Head) (w : Warp) (d : VReg) (f : Nat → Dword) : Nat → Nat → Option Word :=
  fun l r =>
    if executes s h l ∧ r = w.phys (d.toNat + 1) then some ((f l >>> 32).setWidth 32)
    else if executes s h l ∧ r = w.phys d.toNat then some ((f l).setWidth 32)
    else none

/-- The instruction answers a next state in which each executing lane's register d holds f of the lane, the path has gone
on, and nothing else is changed. -/
def Lane32 (i : Instr) (s : State) (w : Warp) (h : Head) (d : VReg) (f : Nat → Word) : Prop :=
  ∃ w₁, exec i s = .next (put s (onward s w₁)) ∧ FlowOnly w₁ (onward s w₁) ∧ w₁ = { w with v := w₁.v } ∧
    VRegs s w w₁ (one s h w d f)

/-- The same of the pair at d. -/
def Lane64 (i : Instr) (s : State) (w : Warp) (h : Head) (d : VReg) (f : Nat → Dword) : Prop :=
  ∃ w₁, exec i s = .next (put s (onward s w₁)) ∧ FlowOnly w₁ (onward s w₁) ∧ w₁ = { w with v := w₁.v } ∧
    VRegs s w w₁ (two s h w d f)

/-- A register, or under W the pair, of each executing lane. -/
def LaneW (i : Instr) (s : State) (w : Warp) (h : Head) (d : VReg) (wide : Bool) (f : Nat → Dword) : Prop :=
  if wide then Lane64 i s w h d f else Lane32 i s w h d fun l => (f l).setWidth 32

/-- The instruction answers a next state in which each executing lane's predicate d holds f of the lane (p7 takes nothing),
the path has gone on, and nothing else is changed. -/
def LaneP (i : Instr) (s : State) (w : Warp) (h : Head) (d : PReg) (f : Nat → Bool) : Prop :=
  ∃ w₁, exec i s = .next (put s (onward s w₁)) ∧ FlowOnly w₁ (onward s w₁) ∧ w₁ = { w with p := w₁.p } ∧
    PRegs s w w₁ fun l p => if executes s h l ∧ p = d.toNat then some (f l) else none

/-- The instruction answers a next state in which nothing but the path has moved on. -/
def Passes (i : Instr) (s : State) (w : Warp) : Prop :=
  exec i s = .next (put s (onward s w)) ∧ FlowOnly w (onward s w)

/-- A k register takes a value, when some lane executes; the path has gone on, and nothing else is changed. -/
def Uniform (i : Instr) (s : State) (w : Warp) (h : Head) (d : KReg) (x : Dword) : Prop :=
  ∃ w₁, exec i s = .next (put s (onward s w₁)) ∧ FlowOnly w₁ (onward s w₁) ∧ w₁ = { w with k := w₁.k } ∧
    (∀ k, k ≠ d.toNat → w₁.k.get k = w.k.get k) ∧
    ((∃ l, executes s h l) → Took s .k d.toNat 0 (w.k.get d.toNat) x (w₁.k.get d.toNat)) ∧
    ((¬ ∃ l, executes s h l) → w₁ = w)

/-- The instruction in flight that an issue adds (R56, R57): a name of its own, the lanes, the token it holds, how many
completions it waits for, its results, and the lanes whose M it counts in (R31). -/
def entry (s : State) (h : Head) (m : Lanes) (mem : Bool) (hold : Nat) (res : List RegVal) : Pend :=
  ⟨s.nextId, s.curP.pc, m, mem, State.tokOf h, hold, res, [], [], m⟩

/-- The warp with one more instruction in flight and that instruction's token counted up. -/
def Carries (h : Head) (w w' : Warp) (q : Pend) : Prop :=
  w' = { w with pend := w.pend ++ [q], tok := w'.tok } ∧
  ∀ j, w'.tok.get j = w.tok.get j + if State.tokOf h = some j then 1 else 0

/-- The instruction answers a next state in which, unless no lane executes, one more instruction is in flight for the
executing lanes, with the results given; the path has gone on, and nothing else is changed. -/
def Flies (i : Instr) (s : State) (w : Warp) (h : Head) (res : List RegVal) : Prop :=
  if s.execLanes h = 0 then Passes i s w
  else ∃ w₁, exec i s = .next { put s (onward s w₁) with nextId := s.nextId + 1 } ∧ FlowOnly w₁ (onward s w₁) ∧
    Carries h w w₁ (entry s h (s.execLanes h) false 0 res)

/-- Of each executing lane, the result to be written to a v register. -/
def later32 (s : State) (w : Warp) (h : Head) (d : VReg) (f : Nat → Word) : List RegVal :=
  (Bits.lanes (s.execLanes h)).map fun l => ⟨.v, w.phys d.toNat, l, (f l).setWidth 64⟩

/-- The same for a pair, the low half first (R46). -/
def later64 (s : State) (w : Warp) (h : Head) (d : VReg) (f : Nat → Dword) : List RegVal :=
  (Bits.lanes (s.execLanes h)).flatMap fun l =>
    [⟨.v, w.phys d.toNat, l, ((f l).setWidth 32 : Word).setWidth 64⟩,
     ⟨.v, w.phys (d.toNat + 1), l, ((f l >>> 32).setWidth 32 : Word).setWidth 64⟩]

/-- The same for a predicate. -/
def laterP (s : State) (h : Head) (d : PReg) (f : Nat → Bool) : List RegVal :=
  (Bits.lanes (s.execLanes h)).map fun l => ⟨.p, d.toNat, l, if f l then 1 else 0⟩

-- arithmetic as the rules write it

/-- Int(x, w, U) of R100, for a value of its own width. -/
def int {n : Nat} (u : Bool) (x : BitVec n) : Int := if u then (x.toNat : Int) else x.toInt

/-- Clamp(z, w, U) of R100. -/
def clamp (n : Nat) (u : Bool) (z : Int) : Int :=
  let lo : Int := if u then 0 else -(2 ^ (n - 1))
  let hi : Int := if u then 2 ^ n - 1 else 2 ^ (n - 1) - 1
  if z < lo then lo else if hi < z then hi else z

/-- bits(w) of z, clamped first under SAT (R100). -/
def narrowed (n : Nat) (sat u : Bool) (z : Int) : BitVec n := BitVec.ofInt n (if sat then clamp n u z else z)

/-- A result of 32 or of 64 bits, by W. -/
def byWidth (wide : Bool) (x : Dword) (y : Word) : Dword := if wide then x else y.setWidth 64

/-- The count of a shift (R102). -/
def shiftBy (wide clamps : Bool) (b : Word) : Nat :=
  let w := if wide then 64 else 32
  if clamps then (if b.toNat < w then b.toNat else w) else b.toNat % w

/-- SEED after n draws of stochastic rounding (R86). -/
def drawn : Nat → Nat → Nat
  | 0, s => s
  | n + 1, s => drawn n (Num.draw (Num.seedOf s))

/-- The number of executing lanes below a lane: conversions draw in lane order (R86, R119). -/
def rank (s : State) (h : Head) (l : Nat) : Nat := (List.range l).countP fun j => executes s h j

/-- The state of SEED with which element i of n of a lane is converted. -/
def seedFor (s : State) (w : Warp) (h : Head) (rm : Round) (n l i : Nat) : Nat :=
  if rm = .sto then drawn (n * rank s h l + i + 1) w.seed.toNat else w.seed.toNat

/-- A conversion: v registers as `res` says, and SEED past all the draws. -/
def Converts (i : Instr) (s : State) (w : Warp) (h : Head) (rm : Round) (n : Nat) (res : Nat → Nat → Option Word) : Prop :=
  ∃ w₁, exec i s = .next (put s (onward s w₁)) ∧ FlowOnly w₁ (onward s w₁) ∧
    w₁ = { w with v := w₁.v, seed := w₁.seed } ∧ VRegs s w w₁ res ∧
    w₁.seed = BitVec.ofNat 32 (if rm = .sto then drawn (n * rank s h 32) w.seed.toNat else w.seed.toNat)

/-- Elements of a container width in one register, element 0 lowest (R74). -/
def packed (cont : Nat) (e : Nat → Nat) (n : Nat) : Word :=
  BitVec.ofNat 32 (((List.range n).map fun i => e i % 2 ^ cont * 2 ^ (cont * i)).sum)

-- collectives

/-- The issuing path waits where it stands. -/
def waiting (s : State) (w : Warp) (t : Wait) : Warp :=
  { w with run := 32, paths := w.paths.map fun p => if p.mask.getLsbD s.cur.path then { p with wait := t } else p }

/-- The instance of a collective at the issuing path's address for the group from lane b on: the one that is open, or a new
one of n lanes. -/
def openInst (s : State) (w : Warp) (i : Instr) (g : GReg) (n b : Nat) : CollInst :=
  (w.colls.find? fun c => c.pc == s.curP.pc && c.greg == g.toNat && c.base == b).getD
    ⟨s.curP.pc, i, g.toNat, n, b, 0, 0, [], []⟩

/-- The path's lanes arrive at a collective (R36, R123): in each of their groups they count as arrived, those that execute
contribute f of the lane, and the instruction in flight waits for the groups. Groups that are complete then finish. -/
def Arrives (i : Instr) (s : State) (w : Warp) (h : Head) (g : GReg) (f : Nat → Dword) : Prop :=
  let n := s.collSize g
  let act := s.curP.mask
  let groups := ((Bits.lanes act).map fun l => l / n * n).eraseDups
  ∃ w₁ : Warp, exec i s = .next { put s (w₁.collCheck (s.flowEnv s.cur.unit s.cur.slot)) with nextId := s.nextId + 1 } ∧
    w₁ = { waiting s w .coll with
      pend := w.pend ++ [entry s h act false groups.length []], tok := w₁.tok, colls := w₁.colls } ∧
    (∀ j, w₁.tok.get j = w.tok.get j + if State.tokOf h = some j then 1 else 0) ∧
    (∀ b ∈ groups, { openInst s w i g n b with
      arrived := (openInst s w i g n b).arrived ||| (act &&& Warp.groupMask b n)
      contrib := (openInst s w i g n b).contrib ||| (s.execLanes h &&& Warp.groupMask b n)
      vals := (openInst s w i g n b).vals ++ (Bits.lanes (s.execLanes h &&& Warp.groupMask b n)).map fun l => (l, f l)
      ids := (openInst s w i g n b).ids ++ [s.nextId] } ∈ w₁.colls) ∧
    ∀ c : CollInst, (c.pc ≠ s.curP.pc ∨ c.greg ≠ g.toNat ∨ c.base ∉ groups) → (c ∈ w₁.colls ↔ c ∈ w.colls)

/-- The tree of R93 over 2^k values from number i on: each half is combined, then the two. -/
def treeAt (f : Word → Word → Word) (x : Nat → Word) : Nat → Nat → Word
  | 0, i => x i
  | k + 1, i => f (treeAt f x k i) (treeAt f x k (i + 2 ^ k))

/-- The pattern of R94 after k rounds. -/
def scanAt (f : Word → Word → Word) (x : Nat → Word) : Nat → Nat → Word
  | 0, i => x i
  | k + 1, i => if i < 2 ^ k then scanAt f x k i else f (scanAt f x k (i - 2 ^ k)) (scanAt f x k i)

-- memory

/-- No executing lane carries a resolved hypothesis, so the gate of R166 leaves everything as it is. -/
def Settled (s : State) (w : Warp) (h : Head) : Prop :=
  ∀ l, executes s h l = true → w.hyOf l = 0 ∨ s.hypSeen s.cur.unit w.ctx (w.hyOf l).toNat = HEnt.opened

/-- An access of the issuing warp is translated, aligned, and homed on a die that is there (R163, R231, R413). -/
def Reaches (s : State) (need : Need) (align ea : Nat) (x : Xlat) : Prop :=
  s.xlate s.cur.unit (s.cur.slot != trapSlot) need ea = .ok x ∧ ea % align = 0 ∧ s.lostPa s.cur.unit.die x.pa = false

/-- A lane's access as it enters flight, before it has its name (R165). -/
def access (s : State) (w : Warp) (k : OpKind) (l ea : Nat) (x : Xlat) : MemOp :=
  { (default : MemOp) with
    unit := s.cur.unit, slot := s.cur.slot, lane := l, lanes := Bits.lane l, path := .lsu, kind := k, ea := BitVec.ofNat 64 ea
    pa := x.pa, ctx := w.ctx, lease := w.lease, repl := x.repl, since := s.pace s.cur.unit.die }

/-- A scratchpad access of a lane reaches the storage of unit v, in the grant of team t or in a tile (R164). -/
def ReachesScr (s : State) (a : Space) (align n ea : Nat) (v : UnitId) (t : Option Team) : Prop :=
  s.scrTarget a = some (v, t) ∧ ea % align = 0 ∧ ea + n ≤ State.scrSize t

/-- A lane's scratchpad access. -/
def scrAccess (s : State) (w : Warp) (k : OpKind) (l ea : Nat) (v : UnitId) (t : Option Team) : MemOp :=
  { access s w k l ea ⟨State.scrAddr t ea, 0, false, false, 0, 0, 0, 0, 0⟩ with owner := some v, team := (t.map (·.uid)).getD 0 }

/-- One access for each executing lane. -/
def perLaneOps (s : State) (h : Head) (f : Nat → MemOp) : List MemOp := (Bits.lanes (s.execLanes h)).map f

-- flow

/-- What flow inside the issuing warp rests on: whether a trap of it is pending, and instruction lengths. -/
def env (s : State) : FlowEnv := s.flowEnv s.cur.unit s.cur.slot

/-- The issuing warp without the issuing path. -/
def gone (s : State) (w : Warp) : Warp := w.dropLanes s.curP.mask

/-- The lanes of the issuing path that do not execute. -/
def others (s : State) (h : Head) : Lanes := s.curP.mask &&& ~~~ s.execLanes h

/-- Those of them that there are go on to the next instruction under a join. -/
def passOn (s : State) (w : Warp) (m : Lanes) (j : Option Nat) : Warp :=
  if m = 0 then w else w.goOn (env s) s.curP.pc s.cur.len m j

/-- The issuing path has gone, and a record waits for those of its lanes that no back edge takes; the sides of the split keep the
path's M (R32, R143). -/
def splits (s : State) (w : Warp) (jpc : Dword) (off : Lanes) : Warp :=
  { (gone s w).shareM off with joins := w.joins.set w.freeJoin (some ⟨jpc, off, 0, s.curP.j⟩) }

/-- The lowest loop level above every live one, 4 for none (R136). -/
def freeLevelOf (w : Warp) : Nat :=
  if (w.loops.get 3).st = .live then 4 else if (w.loops.get 2).st = .live then 3
  else if (w.loops.get 1).st = .live then 2 else if (w.loops.get 0).st = .live then 1 else 0

/-- A lane of a unit's slot is parked for a cause, at an address (R43, R365). -/
def Parked (t : State) (u : UnitId) (slot l c : Nat) (pc info : Dword) : Prop :=
  ∃ w, t.warp u slot = some w ∧ ∃ q ∈ w.parked, q.lane = l ∧ q.rec_.cause = BitVec.ofNat 8 c ∧ q.rec_.pc = pc ∧
    q.rec_.info = info

/-- The instruction answers a next state in which every lane of a set is parked at it for a cause, and the trap waits in the
queue of its core. -/
def Strikes (i : Instr) (s : State) (m : Lanes) (c : Nat) (info : Dword) : Prop :=
  ∃ t, exec i s = .next t ∧
    (∀ l, m.getLsbD l = true → Parked t s.cur.unit s.cur.slot l c s.curP.pc info) ∧
    ∃ q, (t.core s.cur.unit).trapQ = (s.core s.cur.unit).trapQ ++ [q] ∧ q.slot = s.cur.slot ∧ q.lanes = m ∧
      q.rec_.cause = BitVec.ofNat 8 c

end Sys2Proof.Terms
end

