-- ==== Sys2Proof/Certificates/Slice0/Obligations.lean ====
section
/-! DEFINITION. The statements about the machine that are to be proved. -/

open Sys2Proof Sys2Proof.Machine Sys2Proof.Terms

-- compute forms (R96 to R128)

/-- R100. Each executing lane's result is the exact sum, difference, product, minimum, maximum or absolute value of the
operands read as U says, clamped under SAT and else modulo 2^w; nothing else changes (R97). -/
def Obligations.IntegerArithmeticResults : Prop :=
  ∀ (s : State) (w : Warp), Issuing s w → ∀ (h : Head) (d a c : VReg) (b : SrcB) (wide sat u : Bool),
    let x32 := fun l => int u (s.rv l a.toNat)
    let y32 := fun l => int u (s.srcB l b)
    let x64 := fun l => int u (s.rv2 l a.toNat)
    let y64 := fun l => int u (s.srcB2 l b)
    LaneW (.iadd h d a b wide sat u) s w h d wide (fun l =>
      byWidth wide (narrowed 64 sat u (x64 l + y64 l)) (narrowed 32 sat u (x32 l + y32 l))) ∧
    LaneW (.isub h d a b wide sat u) s w h d wide (fun l =>
      byWidth wide (narrowed 64 sat u (x64 l - y64 l)) (narrowed 32 sat u (x32 l - y32 l))) ∧
    Lane32 (.imul h d a b sat u) s w h d (fun l => narrowed 32 sat u (x32 l * y32 l)) ∧
    Lane32 (.imulh h d a b u) s w h d (fun l => ((BitVec.ofInt 64 (x32 l * y32 l)) >>> 32).setWidth 32) ∧
    Lane32 (.imad h d a b c sat u) s w h d (fun l => narrowed 32 sat u (x32 l * y32 l + int u (s.rv l c.toNat))) ∧
    Lane64 (.imadw h d a b c sat u) s w h d (fun l => narrowed 64 sat u (x32 l * y32 l + int u (s.rv2 l c.toNat))) ∧
    Lane32 (.imin h d a b u) s w h d (fun l => if x32 l ≤ y32 l then s.rv l a.toNat else s.srcB l b) ∧
    Lane32 (.imax h d a b u) s w h d (fun l => if y32 l ≤ x32 l then s.rv l a.toNat else s.srcB l b) ∧
    Lane32 (.iabs h d a sat) s w h d (fun l => narrowed 32 sat false (s.rv l a.toNat).toInt.natAbs)

/-- R101, R102. The logic forms and the shifts: operands bit by bit, and the count taken modulo the width or clamped to it.
The model's choices: log 9. -/
def Obligations.LogicAndShiftResults : Prop :=
  ∀ (s : State) (w : Warp), Issuing s w → ∀ (h : Head) (d a : VReg) (b : SrcB) (wide clamps : Bool) (lut : BitVec 8),
    let x := fun l => s.rv l a.toNat
    let y := fun l => s.srcB l b
    let xx := fun l => s.rv2 l a.toNat
    let n := fun l => shiftBy wide clamps (y l)
    Lane32 (.and h d a b) s w h d (fun l => x l &&& y l) ∧
    Lane32 (.or h d a b) s w h d (fun l => x l ||| y l) ∧
    Lane32 (.xor h d a b) s w h d (fun l => x l ^^^ y l) ∧
    Lane32 (.andn h d a b) s w h d (fun l => x l &&& ~~~ y l) ∧
    Lane32 (.not h d a) s w h d (fun l => ~~~ x l) ∧
    (∃ f : Nat → Word, Lane32 (.lop3 h d a b lut) s w h d f ∧ ∀ l, ∀ i < 32, (f l).getLsbD i =
      lut.getLsbD (4 * (if (s.rv l d.toNat).getLsbD i then 1 else 0) + 2 * (if (x l).getLsbD i then 1 else 0) +
        (if (y l).getLsbD i then 1 else 0))) ∧
    LaneW (.shl h d a b wide clamps) s w h d wide (fun l => byWidth wide (xx l <<< n l) (x l <<< n l)) ∧
    LaneW (.shr h d a b wide clamps) s w h d wide (fun l => byWidth wide (xx l >>> n l) (x l >>> n l)) ∧
    LaneW (.sar h d a b wide clamps) s w h d wide (fun l => byWidth wide ((xx l).sshiftRight (n l)) ((x l).sshiftRight (n l))) ∧
    LaneW (.rotl h d a b wide) s w h d wide (fun l =>
      byWidth wide ((xx l).rotateLeft (shiftBy wide false (y l))) ((x l).rotateLeft (shiftBy wide false (y l))))

/-- R103 to R105. Bit counts, bit reversal, field extraction and insertion, and Morton codes, bit by bit.
The model's choices: log 9. -/
def Obligations.BitFieldResults : Prop :=
  ∀ (s : State) (w : Warp), Issuing s w → ∀ (h : Head) (d a c : VReg) (b : SrcB) (u three : Bool),
    let x := fun l => s.rv l a.toNat
    let y := fun l => s.srcB l b
    let z := fun l => s.rv l c.toNat
    let pos := fun l => (y l).toNat % 256
    let m := fun l => if (y l).toNat / 256 % 256 < 32 then (y l).toNat / 256 % 256 else 32
    (∃ f, Lane32 (.clz h d a) s w h d f ∧ ∀ l, if x l = 0 then f l = 32 else
      (f l).toNat < 32 ∧ (x l).getLsbD (31 - (f l).toNat) = true ∧ ∀ i, 31 - (f l).toNat < i → (x l).getLsbD i = false) ∧
    (∃ f, Lane32 (.ctz h d a) s w h d f ∧ ∀ l, if x l = 0 then f l = 32 else
      (f l).toNat < 32 ∧ (x l).getLsbD (f l).toNat = true ∧ ∀ i < (f l).toNat, (x l).getLsbD i = false) ∧
    Lane32 (.popc h d a) s w h d (fun l => BitVec.ofNat 32 ((List.range 32).countP fun i => (x l).getLsbD i)) ∧
    (∃ f, Lane32 (.brev h d a) s w h d f ∧ ∀ l, ∀ i < 32, (f l).getLsbD i = (x l).getLsbD (31 - i)) ∧
    (∃ f, Lane32 (.bfx h d a b u) s w h d f ∧ ∀ l, ∀ i < 32, (f l).getLsbD i =
      if i < m l then (x l).getLsbD (pos l + i) else !u && decide (1 ≤ m l) && (x l).getLsbD (pos l + m l - 1)) ∧
    (∃ f, Lane32 (.bfi h d a b c) s w h d f ∧ ∀ l, ∀ i < 32, (f l).getLsbD i =
      if pos l ≤ i ∧ i < pos l + m l then (z l).getLsbD (i - pos l) else (x l).getLsbD i) ∧
    (∃ f, Lane32 (.ilv h d a b c three) s w h d f ∧ ∀ l, ∀ i < 32, (f l).getLsbD i =
      if three then decide (i < 30) && (if i % 3 = 0 then x l else if i % 3 = 1 then y l else z l).getLsbD (i / 3)
      else (if i % 2 = 0 then x l else y l).getLsbD (i / 2)) ∧
    (∃ f, Lane32 (.dlv h d a b three) s w h d f ∧ ∀ l, ∀ i < 32, (f l).getLsbD i =
      (let t := (y l).toNat % 4
       if three then decide (t < 3 ∧ i < 10) && (x l).getLsbD (3 * i + t)
       else decide (t < 2 ∧ i < 16) && (x l).getLsbD (2 * i + t)))

/-- R106 to R109. Compares, selects, moves to v and k registers, immediates and address sums. A uniform write is made once,
from the lowest executing lane, and not at all where none executes.
The codes of an integer comparison (R62).
The model's choices: log 9. -/
def Obligations.CompareSelectMoveResults : Prop :=
  (∀ (s : State) (w : Warp), Issuing s w → ∀ (h : Head) (d a : VReg) (b : SrcB) (kd ka : KReg) (pd pc : PReg) (cc : Cmp)
     (wide u : Bool) (imm : Imm) (sh : BitVec 3),
     let low := fun (f : Nat → Dword) => f ((s.firstLane h).getD 0)
     let value := match imm with | .short i => i.signExtend 64 | .lit x => x
     LaneP (.icmp h cc pd a b pc) s w h pd (fun l => icond cc (s.rv l a.toNat) (s.srcB l b) && s.rp l pc.toNat) ∧
     Lane32 (.isel h d a b pc) s w h d (fun l => if s.rp l pc.toNat then s.rv l a.toNat else s.srcB l b) ∧
     Lane32 (.mov h (.v d) b) s w h d (fun l => s.srcB l b) ∧
     Lane64 (.mov h (.w d) b) s w h d (fun l => s.srcB2 l b) ∧
     Uniform (.mov h (.k kd) b) s w h kd (low fun l => (s.srcB l b).setWidth 64) ∧
     Uniform (.mov h (.wk kd) b) s w h kd (low fun l => s.srcB2 l b) ∧
     LaneW (.movi h d wide imm) s w h d wide (fun _ => value) ∧
     Uniform (.movk h kd .imm imm) s w h kd value ∧
     Uniform (.movk h kd (.add ka) imm) s w h kd (s.rk ka.toNat + value) ∧
     Lane64 (.lea h d a b sh u) s w h d (fun l =>
       s.rv2 l a.toNat + (if u then (s.srcB l b).setWidth 64 else (s.srcB l b).signExtend 64) * BitVec.ofNat 64 (2 ^ sh.toNat))) ∧
  (∀ a b : Word,
     (icond .eq a b = true ↔ a = b) ∧ (icond .ne a b = true ↔ a ≠ b) ∧
     (icond .lt a b = true ↔ a.toInt < b.toInt) ∧ (icond .le a b = true ↔ a.toInt ≤ b.toInt) ∧
     (icond .gt a b = true ↔ a.toInt > b.toInt) ∧ (icond .ge a b = true ↔ a.toInt ≥ b.toInt) ∧
     (icond .ltu a b = true ↔ a < b) ∧ (icond .leu a b = true ↔ a ≤ b) ∧
     (icond .gtu a b = true ↔ a > b) ∧ (icond .geu a b = true ↔ a ≥ b))

/-- R110 to R112. FP32 forms of fixed latency: the operation on encodings, rounded to nearest even, clamped under SAT.
The model's choices: log 9. -/
def Obligations.Fp32Results : Prop :=
  ∀ (s : State) (w : Warp), Issuing s w → ∀ (h : Head) (d a c : VReg) (b : SrcB) (pd pc : PReg) (cc : Cmp) (sat : Bool)
    (rm : Round),
    let x := fun l => (s.rv l a.toNat).toNat
    let y := fun l => (s.srcB l b).toNat
    let z := fun l => (s.rv l c.toNat).toNat
    let r := fun n => BitVec.ofNat 32 (Num.satIf sat Num.f32 n)
    Lane32 (.fadd h d a b sat) s w h d (fun l => r (Num.addE Num.f32 (x l) (y l))) ∧
    Lane32 (.fsub h d a b sat) s w h d (fun l => r (Num.subE Num.f32 (x l) (y l))) ∧
    Lane32 (.fmul h d a b sat) s w h d (fun l => r (Num.mulE Num.f32 (x l) (y l))) ∧
    Lane32 (.ffma h d a b c sat) s w h d (fun l => r (Num.fmaE Num.f32 (x l) (y l) (z l))) ∧
    Lane32 (.fmin h d a b) s w h d (fun l => BitVec.ofNat 32 (Num.minE Num.f32 (x l) (y l))) ∧
    Lane32 (.fmax h d a b) s w h d (fun l => BitVec.ofNat 32 (Num.maxE Num.f32 (x l) (y l))) ∧
    LaneP (.fcmp h cc pd a b pc) s w h pd (fun l =>
      fcond cc (Num.decodeF Num.f32 (x l)) (Num.decodeF Num.f32 (y l)) && s.rp l pc.toNat) ∧
    Lane32 (.frnd h d a rm) s w h d (fun l => BitVec.ofNat 32 (Num.rndF32 rm (x l))) ∧
    Lane32 (.ffrc h d a) s w h d (fun l => BitVec.ofNat 32 (Num.frcF32 (x l)))

/-- R56, R110, R114. The functions of one operand and the FP64 forms put their results into flight under the instruction's
token; they are written later.
The model's choices: log 12. -/
def Obligations.VariableLatencyResults : Prop :=
  ∀ (s : State) (w : Warp), Issuing s w → ∀ (h : Head) (d a c : VReg) (b : SrcB) (pd pc : PReg) (cc : Cmp),
    let one := fun (f : Nat → Nat) => later32 s w h d fun l => BitVec.ofNat 32 (f (s.rv l a.toNat).toNat)
    let x := fun l => (s.rv2 l a.toNat).toNat
    let y := fun l => (s.srcB2 l b).toNat
    let z := fun l => (s.rv2 l c.toNat).toNat
    Flies (.frcp h d a) s w h (one (Num.rcpE Num.f32)) ∧
    Flies (.frsq h d a) s w h (one (Num.rsqE Num.f32)) ∧
    Flies (.fsqrt h d a) s w h (one (Num.sqrtE Num.f32)) ∧
    Flies (.fexp2 h d a) s w h (one Num.exp2F32) ∧
    Flies (.flog2 h d a) s w h (one Num.log2F32) ∧
    Flies (.fsin h d a) s w h (one Num.sinF32) ∧
    Flies (.fcos h d a) s w h (one Num.cosF32) ∧
    Flies (.ftanh h d a) s w h (one Num.tanhF32) ∧
    Flies (.dadd h d a b) s w h (later64 s w h d fun l => BitVec.ofNat 64 (Num.addE Num.f64 (x l) (y l))) ∧
    Flies (.dmul h d a b) s w h (later64 s w h d fun l => BitVec.ofNat 64 (Num.mulE Num.f64 (x l) (y l))) ∧
    Flies (.dfma h d a b c) s w h (later64 s w h d fun l => BitVec.ofNat 64 (Num.fmaE Num.f64 (x l) (y l) (z l))) ∧
    Flies (.dcmp h cc pd a b pc) s w h (laterP s h pd fun l =>
      fcond cc (Num.decodeF Num.f64 (x l)) (Num.decodeF Num.f64 (y l)) && s.rp l pc.toNat)

/-- R113. The packed forms work on each F16 element of a register on its own.
The model's choices: log 9. -/
def Obligations.PackedF16Results : Prop :=
  ∀ (s : State) (w : Warp), Issuing s w → ∀ (h : Head) (d a c : VReg) (b : SrcB) (sat least : Bool),
    let half := fun (x : Word) (e : Nat) => ((x >>> (16 * e)).setWidth 16 : Half).toNat
    let r := fun n => (BitVec.ofNat 16 (Num.satIf sat Num.f16 n))
    let both := fun (f : Nat → Half) => (f 1 ++ f 0 : Word)
    let x := fun l e => half (s.rv l a.toNat) e
    let y := fun l e => half (s.srcB l b) e
    let z := fun l e => half (s.rv l c.toNat) e
    Lane32 (.hxadd h d a b sat) s w h d (fun l => both fun e => r (Num.addE Num.f16 (x l e) (y l e))) ∧
    Lane32 (.hxmul h d a b sat) s w h d (fun l => both fun e => r (Num.mulE Num.f16 (x l e) (y l e))) ∧
    Lane32 (.hxfma h d a b c sat) s w h d (fun l => both fun e => r (Num.fmaE Num.f16 (x l e) (y l e) (z l e))) ∧
    Lane32 (.hxmax h d a b least) s w h d (fun l => both fun e =>
      BitVec.ofNat 16 ((if least then Num.minE Num.f16 else Num.maxE Num.f16) (x l e) (y l e)))

/-- R115 to R119. CVT, PACK and UNPK: each element is converted on its own; under STO every conversion draws once, lane by
lane and element by element, and SEED holds the state after them.
The model's choices: log 9. -/
def Obligations.ConversionResults : Prop :=
  ∀ (s : State) (w : Warp), Issuing s w → ∀ (h : Head) (d a : VReg) (dst src : Ty) (rm : Round) (sat : Bool),
    let cvt := fun l => BitVec.ofNat 64 (Num.convert dst src rm (seedFor s w h rm 1 l 0) sat
      ((s.srcW l a src.wide).toNat % 2 ^ src.cont))
    Converts (.cvt h d a dst src rm sat) s w h rm 1
      (if dst.wide then two s h w d cvt else one s h w d fun l => (cvt l).setWidth 32) ∧
    Converts (.pack h d a dst src rm sat) s w h rm dst.packN (one s h w d fun l =>
      packed dst.cont (fun i => Num.convert dst src rm (seedFor s w h rm dst.packN l i) sat (s.rv l (a.toNat + i)).toNat)
        dst.packN) ∧
    (∃ w₁, exec (.unpk h d a dst src) s = .next (put s (onward s w₁)) ∧ FlowOnly w₁ (onward s w₁) ∧
      w₁ = { w with v := w₁.v } ∧ VRegs s w w₁ fun l r => if executes s h l then
        ((List.range src.packN).reverse.find? fun i => r == w.phys (d.toNat + i)).map fun i =>
          BitVec.ofNat 32 (Num.roundTo dst .rne 0 (Num.decode src
            ((s.rv l a.toNat).toNat / 2 ^ (src.cont * i) % 2 ^ src.cont)))
        else none)

/-- R120, R121. The predicate forms. p7 reads 1 and takes no write.
R35, R122. PART writes the size of one group for the warp, when some lane executes.
The model's choices: log 9. -/
def Obligations.PredicateResults : Prop :=
  (∀ (s : State) (w : Warp), Issuing s w → ∀ (h : Head) (pd pa pb pc spa : PReg) (d a : VReg) (lut : BitVec 4) (or_ : Bool),
     LaneP (.plop h pd pa pb pc lut or_) s w h pd (fun l =>
       let t := lut.getLsbD (2 * (if s.rp l pa.toNat then 1 else 0) + (if s.rp l pb.toNat then 1 else 0))
       if or_ then t || s.rp l pc.toNat else t && s.rp l pc.toNat) ∧
     (∃ f, Lane32 (.pmov h (.tov d)) s w h d f ∧ ∀ l i, (f l).getLsbD i = (decide (i < 8) && s.rp l i)) ∧
     (∃ w₁, exec (.pmov h (.fromv a)) s = .next (put s (onward s w₁)) ∧ FlowOnly w₁ (onward s w₁) ∧
       w₁ = { w with p := w₁.p } ∧ PRegs s w w₁ fun l p => if executes s h l then some ((s.rv l a.toNat).getLsbD p) else none) ∧
     (∃ x, LaneP (.pmov h (.sp pd spa)) s w h pd (fun _ => x) ∧ (s.cur.hz = [] → x = w.sp.getLsbD spa.toNat)) ∧
     (∀ l, s.rp l 7 = true) ∧ (∀ l, w.pbit l 7 = decide (l < 32))) ∧
  (∀ (s : State) (w : Warp), Issuing s w → ∀ (h : Head) (d : GReg) (size : BitVec 2),
     ∃ w₁, exec (.part h d size) s = .next (put s (onward s w₁)) ∧ FlowOnly w₁ (onward s w₁) ∧
       w₁ = { w with grp := w₁.grp } ∧ (∀ g, g ≠ d.toNat → w₁.groupSize g = w.groupSize g) ∧
       ((∃ l, executes s h l) → Took s .g d.toNat 0 (w.groupSize d.toNat) (4 * 2 ^ size.toNat) (w₁.groupSize d.toNat)) ∧
       ((¬ ∃ l, executes s h l) → w₁ = w))

/-- R37, R124, R125. SHFL and BCAST wait for no lane: each executing lane reads register A of its source lane in the group,
or gets its own fill where the source lies outside. What a cross-lane read gives: an exited lane the fill, a lane of the same
path its register, another live lane its current value, or, while a write to that register is in flight, possibly the new
one. -/
def Obligations.ShuffleAndCrossLaneReads : Prop :=
  ∀ (s : State) (w : Warp), Issuing s w →
    (∀ (h : Head) (m : ShflMode) (d a c : VReg) (b : SrcB) (g : GReg) (k : KReg) (x : Dword),
      let n := s.groupOf g
      let fill := fun l => s.rv l c.toNat
      let at_ := fun (l : Nat) (j : Int) =>
        if 0 ≤ j ∧ j < n then s.crossRead (l / n * n + j.toNat) a.toNat (fill l) else fill l
      Lane32 (.shfl h m d a b c g) s w h d (fun l =>
        let i := l % n
        let y := (s.srcB l b).toNat
        at_ l (match m with | .idx => y | .up => (i : Int) - y | .down => (i : Int) + y | .xor => ((i ^^^ y : Nat) : Int))) ∧
      Lane32 (.bcast h d a (.k k) c g) s w h d (fun l => at_ l (((s.rk k.toNat).toNat % 2 ^ 32 : Nat) : Int)) ∧
      Lane32 (.bcast h d a (.lit x) c g) s w h d (fun l => at_ l ((x.toNat % 2 ^ 32 : Nat) : Int)) ∧
      Lane32 (.bcast h d a .first c g) s w h d (fun l =>
        match (List.range n).find? fun i => executes s h (l / n * n + i) with
        | some i => s.crossRead (l / n * n + i) a.toNat (fill l)
        | none => fill l)) ∧
    (∀ (j x : Nat) (fill : Word),
      ((w.width ≤ j ∨ w.exited.getLsbD j) → s.crossRead j x fill = fill) ∧
      (j < w.width → w.exited.getLsbD j = false → s.curP.mask.getLsbD j = true → s.crossRead j x fill = s.rv j x) ∧
      (j < w.width → w.exited.getLsbD j = false → s.curP.mask.getLsbD j = false →
        s.crossRead j x fill = w.getV j x ∨
        ∃ q ∈ w.pend, ∃ r ∈ q.res, r.file = .v ∧ r.reg = w.phys x ∧ r.lane = j ∧ s.crossRead j x fill = r.val.setWidth 32))

/-- R36, R123. A collective: every active lane executes it, those whose guard holds bring their value, the path waits, and
what is complete then goes on.
The model's choices: log 74. -/
def Obligations.CollectiveArrival : Prop :=
  ∀ (s : State) (w : Warp), Issuing s w → ∀ (h : Head) (vm : VoteMode) (vd : BitVec 8) (pa : PReg) (op : RedOp) (d a : VReg)
    (g : GReg) (excl wide : Bool),
    Arrives (.vote h vm vd pa g) s w h g (fun l => if s.rp l pa.toNat then 1 else 0) ∧
    Arrives (.redux h op d a g) s w h g (fun l => (s.rv l a.toNat).setWidth 64) ∧
    Arrives (.scan h op d a g excl) s w h g (fun l => (s.rv l a.toNat).setWidth 64) ∧
    Arrives (.matchV h d a g wide) s w h g (fun l => if wide then s.rv2 l a.toNat else (s.rv l a.toNat).setWidth 64)

/-- R93, R94, R126 to R128. The results of a complete group: votes, ballots, matches, and the trees of REDUX and SCAN over
the group's values in lane order, with the identity for a lane that does not contribute. -/
def Obligations.CollectiveResults : Prop :=
  ∀ (c : CollInst) (ph : Nat → Nat) (h : Head) (vm : VoteMode) (vd : BitVec 8) (pa : PReg) (op : RedOp) (d a : VReg) (g : GReg)
    (excl wide : Bool),
    let on := Bits.lanes c.contrib
    let bit := fun l => (c.val l).getLsbD 0
    (c.instr = .vote h vm vd pa g → vm ≠ .ballot → ∃ b : Bool,
      c.results ph = on.map (fun l => ⟨.p, vd.toNat, l, if b then 1 else 0⟩) ∧
      (vm = .all → (b = true ↔ ∀ l ∈ on, bit l = true)) ∧ (vm = .any → (b = true ↔ ∃ l ∈ on, bit l = true)) ∧
      (vm = .eq → (b = true ↔ ∀ l ∈ on, ∀ j ∈ on, bit l = bit j))) ∧
    (c.instr = .vote h .ballot vd pa g → ∃ x : Lanes,
      c.results ph = on.map (fun l => ⟨.v, ph vd.toNat, l, x.setWidth 64⟩) ∧
      ∀ i < 32, x.getLsbD i = (c.contrib.getLsbD i && bit i)) ∧
    (c.instr = .matchV h d a g wide → ∃ x : Nat → Lanes,
      c.results ph = on.map (fun l => ⟨.v, ph d.toNat, l, (x l).setWidth 64⟩) ∧
      ∀ l, ∀ i < 32, (x l).getLsbD i = (c.contrib.getLsbD i && decide (c.val i = c.val l))) ∧
    (∀ k ≤ 5, c.size = 2 ^ k → (∀ l ∈ on, c.base ≤ l ∧ l < c.base + c.size) →
      let x := fun i => if c.contrib.getLsbD (c.base + i) then (c.val (c.base + i)).setWidth 32 else redId op
      let y := scanAt (redOp op) x k
      (c.instr = .redux h op d a g →
        c.results ph = on.map (fun l => ⟨.v, ph d.toNat, l, (treeAt (redOp op) x k 0).setWidth 64⟩)) ∧
      (c.instr = .scan h op d a g excl → c.results ph = on.map (fun l =>
        let i := l - c.base
        ⟨.v, ph d.toNat, l, (if excl then (if i = 0 then redId op else y (i - 1)) else y i).setWidth 64⟩)))

-- memory forms (R162 to R179)

/-- R163, R165, R391. A global load, store or atomic whose lanes all reach memory sends one access per executing lane: its
address, its bytes, its order and scope, the datum of a store, the destinations of a load. The path goes on.
The model's choices: log 13. -/
def Obligations.GlobalAccessesIssue : Prop :=
  ∀ (s : State) (w : Warp), Issuing s w → ∀ (h : Head), Settled s w h → ∀ (d b c : VReg) (r : MemRef) (wd : Wid) (f : MemFlags)
    (op : AtomOp) (x : Nat → Xlat), r.space = .gl ∨ r.space = .glk →
    let ea := s.eaOf r wd.bytes
    let sends := fun (i : Instr) (o : Nat → MemOp) =>
      exec i s = .next (s.issueOps h (s.execLanes h) (perLaneOps s h o)).advance
    let atomic := fun (c : VReg) (dst : Nat → List RegVal) l => { access s w .atomic l (ea l) (x l) with
      n := wd.bytes, aop := op, data := s.atomSrc l b wd, cmp := s.atomCmp l c op wd, ord := f.ord, sc := f.sc, dst := dst l }
    ((∀ l, executes s h l = true → Reaches s .read wd.bytes (ea l) (x l)) → sends (.ld h d r wd f) fun l =>
      { access s w .load l (ea l) (x l) with
        n := wd.bytes, ord := f.ord, sc := f.sc, hy := w.hyOf l, ch := f.ch, signed := State.widSigned wd
        dst := s.vdst l d wd
        leased := w.hyOf l == 0 && !f.lh && !(x l).nocache && !State.onExpander (x l).pa }) ∧
    ((∀ l, executes s h l = true → Reaches s .write wd.bytes (ea l) (x l)) → sends (.st h d r wd f) fun l =>
      { access s w .store l (ea l) (x l) with
        n := wd.bytes, ord := f.ord, sc := f.sc, ch := f.ch, data := s.vsrc l d wd
        tag := if f.ht then w.hyOf l else 0 }) ∧
    ((∀ l, executes s h l = true → Reaches s .rw wd.bytes (ea l) (x l)) →
      sends (.atom h d b c op r wd f) (atomic c fun l => s.atomDst l d wd) ∧
      sends (.red h b op r wd f) (atomic b fun _ => []))

/-- R164, R165. A scratchpad load, store, atomic or reduction whose lanes all lie inside a grant or tile sends one access per
executing lane to that storage.
The model's choices: log 13. -/
def Obligations.ScratchpadAccessesIssue : Prop :=
  ∀ (s : State) (w : Warp), Issuing s w → ∀ (h : Head), Settled s w h → ∀ (d b c : VReg) (r : MemRef) (wd : Wid) (f : MemFlags)
    (op : AtomOp) (v : UnitId) (t : Option Team), (r.space = .sp ∨ ∃ n, r.space = .spc n) →
    let ea := s.eaOf r wd.bytes
    (∀ l, executes s h l = true → ReachesScr s r.space wd.bytes wd.bytes (ea l) v t) →
    let sends := fun (i : Instr) (o : Nat → MemOp) =>
      exec i s = .next (s.issueOps h (s.execLanes h) (perLaneOps s h o)).advance
    sends (.lds h d r wd f) (fun l => { scrAccess s w .scrLoad l (ea l) v t with
      n := wd.bytes, ord := f.ord, sc := f.sc, signed := State.widSigned wd, dst := s.vdst l d wd }) ∧
    sends (.sts h d r wd f) (fun l => { scrAccess s w .scrStore l (ea l) v t with
      n := wd.bytes, ord := f.ord, sc := f.sc, data := s.vsrc l d wd }) ∧
    sends (.atoms h d b c op r wd f) (fun l => { scrAccess s w .scrAtomic l (ea l) v t with
      n := wd.bytes, aop := op, data := s.atomSrc l b wd, cmp := s.atomCmp l c op wd, ord := f.ord, sc := f.sc
      dst := s.atomDst l d wd }) ∧
    sends (.red h b op r wd f) (fun l => { scrAccess s w .scrAtomic l (ea l) v t with
      n := wd.bytes, aop := op, data := s.atomSrc l b wd, cmp := s.atomCmp l b op wd, ord := f.ord, sc := f.sc })

/-- R169, R171. LDK and LDM act once for the path, at the address of the lowest executing lane.
The model's choices: log 13, 41. -/
def Obligations.PathLoadsIssue : Prop :=
  ∀ (s : State) (w : Warp), Issuing s w → ∀ (h : Head), Settled s w h → ∀ (d : KReg) (r : MemRef) (wd : Wid) (f : MemFlags)
    (l : Nat) (x : Xlat), s.firstLane h = some l →
    let sends := fun (i : Instr) (o : MemOp) => exec i s = .next (s.issueOps h (s.execLanes h) [o]).advance
    (Reaches s .read wd.bytes (s.eaOf r wd.bytes l) x → sends (.ldk h d r wd f)
      { access s w .load l (s.eaOf r wd.bytes l) x with
        lanes := s.execLanes h, n := wd.bytes, ch := f.ch, signed := State.widSigned wd
        dst := (if wd = .b128 then [State.kres d.toNat 0, State.kres (d.toNat + 1) 0] else [State.kres d.toNat 0])
        leased := !f.lh && !x.nocache && !State.onExpander x.pa }) ∧
    (let ea := s.eaOf r 1 l
     let k := (s.rk d.toNat).toNat
     let n := k / 2 ^ 32 % 2 ^ 16
     let dst := k % 2 ^ 32
     Reaches s .read 128 ea x → ea / 2 ^ x.bits = (ea + 128 * n - 1) / 2 ^ x.bits → k < 2 ^ 48 → 1 ≤ n → n ≤ 512 → dst % 128 = 0 →
     ∀ v t, s.scrTarget .sp = some (v, t) → dst + 128 * n ≤ State.scrSize t → sends (.ldm h d r wd f)
      { access s w .ldm l ea x with
        path := .cpy, lanes := s.execLanes h, n := 128 * n, data := dst, owner := some v, team := (t.map (·.uid)).getD 0
        line := 2 * n })

/-- R57, R165. Accesses that no copy can serve enter flight under new names, as parts of one instruction that holds its token
until all are complete; no byte of memory and no register changes.
The model's choices: log 7, 13. -/
def Obligations.AccessesEnterFlight : Prop :=
  ∀ (s : State) (w : Warp), Issuing s w → ∀ (h : Head) (m : Lanes) (os : List MemOp), os ≠ [] →
    (∀ o ∈ os, o.kind ≠ .load ∨ o.leased = false) →
    let t := s.issueOps h m os
    ∃ w₁, t = { put s w₁ with
        nextId := s.nextId + 1 + os.length, dies := t.dies
        ops := s.ops ++ os.zipIdx.map fun p => { p.1 with id := s.nextId + 1 + p.2, instr := s.nextId } } ∧
      Carries h w w₁ (entry s h m true os.length []) ∧
      ∀ d, { t.die d with buckets := (s.die d).buckets } = s.die d

/-- R236. A load that takes a lease is served at once where its agent holds an unexpired copy of the line, from that copy's
bytes, and the agent's program time moves up to the copy's write time; without a copy it goes home.
The model's choices: log 14. -/
def Obligations.LeasedLoadHits : Prop :=
  ∀ (s : State) (o : MemOp), o.kind = .load → o.leased = true → o.sent = false → s.ordReady o = true → s.bad = [] →
    let n := unitNo o.unit
    (s.hitCopy n (o.pa / 128) = none →
      s.tryHit o = { s with ops := s.ops.map fun (x : MemOp) => if x.id == o.id then { x with sent := true } else x }) ∧
    (∀ c, s.hitCopy n (o.pa / 128) = some c →
      s.tryHit o = (s.modAgent n fun a => { a with pts := later a.pts c.wts }).endOp o
        (State.resultsOf o (Bits.ofBytes ((c.data.drop (o.pa % 128)).take o.n)))) ∧
    (∀ line c, s.hitCopy n line = some c ↔ (s.agent n).copies.get line = some c ∧ precedes c.rts (s.agent n).pts = false)

/-- R164, R391, R413. Lanes whose access is refused are struck with the cause of the refusal and its address, and INFO counts
them; the others send theirs, and where every lane is refused nothing is sent. A misaligned global access is RANGE on the LSU
path, and so is a scratchpad access that is misaligned or reaches no storage; an access homed on a lost die is DIELOST.
The model's choices: log 13. -/
def Obligations.RefusedAccessesStrike : Prop :=
  ∀ (s : State) (w : Warp), Issuing s w → ∀ (h : Head), Settled s w h → ∀ (d b c : VReg) (r : MemRef) (wd : Wid) (f : MemFlags)
    (op : AtomOp) (x : Nat → Xlat),
    let on := s.execLanes h
    let ea := s.eaOf r wd.bytes
    let struck := fun (need : Need) (e : Nat → TFault) (m : Lanes) =>
      s.raise ((Bits.lanes m).map fun l =>
        ⟨l, tCause .lsu (e l), tInfo (e l) need (Bits.lanes m).length, BitVec.ofNat 64 (ea l)⟩)
    let refusedAt := fun (need : Need) (e : Nat → TFault) l =>
      s.xlate s.cur.unit (s.cur.slot != trapSlot) need (ea l) = .error (e l) ∨
      ((∃ x, s.xlate s.cur.unit (s.cur.slot != trapSlot) need (ea l) = .ok x) ∧ ea l % wd.bytes ≠ 0 ∧ e l = ⟨5, 0, 7⟩)
    let refused := fun (need : Need) (e : Nat → TFault) => ∀ l, executes s h l = true → refusedAt need e l
    let outside := ∀ l, executes s h l = true → s.scrTarget r.space = none ∨
      ∃ v t, s.scrTarget r.space = some (v, t) ∧ (ea l % wd.bytes ≠ 0 ∨ State.scrSize t < ea l + wd.bytes)
    let lost := fun (need : Need) => ∀ l, executes s h l = true →
      s.xlate s.cur.unit (s.cur.slot != trapSlot) need (ea l) = .ok (x l) ∧ ea l % wd.bytes = 0 ∧
        s.lostPa s.cur.unit.die (x l).pa = true
    let gone := s.raise ((Bits.lanes on).map fun l => ⟨l, Cause.dielost, 0, BitVec.ofNat 64 (ea l)⟩)
    let range := fun (need : Need) => struck need (fun _ => ⟨5, 0, 7⟩) on
    (r.space = .gl ∨ r.space = .glk →
      (∀ e : Nat → TFault, (∀ l, (e l).kind ≤ 5 ∧ (e l).stage ≤ 3 ∧ (e l).level ≤ 7) →
        (refused .read e → exec (.ld h d r wd f) s = .next (struck .read e on).advance) ∧
        (refused .write e → exec (.st h d r wd f) s = .next (struck .write e on).advance) ∧
        (refused .rw e → exec (.atom h d b c op r wd f) s = .next (struck .rw e on).advance ∧
          exec (.red h b op r wd f) s = .next (struck .rw e on).advance) ∧
        ∀ bad : Lanes, s.cur.slot ≠ trapSlot → (∀ l, bad.getLsbD l = true → executes s h l = true) →
          let rest := on &&& ~~~ bad
          let mixed := fun (need : Need) => ∀ l, executes s h l = true →
            if bad.getLsbD l then refusedAt need e l else Reaches s need wd.bytes (ea l) (x l)
          let sends := fun (i : Instr) (t : State) (o : Nat → MemOp) =>
            exec i s = .next (t.issueOps h rest ((Bits.lanes rest).map o)).advance
          (mixed .read → let t := struck .read e bad
            sends (.ld h d r wd f) t fun l => { access t t.curW .load l (ea l) (x l) with
              n := wd.bytes, ord := f.ord, sc := f.sc, hy := t.curW.hyOf l, ch := f.ch, signed := State.widSigned wd
              dst := t.vdst l d wd
              leased := t.curW.hyOf l == 0 && !f.lh && !(x l).nocache && !State.onExpander (x l).pa }) ∧
          (mixed .write → let t := struck .write e bad
            sends (.st h d r wd f) t fun l => { access t t.curW .store l (ea l) (x l) with
              n := wd.bytes, ord := f.ord, sc := f.sc, ch := f.ch, data := t.vsrc l d wd
              tag := if f.ht then t.curW.hyOf l else 0 })) ∧
      (lost .read → exec (.ld h d r wd f) s = .next gone.advance) ∧
      (lost .write → exec (.st h d r wd f) s = .next gone.advance) ∧
      (lost .rw → exec (.atom h d b c op r wd f) s = .next gone.advance ∧
        exec (.red h b op r wd f) s = .next gone.advance)) ∧
    ((r.space = .sp ∨ ∃ n, r.space = .spc n) → outside →
      exec (.lds h d r wd f) s = .next (range .read).advance ∧ exec (.sts h d r wd f) s = .next (range .write).advance ∧
      exec (.atoms h d b c op r wd f) s = .next (range .rw).advance ∧
      exec (.red h b op r wd f) s = .next (range .rw).advance)

-- control forms (R129 to R161)

/-- R33, R54, R143. How lanes go on. With no live level ending at the instruction and no record waiting at the next address,
the path stands at the next address; at its record's join PC it arrives there, and when all expected lanes have, the record
is freed and one path goes on under the parent.
The model's choices: log 21, 23. -/
def Obligations.PathsGoOn : Prop :=
  ∀ (e : FlowEnv) (w : Warp) (pc : Dword) (len : Nat) (m : Lanes), m ≠ 0 → (∀ n < 4, (w.loops.get n).st ≠ .live) →
    let next := pc + BitVec.ofNat 64 len
    (∀ j, (∀ r k, j = some k → w.joins.get k = some r → r.jpc ≠ next) →
      w.goOn e pc len m j = { w with paths := w.paths ++ [⟨next, m, j, 0, .ready⟩] }) ∧
    (∀ k r, w.joins.get k = some r → r.jpc = next →
      let a := r.arrived ||| m
      (a &&& r.expected ≠ r.expected → ∃ run, w.goOn e pc len m (some k) =
        { w with joins := w.joins.set k (some { r with arrived := a }), run := run }) ∧
      (a &&& r.expected = r.expected → r.parent = none → ∃ run, w.goOn e pc len m (some k) =
        { w with joins := w.joins.set k none, run := run, wdcnt := 0
                 paths := w.paths ++ [⟨next, a, none, 0, if e.held then .trapHold else .ready⟩] }))

/-- R140, R143, R146. The back edge of a loop with no window and no stages, at the instruction at LE, wherever that instruction
sends its lanes: where every lane still in the level comes to it and laps are left, LC counts down and all of them stand at LS;
in the last lap the level ends and they go on at Exit. LC, LS and LE are as SWR has left them for this test.
The model's choices: log 19, 21. -/
def Obligations.LoopBackEdge : Prop :=
  ∀ (e : FlowEnv) (w : Warp) (n : Nat) (m : Lanes), n < 4 → m ≠ 0 →
    let l := w.loops.get n
    l.st = .live → (∀ k < 4, k ≠ n → (w.loops.get k).st ≠ .live) → l.lanes &&& ~~~ l.brk = m → l.wback = 0 → l.rw = 0 →
    l.lx = none → ∀ tgt,
    let lc := l.nlc.getD l.lc
    let ls := l.nls.getD l.ls
    let le := l.nle.getD l.le
    let plain : Loop := { l with ls := ls, le := le, nlc := none, nls := none, nle := none }
    (lc ≠ 1 → ∃ run, w.goTo e l.le tgt m none = { w with
      loops := w.loops.set n { plain with lc := lc - 1 }, wdcnt := 0, run := run
      paths := w.paths ++ [⟨ls, m, none, 0, .ready⟩] }) ∧
    (lc = 1 → ∃ run, w.goTo e l.le tgt m none = { w with
      loops := w.loops.set n { (default : Loop) with ls := ls, le := le }, run := run
      paths := w.paths ++ [⟨le + BitVec.ofNat 64 (e.len le), m ||| l.wexit, none, 0, .ready⟩] })

/-- R32, R132 to R134, R143. Branches: BRA whole, not at all, or split under a new record at its join PC, whose M both sides
keep; JMP with no record; BRX with one path for each address, under a record where it names a join and there is more than one
path. Lanes that a back edge takes are of neither side.
The model's choices: log 21. -/
def Obligations.BranchForms : Prop :=
  ∀ (s : State) (w : Warp), Issuing s w → ∀ (h : Head) (tgt : BitVec 20) (joff : BitVec 12) (dh : BitVec 2) (a : VReg),
    let p := s.curP
    let on := s.execLanes h
    let rest := others s h
    let tg := p.pc + BitVec.ofInt 64 (8 * tgt.toInt)
    let jpc := p.pc + BitVec.ofNat 64 (8 * joff.toNat)
    let off := w.offEdge p.pc p.mask
    let j := w.freeJoin
    let ts := (Bits.lanes on).map fun l => (l, s.rv2 l a.toNat)
    (rest = 0 → on ≠ 0 → exec (.bra h tgt joff dh) s = .next (put s ((gone s w).goTo (env s) p.pc tg p.mask p.j)) ∧
      exec (.jmp h tgt dh) s = .next (put s ((gone s w).goTo (env s) p.pc tg p.mask p.j))) ∧
    (on = 0 → p.mask ≠ 0 → Passes (.bra h tgt joff dh) s w ∧ Passes (.jmp h tgt dh) s w) ∧
    (on ≠ 0 → rest ≠ 0 →
      (rest &&& off = 0 ∨ on &&& off = 0 → exec (.bra h tgt joff dh) s =
        .next (put s (passOn s ((gone s w).goTo (env s) p.pc tg on p.j) rest p.j))) ∧
      (rest &&& off ≠ 0 → on &&& off ≠ 0 →
        let w₁ := { splits s w jpc off with run := Warp.laneKey rest }
        exec (.bra h tgt joff dh) s = .next (put s ((passOn s w₁ rest (some j)).goTo (env s) p.pc tg on (some j)))) ∧
      exec (.jmp h tgt dh) s =
        .next (put s ((passOn s { gone s w with run := 32 } rest p.j).goTo (env s) p.pc tg on p.j))) ∧
    ((∀ l, executes s h l = true → (s.rv2 l a.toNat).toNat % 8 = 0) →
      let gs := State.groups ts
      let n := (gs.filter fun g => g.2 &&& off != 0).length + if rest &&& off = 0 then 0 else 1
      (n ≤ 1 → exec (.brx h a joff) s =
        .next (put s (State.landAll (env s) (passOn s (gone s w) rest p.j) p.pc gs p.j))) ∧
      (1 < n → joff = 0 → exec (.brx h a joff) s =
        .next (put s (State.landAll (env s) (passOn s { gone s w with run := 32 } rest p.j) p.pc gs p.j))) ∧
      (1 < n → joff ≠ 0 → exec (.brx h a joff) s = .next (put s
        (State.landAll (env s) (passOn s { splits s w jpc off with run := 32 } rest (some j)) p.pc gs (some j))))) ∧
    (s.cur.slot ≠ trapSlot → (∃ l, executes s h l = true) →
      (∀ l, executes s h l = true → (s.rv2 l a.toNat).toNat % 8 ≠ 0) →
      Strikes (.brx h a joff) s on Cause.rsvbra (State.wordInfo s.cur.word))

/-- R56, R135 to R137. Calls with room in the core push one entry for the calling lanes, whose links are in flight under the
token, and stand at the target; lanes that do not call stand at the return address under a new record. A return by exactly the lanes of the topmost entry
takes it off, and they stand at their links under its record.
The model's choices: log 11, 21, 99. -/
def Obligations.CallAndReturn : Prop :=
  ∀ (s : State) (w : Warp), Issuing s w → ∀ (h : Head) (d a : VReg) (x : Bool) (off tg : Dword), s.execLanes h ≠ 0 →
    let p := s.curP
    let on := s.execLanes h
    let rest := others s h
    let ret := p.pc + BitVec.ofNat 64 s.cur.len
    let j := if rest = 0 then p.j else some w.freeJoin
    let calls := fun (i : Instr) (tg : Dword) => ∃ w₁,
      Carries h { w with rets := ⟨freeLevelOf w, false, on, j, p.pc⟩ :: w.rets } w₁
        (entry s h on false 0 (later64 s w h d fun _ => ret)) ∧
      let w₂ : Warp := if rest = 0 then gone s w₁
        else (splits s w₁ ret (w.offEdge p.pc p.mask)).goTo (env s) p.pc ret rest j
      exec i s = .next { put s ({ w₂ with run := Warp.laneKey on }.goTo (env s) p.pc tg on j) with nextId := s.nextId + 1 }
    (w.rets.length < 16 → calls (.call h d x off) (p.pc + off <<< 3)) ∧
    (w.rets.length < 16 → tg.toNat % 8 = 0 → (∀ l, executes s h l = true → s.rv2 l a.toNat = tg) →
      calls (.callx h d a) tg) ∧
    (∀ en more, w.rets = en :: more → en.rtd = false → en.mask &&& ~~~ w.exited = on → on &&& ~~~ en.mask = 0 →
      (∀ n < 4, (w.loops.get n).st ≠ .live) → more.head?.all (fun q => !q.rtd) → (more ≠ [] ∨ w.rsdep = 0) →
      exec (.ret h a) s = .next (put s
        (let w₁ := passOn s { gone s w with rets := more, run := 32 } rest p.j
         (State.landAll (env s) w₁ p.pc (State.groups ((Bits.lanes on).map fun l => (l, s.rv2 l a.toNat))) en.jrec).loopTests
           (env s)))) ∧
    (w.rets = [] → w.rsdep = 0 → s.cur.slot ≠ trapSlot → Strikes (.ret h a) s on Cause.retempty 0) ∧
    (∀ en more, w.rets = en :: more → en.rtd = false → on &&& ~~~ en.mask = 0 → en.mask &&& ~~~ w.exited ≠ on →
      s.cur.slot ≠ trapSlot → Strikes (.ret h a) s on Cause.retpart 0)

/-- R138, R139. NOP only goes on. YIELD goes on and ends its turn. SLEEP goes on where its time has come, and else waits for
it. EXIT ends its lanes: they are exited and stand nowhere.
The model's choices: log 15, 21. -/
def Obligations.TurnsAndExit : Prop :=
  ∀ (s : State) (w : Warp), Issuing s w → ∀ (h : Head) (lit : Option Dword) (a : KReg) (rel : Bool),
    let now := BitVec.ofNat 64 (s.pace s.cur.unit.die)
    let at_ := if rel then now + s.rk a.toNat else s.rk a.toNat
    Passes (.nop h lit) s w ∧
    exec (.yield h) s = .next (put s (if s.execLanes h = 0 then onward s w else { onward s w with run := 32 })) ∧
    (at_.toNat ≤ now.toNat ∨ s.execLanes h = 0 → Passes (.sleep h a rel) s w) ∧
    (now.toNat < at_.toNat → s.execLanes h ≠ 0 → exec (.sleep h a rel) s = .next (put s (waiting s w (.sleep at_)))) ∧
    (s.execLanes h = 0 → Passes (.exit h) s w) ∧
    (s.execLanes h ≠ 0 → (∀ l, executes s h l = true → w.hyOf l = 0) → w.colls = [] → ∃ t w', exec (.exit h) s = .next t ∧
      t.warp s.cur.unit s.cur.slot = some w' ∧ w'.exited = w.exited ||| s.execLanes h ∧ w'.v = w.v ∧ w'.k = w.k ∧
      w'.p = w.p ∧ t.mem = s.mem)

/-- R141, R142, R145. LROT arms a level with its window; LSET starts one, the path going on into the body, or past it where the
count is 0; LBRK takes its lanes out of a level and every live one above it. A level that is in the way is a fault.
The model's choices: log 19, 20, 21, 100. -/
def Obligations.LoopForms : Prop :=
  ∀ (s : State) (w : Warp), Issuing s w → ∀ (h : Head) (lvl : BitVec 2) (x : Bool) (stg : BitVec 4) (size : BitVec 9)
    (base : BitVec 8) (cnt : LsetCount) (len : BitVec 11) (n : Nat), s.execLanes h ≠ 0 → s.level lvl = some n →
    let p := s.curP
    let on := s.execLanes h
    let l := w.loops.get n
    let rw := rwWord stg.toNat size.toNat base.toNat
    let count := match cnt with | .imm c => c.toNat | .k r => (s.rk r.toNat).toNat % 2 ^ 32
    let ls := p.pc + BitVec.ofNat 64 s.cur.len
    let le := ls + BitVec.ofNat 64 (8 * (len.toNat - 1))
    let loop := fun (w : Warp) (l : Loop) => { w with loops := w.loops.set n l }
    (l.st = .free → windowCauses w n rw = [] → exec (.lrot h lvl x stg size base) s =
      .next (put s (onward s (loop w { l with rw := rw, rb := 0, st := .armed })))) ∧
    (l.st ≠ .free → s.cur.slot ≠ trapSlot → Strikes (.lrot h lvl x stg size base) s on Cause.loopbusy 0) ∧
    (l.st = .live → s.cur.slot ≠ trapSlot → Strikes (.lset h lvl x cnt len) s on Cause.loopbusy 0) ∧
    (l.st ≠ .live → count = 0 → exec (.lset h lvl x cnt len) s = .next (put s (passOn s
      ((gone s w).goTo (env s) p.pc (le + BitVec.ofNat 64 ((env s).len le)) on p.j) (others s h) p.j))) ∧
    (l.st ≠ .live → 0 < count → count + Warp.winStg l ≤ 2 ^ 32 → exec (.lset h lvl x cnt len) s = .next (put s
      (let lc := if Warp.winStg l = 0 then count else count + Warp.winStg l - 1
       let w₁ := loop (gone s w) { l with
         lc := BitVec.ofNat 32 lc, ls := ls, le := le, lanes := on, brk := 0, wexit := others s h, wback := 0, lx := p.j
         st := .live, nlc := none, nls := none, nle := none }
       let w₂ := if Warp.winStg l = 0 then w₁
         else { w₁ with sp := (w.sp &&& ~~~ BitVec.ofNat 8 (2 ^ Warp.winStg l - 1)) ||| 1 }
       w₂.goOn (env s) p.pc s.cur.len on p.j))) ∧
    (s.cur.slot ≠ trapSlot → (l.st ≠ .live ∨ on &&& ~~~ (l.lanes &&& ~~~ l.brk) ≠ 0) →
      Strikes (.lbrk h lvl) s on Cause.lbrklvl 0) ∧
    (l.st = .live → on &&& ~~~ (l.lanes &&& ~~~ l.brk) = 0 → ∃ w₁, exec (.lbrk h lvl) s = .next (put s
        (((passOn s w₁ (others s h) p.j).loopTests (env s)).collCheck (env s))) ∧
      w₁ = { gone s w with loops := w₁.loops, run := if others s h = 0 then 32 else Warp.laneKey (others s h) } ∧
      ∀ k < 4, w₁.loops.get k =
        let lk := w.loops.get k
        { lk with
          brk := if n ≤ k ∧ lk.st = .live then lk.brk ||| (on &&& lk.lanes) else lk.brk
          wexit := if k = n then lk.wexit ||| on else lk.wexit })

/-- R140, R144. Levels above the innermost call are out of reach: a level operand beyond level 3 is a fault for all three loop
forms; and register numbers turn within the window of a live level, one place for one place. -/
def Obligations.LoopLevelsAndWindows : Prop :=
  (∀ (s : State) (w : Warp), Issuing s w → ∀ (h : Head) (lvl : BitVec 2) (x : Bool) (stg : BitVec 4) (size : BitVec 9)
    (base : BitVec 8) (cnt : LsetCount) (len : BitVec 11), s.execLanes h ≠ 0 → s.level lvl = none → s.cur.slot ≠ trapSlot →
    Strikes (.lrot h lvl x stg size base) s (s.execLanes h) Cause.looplvl 0 ∧
    Strikes (.lset h lvl x cnt len) s (s.execLanes h) Cause.looplvl 0 ∧
    Strikes (.lbrk h lvl) s (s.execLanes h) Cause.looplvl 0) ∧
  (∀ (w : Warp) (x : Nat), x < 256 →
    ((∀ n < 4, (w.loops.get n).st ≠ .live ∨ Warp.winSize (w.loops.get n) = 0) → w.phys x = x) ∧
    (∀ n < 4, (∀ k < 4, k ≠ n → (w.loops.get k).st ≠ .live) →
      let l := w.loops.get n
      let b := l.rw.toNat % 256
      let z := l.rw.toNat / 256 % 512
      l.st = .live → z ≠ 0 → b + z ≤ 256 →
        (b ≤ x → x < b + z → w.phys x = b + (x - b + l.rb.toNat % 256) % z) ∧ (x < b ∨ b + z ≤ x → w.phys x = x)))

/-- R147 to R150. Team hurdles: an arrival counts its lanes, sets their arrived bits and records the phase; the hurdle turns
when enough have arrived; with no arrival to wait for, or none executing, or in the trap slot, the path goes on. While the
lanes' own LSU accesses are not performed, an arrival is held at issue.
The model's choices: log 22, 101. -/
def Obligations.TeamHurdleForms : Prop :=
  ∀ (s : State) (w : Warp), Issuing s w → ∀ (h : Head) (x : Bool) (hd : BitVec 4) (n : BitVec 11) (t : Team),
    let on := s.execLanes h
    let u := s.cur.unit
    let b := t.hurdles.get hd.toNat
    let counted := s.modTeam u w.team (fun t => { t with
      hurdles := t.hurdles.set hd.toNat { b with exp := if b.cnt = 0 then n.toNat else b.exp, cnt := b.cnt + Bits.count on } })
    let arrived := counted.modCur (fun w => { w with
      arr := w.arr.modify hd.toNat fun y => y ||| on
      aph := w.aph.modify hd.toNat fun y => if b.ph then y ||| on else y &&& ~~~ on })
    (on = 0 ∨ s.cur.slot = trapSlot → Passes (.harr h x hd n) s w ∧ Passes (.hwt h x hd n) s w ∧ Passes (.hurd h x hd n) s w) ∧
    (on ≠ 0 → s.cur.slot ≠ trapSlot → s.team? u w.team = some t →
      (s.lsuBusy u s.cur.slot on = true →
        exec (.harr h x hd n) s = .next (put s (waiting s w .reissue)) ∧
        exec (.hurd h x hd n) s = .next (put s (waiting s w .reissue))) ∧
      (s.lsuBusy u s.cur.slot on = false → (b.cnt = 0 ∨ n.toNat = b.exp) →
        exec (.harr h x hd n) s = .next (arrived.advance.hurdleCheck u w.team hd.toNat) ∧
        exec (.hurd h x hd n) s = .next ((arrived.awaitHurdle on hd.toNat).hurdleCheck u w.team hd.toNat)) ∧
      (s.lsuBusy u s.cur.slot on = false → b.cnt ≠ 0 → n.toNat ≠ b.exp →
        Strikes (.harr h x hd n) s on Cause.hurdexp 0 ∧ Strikes (.hurd h x hd n) s on Cause.hurdexp 0) ∧
      exec (.hwt h x hd n) s = .next (put s (State.passHurdle (env s) hd.toNat b.ph (waiting s w (.teamHurdle hd.toNat on)))))

/-- R41, R158. REGX answers 1 at once off the shader cores and for no granules, 0 at once in a trap slot and beyond 32
granules; otherwise the request queues in its core and the path waits. REGS gives up the highest granules and what they
hold; a window that reaches into them is a fault.
The model's choices: log 34. -/
def Obligations.RegisterGranules : Prop :=
  ∀ (s : State) (w : Warp), Issuing s w → ∀ (h : Head) (d : PReg) (x : Bool) (n : BitVec 6),
    let on := s.execLanes h
    let u := s.cur.unit
    let keep := w.gran - n.toNat
    (on = 0 → Passes (.regx h d x n) s w ∧ Passes (.regs h x n) s w) ∧
    (u.kind ≠ .sc ∨ n = 0 → Flies (.regx h d x n) s w h (laterP s h d fun _ => true)) ∧
    (u.kind = .sc → n ≠ 0 → s.cur.slot = trapSlot ∨ 32 < w.gran + n.toNat →
      Flies (.regx h d x n) s w h (laterP s h d fun _ => false)) ∧
    (on ≠ 0 → u.kind = .sc → n ≠ 0 → s.cur.slot ≠ trapSlot → w.gran + n.toNat ≤ 32 → ∃ w₁,
      exec (.regx h d x n) s = .next { put (s.modCore u fun c => { c with
        regxQ := c.regxQ ++ [⟨s.cur.slot, s.cur.path, on, n.toNat, d, s.cur.len⟩] }) (waiting s w₁ .regx) with
          nextId := s.nextId + 1 } ∧ Carries h w w₁ (entry s h on false 1 [])) ∧
    (u.kind ≠ .sc ∨ s.cur.slot = trapSlot → Passes (.regs h x n) s w) ∧
    (on ≠ 0 → u.kind = .sc → s.cur.slot ≠ trapSlot →
      ((∀ k < 4, (w.loops.get k).st = .free ∨ Warp.winSize (w.loops.get k) = 0 ∨
          Warp.winBase (w.loops.get k) + Warp.winSize (w.loops.get k) ≤ 8 * keep) →
        ∃ w₁, exec (.regs h x n) s = .next (put s (onward s w₁)) ∧ FlowOnly w₁ (onward s w₁) ∧
          w₁ = { w with gran := keep, v := w₁.v } ∧
          ∀ i, w₁.v.get i = if i % 256 < 8 * keep then w.v.get i else 0) ∧
      (∀ k < 4, (w.loops.get k).st ≠ .free → Warp.winSize (w.loops.get k) ≠ 0 →
        8 * keep < Warp.winBase (w.loops.get k) + Warp.winSize (w.loops.get k) →
        Strikes (.regs h x n) s on Cause.winregs 0))

/-- R151 to R155. SPAWN, TASK and BATON wait at issue for their lanes' own LSU accesses; then the lanes of SPAWN and BATON
are served in ascending order, and the path waits with those left over; TASK takes a fence slot and queues at its tile. A
record takes the lowest free pool slot and goes to the end of the bin of its entry; where that bin is full the lane waits and
keeps the slot.
The model's choices: log 46, 49, 98, 102. -/
def Obligations.WorkCreation : Prop :=
  ∀ (s : State) (w : Warp), Issuing s w → ∀ (h : Head) (d a : VReg) (kd ka : KReg) (x : Bool) (words : BitVec 4) (off : BitVec 60)
    (far : Dword), let on := s.execLanes h
    let u := s.cur.unit
    let e := s.curP.pc + off.signExtend 64 <<< 3
    let recs := (Bits.lanes on).map fun l => (l, (List.range (words.toNat + 1)).map fun i => s.rv l (a.toNat + i))
    let s₁ := s.addPend h on false 1 []
    let forms : List Instr := [.spawn h a x words off, .task h kd ka x far, .baton h d a x words off]
    (on = 0 → ∀ i ∈ forms, Passes i s w) ∧
    (on ≠ 0 → s.lsuBusy u s.cur.slot on = true → ∀ i ∈ forms, exec i s = .next (put s (waiting s w .reissue))) ∧
    (on ≠ 0 → s.lsuBusy u s.cur.slot on = false →
      (∀ t left pool, State.spawnLanes u (s.cur.slot != trapSlot) w.ctx w.prio e s₁ none recs = (t, left, pool, []) →
        exec (.spawn h a x words off) s = .next (if left = [] then (t.pendDone t.cur.unit t.cur.slot s.nextId []).advance
          else t.waitFor (.work false s.nextId 0 e left [] (t.pace t.cur.unit.die) pool))) ∧
      (∀ tile k, s.taskTile u w.ctx (s.rk (ka.toNat + 1)).toNat = some tile → s.freeFslot w.ctx = some k →
        let t := (s.newHandle w.ctx k).2
        let hd := (s.newHandle w.ctx k).1
        exec (.task h kd ka x far) s = .next
          ((t.queueTask tile ⟨s.curP.pc + far <<< 3, hd, w.prio, w.prio, t.pace tile.die, s.rk ka.toNat, [], [],
            t.taskIssuer u w⟩).inFlight h on false 0 [State.kres kd.toNat (hd.setWidth 64)]).advance) ∧
      (∀ tile, s.taskTile u w.ctx (s.rk (ka.toNat + 1)).toNat = some tile → s.freeFslot w.ctx = none →
        exec (.task h kd ka x far) s = .next (put s (waiting s w .reissue))) ∧
      (s.taskTile u w.ctx (s.rk (ka.toNat + 1)).toNat = none → s.cur.slot ≠ trapSlot →
        Strikes (.task h kd ka x far) s on Cause.tasksel 0) ∧
      (let ks := (List.range 32).map fun i => s.rk i
       let r := State.batonLanes u w.ctx w.prio (s₁.taskIssuer u w) e ks s₁ recs
       let t := r.1.modCur fun (w' : Warp) => { w' with pend := w'.pend.map fun (q : Pend) =>
         if q.id == s.nextId then { q with res := r.2.2.map fun p => ⟨.v, w.phys d.toNat, p.1, p.2.setWidth 64⟩ } else q }
       exec (.baton h d a x words off) s = .next (if r.2.1 = [] then (t.pendDone t.cur.unit t.cur.slot s.nextId []).advance
         else t.waitFor (.work true s.nextId (w.phys d.toNat) e r.2.1 ks (t.pace t.cur.unit.die) none)))) ∧
    (∀ (ctx prio n b : Nat) (bin : Bin) (r : List Word) (user : Bool),
      let taken := s.modCtxRt ctx fun c => { c with poolUsed := c.poolUsed ++ [n] }
      (s.poolTake ctx = none → s.spawnOne u user ctx prio e r none = .waits s none) ∧
      (s.poolTake ctx = some n → s.binKeyed u e = some b → (s.core u).bins.get b = some bin →
        (bin.slots.length + 1 < bin.thr → ∃ t, s.spawnOne u user ctx prio e r none = .done t n ∧
          (t.core u).bins.get b = some { bin with slots := bin.slots ++ [n] } ∧
          (t.ctxRt ctx).poolUsed = (s.ctxRt ctx).poolUsed ++ [n]) ∧
        (bin.thr ≤ bin.slots.length → s.spawnOne u user ctx prio e r none = .waits taken (some n))))

/-- R28, R156, R157. FTEST tells of each handle whether it is complete; FWAIT waits until all its lanes' handles are, frees
them and acquires; CANCEL stops the work that has not begun and reports what it found. A handle of an earlier generation
is a fault.
The model's choices: log 47, 48. -/
def Obligations.HandleForms : Prop :=
  ∀ (s : State) (w : Warp), Issuing s w → ∀ (h : Head) (d a : VK) (pd : PReg),
    let on := s.execLanes h
    let hnd := fun l => ((s.srcVK l a).setWidth 32 : Word)
    let hs := (Bits.lanes on).map fun l => (l, hnd l)
    ((∀ l, executes s h l = true → hnd l = 0 ∨ s.handleOk w.ctx (hnd l) = true) →
      Flies (.ftest h pd a) s w h (laterP s h pd fun l => s.handleDone w.ctx (hnd l)) ∧
      ((∀ l, executes s h l = true → s.ownHandle (hnd l) true = false) → on ≠ 0 →
        ((∃ l, executes s h l = true ∧ s.handleDone w.ctx (hnd l) = false) →
          exec (.fwait h d a) s = .next (put s (waiting s w .reissue))) ∧
        ((∀ l, executes s h l = true → s.handleDone w.ctx (hnd l) = true) →
          let t := hs.foldl (fun t p => t.freeHandle w.ctx p.2) s
          exec (.fwait h d a) s = .next ((t.acquireAll s.cur.unit).inFlight h on false 0 (t.vkRes d (hs.map fun p =>
            (p.1, if p.2 = 0 then 0 else (s.fslot w.ctx (State.handleSlot p.2)).status)))).advance)) ∧
      ((∀ l, executes s h l = true → s.ownHandle (hnd l) false = false) →
        let r := State.cancelAll w.ctx s (match a with | .k _ => hs.take 1 | .v _ => hs)
        exec (.cancel h d a) s = .next (r.2.inFlight h on false 0 (r.2.vkRes d r.1)).advance)) ∧
    (on ≠ 0 → s.cur.slot ≠ trapSlot →
      (∀ l, executes s h l = true → hnd l ≠ 0 ∧ s.handleOk w.ctx (hnd l) = false ∧ s.ownHandle (hnd l) true = false ∧
        s.ownHandle (hnd l) false = false ∧ State.handleGen (hnd l) = 0) →
      Strikes (.ftest h pd a) s on Cause.hstale 0 ∧ Strikes (.fwait h d a) s on Cause.hstale 0 ∧
      Strikes (.cancel h d a) s on Cause.hstale 0) ∧
    (∀ (ctx : Nat) (x : Word), let r := s.cancelOne ctx x
      (s.handleDone ctx x = true ↔ x = 0 ∨ (s.fslot ctx (State.handleSlot x)).st ≠ 1) ∧
      (s.handleDone ctx x = true → r = (2, s)) ∧
      (s.handleDone ctx x = false →
        (∀ p ∈ s.cores, (∃ t ∈ p.2.taskQ, t.handle = x) → s.runs (unitOf p.1) ctx = true → r.1 = 0) ∧
        ((∀ p ∈ s.cores, ∀ t ∈ p.2.taskQ, t.handle ≠ x) →
          (s.launchTaken ctx x = true → r = (3, s)) ∧
          (s.launchTaken ctx x = false → s.isDoneHandle ctx x = true → r = (0, s.completeHandle ctx x 1)) ∧
          (s.launchTaken ctx x = false → s.isDoneHandle ctx x = false → r = (1, s)))))

/-- R159, R160, R363, R367. TRAP strikes its lanes with SWTRAP and its code. Outside the trap slot ERET, PARK and UNPARK are
PRIVOP; in it ERET ends the trap, and PARK and UNPARK act on the lanes named of a warp of the context on the core.
The model's choices: log 25, 27. -/
def Obligations.TrapForms : Prop :=
  ∀ (s : State) (w : Warp), Issuing s w → ∀ (h : Head) (x : Bool) (code : BitVec 8) (a b : KReg),
    let on := s.execLanes h
    let u := s.cur.unit
    let privileged : List Instr := [.eretRetry h, .eretSkip h, .eretKill h, .park h a b, .unparkRetry h a b, .unparkSkip h a b]
    let m := ((s.rk b.toNat).setWidth 32 : Lanes)
    (on = 0 → Passes (.trap h x code) s w ∧ ∀ i ∈ privileged, Passes i s w) ∧
    (on ≠ 0 → s.cur.slot ≠ trapSlot → Strikes (.trap h x code) s on Cause.swtrap (BitVec.ofNat 64 (0x18 * 2 ^ 56 + code.toNat)) ∧
      ∀ i ∈ privileged, Strikes i s on Cause.privop 0) ∧
    (on ≠ 0 → s.cur.slot = trapSlot →
      exec (.eretKill h) s = .next (s.closeTrap .kill) ∧
      (w.k.get 62 = 0 → exec (.eretRetry h) s = .next (s.closeTrap .retry) ∧ exec (.eretSkip h) s = .next (s.closeTrap .skip)) ∧
      (w.k.get 62 ≠ 0 → s.storesOut u = true → exec (.eretRetry h) s = .next (put s (waiting s w .reissue)) ∧
        exec (.eretSkip h) s = .next (put s (waiting s w .reissue))) ∧
      (w.k.get 62 ≠ 0 → s.storesOut u = false → s.reloadBad = false →
        exec (.eretRetry h) s = .next (s.reload.closeTrap .retry) ∧ exec (.eretSkip h) s = .next (s.reload.closeTrap .skip)) ∧
      (∀ n v, s.warp u n = some v → n ≠ trapSlot → v.ctx = w.ctx → Bits.field (s.rk a.toNat).toNat 16 8 = n →
        (s.rk a.toNat).setWidth 32 = warpWord u n v.widx →
        exec (.park h a b) s = .next (s.parkSome u n m).advance ∧
        exec (.unparkRetry h a b) s = .next (s.resumeLanes u n m .retry none).advance ∧
        exec (.unparkSkip h a b) s = .next (s.resumeLanes u n m .skip none).advance))

/-- R366, R368, R369. The trap slot takes the trap that waits first: the trap registers take the record, the frame is stored
where k62 asks for one, and the handler starts at TRAPPC with all its lanes and its registers as they were. ERET closes
the trap: of the lanes of FMASK those whose record admits the mode are parked no longer, the others are parked again.
The model's choices: log 26, 27. -/
def Obligations.TrapEntryAndReturn : Prop :=
  (∀ (s : State) (u : UnitId) (d : CtxDesc) (q : TrapReq) (rest : List TrapReq) (w : Warp),
    (s.unitSlice u).st = .running → (s.unitSlice u).ctx = some d → (s.core u).trap = none → (s.core u).trapQ = q :: rest →
    s.warp u trapSlot = some w → d.trappc ≠ 0 →
    let base := (w.k.get 62).toNat / 4096 * 4096
    let s₁ := s.modCore u fun c => { c with trapQ := rest }
    let ds := s₁.frameDwords u q
    let started : Warp := { w with
      paths := [⟨d.trappc, Bits.firstLanes w.width, none, 0, .ready⟩]
      joins := [], rets := [], rsdep := 0, exited := 0, run := 0, wdTrap := false }
    let taken := fun (t : State) => (t.core u).trapQ = rest ∧ t.warp u trapSlot = some started ∧
      (∀ n, n ≠ trapSlot → t.warp u n = s.warp u n) ∧ ∃ o, (t.core u).trap = some o ∧ o.slot = q.slot ∧ o.lanes = q.lanes ∧
        o.fmask = q.lanes ∧ o.fpc = q.rec_.pc ∧ o.faddr = q.rec_.addr ∧ o.finfo = q.rec_.info ∧
        o.fwarp = s.warpIdent u q.slot ∧ o.fcause.toNat = q.rec_.cause.toNat + 256 * q.rec_.res.toNat
    (w.k.get 62 = 0 → ∃ t, exec (.trapTaken u) s = .next t ∧ taken t ∧ t.mem = s.mem) ∧
    (w.k.get 62 ≠ 0 → (∀ i, 4096 * i < 8 * ds.length → ∃ x, s₁.xlate u false .write (base + 4096 * i) = .ok x) →
      ∃ t, exec (.trapTaken u) s = .next t ∧ taken t ∧ t.mem = (s₁.ctxStoreDwords d.ctxid base ds).mem)) ∧
  (∀ (s : State) (mode : State.Mode) (o : OpenTrap) (n : Nat) (w : Warp),
    (s.core s.cur.unit).trap = some o → Bits.field o.fwarp.toNat 16 8 = n → n ≠ trapSlot →
    s.warp s.cur.unit n = some w → (s.core s.cur.unit).latches = [] →
    let t := s.closeTrap mode
    (t.core s.cur.unit).trap = none ∧ ∃ w', t.warp s.cur.unit n = some w' ∧
      ∀ l, o.fmask.getLsbD l = true → ((∃ p ∈ w'.parked, p.lane = l) ↔
        ∃ p ∈ w.parked, p.lane = l ∧ State.admits mode p.rec_.res = false))

/-- R5, R48, R49, R119, R146, R161. SRD gives each lane the special register, FNEW a new handle; SWR writes it, once for the path
but for HY; LC, LS and LE of a live level change at its next back-edge test; read-only bits stay 0. Privileged registers fault
outside the trap slot, read-only ones on a write, values out of their range, and a window of a level in use.
R48, R372, R373. What the special registers hold for a lane of the issuing warp.
The model's choices: log 84, 97. -/
def Obligations.SpecialRegisters : Prop :=
  (∀ (s : State) (w : Warp), Issuing s w → ∀ (h : Head) (d : VReg) (kd : KReg) (dst a : VK) (x : Bool) (spec : BitVec 12),
     let sp := spec.toNat
     let on := s.execLanes h
     let u := s.cur.unit
     let val := fun l => match a with | .k r => s.rk r.toNat | .v r => s.srcW l r (Spec.wide sp)
     let v := val ((s.firstLane h).getD 0)
     let v32 := (v.setWidth 32 : Word)
     let writes := fun (f : Warp → Warp) => exec (.swr h a x spec) s = .next (put s (onward s (f w)))
     let loop := fun n (f : Loop → Loop) (w : Warp) => { w with loops := w.loops.modify n f }
     let refused := Strikes (.swr h a x spec) s on Cause.specval (State.wordInfo s.cur.word)
     (Spec.priv sp = false ∨ s.cur.slot = trapSlot → sp ≠ 0x073 →
       LaneW (.srd h (.v d) x spec) s w h d (Spec.wide sp) (fun l => s.special sp l) ∧
       Uniform (.srd h (.k kd) x spec) s w h kd (s.special sp 0)) ∧
     (on = 0 → Passes (.srd h dst x spec) s w ∧ Passes (.swr h a x spec) s w) ∧
     (on ≠ 0 → sp = 0x073 → s.freeFslot w.ctx = none → exec (.srd h dst x spec) s = .next (put s (waiting s w .reissue))) ∧
     (on ≠ 0 → sp = 0x073 → ∀ k, s.freeFslot w.ctx = some k →
       let hd := (s.newHandle w.ctx k).1
       let t := (s.newHandle w.ctx k).2.modCtxRt w.ctx fun c => { c with fnew := c.fnew ++ [hd] }
       exec (.srd h dst x spec) s = .next (t.inFlight h on false 0 (match dst with
         | .k d => [State.kres d.toNat (hd.setWidth 64)]
         | .v d => (Bits.lanes on).flatMap fun l => t.vres2 l d.toNat (hd.setWidth 64))).advance) ∧
     (on ≠ 0 → s.cur.slot ≠ trapSlot → Spec.priv sp = true →
       Strikes (.srd h dst x spec) s on Cause.privspec 0 ∧ Strikes (.swr h a x spec) s on Cause.privspec 0) ∧
     (on ≠ 0 → s.cur.slot ≠ trapSlot → Spec.priv sp = false → Spec.ro sp = true →
       Strikes (.swr h a x spec) s on Cause.specro 0) ∧
     (on ≠ 0 → (∀ n < 4,
       (sp = 0x010 + n → writes (loop n fun l => if l.st = .live then { l with nlc := some v32 } else { l with lc := v32 })) ∧
       (sp = 0x014 + n → v.toNat % 8 = 0 →
         writes (loop n fun l => if l.st = .live then { l with nls := some v } else { l with ls := v })) ∧
       (sp = 0x018 + n → v.toNat % 8 = 0 →
         writes (loop n fun l => if l.st = .live then { l with nle := some v } else { l with le := v })) ∧
       (sp = 0x014 + n ∨ sp = 0x018 + n → v.toNat % 8 ≠ 0 → s.cur.slot ≠ trapSlot → refused) ∧
       (sp = 0x01C + n →
         ((w.loops.get n).st = .free → windowCauses w n (v32 &&& 0x0F01FFFF) = [] →
           writes (loop n fun l => { l with rw := v32 &&& 0x0F01FFFF })) ∧
         ((w.loops.get n).st ≠ .free → s.cur.slot ≠ trapSlot → Strikes (.swr h a x spec) s on Cause.loopbusy 0)) ∧
       (let size := Warp.winSize (w.loops.get n)
        let off := v32.toNat % 256
        let fits := if size = 0 then off = 0 else off < size
        (sp = 0x020 + n → fits → writes (loop n fun l => { l with rb := BitVec.ofNat 32 off })) ∧
        (sp = 0x020 + n → ¬ fits → s.cur.slot ≠ trapSlot → refused))) ∧
       (sp = 0x024 → writes fun w => { w with sp := v.setWidth 8 }) ∧
       (sp = 0x031 → writes fun w => { w with hov := v }) ∧
       (sp = 0x040 → ∀ t, s.team? u w.team = some t →
         let g := v &&& 0x73FFFFFFF
         (State.gngOk w t.nwarps g.toNat = true → writes fun w => { w with gng := g }) ∧
         (State.gngOk w t.nwarps g.toNat = false → s.cur.slot ≠ trapSlot →
           Strikes (.swr h a x spec) s on Cause.rsvgng (State.wordInfo s.cur.word))) ∧
       (sp = 0x070 → writes fun w => { w with seed := if v32 = 0 then 1 else v32 }) ∧
       (0x100 ≤ sp → sp ≤ 0x17F → exec (.swr h a x spec) s = .next (put
         (s.modCore u fun c => { c with sq := c.sq.set (sp - 0x100) v }) (onward s w))) ∧
       (sp = 0x030 → (∀ l, executes s h l = true → (val l).toNat % 256 = 0 ∨
           (s.hypAt w.ctx ((val l).toNat % 256)).st = HEnt.opened) →
         exec (.swr h a x spec) s = .next ((Bits.lanes on).foldl
           (fun t l => t.setHy u s.cur.slot l ((val l).toNat % 256)) s).advance) ∧
       (s.cur.slot = trapSlot →
         (sp = 0x072 → writes fun w => { w with wdog := v32 &&& 0x00FFFFFF }) ∧
         (sp = 0x800 → exec (.swr h a x spec) s = .next (s.modCtxRt w.ctx fun c =>
           { c with desc := c.desc.map fun e => { e with cfg := v.setWidth 2 } }).advance) ∧
         (∀ o, (s.core u).trap = some o →
           let sets := fun (o : OpenTrap) => exec (.swr h a x spec) s =
             .next (s.modCore u fun c => { c with trap := some o }).advance
           (sp = 0x802 → sets { o with fpc := v }) ∧ (sp = 0x803 → sets { o with fmask := v32 }) ∧
           (sp = 0x805 → sets { o with fwarp := v32 }))))) ∧
  (∀ (s : State) (w : Warp), Issuing s w → ∀ (l : Nat),
     let u := s.cur.unit
     let n := fun (x : Nat) => BitVec.ofNat 64 x
     let x := fun k => s.special k l
     x 0x000 = n l ∧ x 0x001 = (s.warpIdent u s.cur.slot).setWidth 64 ∧
     (w.teamIdx < 2 ^ 28 → x 0x002 = n (w.teamIdx + 2 ^ 28 * min w.heat 15)) ∧
     (u.idx < 2 ^ 8 → x 0x003 = n (u.idx + 2 ^ 8 * kindCode u.kind)) ∧ x 0x004 = n u.die ∧ x 0x005 = n (s.pace u.die) ∧
     (∀ i < 4, x (0x010 + i) = (w.loops.get i).lc.setWidth 64 ∧ x (0x014 + i) = (w.loops.get i).ls ∧
       x (0x018 + i) = (w.loops.get i).le ∧ x (0x01C + i) = (w.loops.get i).rw.setWidth 64 ∧
       x (0x020 + i) = (w.loops.get i).rb.setWidth 64) ∧
     x 0x024 = w.sp.setWidth 64 ∧ x 0x030 = (w.hyOf l).setWidth 64 ∧ x 0x031 = w.hov ∧ x 0x040 = w.gng ∧
     (∀ i < 16, x (0x050 + i) = n ((s.core u).chans.get i).wm) ∧ x 0x070 = w.seed.setWidth 64 ∧ x 0x071 = n (s.congLevel u) ∧
     x 0x072 = w.wdog.setWidth 64 ∧ (∀ i < 128, x (0x100 + i) = (s.core u).sq.get i) ∧
     x 0x800 = (s.ctxDesc w.ctx).cfg.setWidth 64 ∧
     ∀ o, (s.core u).trap = some o → x 0x801 = o.fcause.setWidth 64 ∧ x 0x802 = o.fpc ∧ x 0x803 = o.fmask.setWidth 64 ∧
       x 0x804 = o.faddr ∧ x 0x805 = o.fwarp.setWidth 64 ∧ x 0x806 = o.finfo)

/-- R147, R149, R150. A memory hurdle acts once for the path, on the word that k register A names: an arrival is one release
of the lanes' number at the scope given; HURD waits for it to be performed; HWT reads the phase and waits while lanes hold
that phase. A word not aligned to 8 bytes is RSVHURD.
The model's choices: log 24. -/
def Obligations.MemoryHurdleForms : Prop :=
  ∀ (s : State) (w : Warp), Issuing s w → ∀ (h : Head) (x : Bool) (sc : MemHurdleScope) (d : PReg) (a : KReg) (xl : Xlat),
    let on := s.execLanes h
    let ea := (s.rk a.toNat).toNat
    let forms : List Instr := [.harrMem h x sc d a, .hurdMem h x sc a, .hwtMem h x sc d a]
    let arrival := { access s w .hurdle (Warp.laneKey on) ea xl with
      lanes := on, n := 8, data := Bits.count on, ord := .release, sc := State.memScope sc }
    (on = 0 → ∀ i ∈ forms, Passes i s w) ∧
    (on ≠ 0 → s.cur.slot ≠ trapSlot → ea % 8 ≠ 0 → ∀ i ∈ forms, Strikes i s on Cause.rsvhurd (State.wordInfo s.cur.word)) ∧
    (on ≠ 0 → Reaches s .rw 8 ea xl →
      exec (.harrMem h x sc d a) s = .next (s.issueOps h on [{ arrival with
        dst := (Bits.lanes on).map fun l => State.pres l d.toNat false }]).advance ∧
      exec (.hurdMem h x sc a) s = .next ((s.issueOps h on [arrival]).waitFor (.memArrival (s.nextId + 1)))) ∧
    (on ≠ 0 → Reaches s .read 8 ea xl →
      let ph := (s.peek xl.pa 8).testBit 63
      let t := s.modAgent (unitNo s.cur.unit) fun g => { g with pts := later g.pts (s.lineTs xl.pa).wts }
      let had := Bits.laneSet ((Bits.lanes on).filter fun l => s.rp l d.toNat)
      ((∀ l, executes s h l = true → s.rp l d.toNat ≠ ph) → s.held s.cur.unit s.cur.slot = false →
        exec (.hwtMem h x sc d a) s = .next (t.modCur fun w => { w with wdcnt := 0 }).advance) ∧
      ((∃ l, executes s h l = true ∧ s.rp l d.toNat = ph) → exec (.hwtMem h x sc d a) s = .next (t.waitFor
        (.memHurdle (s.rk a.toNat) xl.pa (on &&& if ph then had else ~~~ had) had))))

/-- R176 to R179. FENCE and FXP go on once nothing they wait for is out, and wait till then; LEASE sets the warp's lease;
CFLUSH drops the agent's copies of its lines; PREF brings its lines, and does nothing where a line cannot be had.
The model's choices: log 40. -/
def Obligations.FencesAndLines : Prop :=
  ∀ (s : State) (w : Warp), Issuing s w → ∀ (h : Head), Settled s w h → ∀ (ord : MemOrd) (sc : Scope) (x : Bool)
    (prod cons : BitVec 7) (r : MemRef) (n : Wid) (f : MemFlags) (imm : BitVec 12) (k : KReg) (l va : Nat) (xl : Xlat),
    let on := s.execLanes h
    let mine := fun (o : MemOp) => o.unit = s.cur.unit ∧ o.slot = s.cur.slot ∧ o.path = .lsu ∧ o.lanes &&& on ≠ 0
    let reads := fun (o : MemOp) => o.kind = .load ∨ o.kind = .atomic ∨ o.kind = .scrLoad ∨ o.kind = .scrAtomic
    let holds := fun (o : MemOp) => mine o ∧
      ((acquires ord = true ∧ reads o) ∨ (releases ord = true ∧ State.settled o sc = false))
    let lines := (Bits.lanes on).flatMap (s.linesOf r n)
    ((∀ o ∈ s.ops, ¬ holds o) → Passes (.fence h ord sc) s w) ∧
    ((∃ o ∈ s.ops, holds o) → exec (.fence h ord sc) s = .next (put s (waiting s w .reissue))) ∧
    (on = 0 ∨ s.fxpBusy on prod sc = false → Passes (.fxp h x prod cons sc) s w) ∧
    (on ≠ 0 → s.fxpBusy on prod sc = true → exec (.fxp h x prod cons sc) s = .next (put s (waiting s w .reissue))) ∧
    (on = 0 → Passes (.lease h x (.imm imm)) s w ∧ Passes (.lease h x (.k k)) s w) ∧
    (on ≠ 0 → exec (.lease h x (.imm imm)) s = .next (put s (onward s { w with lease := imm })) ∧
      exec (.lease h x (.k k)) s = .next (put s (onward s { w with
        lease := if (s.rk k.toNat).setWidth 12 = (0 : BitVec 12) then 1 else (s.rk k.toNat).setWidth 12 }))) ∧
    exec (.cflush h r n f) s = .next (lines.foldl (fun t va => match t.xlate s.cur.unit (s.cur.slot != trapSlot) .read va with
      | .ok x => t.modAgent (unitNo s.cur.unit) fun g => { g with copies := g.copies.set (x.pa / 128) none }
      | .error _ => t) s).advance ∧
    exec (.pref h r n f) s = .next (lines.foldl (fun t va => t.prefetch va f.ch) s).advance ∧
    (va ∈ s.linesOf r n l ↔ ∃ i < 2 ^ n.code, va = (s.eaOf r 128 l / 128 * 128 + 128 * i) % 2 ^ 64) ∧
    ((∃ e, s.xlate s.cur.unit (s.cur.slot != trapSlot) .read va = .error e) → s.prefetch va f.ch = s) ∧
    (s.xlate s.cur.unit (s.cur.slot != trapSlot) .read va = .ok xl →
      xl.nocache = true ∨ (f.ch = false ∧ (s.hitCopy (unitNo s.cur.unit) (xl.pa / 128)).isSome = true) →
      s.prefetch va f.ch = s)

/-- R182, R185, R186, R374. HSET gives lanes a hypothesis that is OPEN or none; HNEW opens a child of an OPEN parent in the
lowest free entry, one deeper; HRES sends one resolve and waits for its answer; HQRY reads an entry, or whether A is an
ancestor of B. A parent or hypothesis that is not OPEN is a fault.
The model's choices: log 45. -/
def Obligations.HypothesisForms : Prop :=
  ∀ (s : State) (w : Warp), Issuing s w → ∀ (h : Head), Settled s w h → ∀ (a : VK) (d x y : VReg) (kd ka : KReg) (pd : PReg),
    let on := s.execLanes h
    let u := s.cur.unit
    let id := fun l => (s.srcVK l a).toNat % 256
    let parent := (s.srcVK 0 a).toNat % 256
    (on = 0 → Passes (.hset h a) s w ∧ Passes (.hnew h (.v d) a) s w ∧ Passes (.hnew h (.k kd) a) s w ∧
      Passes (.hresConfirm h kd ka) s w ∧ Passes (.hresRefute h kd ka) s w ∧ Passes (.hqryInfo h kd ka) s w ∧
      Passes (.hqryAnc h pd x y) s w) ∧
    ((∀ l, executes s h l = true → id l = 0 ∨ (s.hypAt w.ctx (id l)).st = HEnt.opened) →
      exec (.hset h a) s = .next ((Bits.lanes on).foldl (fun t l => t.setHy u s.cur.slot l (id l)) s).advance) ∧
    (on ≠ 0 → s.cur.slot ≠ trapSlot →
      (∀ l, executes s h l = true → id l ≠ 0 ∧ (s.hypAt w.ctx (id l)).st ≠ HEnt.opened) →
      Strikes (.hset h a) s on Cause.hsetst 0 ∧ Strikes (.hnew h (.v d) a) s on Cause.hparent 0) ∧
    (on ≠ 0 → (∀ l, executes s h l = true → s.hnewCause w.ctx (id l) = none) → Bits.count on ≤ (s.freeHyps w.ctx).length →
      let r := s.openHyps w.ctx ((Bits.lanes on).map id)
      exec (.hnew h (.v d) a) s = .next (r.2.inFlight h on false 0
        (((Bits.lanes on).zip r.1).map fun p => r.2.vres p.1 d.toNat (BitVec.ofNat 32 p.2))).advance) ∧
    (on ≠ 0 → s.hnewCause w.ctx parent = none → ∀ e more, s.freeHyps w.ctx = e :: more →
      exec (.hnew h (.k kd) a) s = .next ((s.setHyp w.ctx e ⟨HEnt.opened, (s.hypAt w.ctx parent).depth + 1, parent, 0, 0⟩).inFlight
        h on false 0 [State.kres kd.toNat (BitVec.ofNat 64 e)]).advance) ∧
    (on ≠ 0 → s.hnewCause w.ctx parent = none → s.freeHyps w.ctx = [] → s.cur.slot ≠ trapSlot →
      Strikes (.hnew h (.k kd) a) s on Cause.hfull 0) ∧
    (on ≠ 0 → ∀ refute : Bool, ∃ w₁, Carries h w w₁ (entry s h on false 1 []) ∧
      exec (if refute then .hresRefute h kd ka else .hresConfirm h kd ka) s =
        .next { put s (waiting s w₁ (.memArrival s.nextId)) with
          nextId := s.nextId + 1
          resolves := s.resolves ++ [⟨w.ctx, (s.rk ka.toNat).setWidth 8, refute, u, s.cur.slot, on, s.curP.pc, kd, s.nextId, .sent,
            [], [], 0, [], 0, []⟩] }) ∧
    (on ≠ 0 → let e := (s.rk ka.toNat).toNat % 256
      (s.hypBad w.ctx e = false → exec (.hqryInfo h kd ka) s = .next (s.inFlight h on false 0
        [State.kres kd.toNat (BitVec.ofNat 64 (s.ctxRead w.ctx (s.hypVa w.ctx e) 8))]).advance) ∧
      (s.hypBad w.ctx e = true → s.cur.slot ≠ trapSlot → Strikes (.hqryInfo h kd ka) s on Cause.htable 0)) ∧
    (let up := fun l => s.ancWalk w.ctx ((s.rv l x.toNat).toNat % 256) 256 ((s.rv l y.toNat).toNat % 256)
     (∀ l, executes s h l = true → ∀ e ∈ up l, s.hypBad w.ctx e = false) →
      Flies (.hqryAnc h pd x y) s w h (laterP s h pd fun l => (up l).getLast? == some ((s.rv l x.toNat).toNat % 256)))

-- gang and engine forms (R190 to R227)

/-- R191, R192, R194, R199, R227. Gang forms complete: GANG writes a valid list, MOVT and TZERO put tile elements, or lanes'
registers, into flight. MMA leaves its operands in the latch of its list, open until every listed warp has issued, and the path
waits; the last one makes it full, with the format block read. TLD and TST send a row of 128 bytes for each lane, cut at line
ends and, in a scratchpad, at granules. For a team without the tile registers, and for SEL without a list, RSVCOMBO stands among
the causes of the word.
The model's choices: log 51, 52, 76, 84. -/
def Obligations.GangForms : Prop :=
  ∀ (s : State) (w : Warp), Issuing s w → ∀ (h : Head) (a : KReg) (d : TileRef) (r c : VReg) (idx : BitVec 5) (kx : KReg)
    (vx : VReg) (sp sel : Bool) (m : MemRef) (wd : Wid) (f : MemFlags),
    let on := s.execLanes h
    let u := s.cur.unit
    let movts := fun wr : Bool => ([(.imm idx, idx.toNat), (.k kx, (s.rk kx.toNat).toNat % 32),
      (.v vx, (s.rv (Warp.laneKey on) vx.toNat).toNat % 32)] : List (MovtIdx × Nat)).map
        fun p => ((.movt h d r wr p.1 : Instr), p.2)
    let forms : List Instr := [.gang h a, .mma h d r a c sp sel, .tzero h d, .tld h d m wd f, .tst h d m wd f] ++
      (movts true ++ movts false).map (·.1)
    let v := s.rk a.toNat
    let n := Bits.field w.gng.toNat 32 3
    let listed := if n = 0 then [w.widx] else (List.range n).map fun j => Bits.field w.gng.toNat (5 * j) 5
    let ent : LatchEnt :=
      { widx := w.widx, slot := s.cur.slot, pc := s.curP.pc, word := s.cur.word, lanes := on, instr := .mma h d r a c sp sel
        gng := w.gng, bcol := v, fb := s.rk (a.toNat + 1), rows := (Bits.lanes on).map fun l => (l, s.rv l r.toNat)
        codes := (List.range 32).map fun l => (List.range (min 8 (8 * w.gran - c.toNat))).map fun j => s.rv l (c.toNat + j)
        id := s.nextId }
    let sends := fun (i : Instr) (os : List MemOp) => exec i s = .next (s.issueOps h on os).advance
    (on = 0 → ∀ i ∈ forms, Passes i s w) ∧
    (∀ i ∈ forms, s.comboCauses u s.cur.slot i =
      if s.slotTiles u s.cur.slot = false ∨ (i = .mma h d r a c sp true ∧ n = 0) then [Cause.rsvcombo] else []) ∧
    (∀ t, s.team? u w.team = some t → on ≠ 0 → let g := v &&& 0x73FFFFFFF
      (State.gngOk w t.nwarps g.toNat = true → exec (.gang h a) s = .next (put s (onward s { w with gng := g }))) ∧
      (State.gngOk w t.nwarps g.toNat = false → s.cur.slot ≠ trapSlot →
        Strikes (.gang h a) s on Cause.rsvgng (State.wordInfo s.cur.word))) ∧
    (Flies (.tzero h d) s w h ((List.range 1024).map fun i => ⟨.t, 1024 * d.n.toNat + i, 0, 0⟩) ∧
      (∀ p ∈ movts true, Flies p.1 s w h ((Bits.lanes on).map fun l =>
        ⟨.t, 1024 * d.n.toNat + tileCell d.dir p.2 l, 0, (s.rv l r.toNat).setWidth 64⟩)) ∧
      (∀ p ∈ movts false, Flies p.1 s w h (later32 s w h r fun l =>
        s.tileRead u (1024 * d.n.toNat + tileCell d.dir p.2 l))) ∧
      (on ≠ 0 → (∀ l ∈ (s.core u).latches, l.id < s.nextId) →
        (∀ l ∈ (s.core u).latches, l.full = true ∨ l.team ≠ w.team ∨ w.widx ∉ l.list_ ∨ ∃ e ∈ l.ents, e.widx = w.widx) →
        let l : Latch := ⟨s.nextId + 1, w.team, listed, s.pace u.die, [ent], false, []⟩
        ∃ w₁, Carries h w w₁ (entry s h on false 1 []) ∧
          let t := { put (s.modCore u fun x => { x with latches := x.latches ++ [l] }) (waiting s w₁ .latch) with
            nextId := s.nextId + 2 }
          exec (.mma h d r a c sp sel) s = .next (if ∀ x ∈ listed, x = w.widx then t.latchFull u l else t)) ∧
      (on ≠ 0 → ∀ l₀, (s.core u).latches.find? (fun l => !l.full && l.team == w.team && l.list_.contains w.widx &&
          (State.latchPart l w.widx).isNone) = some l₀ → (∀ l ∈ (s.core u).latches, l.id = l₀.id → l = l₀) →
        let l : Latch := { l₀ with ents := l₀.ents ++ [ent] }
        ∃ w₁, Carries h w w₁ (entry s h on false 1 []) ∧
          let t := { put (s.modCore u fun x => { x with latches := x.latches.map fun y => if y.id == l.id then l else y })
            (waiting s w₁ .latch) with nextId := s.nextId + 1 }
          exec (.mma h d r a c sp sel) s =
            .next (if ∀ x ∈ l.list_, (State.latchPart l x).isSome = true then t.latchFull u l else t)) ∧
      (∀ x : Nat → Nat → Xlat, m.space = .gl ∨ m.space = .glk →
        let pieces := fun l => State.rowPieces (s.tileEa m l)
        ((∀ l, executes s h l = true → ∀ p ∈ pieces l, Reaches s .read 4 p.1 (x l p.1)) → sends (.tld h d m wd f)
          ((Bits.lanes on).flatMap fun l => (pieces l).map fun p => { access s w .load l p.1 (x l p.1) with
            path := .mtx, n := p.2.2, ch := f.ch, dst := State.tileCells d l p.2.1 (p.2.2 / 4)
            leased := !f.lh && !(x l p.1).nocache && !State.onExpander (x l p.1).pa })) ∧
        ((∀ l, executes s h l = true → ∀ p ∈ pieces l, Reaches s .write 4 p.1 (x l p.1)) → sends (.tst h d m wd f)
          ((Bits.lanes on).flatMap fun l => (pieces l).map fun p => { access s w .store l p.1 (x l p.1) with
            path := .mtx, n := p.2.2, ch := f.ch, data := s.tileData (State.tileCells d l p.2.1 (p.2.2 / 4)) }))) ∧
      (∀ (o : UnitId) (t : Option Team), (m.space = .sp ∨ ∃ k, m.space = .spc k) →
        let ea := s.eaOf m 4
        (∀ l, executes s h l = true → ReachesScr s m.space 4 128 (ea l) o t) →
        sends (.tld h d m wd f) ((Bits.lanes on).flatMap fun l => (State.cut4k (ea l) 128).map fun p =>
          { scrAccess s w .scrLoad l p.1 o t with
            path := .mtx, n := p.2, dst := State.tileCells d l ((p.1 - ea l) / 4) (p.2 / 4) }) ∧
        sends (.tst h d m wd f) ((Bits.lanes on).flatMap fun l => (State.cut4k (ea l) 128).map fun p =>
          { scrAccess s w .scrStore l p.1 o t with
            path := .mtx, n := p.2, data := s.tileData (State.tileCells d l ((p.1 - ea l) / 4) (p.2 / 4)) }))) ∧
    (∀ (t : State) (l : Latch) ds, State.gangAgrees l = true → t.latchBlock u l = .ok ds →
      t.latchFull u l = t.modLatches u fun ls => ls.map fun x => if x.id == l.id then { x with full := true, fb := ds } else x) ∧
    (∀ ea : Nat, ea < 2 ^ 64 → ea % 4 = 0 → ((State.rowPieces ea).map fun p => p.2.2).sum = 128 ∧
      ∀ p ∈ State.rowPieces ea, p.1 % 128 + p.2.2 ≤ 128 ∧ p.1 = (ea + 4 * p.2.1) % 2 ^ 64)

/-- R200, R201, R205, R212, R363. An engine command reads its records, its format block and its k registers at issue. One that
keeps to its rules takes an entry of its queue and the path goes on; where the queue is full the path waits with nothing
done; one that breaks a rule strikes its lanes, and for RSVCOMBO every lane of its path.
The model's choices: log 53, 72. -/
def Obligations.EngineCommandsQueue : Prop :=
  ∀ (s : State) (w : Warp), Issuing s w → ∀ (h : Head) (e : EFields) (acc sp bs mc : Bool) (op : EvxOp) (rop : EredOp)
    (ch : BitVec 4) (cop : CollOp) (red : CollRed) (rm : Round) (c : Cmd),
    let on := s.execLanes h
    let u := s.cur.unit
    let forms : List (Instr × Nat × Bool) := [(.emm h e acc sp, 0, true), (.evx h e op bs, 1, !bs && !op.unary),
      (.ered h e rop, 1, false), (.coll h e cop red, 2, false)]
    let ecpy := Instr.ecpy h e ch mc
    let q := e.q.toNat
    (on = 0 → ∀ i ∈ [ecpy, .emode h e rm] ++ forms.map (·.1), Passes i s w) ∧
    (on ≠ 0 →
      (∀ p ∈ forms, s.readCmd p.1 on e p.2.2 = (c, [], none) →
        (s.hasQueueRoom p.2.1 = true → exec p.1 s = .next ((s.enqueue p.2.1 c).inFlight h on false 0 []).advance) ∧
        (s.hasQueueRoom p.2.1 = false → exec p.1 s = .next (put s (waiting s w .reissue)))) ∧
      (s.readCmd ecpy on e false = (c, [], none) →
        (s.hasQueueRoom q = true →
          exec ecpy s = .next ((s.addPend h on false 1 []).enqueue q { c with pend := some s.nextId }).advance) ∧
        (s.hasQueueRoom q = false → exec ecpy s = .next (put s (waiting s w .reissue)))) ∧
      (∀ x : Nat, s.cur.slot ≠ trapSlot → 1 ≤ x → let info := if x < 0x20 then State.wordInfo s.cur.word else 0
        let m := if x = Cause.rsvcombo then s.curP.mask else on
        (∀ p ∈ forms, (s.readCmd p.1 on e p.2.2).2 = ([x], none) → Strikes p.1 s m x info) ∧
        ((s.readCmd ecpy on e false).2 = ([x], none) → Strikes ecpy s m x info)) ∧
      (s.hasQueueRoom q = true → exec (.emode h e rm) s = .next ((s.enqueue q { s.newCmd (.emode h e rm) on with
        kv := if rm = .sto then s.rk e.d.toNat else 0 }).inFlight h on false 0 []).advance) ∧
      (s.hasQueueRoom q = false → exec (.emode h e rm) s = .next (put s (waiting s w .reissue)))) ∧
    (∀ (i : Instr) (rb : Bool), let r := (s.readCmd i on e rb).1
      r.unit = u ∧ r.slot = s.cur.slot ∧ r.owner = w.startSeq ∧ r.lanes = on ∧ r.ctx = w.ctx ∧ r.team = w.team ∧ r.pos = 0 ∧
      r.ra = s.sqRec u e.sa.toNat ∧ r.rd = s.sqRec u e.sd.toNat ∧ (rb = true → r.rb = s.sqRec u e.sb.toNat) ∧
      (r.timed = true ↔ e.ti ≠ 0) ∧ (e.ti ≠ 0 → r.time = (s.rk e.ti.toNat).toNat) ∧
      (e.fb ≠ 0 → ∀ d, s.formatBlock u (s.cur.slot != trapSlot) 1 (s.rk e.fb.toNat).toNat = .ok d →
        r.fb = d.map (BitVec.ofNat 64))) ∧
    (∀ n, let q₁ := s.engQueue u n ++ [{ c with id := s.nextId }]
      (s.hasQueueRoom n = true ↔ (s.engQueue u n).length < 32) ∧
      (n ≠ 3 → (s.enqueue n c).engQueue u n = q₁) ∧
      (n = 3 → ∃ at_, (s.enqueue n c).engQueue u n = match q₁ with
        | [] => []
        | x :: r => { x with headAt := some at_ } :: r))

/-- R203, R213, R214, R216, R217. STREC loads a record. ENOTE takes one entry in each queue named, all or none, and counts as
issued under its tag; EWAIT goes on as an acquire once all issued are raised, and waits till then. ESAVE stores the image
of a queue's command, at once on the matrix and vector queues; ERES queues the command of an image, and passes over one
that holds none.
The model's choices: log 53, 57, 81. -/
def Obligations.EngineNotesAndImages : Prop :=
  ∀ (s : State) (w : Warp), Issuing s w → ∀ (h : Head) (e : EFields) (tag : BitVec 5),
    let on := s.execLanes h
    let u := s.cur.unit
    let a := s.rk e.d.toNat
    let q := e.q.toNat
    let qs := (List.range 4).filter fun q => e.sa.getLsbD q
    let t := s.tagCnt u w.startSeq tag.toNat
    (on = 0 → ∀ i ∈ [Instr.strec h e, .enote h e tag, .ewait h e tag, .esave h e, .eres h e], Passes i s w) ∧
    (on ≠ 0 →
      (∀ x, Reaches s .read 64 a.toNat x → exec (.strec h e) s = .next (s.issueOps h on
        [{ access s w .load (Warp.laneKey on) a.toNat x with
          lanes := on, n := 64, dst := (List.range 8).map fun i => ⟨.sq, 8 * e.sd.toNat + i, 0, 0⟩
          leased := !x.nocache && !State.onExpander x.pa }]).advance) ∧
      ((∀ q ∈ qs, s.hasQueueRoom q = true) →
        let c := { s.newCmd (.enote h e tag) on with note := s.nextId }
        let s₁ := { s with nextId := s.nextId + 1 }
        let s₂ := qs.foldl (fun (x : State) q => x.enqueue q c) s₁
        exec (.enote h e tag) s = .next (((s₂.modEng u fun x => { x with notes := x.notes ++
          [⟨s.nextId, w.startSeq, s.cur.slot, tag.toNat, c.handle, qs.zipIdx.map fun p => (p.1, s.nextId + 1 + p.2)⟩] }).setCnt u
            { t with issued := (t.issued + 1) % 2 ^ 32 }).inFlight h on false 0 []).advance) ∧
      ((∃ q ∈ qs, s.hasQueueRoom q = false) → exec (.enote h e tag) s = .next (put s (waiting s w .reissue))) ∧
      (t.issued ≤ t.raised → exec (.ewait h e tag) s = .next ((s.acquireAll u).inFlight h on false 0 []).advance) ∧
      (t.raised < t.issued →
        exec (.ewait h e tag) s = .next ((s.addPend h on false 1 []).waitFor (.ewait tag.toNat t.issued))) ∧
      (s.imageBad a.toNat .write q = none →
        let s₁ := (s.addPend h on false 1 []).advance
        let r : SaveReq := ⟨q, u, s.cur.slot, s.nextId, a⟩
        (q ≠ 2 → exec (.esave h e) s = .next (s₁.saveImage r)) ∧
        (q = 2 → exec (.esave h e) s = .next ((s₁.modEng u fun x => { x with saves := x.saves ++ [r] }).settleSaves u))) ∧
      (s.imageBad a.toNat .read q = none →
        let at_ := fun i => match s.xlate u (s.cur.slot != trapSlot) .read (a.toNat + 8 * i) with
          | .ok x => s.peek x.pa 8
          | .error _ => 0
        (at_ 0 = 0 → Flies (.eres h e) s w h []) ∧
        (∀ c, at_ 0 ≠ 0 → ofImage ((List.range 40).map at_) q (s.newCmd default on) = some c → s.cmdCauses c = ([], none) →
          let c' := { c with image := if c.isCopy then some a else none }
          (s.engFrozen u q = false → s.hasQueueRoom q = true →
            exec (.eres h e) s = .next ((s.enqueue q c').inFlight h on false 0 []).advance) ∧
          (s.engFrozen u q = true → exec (.eres h e) s =
            .next (((({ s with nextId := s.nextId + 1 } : State).setQueue u q ({ c' with id := s.nextId } :: s.engQueue u q)).engThaw
              u q).inFlight h on false 0 []).advance)) ∧
        (at_ 0 ≠ 0 → ofImage ((List.range 40).map at_) q (s.newCmd default on) = none → s.cur.slot ≠ trapSlot →
          Strikes (.eres h e) s on (Cause.engine q 1) 0)))

/-- R221. WMRD reads a channel's watermark and state; WMSET arms a channel over a range of the scratchpad, aligned to 128
bytes and inside it; WMSET.off makes it idle. A range that breaks the rules and a channel of another team are RSVWM.
The model's choices: log 58. -/
def Obligations.CopyChannels : Prop :=
  ∀ (s : State) (w : Warp), Issuing s w → ∀ (h : Head) (e : EFields) (ch : BitVec 4),
    let on := s.execLanes h
    let u := s.cur.unit
    let x := (s.core u).chans.get ch.toNat
    let lo := (s.rk e.d.toNat).toNat % 2 ^ 32
    let hi := (s.rk e.d.toNat).toNat / 2 ^ 32
    let good := lo % 128 = 0 ∧ hi % 128 = 0 ∧ lo < hi ∧ hi ≤ s.chanSize
    let sets := fun (y : Chan) => .next ((s.modCore u fun c => { c with chans := c.chans.set ch.toNat y }).inFlight
      h on false 0 []).advance
    (on = 0 → Passes (.wmset h e ch) s w ∧ Passes (.wmsetOff h e ch) s w) ∧
    Flies (.wmrd h e ch) s w h [⟨.k, e.d.toNat, 0, BitVec.ofNat 64 (x.wm % 2 ^ 32 + 2 ^ 32 *
      (match x.st with | .idle => 0 | .armed => 1 | .filling => 2 | .done => 3))⟩] ∧
    (on ≠ 0 → good → s.chanTaken ch.toNat = false → exec (.wmset h e ch) s = sets
      { lo := lo, hi := hi, wm := lo, st := .armed, team := s.chanTeam.getD 0, gen := x.gen + 1, written := [] }) ∧
    (on ≠ 0 → s.chanTaken ch.toNat = false → exec (.wmsetOff h e ch) s = sets { x with st := .idle }) ∧
    (on ≠ 0 → s.cur.slot ≠ trapSlot →
      (¬ good ∨ s.chanTaken ch.toNat = true → Strikes (.wmset h e ch) s on Cause.rsvwm (State.wordInfo s.cur.word)) ∧
      (s.chanTaken ch.toNat = true → Strikes (.wmsetOff h e ch) s on Cause.rsvwm (State.wordInfo s.cur.word)))

-- graphics (R289 to R313)

/-- R291, R298, R300, R375. TRACE takes a free sequencer slot for each lane, starts its work there and gives the lanes their
handles; it waits where there are too few. TQRY waits for its lanes' slots to end, reads their results, and frees them
unless it keeps them; a handle of no busy slot is a fault. A core without microcode is CSEMPTY.
The model's choices: log 5, 61. -/
def Obligations.TraceForms : Prop :=
  ∀ (s : State) (w : Warp), Issuing s w → ∀ (h : Head) (d a : VReg) (b : KReg) (g : GUnit) (any keep : Bool) (ds : List Dword)
    (sl : Nat → GUnit × Nat × GSlot),
    let on := s.execLanes h
    let ls := Bits.lanes on
    let v := gcoreOf s.cur.unit s.cur.slot
    let n := ((s.core v).cstores.get g.code).n
    let free := s.freeGslots v g
    (on = 0 → Passes (.trace h d a b g any) s w ∧ Passes (.tqry h d a keep) s w) ∧
    (on ≠ 0 →
      (n = 0 → s.cur.slot ≠ trapSlot → Strikes (.trace h d a b g any) s on Cause.csempty 0) ∧
      (n ≠ 0 → s.trvBlock (s.rk b.toNat) 64 Cause.tracedesc = .ok ds → traceDescOk ds = true →
        (free.length < ls.length → exec (.trace h d a b g any) s = .next (put s (waiting s w .reissue))) ∧
        (ls.length ≤ free.length →
          let slots := (State.pickFree ls.length s free).1
          let s₁ := (State.pickFree ls.length s free).2
          let work := ls.map fun l => startSlot s₁ s.cur.unit g n any (s.rk b.toNat) ds l
            ((List.range 8).map fun i => s₁.rv l (a.toNat + i))
          let t := (slots.zip work).foldl (fun t x => t.setGslot v g x.1 (some x.2)) s₁
          exec (.trace h d a b g any) s = .next
            (t.inFlight h on false 0 ((ls.zip slots).map fun x => t.vres x.1 d.toNat (gHandle v g x.2))).advance)) ∧
      (n ≠ 0 → s.trvBlock (s.rk b.toNat) 64 Cause.tracedesc = .ok ds → traceDescOk ds = false → s.cur.slot ≠ trapSlot →
        Strikes (.trace h d a b g any) s on Cause.tracedesc 0) ∧
      ((∀ l, executes s h l = true → s.handleSlotOf (s.rv l a.toNat) = some (sl l)) →
        ((∃ l, executes s h l = true ∧ (sl l).2.2.st ≠ .ended) →
          exec (.tqry h d a keep) s = .next (put s (waiting s w .reissue))) ∧
        ((∀ l, executes s h l = true → (sl l).2.2.st = .ended ∧ (sl l).2.2.cause = 0) →
          let t := if keep then s else ls.foldl (fun t l => t.setGslot v (sl l).1 (sl l).2.1 none) s
          exec (.tqry h d a keep) s = .next (t.inFlight h on false 0 (ls.flatMap fun l => (List.range 4).map fun i =>
            t.vres l (d.toNat + i) ((sl l).2.2.res.getD i 0))).advance)) ∧
      ((∀ l, executes s h l = true → s.handleSlotOf (s.rv l a.toNat) = none) → s.cur.slot ≠ trapSlot →
        Strikes (.tqry h d a keep) s on Cause.tqryslot 0)) ∧
    (∀ (t : State) (fs : List Nat), fs.Nodup → ∀ k ≤ fs.length,
      (State.pickFree k t fs).1.length = k ∧ (State.pickFree k t fs).1.Nodup ∧ ∀ i ∈ (State.pickFree k t fs).1, i ∈ fs) ∧
    (∀ (l : Nat) (inp : List Word), let x := startSlot s s.cur.unit g n any (s.rk b.toNat) ds l inp
      x.pc = (ds.getD 5 0).toNat % 2 ^ 16 ∧ x.lane = l ∧ x.any = any ∧ x.stack = [] ∧ x.f = 0 ∧
      (x.pc < n → x.st = .running) ∧ (n ≤ x.pc → x.st = .ended ∧ x.cause = BitVec.ofNat 8 Cause.mtarget) ∧
      (g = .trav → x.res = [inp.getD 7 0, 0xFFFFFFFF, 0, 0]))

/-- R308 to R313. A texture form whose texels all reach memory sends one access for each texel that its filter reads, and its
results follow from them. ORDB waits for earlier tickets of its key and acquires; ORDE releases. REFIT takes a fence slot
and queues its work at the die. A ticket that is not the lane's is a fault.
The model's choices: log 60, 62, 63, 88. -/
def Obligations.TextureAndOrderForms : Prop :=
  ∀ (s : State) (w : Warp), Issuing s w → ∀ (h : Head) (d a : VReg) (b kd ka : KReg) (c : BitVec 2) (ds : List Dword)
    (t : TexDesc) (lod : Nat → Rat) (x : Nat → Nat → Xlat) (en : Nat → ILock),
    let on := s.execLanes h
    let ls := Bits.lanes on
    let u := s.cur.unit
    let ticket := fun l => s.rv l a.toNat
    let sample := fun (gather : Nat) (l : Nat) => (⟨(s.rv l a.toNat).toNat, (s.rv l (a.toNat + 1)).toNat, lod l, gather,
      (List.range 4).map fun i => w.phys (d.toNat + i), t⟩ : TexRec)
    let sends := fun (i : Instr) (gather : Nat) (lam : Nat → Rat) => (∀ l, executes s h l = true →
        texLod t (t.mipf && gather == 0) (lam l) = some (lod l) ∧ ∀ p ∈ (sample gather l).taps,
          let ea := t.addr p.level p.i p.j % 2 ^ 64
          Reaches s .read t.texel ea (x l ea)) →
      exec i s = .next ((s.issueOps h on (ls.flatMap fun l => s.texOps ((sample gather l).taps.map fun p =>
        let ea := t.addr p.level p.i p.j % 2 ^ 64
        ⟨l, ea, (x l ea).pa, (x l ea).nocache, (x l ea).repl⟩) t.texel)).modCur fun w => { w with
          pend := w.pend.map fun q => if q.id = s.nextId then { q with tex := ls.map fun l => (l, sample gather l) } else q }).advance
    (on = 0 → ∀ i ∈ [Instr.texs h d a b, .texl h d a b, .texg h d a b c, .ordb h a, .orde h a, .refit h kd ka], Passes i s w) ∧
    (on ≠ 0 → s.trvBlock (s.rk b.toNat) 64 Cause.texdesc = .ok ds → texDesc? (fun i => (ds.getD i 0).toNat) = some t →
      sends (.texs h d a b) 0 (s.quadLambda a t) ∧
      sends (.texl h d a b) 0 (fun l => finiteF32 (s.rv l (a.toNat + 2)).toNat) ∧
      sends (.texg h d a b c) (c.toNat + 1) (fun l => finiteF32 (s.rv l (a.toNat + 2)).toNat)) ∧
    (on ≠ 0 → s.trvBlock (s.rk b.toNat) 64 Cause.texdesc = .ok ds → texDesc? (fun i => (ds.getD i 0).toNat) = none →
      s.cur.slot ≠ trapSlot → ∀ i ∈ [Instr.texs h d a b, .texl h d a b, .texg h d a b c], Strikes i s on Cause.texdesc 0) ∧
    (on ≠ 0 → (∀ l, executes s h l = true → s.ticketOf l (ticket l) = some (en l)) →
      ((∃ l, executes s h l = true ∧ s.earlierOpen (en l) = true) →
        exec (.ordb h a) s = .next (put s (waiting s w .reissue))) ∧
      ((∀ l, executes s h l = true → s.earlierOpen (en l) = false) →
        exec (.ordb h a) s = .next ((s.acquireAll u).inFlight h on false 0 []).advance) ∧
      exec (.orde h a) s = .next (((s.modSlice u.die (sliceOf u) fun sl => { sl with
        ilock := ls.foldl (fun (z : Tab (Option ILock)) l =>
          z.set (ticket l).toNat (some { en l with st := 3, rel := s.nextId })) sl.ilock }).ilockSweep u.die (sliceOf u)).inFlight
            h on false 0 []).advance) ∧
    (on ≠ 0 → (∀ l, executes s h l = true → s.ticketOf l (ticket l) = none) → s.cur.slot ≠ trapSlot →
      Strikes (.ordb h a) s on Cause.ordticket 0) ∧
    (on ≠ 0 → s.trvBlock (s.rk ka.toNat) 1 Cause.refitdesc = .ok ds → refitDescOk ds = true →
      (s.freeFslot w.ctx = none → exec (.refit h kd ka) s = .next (put s (waiting s w .reissue))) ∧
      (∀ k, s.freeFslot w.ctx = some k →
        let hd := (s.newHandle w.ctx k).1
        let t := (s.newHandle w.ctx k).2.modDie u.die fun y => { y with
          refitQ := y.refitQ ++ [{ (default : RefitJob) with desc := ds, ctx := w.ctx, handle := hd }] }
        exec (.refit h kd ka) s = .next (t.inFlight h on false 0 [State.kres kd.toNat (hd.setWidth 64)]).advance))

/-- R293, R294. The arithmetic microwords, on 32-bit integers or on F32 values; each writes one register or one flag of its
slot and goes on. Flag 7 reads 1 and takes nothing.
The model's choices: log 36. -/
def Obligations.MicrowordArithmetic : Prop :=
  ∀ (s : State) (g : GSlot), s.gslot s.mcur.unit s.mcur.g s.mcur.slot = some g → ∀ (m : Micro) (cc : Cmp),
    let imm : Word := if m.int then m.imm.signExtend 32 else m.imm.setWidth 32 <<< 16
    let r := fun (i : BitVec 6) => g.m.get i.toNat
    let b := if m.im then imm else r m.b
    let c := if m.im then imm else r m.c
    let flag := fun (i : BitVec 6) => i.toNat = 7 ∨ g.f.getLsbD i.toNat = true
    let goes := fun (i : Instr) (y : GSlot) => exec i s = .next (s.setMslot { y with pc := g.pc + 1, st := .running })
    let wr := fun (x : Word) => { g with m := g.m.set m.d.toNat x }
    let num := fun (i : Word) (f : Nat) => wr (if m.int then i else BitVec.ofNat 32 f)
    goes (.xfma m) (num (if m.sn then r m.a * r m.b - c else r m.a * r m.b + c)
      (if m.sn then Num.fmsE Num.f32 (r m.a).toNat (r m.b).toNat c.toNat else Num.fmaE Num.f32 (r m.a).toNat (r m.b).toNat c.toNat)) ∧
    goes (.xmul m) (num (r m.a * b) (Num.mulE Num.f32 (r m.a).toNat b.toNat)) ∧
    goes (.xmin m) (num (if (r m.a).toInt ≤ b.toInt then r m.a else b) (Num.minE Num.f32 (r m.a).toNat b.toNat)) ∧
    goes (.xmax m) (num (if b.toInt ≤ (r m.a).toInt then r m.a else b) (Num.maxE Num.f32 (r m.a).toNat b.toNat)) ∧
    goes (.xrcp m) (wr (BitVec.ofNat 32 (Num.rcpE Num.f32 (r m.a).toNat))) ∧
    goes (.xrcpSq m) (wr (BitVec.ofNat 32 (Num.rsqE Num.f32 (r m.a).toNat))) ∧
    (flag m.c → goes (.xsel m) (wr (if m.sn then b else r m.a))) ∧
    (¬ flag m.c → goes (.xsel m) (wr (if m.sn then r m.a else b))) ∧
    (∃ f : BitVec 7, goes (.xcmp m cc) { g with f := f } ∧
      (∀ i < 7, i ≠ m.d.toNat → f.getLsbD i = g.f.getLsbD i) ∧
      (m.d.toNat < 7 → (f.getLsbD m.d.toNat = true ↔ flag m.c ∧ (if m.int then icond cc (r m.a) b = true
        else fcond cc (Num.decodeF Num.f32 (r m.a).toNat) (Num.decodeF Num.f32 b.toNat) = true))))

/-- R155, R292, R294, R295, R301, R307, R311. The other microwords: stack, targets, register ranges, fetches that hold their slot,
results and records, which wait for the starting lane's earlier LSU accesses. A range past register 63, a target past the store, a full stack or an address without a mapping ends the
slot's work with its cause.
The model's choices: log 61. -/
def Obligations.MicrowordControl : Prop :=
  ∀ (s : State) (g : GSlot), s.gslot s.mcur.unit s.mcur.g s.mcur.slot = some g → ∀ (m : Micro),
    let r := fun (i : BitVec 6) => g.m.get i.toNat
    let flag := m.c.toNat = 7 ∨ g.f.getLsbD m.c.toNat = true
    let at_ := fun (n : Nat) (y : GSlot) => .next (s.setMslot { y with pc := n, st := .running })
    let next := at_ (g.pc + 1)
    let ends := fun (i : Instr) (c : Nat) =>
      exec i s = .next (s.setMslot { g with st := .ended, cause := BitVec.ofNat 8 c, info := 0 })
    let hit := { g with m := g.m.set 7 (r m.a), res := [r m.a, r m.b, r m.c, r m.d] }
    let near := fcond .lt (Num.decodeF Num.f32 (r m.a).toNat) (Num.decodeF Num.f32 (g.m.get 7).toNat)
    let xl := fun (va : Nat) => s.xlate s.mcur.unit (g.warp != trapSlot) .read va
    let maps := fun (va : Nat) => ∃ x, xl va = .ok x
    let nb := ((g.desc.getD 0 0).toNat + 64 * (r m.a).toNat) % 2 ^ 64
    let pb := ((g.desc.getD 1 0).toNat + 48 * (r m.a).toNat) % 2 ^ 64
    let len := 4 * m.imm.toNat
    let fetches := fun (i : Instr) => exec i s = .next (s.setMslot { g with st := .fetch, fetch := some i })
    let rec_ := (List.range 16).map fun i => g.m.get (m.a.toNat + i)
    (g.stack.length < 64 → exec (.spush m) s = next { g with stack := r m.a :: g.stack }) ∧
    (64 ≤ g.stack.length → ends (.spush m) Cause.mstack) ∧
    (m.imm.toNat < s.mcount →
      (g.stack = [] → exec (.spop m) s = at_ m.imm.toNat g) ∧
      (∀ x more, g.stack = x :: more → exec (.spop m) s = next { g with m := g.m.set m.d.toNat x, stack := more }) ∧
      exec (.microGo m) s = at_ m.imm.toNat g ∧
      ((flag ↔ m.sn = false) → exec (.goif m) s = at_ m.imm.toNat g) ∧ ((flag ↔ m.sn = true) → exec (.goif m) s = next g) ∧
      exec (.lazy m) s = .next (s.mlazy m) ∧ (g.bq = 0 → ends (.lazy m) Cause.lazynoq)) ∧
    (s.mcount ≤ m.imm.toNat → ∀ i ∈ [Instr.spop m, .microGo m, .goif m, .lazy m], ends i Cause.mtarget) ∧
    (m.d.toNat ≤ 48 → exec (.nfetchRaw m) s = next (g.wrAll m.d.toNat ((List.range 16).map fun i => g.latch.getD i 0))) ∧
    (48 < m.d.toNat → ends (.nfetchRaw m) Cause.mrange) ∧
    (m.d.toNat ≤ 56 → exec (.nfetchChild m) s = next (g.wrAll m.d.toNat (childWords g.latch ((r m.a).toNat % 4)))) ∧
    (56 < m.d.toNat → ends (.nfetchChild m) Cause.mrange) ∧
    (maps nb → maps ((nb + 63) % 2 ^ 64) → fetches (.nfetchFetch m)) ∧
    (∀ e, xl nb = .error e ∨ maps nb ∧ xl ((nb + 63) % 2 ^ 64) = .error e → ends (.nfetchFetch m) (State.fetchCause e)) ∧
    (m.d.toNat + m.imm.toNat ≤ 64 →
      (maps pb → maps ((pb + len - 1) % 2 ^ 64) → fetches (.pfetch m)) ∧
      (∀ e, xl pb = .error e ∨ maps pb ∧ xl ((pb + len - 1) % 2 ^ 64) = .error e → ends (.pfetch m) (State.fetchCause e))) ∧
    (64 < m.d.toNat + m.imm.toNat → ends (.pfetch m) Cause.mrange) ∧
    (near = false → exec (.emitHit m) s = next g) ∧
    (near = true → g.any = false → exec (.emitHit m) s = next hit) ∧
    (near = true → g.any = true → exec (.emitHit m) s =
      .next (s.setMslot { hit with st := .ended, cause := 0, info := 0 })) ∧
    (m.a.toNat ≤ 60 → exec (.emitOut m) s = next { g with res := (List.range 4).map fun i => g.m.get (m.a.toNat + i) }) ∧
    (60 < m.a.toNat → ends (.emitOut m) Cause.mrange) ∧
    (m.a.toNat ≤ 48 →
      exec (.emitSpawn m) s = .next (s.mspawn rec_ none) ∧
      (g.waitAt = 0 → exec (.emitSpord m) s = .next (s.setMslot { g with st := .order, fetch := some (.emitSpord m) })) ∧
      (g.waitAt ≠ 0 → exec (.emitSpord m) s =
        .next (s.mspawn (rec_.set 15 (BitVec.ofNat 32 (g.waitAt - 1))) (some (g.waitAt - 1))))) ∧
    (48 < m.a.toNat → ends (.emitSpawn m) Cause.mrange ∧ ends (.emitSpord m) Cause.mrange) ∧
    ends (.microDone m) 0 ∧
    (let busy := s.ownerHere g.unit g.warp g.owner = true ∧ s.lsuBusy g.unit g.warp (Bits.lane g.lane) = true
     let sent : GSlot := { g with pc := g.pc + 1, st := .running, waitAt := 0, pool := none }
     (busy → ∀ k, s.mspawn rec_ k = s.setMslot { g with st := .retry, tick := s.pace s.mcur.unit.die }) ∧
     (¬ busy → ∀ t n, s.spawnOne g.unit (g.warp != trapSlot) g.ctx
        (match s.warp g.unit g.warp with | some w => w.prio | none => 0) (g.desc.getD 3 0) rec_ g.pool = .done t n →
      s.mspawn rec_ none = t.setMslot sent ∧
      ∀ k, s.mspawn rec_ (some k) = (t.modCtxRt g.ctx fun c => { c with ticketed := c.ticketed ++ [(n, k)] }).setMslot sent))

-- events: what the machine does between instructions

/-- R25, R30, R41, R42, R57, R59, R138, R139, R155, R160. What goes on in a warp after issue: a result is written and its token
counts down; a lane that waits for a pool slot, a fence slot, room in a queue or a time goes on once it is there; a path with lanes
that are to be parked parks them at its boundary; a register request is granted or refused; a warp of which nothing is left retires.
The model's choices: log 10, 25, 46. -/
def Obligations.WarpAndCoreEvents : Prop :=
  ∀ (s : State) (u : UnitId) (slot : Nat),
    (∀ (w : Warp) (p : Pend), s.warp u slot = some w → p ∈ w.pend → (∀ q ∈ w.pend, q.id = p.id → q = p) → p.hold = 0 →
      p.clob = [] → p.tex = [] → (State.pendRegs p).length ≤ 16 →
      (∀ r ∈ p.res, (r.file = .v ∨ r.file = .k ∨ r.file = .p) ∧ r.lane < 32) →
      ∃ t, exec (.resultWriteback u slot p.id (BitVec.allOnes 32) (BitVec.allOnes 16)) s = .next t ∧ t.mem = s.mem ∧
        t.warp u slot = some (({ w.applyAll p.res with pend := w.pend.filter fun q => q.id != p.id } : Warp).tokDec p.tok)) ∧
    (∀ (w : Warp) (p : Path) id e r t n, s.warp u slot = some w → w.paths = [p] →
      p.wait = .work false id 0 e [r] [] t none →
      let user := slot != trapSlot
      (s.poolTake w.ctx = none → exec (.poolSlotTake u slot) s = .next s) ∧
      (∀ s₁, s.spawnOne u user w.ctx w.prio e r.2 none = .done s₁ n → exec (.poolSlotTake u slot) s =
        .next (((s₁.modWarp u slot fun w => { w with paths := w.paths.map fun q =>
          if q.wait = p.wait then { q with wait := .work false id 0 e [] [] (s.pace u.die) none } else q }).pendDone u slot id []).flow
            u slot fun e w => match w.paths.find? fun q => (q.mask &&& p.mask) != 0 && q.pc == p.pc with
              | some q => w.pathOn e q
              | none => w))) ∧
    (∀ w, s.warp u slot = some w →
      let again := s.setWarp u slot (some { w with
        paths := w.paths.map fun p => if p.wait = .reissue then { p with wait := .ready } else p })
      exec (.queueRoomWaitEnd u slot) s = .next again ∧
      ((s.freeFslot w.ctx).isSome = true → exec (.fenceSlotWaitEnd u slot) s = .next (again.workAgain u slot true)) ∧
      (s.freeFslot w.ctx = none → exec (.fenceSlotWaitEnd u slot) s = .next s) ∧
      (∀ l p t, w.pathOf l = some p → p.wait = .sleep t → t.toNat ≤ s.pace u.die →
        exec (.sleepRelease u slot l) s = .next (s.setWarp u slot (some (w.pathOn (s.flowEnv u slot) p)))) ∧
      (∀ l p t, w.pathOf l = some p → p.wait = .sleep t → s.pace u.die < t.toNat →
        exec (.sleepRelease u slot l) s = .next s) ∧
      (∀ l p, w.parkReq.getLsbD l = true → w.pathOf l = some p →
        (∀ q ∈ w.pend, q.lanes &&& p.mask &&& w.parkReq = 0) →
        exec (.parkDeferred u slot l) s = (let t := s.parkSome u slot (p.mask &&& w.parkReq)
        .next (match (t.warp u slot).bind fun w => w.pathOf l with
          | some p =>
            let runs := p.wait = .ready ∨ p.wait = .token ∨ p.wait = .reissue
            if t.atBoundary u slot p = true ∧ ¬ (runs ∧ ∃ q ∈ w.pend, q.lanes &&& p.mask ≠ 0)
              then (t.withdraw u slot p).parkDue u slot p.mask else t
          | none => t))) ∧
      (s.mayRetire u slot w = true → ∃ t, exec (.warpRetire u slot) s = .next t ∧ t.warp u slot = none) ∧
      (s.mayRetire u slot w = false → exec (.warpRetire u slot) s = .next s)) ∧
    (∀ r more w p, (s.core u).regxQ = r :: more → r.n ≤ s.granFree u → s.warp u r.slot = some w → w.pathOf r.path = some p →
      ∃ t w', exec (.regxGrant u) s = .next t ∧ t.warp u r.slot = some w' ∧ w'.gran = w.gran + r.n) ∧
    (∀ r, s.youngest u = some r → s.allWait u = true → (∀ x more, (s.core u).regxQ = x :: more → s.granFree u < x.n) →
      exec (.regxRefusal u) s = .next (s.regxAnswer u r false))

/-- R25, R26, R29, R30, R194, R344, R380 to R383, R402. How work begins, and what is raised without an instruction: bins and
pending warps start where a core has room, tasks are dispatched by effective priority, a full latch computes, and the causes
GANGTIME, COLLDEAD, WDOG, DEADLINE and POOLFULL are raised once their time has come.
The model's choices: log 50. -/
def Obligations.WorkAndWatchEvents : Prop :=
  ∀ (s : State) (u : UnitId) (slot : Nat),
    (∀ n b c, (s.core u).bins.get n = some b → (s.unitSlice u).st = .running → (s.unitSlice u).pending = [] →
      (s.unitSlice u).ctx = some c → b.deadline ≤ s.pace u.die → b.slots ≠ [] →
      let s₁ := s.modCore u fun c => { c with bins := c.bins.set n none }
      let p : PendWarp := ⟨u.kind, u.idx, b.key, b.regs, b.slots, b.prio⟩
      let t := match s₁.startSpawned c.ctxid u p with
        | some t => t
        | none => s₁.modSlice u.die (sliceOf u) fun sl => { sl with pending := [p] }
      exec (.spawnBinDeadline u n) s = .next t ∧ exec (.binLaunchRetry u n) s = .next t) ∧
    (∀ n b, (s.core u).bins.get n = some b → s.pace u.die < b.deadline →
      exec (.spawnBinDeadline u n) s = .next s ∧ (b.slots.length < b.thr → exec (.binLaunchRetry u n) s = .next s)) ∧
    (∀ d i p more c t, (s.slice d i).pending = p :: more → (s.slice d i).ctx = some c → (s.slice d i).st = .running →
      s.startSpawned c.ctxid ⟨p.kind, d, p.idx⟩ p = some t →
      exec (.pendingWarpStart d i) s = .next (t.modSlice d i fun sl => { sl with pending := more })) ∧
    (let aged := s.ageTasks u
     (∃ q, exec (.taskPriorityAgeing u) s = .next aged ∧ (aged.core u).taskQ = q ∧ q = (s.core u).taskQ.map fun t =>
       { t with eff := max t.eff (min 3 (t.prio + (s.pace u.die - t.arrived) / 16384)) }) ∧
     ∀ t c, State.bestTask (aged.core u).taskQ = some t → (s.unitSlice u).ctx = some c → s.runs u c.ctxid = true →
       s.freeSlots u ≠ [] → exec (.taskDispatch u) s = .next ((aged.modCore u fun x => { x with
         taskQ := x.taskQ.filter fun y => y.handle != t.handle }).startAlone u c.ctxid
           (if u.kind = .rc then .baton t.handle else .task t.handle) t.issuer t.entry 1 fun w =>
             let k := t.ks.zipIdx.foldl (fun k x => k.set x.2 x.1) w.k
             { w with
               k := (if u.kind = .rc then k else k.set 0 t.arg).set 32 (t.handle.setWidth 64), handle := t.handle, prio := t.prio
               v := t.recw.zipIdx.foldl (fun v x => v.set x.2 x.1) [] })) ∧
    (∀ id l, (s.core u).latches.find? (fun l => l.id == id) = some l →
      (l.full = true → exec (.gangMmaDone u id) s = .next (s.latchDone u l)) ∧
      (l.full = false → l.since + 131072 ≤ s.pace u.die → exec (.gangtime u id) s =
        .next (s.failLatch u l fun _ n => ⟨n, Cause.gangtime, State.latchInfo l, 0⟩)) ∧
      (l.full = true ∨ s.pace u.die < l.since + 131072 → exec (.gangtime u id) s = .next s)) ∧
    (∀ uid t since, s.team? u uid = some t → t.stuck = some since → s.teamStuck u t = true →
      (since + 10240 ≤ s.cycles u → exec (.colldead u uid) s = .next (s.strikeDead u t)) ∧
      (s.cycles u < since + 10240 → exec (.colldead u uid) s = .next s)) ∧
    (∀ w p, s.warp u slot = some w → w.wdTrap = true → (s.core u).trap = none → (s.core u).trapQ = [] → slot ≠ trapSlot →
      w.paths = [p] → p.mask ≠ 0 → w.due = [] →
      (p.wait = .ready → ∃ t, exec (.wdog u slot) s = .next t ∧
        ∀ l, p.mask.getLsbD l = true → Parked t u slot l Cause.wdog p.pc (BitVec.ofNat 64 w.wdcnt)) ∧
      (State.atHurdle p = true → exec (.wdog u slot) s = .next (s.modWarp u slot fun w => { w with wdTrap := false }))) ∧
    (∀ d o, (s.unitSlice u).ctx = some d → d.deadline ≠ 0 → (s.core u).trap = some o → o.fcause.toNat % 256 = Cause.wdog →
      o.raised + d.deadline.toNat ≤ s.pace u.die → exec (.deadline u) s = .next (s.killContext d.ctxid
        ⟨Cause.deadline, 0, some u, 0, s.warpIdent u o.slot, 0, 0, 0, o.fpc, s.pace u.die⟩)) ∧
    (∀ w l p id dst e r ks since, s.warp u slot = some w → slot ≠ trapSlot → w.paths = [p] →
      p.wait = .work false id dst e [(l, r)] ks since none → since + 65536 ≤ s.pace u.die → s.poolTake w.ctx = none →
      l < 32 → p.mask.getLsbD l = true → w.live.getLsbD l = true → w.parkedLanes.getLsbD l = false →
      ∃ t, exec (.poolfull u slot l) s = .next t ∧
        Parked t u slot l Cause.poolfull p.pc (BitVec.ofNat 64 ((s.ctxDesc w.ctx).spcount % 2 ^ 32))) ∧
    (∀ up, let k := (s.core u).clock
      exec (.blockThrottle u up) s = .next (s.modCore u fun c => { c with
        clock := min (if up then k - 1 else k + 1) (fullClock u.kind - 1), cyc := s.cycles u, cycAt := s.pace u.die }))

/-- R149, R165, R174, R183, R184, R236, R237, R239, R330, R384. Accesses performed at home or at a scratchpad port, where no
soft error stands in the way: the value of a load, the bytes a store or an atomic leaves, versions, waits for package time
and for version space, hurdle arrivals, and what an answer brings back.
R174. The atomic operations on values of 32 and 64 bits: the new value from the old one and the operands.
The model's choices: log 13, 29, 55, 77, 86. -/
def Obligations.AccessesPerformed : Prop :=
  (∀ (s : State) (o : MemOp), s.getOp o.id = some o → s.bad = [] → IrqOutside s →
     let ready := s.opReady o = true ∧ s.itsTurn (State.servedAt o.pa) o = true
     let home := State.onExpander o.pa = false ∧ ready
     let here : State := { s with served := s.served.set (State.servedAt o.pa) (s.regulatorOf o + 1) }
     let late := precedes (s.pt + 0x2000) (s.storeWts o.pa (s.ptsOf o))
     let old := s.peek o.pa o.n
     let leaves := fun (i : Instr) (bs : List Byte) => ∃ t, exec i s = .next t ∧ t.mem = memPut s.mem o.pa bs ∧
       ∃ o', t.getOp o.id = some o' ∧ o'.stage = .performed ∧ o'.dst = o.dst ∧ (o.kind = .atomic → o'.val = old)
     let waits := fun (i : Instr) => exec i s = .next (here.setOp { o with stage := .waitPt, wts := s.storeWts o.pa (s.ptsOf o) })
     let new := Bits.toBytes (State.atomNew o.aop (8 * o.n) old o.data o.cmp) o.n
     let done := fun (t : State) (rs : List RegVal) => t.endOp o rs
     (home → o.kind = .load → o.leased = false → ∃ t w, exec (.loadRequestAtHome o.id) s = .next t ∧ t.mem = s.mem ∧
       t.getOp o.id = some { o with
         stage := .performed, wts := w, val := Bits.ofBytes (s.seenBytes o.ctx o.hy o.pa o.n) }) ∧
     (home → o.kind = .load → o.leased = true → o.sent = true → ∃ t w r, exec (.loadRequestAtHome o.id) s = .next t ∧
       t.mem = s.mem ∧ t.getOp o.id = some { o with
         stage := .performed, wts := w, rts := r, val := old, data := s.peek (o.pa / 128 * 128) 128 }) ∧
     (o.hy = 0 → Bits.ofBytes (s.seenBytes o.ctx o.hy o.pa o.n) = Bits.ofBytes (memBytes s.mem o.pa o.n)) ∧
     (o.kind = .load → o.stage = .performed → o.leased = false → s.inTurn o = true → exec (.dataReply o.id) s = .next
       (done (s.modAgent (unitNo o.unit) fun a => { a with pts := later a.pts o.wts }) (State.resultsOf o o.val))) ∧
     (o.kind = .load → o.stage = .performed → o.leased = true → s.inTurn o = true → exec (.dataReply o.id) s = .next
       (done ((s.modAgent (unitNo o.unit) fun a => { a with pts := later a.pts o.wts }).keepReply (unitNo o.unit) (o.pa / 128)
         ⟨Bits.toBytes o.data 128, o.wts, o.rts⟩) (State.resultsOf o o.val))) ∧
     (∀ r v, o.dst = [r] → r.file = .v → o.signed = false →
       State.resultsOf o v = [{ r with val := BitVec.ofNat 64 (v % 2 ^ 32) }]) ∧
     (home → o.kind = .store → o.tag = 0 → o.repl = false →
       (late = true → waits (.storeAtHome o.id)) ∧
       (late = false → leaves (.storeAtHome o.id) (Bits.toBytes o.data o.n))) ∧
     (home → o.kind = .store → o.tag ≠ 0 →
       (s.verRoom o.ctx o.tag o.pa = false →
         exec (.storeAtHome o.id) s = .next (here.setOp { o with stage := .waitSpace, since := s.pace o.unit.die })) ∧
       (s.verRoom o.ctx o.tag o.pa = true → ∃ t, exec (.storeAtHome o.id) s = .next t ∧
         ∀ i < o.n, t.verAt o.ctx o.tag (o.pa + i) = some (BitVec.ofNat 8 (o.data / 256 ^ i)))) ∧
     (o.kind = .store → o.tag ≠ 0 → o.stage = .waitSpace → s.verRoom o.ctx o.tag o.pa = true →
       ∃ t, exec (.versionSpaceFreed o.id) s = .next t ∧
         ∀ i < o.n, t.verAt o.ctx o.tag (o.pa + i) = some (BitVec.ofNat 8 (o.data / 256 ^ i))) ∧
     (o.stage = .waitSpace → o.since + 4096 ≤ s.pace o.unit.die → exec (.vsfull o.id) s = .next (s.parkLate o
       [⟨o.lane, Cause.vsfull, BitVec.ofNat 64 (s.verWords o.ctx o.tag), o.ea⟩])) ∧
     (home → o.kind = .atomic → o.repl = false →
       (late = true → waits (.atomicAtHome o.id)) ∧ (late = false → leaves (.atomicAtHome o.id) new)) ∧
     (home → o.kind = .hurdle → o.repl = false → late = false → ∃ t, exec (.memoryHurdleArrival o.id) s = .next t ∧
       t.mem = memPut s.mem o.pa (Bits.toBytes (State.hurdleWord (s.peek o.pa 8) o.data).1 8)) ∧
     (∀ x n, n + x % 2 ^ 32 < x / 2 ^ 32 % 2 ^ 31 → x < 2 ^ 64 → State.hurdleWord x n = (x + n, false)) ∧
     (∀ x n, x < 2 ^ 64 → n + x % 2 ^ 32 < 2 ^ 32 → x / 2 ^ 32 % 2 ^ 31 ≤ n + x % 2 ^ 32 →
       State.hurdleWord x n = ((x / 2 ^ 32 % 2 ^ 31) * 2 ^ 32 + (if x < 2 ^ 63 then 2 ^ 63 else 0), true)) ∧
     (o.kind = .atomic ∨ o.kind = .hurdle → o.stage = .performed → o.tag = 0 → s.inTurn o = true → exec (.storeAck o.id) s = .next
       (done (s.modAgent (unitNo o.unit) fun a => { a with
         pts := later a.pts o.wts, copies := a.copies.set (o.pa / 128) none }) (State.resultsOf o o.val))) ∧
     (o.kind = .store → o.stage = .performed → s.inTurn o = true → ((s.agent (unitNo o.unit)).copies.get (o.pa / 128) = none ∨ o.tag ≠ 0) →
       exec (.storeAck o.id) s = .next (done (s.modAgent (unitNo o.unit) fun a => { a with pts := later a.pts o.wts }) [])) ∧
     (∀ c, o.kind = .store → o.stage = .performed → s.inTurn o = true → o.tag = 0 →
       (s.agent (unitNo o.unit)).copies.get (o.pa / 128) = some c → ∃ t c', exec (.storeAck o.id) s = .next t ∧
         (t.agent (unitNo o.unit)).copies.get (o.pa / 128) = some c' ∧ (precedes o.wts c.wts = true → c' = c) ∧
         (precedes o.wts c.wts = false → c'.wts = o.wts ∧ c'.rts = o.wts ∧ ∀ i < c.data.length, c'.data[i]? =
           if o.pa % 128 ≤ i ∧ i < o.pa % 128 + o.n then some (BitVec.ofNat 8 (o.data / 256 ^ (i - o.pa % 128)))
           else c.data[i]?)) ∧
     (State.onExpander o.pa = true → ready → exec (.expanderAccess o.id) s = .next (here.performOp o)) ∧
     (∀ u, o.owner = some u → s.ordReady o = true → s.wmWaits u o.team o.ea.toNat o.n = false →
       let port := Instr.scratchpadPortAccess o.id
       let had := Bits.ofBytes (s.scrBytes u o.pa o.n)
       (o.kind = .scrLoad → exec port s = .next (done s (State.resultsOf o had))) ∧
       (o.kind = .scrStore → exec port s = .next (done (s.scrPut u o.pa (Bits.toBytes o.data o.n)) [])) ∧
       (o.kind = .scrAtomic → exec port s = .next (done (s.scrPut u o.pa
         (Bits.toBytes (State.atomNew o.aop (8 * o.n) had o.data o.cmp) o.n)) (State.resultsOf o had))))) ∧
  (∀ (w o b c : Nat), w = 32 ∨ w = 64 → o < 2 ^ w → b < 2 ^ w →
     let n := fun op => State.atomNew op w o b c
     let i := fun (x : Nat) => if w = 32 then (BitVec.ofNat 32 x).toInt else (BitVec.ofNat 64 x).toInt
     n .add = (o + b) % 2 ^ w ∧ n .and = o &&& b ∧ n .or = o ||| b ∧ n .xor = o ^^^ b ∧ n .xchg = b ∧
     n .cas = (if o = c then b else o) ∧ n .minu = min o b ∧ n .maxu = max o b ∧
     (i o ≤ i b → n .min = o ∧ n .max = b) ∧ (i b < i o → n .min = b ∧ n .max = o) ∧
     (b ≤ o → n .inc = 0) ∧ (o < b → n .inc = o + 1) ∧
     (o = 0 ∨ b < o → n .dec = b) ∧ (0 < o → o ≤ b → n .dec = o - 1) ∧
     n .fadd = Num.addE (if w = 64 then Num.f64 else Num.f32) o b ∧
     n .fmin = Num.minE (if w = 64 then Num.f64 else Num.f32) o b ∧
     n .fmax = Num.maxE (if w = 64 then Num.f64 else Num.f32) o b)

/-- R170 to R173, R239, R242 to R245. Program time and package time; stamps, updates and their answers on replicated pages; and
merged reads: a segment request opens a window of 64 ticks or joins one, a closed window reads its lines once and sends
beats of 64 bytes to every member, and the last beat completes the LDM.
The model's choices: log 29, 30, 42, 44, 86, 103. -/
def Obligations.ReplicasAndMergedReads : Prop :=
  ∀ (s : State) (d : Nat),
    (∀ n, State.agentNos.contains n = true → exec (.leaseTick n) s = .next (s.modAgent n fun a => { a with pts := a.pts + 1 })) ∧
    (s.ptSent + 256 ≤ max (s.pace 0) (s.pace 1) → ∃ t, exec .packageTimeExchange s = .next t ∧
      ((∀ o ∈ s.ops, o.stage ≠ .waitPt) → t.pt = later s.pt s.latest ∧ t.mem = s.mem ∧
        ∀ n, State.agentNos.contains n = true → (t.agent n).pts = later (s.agent n).pts (t.pt - 0x1000))) ∧
    (max (s.pace 0) (s.pace 1) < s.ptSent + 256 → exec .packageTimeExchange s = .next s) ∧
    (∀ o, s.getOp o.id = some o → o.repl = true → o.tag = 0 → o.vc = [] →
      o.kind = .store ∨ o.kind = .atomic ∨ o.kind = .hurdle → s.opReady o = true →
      let at_ := homeDie o.pa
      let home := s.replHome at_ (s.partOf o.unit) o.pa
      let ptn := s.ptnOf at_ (s.partOf o.unit)
      let c := s.clockOf at_ ptn
      let w := s.domNo at_
      let c' := c.set w ((c.getD w 0 + 1) % 2 ^ 16)
      let t := s.modDie at_ fun x => { x with vc := x.vc.set ptn c' }
      let o' := { o with vc := c'.take 16, wts := s.ptsOf o }
      (s.die at_).fenced.contains (.die home) = false →
        (home = w → exec (.replicaStamp o.id) s = .next (t.setOp o')) ∧
        (home ≠ w → exec (.replicaStamp o.id) s = .next ((t.setOp { o' with stage := .waitApplied }).sendFrame at_ home 0
          (State.reqBytes o' (c'.take 16) ptn w)))) ∧
    (∀ m, (s.die d).fenced.contains (.die m.home) = false → (s.reg d Win.dtcfg).toNat.testBit 16 = true → m.home = s.domNo d →
      exec (.update d m) s = .next (s.modDie d fun x => { x with upd := x.upd ++ [m] })) ∧
    (∀ m, (s.die d).fenced.contains (.die m.home) = true → exec (.update d m) s = .next s) ∧
    (∀ i, s.firstReady d ≠ some i → exec (.updateApply d i) s = .next s) ∧
    (∀ i, s.firstReady d = some i ↔ (∃ m, (s.die d).upd[i]? = some m ∧ s.canApply d m = true) ∧
      ∀ j m, j < i → (s.die d).upd[j]? = some m → s.canApply d m = false) ∧
    (∀ i m, (s.die d).upd[i]? = some m → s.firstReady d = some i → (s.die d).atomQ = [] →
      ∃ t, exec (.updateApply d i) s = .next t ∧
      (s.holds d (s.entryOf d m.ptn) m.addr = true → homeDie m.addr = d → t.mem = (s.applyWords d m).mem) ∧
      (s.holds d (s.entryOf d m.ptn) m.addr = false ∨ homeDie m.addr ≠ d → t.mem = s.mem)) ∧
    (∀ m, s.canApply d m = true ↔ let c := s.clockOf d m.ptn
      let w := m.stamper
      (m.vc.getD w 0 = ((if w = s.domNo d then c.getD 16 0 else c.getD w 0) + 1) % 2 ^ 16) ∧
      ∀ x < 16, x ≠ w → State.notAfter (m.vc.getD x 0) (c.getD x 0) = true) ∧
    (∀ addr stamper src, (s.die d).fenced.contains (.die src) = false →
      exec (.applied d addr stamper src) s = .next (s.appliedAt d addr stamper src)) ∧
    (∀ addr stamper src h more, (s.die d).homeUpd = h :: more → h.addr = addr → h.stamper = stamper → src ∈ h.waiting →
      (h.waiting.filter (fun x => x != src) ≠ [] → s.appliedAt d addr stamper src = s.modDie d fun x => { x with
        homeUpd := { h with waiting := h.waiting.filter fun x => x != src } :: more }) ∧
      (∀ o, h.waiting = [src] → h.op = some o.id → s.getOp o.id = some o → o.kind ≠ .hurdle →
        s.appliedAt d addr stamper src = (s.modDie d fun x => { x with homeUpd := more }).setOp { o with stage := .performed })) ∧
    (∀ o n, s.getOp o.id = some o → o.kind = .ldm → n ∉ o.vc → State.segment o.pa (o.n / 128) n ≠ [] → s.ldmClear o = true →
      s.waitsReg o = false → s.lostPa o.unit.die o.pa = false → s.itsTurn n o = true →
      let t := s.setOp { o with vc := n :: o.vc }
      let mine := fun (x : Window) => x.slice = n ∧ x.ctx = s.partOf o.unit ∧ x.pa = o.pa ∧ x.lines = o.n / 128
      let new := { (default : Window) with
        id := s.nextId, slice := n, ctx := s.partOf o.unit, pa := o.pa, lines := o.n / 128
        closesAt := s.pace (State.placeDie n) + 64, opened := true, members := [o.id] }
      (n < 64 → (∀ x ∈ s.windows, mine x → if x.opened = true then x.closesAt ≤ s.pace (n / 32) else x.beats.length ≤ x.next) →
        exec (.ldmSegmentRequest o.id n) s = .next { t with nextId := s.nextId + 1, windows := s.windows ++ [new] }) ∧
      (∀ x, n < 64 → s.windows = [x] → x.opened = true → mine x → s.pace (n / 32) < x.closesAt →
        exec (.ldmSegmentRequest o.id n) s = .next { t with windows := [{ x with members := x.members ++ [o.id] }] }) ∧
      (∀ x, n < 64 → s.windows = [x] → x.opened = false → mine x → x.next < x.beats.length → (o.unit, o.slot) ∉ x.tainted →
        exec (.ldmSegmentRequest o.id n) s = .next { t with windows := [{ x with late := x.late ++ [(o.id, x.next)] }] }) ∧
      (64 ≤ n → s.windows = [] → s.bad = [] →
        exec (.ldmSegmentRequest o.id n) s = .next { t with
          nextId := s.nextId + 1
          windows := [{ new with
            closesAt := s.pace (State.placeDie n), opened := false
            beats := (State.segment o.pa (o.n / 128) n).flatMap fun a => [memBytes s.mem a 64, memBytes s.mem (a + 64) 64]
            addrs := (State.segment o.pa (o.n / 128) n).flatMap fun a => [a, a + 64] }] })) ∧
    (∀ x, x ∈ s.windows → (∀ y ∈ s.windows, y.id = x.id → y = x) →
      let b := fun (op i : Nat) => (⟨op, x.addrs.getD i 0, x.beats.getD i []⟩ : Beat)
      let now := (x.members ++ (x.late.filter fun l => l.2 ≤ x.next).map (·.1)).map fun op => b op x.next
      (x.opened = true → x.closesAt ≤ s.pace (State.placeDie x.slice) → s.bad = [] →
        ∃ t, exec (.mergeWindowClose x.id) s = .next t ∧ t.mem = s.mem ∧ t.ops = s.ops ∧
          t.windows = s.windows.map fun y => if y.id == x.id then { x with
            opened := false, next := 0
            beats := (State.segment x.pa x.lines x.slice).flatMap fun a => [memBytes s.mem a 64, memBytes s.mem (a + 64) 64]
            addrs := (State.segment x.pa x.lines x.slice).flatMap fun a => [a, a + 64] } else y) ∧
      (x.opened = true → s.pace (State.placeDie x.slice) < x.closesAt → exec (.mergeWindowClose x.id) s = .next s) ∧
      (x.opened = false → x.next + 1 < x.beats.length → exec (.multicastBeat x.id) s = .next { s with
          beats := s.beats ++ now
          windows := s.windows.map fun y => if y.id == x.id then { x with next := x.next + 1 } else y }) ∧
      (x.opened = false → x.beats.length ≤ x.next + 1 → exec (.multicastBeat x.id) s = .next { s with
          beats := s.beats ++ now ++ x.late.flatMap fun l => (List.range l.2).map fun i => b l.1 i
          windows := s.windows.filter fun y => y.id != x.id })) ∧
    (∀ o b more, s.getOp o.id = some o → o.kind = .ldm → s.beats = b :: more → b.op = o.id → s.bad = [] →
      ∀ u, o.owner = some u → u.kind = .tt →
      let t := ({ s with beats := more } : State).scrPut u (o.data + (b.pa - o.pa)) b.data
      (1 < o.line → exec (.ldmBeatArrival o.id) s = .next (t.setOp { o with line := o.line - 1 })) ∧
      (o.line ≤ 1 → exec (.ldmBeatArrival o.id) s = .next (t.endOp o [])))

/-- R180, R185, R186, R233, R234. A page walk fills the translation buffers of its unit and cluster; an invalidation drops what
it names once earlier accesses are done. A resolve is accepted or refused on its arrival, changes the table, and, when every
unit has heard and acknowledged it, merges or discards versions and answers their number.
The model's choices: log 17, 44. -/
def Obligations.TranslationAndResolves : Prop :=
  ∀ (s : State),
    (∀ u va, (s.unitSlice u).ctx = none → exec (.pageWalk u va) s = .next s) ∧
    (∀ u va c, (s.unitSlice u).ctx = some c → ∀ x,
      walkBoth s u.die c (s.unitSlice u).pidx false .read va.toNat = .ok x → x.bits < 64 →
      tlbHit s u c (s.unitSlice u).pidx va.toNat = none → ∃ t e, exec (.pageWalk u va) s = .next t ∧
        (e.ctx = c.ctxid ∧ e.asid = c.asid ∧ e.vmid = vmidOf s u.die (s.unitSlice u).pidx ∧ e.va = va.toNat ∧ e.pa = x.pa ∧
          e.bits = x.bits ∧ e.perm1 = x.perm1 ∧ e.perm2 = x.perm2 ∧ e.nocache = x.nocache ∧ e.repl = x.repl) ∧
        t = (s.modDie u.die fun d => { d with tlb := (t.die u.die).tlb, walks := (t.die u.die).walks }) ∧
        (∀ k ∈ tlbsOf u, e ∈ (t.die u.die).tlb.get k) ∧
        (∀ k, k ∉ tlbsOf u → (t.die u.die).tlb.get k = (s.die u.die).tlb.get k) ∧
        (∀ y ∈ (s.die u.die).walks, y ∈ (t.die u.die).walks)) ∧
    (∀ size k e l, (l.length < size → State.putTlb size k e l = l ++ [e]) ∧
      (size ≤ l.length → l ≠ [] → (State.putTlb size k e l).length = l.length ∧ e ∈ State.putTlb size k e l)) ∧
    (∀ d v, s.plat.ready = true → (s.die d).inval = none →
      (v.getLsbD 0 = false → exec (.translationInvalidation d v) s = .next (s.plainWrite d Win.xinvc v)) ∧
      (v.getLsbD 0 = true → exec (.translationInvalidation d v) s = (let t := s.plainWrite d Win.xinvc v
        .next (t.modDie d fun x => { x with inval := some (t.reg d Win.xinvc, s.nextId) })))) ∧
    (∀ d v, (s.die d).inval.isSome = true → exec (.translationInvalidation d v) s = .next s) ∧
    (∀ d v id, (s.die d).inval = some (v, id) →
      let page := (s.reg d Win.xinva).toNat
      let busy := (∃ o ∈ s.ops, o.id < id ∧ o.unit.die = d ∧ (o.kind = .ldm ∨ (o.owner = none ∧ o.stage ≠ .performed))) ∨
        ∃ f ∈ s.flits, f.id < id ∧ f.issuer.die = d
      (busy → exec (.invalidationDone d) s = .next s) ∧
      (¬ busy → ∃ t, exec (.invalidationDone d) s = .next t ∧ (t.die d).inval = none ∧
        t = (s.modDie d fun x => { x with tlb := (t.die d).tlb, walks := (t.die d).walks, inval := none }) ∧
        (∀ p ∈ (t.die d).tlb, ∀ e ∈ p.2, State.invMatches v.toNat page e = false ∧ ∃ q ∈ (s.die d).tlb, q.1 = p.1 ∧ e ∈ q.2) ∧
        (∀ p ∈ (s.die d).tlb, ∀ e ∈ p.2, State.invMatches v.toNat page e = false → ∃ q ∈ (t.die d).tlb, q.1 = p.1 ∧ e ∈ q.2) ∧
        ∀ y, y ∈ (t.die d).walks ↔ y ∈ (s.die d).walks ∧ State.invWalk v.toNat page y = false)) ∧
    (∀ v page e,
      let vm := e.vmid = v / 2 ^ 32 % 2 ^ 14
      let as := e.global = true ∨ e.asid = v / 2 ^ 16 % 2 ^ 16
      (v % 16 / 4 = 0 → State.invMatches v page e = true) ∧
      (v % 16 / 4 = 1 → (State.invMatches v page e = true ↔ vm)) ∧
      (v % 16 / 4 = 2 → (State.invMatches v page e = true ↔ vm ∧ (v.testBit 1 = true ∨ as))) ∧
      (v % 16 / 4 = 3 → (State.invMatches v page e = true ↔
        vm ∧ (v.testBit 1 = true ∨ (as ∧ e.va / 2 ^ e.bits = page / 2 ^ e.bits))))) ∧
    (∀ i r, s.resolves[i]? = some r → r.stage = .sent →
      (∀ c, s.resolveCause r = some c → exec (.resolveArrival i) s =
        .next ((({ s with resolves := s.resolves.eraseIdx i } : State).pendDone r.unit r.slot r.id []).parkBack r.unit r.slot r.pc
          ((Bits.lanes r.lanes).map fun l => ⟨l, c, 0, 0⟩))) ∧
      (s.resolveCause r = none → (∀ w, s.warp r.unit r.slot = some w → ∀ p ∈ w.paths, p.wait ≠ .memArrival r.id) →
        (∃ q ∈ s.resolves, q.ctx = r.ctx ∧ q.stage = .accepted) → exec (.resolveArrival i) s =
          .next { s.flow r.unit r.slot (fun _ w => w) with
            resolves := s.resolves.eraseIdx i ++ [{ r with stage := .queued }] })) ∧
    (∀ r, s.resolves = [r] → r.stage = .sent → s.resolveCause r = none →
      ∃ t us, exec (.resolveArrival 0) s = .next t ∧ t.resolves = [{ r with
        stage := .accepted, toNotify := us, toAck := us, par := (s.hypAt r.ctx r.h.toNat).parent
        tags := if r.refute then s.hypSubtree r.ctx r.h.toNat else [r.h.toNat] }]) ∧
    (∀ r, (r.h = 0 → s.resolveCause r = some Cause.hresroot) ∧
      (r.h ≠ 0 → (s.hypAt r.ctx r.h.toNat).st ≠ HEnt.opened → s.resolveCause r = some Cause.hresst) ∧
      (r.h ≠ 0 → (s.hypAt r.ctx r.h.toNat).st = HEnt.opened →
        (∀ q ∈ s.resolves, q.stage ≠ .queued) → s.resolveCause r = none)) ∧
    (∀ u, exec (.hypothesisStateNotice u) s = .next { s with resolves := s.resolves.map fun r =>
      if r.stage = .accepted then { r with toNotify := r.toNotify.filter fun x => x != u } else r }) ∧
    (∀ u, s.ops = [] → s.flits = [] → exec (.resolveCoreAck u) s = .next { s with resolves := s.resolves.map fun r =>
      if r.stage = .accepted ∧ u ∉ r.toNotify then { r with toAck := r.toAck.filter fun x => x != u } else r }) ∧
    (∀ c, (∀ r ∈ s.resolves, r.ctx = c → r.stage ≠ .merged ∧ (r.stage = .accepted → r.toAck ≠ [] ∨ r.toNotify ≠ [])) →
      exec (.versionSweep c) s = .next s) ∧
    (∀ r, s.resolves = [r] → r.stage = .merged →
      (s.stampsApplied (s.ctxPart r.ctx) r.posts = true → exec (.versionSweep r.ctx) s = .next (s.resolveEnd r)) ∧
      (s.stampsApplied (s.ctxPart r.ctx) r.posts = false → exec (.versionSweep r.ctx) s = .next s)) ∧
    (∀ r, s.resolves = [r] → r.stage = .accepted → r.toAck = [] → r.toNotify = [] →
      let mine := fun (v : Version) => v.ctx = r.ctx ∧ v.tag.toNat ∈ r.tags
      ∃ t, exec (.versionSweep r.ctx) s = .next t ∧
        (r.refute = true → ∀ v, v ∈ t.vers ↔ v ∈ s.vers ∧ ¬ mine v) ∧
        (r.refute = false → r.par = 0 ∨ r.par % 256 ∉ r.tags → ∀ v ∈ t.vers, ¬ mine v) ∧
        (r.refute = false → r.par ≠ 0 → ∀ v ∈ s.vers, mine v → (∀ x ∈ s.vers, mine x → x.pa = v.pa → x = v) →
          t.verAt r.ctx (BitVec.ofNat 8 r.par) v.pa = some v.val) ∧
        (r.refute = true ∨ r.par ≠ 0 → s.stampsApplied (s.ctxPart r.ctx) (s.stampsNow (s.ctxPart r.ctx)) = true → t.resolves = []))

/-- R205, R208, R210 to R215, R219, R220, R226, R276, R306, R307, R311, R314, R320 to R324, R393, R398, R409. Events of the
engines, copies and graphics units: heads of queues start, engines make their steps, notes are raised, copies are buffered,
sent, loaded and taken, contributions arrive and are sent again, slots of sequencers go on, and a refit starts and visits its
nodes.
The model's choices: log 53, 54, 56, 59, 61, 63, 82, 87, 91. -/
def Obligations.EngineAndCopyEvents : Prop :=
  ∀ (s : State) (u : UnitId) (q : Nat),
    let running := (s.unitSlice u).st = .running
    let idle := u.kind = .tt ∧ q < 2 ∧ s.engRunning u q = none ∧ s.engFrozen u q = false ∧ running
    let starts := fun (c : Cmd) (r : List Cmd) =>
      let t := s.setQueue u q r
      if c.isNote then t else
        let x := s.modeOf u c.owner q
        t.setRunning u q (some (if c.begun then c else { c with mode := x.mode, lfsr := x.lfsr, begun := true }))
    let live := fun (c : Cmd) e => u.kind = .tt ∧ s.engFrozen u e = false ∧ s.engRunning u e = some c ∧ c.unit = u ∧
      s.engLive u c.ctx = true
    (∀ c r, idle → s.engQueue u q = c :: r → (∀ h d m, c.instr ≠ .emode h d m) →
      (c.timed = false → exec (.engineCommandStart u q) s = .next (starts c r)) ∧
      (c.timed = true → c.time ≤ s.pace u.die → exec (.engineIssueTime u q) s = .next (starts c r)) ∧
      (c.timed = true → s.pace u.die < c.time → exec (.engineIssueTime u q) s = .next s)) ∧
    (∀ c r h d m, idle ∨ (q = 2 ∧ u.kind = .tt ∧ running ∧ s.engFrozen u 2 = false) → s.engQueue u q = c :: r →
      c.instr = .emode h d m →
      let x := s.modeOf u c.owner q
      exec (.emodeApply u q) s = .next ((s.setQueue u q r).setMode u { x with
        mode := m, lfsr := if m = .sto then BitVec.ofNat 32 (Num.seedOf c.kv.toNat) else x.lfsr })) ∧
    (∀ c h e acc sp f a b d, live c 0 → c.instr = .emm h e acc sp → fbOf c = some f → recOf? c.ra = some a →
      recOf? c.rb = some b → recOf? c.rd = some d →
      let x := emmShape a b
      let zero := !acc && !c.zdone
      let accs := s.emmAccs c f sp zero a b d
      (∀ cause ad, s.fates c .mtx accs = .stop cause ad → exec (.matrixEngineStep u) s = .next (s.engStop c 0 0 cause ad)) ∧
      (∀ cause ad, s.fates c .mtx accs = .ecc cause ad → exec (.matrixEngineStep u) s = .next (s.engStop c 0 2 cause ad)) ∧
      (s.fates c .mtx accs = .waits → exec (.matrixEngineStep u) s = .next s) ∧
      (s.fates c .mtx accs = .ok → s.engMeter c .mtx accs = none → exec (.matrixEngineStep u) s = .next s) ∧
      (∀ s₁, s.fates c .mtx accs = .ok → s.engMeter c .mtx accs = some s₁ → sp = false →
        let c' := { c with sides := s₁.emmSides c f a b }
        let z := if zero then (x.dAll c.cnt3).foldl (fun t e => t.putElem c' d e 0) s₁ else s₁
        let t := (List.range x.m).foldl (fun t i => (List.range x.n).foldl (fun t j =>
          t.putElem c' d (x.dPos c.cnt3 i j) (t.emmCell c' f sp a b d i j)) t) z
        (c.cnt2 + 1 < x.groups → exec (.matrixEngineStep u) s =
          .next (t.setRunning u 0 (some { c' with cnt2 := c.cnt2 + 1, zdone := !acc }))) ∧
        (x.groups ≤ c.cnt2 + 1 → c.cnt3 + 1 < x.outer → exec (.matrixEngineStep u) s =
          .next (t.setRunning u 0 (some { c' with cnt2 := 0, cnt3 := c.cnt3 + 1, zdone := false }))) ∧
        (x.groups ≤ c.cnt2 + 1 → x.outer ≤ c.cnt3 + 1 →
          exec (.matrixEngineStep u) s = .next ((t.setRunning u 0 none).finishCmd c' 0)))) ∧
    (∀ c h e op bs f a d s₁, live c 1 → c.instr = .evx h e op bs → fbOf c = some f → recOf? c.ra = some a → recOf? c.rd = some d →
      let b := if bs || op.unary then none else recOf? c.rb
      let last := min (c.pos + 256) d.total
      let es := (List.range (last - c.pos)).map (c.pos + ·)
      let accs := s.recAccs c .vec a .read es ++ (match b with | some b => s.recAccs c .vec b .read es | none => []) ++
        s.recAccs c .vec d .write es
      let int := evxInt op
      let second := fun (t : State) (e : Nat) => if bs then c.kv.setWidth 32 else match b with
        | some b => vecIn int f.b.elem (t.elemCode c b e)
        | none => 0
      let r := es.foldl (fun (x : Word × State) e =>
        x.2.vecPut c int f d x.1 e (evxFn op (vecIn int f.a.elem (x.2.elemCode c a e)) (second x.2 e))) (c.lfsr, s₁)
      (s.fates c .vec accs = .ok → s.engMeter c .vec accs = some s₁ →
        exec (.vectorEngineStep u) s = .next (r.2.vecEnd c d.total last r.1)) ∧
      (∀ cause ad, s.fates c .vec accs = .stop cause ad → exec (.vectorEngineStep u) s = .next (s.engStop c 1 0 cause ad))) ∧
    (∀ c h e op f a d s₁, live c 1 → c.instr = .ered h e op → fbOf c = some f → recOf? c.ra = some a → recOf? c.rd = some d →
      let last := min (c.pos + 256) d.total
      let es := (List.range (last - c.pos)).map (c.pos + ·)
      let ins := fun (e : Nat) => (List.range (a.count 0)).map fun k => e * a.count 0 + k
      let accs := s.recAccs c .vec a .read (es.flatMap ins) ++ s.recAccs c .vec d .write es
      let int := eredInt op
      let r := es.foldl (fun (x : Word × State) e => x.2.vecPut c int f d x.1 e
        (eredTree op ((ins e).map fun k => eredIn op (vecIn int f.a.elem (x.2.elemCode c a k))))) (c.lfsr, s₁)
      (s.fates c .vec accs = .ok → s.engMeter c .vec accs = some s₁ →
        exec (.vectorEngineStep u) s = .next (r.2.vecEnd c d.total last r.1)) ∧
      (∀ cause ad, s.fates c .vec accs = .stop cause ad → exec (.vectorEngineStep u) s = .next (s.engStop c 1 0 cause ad))) ∧
    (∀ x ctx, (s.core u).eng.notes = [x] → (s.unitSlice u).ctx = some ctx →
      (∀ e ∈ x.left, e.1 = q ∧ ∀ c ∈ s.cmdsIn u q x.owner, c.isNote = true ∨ e.2 < c.id) →
      ∃ t, exec (.enoteReached u q) s = .next t ∧ (t.core u).eng.notes = [] ∧
        (t.tagCnt u x.owner x.tag).raised = ((s.tagCnt u x.owner x.tag).raised + 1) % 2 ^ 32) ∧
    (∀ c r, s.engQueue u 2 = c :: r → u.kind = .tt → running → s.engFrozen u 2 = false →
      (c.isNote = true → c.isColl = false → exec (.copyBufferEntry u) s = .next (s.setQueue u 2 r)) ∧
      (c.isNote = false → c.isColl = false → c.isCopy = true → (s.core u).eng.tbuf.length < 64 → exec (.copyBufferEntry u) s =
        .next (((s.setQueue u 2 r).modEng u fun e => { e with
          tbuf := e.tbuf ++ [{ c with time := if c.timed then c.time else s.pace u.die, headAt := none }] }).markHead u)) ∧
      (c.isColl = true → exec (.copyBufferEntry u) s = .next (s.collStart u c))) ∧
    (∀ c, (s.core u).eng.tbuf = [c] → u.kind = .tt → running → s.engFrozen u 2 = false → s.engRunning u 2 = none →
      (s.pace u.die < c.time → exec (.copySend u) s = .next s) ∧
      (c.time ≤ s.pace u.die → exec (.copySend u) s = .next (((s.modEng u fun e => { e with tbuf := [] }).markHead u).headCopy c))) ∧
    (∀ c a d, s.engRunning u 2 = some c → c.unit = u → recOf? c.ra = some a → recOf? c.rd = some d → a.space ≠ 0 →
      (∀ t, s.chunkGate c a d = some t → exec (.copyFlitLoad u) s = .next t) ∧
      (s.chunkGate c a d = none →
        let first := (State.chunkAt c a).1 + (c.runs.map (·.2)).sum
        let at_ := stationOf u
        exec (.copyFlitLoad u) s =
          .next (s.loadFlit c a d u.die at_ at_ first (min (2048 / a.width) ((State.chunkAt c a).2 - first))))) ∧
    (∀ c a d die slice, s.engRunning u 2 = some c → recOf? c.ra = some a → recOf? c.rd = some d → a.space = 0 →
      exec (.sliceRunLoad die slice u) s = .next (s.runLoad c a d (32 * die + slice))) ∧
    (∀ c d die own for_ first n, c.unit = u → s.engRunning u 2 = some c → s.lostPeer u.die = false → ∀ a,
      let bs := s.copyBytes c a d ((List.range n).map (first + ·))
      State.portsTo d bs = [] →
      (s.findSlot die own for_ (c.n0 + 32) fun r =>
        let ts := State.flitTo c d die bs
        ts.1.all (fun t => decide (hops r.track own t.2.2 ≤ r.span)) && (ts.2.isEmpty || (r.bridge own).isSome)) = none →
      s.loadFlit c a d die own for_ first n = s.setRunning u 2 (some c)) ∧
    (∀ f, s.flits = [f] → f.dce = false → f.bridge = none →
      (∀ h, f.dests = [h] → s.cycleBegun f.die h.at_ = true → exec (.flitArrival f.id) s = .next (s.takeFlit f h)) ∧
      ((∀ h ∈ f.dests, s.cycleBegun f.die h.at_ = false) → exec (.flitArrival f.id) s = .next s)) ∧
    (∀ f h l, h.rx = .unit u → s.flits = [f] → f.dests = [h] → s.flitCmd f = none → l = s.takeFlit f h → l.flits = []) ∧
    (∀ f b, s.flits = [f] → f.bridge = some b →
      let due := f.dests.foldl (fun m h => max m h.at_) 0
      let own := bridgeStation b
      let st := fun (h : Hop) => match h.rx with | .unit u => stationOf u | .home n => sliceStation (n % 32)
      let slot := s.findSlot f.die own f.src due fun _ => true
      (s.lostPeer f.die = true → exec (.bridgeCrossing f.id) s = .next { s with flits := [] }) ∧
      (s.lostPeer f.die = false → s.cycleBegun f.die due = false → exec (.bridgeCrossing f.id) s = .next s) ∧
      (s.lostPeer f.die = false → slot = none → exec (.bridgeCrossing f.id) s = .next s) ∧
      (s.lostPeer f.die = false → s.cycleBegun f.die due = true → ∀ r, slot = some r →
        let ds := (f.dests.filter fun h => hops r.track own (st h) ≤ r.span).map fun h =>
          { h with at_ := r.cycle + hops r.track own (st h) }
        (ds ≠ [] → exec (.bridgeCrossing f.id) s = .next { s.slotTaken f.die own r with
          flits := [{ f with bridge := none, dests := ds }] }) ∧
        (ds = [] → s.flitCmd f = none → exec (.bridgeCrossing f.id) s = .next { s.slotTaken f.die own r with flits := [] }))) ∧
    (∀ die e,
      ((s.die die).dceRun.get e = none → exec (.dieCopySend die e) s = .next (s.dceHead die e)) ∧
      (∀ c a d, (s.die die).dceRun.get e = some c → recOf? c.ra = some a → recOf? c.rd = some d →
        exec (.dieCopySend die e) s = .next (s.meshChunk c a d)) ∧
      (∀ c r, (s.die die).dce.get e = c :: r → (s.unitSlice c.unit).st = .running → (s.die die).dceFrozen.get e = false →
        c.isNote = false → c.timed = false → s.dceHead die e =
          ((s.modDie die fun d => { d with dce := d.dce.set e r }).markDce die e).headCopy c) ∧
      (∀ f h more, s.flits = [f] → f.dce = true → f.issuer.die = die → dceOf f.issuer = e → f.dests = h :: more →
        exec (.copyChunkArrival die e) s = .next (s.takeFlit f h))) ∧
    (∀ m x, s.collNet = [x] → x.dst = u → x.msg = m → x.arrived = false → x.refused = none →
      (s.collTaken x = true → exec (.collContribution u m) s =
        .next (({ s with collNet := [{ x with arrived := true }] } : State).collCheck u)) ∧
      (s.collTaken x = false → exec (.collContribution u m) s =
        .next (({ s with collNet := [{ x with refused := some (s.pace u.die) }] } : State).collCheck u))) ∧
    (∀ x t i, s.collNet[i]? = some x → x.dst = u → x.refused = some t →
      (t + 16000 ≤ s.pace u.die → exec (.collResend u i) s = .next { s with
        collNet := s.collNet.set i { x with refused := none } }) ∧
      (s.pace u.die < t + 16000 → exec (.collResend u i) s = .next s)) ∧
    (∀ p c, (s.core u).eng.colls.head? = some p → (s.engQueue u 2).head? = some c → c.id = p.cmd →
      (∀ r, s.collLost u p = some r → exec (.colltime u) s = .next (s.collFail c Cause.colltime r)) ∧
      (s.collLost u p = none → s.pace u.die < p.since + 2 ^ 20 → exec (.colltime u) s = .next s) ∧
      (s.collLost u p = none → p.since + 2 ^ 20 ≤ s.pace u.die → s.collNet = [] → p.members ≠ [] → p.data ≠ [] →
        exec (.colltime u) s = .next (s.collFail c Cause.colltime 0))) ∧
    (∀ g slot x, s.gslot u g slot = some x →
      (x.st = .fetch → running → exec (.fetchDataReturn u g slot) s = .next ({ s with mcur := ⟨u, g, slot⟩ } : State).fetchReturn) ∧
      (∀ m, x.st = .lazy → x.fetch = some (.lazy m) → running → s.entryDone u x x.waitAt = true →
        exec (.lazyWake u g slot) s = .next ((s.modDie u.die fun d => { d with
          merge := d.merge.filter fun k => !(k.1 == x.ctx && k.2.1 == x.descAddr && k.2.2.1 == x.waitAt) }).setGslot u g slot
            (some { x with st := .running, pc := m.imm.toNat, waitAt := 0, fetch := none }))) ∧
      (∀ m, x.st = .lazy → x.fetch = some (.lazy m) → s.entryDone u x x.waitAt = false →
        exec (.lazyWake u g slot) s = .next s) ∧
      (∀ m k, x.st = .order → x.fetch = some (.emitSpord m) → running →
        let t := ({ s with mcur := ⟨u, g, slot⟩ } : State).ilockSweep u.die (sliceOf u)
        ((List.range 4096).find? fun k => ((t.unitSlice u).ilock.get k).isNone) = some k →
        let t' := t.modSlice u.die (sliceOf u) fun sl => { sl with
          ilock := sl.ilock.set k (some { (default : ILock) with key := x.rd m.a, order := (t.unitSlice u).ilockSeq, st := 1 })
          ilockSeq := sl.ilockSeq + 1 }
        exec (.interlockRegistration u g slot) s = .next ((t'.setMslot { x with
          st := .running, fetch := none, waitAt := k + 1 }).mspawn (State.withTicket (t'.mrecord m) k) (some k)))) ∧
    (∀ die j r, (s.die die).refit = none → (s.die die).refitQ = j :: r →
      let t := s.modDie die fun x => { x with refitQ := r }
      (t.ctxSlices j.ctx = [] → exec (.refitStart die) s = .next (t.refitEnd die j 0xA7 false)) ∧
      (t.ctxSlices j.ctx ≠ [] → ∀ ns, t.countersAll die j j.nstart 0 [] = .ok ns → t.countersZero die j ns = .ok () →
        exec (.refitStart die) s = .next (t.refitPut die j))) ∧
    (∀ die i j n, (s.die die).refit = some j → j.work[i]? = some n →
      let part := (s.ctxRt j.ctx).pidx
      let ls := s.refitLines die j n.toNat
      (s.meter die part 6 (128 * ls.length) = none → exec (.refitNode die i) s = .next s) ∧
      (∀ s₁, s.meter die part 6 (128 * ls.length) = some s₁ →
        let s₂ := s₁.touchLines part 6 ls
        (∀ e, s₂.refitOne die j n.toNat = .error e → exec (.refitNode die i) s = .next (s₂.refitEnd die j e true)) ∧
        (∀ j' t, s₂.refitOne die j n.toNat = .ok (j', t) →
          let j₂ := { j' with seen := j'.seen ++ [n] }
          (∀ e, t.refitUp die j₂ n.toNat = .error e → exec (.refitNode die i) s = .next (t.refitEnd die j' e true)) ∧
          (∀ t', t.refitUp die j₂ n.toNat = .ok (none, t') → exec (.refitNode die i) s =
            .next (t'.refitPut die { j₂ with work := j'.work.eraseIdx i })) ∧
          (∀ p t', t.refitUp die j₂ n.toNat = .ok (some p, t') → exec (.refitNode die i) s =
            .next (t'.refitPut die { j₂ with work := j'.work.set i (BitVec.ofNat 32 p) })))))

/-- R257 to R259, R263, R265 to R267, R269, R271, R272, R337, R338, R374, R403. Events of the distributor, the regulators and
the display: entries taken or refused, passes, carve-outs, congestion levels, buckets and their releases, urgency, lines,
frames, and the reports of what was late.
The model's choices: log 43, 64, 65, 73, 85, 94. -/
def Obligations.DistributorAndDisplayEvents : Prop :=
  ∀ (s : State) (d : Nat),
    (∀ ctx q, let h := s.lqHdr ctx q
      let l := s.nextLaunch d ctx q h
      q < s.lqCount ctx → s.ctxSlices ctx ≠ [] → (s.ctxRt ctx).killed = none → homeDie h.pa = d → h.stop = false →
      h.ridx ≠ h.widx → (s.die 0).launches = [] → (s.die 1).launches = [] → (s.die d).stuckQ = [] →
      (∀ c, s.launchCause h l = some c → exec (.launchEntryTake d ctx q) s =
        .next ((s.modDie d fun x => { x with stuckQ := [(ctx, q, false)] }).launchReport d ctx c)) ∧
      (s.launchCause h l = none → ∃ t, exec (.launchEntryTake d ctx q) s = .next t ∧ (t.die d).launches = [l] ∧
        t.grids.length = s.grids.length + 1)) ∧
    (let read := s.modDie d fun x => { x with polled := x.pace }
     let due := (s.die d).polled + 16384 ≤ s.pace d
     (∀ ctx, due → s.ctxs = [ctx] → s.lqCount ctx.1 = 1 →
       exec (.queueHeaderPoll d) s = exec (.launchEntryTake d ctx.1 0) read) ∧
     (due → s.ctxs = [] → exec (.queueHeaderPoll d) s = .next read) ∧
     (¬ due → exec (.queueHeaderPoll d) s = .next s)) ∧
    (let freed := (s.die 0).freedAt = s.pace 0 + 1 ∨ (s.die 1).freedAt = s.pace 1 + 1
     (s.pace d ≤ (s.die d).lastPass ∨ freed → exec (.placementPass d) s = .next s) ∧
     ((s.die d).lastPass < s.pace d → ¬ freed → (s.die d).launches = [] →
       exec (.placementPass d) s = .next (s.modDie d fun x => { x with lastPass := s.pace d })) ∧
     (∀ l, (s.die d).lastPass < s.pace d → ¬ freed → (s.die d).launches = [l] → l.opent < s.pace d →
      exec (.placementPass d) s = .next ((s.modDie d fun x => { x with lastPass := s.pace d }).launchTurn d l).2)) ∧
    (∀ u code, s.gridTeams u ≠ [] → s.coreCarve u = code → (s.core u).carve ≠ code → exec (.carveoutSwitch u code) s =
      .next ((s.modCore u fun c => { c with carve := code, scr := [] }).shrinkCache u (s.core u).carve)) ∧
    (∀ u code, s.gridTeams u = [] ∨ (s.core u).carve = code → exec (.carveoutSwitch u code) s = .next s) ∧
    (∀ (occ : List Nat),
      (s.pace d % 256 = 0 → s.pace d ≠ 0 → d < 2 → ∃ t, exec (.congestionWindow d occ) s = .next t ∧ ∀ c < 32,
        let th := fun i => (s.reg d Win.congCfg).toNat / 2 ^ (8 * i) % 256
        let n := occ.getD c 0
        (t.die d).cong.get c = (if th 0 ≤ n then 1 else 0) + (if th 1 ≤ n then 1 else 0) + (if th 2 ≤ n then 1 else 0)) ∧
      (s.pace d % 256 ≠ 0 → exec (.congestionWindow d occ) s = .next s)) ∧
    (∀ u a, (s.core u).admitted = [a] →
      (a.idle + 10240 ≤ s.cycles u → exec (.admissionTimeout u a.slot) s = .next (s.modCore u fun c => { c with
        admitted := [] })) ∧
      (s.cycles u < a.idle + 10240 → exec (.admissionTimeout u a.slot) s = .next (s.modCore u fun c => { c with
        admitted := [a] }))) ∧
    (∀ n c, let full := s.fullBucket d n c
      let now := s.pace d
      let k := s.bucketNow d n c
      let at_ := 8 * n + c
      let put := fun b => s.modDie d fun x => { x with buckets := x.buckets.set at_ b }
      ((s.die d).buckets.get at_ = none → k = ⟨full, now, [], 0⟩) ∧
      (∀ b, (s.die d).buckets.get at_ = some b → k = { b with
        t := min full (b.t + ((s.rateOf d n c * s.bulkScale d n c * (now - b.since) : Nat) : Int)), since := now }) ∧
      (s.rateOf d n c = 0 → exec (.bucketRefill d n c) s = .next s) ∧
      (s.rateOf d n c ≠ 0 → exec (.bucketRefill d n c) s = .next (put (some k))) ∧
      (s.rateOf d n c ≠ 0 → ∀ o b more, k.queue = (o, b) :: more →
        (min (16000 * (b : Int)) full ≤ k.t → exec (.regulatorRelease d n c) s =
          .next (put (some { k with t := k.t - 16000 * (b : Int), queue := more }))) ∧
        (k.t < min (16000 * (b : Int)) full → exec (.regulatorRelease d n c) s = .next s)) ∧
      (∀ b o q more, (s.die d).buckets.get at_ = some b → b.queue = q :: more → s.getOp q.1 = some o →
        (o.since + 1000000 ≤ now → b.rep + 1000000 ≤ now → d < 2 → n < 32 → c < 8 → now - o.since < 2 ^ 32 →
          exec (.qosrep d n c) s = .next ((put (some { b with rep := now })).partReport d n Cause.qosrep
            (c + 2 ^ 8 * n + 2 ^ 16 * d + 2 ^ 32 * (now - o.since)))) ∧
        (now < o.since + 1000000 → exec (.qosrep d n c) s = .next s))) ∧
    (∀ hd, let r := (s.reg d (Win.hqos hd)).toNat
      let f := ((s.die d).fifo.get hd).length
      (hd < 8 → s.headEn d hd = true → (s.die d).urgent.get hd = false → f < r / 2 ^ 18 % 2 ^ 10 →
        ∃ t, exec (.headUrgent d hd) s = .next t ∧ (t.die d).urgent.get hd = true ∧
          (t.reg d (Win.hqos hd)).toNat / 2 ^ 48 = min (r / 2 ^ 48 + 1) 65535) ∧
      (s.headEn d hd = true → (s.die d).urgent.get hd = false → r / 2 ^ 18 % 2 ^ 10 ≤ f →
        exec (.headUrgent d hd) s = .next s) ∧
      ((s.die d).urgent.get hd = true → r / 2 ^ 28 % 2 ^ 10 ≤ f → exec (.headRecovery d hd) s =
        .next (s.modDie d fun x => { x with urgent := x.urgent.set hd false })) ∧
      (f < r / 2 ^ 28 % 2 ^ 10 → exec (.headRecovery d hd) s = .next s)) ∧
    (∀ n, let want := [0, 1].any fun e => (List.range 8).any fun h =>
        s.headEn e h && s.headPart e h == n && (s.die e).urgent.get h
      ((s.die d).scaled.get n = want → exec (.bulkScalingChange d n) s = .next s) ∧
      ((s.die d).scaled.get n ≠ want → (s.die d).buckets = [] → exec (.bulkScalingChange d n) s =
        .next (s.modDie d fun x => { x with scaled := x.scaled.set n want, scaleDue := x.scaleDue.set n none }))) ∧
    (∀ hd base, s.headOn d hd = true → (s.die d).surf.get hd = some base → (s.die d).pixLine.get hd < s.headHeight d hd →
      ∃ t, exec (.displayLineDue d hd) s = .next t ∧ (t.die d).pixLine.get hd = (s.die d).pixLine.get hd + 1 ∧
        (∀ l more, (s.die d).fifo.get hd = l :: more → t.out = s.out ++ [.line d hd l] ∧ (t.die d).fifo.get hd = more) ∧
        ((s.die d).fifo.get hd = [] → t.out = s.out ++ [.line d hd ((s.die d).shown.get hd)] ∧
          (t.die d).repeated.get hd = (s.die d).repeated.get hd + 1)) ∧
    (∀ hd, s.headOn d hd = true → ((s.die d).surf.get hd = none ∨ s.headHeight d hd ≤ (s.die d).pixLine.get hd) →
      (s.die d).repeated.get hd = 0 → ∃ t, exec (.verticalBlank d hd) s = .next t ∧
        (t.die d).surf.get hd = some (s.headReg d hd 0) ∧ (t.die d).fifo.get hd = [] ∧ (t.die d).pixLine.get hd = 0 ∧
        (t.die d).fetched.get hd = 0 ∧ (t.reg d (Win.head hd + 0x20)).toNat % 2 = 1 ∧
        ∀ e, (s.die d).surf.get hd ≠ none → s.headReg d hd 3 % 16 = 8 + e → s.encFrom d e hd = true →
          (t.die d).encDue.get e = (s.die d).encDue.get e + 1) ∧
    (∀ hd, (s.die d).surf.get hd = none → ∀ n, exec (.scanOutFifoFill d hd n) s = .next s) ∧
    (∀ hd, s.headOn d hd = false → ∀ n, exec (.scanOutFifoFill d hd n) s = .next s) ∧
    (∀ hd base pas, s.headOn d hd = true → (s.die d).surf.get hd = some base →
      let y := (s.die d).fetched.get hd
      let len := s.headReg d hd 1 % 2 ^ 16 * (if s.headReg d hd 3 / 2 ^ 6 % 4 = 2 then 8 else 4)
      y < s.headHeight d hd → ((s.die d).fifo.get hd).length < 512 → s.rateOf d (s.headPart d hd) 4 = 0 →
      s.gpaBytes d (s.headPart d hd) .read (base + y * (s.headReg d hd 1 / 2 ^ 32 % 2 ^ 32)) len = some pas →
      ∃ t, exec (.scanOutFifoFill d hd 1) s = .next t ∧ (t.die d).fetched.get hd = y + 1 ∧
        (t.die d).fifo.get hd = (s.die d).fifo.get hd ++ [pas.map s.mem.get]) ∧
    (∀ e bs, let r := fun i => (s.reg d (Win.enc e + 8 * i)).toNat
      let n := (s.reg d (Win.veown e)).toNat % 32
      let due := (s.die d).encDue.get e
      (8 ≤ e ∨ due = 0 → exec (.encoderFrame d e bs) s = .next s) ∧
      (e < 8 → due ≠ 0 → r 2 = 0 ∨ r 2 < (r 3 - r 4) + bs.length → exec (.encoderFrame d e bs) s =
        .next (s.modDie d fun x => { x with encDue := x.encDue.modify e (· - 1) })) ∧
      (e < 8 → due ≠ 0 → r 2 ≠ 0 → ∀ b a, bs = [b] → (r 3 - r 4) + 1 ≤ r 2 → s.rateOf d n 5 = 0 →
        s.gpaBytes d n .write (r 1 + r 3 % r 2) 1 = some [a] → s.isRepl (homeDie a) n a = false → IrqOutside s →
        ∃ t, exec (.encoderFrame d e bs) s = .next t ∧ t.mem = memPut s.mem a [b] ∧
          t.reg d (Win.enc e + 0x18) = s.reg d (Win.enc e + 0x18) + 1 ∧ (t.die d).encDue.get e = due - 1))

/-- R5, R6, R9, R17, R254 to R256, R267, R269, R271, R274, R318, R322, R325, R341, R343, R345, R346, R374, R404, R429. Events of
slice switches, the register window, resets and bring-up, power, heat and wear.
The model's choices: log 55, 66, 67, 75. -/
def Obligations.RegisterAndPlatformEvents : Prop :=
  ∀ (s : State) (d : Nat), d < 2 →
    let up := s.plat.ready = true
    let ringctl := (s.reg d Win.ringctl).toNat
    let other := 1 - ringctl / 2 % 2
    (∀ i v, i < 16 → up → (s.slice d i).go = false → ∃ t, exec (.slctlGo d i v) s = .next t ∧
      (v.getLsbD 0 = true → (t.slice d i).st = .switching ∧ (t.slice d i).go = true ∧ (t.slice d i).goAt = s.pace d ∧
        (t.slice d i).doSave = v.getLsbD 2 ∧ (t.slice d i).doRestore = v.getLsbD 3 ∧ (t.slice d i).ctx = (s.slice d i).ctx) ∧
      (v.getLsbD 0 = false → t.slice d i = s.slice d i)) ∧
    (∀ i v, (s.slice d i).go = true → exec (.slctlGo d i v) s = .next s) ∧
    (∀ i, (s.slice d i).st ≠ .switching → exec (.switchComplete d i) s = .next s) ∧
    (∀ i, (s.slice d i).st = .switching →
      let t := (sliceUnits d i).foldl State.stopUnit s
      (t.quietSlice d i (s.slice d i).doSave = false → exec (.switchComplete d i) s = .next s) ∧
      (t.quietSlice d i (s.slice d i).doSave = true → exec (.switchComplete d i) s = .next (t.completeSwitch d i))) ∧
    (∀ v, (up → exec (.paceadjWrite d v) s = .next (s.setReg d Win.paceadj v)) ∧
      (s.plat.ready = false → exec (.paceadjWrite d v) s = .next s ∧ (∀ off, exec (.registerWrite d off v) s = .next s) ∧
        exec (.attctlGo d v) s = .next s ∧ exec (.ringSwapRequest d v) s = .next s)) ∧
    (∀ v, up → v.getLsbD 0 = true → ringctl % 2 = 0 →
      (∀ e, s.bankError d other = some e → ∃ t, exec (.ringSwapRequest d v) s = .next t ∧
        (t.reg d Win.ringctl).toNat % 2 = 0 ∧ (t.reg d Win.ringctl).toNat / 4 % 2 = 1 ∧
        t.reg d Win.ringerr = BitVec.ofNat 64 e) ∧
      (s.bankError d other = none → ∃ t, exec (.ringSwapRequest d v) s = .next t ∧
        (t.reg d Win.ringctl).toNat % 2 = 1 ∧ (t.reg d Win.ringctl).toNat / 2 % 2 = ringctl / 2 % 2 ∧
        (t.reg d Win.ringctl).toNat / 4 % 2 = 0 ∧ (t.die d).swapAt = s.ringPace d)) ∧
    (ringctl % 2 = 1 → s.cycleBegun d (s.swapCycle d) = true → ∃ t, exec (.ringBankSwap d) s = .next t ∧
      (t.reg d Win.ringctl).toNat % 2 = 0 ∧ (t.reg d Win.ringctl).toNat / 2 % 2 = other) ∧
    (ringctl % 2 = 0 → exec (.ringBankSwap d) s = .next s) ∧
    (∀ n c v, n < 32 → c < 7 → up →
      let w := (s.reg d (Win.qos n c) &&& 0x0000000000003FC0) ||| (v &&& 0xFFFFFFFFFFFFC03F)
      let fixed := (s.reg d (Win.qos n c) &&& ~~~ Win.mask (.qos n c)) ||| (v &&& Win.mask (.qos n c))
      w = fixed ∧
      (Win.legal (.qos n c) w = false → exec (.qosWrite d n c v) s = .next s) ∧
      (Win.legal (.qos n c) w = true → ∃ t, exec (.qosWrite d n c v) s = .next t ∧ t.reg d (Win.qos n c) = w ∧
        (v.toNat / 2 ^ 32 = 0 → (t.die d).buckets.get (8 * n + c) = none) ∧
        (v.toNat / 2 ^ 32 ≠ 0 → s.rateOf d n c = 0 → (t.die d).buckets.get (8 * n + c) =
          some ⟨16000 * 1024 * (v.toNat / 2 ^ 16 % 2 ^ 16 : Nat), s.pace d, [], 0⟩))) ∧
    (∀ n c, n < 32 → c < 7 → up → exec (.qstatSelfRead d n c) s = .next { s with
      out := s.out ++ [.regRead d (Win.qstat n c) (s.regRead d (Win.qstat n c))]
      self_ := s.self_.set (8 * (32 * d + n) + c) 0 }) ∧
    (∀ h, h < 8 → up → ∃ t, exec (.hqosUrgnRead d h) s = .next t ∧
      t.out = s.out ++ [.regRead d (Win.hqos h) (s.reg d (Win.hqos h))] ∧
      t.reg d (Win.hqos h) = s.reg d (Win.hqos h) &&& 0x0000FFFFFFFFFFFF) ∧
    (up → ∃ t, exec (.pwrstatLimitedRead d) s = .next t ∧ t.out = s.out ++ [.regRead d Win.pwrstat (s.reg d Win.pwrstat)] ∧
      t.reg d Win.pwrstat = s.reg d Win.pwrstat &&& 0x00000000FFFFFFFF) ∧
    (∀ off v, up → Win.kindOf off = .peRcnt 0 → ∃ t, exec (.registerWrite d off v) s = .next t ∧
      t.reg d off = (s.reg d off &&& 0xFFFFFFFF00000000) ||| (v &&& 0x00000000FFFFFFFF)) ∧
    (∀ off v, up → Win.kindOf off = .ident ∨ Win.kindOf off = .cert ∨ Win.kindOf off = .none →
      exec (.registerWrite d off v) s = .next s) ∧
    (∀ e k v, e < 1024 → k < 2 → up → exec (.registerWrite d (Win.bank (ringctl / 2 % 2) + 16 * e + 8 * k) v) s = .next s) ∧
    (∀ v, up → v.getLsbD 0 = true → (s.die d).attBusy = none → exec (.attctlGo d v) s =
      .next (s.modDie d fun x => { x with attBusy := some (memBytes s.mem (s.reg d Win.attaddr).toNat 64) })) ∧
    (∀ old, (s.die d).attBusy = some old → ∃ t nonce, exec (.attestationDone d) s = .next t ∧ (t.die d).attBusy = none ∧
      let a := (s.reg d Win.attaddr).toNat
      let rep := s.attReport d nonce
      (nonce = old ∨ nonce = memBytes s.mem a 64) ∧
      (isMemory (a + 64) = true → isMemory (a + 339) = true → s.portOpen (a + 64) = true →
        t.mem = memPut s.mem (a + 64) ((List.range 276).map fun i => rep.getD i 0)) ∧
      (isMemory (a + 64) = false → t.mem = s.mem)) ∧
    ((s.die d).attBusy = none → exec (.attestationDone d) s = .next s) ∧
    (∃ t, exec .coldReset s = .next t ∧ t.plat.stage = 1 ∧ t.plat.ready = false ∧ t.plat.off = false ∧ t.cores = [] ∧ t.ops = [] ∧ t.slices = [] ∧
      t.pace d = 0 ∧ (t.die d).fenced = [] ∧ t.reg d Win.wear = s.reg d Win.wear ∧ t.reg d Win.life = s.reg d Win.life ∧
      t.reg d Win.dtcfg = 0) ∧
    (∀ v, v.getLsbD 0 = true → ∃ t, exec (.warm d v) s = .next t ∧ t.plat.ready = false ∧ t.cores = [] ∧ t.slices = [] ∧
      ∀ off ∈ [Win.portcfg 0, Win.portcfg 1, Win.paceadj, Win.dtcfg, Win.wear, Win.life], t.reg d off = s.reg d off) ∧
    (∀ v, v.getLsbD 0 = false → exec (.warm d v) s = .next s) ∧
    (∀ images mods, let at_ := fun (n : Nat) => s.plat.stage = n ∧ s.plat.stalled = false
      let img := images.headD []
      let untrained := State.meshModules.all fun m => (mods.getD m none).isNone
      (s.plat.stalled = true → exec (.bringUpStep images mods) s = .next s) ∧
      (at_ 0 → exec (.bringUpStep images mods) s = .next (s.setReady 1 false)) ∧
      (at_ 1 → ∃ t, exec (.bringUpStep images mods) s = .next t ∧ t.plat.ready = false ∧
        if State.acceptsImage 0 img = true then
          t.plat.stage = 2 ∧ t.plat.image = img ∧ t.plat.stalled = false ∧ t.reg 0 Win.fwver = State.imageVer img
        else t = s.stall) ∧
      (at_ 2 → ∃ t, exec (.bringUpStep images mods) s = .next t ∧
        (∀ m < 24, mods.getD m none = none → t.reg d (Win.ucie m) = 0) ∧
        (∀ m < 24, ∀ k, mods.getD m none = some k → k < 256 →
          t.reg d (Win.ucie m) = BitVec.ofNat 64 (1 + (if k = 0 then 0 else 2) + 2 ^ 8 * k)) ∧
        (untrained = true → t.plat.stalled = true) ∧
        (untrained = false → match (images.take 2).find? (State.acceptsImage 1) with
          | some i => t.plat.stage = 3 ∧ t.reg 1 Win.fwver = State.imageVer i ∧ t.plat.stalled = false
          | none => t.plat.stalled = true)) ∧
      (at_ 3 → ∃ t, exec (.bringUpStep images mods) s = .next t ∧ t.plat.stage = 4 ∧
        t.mem = s.mem.filter fun c => State.onExpander c.1) ∧
      (at_ 4 → ∃ t, exec (.bringUpStep images mods) s = .next t ∧ t.plat.stage = 5 ∧
        ∀ p < 2, (t.die d).roles.get p = (s.reg d (Win.portcfg p)).toNat % 4) ∧
      (at_ 5 → exec (.bringUpStep images mods) s = .next (s.setReady 6 true))) ∧
    (∀ watts, let lim := (s.reg 0 Win.pwrcfg).toNat % 2 ^ 11
      let n := (s.reg d Win.pwrstat).toNat / 2 ^ 32
      let ended := s.plat.winAt + 1000000 ≤ s.pace 0
      (¬ ended → exec (.powerWindow watts) s = .next s) ∧
      (ended → watts < 2048 → ∃ t, exec (.powerWindow watts) s = .next t ∧ (t.reg d Win.pwrstat).toNat % 2 ^ 32 = watts ∧
        t.plat.winAt = s.pace 0 ∧
        (watts ≤ lim → (t.reg d Win.pwrstat).toNat / 2 ^ 32 = n) ∧
        (lim < watts → (t.reg d Win.pwrstat).toNat / 2 ^ 32 = min (n + 1) (2 ^ 32 - 1)) ∧
        (∀ i < 128, let c := (s.core ⟨.sc, d, i⟩).clock
          (lim < watts → (t.core ⟨.sc, d, i⟩).clock = min (c + 1) 25) ∧
          (watts + 50 < lim → (t.core ⟨.sc, d, i⟩).clock = min (max (if (s.die d).eolReported then 2 else 0) (c - 1)) 25) ∧
          (watts ≤ lim → lim ≤ watts + 50 → (t.core ⟨.sc, d, i⟩).clock = c)))) ∧
    (∀ ro em sr hours, ro < 2 ^ 16 → em < 2 ^ 16 → sr < 2 ^ 16 → hours < 2 ^ 32 →
      let due := (s.die d).wornAt + 3600000000000 ≤ s.powered d
      (¬ due → exec (.wearUpdate d ro em sr hours) s = .next s) ∧
      (due → ∃ t, exec (.wearUpdate d ro em sr hours) s = .next t ∧ (t.die d).wornAt = s.powered d ∧
        t.reg d Win.wear = BitVec.ofNat 64 (2 ^ 16 * sr + 2 ^ 32 * em + 2 ^ 48 * ro) ∧
        t.reg d Win.life = BitVec.ofNat 64 hours)) ∧
    (let due := s.atEol d = true ∧ ((s.die d).eolReported = false ∨ (s.die d).eolAt + 3600000000000 ≤ s.powered d)
     (¬ due → exec (.wearEol d) s = .next s) ∧
     (due → s.slices = [] → ∃ t, exec (.wearEol d) s = .next t ∧ (t.die d).eolReported = true ∧
      (t.die d).eolAt = s.powered d ∧
      ∀ i < 128, (t.core ⟨.sc, d, i⟩).clock = min (max (s.core ⟨.sc, d, i⟩).clock 2) 25)) ∧
    (∀ kind temp, let soon := ∃ at_, (s.die d).hotAt = some at_ ∧ s.pace d < at_ + 1000000
      (temp < 105 ∨ soon → exec (.thermal d kind temp) s = .next (s.modDie d fun x => { x with hot := temp })) ∧
      (105 ≤ temp → ¬ soon → kind < 2 ^ 8 → temp < 2 ^ 16 → exec (.thermal d kind temp) s =
        .next ((s.modDie d fun x => { x with hot := temp, hotAt := some x.pace }).dieReport d Cause.thermal
          (kind + 2 ^ 16 * temp)))) ∧
    ((s.die 0).hot < 120 → (s.die 1).hot < 120 → exec .thermalPowerOff s = .next s) ∧
    (120 ≤ (s.die d).hot → ∃ t, exec .thermalPowerOff s = .next t ∧ t.plat.off = true ∧ t.cores = [] ∧ t.ops = [] ∧
      t.slices = [] ∧ t.reg d Win.wear = s.reg d Win.wear) ∧
    (∀ st addr, (∀ a b, st ≠ .tlb a b) → (∀ a, st ≠ .walks a) → (⟨st, addr, true⟩ : BadGranule) ∉ s.bad →
      exec (.softError st addr true) s = .next { s with bad := s.bad ++ [⟨st, addr, true⟩] }) ∧
    (∀ b i e, ((s.die d).tlb.get b)[i]? = some e → ∃ t, exec (.softError (.tlb d b) i true) s = .next t ∧
      ((t.die d).tlb.get b)[i]? = some { e with bad := true }) ∧
    (∀ st addr, exec (.softError st addr false) s = .next s)

/-- R326, R327, R329, R333 to R335, R407, R408, R410 to R412, R418, R419, R421. Events of agents and links: heartbeats, fencing
and the scrub, the five steps that repair replicated pages, bad flits and modules, frames, the clock's messages, and what the
host reads and writes.
The model's choices: log 30, 31, 68, 69, 71, 90, 93, 95. -/
def Obligations.AgentAndLinkEvents : Prop :=
  ∀ (s : State) (d : Nat), d < 2 →
    let now := s.pace d
    (∀ (a : Agent), a = .host d →
      (s.plat.hostHbAt.get d + 10000 ≤ now → exec (.heartbeatSend a) s = .next (let n := (s.plat.hostHb.get d + 1) % 2 ^ 32
        { s with plat := { s.plat with hostHb := s.plat.hostHb.set d n, hostHbAt := s.plat.hostHbAt.set d now }
                 out := s.out ++ [.heartbeat a n] })) ∧
      (now < s.plat.hostHbAt.get d + 10000 → exec (.heartbeatSend a) s = .next s)) ∧
    (let a := Agent.die (s.domNo d)
     let n := ((s.die d).hbCount + 1) % 2 ^ 32
     s.domNo d % 2 = d →
      ((s.die d).hbAt + 10000 ≤ now → (∀ p < 16, s.peerOn d p = false) → exec (.heartbeatSend a) s = .next (
        { s.modDie d fun x => { x with hbCount := n, hbAt := x.pace } with out := s.out ++ [.heartbeat a n] })) ∧
      (now < (s.die d).hbAt + 10000 → exec (.heartbeatSend a) s = .next s)) ∧
    (∀ k n, let a := Agent.host k
      (a ∉ (s.die d).fenced → Output.heartbeat a n ∈ s.out → exec (.heartbeat d a n) s =
        .next (s.modDie d fun x => { x with heard := x.heard.set (16 + k) (some now) })) ∧
      (a ∈ (s.die d).fenced ∨ Output.heartbeat a n ∉ s.out → exec (.heartbeat d a n) s = .next s)) ∧
    (∀ t n, .die t ∉ (s.die d).fenced → s.samePkg d t = false → s.peerOn d t = true → exec (.heartbeat d (.die t) n) s =
      .next (s.modDie d fun x => { x with heard := x.heard.set t (some now) })) ∧
    (∀ a t, (s.die d).heard.get (agentNo a) = some t →
      (t + 30000 ≤ now → exec (.agentDown d a) s = .next (s.fence d a)) ∧
      (now < t + 30000 → exec (.agentDown d a) s = .next s)) ∧
    (∀ a, (s.die d).heard.get (agentNo a) = none → exec (.agentDown d a) s = .next s) ∧
    (∀ k, .host k ∉ (s.die d).fenced → s.slices = [] → s.fence d (.host k) = s.modDie d fun x => { x with
      fenced := .host k :: x.fenced, heard := x.heard.set (80 + k) (some now) }) ∧
    (∀ k, .host k ∈ (s.die d).fenced → .host k ∉ (s.die d).scrubbed → exec (.scrub d (.host k)) s =
      .next ((s.modDie d fun x => { x with scrubbed := .host k :: x.scrubbed }).downReport d (.host k) true)) ∧
    (∀ t, .die t ∈ (s.die d).fenced → .die t ∉ (s.die d).scrubbed → s.samePkg d t = true → s.slices = [] →
      (s.die d).homeUpd = [] → ∃ t', exec (.scrub d (.die t)) s = .next t' ∧ (t'.die d).scrubbed = .die t :: (s.die d).scrubbed ∧
        (∀ p ∈ (t'.die d).tlb, ∀ e ∈ p.2, homeDie e.pa = d ∧ ∃ q ∈ (s.die d).tlb, q.1 = p.1 ∧ e ∈ q.2) ∧
        (∀ p ∈ (s.die d).tlb, ∀ e ∈ p.2, homeDie e.pa = d → ∃ q ∈ (t'.die d).tlb, q.1 = p.1 ∧ e ∈ q.2) ∧
        (t'.die d).walks = (s.die d).walks.filter fun e => homeDie e.base == d) ∧
    (∀ a, a ∉ (s.die d).fenced ∨ a ∈ (s.die d).scrubbed → exec (.scrub d a) s = .next s) ∧
    (∀ w, let at_ := fun k => s.repairing w k = [d]
      (s.repairing w 0 = [] → exec (.replayDrain w) s = .next s) ∧
      (at_ 0 → (∀ m ∈ (s.die d).upd, s.canApply d m = false) →
        exec (.replayDrain w) s = .next (s.modDie d fun x => { x with replay := x.replay.set w 1 })) ∧
      (∀ m, at_ 1 → (s.die d).log = [] → s.ownVoids d w = [] → (s.die d).upd = [] →
        (let c := s.clockOf d m.ptn
         State.notAfter (m.vc.getD m.stamper 0) (if m.stamper = s.domNo d then c.getD 16 0 else c.getD m.stamper 0) = false) →
        ∃ t, exec (.replayExchange w [m]) s = .next t ∧ (t.die d).upd = [m] ∧ (t.die d).replay.get w = 2) ∧
      (at_ 2 → (∀ m ∈ (s.die d).upd, s.canApply d m = false) → ∃ t, exec (.replayApply w) s = .next t ∧
        (t.die d).upd = ((s.die d).upd.filter fun m => m.stamper != w) ∧ (t.die d).replay.get w = 3 ∧ t.mem = s.mem) ∧
      (∀ page home, at_ 3 → s.promotions d w = [(page, home)] → ∃ t, exec (.homePromote w) s = .next t ∧
        (t.die d).homes.get page = some home ∧ (t.die d).replay.get w = 4) ∧
      (at_ 4 → (∀ v ∈ (s.die d).voids, v.1 ≠ w) → ∃ t, exec (.replayAcks w) s = .next t ∧
        (t.die d).voids = (s.die d).voids ∧ t.ops = s.ops ∧ (t.die d).replay.get w = 5)) ∧
    (∀ f m, s.flits = [f] → f.die = d → f.dce = false → m % 3 = 0 → f.bridge = some (m / 3) → s.flitCmd f = none →
      ∃ t, exec (.linkErr d m f.id) s = .next t ∧ t.flits = [] ∧
        (t.die d).badFlits.get m = ((s.die d).badFlits.get m).filter (fun x => decide (now < x + 1000000)) ++ [now]) ∧
    (∀ m id, s.flits = [] → exec (.linkErr d m id) s = .next s) ∧
    (∀ m, m < 24 → m % 3 ≠ 0 → (s.reg 0 (Win.ucie m)).toNat % 2 = 1 →
      ((∃ n < 24, n ≠ m ∧ n % 3 ≠ 0 ∧ (s.reg 0 (Win.ucie n)).toNat % 2 = 1) → ∃ t, exec (.meshModuleDown m) s = .next t ∧
        (t.reg d (Win.ucie m)).toNat % 2 = 0 ∧ ∀ n < 24, n ≠ m → t.reg d (Win.ucie n) = s.reg d (Win.ucie n)) ∧
      ((∀ n < 24, n ≠ m → n % 3 ≠ 0 → (s.reg 0 (Win.ucie n)).toNat % 2 = 0) → s.lostPeer 0 = false → s.lostPeer 1 = false →
        let halted := (State.dieUnits 1).foldl (fun s u => s.modCore u fun c => { c with halted := true }) (s.moduleDown m)
        let t := (List.range 8).foldl (fun s b => s.moduleDown (3 * b)) halted
        exec (.meshModuleDown m) s = .next (t.fence 0 (.die (t.domNo 1))))) ∧
    (∀ m, m % 3 = 0 ∨ (s.reg 0 (Win.ucie m)).toNat % 2 = 0 → exec (.meshModuleDown m) s = .next s) ∧
    (∀ bytes, State.frameOf bytes = none → exec (.frameReceive d bytes) s = .next s) ∧
    (∀ bytes f, State.frameOf bytes = some f →
      5 ≤ f.cls ∨ f.ver ≠ 1 ∨ f.dst ≠ s.domNo d ∨ s.peerOn d f.src = false ∨ .die f.src ∈ (s.die d).fenced →
      exec (.frameReceive d bytes) s = .next s) ∧
    (∀ bytes f c, State.frameOf bytes = some f → f.cls = 4 → f.ver = 1 → f.dst = s.domNo d → s.peerOn d f.src = true →
      s.samePkg d f.src = false → .die f.src ∉ (s.die d).fenced → f.body ≠ [] → (s.die d).conns.get (8 * f.src + 4) = c →
      c.expect = f.seq → c.early = [] → c.unacked = [] → ∃ t, exec (.frameReceive d bytes) s = .next t ∧
        ((t.die d).conns.get (8 * f.src + 4)).expect = (f.seq + 1) % 2 ^ 32 ∧
        (t.die d).heard.get f.src = if Bits.ofBytes (f.body.take 16) % 256 = Config.msgType 4 % 256 then some now
          else (s.die d).heard.get f.src) ∧
    (∀ dst cls seq f t n c, (s.die d).conns.get (8 * dst + cls) = c → c.unacked = [(seq, f, t, n)] → n ≠ 0 → c.sacked = [] →
      (n < 16 → t + 32000 ≤ now → s.peerOn d dst = true → exec (.frameResend d dst cls seq) s = .next ((s.modDie d fun x => { x with
        conns := x.conns.set (8 * dst + cls) { c with unacked := [(seq, f, now, n + 1)] } }).frameOut d
          { f with ackSeq := c.expect, sack := State.sackOf c })) ∧
      (16 ≤ n ∨ now < t + 32000 ∨ s.peerOn d dst = false → exec (.frameResend d dst cls seq) s = .next s) ∧
      (16 ≤ n → t + 32000 ≤ now → exec (.connectionDown d dst cls) s = .next (s.fence d (.die dst))) ∧
      (n < 16 ∨ now < t + 32000 → exec (.connectionDown d dst cls) s = .next s)) ∧
    (∀ (ofs : Word) lock, let adj := fun (t : State) => t.reg d Win.paceadj
      ∃ t, exec (.ptpMessage d ofs lock) s = .next t ∧
        t.reg d Win.pacestat = BitVec.ofNat 64 ((if lock = true ∧ -10 ≤ ofs.toInt ∧ ofs.toInt ≤ 10 then 1 else 0) +
          2 ^ 32 * ofs.toNat) ∧
        ((s.reg d Win.dtcfg).toNat / 2 ^ 3 % 2 = 1 → adj t = adj s) ∧
        (d = 0 → (s.reg d Win.dtcfg).toNat / 2 ^ 3 % 2 = 0 → adj t = BitVec.ofInt 64 (-ofs.toInt))) ∧
    (∀ f : Frame, s.frameOut d f = { s with out := s.out ++ [.frame d ((f.dst + f.cls) % 4) (s.ethFrame d f)] }) ∧
    (∀ src pa n bs, s.sourceOn src = false → exec (.inboundRead src pa n) s = .next s ∧ exec (.inboundWrite src pa bs) s = .next s) ∧
    (s.endpoint = true → ∀ pa off v, off % 8 = 0 → off < 0x2000000 → pa = 0x2000000 * d + off →
      (∃ t, exec (.inboundRead .bar0 pa 8) s = .next t ∧
        t.out = s.out ++ [.read .bar0 pa (Bits.toBytes (s.readReg d off).1.toNat 8)]) ∧
      exec (.inboundWrite .bar0 pa (Bits.toBytes v 8)) s = .next (s.writeReg d off (BitVec.ofNat 64 v))) ∧
    (s.endpoint = true → s.plat.ready = true → s.rateOf 0 0 0 = 0 →
      (∀ pa n, ∃ t, exec (.inboundRead (.bar2 0) pa n) s = .next t ∧ t.mem = s.mem ∧ t.out = s.out ++
        [.read (.bar2 0) pa ((List.range n).map fun i => if pa + i < 0xC000000000 then s.mem.get (pa + i) else 0)]) ∧
      (∀ pa bs, pa + bs.length ≤ 0xC000000000 → IrqOutside s →
        ∃ t, exec (.inboundWrite (.bar2 0) pa bs) s = .next t ∧ t.mem = memPut s.mem pa bs)) ∧
    (s.plat.ready = true → s.rateOf d 0 0 = 0 → ∀ pa n, isMemory pa = true → s.portOpen pa = true → n ≠ 0 → pa % 128 + n ≤ 128 →
      let answers := fun bs => ∃ t, exec (.inboundRead (.core d none) pa n) s = .next t ∧ t.mem = s.mem ∧
        t.out = s.out ++ [.read (.core d none) pa bs]
      (s.hitCopy hostAgent (pa / 128) = none → answers (memBytes s.mem pa n)) ∧
      (∀ c, s.hitCopy hostAgent (pa / 128) = some c → answers ((c.data.drop (pa % 128)).take n))) ∧
    (s.plat.ready = false → ∀ n bs, s.endpoint = true → ∀ pa, (∃ t, exec (.inboundRead (.bar2 0) pa n) s = .next t ∧
        t.out = s.out ++ [.read (.bar2 0) pa (List.replicate n 0)]) ∧ exec (.inboundWrite (.bar2 0) pa bs) s = .next s)

/-- R422, R423, R426 to R428. Commands of the management port, and how a checkpoint goes on.
The model's choices: log 32, 70. -/
def Obligations.ManagementEvents : Prop :=
  ∀ (s : State) (r : MgmtRec),
    let answers := fun (t : State) n => ({ t with out := t.out ++ [.answer r n] } : State)
    (∀ signed sig remote,
      (r.cmd ≠ 0x01 → exec (.halt r) s = .next s) ∧ (r.cmd ≠ 0x02 → exec (.resume r) s = .next s) ∧
      (r.cmd ≠ 0x03 → exec (.snap r) s = .next s) ∧ (r.cmd ≠ 0x10 → exec (.fwload r signed sig) s = .next s) ∧
      (r.cmd ≠ 0x20 → exec (.ckpt r) s = .next s) ∧ (r.cmd ≠ 0x21 → exec (.ckrecv r) s = .next s) ∧
      (r.cmd ≠ 0x22 → exec (.ckrest r remote) s = .next s) ∧
      (r.cmd.toNat ∈ [0x01, 0x02, 0x03, 0x10, 0x20, 0x21, 0x22] → exec (.unknownManagementCommand r) s = .next s) ∧
      (r.cmd.toNat ∉ [0x01, 0x02, 0x03, 0x10, 0x20, 0x21, 0x22] → exec (.unknownManagementCommand r) s = .next (answers s 2))) ∧
    (mgmtUnit? r = none ∨ r.resv = true →
      (r.cmd = 0x01 → exec (.halt r) s = .next (answers s 2)) ∧ (r.cmd = 0x02 → exec (.resume r) s = .next (answers s 2)) ∧
      (r.cmd = 0x03 → exec (.snap r) s = .next (answers s 2))) ∧
    (∀ u, mgmtUnit? r = some u → r.resv = false →
      (r.cmd = 0x01 → r.arg0.getLsbD 0 = false →
        exec (.halt r) s = .next (answers (s.modCore u fun c => { c with halted := true }) 0)) ∧
      (∀ w p, r.cmd = 0x01 → r.arg0.getLsbD 0 = true → (s.core u).warps = [(0, some w)] → w.paths = [p] →
        w.joins = [] → w.due = [] → w.parked = [] → p.wait = .ready → p.mask &&& ~~~ w.live = 0 → p.mask ≠ 0 →
        ∃ t, exec (.halt r) s = .next t ∧ t.out = s.out ++ [.answer r 0] ∧
        ∀ l, p.mask.getLsbD l = true → Parked t u 0 l Cause.dbghalt p.pc 0) ∧
      (r.cmd = 0x02 → (s.core u).halted = true →
        exec (.resume r) s = .next (answers (s.modCore u fun c => { c with halted := false }) 0)) ∧
      (r.cmd = 0x02 → (s.core u).halted = false → exec (.resume r) s = .next (answers s 1)) ∧
      (r.cmd = 0x03 → (s.core u).halted = false ∨ r.addr.toNat % 8 ≠ 0 → exec (.snap r) s = .next (answers s 1)) ∧
      (r.cmd = 0x03 → (s.core u).halted = true → r.addr.toNat % 8 = 0 →
        (∀ i < (s.snapSection u).length, isMemory (r.addr.toNat + 8 * i) = true ∧ s.portOpen (r.addr.toNat + 8 * i) = true) →
        ∃ t, exec (.snap r) s = .next t ∧ t.out = s.out ++ [.answer r 0] ∧ ∀ i < (s.snapSection u).length,
          t.peek (r.addr.toNat + 8 * i) 8 = (s.snapSection u).getD i 0 % 2 ^ 64)) ∧
    (∀ signed sig, r.cmd = 0x10 → r.resv = false → let image := signed ++ sig
      (r.die = 0 → s.plat.ready = false → s.plat.stage = 1 → s.plat.stalled = true → image.length = r.arg0.toNat →
        ∃ t, exec (.fwload r signed sig) s = .next t ∧
          if State.acceptsImage 0 image = true then t.plat.stage = 2 ∧ t.plat.image = image ∧ t.plat.stalled = false ∧
            t.out = s.out ++ [.answer r 0] ∧ t.reg 0 Win.fwver = State.imageVer image
          else t = answers s 1) ∧
      (r.die ≠ 0 ∨ s.plat.ready = true ∨ s.plat.stage ≠ 1 ∨ s.plat.stalled = false ∨ image.length ≠ r.arg0.toNat →
        exec (.fwload r signed sig) s = .next (answers s 1))) ∧
    (r.cmd = 0x20 → r.resv = false →
      (r.die ≠ 0 ∨ s.plat.ckpt ≠ none ∨ s.plat.ready = false → exec (.ckpt r) s = .next (answers s 1)) ∧
      (r.die = 0 → s.plat.ckpt = none → s.plat.ready = true →
        (s.planOf r.addr.toNat = none → exec (.ckpt r) s = .next (answers s 2)) ∧
        ∀ ident segs, s.planOf r.addr.toNat = some (ident, segs) →
          (s.planOk r.addr.toNat segs = false → exec (.ckpt r) s = .next (answers s 1)) ∧
          (s.planOk r.addr.toNat segs = true → ∃ t, exec (.ckpt r) s = .next t ∧
            t.plat.ckpt = some ⟨r, segs, ident, 0, [], false⟩ ∧
            ∀ d < 2, ∀ i < 16, (s.slice d i).ctx ≠ none → (s.slice d i).go = false →
              (t.slice d i).st = .switching ∧ (t.slice d i).doSave = true))) ∧
    (s.plat.ckpt = none → exec .checkpointTransfer s = .next s ∧ exec .checkpointCommit s = .next s) ∧
    (∀ k, s.plat.ckpt = some k →
      (k.written = true ∨ s.quiet = false → exec .checkpointTransfer s = .next s) ∧
      (k.written = false → exec .checkpointCommit s = .next s) ∧
      (∀ x, k.segs = [x] → x.2.2.1 % 8 = 0 →
        let data := memBytes s.mem x.1 x.2.1
        (k.written = false → s.quiet = true → ∃ t, exec .checkpointTransfer s = .next t ∧ t.mem = memPut s.mem x.2.2.2 data ∧
          t.plat.ckpt = some { k with pace := s.pace 0, crcs := [crc32c data], written := true }) ∧
        (k.written = true → ∃ t, exec .checkpointCommit s = .next t ∧ t.plat.ckpt = none ∧
          t.out = s.out ++ [.answer k.rec_ 0] ∧
          t.mem = memPut s.mem (x.2.2.2 + x.2.1) (State.commitBytes k.ident k.pace k.crcs)))) ∧
    (r.cmd = 0x21 → r.resv = false → exec (.ckrecv r) s = .next (answers (s.modDie r.die.toNat fun x => { x with
      ckWin := if r.arg1 = 0 then none else some (r.arg0.toNat % 16, r.addr.toNat, r.arg1.toNat) }) 0)) ∧
    (∀ remote, r.cmd = 0x22 → r.resv = false →
      (r.die ≠ 0 ∨ s.plat.ready = false → exec (.ckrest r remote) s = .next (answers s 1)) ∧
      (r.die = 0 → s.plat.ready = true →
        (s.planOf r.addr.toNat = none → exec (.ckrest r remote) s = .next (answers s 2)) ∧
        (∀ ident x, s.planOf r.addr.toNat = some (ident, [x]) → s.planOk r.addr.toNat [x] = true → x.2.2.1 % 8 = 0 →
          let data := memBytes s.mem x.2.2.2 x.2.1
          let rec_ := memBytes s.mem (x.2.2.2 + x.2.1) 4096
          let good := Bits.ofBytes (rec_.take 8) = ident.toNat ∧ Bits.ofBytes ((rec_.drop 16).take 8) = 1 ∧
            Bits.ofBytes ((rec_.drop 24).take 4) = (crc32c data).toNat
          ∃ t, exec (.ckrest r remote) s = .next t ∧ t.mem = memPut s.mem x.1 data ∧
            (good → t.out = s.out ++ [.answer r 0]) ∧ (¬ good → t.out = s.out ++ [.answer r 1]))))

-- the machine as a whole

/-- R5, R9, R25, R230, R255, R256, R265, R267, R271, R340, R341, R345. Reset: the registers of the window at the values of
their field tables and 0 elsewhere, both dies at tick 0 and not ready, every slice idle and unbound, and memory in its
canonical form.
The model's choices: log 4. -/
def Obligations.ResetState : Prop :=
  let s := State.reset
  Memory.wf s.mem = true ∧ s.plat.ready = false ∧ s.plat.off = false ∧
  ∀ d < 2, s.pace d = 0 ∧ (∀ i < 16, (s.slice d i).st = .idle ∧ (s.slice d i).ctx = none) ∧
    (∀ u : UnitId, ∀ slot, s.warp u slot = none) ∧ (s.die d).tlb = [] ∧ (s.die d).launches = [] ∧
    s.reg d Win.pwrcfg = 1600 ∧ s.reg d Win.congCfg = 0x0000000000C08040 ∧ s.reg d Win.mbCfg = 0x0000000804104040 ∧
    s.reg d Win.paceadj = 0 ∧ s.reg d Win.ringctl = 0 ∧ s.reg d Win.dtcfg = 0 ∧ s.reg d Win.attctl = 0 ∧
    (∀ n < 32, s.reg d (Win.peCfg n) = 0x0000400000000000 ∧ s.reg d (Win.peHgatp n) = 0 ∧
      ∀ c < 7, s.reg d (Win.qos n c) = 0x0000000000408020) ∧
    (∀ h < 8, s.reg d (Win.hqos h) = BitVec.ofNat 64 (128 * 2 ^ 18 + 384 * 2 ^ 28) ∧ s.reg d (Win.veown h) = 0) ∧
    (∀ i < 16, s.reg d (Win.slnext i) = 0 ∧ s.reg d (Win.slctl i) = 0)

/-- R59, R95, R104, R129, R142, R144, R162, R174, R181, R190, R200, R293, R297. Words that the spec writes out are read as the
instructions they stand for. -/
def Obligations.SampleWordsDecode : Prop :=
  let h := fun (stl wtm sbt pg : Nat) => (⟨BitVec.ofNat 4 stl, BitVec.ofNat 6 wtm, BitVec.ofNat 3 sbt, BitVec.ofNat 3 pg, false⟩ : Head)
  let plain : MemFlags := ⟨.relaxed, .warp, false, false, false⟩
  decodeTableWord 64 0x2030030202830000 = some (.iadd (h 3 0 0 3) 4 5 (.v 6) false false false) ∧
  decodeTableWord 64 0x3930070500810181 = some (.ilv (h 3 0 0 7) 10 1 (.v 2) 3 true) ∧
  decodeTableWord 64 0x70001F0402080800 = some (.ld (h 0 0 3 7) 8 ⟨.gl, 4, .short 16⟩ .b32 plain) ∧
  decodeTableWord 64 0x7000170280801844 = some (.ld (h 0 0 2 7) 5 ⟨.glk, 1, .short 0⟩ .b32 ⟨.acquire, .pkg, false, false, false⟩) ∧
  decodeTableWord 128 (0x0990000000000010 * 2 ^ 64 + 0x7600170302040801) =
    some (.atom (h 0 0 2 7) 6 8 9 .cas ⟨.gl, 4, .lit 16⟩ .b32 plain) ∧
  decodeTableWord 64 0x0B00070000040808 = some (.lrot (h 0 0 0 7) 0 false 2 8 8) ∧
  decodeTableWord 64 0x0A00070000001805 = some (.lset (h 0 0 0 7) 0 false (.imm 3) 5) ∧
  decodeTableWord 64 0x1900070000000002 = some (.eretKill (h 0 0 0 7)) ∧
  decodeTableWord 64 0x9100170184020000 = some (.mma (h 0 0 2 7) ⟨.row, 3⟩ 8 4 0 false false) ∧
  decodeTableWord 64 0x9C00270342040115 = some (.ecpy (h 0 0 4 7) ⟨6, 2, 1, 0, 2, 0, 8⟩ 5 true) ∧
  decodeTableWord 64 0x9900030008AC3800 = some (.emm (h 0 0 0 3) ⟨0, 0, 4, 5, 6, 7, 0⟩ false false) ∧
  decodeTableWord 64 0x80042F0A85800001 = some (.hresRefute (h 0 16 5 7) 21 11) ∧
  decodeTableWord 64 0xB0000F1408030004 = some (.trace (h 0 0 1 7) 40 16 6 .trav true) ∧
  decodeMicro 0x2B23320040000000 = some (.xfma ⟨44, 35, 12, 32, false, true, false, 0⟩)

/-- R50 to R54, R58, R61, R98, R129, R130, R147, R162, R181, R190, R200, R297. Every instruction that breaks no encoding rule has a
word, with a literal word where it needs one, and the decoder reads the same instruction back from them, operand by operand,
whatever follows.
The model's choices: log 35. -/
def Obligations.InstructionsRoundTrip : Prop :=
  ∀ (i : Instr), i.head.isSome = true → i.WellFormed → ∃ w lit, encode i = some (w, lit) ∧
    (wordLen w = match lit with | some _ => 16 | none => 8) ∧
    (∀ rest, ∃ bs, encodeBytes i = some bs ∧ decode (bs ++ rest) = .ok (i, rest)) ∧
    decodeWord w (lit.getD 0) = ⟨i, [], wordLen w⟩

/-- R293, R295, R377. A microword that is read as a micro-operation is that operation's own word: no two words are read as
one, and no bit is dropped. A micro-operation whose word is read at all is read back from it.
The model's choices: log 36. -/
def Obligations.MicrowordsRoundTrip : Prop :=
  (∀ (x : Dword) (i : Instr), decodeMicro x = some i → encodeMicro i = some x) ∧
  (∀ (i : Instr) (x : Dword), encodeMicro i = some x → decodeMicro x ≠ none → decodeMicro x = some i) ∧
  (∀ (m : Micro), m.im = false → m.sn = false → m.int = false →
    ∀ i ∈ [.nfetchFetch m, .nfetchRaw m, .nfetchChild m, .xfma m, .xmul m, .xmin m, .xmax m, .xrcp m, .xrcpSq m, .spush m,
      .spop m, .microGo m, .emitHit m, .emitSpawn m, .emitSpord m, .emitOut m, .lazy m, .microDone m],
    ∃ x, encodeMicro i = some x ∧ decodeMicro x = some i)

/-- R17, R21, R34, R50, R54, R57, R292, R363, R429. A step is the next mover's. A port issues from the first ready slot after the
one that it last issued; the slot takes the path that R34 chooses, fetches and decodes at its address, and executes that
instruction; an instruction that is blocked counts no issue; a word that breaks a rule parks the path for the cause that ranks
first. A sequencer executes the microword at the address of the slot that it chooses in the same way. An event takes place. A
package that is powered off waits for a cold reset.
The model's choices: log 2, 38, 78, 79, 80. -/
def Obligations.StepRunsTheInstruction : Prop :=
  (∀ (s : State) (u : UnitId) (port : Nat), s.plat.off = false →
    let runs := fun (s' : State) (slot : Nat) (out : Host.Outcome State Fault Refusal) =>
      (∀ i h byAge b a, s'.prep u slot = .run i h byAge b a →
        (∀ t, exec i b = .next t → t.isBlocked = true → out = .next t) ∧
        (∀ t t', exec i b = .next t → t.isBlocked = false → exec i a = .next t' → out = .next (State.finish b t' i h byAge))) ∧
      (∀ t, s'.prep u slot = .stop t → out = .next t)
    let serves := fun (s' : State) (out : Host.Outcome State Fault Refusal) =>
      (s'.portChoice u port = none → out = .next s') ∧ (∀ slot, s'.portChoice u port = some slot → runs s' slot out)
    (∀ r, s.agenda = .issue u port :: r → serves { s with agenda := r } (step s)) ∧
    (s.agenda = [] → s.cur.unit = u → State.issuePort u s.cur.slot = port → serves s (step s))) ∧
  (∀ (s : State) (u : UnitId) (port slot : Nat),
    (s.portChoice u port = some slot ↔ ∃ a b, s.portSlots u port = a ++ slot :: b ∧ s.slotReady u slot = true ∧
      ∀ x ∈ a, s.slotReady u x = false) ∧
    (u.kind = .sc → port < 4 → ∀ k < 16, (s.core u).turn.get port = 16 * port + k + 1 →
      s.portSlots u port = (List.range 16).map fun j => 16 * port + (k + 1 + j) % 16)) ∧
  (∀ (s : State) (u : UnitId) (slot : Nat),
    (∀ i h byAge b a, s.prep u slot = .run i h byAge b a → ∃ w p wd lit, s.warp u slot = some w ∧
      w.choose = some (p, byAge) ∧ s.fetch u slot p.pc = .ok (wd, lit) ∧ (decodeWord wd lit).instr = i ∧
      (decodeWord wd lit).causes = [] ∧ i.kindCauses u.kind = [] ∧ i.head = some h ∧ w.tokensZero h.wtm = true ∧
      (∃ forced, a = b.countIssue forced) ∧
      (State.gated wd = false → i.heldCauses w.gran = [] ∧ b.cur.unit = u ∧ b.cur.slot = slot ∧
        b.cur.path = Warp.laneKey p.mask ∧ b.cur.word = wd ∧ b.cur.len = (decodeWord wd lit).len ∧ b.mem = s.mem)) ∧
    (∀ w p byAge wd lit h c, s.mayIssue u slot = true → s.warp u slot = some w → w.choose = some (p, byAge) →
      w.pathOf (Warp.laneKey p.mask) = some p → p.mask &&& w.parkReq = 0 → w.due = [] → s.fetch u slot p.pc = .ok (wd, lit) →
      let d := decodeWord wd lit
      d.instr.head = some h → w.tokensZero h.wtm = true → slot ≠ trapSlot → State.gated wd = false →
      Cause.first (s.wordCauses u slot w.gran d) = some c →
      ∃ t, s.prep u slot = .stop t ∧
        ∀ l, p.mask.getLsbD l = true → Parked t u slot l c p.pc (State.wordInfo wd))) ∧
  (∀ (s : State) (u : UnitId) (g : GUnit) (r : List Action), s.plat.off = false → s.agenda = .micro u g :: r →
    let s' := { s with agenda := r }
    (s'.microChoice u g = none → step s = .next s') ∧
    (∀ slot x i, s'.microChoice u g = some slot → s.gslot u g slot = some x → s.bad = [] →
      let t := { s'.modCore u fun c => { c with gturn := c.gturn.set g.code (slot + 1) } with mcur := ⟨u, g, slot⟩ }
      let store := (t.core u).cstores.get g.code
      x.pc < store.n → decodeMicro (store.words.get x.pc) = some i → step s = exec i t)) ∧
  (∀ (s : State) (e : Instr) (r : List Action), s.plat.off = false → s.agenda = .event e :: r →
    (e.isEvent = true → step s = exec e { s with agenda := r }) ∧ (e.isEvent = false → step s = .next { s with agenda := r })) ∧
  (∀ (s : State), s.plat.off = true →
    (∀ r, s.agenda = .event .coldReset :: r → step s = exec .coldReset { s with agenda := r }) ∧
    ((∀ r, s.agenda ≠ .event .coldReset :: r) → step s = .fault .poweredOff))

/-- R44, R45, R46, R54, R59, R62, R96, R144. What an operand reads where no unchecked hazard stands in the way: v registers by
lane, through the rotating windows; pairs with the low half in the lower register; k registers whole or their low half;
predicates with p7 always 1; literals. With a hazard, a v register reads its own value or a value that is still to be
written.
The model's choices: log 9. -/
def Obligations.OperandReads : Prop :=
  ∀ (s : State) (w : Warp), Issuing s w →
    (s.cur.hz = [] → (∀ l n, s.rv l n = w.v.get (256 * l + w.phys n)) ∧ (∀ n, s.rk n = w.k.get n) ∧
      (∀ l p, s.rp l p = (if p = 7 then true else (w.p.get p).getLsbD l))) ∧
    (∀ l n, s.rv2 l n = s.rv l (n + 1) ++ s.rv l n) ∧
    (∀ l r, s.srcB l (.v r) = s.rv l r.toNat ∧ s.srcB2 l (.v r) = s.rv2 l r.toNat) ∧
    (∀ l r, s.srcB l (.k r) = (s.rk r.toNat).setWidth 32 ∧ s.srcB2 l (.k r) = s.rk r.toNat) ∧
    (∀ l x, s.srcB l (.lit x) = x.setWidth 32 ∧ s.srcB2 l (.lit x) = x) ∧
    (∀ l n, s.rv l n = w.v.get (256 * l + w.phys n) ∨
      ∃ a ∈ s.cur.hz, a.file = .v ∧ a.reg = w.phys n ∧ a.lane = l ∧ s.rv l n = a.val.setWidth 32) ∧
    ((∀ i < 4, Warp.winSize (w.loops.get i) = 0) → ∀ n < 256, w.phys n = n)

/-- R3, R7. Whatever is issued and whatever happens, memory keeps its canonical form: addresses strictly rising, and no entry
with the value that an unlisted address reads as. The step of the machine is any step at all, over any state.
The model's choices: log 4. -/
def Obligations.MemoryStaysCanonical : Prop :=
  ∀ (s t : State), Memory.wf s.mem = true → step s = .next t → Memory.wf t.mem = true
end

