-- ==== Sys2Proof/Laws/Tab.lean ====
section
/-! SUPPORT. Laws of the sparse tables: a read after a write, writes elsewhere, and the canonical form. -/
namespace Sys2Proof.Tab

variable {α : Type}

@[simp] theorem get_nil [Inhabited α] (k : Nat) : get ([] : Tab α) k = default := rfl

theorem get_insert_same [Inhabited α] (t : Tab α) (k : Nat) (v : α) : get (insert t k v) k = v := by
  induction t with
  | nil => simp [insert, get]
  | cons p t ih =>
    obtain ⟨j, x⟩ := p
    unfold insert
    split
    · simp [get]
    · split
      · simp [get]
      · rename_i h; simp [get, h, ih]

theorem get_insert_ne [Inhabited α] (t : Tab α) {k j : Nat} (v : α) (h : j ≠ k) : get (insert t k v) j = get t j := by
  induction t with
  | nil => simp [insert, get, h.symm]
  | cons p t ih =>
    obtain ⟨i, x⟩ := p
    unfold insert
    split
    · simp [get, h.symm]
    · split
      · rename_i e; subst e; simp [get, h.symm]
      · simp [get, ih]

theorem get_erase_ne [Inhabited α] (t : Tab α) {k j : Nat} (h : j ≠ k) : get (erase t k) j = get t j := by
  induction t with
  | nil => rfl
  | cons p t ih =>
    obtain ⟨i, x⟩ := p
    unfold erase
    split
    · rename_i e; subst e; simp [get, h.symm, ih]
    · simp [get, ih]

/-- A write leaves every other number alone. -/
theorem get_set_ne [Inhabited α] [DecidableEq α] (t : Tab α) {k j : Nat} (v : α) (h : j ≠ k) :
    get (set t k v) j = get t j := by
  unfold set
  split
  · exact get_erase_ne t h
  · exact get_insert_ne t v h

theorem get_of_above [Inhabited α] {b : Nat} : ∀ {t : Tab α}, above b t = true → ∀ {k : Nat}, k ≤ b → get t k = default
  | [], _, _, _ => rfl
  | (j, x) :: t, h, k, hk => by
    simp only [above, Bool.and_eq_true, decide_eq_true_eq] at h
    have : j ≠ k := by omega
    simp [get, this, get_of_above h.2 hk]

theorem above_mono {b c : Nat} : ∀ {t : Tab α}, above c t = true → b ≤ c → above b t = true
  | [], _, _ => rfl
  | (j, x) :: t, h, hb => by
    simp only [above, Bool.and_eq_true, decide_eq_true_eq] at h ⊢
    exact ⟨by omega, above_mono h.2 hb⟩

theorem get_erase_same [Inhabited α] (t : Tab α) (k : Nat) : get (erase t k) k = default := by
  induction t with
  | nil => rfl
  | cons p t ih =>
    obtain ⟨j, x⟩ := p
    unfold erase
    split
    · exact ih
    · rename_i e; simp [get, e, ih]

/-- A read after a write to the same number gives the value written. -/
@[simp] theorem get_set_same [Inhabited α] [DecidableEq α] (t : Tab α) (k : Nat) (v : α) : get (set t k v) k = v := by
  unfold set
  split
  · rename_i e; rw [get_erase_same, e]
  · exact get_insert_same t k v

theorem get_set [Inhabited α] [DecidableEq α] (t : Tab α) (k j : Nat) (v : α) :
    get (set t k v) j = if j = k then v else get t j := by
  split
  · rename_i e; rw [e, get_set_same]
  · rename_i e; exact get_set_ne t v e

theorem get_modify [Inhabited α] [DecidableEq α] (t : Tab α) (k j : Nat) (f : α → α) :
    get (modify t k f) j = if j = k then f (get t k) else get t j := get_set t k j _

theorem above_erase {b : Nat} : ∀ {t : Tab α} {k : Nat}, above b t = true → above b (erase t k) = true
  | [], _, _ => rfl
  | (j, x) :: t, k, h => by
    simp only [above, Bool.and_eq_true] at h
    unfold erase
    split
    · exact above_erase h.2
    · simp only [above, Bool.and_eq_true]; exact ⟨h.1, above_erase h.2⟩

theorem above_insert {b : Nat} : ∀ {t : Tab α} {k : Nat} {v : α}, above b t = true → b < k → above b (insert t k v) = true
  | [], k, v, _, hk => by simp [insert, above, hk]
  | (j, x) :: t, k, v, h, hk => by
    simp only [above, Bool.and_eq_true, decide_eq_true_eq] at h
    unfold insert
    split
    · simp [above, hk, h.1, h.2]
    · split
      · simp [above, hk, h.2]
      · simp only [above, Bool.and_eq_true, decide_eq_true_eq]; exact ⟨h.1, above_insert h.2 hk⟩

theorem wf_erase [Inhabited α] [DecidableEq α] : ∀ {t : Tab α} {k : Nat}, wf t = true → wf (erase t k) = true
  | [], _, _ => rfl
  | (j, x) :: t, k, h => by
    simp only [wf, Bool.and_eq_true] at h
    unfold erase
    split
    · exact wf_erase h.2
    · simp only [wf, Bool.and_eq_true]; exact ⟨⟨above_erase h.1.1, h.1.2⟩, wf_erase h.2⟩

theorem wf_insert [Inhabited α] [DecidableEq α] : ∀ {t : Tab α} {k : Nat} {v : α}, wf t = true → v ≠ default →
    wf (insert t k v) = true
  | [], k, v, _, hv => by simp [insert, wf, above, hv]
  | (j, x) :: t, k, v, h, hv => by
    simp only [wf, Bool.and_eq_true, decide_eq_true_eq] at h
    unfold insert
    split
    · rename_i hk
      simp [wf, above, hv, hk, h.1.1, h.1.2, h.2, above_mono h.1.1 (Nat.le_of_lt hk)]
    · split
      · rename_i e; subst e; simp [wf, hv, h.1.1, h.2]
      · simp only [wf, Bool.and_eq_true, decide_eq_true_eq]
        exact ⟨⟨above_insert h.1.1 (by omega), h.1.2⟩, wf_insert h.2 hv⟩

/-- Writing keeps the canonical form. -/
theorem wf_set [Inhabited α] [DecidableEq α] {t : Tab α} (h : wf t = true) (k : Nat) (v : α) : wf (set t k v) = true := by
  unfold set
  split
  · exact wf_erase h
  · rename_i hv; exact wf_insert h hv

theorem wf_modify [Inhabited α] [DecidableEq α] {t : Tab α} (h : wf t = true) (k : Nat) (f : α → α) :
    wf (modify t k f) = true := wf_set h k _

theorem insert_insert (t : Tab α) (k : Nat) (a b : α) : insert (insert t k a) k b = insert t k b := by
  induction t with
  | nil => simp [insert]
  | cons p t ih =>
    obtain ⟨j, x⟩ := p
    rcases Nat.lt_trichotomy k j with hk | rfl | hk
    · simp [insert, hk]
    · simp [insert]
    · have h1 : ¬ k < j := by omega
      have h2 : j ≠ k := by omega
      simp [insert, h1, h2, ih]

/-- The last of two writes to a number stands, where the values are not the default. -/
theorem set_set [Inhabited α] [DecidableEq α] (t : Tab α) (k : Nat) {a b : α} (ha : a ≠ default) (hb : b ≠ default) :
    set (set t k a) k b = set t k b := by
  simp [set, ha, hb, insert_insert]

/-- Two changes under one number are one change, where the values are not the default. -/
theorem modify_modify [Inhabited α] [DecidableEq α] (t : Tab α) (k : Nat) {f g : α → α} (hf : f (get t k) ≠ default)
    (hg : g (f (get t k)) ≠ default) : modify (modify t k f) k g = modify t k fun x => g (f x) := by
  simp [modify, set_set t k hf hg]

/-- Two tables in canonical form that read alike are equal. -/
theorem ext_of_wf [Inhabited α] [DecidableEq α] : ∀ {t u : Tab α}, wf t = true → wf u = true →
    (∀ k, get t k = get u k) → t = u
  | [], [], _, _, _ => rfl
  | [], (j, x) :: u, _, hu, h => by
    simp only [wf, Bool.and_eq_true, decide_eq_true_eq] at hu
    have := h j
    simp [get] at this
    exact absurd this.symm hu.1.2
  | (j, x) :: t, [], ht, _, h => by
    simp only [wf, Bool.and_eq_true, decide_eq_true_eq] at ht
    have := h j
    simp [get] at this
    exact absurd this ht.1.2
  | (i, x) :: t, (j, y) :: u, ht, hu, h => by
    simp only [wf, Bool.and_eq_true, decide_eq_true_eq] at ht hu
    rcases Nat.lt_trichotomy i j with hij | rfl | hij
    · have := h i
      simp [get, show j ≠ i by omega, get_of_above hu.1.1 (Nat.le_of_lt hij)] at this
      exact absurd this ht.1.2
    · have hx : x = y := by simpa [get] using h i
      subst hx
      have : t = u := ext_of_wf ht.2 hu.2 fun k => by
        by_cases hk : i = k
        · subst hk; rw [get_of_above ht.1.1 (Nat.le_refl _), get_of_above hu.1.1 (Nat.le_refl _)]
        · simpa [get, hk] using h k
      rw [this]
    · have := h j
      simp [get, show i ≠ j by omega, get_of_above ht.1.1 (Nat.le_of_lt hij)] at this
      exact absurd this.symm hu.1.2

end Sys2Proof.Tab
end

