-- ==== Sys2Proof/Laws/State.lean ====
section
/-! SUPPORT. What each update of the state leaves of every field, and what it changes of its own table. -/
namespace Sys2Proof.Machine.State

open Tab

variable (s : State)
-- modCore
@[simp] theorem modCore_agenda (u : UnitId) (f : Core → Core) : (s.modCore u f).agenda = s.agenda := rfl
@[simp] theorem modCore_cur (u : UnitId) (f : Core → Core) : (s.modCore u f).cur = s.cur := rfl
@[simp] theorem modCore_mcur (u : UnitId) (f : Core → Core) : (s.modCore u f).mcur = s.mcur := rfl
@[simp] theorem modCore_free (u : UnitId) (f : Core → Core) : (s.modCore u f).free = s.free := rfl
@[simp] theorem modCore_nextId (u : UnitId) (f : Core → Core) : (s.modCore u f).nextId = s.nextId := rfl
@[simp] theorem modCore_agents (u : UnitId) (f : Core → Core) : (s.modCore u f).agents = s.agents := rfl
@[simp] theorem modCore_dies (u : UnitId) (f : Core → Core) : (s.modCore u f).dies = s.dies := rfl
@[simp] theorem modCore_slices (u : UnitId) (f : Core → Core) : (s.modCore u f).slices = s.slices := rfl
@[simp] theorem modCore_ctxs (u : UnitId) (f : Core → Core) : (s.modCore u f).ctxs = s.ctxs := rfl
@[simp] theorem modCore_mem (u : UnitId) (f : Core → Core) : (s.modCore u f).mem = s.mem := rfl
@[simp] theorem modCore_lines (u : UnitId) (f : Core → Core) : (s.modCore u f).lines = s.lines := rfl
@[simp] theorem modCore_mts (u : UnitId) (f : Core → Core) : (s.modCore u f).mts = s.mts := rfl
@[simp] theorem modCore_sets (u : UnitId) (f : Core → Core) : (s.modCore u f).sets = s.sets := rfl
@[simp] theorem modCore_served (u : UnitId) (f : Core → Core) : (s.modCore u f).served = s.served := rfl
@[simp] theorem modCore_self_ (u : UnitId) (f : Core → Core) : (s.modCore u f).self_ = s.self_ := rfl
@[simp] theorem modCore_pt (u : UnitId) (f : Core → Core) : (s.modCore u f).pt = s.pt := rfl
@[simp] theorem modCore_ptSent (u : UnitId) (f : Core → Core) : (s.modCore u f).ptSent = s.ptSent := rfl
@[simp] theorem modCore_latest (u : UnitId) (f : Core → Core) : (s.modCore u f).latest = s.latest := rfl
@[simp] theorem modCore_ops (u : UnitId) (f : Core → Core) : (s.modCore u f).ops = s.ops := rfl
@[simp] theorem modCore_vers (u : UnitId) (f : Core → Core) : (s.modCore u f).vers = s.vers := rfl
@[simp] theorem modCore_resolves (u : UnitId) (f : Core → Core) : (s.modCore u f).resolves = s.resolves := rfl
@[simp] theorem modCore_windows (u : UnitId) (f : Core → Core) : (s.modCore u f).windows = s.windows := rfl
@[simp] theorem modCore_beats (u : UnitId) (f : Core → Core) : (s.modCore u f).beats = s.beats := rfl
@[simp] theorem modCore_flits (u : UnitId) (f : Core → Core) : (s.modCore u f).flits = s.flits := rfl
@[simp] theorem modCore_collNet (u : UnitId) (f : Core → Core) : (s.modCore u f).collNet = s.collNet := rfl
@[simp] theorem modCore_grids (u : UnitId) (f : Core → Core) : (s.modCore u f).grids = s.grids := rfl
@[simp] theorem modCore_bad (u : UnitId) (f : Core → Core) : (s.modCore u f).bad = s.bad := rfl
@[simp] theorem modCore_out (u : UnitId) (f : Core → Core) : (s.modCore u f).out = s.out := rfl
@[simp] theorem modCore_plat (u : UnitId) (f : Core → Core) : (s.modCore u f).plat = s.plat := rfl
@[simp] theorem modCore_die (u : UnitId) (f : Core → Core) (e : Nat) : (s.modCore u f).die e = s.die e := rfl
@[simp] theorem modCore_pace (u : UnitId) (f : Core → Core) (e : Nat) : (s.modCore u f).pace e = s.pace e := rfl
@[simp] theorem modCore_slice (u : UnitId) (f : Core → Core) (e j : Nat) : (s.modCore u f).slice e j = s.slice e j := rfl
@[simp] theorem modCore_unitSlice (u : UnitId) (f : Core → Core) (v : UnitId) : (s.modCore u f).unitSlice v = s.unitSlice v := rfl
@[simp] theorem modCore_agent (u : UnitId) (f : Core → Core) (e : Nat) : (s.modCore u f).agent e = s.agent e := rfl
@[simp] theorem modCore_ctxRt (u : UnitId) (f : Core → Core) (e : Nat) : (s.modCore u f).ctxRt e = s.ctxRt e := rfl
@[simp] theorem modCore_ctxDesc (u : UnitId) (f : Core → Core) (e : Nat) : (s.modCore u f).ctxDesc e = s.ctxDesc e := rfl

-- setWarp
@[simp] theorem setWarp_agenda (u : UnitId) (n : Nat) (w : Option Warp) : (s.setWarp u n w).agenda = s.agenda := rfl
@[simp] theorem setWarp_cur (u : UnitId) (n : Nat) (w : Option Warp) : (s.setWarp u n w).cur = s.cur := rfl
@[simp] theorem setWarp_mcur (u : UnitId) (n : Nat) (w : Option Warp) : (s.setWarp u n w).mcur = s.mcur := rfl
@[simp] theorem setWarp_free (u : UnitId) (n : Nat) (w : Option Warp) : (s.setWarp u n w).free = s.free := rfl
@[simp] theorem setWarp_nextId (u : UnitId) (n : Nat) (w : Option Warp) : (s.setWarp u n w).nextId = s.nextId := rfl
@[simp] theorem setWarp_agents (u : UnitId) (n : Nat) (w : Option Warp) : (s.setWarp u n w).agents = s.agents := rfl
@[simp] theorem setWarp_dies (u : UnitId) (n : Nat) (w : Option Warp) : (s.setWarp u n w).dies = s.dies := rfl
@[simp] theorem setWarp_slices (u : UnitId) (n : Nat) (w : Option Warp) : (s.setWarp u n w).slices = s.slices := rfl
@[simp] theorem setWarp_ctxs (u : UnitId) (n : Nat) (w : Option Warp) : (s.setWarp u n w).ctxs = s.ctxs := rfl
@[simp] theorem setWarp_mem (u : UnitId) (n : Nat) (w : Option Warp) : (s.setWarp u n w).mem = s.mem := rfl
@[simp] theorem setWarp_lines (u : UnitId) (n : Nat) (w : Option Warp) : (s.setWarp u n w).lines = s.lines := rfl
@[simp] theorem setWarp_mts (u : UnitId) (n : Nat) (w : Option Warp) : (s.setWarp u n w).mts = s.mts := rfl
@[simp] theorem setWarp_sets (u : UnitId) (n : Nat) (w : Option Warp) : (s.setWarp u n w).sets = s.sets := rfl
@[simp] theorem setWarp_served (u : UnitId) (n : Nat) (w : Option Warp) : (s.setWarp u n w).served = s.served := rfl
@[simp] theorem setWarp_self_ (u : UnitId) (n : Nat) (w : Option Warp) : (s.setWarp u n w).self_ = s.self_ := rfl
@[simp] theorem setWarp_pt (u : UnitId) (n : Nat) (w : Option Warp) : (s.setWarp u n w).pt = s.pt := rfl
@[simp] theorem setWarp_ptSent (u : UnitId) (n : Nat) (w : Option Warp) : (s.setWarp u n w).ptSent = s.ptSent := rfl
@[simp] theorem setWarp_latest (u : UnitId) (n : Nat) (w : Option Warp) : (s.setWarp u n w).latest = s.latest := rfl
@[simp] theorem setWarp_ops (u : UnitId) (n : Nat) (w : Option Warp) : (s.setWarp u n w).ops = s.ops := rfl
@[simp] theorem setWarp_vers (u : UnitId) (n : Nat) (w : Option Warp) : (s.setWarp u n w).vers = s.vers := rfl
@[simp] theorem setWarp_resolves (u : UnitId) (n : Nat) (w : Option Warp) : (s.setWarp u n w).resolves = s.resolves := rfl
@[simp] theorem setWarp_windows (u : UnitId) (n : Nat) (w : Option Warp) : (s.setWarp u n w).windows = s.windows := rfl
@[simp] theorem setWarp_beats (u : UnitId) (n : Nat) (w : Option Warp) : (s.setWarp u n w).beats = s.beats := rfl
@[simp] theorem setWarp_flits (u : UnitId) (n : Nat) (w : Option Warp) : (s.setWarp u n w).flits = s.flits := rfl
@[simp] theorem setWarp_collNet (u : UnitId) (n : Nat) (w : Option Warp) : (s.setWarp u n w).collNet = s.collNet := rfl
@[simp] theorem setWarp_grids (u : UnitId) (n : Nat) (w : Option Warp) : (s.setWarp u n w).grids = s.grids := rfl
@[simp] theorem setWarp_bad (u : UnitId) (n : Nat) (w : Option Warp) : (s.setWarp u n w).bad = s.bad := rfl
@[simp] theorem setWarp_out (u : UnitId) (n : Nat) (w : Option Warp) : (s.setWarp u n w).out = s.out := rfl
@[simp] theorem setWarp_plat (u : UnitId) (n : Nat) (w : Option Warp) : (s.setWarp u n w).plat = s.plat := rfl
@[simp] theorem setWarp_die (u : UnitId) (n : Nat) (w : Option Warp) (e : Nat) : (s.setWarp u n w).die e = s.die e := rfl
@[simp] theorem setWarp_pace (u : UnitId) (n : Nat) (w : Option Warp) (e : Nat) : (s.setWarp u n w).pace e = s.pace e := rfl
@[simp] theorem setWarp_slice (u : UnitId) (n : Nat) (w : Option Warp) (e j : Nat) : (s.setWarp u n w).slice e j = s.slice e j := rfl
@[simp] theorem setWarp_unitSlice (u : UnitId) (n : Nat) (w : Option Warp) (v : UnitId) : (s.setWarp u n w).unitSlice v = s.unitSlice v := rfl
@[simp] theorem setWarp_agent (u : UnitId) (n : Nat) (w : Option Warp) (e : Nat) : (s.setWarp u n w).agent e = s.agent e := rfl
@[simp] theorem setWarp_ctxRt (u : UnitId) (n : Nat) (w : Option Warp) (e : Nat) : (s.setWarp u n w).ctxRt e = s.ctxRt e := rfl
@[simp] theorem setWarp_ctxDesc (u : UnitId) (n : Nat) (w : Option Warp) (e : Nat) : (s.setWarp u n w).ctxDesc e = s.ctxDesc e := rfl

-- modWarp
@[simp] theorem modWarp_agenda (u : UnitId) (n : Nat) (f : Warp → Warp) : (s.modWarp u n f).agenda = s.agenda := rfl
@[simp] theorem modWarp_cur (u : UnitId) (n : Nat) (f : Warp → Warp) : (s.modWarp u n f).cur = s.cur := rfl
@[simp] theorem modWarp_mcur (u : UnitId) (n : Nat) (f : Warp → Warp) : (s.modWarp u n f).mcur = s.mcur := rfl
@[simp] theorem modWarp_free (u : UnitId) (n : Nat) (f : Warp → Warp) : (s.modWarp u n f).free = s.free := rfl
@[simp] theorem modWarp_nextId (u : UnitId) (n : Nat) (f : Warp → Warp) : (s.modWarp u n f).nextId = s.nextId := rfl
@[simp] theorem modWarp_agents (u : UnitId) (n : Nat) (f : Warp → Warp) : (s.modWarp u n f).agents = s.agents := rfl
@[simp] theorem modWarp_dies (u : UnitId) (n : Nat) (f : Warp → Warp) : (s.modWarp u n f).dies = s.dies := rfl
@[simp] theorem modWarp_slices (u : UnitId) (n : Nat) (f : Warp → Warp) : (s.modWarp u n f).slices = s.slices := rfl
@[simp] theorem modWarp_ctxs (u : UnitId) (n : Nat) (f : Warp → Warp) : (s.modWarp u n f).ctxs = s.ctxs := rfl
@[simp] theorem modWarp_mem (u : UnitId) (n : Nat) (f : Warp → Warp) : (s.modWarp u n f).mem = s.mem := rfl
@[simp] theorem modWarp_lines (u : UnitId) (n : Nat) (f : Warp → Warp) : (s.modWarp u n f).lines = s.lines := rfl
@[simp] theorem modWarp_mts (u : UnitId) (n : Nat) (f : Warp → Warp) : (s.modWarp u n f).mts = s.mts := rfl
@[simp] theorem modWarp_sets (u : UnitId) (n : Nat) (f : Warp → Warp) : (s.modWarp u n f).sets = s.sets := rfl
@[simp] theorem modWarp_served (u : UnitId) (n : Nat) (f : Warp → Warp) : (s.modWarp u n f).served = s.served := rfl
@[simp] theorem modWarp_self_ (u : UnitId) (n : Nat) (f : Warp → Warp) : (s.modWarp u n f).self_ = s.self_ := rfl
@[simp] theorem modWarp_pt (u : UnitId) (n : Nat) (f : Warp → Warp) : (s.modWarp u n f).pt = s.pt := rfl
@[simp] theorem modWarp_ptSent (u : UnitId) (n : Nat) (f : Warp → Warp) : (s.modWarp u n f).ptSent = s.ptSent := rfl
@[simp] theorem modWarp_latest (u : UnitId) (n : Nat) (f : Warp → Warp) : (s.modWarp u n f).latest = s.latest := rfl
@[simp] theorem modWarp_ops (u : UnitId) (n : Nat) (f : Warp → Warp) : (s.modWarp u n f).ops = s.ops := rfl
@[simp] theorem modWarp_vers (u : UnitId) (n : Nat) (f : Warp → Warp) : (s.modWarp u n f).vers = s.vers := rfl
@[simp] theorem modWarp_resolves (u : UnitId) (n : Nat) (f : Warp → Warp) : (s.modWarp u n f).resolves = s.resolves := rfl
@[simp] theorem modWarp_windows (u : UnitId) (n : Nat) (f : Warp → Warp) : (s.modWarp u n f).windows = s.windows := rfl
@[simp] theorem modWarp_beats (u : UnitId) (n : Nat) (f : Warp → Warp) : (s.modWarp u n f).beats = s.beats := rfl
@[simp] theorem modWarp_flits (u : UnitId) (n : Nat) (f : Warp → Warp) : (s.modWarp u n f).flits = s.flits := rfl
@[simp] theorem modWarp_collNet (u : UnitId) (n : Nat) (f : Warp → Warp) : (s.modWarp u n f).collNet = s.collNet := rfl
@[simp] theorem modWarp_grids (u : UnitId) (n : Nat) (f : Warp → Warp) : (s.modWarp u n f).grids = s.grids := rfl
@[simp] theorem modWarp_bad (u : UnitId) (n : Nat) (f : Warp → Warp) : (s.modWarp u n f).bad = s.bad := rfl
@[simp] theorem modWarp_out (u : UnitId) (n : Nat) (f : Warp → Warp) : (s.modWarp u n f).out = s.out := rfl
@[simp] theorem modWarp_plat (u : UnitId) (n : Nat) (f : Warp → Warp) : (s.modWarp u n f).plat = s.plat := rfl
@[simp] theorem modWarp_die (u : UnitId) (n : Nat) (f : Warp → Warp) (e : Nat) : (s.modWarp u n f).die e = s.die e := rfl
@[simp] theorem modWarp_pace (u : UnitId) (n : Nat) (f : Warp → Warp) (e : Nat) : (s.modWarp u n f).pace e = s.pace e := rfl
@[simp] theorem modWarp_slice (u : UnitId) (n : Nat) (f : Warp → Warp) (e j : Nat) : (s.modWarp u n f).slice e j = s.slice e j := rfl
@[simp] theorem modWarp_unitSlice (u : UnitId) (n : Nat) (f : Warp → Warp) (v : UnitId) : (s.modWarp u n f).unitSlice v = s.unitSlice v := rfl
@[simp] theorem modWarp_agent (u : UnitId) (n : Nat) (f : Warp → Warp) (e : Nat) : (s.modWarp u n f).agent e = s.agent e := rfl
@[simp] theorem modWarp_ctxRt (u : UnitId) (n : Nat) (f : Warp → Warp) (e : Nat) : (s.modWarp u n f).ctxRt e = s.ctxRt e := rfl
@[simp] theorem modWarp_ctxDesc (u : UnitId) (n : Nat) (f : Warp → Warp) (e : Nat) : (s.modWarp u n f).ctxDesc e = s.ctxDesc e := rfl

-- modCur
@[simp] theorem modCur_agenda (f : Warp → Warp) : (s.modCur f).agenda = s.agenda := rfl
@[simp] theorem modCur_cur (f : Warp → Warp) : (s.modCur f).cur = s.cur := rfl
@[simp] theorem modCur_mcur (f : Warp → Warp) : (s.modCur f).mcur = s.mcur := rfl
@[simp] theorem modCur_free (f : Warp → Warp) : (s.modCur f).free = s.free := rfl
@[simp] theorem modCur_nextId (f : Warp → Warp) : (s.modCur f).nextId = s.nextId := rfl
@[simp] theorem modCur_agents (f : Warp → Warp) : (s.modCur f).agents = s.agents := rfl
@[simp] theorem modCur_dies (f : Warp → Warp) : (s.modCur f).dies = s.dies := rfl
@[simp] theorem modCur_slices (f : Warp → Warp) : (s.modCur f).slices = s.slices := rfl
@[simp] theorem modCur_ctxs (f : Warp → Warp) : (s.modCur f).ctxs = s.ctxs := rfl
@[simp] theorem modCur_mem (f : Warp → Warp) : (s.modCur f).mem = s.mem := rfl
@[simp] theorem modCur_lines (f : Warp → Warp) : (s.modCur f).lines = s.lines := rfl
@[simp] theorem modCur_mts (f : Warp → Warp) : (s.modCur f).mts = s.mts := rfl
@[simp] theorem modCur_sets (f : Warp → Warp) : (s.modCur f).sets = s.sets := rfl
@[simp] theorem modCur_served (f : Warp → Warp) : (s.modCur f).served = s.served := rfl
@[simp] theorem modCur_self_ (f : Warp → Warp) : (s.modCur f).self_ = s.self_ := rfl
@[simp] theorem modCur_pt (f : Warp → Warp) : (s.modCur f).pt = s.pt := rfl
@[simp] theorem modCur_ptSent (f : Warp → Warp) : (s.modCur f).ptSent = s.ptSent := rfl
@[simp] theorem modCur_latest (f : Warp → Warp) : (s.modCur f).latest = s.latest := rfl
@[simp] theorem modCur_ops (f : Warp → Warp) : (s.modCur f).ops = s.ops := rfl
@[simp] theorem modCur_vers (f : Warp → Warp) : (s.modCur f).vers = s.vers := rfl
@[simp] theorem modCur_resolves (f : Warp → Warp) : (s.modCur f).resolves = s.resolves := rfl
@[simp] theorem modCur_windows (f : Warp → Warp) : (s.modCur f).windows = s.windows := rfl
@[simp] theorem modCur_beats (f : Warp → Warp) : (s.modCur f).beats = s.beats := rfl
@[simp] theorem modCur_flits (f : Warp → Warp) : (s.modCur f).flits = s.flits := rfl
@[simp] theorem modCur_collNet (f : Warp → Warp) : (s.modCur f).collNet = s.collNet := rfl
@[simp] theorem modCur_grids (f : Warp → Warp) : (s.modCur f).grids = s.grids := rfl
@[simp] theorem modCur_bad (f : Warp → Warp) : (s.modCur f).bad = s.bad := rfl
@[simp] theorem modCur_out (f : Warp → Warp) : (s.modCur f).out = s.out := rfl
@[simp] theorem modCur_plat (f : Warp → Warp) : (s.modCur f).plat = s.plat := rfl
@[simp] theorem modCur_die (f : Warp → Warp) (e : Nat) : (s.modCur f).die e = s.die e := rfl
@[simp] theorem modCur_pace (f : Warp → Warp) (e : Nat) : (s.modCur f).pace e = s.pace e := rfl
@[simp] theorem modCur_slice (f : Warp → Warp) (e j : Nat) : (s.modCur f).slice e j = s.slice e j := rfl
@[simp] theorem modCur_unitSlice (f : Warp → Warp) (v : UnitId) : (s.modCur f).unitSlice v = s.unitSlice v := rfl
@[simp] theorem modCur_agent (f : Warp → Warp) (e : Nat) : (s.modCur f).agent e = s.agent e := rfl
@[simp] theorem modCur_ctxRt (f : Warp → Warp) (e : Nat) : (s.modCur f).ctxRt e = s.ctxRt e := rfl
@[simp] theorem modCur_ctxDesc (f : Warp → Warp) (e : Nat) : (s.modCur f).ctxDesc e = s.ctxDesc e := rfl

-- modDie
@[simp] theorem modDie_agenda (d : Nat) (f : Die → Die) : (s.modDie d f).agenda = s.agenda := rfl
@[simp] theorem modDie_cur (d : Nat) (f : Die → Die) : (s.modDie d f).cur = s.cur := rfl
@[simp] theorem modDie_mcur (d : Nat) (f : Die → Die) : (s.modDie d f).mcur = s.mcur := rfl
@[simp] theorem modDie_free (d : Nat) (f : Die → Die) : (s.modDie d f).free = s.free := rfl
@[simp] theorem modDie_nextId (d : Nat) (f : Die → Die) : (s.modDie d f).nextId = s.nextId := rfl
@[simp] theorem modDie_cores (d : Nat) (f : Die → Die) : (s.modDie d f).cores = s.cores := rfl
@[simp] theorem modDie_agents (d : Nat) (f : Die → Die) : (s.modDie d f).agents = s.agents := rfl
@[simp] theorem modDie_slices (d : Nat) (f : Die → Die) : (s.modDie d f).slices = s.slices := rfl
@[simp] theorem modDie_ctxs (d : Nat) (f : Die → Die) : (s.modDie d f).ctxs = s.ctxs := rfl
@[simp] theorem modDie_mem (d : Nat) (f : Die → Die) : (s.modDie d f).mem = s.mem := rfl
@[simp] theorem modDie_lines (d : Nat) (f : Die → Die) : (s.modDie d f).lines = s.lines := rfl
@[simp] theorem modDie_mts (d : Nat) (f : Die → Die) : (s.modDie d f).mts = s.mts := rfl
@[simp] theorem modDie_sets (d : Nat) (f : Die → Die) : (s.modDie d f).sets = s.sets := rfl
@[simp] theorem modDie_served (d : Nat) (f : Die → Die) : (s.modDie d f).served = s.served := rfl
@[simp] theorem modDie_self_ (d : Nat) (f : Die → Die) : (s.modDie d f).self_ = s.self_ := rfl
@[simp] theorem modDie_pt (d : Nat) (f : Die → Die) : (s.modDie d f).pt = s.pt := rfl
@[simp] theorem modDie_ptSent (d : Nat) (f : Die → Die) : (s.modDie d f).ptSent = s.ptSent := rfl
@[simp] theorem modDie_latest (d : Nat) (f : Die → Die) : (s.modDie d f).latest = s.latest := rfl
@[simp] theorem modDie_ops (d : Nat) (f : Die → Die) : (s.modDie d f).ops = s.ops := rfl
@[simp] theorem modDie_vers (d : Nat) (f : Die → Die) : (s.modDie d f).vers = s.vers := rfl
@[simp] theorem modDie_resolves (d : Nat) (f : Die → Die) : (s.modDie d f).resolves = s.resolves := rfl
@[simp] theorem modDie_windows (d : Nat) (f : Die → Die) : (s.modDie d f).windows = s.windows := rfl
@[simp] theorem modDie_beats (d : Nat) (f : Die → Die) : (s.modDie d f).beats = s.beats := rfl
@[simp] theorem modDie_flits (d : Nat) (f : Die → Die) : (s.modDie d f).flits = s.flits := rfl
@[simp] theorem modDie_collNet (d : Nat) (f : Die → Die) : (s.modDie d f).collNet = s.collNet := rfl
@[simp] theorem modDie_grids (d : Nat) (f : Die → Die) : (s.modDie d f).grids = s.grids := rfl
@[simp] theorem modDie_bad (d : Nat) (f : Die → Die) : (s.modDie d f).bad = s.bad := rfl
@[simp] theorem modDie_out (d : Nat) (f : Die → Die) : (s.modDie d f).out = s.out := rfl
@[simp] theorem modDie_plat (d : Nat) (f : Die → Die) : (s.modDie d f).plat = s.plat := rfl
@[simp] theorem modDie_core (d : Nat) (f : Die → Die) (v : UnitId) : (s.modDie d f).core v = s.core v := rfl
@[simp] theorem modDie_warp (d : Nat) (f : Die → Die) (v : UnitId) (m : Nat) : (s.modDie d f).warp v m = s.warp v m := rfl
@[simp] theorem modDie_slice (d : Nat) (f : Die → Die) (e j : Nat) : (s.modDie d f).slice e j = s.slice e j := rfl
@[simp] theorem modDie_unitSlice (d : Nat) (f : Die → Die) (v : UnitId) : (s.modDie d f).unitSlice v = s.unitSlice v := rfl
@[simp] theorem modDie_agent (d : Nat) (f : Die → Die) (e : Nat) : (s.modDie d f).agent e = s.agent e := rfl
@[simp] theorem modDie_ctxRt (d : Nat) (f : Die → Die) (e : Nat) : (s.modDie d f).ctxRt e = s.ctxRt e := rfl
@[simp] theorem modDie_ctxDesc (d : Nat) (f : Die → Die) (e : Nat) : (s.modDie d f).ctxDesc e = s.ctxDesc e := rfl

-- modSlice
@[simp] theorem modSlice_agenda (d i : Nat) (f : Slice → Slice) : (s.modSlice d i f).agenda = s.agenda := rfl
@[simp] theorem modSlice_cur (d i : Nat) (f : Slice → Slice) : (s.modSlice d i f).cur = s.cur := rfl
@[simp] theorem modSlice_mcur (d i : Nat) (f : Slice → Slice) : (s.modSlice d i f).mcur = s.mcur := rfl
@[simp] theorem modSlice_free (d i : Nat) (f : Slice → Slice) : (s.modSlice d i f).free = s.free := rfl
@[simp] theorem modSlice_nextId (d i : Nat) (f : Slice → Slice) : (s.modSlice d i f).nextId = s.nextId := rfl
@[simp] theorem modSlice_cores (d i : Nat) (f : Slice → Slice) : (s.modSlice d i f).cores = s.cores := rfl
@[simp] theorem modSlice_agents (d i : Nat) (f : Slice → Slice) : (s.modSlice d i f).agents = s.agents := rfl
@[simp] theorem modSlice_dies (d i : Nat) (f : Slice → Slice) : (s.modSlice d i f).dies = s.dies := rfl
@[simp] theorem modSlice_ctxs (d i : Nat) (f : Slice → Slice) : (s.modSlice d i f).ctxs = s.ctxs := rfl
@[simp] theorem modSlice_mem (d i : Nat) (f : Slice → Slice) : (s.modSlice d i f).mem = s.mem := rfl
@[simp] theorem modSlice_lines (d i : Nat) (f : Slice → Slice) : (s.modSlice d i f).lines = s.lines := rfl
@[simp] theorem modSlice_mts (d i : Nat) (f : Slice → Slice) : (s.modSlice d i f).mts = s.mts := rfl
@[simp] theorem modSlice_sets (d i : Nat) (f : Slice → Slice) : (s.modSlice d i f).sets = s.sets := rfl
@[simp] theorem modSlice_served (d i : Nat) (f : Slice → Slice) : (s.modSlice d i f).served = s.served := rfl
@[simp] theorem modSlice_self_ (d i : Nat) (f : Slice → Slice) : (s.modSlice d i f).self_ = s.self_ := rfl
@[simp] theorem modSlice_pt (d i : Nat) (f : Slice → Slice) : (s.modSlice d i f).pt = s.pt := rfl
@[simp] theorem modSlice_ptSent (d i : Nat) (f : Slice → Slice) : (s.modSlice d i f).ptSent = s.ptSent := rfl
@[simp] theorem modSlice_latest (d i : Nat) (f : Slice → Slice) : (s.modSlice d i f).latest = s.latest := rfl
@[simp] theorem modSlice_ops (d i : Nat) (f : Slice → Slice) : (s.modSlice d i f).ops = s.ops := rfl
@[simp] theorem modSlice_vers (d i : Nat) (f : Slice → Slice) : (s.modSlice d i f).vers = s.vers := rfl
@[simp] theorem modSlice_resolves (d i : Nat) (f : Slice → Slice) : (s.modSlice d i f).resolves = s.resolves := rfl
@[simp] theorem modSlice_windows (d i : Nat) (f : Slice → Slice) : (s.modSlice d i f).windows = s.windows := rfl
@[simp] theorem modSlice_beats (d i : Nat) (f : Slice → Slice) : (s.modSlice d i f).beats = s.beats := rfl
@[simp] theorem modSlice_flits (d i : Nat) (f : Slice → Slice) : (s.modSlice d i f).flits = s.flits := rfl
@[simp] theorem modSlice_collNet (d i : Nat) (f : Slice → Slice) : (s.modSlice d i f).collNet = s.collNet := rfl
@[simp] theorem modSlice_grids (d i : Nat) (f : Slice → Slice) : (s.modSlice d i f).grids = s.grids := rfl
@[simp] theorem modSlice_bad (d i : Nat) (f : Slice → Slice) : (s.modSlice d i f).bad = s.bad := rfl
@[simp] theorem modSlice_out (d i : Nat) (f : Slice → Slice) : (s.modSlice d i f).out = s.out := rfl
@[simp] theorem modSlice_plat (d i : Nat) (f : Slice → Slice) : (s.modSlice d i f).plat = s.plat := rfl
@[simp] theorem modSlice_core (d i : Nat) (f : Slice → Slice) (v : UnitId) : (s.modSlice d i f).core v = s.core v := rfl
@[simp] theorem modSlice_warp (d i : Nat) (f : Slice → Slice) (v : UnitId) (m : Nat) : (s.modSlice d i f).warp v m = s.warp v m := rfl
@[simp] theorem modSlice_die (d i : Nat) (f : Slice → Slice) (e : Nat) : (s.modSlice d i f).die e = s.die e := rfl
@[simp] theorem modSlice_pace (d i : Nat) (f : Slice → Slice) (e : Nat) : (s.modSlice d i f).pace e = s.pace e := rfl
@[simp] theorem modSlice_agent (d i : Nat) (f : Slice → Slice) (e : Nat) : (s.modSlice d i f).agent e = s.agent e := rfl
@[simp] theorem modSlice_ctxRt (d i : Nat) (f : Slice → Slice) (e : Nat) : (s.modSlice d i f).ctxRt e = s.ctxRt e := rfl
@[simp] theorem modSlice_ctxDesc (d i : Nat) (f : Slice → Slice) (e : Nat) : (s.modSlice d i f).ctxDesc e = s.ctxDesc e := rfl

-- modAgent
@[simp] theorem modAgent_agenda (n : Nat) (f : LeaseAgent → LeaseAgent) : (s.modAgent n f).agenda = s.agenda := rfl
@[simp] theorem modAgent_cur (n : Nat) (f : LeaseAgent → LeaseAgent) : (s.modAgent n f).cur = s.cur := rfl
@[simp] theorem modAgent_mcur (n : Nat) (f : LeaseAgent → LeaseAgent) : (s.modAgent n f).mcur = s.mcur := rfl
@[simp] theorem modAgent_free (n : Nat) (f : LeaseAgent → LeaseAgent) : (s.modAgent n f).free = s.free := rfl
@[simp] theorem modAgent_nextId (n : Nat) (f : LeaseAgent → LeaseAgent) : (s.modAgent n f).nextId = s.nextId := rfl
@[simp] theorem modAgent_cores (n : Nat) (f : LeaseAgent → LeaseAgent) : (s.modAgent n f).cores = s.cores := rfl
@[simp] theorem modAgent_dies (n : Nat) (f : LeaseAgent → LeaseAgent) : (s.modAgent n f).dies = s.dies := rfl
@[simp] theorem modAgent_slices (n : Nat) (f : LeaseAgent → LeaseAgent) : (s.modAgent n f).slices = s.slices := rfl
@[simp] theorem modAgent_ctxs (n : Nat) (f : LeaseAgent → LeaseAgent) : (s.modAgent n f).ctxs = s.ctxs := rfl
@[simp] theorem modAgent_mem (n : Nat) (f : LeaseAgent → LeaseAgent) : (s.modAgent n f).mem = s.mem := rfl
@[simp] theorem modAgent_lines (n : Nat) (f : LeaseAgent → LeaseAgent) : (s.modAgent n f).lines = s.lines := rfl
@[simp] theorem modAgent_mts (n : Nat) (f : LeaseAgent → LeaseAgent) : (s.modAgent n f).mts = s.mts := rfl
@[simp] theorem modAgent_sets (n : Nat) (f : LeaseAgent → LeaseAgent) : (s.modAgent n f).sets = s.sets := rfl
@[simp] theorem modAgent_served (n : Nat) (f : LeaseAgent → LeaseAgent) : (s.modAgent n f).served = s.served := rfl
@[simp] theorem modAgent_self_ (n : Nat) (f : LeaseAgent → LeaseAgent) : (s.modAgent n f).self_ = s.self_ := rfl
@[simp] theorem modAgent_pt (n : Nat) (f : LeaseAgent → LeaseAgent) : (s.modAgent n f).pt = s.pt := rfl
@[simp] theorem modAgent_ptSent (n : Nat) (f : LeaseAgent → LeaseAgent) : (s.modAgent n f).ptSent = s.ptSent := rfl
@[simp] theorem modAgent_latest (n : Nat) (f : LeaseAgent → LeaseAgent) : (s.modAgent n f).latest = s.latest := rfl
@[simp] theorem modAgent_ops (n : Nat) (f : LeaseAgent → LeaseAgent) : (s.modAgent n f).ops = s.ops := rfl
@[simp] theorem modAgent_vers (n : Nat) (f : LeaseAgent → LeaseAgent) : (s.modAgent n f).vers = s.vers := rfl
@[simp] theorem modAgent_resolves (n : Nat) (f : LeaseAgent → LeaseAgent) : (s.modAgent n f).resolves = s.resolves := rfl
@[simp] theorem modAgent_windows (n : Nat) (f : LeaseAgent → LeaseAgent) : (s.modAgent n f).windows = s.windows := rfl
@[simp] theorem modAgent_beats (n : Nat) (f : LeaseAgent → LeaseAgent) : (s.modAgent n f).beats = s.beats := rfl
@[simp] theorem modAgent_flits (n : Nat) (f : LeaseAgent → LeaseAgent) : (s.modAgent n f).flits = s.flits := rfl
@[simp] theorem modAgent_collNet (n : Nat) (f : LeaseAgent → LeaseAgent) : (s.modAgent n f).collNet = s.collNet := rfl
@[simp] theorem modAgent_grids (n : Nat) (f : LeaseAgent → LeaseAgent) : (s.modAgent n f).grids = s.grids := rfl
@[simp] theorem modAgent_bad (n : Nat) (f : LeaseAgent → LeaseAgent) : (s.modAgent n f).bad = s.bad := rfl
@[simp] theorem modAgent_out (n : Nat) (f : LeaseAgent → LeaseAgent) : (s.modAgent n f).out = s.out := rfl
@[simp] theorem modAgent_plat (n : Nat) (f : LeaseAgent → LeaseAgent) : (s.modAgent n f).plat = s.plat := rfl
@[simp] theorem modAgent_core (n : Nat) (f : LeaseAgent → LeaseAgent) (v : UnitId) : (s.modAgent n f).core v = s.core v := rfl
@[simp] theorem modAgent_warp (n : Nat) (f : LeaseAgent → LeaseAgent) (v : UnitId) (m : Nat) : (s.modAgent n f).warp v m = s.warp v m := rfl
@[simp] theorem modAgent_die (n : Nat) (f : LeaseAgent → LeaseAgent) (e : Nat) : (s.modAgent n f).die e = s.die e := rfl
@[simp] theorem modAgent_pace (n : Nat) (f : LeaseAgent → LeaseAgent) (e : Nat) : (s.modAgent n f).pace e = s.pace e := rfl
@[simp] theorem modAgent_slice (n : Nat) (f : LeaseAgent → LeaseAgent) (e j : Nat) : (s.modAgent n f).slice e j = s.slice e j := rfl
@[simp] theorem modAgent_unitSlice (n : Nat) (f : LeaseAgent → LeaseAgent) (v : UnitId) : (s.modAgent n f).unitSlice v = s.unitSlice v := rfl
@[simp] theorem modAgent_ctxRt (n : Nat) (f : LeaseAgent → LeaseAgent) (e : Nat) : (s.modAgent n f).ctxRt e = s.ctxRt e := rfl
@[simp] theorem modAgent_ctxDesc (n : Nat) (f : LeaseAgent → LeaseAgent) (e : Nat) : (s.modAgent n f).ctxDesc e = s.ctxDesc e := rfl

-- modCtxRt
@[simp] theorem modCtxRt_agenda (c : Nat) (f : CtxRt → CtxRt) : (s.modCtxRt c f).agenda = s.agenda := rfl
@[simp] theorem modCtxRt_cur (c : Nat) (f : CtxRt → CtxRt) : (s.modCtxRt c f).cur = s.cur := rfl
@[simp] theorem modCtxRt_mcur (c : Nat) (f : CtxRt → CtxRt) : (s.modCtxRt c f).mcur = s.mcur := rfl
@[simp] theorem modCtxRt_free (c : Nat) (f : CtxRt → CtxRt) : (s.modCtxRt c f).free = s.free := rfl
@[simp] theorem modCtxRt_nextId (c : Nat) (f : CtxRt → CtxRt) : (s.modCtxRt c f).nextId = s.nextId := rfl
@[simp] theorem modCtxRt_cores (c : Nat) (f : CtxRt → CtxRt) : (s.modCtxRt c f).cores = s.cores := rfl
@[simp] theorem modCtxRt_agents (c : Nat) (f : CtxRt → CtxRt) : (s.modCtxRt c f).agents = s.agents := rfl
@[simp] theorem modCtxRt_dies (c : Nat) (f : CtxRt → CtxRt) : (s.modCtxRt c f).dies = s.dies := rfl
@[simp] theorem modCtxRt_slices (c : Nat) (f : CtxRt → CtxRt) : (s.modCtxRt c f).slices = s.slices := rfl
@[simp] theorem modCtxRt_mem (c : Nat) (f : CtxRt → CtxRt) : (s.modCtxRt c f).mem = s.mem := rfl
@[simp] theorem modCtxRt_lines (c : Nat) (f : CtxRt → CtxRt) : (s.modCtxRt c f).lines = s.lines := rfl
@[simp] theorem modCtxRt_mts (c : Nat) (f : CtxRt → CtxRt) : (s.modCtxRt c f).mts = s.mts := rfl
@[simp] theorem modCtxRt_sets (c : Nat) (f : CtxRt → CtxRt) : (s.modCtxRt c f).sets = s.sets := rfl
@[simp] theorem modCtxRt_served (c : Nat) (f : CtxRt → CtxRt) : (s.modCtxRt c f).served = s.served := rfl
@[simp] theorem modCtxRt_self_ (c : Nat) (f : CtxRt → CtxRt) : (s.modCtxRt c f).self_ = s.self_ := rfl
@[simp] theorem modCtxRt_pt (c : Nat) (f : CtxRt → CtxRt) : (s.modCtxRt c f).pt = s.pt := rfl
@[simp] theorem modCtxRt_ptSent (c : Nat) (f : CtxRt → CtxRt) : (s.modCtxRt c f).ptSent = s.ptSent := rfl
@[simp] theorem modCtxRt_latest (c : Nat) (f : CtxRt → CtxRt) : (s.modCtxRt c f).latest = s.latest := rfl
@[simp] theorem modCtxRt_ops (c : Nat) (f : CtxRt → CtxRt) : (s.modCtxRt c f).ops = s.ops := rfl
@[simp] theorem modCtxRt_vers (c : Nat) (f : CtxRt → CtxRt) : (s.modCtxRt c f).vers = s.vers := rfl
@[simp] theorem modCtxRt_resolves (c : Nat) (f : CtxRt → CtxRt) : (s.modCtxRt c f).resolves = s.resolves := rfl
@[simp] theorem modCtxRt_windows (c : Nat) (f : CtxRt → CtxRt) : (s.modCtxRt c f).windows = s.windows := rfl
@[simp] theorem modCtxRt_beats (c : Nat) (f : CtxRt → CtxRt) : (s.modCtxRt c f).beats = s.beats := rfl
@[simp] theorem modCtxRt_flits (c : Nat) (f : CtxRt → CtxRt) : (s.modCtxRt c f).flits = s.flits := rfl
@[simp] theorem modCtxRt_collNet (c : Nat) (f : CtxRt → CtxRt) : (s.modCtxRt c f).collNet = s.collNet := rfl
@[simp] theorem modCtxRt_grids (c : Nat) (f : CtxRt → CtxRt) : (s.modCtxRt c f).grids = s.grids := rfl
@[simp] theorem modCtxRt_bad (c : Nat) (f : CtxRt → CtxRt) : (s.modCtxRt c f).bad = s.bad := rfl
@[simp] theorem modCtxRt_out (c : Nat) (f : CtxRt → CtxRt) : (s.modCtxRt c f).out = s.out := rfl
@[simp] theorem modCtxRt_plat (c : Nat) (f : CtxRt → CtxRt) : (s.modCtxRt c f).plat = s.plat := rfl
@[simp] theorem modCtxRt_core (c : Nat) (f : CtxRt → CtxRt) (v : UnitId) : (s.modCtxRt c f).core v = s.core v := rfl
@[simp] theorem modCtxRt_warp (c : Nat) (f : CtxRt → CtxRt) (v : UnitId) (m : Nat) : (s.modCtxRt c f).warp v m = s.warp v m := rfl
@[simp] theorem modCtxRt_die (c : Nat) (f : CtxRt → CtxRt) (e : Nat) : (s.modCtxRt c f).die e = s.die e := rfl
@[simp] theorem modCtxRt_pace (c : Nat) (f : CtxRt → CtxRt) (e : Nat) : (s.modCtxRt c f).pace e = s.pace e := rfl
@[simp] theorem modCtxRt_slice (c : Nat) (f : CtxRt → CtxRt) (e j : Nat) : (s.modCtxRt c f).slice e j = s.slice e j := rfl
@[simp] theorem modCtxRt_unitSlice (c : Nat) (f : CtxRt → CtxRt) (v : UnitId) : (s.modCtxRt c f).unitSlice v = s.unitSlice v := rfl
@[simp] theorem modCtxRt_agent (c : Nat) (f : CtxRt → CtxRt) (e : Nat) : (s.modCtxRt c f).agent e = s.agent e := rfl

-- what an update changes

theorem core_modCore_ne {u v : UnitId} (f : Core → Core) (h : unitNo v ≠ unitNo u) : (s.modCore u f).core v = s.core v :=
  get_set_ne _ _ h

@[simp] theorem core_modCore (u : UnitId) (f : Core → Core) : (s.modCore u f).core u = f (s.core u) := get_set_same _ _ _

theorem die_modDie_ne {d e : Nat} (f : Die → Die) (h : e ≠ d) : (s.modDie d f).die e = s.die e := get_set_ne _ _ h

@[simp] theorem die_modDie (d : Nat) (f : Die → Die) : (s.modDie d f).die d = f (s.die d) :=
  get_set_same _ _ _

theorem agent_modAgent_ne {n m : Nat} (f : LeaseAgent → LeaseAgent) (h : m ≠ n) : (s.modAgent n f).agent m = s.agent m :=
  get_set_ne _ _ h

@[simp] theorem agent_modAgent (n : Nat) (f : LeaseAgent → LeaseAgent) :
    (s.modAgent n f).agent n = f (s.agent n) := get_set_same _ _ _

theorem ctxRt_modCtxRt_ne {c e : Nat} (f : CtxRt → CtxRt) (h : e ≠ c) : (s.modCtxRt c f).ctxRt e = s.ctxRt e :=
  get_set_ne _ _ h

@[simp] theorem ctxRt_modCtxRt (c : Nat) (f : CtxRt → CtxRt) : (s.modCtxRt c f).ctxRt c = f (s.ctxRt c) :=
  get_set_same _ _ _

theorem slice_modSlice_ne {d i e j : Nat} (f : Slice → Slice) (h : 16 * e + j ≠ 16 * d + i) :
    (s.modSlice d i f).slice e j = s.slice e j := get_set_ne _ _ h

@[simp] theorem slice_modSlice (d i : Nat) (f : Slice → Slice) :
    (s.modSlice d i f).slice d i = f (s.slice d i) := get_set_same _ _ _

/-- A core that holds a warp is not the empty core. -/
theorem withWarp_ne_default (c : Core) (n : Nat) (w : Warp) :
    ({ c with warps := c.warps.set n (some w) } : Core) ≠ default := by
  intro h
  have h1 : (c.warps.set n (some w)) = (default : Core).warps := congrArg Core.warps h
  have h2 : get (c.warps.set n (some w)) n = some w := get_set_same c.warps n _
  rw [h1] at h2
  cases h2

@[simp] theorem warp_setWarp (u : UnitId) (n : Nat) (w : Warp) : (s.setWarp u n (some w)).warp u n = some w := by
  unfold warp setWarp
  rw [core_modCore]
  exact get_set_same (s.core u).warps n (some w)

theorem warp_setWarp_ne {u v : UnitId} {n m : Nat} (w : Warp) (h : unitNo v ≠ unitNo u ∨ m ≠ n) :
    (s.setWarp u n (some w)).warp v m = s.warp v m := by
  by_cases hu : unitNo v = unitNo u
  · have hm : m ≠ n := by rcases h with h | h; exact absurd hu h; exact h
    have e : ∀ t : State, t.core v = t.core u := fun t => by simp only [core, hu]
    unfold warp
    rw [e, e]
    unfold setWarp
    rw [core_modCore]
    exact get_set_ne (s.core u).warps (some w) hm
  · unfold warp setWarp
    rw [core_modCore_ne _ _ hu]

/-- Changing a warp that is there is putting the changed warp in its slot. -/
theorem modWarp_eq {u : UnitId} {n : Nat} {w : Warp} (h : s.warp u n = some w) (f : Warp → Warp) :
    s.modWarp u n f = s.setWarp u n (some (f w)) := by
  have e : get (get s.cores (unitNo u)).warps n = some w := h
  simp only [modWarp, setWarp, modCore, Tab.modify, e, Option.map_some]

@[simp] theorem setWarp_setWarp (u : UnitId) (n : Nat) (w x : Warp) :
    (s.setWarp u n (some w)).setWarp u n (some x) = s.setWarp u n (some x) := by
  have e := modify_modify (f := fun c : Core => { c with warps := c.warps.set n (some w) })
    (g := fun c : Core => { c with warps := c.warps.set n (some x) }) s.cores (unitNo u)
    (withWarp_ne_default _ n w) (withWarp_ne_default _ n x)
  simp only [setWarp, modCore]
  rw [e]
  simp only [set_set _ n (Option.some_ne_none w) (Option.some_ne_none x)]

theorem modCur_eq {w : Warp} (h : s.warp s.cur.unit s.cur.slot = some w) (f : Warp → Warp) :
    s.modCur f = s.setWarp s.cur.unit s.cur.slot (some (f w)) := s.modWarp_eq h f

theorem curW_eq {w : Warp} (h : s.warp s.cur.unit s.cur.slot = some w) : s.curW = w := by simp [curW, h]

/-- The default state is the reset state. -/
theorem default_eq_reset : (default : State) = State.reset := rfl

end Sys2Proof.Machine.State
end

