-- ==== Sys2Proof/Laws/Mem.lean ====
section
/-! SUPPORT. Laws of memory: reads after writes, the canonical form, what a store at home does, and what a translation
depends on. -/
namespace Sys2Proof.Machine

open Tab

-- bytes

theorem get_memPut (m : Tab Byte) (pa : Nat) (bs : List Byte) (a : Nat) :
    (memPut m pa bs).get a = if pa ≤ a ∧ a < pa + bs.length then bs.getD (a - pa) 0 else m.get a := by
  induction bs generalizing m pa with
  | nil =>
    rw [if_neg (by simp only [List.length_nil]; omega)]; rfl
  | cons b r ih =>
    unfold memPut
    rw [ih, Tab.get_set]
    by_cases h : a = pa
    · subst h
      rw [if_neg (by omega), if_pos rfl, if_pos (by simp only [List.length_cons]; omega)]
      simp
    · rw [if_neg h]
      by_cases h2 : pa + 1 ≤ a ∧ a < pa + 1 + r.length
      · rw [if_pos h2, if_pos (by simp only [List.length_cons]; omega)]
        obtain ⟨j, hj⟩ : ∃ j, a - pa = j + 1 := ⟨a - pa - 1, by omega⟩
        rw [hj, show a - (pa + 1) = j by omega]
        rfl
      · rw [if_neg h2, if_neg (by simp only [List.length_cons]; omega)]

/-- Stores keep the canonical form. -/
theorem wf_memPut {m : Tab Byte} (h : Memory.wf m = true) (pa : Nat) (bs : List Byte) :
    Memory.wf (memPut m pa bs) = true := by
  induction bs generalizing m pa with
  | nil => exact h
  | cons b r ih => exact ih (wf_set h pa b) (pa + 1)

theorem reset_wf : Memory.wf State.reset.mem = true := rfl

namespace State

variable (s : State)

@[simp] theorem mem_putTs (pa : Nat) (t : LineTs) : (s.putTs pa t).mem = s.mem := by
  unfold putTs; split
  · rfl
  · split <;> rfl

/-- A store at home writes its bytes and no others. -/
@[simp] theorem mem_homeStore (pa : Nat) (bs : List Byte) (pts : BitVec 16) :
    (s.homeStore pa bs pts).2.mem = memPut s.mem pa bs := by
  simp [homeStore]

/-- Package time that a store meets changes no byte. -/
@[simp] theorem mem_reachPt (pa : Nat) (w : BitVec 16) : (s.reachPt pa w).mem = s.mem := by
  unfold reachPt sendPt; split <;> rfl

@[simp] theorem mem_devStore (pa : Nat) (bs : List Byte) : (s.devStore pa bs).mem = memPut s.mem pa bs := by
  simp [devStore]

@[simp] theorem mem_homeLease (pa : Nat) (pts : BitVec 16) (n : Nat) : (s.homeLease pa pts n).2.2.mem = s.mem := by
  simp [homeLease]

theorem wf_homeStore (h : Memory.wf s.mem = true) (pa : Nat) (bs : List Byte) (pts : BitVec 16) :
    Memory.wf (s.homeStore pa bs pts).2.mem = true := by
  rw [mem_homeStore]; exact wf_memPut h pa bs

theorem wf_devStore (h : Memory.wf s.mem = true) (pa : Nat) (bs : List Byte) : Memory.wf (s.devStore pa bs).mem = true := by
  rw [mem_devStore]; exact wf_memPut h pa bs

end State

-- what a translation depends on

section
variable {s t : State} (hm : t.mem = s.mem) (hd : t.dies = s.dies) (hs : t.slices = s.slices)
include hm

theorem peek_congr : t.peek = s.peek := by
  funext pa n; simp [State.peek, hm]

theorem walk_congr : walk t = walk s := by
  funext x st1 addr wide lvl base
  induction lvl generalizing wide base with
  | zero => unfold walk; rw [peek_congr hm]
  | succ n ih => unfold walk; rw [peek_congr hm]; simp only [ih]

include hd

omit hm in
theorem die_congr : t.die = s.die := by
  funext d; show t.dies.get d = _; rw [hd]; rfl

omit hm in
theorem reg_congr : t.reg = s.reg := by
  funext d off; show ((t.die d).win.get off).getD _ = _; rw [die_congr hd]; rfl

omit hm in
theorem vmidOf_congr : vmidOf t = vmidOf s := by
  funext d p; unfold vmidOf; rw [reg_congr hd]

omit hm in
theorem walkStart_congr : walkStart t = walkStart s := by
  funext d v a st1 addr lvl base wide; unfold walkStart; rw [die_congr hd]

omit hm in
theorem lostPa_congr : t.lostPa = s.lostPa := by
  funext d pa; unfold State.lostPa State.lostPeer; rw [die_congr hd, reg_congr hd]

omit hm in
theorem entryPa_congr : entryPa t = entryPa s := by
  funext d pa; unfold entryPa; rw [lostPa_congr hd]

theorem stage2_congr : stage2 t = stage2 s := by
  funext d pidx need gpa
  unfold stage2
  rw [walk_congr hm, reg_congr hd, walkStart_congr hd, vmidOf_congr hd, entryPa_congr hd]

theorem walkBoth_congr : walkBoth t = walkBoth s := by
  funext d c pidx user need va
  unfold walkBoth
  rw [walk_congr hm, stage2_congr hm hd, walkStart_congr hd, vmidOf_congr hd, entryPa_congr hd]

omit hm in
theorem inSpace_congr : inSpace t = inSpace s := by
  have h : t.portOpen = s.portOpen := by funext pa; unfold State.portOpen; rw [die_congr hd]
  funext r; unfold inSpace; rw [h]

omit hm in
theorem tlbHit_congr : tlbHit t = tlbHit s := by
  funext u c p v; unfold tlbHit; rw [die_congr hd, vmidOf_congr hd]

theorem translate_congr : translate t = translate s := by
  funext d c pidx user need va
  unfold translate
  rw [inSpace_congr hd, walkBoth_congr hm hd]

include hs

/-- A translation reads memory, the dies and the slices, and nothing else. -/
theorem xlate_congr : t.xlate = s.xlate := by
  funext u user need va
  have h : t.unitSlice u = s.unitSlice u := by show t.slices.get _ = _; rw [hs]; rfl
  unfold State.xlate
  rw [h, inSpace_congr hd, tlbHit_congr hd, walkBoth_congr hm hd]

theorem fetchWord_congr : t.fetchWord = s.fetchWord := by
  funext u user va
  unfold State.fetchWord
  rw [xlate_congr hm hd hs, peek_congr hm, lostPa_congr hd]

end

end Sys2Proof.Machine
end

