-- ==== Sys2Proof/Laws/Warp.lean ====
section
/-! SUPPORT. What a change of flow leaves of a warp, and what register results leave of it. -/
namespace Sys2Proof.Machine.Warp

open Terms Tab

/-- A warp without what a change of flow may touch. -/
def still (w : Warp) : Warp := { w with paths := [], run := 0, joins := [], loops := [], sp := 0, wdcnt := 0 }

theorem flowOnly_iff {w w' : Warp} : FlowOnly w w' ↔ still w' = still w := by
  constructor
  · intro h; rw [h]; rfl
  · intro h
    exact congrArg (fun x : Warp => { x with
      paths := w'.paths, run := w'.run, joins := w'.joins, loops := w'.loops, sp := w'.sp, wdcnt := w'.wdcnt }) h

theorem still_congr {w : Warp} (ps : List Path) (r : Nat) (js : Tab (Option Join)) (ls : Tab Loop) (sp : BitVec 8) (n : Nat) :
    still { w with paths := ps, run := r, joins := js, loops := ls, sp := sp, wdcnt := n } = still w := rfl

theorem still_run (w : Warp) (r : Nat) : still { w with run := r } = still w := rfl

@[simp] theorem still_dropLanes (w : Warp) (m : Lanes) : still (w.dropLanes m) = still w := rfl

@[simp] theorem still_addPath (w : Warp) (p : Path) : still (w.addPath p) = still w := by
  unfold addPath; split <;> rfl

@[simp] theorem still_modLoop (w : Warp) (n : Nat) (f : Loop → Loop) : still (w.modLoop n f) = still w := rfl

@[simp] theorem still_settle (e : FlowEnv) (n : Nat) (w : Warp) (p : Path) : still (settle e n w p) = still w := by
  induction n generalizing w p with
  | zero => simp [settle]
  | succ n ih =>
    unfold settle
    split
    · rfl
    · split
      · simp
      · split
        · simp
        · split
          · dsimp only
            split
            · rw [ih]; rfl
            · rfl
          · simp

@[simp] theorem still_land (e : FlowEnv) (w : Warp) (pc : Dword) (m : Lanes) (j : Option Nat) (age : Nat) :
    still (land e w pc m j age) = still w := still_settle ..

theorem still_foldl {α : Type} (f : Warp → α → Warp) (hf : ∀ w a, still (f w a) = still w) (l : List α) (w : Warp) :
    still (l.foldl f w) = still w := by
  induction l generalizing w with
  | nil => rfl
  | cons a l ih => rw [List.foldl_cons, ih, hf]

@[simp] theorem still_endLevel (e : FlowEnv) (w : Warp) (n : Nat) : still (endLevel e w n) = still w := by
  unfold endLevel
  dsimp only
  split <;> simp [still_foldl _ (fun w m => still_modLoop w m _)]

@[simp] theorem still_nextLap (e : FlowEnv) (w : Warp) (n : Nat) : still (nextLap e w n) = still w := by
  unfold nextLap
  dsimp only
  rw [still_land, still_modLoop]
  rfl

@[simp] theorem still_loopTest (e : FlowEnv) (w : Warp) (n : Nat) : still (loopTest e w n) = still w := by
  unfold loopTest
  dsimp only
  split
  · split <;> simp
  · rfl

@[simp] theorem still_loopTests (e : FlowEnv) (w : Warp) : still (loopTests e w) = still w :=
  still_foldl _ (still_loopTest e) _ _

theorem still_backEdges (w : Warp) (pc : Dword) (l : List Nat) (m : Lanes) :
    still (l.foldl (fun (x : Warp × Lanes) n =>
      if (x.1.loop n).st = .live ∧ (x.1.loop n).le = pc then
        (x.1.modLoop n fun y => { y with wback := y.wback ||| (x.2 &&& loopIn (x.1.loop n)) },
          x.2 &&& ~~~ (x.2 &&& loopIn (x.1.loop n)))
      else x) (w, m)).1 = still w := by
  induction l generalizing w m with
  | nil => rfl
  | cons n l ih =>
    rw [List.foldl_cons]
    split
    · rw [ih]; rfl
    · rw [ih]

@[simp] theorem still_backEdge (w : Warp) (pc : Dword) (m : Lanes) : still (backEdge w pc m).1 = still w :=
  still_backEdges w pc _ m

@[simp] theorem still_goTo (e : FlowEnv) (w : Warp) (pc tgt : Dword) (m : Lanes) (j : Option Nat) (age : Nat) :
    still (goTo e w pc tgt m j age) = still w := by
  unfold goTo
  dsimp only
  rw [still_loopTests, still_land]
  exact (still_run _ _).trans (still_backEdge w pc m)

@[simp] theorem still_goOn (e : FlowEnv) (w : Warp) (pc : Dword) (len : Nat) (m : Lanes) (j : Option Nat) (age : Nat) :
    still (goOn e w pc len m j age) = still w := still_goTo ..

/-- Going on changes the flow of a warp only. -/
theorem onward_flowOnly (s : State) (w : Warp) : FlowOnly w (onward s w) := by
  rw [flowOnly_iff]; simp [onward]

end Sys2Proof.Machine.Warp
end

