-- ==== Sys2Proof/Laws/Operands.lean ====
section
/-! SUPPORT. What the shared shapes of the compute instructions do: going on, register results lane by lane, results in
flight. -/
namespace Sys2Proof.Machine

open Terms Tab Bits

-- lane sets

theorem getLsbD_lane (l i : Nat) (h : l < 32) : (lane l).getLsbD i = decide (i = l) := by
  unfold lane
  rw [BitVec.getLsbD_ofNat, Nat.testBit_two_pow]
  by_cases e : i = l
  · subst e; simp [h]
  · simp [e, Ne.symm e]

theorem getLsbD_laneFold (ls : List Nat) (h : ∀ l ∈ ls, l < 32) (m : Lanes) (i : Nat) :
    (ls.foldl (fun m l => m ||| lane l) m).getLsbD i = (m.getLsbD i || decide (i ∈ ls)) := by
  induction ls generalizing m with
  | nil => simp
  | cons l ls ih =>
    rw [List.foldl_cons, ih (fun x hx => h x (List.mem_cons_of_mem _ hx)), BitVec.getLsbD_or,
      getLsbD_lane l i (h l List.mem_cons_self), Bool.or_assoc]
    congr 1
    simp [List.mem_cons, Bool.decide_or]

theorem getLsbD_laneSet (ls : List Nat) (h : ∀ l ∈ ls, l < 32) (i : Nat) : (laneSet ls).getLsbD i = decide (i ∈ ls) := by
  simp [laneSet, getLsbD_laneFold ls h]

@[simp] theorem mem_lanes {m : Lanes} {l : Nat} : l ∈ lanes m ↔ l < 32 ∧ m.getLsbD l = true := by
  simp [lanes]

theorem lanes_nodup (m : Lanes) : (lanes m).Nodup := List.Pairwise.filter _ List.nodup_range

/-- The lanes that execute are those of the path whose guard holds (R51). -/
theorem getLsbD_execLanes (s : State) (h : Head) (l : Nat) : (s.execLanes h).getLsbD l = executes s h l := by
  unfold State.execLanes executes
  rw [getLsbD_laneSet]
  · rw [Bool.eq_iff_iff]
    simp only [decide_eq_true_eq, List.mem_filter, mem_lanes, Bool.and_eq_true]
  · intro x hx; simp at hx; exact hx.1.1

theorem mem_execLanes {s : State} {h : Head} {l : Nat} : l ∈ lanes (s.execLanes h) ↔ executes s h l = true := by
  rw [mem_lanes, getLsbD_execLanes]
  constructor
  · exact fun x => x.2
  · intro x; refine ⟨?_, x⟩; simp [executes] at x; exact x.1.1

-- going on

@[simp] theorem core_put_trap (s : State) (w : Warp) (u : UnitId) :
    ((put s w).core u).trap = (s.core u).trap ∧ ((put s w).core u).trapQ = (s.core u).trapQ := by
  unfold put State.setWarp
  by_cases e : unitNo u = unitNo s.cur.unit
  · have h : ∀ t : State, t.core u = t.core s.cur.unit := fun t => by simp only [State.core, e]
    rw [h, h, State.core_modCore]; exact ⟨rfl, rfl⟩
  · rw [State.core_modCore_ne _ _ e]; exact ⟨rfl, rfl⟩

theorem flowEnv_put (s : State) (w : Warp) (u : UnitId) (n : Nat) : (put s w).flowEnv u n = s.flowEnv u n := by
  unfold State.flowEnv
  have h : (put s w).held u n = s.held u n := by
    unfold State.held
    simp only [core_put_trap]
  have h2 : (put s w).lenAt u n = s.lenAt u n := by
    funext va
    unfold State.lenAt
    rw [fetchWord_congr (t := put s w) (s := s) rfl rfl rfl]
  rw [h, h2]

@[simp] theorem cur_put (s : State) (w : Warp) : (put s w).cur = s.cur := rfl

@[simp] theorem issuing_put (s : State) (w : Warp) : Issuing (put s w) w := s.warp_setWarp _ _ _

@[simp] theorem put_put (s : State) (w x : Warp) : put (put s w) x = put s x := s.setWarp_setWarp _ _ _ _

theorem put_self_cur {s : State} {w : Warp} (h : Issuing s w) : s.curW = w := s.curW_eq h

theorem modCur_put {s : State} {w : Warp} (h : Issuing s w) (f : Warp → Warp) : s.modCur f = put s (f w) := s.modCur_eq h f

theorem curP_eq {s : State} {w : Warp} (h : Issuing s w) : s.curP = (w.pathOf s.cur.path).getD default := by
  simp [State.curP, s.curW_eq h]

theorem curP_put {s : State} {w x : Warp} (h : Issuing s w) (e : x.paths = w.paths) : (put s x).curP = s.curP := by
  rw [curP_eq h, curP_eq (issuing_put s x)]
  simp [Warp.pathOf, e]

/-- An instruction's path goes on: only the issuing warp's flow changes. -/
theorem advance_eq {s : State} {w : Warp} (h : Issuing s w) : s.advance = put s (onward s w) := by
  unfold State.advance State.flow
  rw [s.modWarp_eq h]
  rfl

theorem onward_put {s : State} {w x y : Warp} (h : Issuing s w) (e : x.paths = w.paths) :
    onward (put s x) y = onward s y := by
  unfold onward
  rw [curP_put h e, cur_put, flowEnv_put]

/-- Going on after a change of the issuing warp that leaves its paths. -/
theorem advance_put {s : State} {w x : Warp} (h : Issuing s w) (e : x.paths = w.paths) :
    (put s x).advance = put s (onward s x) := by
  rw [advance_eq (issuing_put s x), put_put, onward_put h e]

/-- Where a path goes on to rests on the cores, the issue, memory, the dies and the slices. -/
theorem onward_congr {s t : State} {w : Warp} (hc : t.cores = s.cores) (hu : t.cur = s.cur) (hm : t.mem = s.mem)
    (hd : t.dies = s.dies) (hs : t.slices = s.slices) : onward t w = onward s w := by
  have h1 : t.curP = s.curP := by
    unfold State.curP State.curW State.warp State.core; rw [hc, hu]
  have h2 : ∀ u n, t.flowEnv u n = s.flowEnv u n := by
    intro u n
    have a : t.held u n = s.held u n := by unfold State.held State.core; rw [hc]
    have b : t.lenAt u n = s.lenAt u n := by funext va; unfold State.lenAt; rw [fetchWord_congr hm hd hs]
    unfold State.flowEnv
    rw [a, b]
  unfold onward
  rw [h1, hu, h2]

-- register results

/-- The results that are not kept back by an unchecked hazard (R59). -/
def kept (s : State) (rs : List RegVal) : List RegVal :=
  rs.filter fun r => !s.keptBack r.file r.reg r.lane

theorem hw_of_keptBack {s : State} {f : RFile} {r l : Nat} (h : s.keptBack f r l = true) : (f, r, l) ∈ s.cur.hw := by
  unfold State.keptBack at h
  simp only [Bool.and_eq_true] at h
  simpa using h.1

theorem paths_applyAll (w : Warp) (rs : List RegVal) : (w.applyAll rs).paths = w.paths := by
  unfold Warp.applyAll
  induction rs generalizing w with
  | nil => rfl
  | cons r rs ih =>
    rw [List.foldl_cons, ih]
    unfold Warp.apply Warp.setP
    split
    · rfl
    · rfl
    · split <;> rfl
    all_goals rfl

theorem write_advance {s : State} {w : Warp} (h : Issuing s w) (rs : List RegVal) :
    (s.write rs).advance = put s (onward s (w.applyAll (kept s rs))) := by
  unfold State.write
  rw [modCur_put h]
  exact advance_put h (paths_applyAll w _)

theorem get_foldl_set {α β : Type} [Inhabited β] [DecidableEq β] (key : α → Nat) (val : α → β) (rs : List α) (t : Tab β)
    (k : Nat) : (rs.foldl (fun t r => t.set (key r) (val r)) t).get k =
      (((rs.filter fun r => key r == k).getLast?).map val).getD (t.get k) := by
  induction rs generalizing t with
  | nil => rfl
  | cons r rs ih =>
    rw [List.foldl_cons, ih]
    by_cases e : key r = k
    · subst e
      rw [List.filter_cons_of_pos (by simp), List.getLast?_cons, Tab.get_set_same]
      cases (rs.filter fun x => key x == key r).getLast? <;> rfl
    · rw [List.filter_cons_of_neg (by simpa using e), Tab.get_set_ne _ _ (Ne.symm e)]

theorem applyAll_v (w : Warp) (rs : List RegVal) (h : ∀ r ∈ rs, r.file = .v) :
    w.applyAll rs = { w with v := rs.foldl (fun t r => t.set (256 * r.lane + r.reg) (r.val.setWidth 32)) w.v } := by
  unfold Warp.applyAll
  induction rs generalizing w with
  | nil => rfl
  | cons r rs ih =>
    rw [List.foldl_cons, List.foldl_cons, ih _ (fun x hx => h x (List.mem_cons_of_mem _ hx))]
    have e := h r List.mem_cons_self
    simp only [Warp.apply, e]

/-- What is in a list of results, lane by lane, under a key that only one lane's results bear. -/
theorem filter_flatMap_lane {α : Type} (ls : List Nat) (hn : ls.Nodup) (f : Nat → List α) (q : α → Bool) (l : Nat)
    (h : ∀ j ∈ ls, j ≠ l → (f j).filter q = []) :
    (ls.flatMap f).filter q = if l ∈ ls then (f l).filter q else [] := by
  induction ls with
  | nil => rfl
  | cons j ls ih =>
    rw [List.flatMap_cons, List.filter_append, ih (List.nodup_cons.1 hn).2 (fun x hx => h x (List.mem_cons_of_mem _ hx))]
    by_cases e : j = l
    · subst e
      simp [(List.nodup_cons.1 hn).1]
    · rw [h j List.mem_cons_self e]
      simp [Ne.symm e]

theorem phys_lt (w : Warp) (x : Nat) : w.phys x < 256 := Nat.mod_lt _ (by decide)

/-- The v registers after results of one lane each, as `res` says for each lane. -/
theorem vregs_applyAll {s : State} {w : Warp} (m : List Nat) (hn : m.Nodup) (f : Nat → List RegVal)
    (hf : ∀ l, ∀ r ∈ f l, r.file = .v ∧ r.lane = l ∧ r.reg < 256) (res : Nat → Nat → Option Word)
    (hres : ∀ l r, res l r = if l ∈ m then (((f l).filter fun x => x.reg == r).getLast?).map fun x => x.val.setWidth 32
      else none) :
    ∃ w₁, w.applyAll (kept s (m.flatMap f)) = w₁ ∧ w₁ = { w with v := w₁.v } ∧ VRegs s w w₁ res := by
  refine ⟨_, rfl, ?_, ?_⟩
  · rw [applyAll_v]
    intro r hr
    obtain ⟨l, -, hr⟩ := List.mem_flatMap.1 (List.mem_filter.1 hr).1
    exact (hf l r hr).1
  · intro k
    rw [applyAll_v _ _ (by
      intro r hr
      obtain ⟨l, -, hr⟩ := List.mem_flatMap.1 (List.mem_filter.1 hr).1
      exact (hf l r hr).1)]
    dsimp only
    rw [get_foldl_set (fun r : RegVal => 256 * r.lane + r.reg) (fun r => r.val.setWidth 32), kept, List.filter_filter]
    have hk : ∀ j, ∀ r ∈ f j, (256 * r.lane + r.reg == k) = (decide (j = k / 256) && (r.reg == k % 256)) := by
      intro j r hr
      obtain ⟨-, e, hlt⟩ := hf j r hr
      rw [e, Bool.eq_iff_iff]
      simp only [beq_iff_eq, Bool.and_eq_true, decide_eq_true_eq]
      omega
    rw [filter_flatMap_lane m hn f _ (k / 256) (by
      intro j hj hne
      rw [List.filter_eq_nil_iff]
      intro r hr
      rw [hk j r hr]
      simp [hne])]
    rw [hres]
    by_cases hm : k / 256 ∈ m
    · rw [if_pos hm, if_pos hm]
      have e1 : (f (k / 256)).filter (fun r => (256 * r.lane + r.reg == k) &&
          !s.keptBack r.file r.reg r.lane) =
          ((f (k / 256)).filter fun r => r.reg == k % 256).filter fun _ => !s.keptBack .v (k % 256) (k / 256) := by
        rw [List.filter_filter]
        apply List.filter_congr
        intro r hr
        rw [hk _ r hr]
        obtain ⟨e, e2, -⟩ := hf _ r hr
        rw [e, e2]
        by_cases e3 : r.reg = k % 256
        · simp [e3]
        · simp [beq_eq_false_iff_ne.2 e3]
      rw [e1]
      cases hc : s.keptBack .v (k % 256) (k / 256)
      · simp only [Bool.not_false, show ∀ x : List RegVal, x.filter (fun _ => true) = x from fun x => by simp]
        cases ((f (k / 256)).filter fun r => r.reg == k % 256).getLast? with
        | none => rfl
        | some r => exact Or.inl rfl
      · simp only [Bool.not_true, show ∀ x : List RegVal, x.filter (fun _ => false) = [] from fun x => by simp, List.getLast?_nil, Option.map_none, Option.getD_none]
        cases ((f (k / 256)).filter fun r => r.reg == k % 256).getLast? with
        | none => trivial
        | some r => exact Or.inr ⟨hw_of_keptBack hc, rfl⟩
    · rw [if_neg hm, if_neg hm]; rfl

theorem lanes_execLanes_nodup (s : State) (h : Head) : (lanes (s.execLanes h)).Nodup := lanes_nodup _

/-- What the per-lane shapes do with v results. -/
theorem perLane_v {s : State} {w : Warp} (hw : Issuing s w) (h : Head) (f : Nat → List RegVal)
    (hf : ∀ l, ∀ r ∈ f l, r.file = .v ∧ r.lane = l ∧ r.reg < 256) (res : Nat → Nat → Option Word)
    (hres : ∀ l r, res l r = if executes s h l then (((f l).filter fun x => x.reg == r).getLast?).map fun x =>
      x.val.setWidth 32 else none) :
    ∃ w₁, s.perLane h f = put s (onward s w₁) ∧ FlowOnly w₁ (onward s w₁) ∧ w₁ = { w with v := w₁.v } ∧ VRegs s w w₁ res := by
  obtain ⟨w₁, e, e2, e3⟩ := vregs_applyAll (s := s) (w := w) (lanes (s.execLanes h)) (lanes_nodup _) f hf res (by
    intro l r; rw [hres]; simp only [mem_execLanes])
  refine ⟨w₁, ?_, Warp.onward_flowOnly s w₁, e2, e3⟩
  unfold State.perLane
  rw [write_advance hw, e]

theorem vres_eq {s : State} {w : Warp} (hw : Issuing s w) (l d : Nat) (x : Word) :
    s.vres l d x = ⟨.v, w.phys d, l, x.setWidth 64⟩ := by
  simp [State.vres, s.curW_eq hw]

theorem setWidth_setWidth (x : Word) : (x.setWidth 64).setWidth 32 = x := by
  simp

/-- One 32-bit result for each executing lane. -/
theorem lane32_spec {s : State} {w : Warp} (hw : Issuing s w) (h : Head) (d : VReg) (f : Nat → Word) :
    ∃ w₁, s.lane32 h d f = put s (onward s w₁) ∧ FlowOnly w₁ (onward s w₁) ∧ w₁ = { w with v := w₁.v } ∧
      VRegs s w w₁ (one s h w d f) := by
  apply perLane_v hw
  · intro l r hr
    rw [vres_eq hw, List.mem_singleton] at hr
    subst hr
    exact ⟨rfl, rfl, phys_lt _ _⟩
  · intro l r
    rw [vres_eq hw]
    unfold one
    by_cases e : executes s h l
    · by_cases e2 : r = w.phys d.toNat
      · subst e2; simp [e]
      · simp [e, e2, Ne.symm e2]
    · simp [e]

/-- A pair for each executing lane. -/
theorem lane64_spec {s : State} {w : Warp} (hw : Issuing s w) (h : Head) (d : VReg) (f : Nat → Dword) :
    ∃ w₁, s.laneW h d true f = put s (onward s w₁) ∧ FlowOnly w₁ (onward s w₁) ∧ w₁ = { w with v := w₁.v } ∧
      VRegs s w w₁ (two s h w d f) := by
  apply perLane_v hw
  · intro l r hr
    simp only [State.resW, State.vres2, if_true, vres_eq hw, List.mem_cons, List.not_mem_nil, or_false] at hr
    rcases hr with rfl | rfl <;> exact ⟨rfl, rfl, phys_lt _ _⟩
  · intro l r
    simp only [State.resW, State.vres2, if_true, vres_eq hw]
    unfold two
    by_cases e : executes s h l
    · by_cases e1 : r = w.phys (d.toNat + 1)
      · subst e1
        by_cases e2 : w.phys d.toNat = w.phys (d.toNat + 1) <;> simp [e, e2]
      · by_cases e2 : r = w.phys d.toNat
        · subst e2
          simp [e, e1, Ne.symm e1]
        · simp [e, e1, e2, Ne.symm e1, Ne.symm e2]
    · simp [e]

theorem laneW_spec {s : State} {w : Warp} (hw : Issuing s w) (h : Head) (d : VReg) (wide : Bool) (f : Nat → Dword) :
    ∃ w₁, s.laneW h d wide f = put s (onward s w₁) ∧ FlowOnly w₁ (onward s w₁) ∧ w₁ = { w with v := w₁.v } ∧
      VRegs s w w₁ (if wide then two s h w d f else one s h w d fun l => (f l).setWidth 32) := by
  cases wide
  · exact lane32_spec hw h d _
  · exact lane64_spec hw h d f

-- predicates

theorem getP_setP (w : Warp) (l p q : Nat) (b : Bool) (hq : q < 7) (hl : l < 32) (j : Nat) :
    ((w.setP l p b).getP q).getLsbD j = if p = q ∧ j = l then b else (w.getP q).getLsbD j := by
  have h7 : q ≠ 7 := by omega
  unfold Warp.setP
  by_cases hp : p = 7
  · subst hp
    simp [Ne.symm h7]
  · simp only [if_neg hp, Warp.getP, if_neg h7, Tab.get_modify]
    by_cases e : q = p
    · subst e
      cases b
      · simp only [if_true, Bool.false_eq_true, if_false, BitVec.getLsbD_and, BitVec.getLsbD_not, getLsbD_lane l j hl]
        by_cases e2 : j = l
        · simp [e2]
        · by_cases e3 : j < 32
          · simp [e2, e3]
          · simp [e2, BitVec.getLsbD_of_ge _ j (Nat.le_of_not_lt e3)]
      · simp only [if_true, BitVec.getLsbD_or, getLsbD_lane l j hl]
        by_cases e2 : j = l <;> simp [e2]
    · simp [e, Ne.symm e]

theorem applyAll_p (w : Warp) (rs : List RegVal) (h : ∀ r ∈ rs, r.file = .p ∧ r.lane < 32) :
    (∃ t, w.applyAll rs = { w with p := t }) ∧ ∀ l p, p < 7 → (w.applyAll rs).pbit l p =
      (((rs.filter fun r => r.reg == p && r.lane == l).getLast?).map fun r => r.val.getLsbD 0).getD (w.pbit l p) := by
  unfold Warp.applyAll
  induction rs generalizing w with
  | nil => exact ⟨⟨w.p, rfl⟩, fun _ _ _ => rfl⟩
  | cons r rs ih =>
    obtain ⟨hf, hr⟩ := h r List.mem_cons_self
    obtain ⟨⟨t, e⟩, e2⟩ := ih (w.apply r) (fun x hx => h x (List.mem_cons_of_mem _ hx))
    have hs : w.apply r = w.setP r.lane r.reg (r.val.getLsbD 0) := by simp only [Warp.apply, hf]
    have hs2 : ∃ u, w.setP r.lane r.reg (r.val.getLsbD 0) = { w with p := u } := by
      unfold Warp.setP; split
      · exact ⟨w.p, rfl⟩
      · exact ⟨_, rfl⟩
    refine ⟨?_, ?_⟩
    · obtain ⟨u, hu⟩ := hs2
      refine ⟨t, ?_⟩
      rw [List.foldl_cons, e, hs, hu]
    · intro l p hp
      rw [List.foldl_cons, e2 l p hp]
      have e3 : (w.apply r).pbit l p = if r.reg = p ∧ l = r.lane then r.val.getLsbD 0 else w.pbit l p := by
        rw [hs]; exact getP_setP w r.lane r.reg p _ hp hr l
      by_cases c : r.reg = p ∧ l = r.lane
      · obtain ⟨c1, c2⟩ := c
        subst c1; subst c2
        rw [List.filter_cons_of_pos (by simp), List.getLast?_cons, e3, if_pos ⟨rfl, rfl⟩]
        cases (rs.filter fun x => x.reg == r.reg && x.lane == r.lane).getLast? <;> rfl
      · rw [List.filter_cons_of_neg (by simp only [Bool.and_eq_true, beq_iff_eq]; exact fun x => c ⟨x.1, x.2.symm⟩),
          e3, if_neg c]

/-- One predicate result for each executing lane. -/
theorem perLane_p {s : State} {w : Warp} (hw : Issuing s w) (h : Head) (f : Nat → List RegVal)
    (hf : ∀ l, ∀ r ∈ f l, r.file = .p ∧ r.lane = l) (res : Nat → Nat → Option Bool)
    (hres : ∀ l < 32, ∀ p < 7, res l p = if executes s h l then (((f l).filter fun x => x.reg == p).getLast?).map fun x =>
      x.val.getLsbD 0 else none) :
    ∃ w₁, s.perLane h f = put s (onward s w₁) ∧ FlowOnly w₁ (onward s w₁) ∧ w₁ = { w with p := w₁.p } ∧ PRegs s w w₁ res := by
  let rs := kept s ((lanes (s.execLanes h)).flatMap f)
  have hall : ∀ r ∈ rs, r.file = .p ∧ r.lane < 32 := by
    intro r hr
    obtain ⟨l, hl, hr⟩ := List.mem_flatMap.1 (List.mem_filter.1 hr).1
    obtain ⟨e1, e2⟩ := hf l r hr
    rw [mem_lanes] at hl
    exact ⟨e1, e2 ▸ hl.1⟩
  obtain ⟨⟨t, e⟩, e2⟩ := applyAll_p w rs hall
  refine ⟨w.applyAll rs, ?_, Warp.onward_flowOnly s _, ?_, ?_⟩
  · unfold State.perLane
    rw [write_advance hw]
  · rw [e]
  · intro l hl p hp
    rw [e2 l p hp, hres l hl p hp]
    rw [show rs = kept s ((lanes (s.execLanes h)).flatMap f) from rfl, kept, List.filter_filter,
      filter_flatMap_lane _ (lanes_nodup _) f _ l (by
        intro j hj hne
        rw [List.filter_eq_nil_iff]
        intro r hr
        rw [(hf j r hr).2]
        simp [hne])]
    by_cases hm : executes s h l
    · rw [if_pos hm, if_pos (mem_execLanes.2 hm)]
      have e1 : (f l).filter (fun r => (r.reg == p && r.lane == l) &&
          !s.keptBack r.file r.reg r.lane) = ((f l).filter fun r => r.reg == p).filter fun _ => !s.keptBack .p p l := by
        rw [List.filter_filter]
        apply List.filter_congr
        intro r hr
        obtain ⟨e, e2⟩ := hf _ r hr
        rw [e, e2]
        by_cases e3 : r.reg = p
        · simp [e3]
        · simp [beq_eq_false_iff_ne.2 e3]
      rw [e1]
      cases hc : s.keptBack .p p l
      · simp only [Bool.not_false, show ∀ x : List RegVal, x.filter (fun _ => true) = x from fun x => by simp]
        cases ((f l).filter fun r => r.reg == p).getLast? with
        | none => rfl
        | some r => exact Or.inl rfl
      · simp only [Bool.not_true, show ∀ x : List RegVal, x.filter (fun _ => false) = [] from fun x => by simp,
          List.getLast?_nil, Option.map_none, Option.getD_none]
        cases ((f l).filter fun r => r.reg == p).getLast? with
        | none => trivial
        | some r => exact Or.inr ⟨hw_of_keptBack hc, rfl⟩
    · rw [if_neg hm, if_neg (fun x => hm (mem_execLanes.1 x))]; rfl

theorem laneP_spec {s : State} {w : Warp} (hw : Issuing s w) (h : Head) (d : PReg) (f : Nat → Bool) :
    ∃ w₁, s.laneP h d f = put s (onward s w₁) ∧ FlowOnly w₁ (onward s w₁) ∧ w₁ = { w with p := w₁.p } ∧
      PRegs s w w₁ fun l p => if executes s h l ∧ p = d.toNat then some (f l) else none := by
  apply perLane_p hw
  · intro l r hr
    rw [List.mem_singleton] at hr
    subst hr
    exact ⟨rfl, rfl⟩
  · intro l hl p hp
    by_cases e : executes s h l
    · by_cases e2 : p = d.toNat
      · subst e2
        cases f l <;> simp [e, State.pres, ofBool]
      · simp [e, e2, State.pres, Ne.symm e2]
    · simp [e]

-- uniform results

theorem firstLane_eq_none {s : State} {h : Head} : s.firstLane h = none ↔ ¬ ∃ l, executes s h l = true := by
  unfold State.firstLane lowest
  rw [List.find?_eq_none]
  constructor
  · rintro a ⟨l, hl⟩
    have := mem_execLanes.2 hl
    rw [mem_lanes] at this
    exact a l (List.mem_range.2 this.1) this.2
  · intro a l hl c
    exact a ⟨l, by rw [← getLsbD_execLanes]; exact c⟩

/-- A uniform write of one k register. -/
theorem uniform_k_spec {s : State} {w : Warp} (hw : Issuing s w) (h : Head) (d : KReg) (f : Nat → Dword) :
    ∃ w₁, s.uniform h (fun l => [State.kres d.toNat (f l)]) = put s (onward s w₁) ∧ FlowOnly w₁ (onward s w₁) ∧
      w₁ = { w with k := w₁.k } ∧ (∀ k, k ≠ d.toNat → w₁.k.get k = w.k.get k) ∧
      ((∃ l, executes s h l) → Took s .k d.toNat 0 (w.k.get d.toNat) (f ((s.firstLane h).getD 0)) (w₁.k.get d.toNat)) ∧
      ((¬ ∃ l, executes s h l) → w₁ = w) := by
  unfold State.uniform
  cases e : s.firstLane h with
  | none =>
    have hn := firstLane_eq_none.1 e
    exact ⟨w, advance_eq hw, Warp.onward_flowOnly s w, rfl, fun _ _ => rfl, fun x => absurd x hn, fun _ => rfl⟩
  | some l =>
    have hp : ∃ l, executes s h l = true := by
      refine Classical.byContradiction fun c => ?_
      rw [firstLane_eq_none.2 c] at e
      cases e
    refine ⟨w.applyAll (kept s [State.kres d.toNat (f l)]), write_advance hw _, Warp.onward_flowOnly s _, ?_⟩
    unfold kept
    cases hc : s.keptBack .k d.toNat 0
    · have e2 : ([State.kres d.toNat (f l)].filter fun r => !s.keptBack r.file r.reg r.lane) = [State.kres d.toNat (f l)] := by
        rw [List.filter_cons_of_pos (by simp [State.kres, hc])]; rfl
      rw [e2]
      refine ⟨rfl, fun k hk => ?_, fun _ => Or.inl ?_, fun x => absurd hp x⟩
      · exact Tab.get_set_ne _ _ hk
      · exact Tab.get_set_same _ _ _
    · have e2 : ([State.kres d.toNat (f l)].filter fun r => !s.keptBack r.file r.reg r.lane) = [] := by
        rw [List.filter_cons_of_neg (by simp [State.kres, hc])]; rfl
      rw [e2]
      exact ⟨rfl, fun _ _ => rfl, fun _ => Or.inr ⟨hw_of_keptBack hc, rfl⟩, fun x => absurd hp x⟩

-- results in flight

theorem paths_tokInc (w : Warp) (t : Option Nat) : (w.tokInc t).paths = w.paths := by
  unfold Warp.tokInc; split <;> rfl

theorem curP_nextId (s : State) (n : Nat) : ({ s with nextId := n } : State).curP = s.curP := rfl

/-- An instruction enters flight and its path goes on. -/
theorem addPend_advance {s : State} {w : Warp} (hw : Issuing s w) (h : Head) (m : Lanes) (mem : Bool) (hold : Nat)
    (res : List RegVal) : ∃ w₁, (s.addPend h m mem hold res).advance =
      { put s (onward s w₁) with nextId := s.nextId + 1 } ∧ FlowOnly w₁ (onward s w₁) ∧
      Carries h w w₁ (entry s h m mem hold res) := by
  refine ⟨{ w.tokInc (State.tokOf h) with pend := w.pend ++ [entry s h m mem hold res] }, ?_, Warp.onward_flowOnly s _, ?_⟩
  · have hw2 : Issuing ({ s with nextId := s.nextId + 1 } : State) w := hw
    have e := advance_put (x := { w.tokInc (State.tokOf h) with pend := w.pend ++ [entry s h m mem hold res] }) hw2
      (paths_tokInc w _)
    rw [onward_congr (t := { s with nextId := s.nextId + 1 }) (s := s) rfl rfl rfl rfl rfl] at e
    rw [← modCur_put hw2 fun w => { w.tokInc (State.tokOf h) with pend := w.pend ++ [entry s h m mem hold res] }] at e
    exact e
  · unfold Carries Warp.tokInc
    cases State.tokOf h with
    | none => exact ⟨rfl, fun j => by simp⟩
    | some i =>
      refine ⟨rfl, fun j => ?_⟩
      simp only [Tab.get_modify, Option.some.injEq]
      by_cases e : j = i
      · subst e; simp
      · simp [e, Ne.symm e]

theorem perLaneVar_spec {s : State} {w : Warp} (hw : Issuing s w) (h : Head) (f : Nat → List RegVal) :
    if s.execLanes h = 0 then s.perLaneVar h f = put s (onward s w) ∧ FlowOnly w (onward s w)
    else ∃ w₁, s.perLaneVar h f = { put s (onward s w₁) with nextId := s.nextId + 1 } ∧ FlowOnly w₁ (onward s w₁) ∧
      Carries h w w₁ (entry s h (s.execLanes h) false 0 ((lanes (s.execLanes h)).flatMap f)) := by
  unfold State.perLaneVar State.inFlight
  split
  · exact ⟨advance_eq hw, Warp.onward_flowOnly s w⟩
  · exact addPend_advance hw ..

end Sys2Proof.Machine
end

