-- ==== Sys2Proof/Laws/Access.lean ====
section
/-! SUPPORT. What the shared shapes of the memory forms do: the gate, the accesses of lanes that reach, no strikes. -/
namespace Sys2Proof.Machine

open Terms Bits

theorem foldl_id {α β : Type} (f : β → α → β) (l : List α) (b : β) (h : ∀ a ∈ l, f b a = b) : l.foldl f b = b := by
  induction l with
  | nil => rfl
  | cons a l ih =>
    rw [List.foldl_cons, h a List.mem_cons_self]
    exact ih fun x hx => h x (List.mem_cons_of_mem _ hx)

theorem laneSet_eq_zero {ls : List Nat} (h : ls = []) : laneSet ls = 0 := by rw [h]; rfl

theorem laneSet_lanes (m : Lanes) : laneSet (lanes m) = m := by
  apply BitVec.eq_of_getLsbD_eq
  intro i hi
  rw [getLsbD_laneSet _ (fun l hl => (mem_lanes.1 hl).1), Bool.eq_iff_iff, decide_eq_true_eq, mem_lanes]
  exact ⟨fun x => x.2, fun x => ⟨hi, x⟩⟩

/-- Where no executing lane carries a resolved hypothesis the gate lets all through and changes nothing (R166). -/
theorem gate_settled {s : State} {w : Warp} (hw : Issuing s w) (h : Head) (hs : Settled s w h) :
    s.gate h = (s.execLanes h, s) := by
  have hw2 : s.warp s.cur.unit s.cur.slot = some w := hw
  have h1 : ∀ l ∈ lanes (s.execLanes h), s.rewriteLane s.cur.unit s.cur.slot l = s := by
    intro l hl
    unfold State.rewriteLane
    rw [hw2]
    rcases hs l (mem_execLanes.1 hl) with e | e
    · simp [e]
    · simp [e, HEnt.opened, HEnt.confirmed]
  have h2 : (lanes (s.execLanes h)).filter (fun l => s.orphan s.cur.unit s.cur.slot l) = [] := by
    rw [List.filter_eq_nil_iff]
    intro l hl
    unfold State.orphan
    rw [hw2]
    rcases hs l (mem_execLanes.1 hl) with e | e
    · simp [e]
    · simp [e, HEnt.opened, HEnt.refuted]
  unfold State.gate
  simp only [foldl_id (fun (t : State) l => t.rewriteLane s.cur.unit s.cur.slot l) (lanes (s.execLanes h)) s h1,
    laneSet_eq_zero h2, if_true]

@[simp] theorem rankStrikes_nil : State.rankStrikes [] = [] := by decide

@[simp] theorem raise_nil (s : State) : s.raise [] = s := by
  unfold State.raise; simp

theorem oks_map_ok {α β γ : Type} (l : List γ) (f : γ → Except α β) (g : γ → β) (h : ∀ x ∈ l, f x = .ok (g x)) :
    State.oks (l.map f) = l.map g ∧ State.errs (l.map f) = [] := by
  induction l with
  | nil => exact ⟨rfl, rfl⟩
  | cons a l ih =>
    obtain ⟨e1, e2⟩ := ih fun x hx => h x (List.mem_cons_of_mem _ hx)
    unfold State.oks State.errs at *
    simp only [List.map_cons, h a List.mem_cons_self, List.filterMap_cons, e1, e2, and_self]

/-- The accesses of lanes that all reach memory. -/
theorem globals_reach {s : State} (m : Lanes) (need : Need) (al : Nat) (ea : Nat → Nat) (x : Nat → Xlat)
    (h : ∀ l ∈ lanes m, Reaches s need al (ea l) (x l)) :
    s.globals .lsu m need al ea = ((lanes m).map fun l => ⟨l, ea l, (x l).pa, (x l).nocache, (x l).repl⟩, s) := by
  obtain ⟨e1, e2⟩ := oks_map_ok (lanes m) (fun l => s.accOf .lsu need al l (ea l))
    (fun l => (⟨l, ea l, (x l).pa, (x l).nocache, (x l).repl⟩ : State.Acc)) (by
      intro l hl
      obtain ⟨a, b, c⟩ := h l hl
      unfold State.accOf
      simp [a, b, c])
  unfold State.globals
  simp only [e1, e2]
  simp [State.countLanes]

theorem accLanes_reach (m : Lanes) (f : Nat → State.Acc) (hf : ∀ l, (f l).lane = l) :
    State.accLanes ((lanes m).map f) = m := by
  unfold State.accLanes
  rw [List.map_map, show ((fun a : State.Acc => a.lane) ∘ f) = id from funext hf, List.map_id, laneSet_lanes]

end Sys2Proof.Machine
end

