-- ==== Sys2Proof/Tests/Slice0.lean ====
section
/-! SUPPORT. Tests of the decoder, of the checks of WellFormed and of single instructions, their expected results taken from
the examples and tables of the spec. -/
namespace Sys2Proof.Tests

set_option Elab.async false

open Sys2Proof Sys2Proof.Machine

-- decoding: words of each family, written out from the encoding tables

/-- R50, R99: OP 0x20, STL 3, PG 3, D 4, A 5, B 6. -/
theorem test_decode_iadd : decodeTableWord 64 0x2030030202830000 =
    some (.iadd ⟨3, 0, 0, 3, false⟩ 4 5 (.v 6) false false false) := by decide
/-- R105's example. -/
theorem test_decode_ilv : decodeTableWord 64 0x3930070500810181 =
    some (.ilv ⟨3, 0, 0, 7, false⟩ 10 1 (.v 2) 3 true) := by decide
/-- R54, R62: BSEL 2 takes B from the literal word. -/
theorem test_decode_literal : decodeTableWord 128 (2 * 2 ^ 64 + 0x3A00070605000041) =
    some (.dlv ⟨0, 0, 0, 7, false⟩ 12 10 (.lit 2) true) := by decide
/-- R116, R115: CVT.e4m3.f32, type codes 5 and 0. -/
theorem test_decode_cvt : decodeTableWord 64 0x4100070100828000 =
    some (.cvt ⟨0, 0, 0, 7, false⟩ 2 1 .e4m3 .f32 .rne false) := by decide
/-- R127: SCAN.fadd.excl v5, v1, g2: op 8, EXCL. -/
theorem test_decode_scan : decodeTableWord 64 0x4A00070280810018 =
    some (.scan ⟨0, 0, 0, 7, false⟩ .fadd 5 1 2 true) := by decide
/-- R52, R132: BRA forward two words, join at four, guard not p2. -/
theorem test_decode_bra : decodeTableWord 64 0x0100028000100200 =
    some (.bra ⟨0, 0, 0, 2, true⟩ 2 4 0) := by decide
/-- R146's example: LROT 0, v8, 8, 2. -/
theorem test_decode_lrot : decodeTableWord 64 0x0B00070000040808 = some (.lrot ⟨0, 0, 0, 7, false⟩ 0 false 2 8 8) := by decide
/-- R146's example: LSET 0, 3, last. -/
theorem test_decode_lset : decodeTableWord 64 0x0A00070000001805 =
    some (.lset ⟨0, 0, 0, 7, false⟩ 0 false (.imm 3) 5) := by decide
/-- R162: LD v8, gl[v4:5 + 16] under token 2. -/
theorem test_decode_ld : decodeTableWord 64 0x70001F0402080800 =
    some (.ld ⟨0, 0, 3, 7, false⟩ 8 ⟨.gl, 4, .short 16⟩ .b32 ⟨.relaxed, .warp, false, false, false⟩) := by decide
/-- R174's example: ATOM.cas v6, gl[v4:5 + 16], v8, v9. -/
theorem test_decode_atom : decodeTableWord 128 (0x0990000000000010 * 2 ^ 64 + 0x7600170302040801) =
    some (.atom ⟨0, 0, 2, 7, false⟩ 6 8 9 .cas ⟨.gl, 4, .lit 16⟩ .b32 ⟨.relaxed, .warp, false, false, false⟩) := by decide
/-- R181: HNEW.v v5, v1. -/
theorem test_decode_hnew : decodeTableWord 64 0x7F00930280800000 =
    some (.hnew ⟨0, 2, 2, 3, false⟩ (.v 5) (.v 1)) := by decide
/-- R190: MMA t3, v8, k4. -/
theorem test_decode_mma : decodeTableWord 64 0x9100170184020000 =
    some (.mma ⟨0, 0, 2, 7, false⟩ ⟨.row, 3⟩ 8 4 0 false false) := by decide
/-- R200: EMM with SA 4, SB 5, SD 6, FB 7. -/
theorem test_decode_emm : decodeTableWord 64 0x9900030008AC3800 =
    some (.emm ⟨0, 0, 0, 3, false⟩ ⟨0, 0, 4, 5, 6, 7, 0⟩ false false) := by decide
/-- R220's example: ECPY.mc sq2, sq1, k6, 5, at=k8. -/
theorem test_decode_ecpy : decodeTableWord 64 0x9C00270342040115 =
    some (.ecpy ⟨0, 0, 4, 7, false⟩ ⟨6, 2, 1, 0, 2, 0, 8⟩ 5 true) := by decide
/-- R297's example: TRACE.any v40, v16, k6. -/
theorem test_decode_trace : decodeTableWord 64 0xB0000F1408030004 =
    some (.trace ⟨0, 0, 1, 7, false⟩ 40 16 6 .trav true) := by decide
/-- R293's example: XFMA.nc m44, m35, m12, m32. -/
theorem test_decode_micro : decodeMicro 0x2B23320040000000 = some (.xfma ⟨44, 35, 12, 32, false, true, false, 0⟩) := by decide
/-- R98: an opcode that the map leaves blank is no instruction. -/
theorem test_decode_reserved : decodeTableWord 64 0xFF00070000000000 = none := by decide

-- WellFormed refuses a term for each of its checks

def h0 : Head := ⟨0, 0, 0, 7, false⟩
def plain : MemFlags := ⟨.relaxed, .warp, false, false, false⟩
def e0 : EFields := ⟨0, 0, 0, 0, 0, 0, 0⟩
def gl4 : MemRef := ⟨.gl, 4, .short 0⟩

/-- Each term breaks one check, and the check names its cause. -/
def refusedAs (l : List (Instr × Nat)) : Bool := l.all fun p => p.1.causes.eraseDups == [p.2]

/-- R52, R98, R129, R142, R151, R158: control forms. -/
theorem test_ill_formed_control : refusedAs [
    (.bra h0 2 0 0, Cause.rsvbra), (.bra h0 2 4 3, Cause.rsvfld), (.jmp h0 2 3, Cause.rsvfld),
    (.nop ⟨0, 0, 7, 7, false⟩ none, Cause.rsvsbt), (.brx h0 3 4, Cause.oddreg), (.call h0 2 false 0x400000, Cause.rsvimm),
    (.call h0 3 true 0x400000, Cause.oddreg), (.lset h0 0 false (.imm 3) 0, Cause.rsvimm),
    (.lset h0 0 true (.imm 0xFFFFFFF9) 5, Cause.rsvimm), (.lset h0 0 false (.imm 0x1000) 5, Cause.rsvimm),
    (.lset h0 0 true (.k 3) 5, Cause.rsvlit), (.spawn h0 250 true 7 0, Cause.rsvimm),
    (.spawn h0 0 false 7 0x40000, Cause.rsvimm), (.baton h0 1 250 true 7 0, Cause.rsvimm),
    (.baton h0 1 0 false 7 0x40000, Cause.rsvimm), (.task h0 2 63 false 0, Cause.rsvreg),
    (.task h0 2 4 false 0x400000, Cause.rsvimm), (.fwait h0 (.v 1) (.k 2), Cause.rsvfn),
    (.cancel h0 (.k 1) (.v 2), Cause.rsvfn), (.regx h0 1 false 32, Cause.rsvimm), (.regs h0 false 0, Cause.rsvimm),
    (.srd h0 (.v 1) false 0x006, Cause.rsvspec), (.srd h0 (.k 1) false 0x000, Cause.rsvspec),
    (.swr h0 (.k 1) false 0x180, Cause.rsvspec), (.srd h0 (.v 1) false 0x005, Cause.oddreg)] := by decide

/-- R99, R105 to R108, R110, R115 to R118, R126: compute forms. -/
theorem test_ill_formed_compute : refusedAs [
    (.iadd h0 1 2 (.v 3) false false true, Cause.rsvfn), (.isub h0 1 2 (.v 3) false false true, Cause.rsvfn),
    (.imul h0 1 2 (.v 3) false true, Cause.rsvfn), (.imad h0 1 2 (.v 3) 4 false true, Cause.rsvfn),
    (.iadd h0 1 2 (.v 4) true false false, Cause.oddreg), (.imadw h0 2 1 (.v 4) 3 false false, Cause.oddreg),
    (.ilv h0 1 2 (.v 3) 4 false, Cause.rsvfld), (.icmp h0 .ord 1 2 (.v 3) 7, Cause.rsvcode),
    (.movi h0 1 false (.short 0x400000), Cause.rsvimm), (.movk h0 1 .imm (.short 0x400000), Cause.rsvimm),
    (.pack h0 1 8 .f32 .f32 .rne false, Cause.rsvtype), (.pack h0 1 254 .e4m3 .f32 .rne false, Cause.regrange),
    (.unpk h0 1 8 .f16 .e4m3, Cause.rsvtype), (.unpk h0 1 8 .n32 .i8, Cause.rsvtype),
    (.vote h0 .all 8 1 0, Cause.rsvreg), (.frnd h0 1 2 .sto, Cause.rsvcode), (.hnew h0 (.v 1) (.k 2), Cause.rsvfn)] := by decide

/-- R53, R162, R169, R174, R176 to R178, R190: memory and tile forms. -/
theorem test_ill_formed_memory : refusedAs [
    (.ld h0 8 ⟨.sp, 4, .short 0⟩ .b32 plain, Cause.rsvmem), (.ld h0 8 gl4 .b32 { plain with ord := .release }, Cause.rsvmem),
    (.ld h0 8 gl4 .b32 { plain with sc := .pkg }, Cause.rsvmem), (.ld h0 8 gl4 .b32 { plain with ht := true }, Cause.rsvmem),
    (.ld h0 8 ⟨.gl, 5, .short 0⟩ .b32 plain, Cause.oddreg), (.ld h0 9 gl4 .b64 plain, Cause.oddreg),
    (.ld h0 8 ⟨.glk, 64, .short 0⟩ .b32 plain, Cause.rsvreg), (.st h0 8 gl4 .s8 plain, Cause.rsvmem),
    (.lds h0 8 gl4 .b32 plain, Cause.rsvmem), (.sts h0 8 gl4 .b32 plain, Cause.rsvmem),
    (.ldk h0 8 gl4 .b32 plain, Cause.rsvmem), (.ldk h0 9 ⟨.kc, 4, .short 0⟩ .b128 plain, Cause.oddreg),
    (.ldm h0 8 gl4 .b8 plain, Cause.rsvmem), (.atom h0 6 8 0 .add gl4 .b32 plain, Cause.rsvlit),
    (.atom h0 6 8 9 .add ⟨.gl, 4, .lit 0⟩ .b32 plain, Cause.rsvfld), (.atoms h0 6 8 0 .add ⟨.gl, 4, .lit 0⟩ .b32 plain, Cause.rsvmem),
    (.red h0 8 .xchg ⟨.gl, 4, .lit 0⟩ .b32 plain, Cause.rsvcode), (.fence h0 .relaxed .pkg, Cause.rsvmem),
    (.fxp h0 false 0 1 .pkg, Cause.rsvfld), (.fxp h0 false 64 1 .pkg, Cause.rsvfld), (.pref h0 gl4 .b8 { plain with lh := true }, Cause.rsvmem),
    (.cflush h0 gl4 .b8 { plain with ch := true }, Cause.rsvmem), (.lease h0 false (.imm 0), Cause.rsvimm),
    (.tld h0 ⟨.diag, 1⟩ gl4 .b32 plain, Cause.rsvtile), (.tst h0 ⟨.diag, 1⟩ gl4 .b32 plain, Cause.rsvtile),
    (.tld h0 ⟨.row, 1⟩ gl4 .b8 plain, Cause.rsvmem), (.tst h0 ⟨.row, 1⟩ gl4 .b8 plain, Cause.rsvmem)] := by decide

/-- R190, R200, R210 to R217, R221, R226, R297, R300: gang, engine and graphics forms. -/
theorem test_ill_formed_units : refusedAs [
    (.mma h0 ⟨.col, 1⟩ 2 4 0 false false, Cause.rsvtile), (.mma h0 ⟨.row, 1⟩ 2 4 0 false true, Cause.rsvfn),
    (.mma h0 ⟨.row, 1⟩ 2 4 3 false false, Cause.rsvfld), (.mma h0 ⟨.row, 1⟩ 2 63 0 false false, Cause.rsvreg),
    (.tzero h0 ⟨.col, 1⟩, Cause.rsvtile), (.strec h0 { e0 with sa := 1 }, Cause.rsvfld),
    (.emm h0 { e0 with d := 1 } false false, Cause.rsvfld), (.emm h0 { e0 with q := 1 } false false, Cause.rsvq),
    (.evx h0 { e0 with q := 1, sb := 1 } .fmov false, Cause.rsvfld), (.evx h0 e0 .fadd false, Cause.rsvq),
    (.evx h0 { e0 with q := 1 } .fmov true, Cause.rsvfn), (.ered h0 { e0 with q := 1, sb := 1 } .fadd, Cause.rsvfld),
    (.ered h0 e0 .fadd, Cause.rsvq), (.ecpy h0 e0 0 false, Cause.rsvq), (.ecpy h0 { e0 with q := 2, d := 3 } 0 false, Cause.oddreg),
    (.ecpy h0 { e0 with q := 2, sb := 1 } 0 false, Cause.rsvfld), (.emode h0 { e0 with q := 3 } .rne, Cause.rsvq),
    (.emode h0 { e0 with sa := 1 } .rne, Cause.rsvfld), (.enote h0 e0 0, Cause.rsvnote), (.enote h0 { e0 with sa := 1, d := 1 } 0, Cause.rsvfld),
    (.ewait h0 { e0 with d := 1 } 0, Cause.rsvfld), (.esave h0 { e0 with q := 3 }, Cause.rsvq), (.esave h0 { e0 with sd := 1 }, Cause.rsvfld),
    (.eres h0 { e0 with q := 3 }, Cause.rsvq), (.eres h0 { e0 with fb := 1 }, Cause.rsvfld), (.wmrd h0 { e0 with ti := 1 } 0, Cause.rsvfld),
    (.wmset h0 { e0 with sa := 1 } 0, Cause.rsvfld), (.wmsetOff h0 { e0 with d := 1 } 0, Cause.rsvfld),
    (.coll h0 e0 .allred .fadd, Cause.rsvq), (.coll h0 { e0 with q := 2, sb := 1 } .allred .fadd, Cause.rsvfld),
    (.coll h0 { e0 with q := 2 } .bcast .fmax, Cause.rsvcode), (.trace h0 1 4 2 .trav false, Cause.rsvfld),
    (.tqry h0 3 1 false, Cause.oddreg), (.texs h0 4 255 1, Cause.regrange)] := by decide

-- single instructions, on a warp of 32 lanes at 0x10000, slot 0 of shader core 0 of die 0

def u0 : UnitId := ⟨.sc, 0, 0⟩

/-- The stand-in of log 1, its warp changed by f. -/
def begin_ (f : Warp → Warp) : State := (State.reset.standIn).modWarp u0 0 f

/-- Lane l starts with a value in register r, for each (l, r, value). -/
def withV (vs : List (Nat × Nat × Word)) (w : Warp) : Warp :=
  { w with v := vs.foldl (fun t x => t.set (256 * x.1 + x.2.1) x.2.2) w.v }

/-- The warp after one step on an instruction, given by its words. -/
def after (nbits word : Nat) (s : State) : Option Warp :=
  match step (s.withFetchWord nbits word) with
  | .next t => t.warp u0 0
  | _ => none

/-- Register r of lane l after it. -/
def regAfter (nbits word : Nat) (s : State) (l r : Nat) : Option Word := (after nbits word s).map fun w => w.v.get (256 * l + r)

/-- R100's examples: IABS of the least number without .sat. -/
theorem test_iabs_least : regAfter 64 0x2800070500800000 (begin_ (withV [(0, 1, 0x80000000)])) 0 10 = some 0x80000000 := by decide
theorem test_iabs_sat : regAfter 64 0x2800070500800002 (begin_ (withV [(0, 1, 0x80000000)])) 0 10 = some 0x7FFFFFFF := by decide
theorem test_iadd_sat_u :
    regAfter 64 0x2000070500810006 (begin_ (withV [(0, 1, 0xFFFFFFF0), (0, 2, 0x20)])) 0 10 = some 0xFFFFFFFF := by decide
theorem test_iadd_sat :
    regAfter 64 0x2000070500810002 (begin_ (withV [(0, 1, 0xFFFFFFF0), (0, 2, 0x20)])) 0 10 = some 16 := by decide
/-- R100: the product of −1 and −1 is 1, its high half 0. -/
theorem test_imulh : regAfter 64 0x2300070500810000 (begin_ (withV [(0, 1, 0xFFFFFFFF), (0, 2, 0xFFFFFFFF)])) 0 10 = some 0 := by
  decide
/-- R101's example: table 0xE8 is the majority of D, A and B. -/
theorem test_lop3 :
    regAfter 64 0x2E00070500817400 (begin_ (withV [(0, 10, 0b1100), (0, 1, 0b1010), (0, 2, 0b0110)])) 0 10 = some 0b1110 := by decide
/-- R102: a count of 32 is 0 modulo the width, and all sign bits under CLAMP. -/
theorem test_sar : regAfter 64 0x3100070500810000 (begin_ (withV [(0, 1, 0x80000001), (0, 2, 32)])) 0 10 = some 0x80000001 := by decide
theorem test_sar_clamp :
    regAfter 64 0x3100070500810002 (begin_ (withV [(0, 1, 0x80000001), (0, 2, 32)])) 0 10 = some 0xFFFFFFFF := by decide
/-- R105's example. -/
theorem test_ilv :
    regAfter 64 0x3930070500810181 (begin_ (withV [(0, 1, 5), (0, 2, 3), (0, 3, 6)])) 0 10 = some 0x173 := by decide
theorem test_clz : regAfter 64 0x3300070585000000 (begin_ (withV [(0, 10, 0x173)])) 0 11 = some 23 := by decide
theorem test_dlv : regAfter 128 (2 * 2 ^ 64 + 0x3A00070605000041) (begin_ (withV [(0, 10, 0x173)])) 0 12 = some 6 := by decide
/-- R84's example: 0.3 to E4M3, to nearest and toward 0. -/
theorem test_cvt_rne : regAfter 64 0x4100070100828000 (begin_ (withV [(0, 1, 0x3E99999A)])) 0 2 = some 0x2A := by decide +kernel
theorem test_cvt_rtz : regAfter 64 0x4100070100828001 (begin_ (withV [(0, 1, 0x3E99999A)])) 0 2 = some 0x29 := by decide +kernel
/-- R86's example: 1.0625 and 1.4375 to E2M1 under STO from SEED 1; the six elements after them are 0. -/
theorem test_pack_sto : regAfter 64 0x4200070104048004
    (begin_ fun w => { withV [(0, 8, 0x3F880000), (0, 9, 0x3FB80000)] w with
      seed := 1, exited := 0xFFFFFFFE, paths := [⟨0x10000, 1, none, 0, .ready⟩] }) 0 2 = some 0x32 := by decide +kernel
/-- R124's example: SHFL.down v2, v1, 1, v9, g1 on groups of 8, lane 3 exited and lane 5 on another path. -/
def shuffled : State :=
  begin_ fun w => { withV ((List.range 8).flatMap fun l => [(l, 1, if l = 5 then 50 else BitVec.ofNat 32 (10 * l)), (l, 9, 0xFFFFFFFF)]) w with
    grp := [(1, 2)], exited := 0xFFFFFF08, paths := [⟨0x10000, 0xD7, none, 0, .ready⟩, ⟨0x20000, 0x20, none, 0, .token⟩] }
theorem test_shfl_down : (List.range 8).map (fun l => regAfter 128 (2 ^ 64 + 0x47000701008004C6) shuffled l 2) =
    [some 10, some 20, some 0xFFFFFFFF, some 0, some 50, some 0, some 70, some 0xFFFFFFFF] := by decide
/-- R32's example: BRA with lanes 0 to 7 taken splits under a record of all lanes; the others go on. -/
theorem test_bra_split : (after 64 0x0100000001002000 (begin_ fun w => { w with p := [(0, 0xFF)] })).map (fun w =>
    (w.paths.map (fun p => (p.pc, p.mask)), (w.joins.get 0).map fun r => (r.jpc, r.expected))) =
    some ([(0x10008, 0xFFFFFF00), (0x10100, 0xFF)], some (0x10200, 0xFFFFFFFF)) := by decide
/-- R137, R36: SCAN.add.excl over a group of 4: arrival of all lanes completes it, and the results wait to be written. -/
theorem test_scan_excl : (after 64 0x4A00070280810010 (begin_ fun w => { withV [(0, 1, 3), (1, 1, 5), (2, 1, 7), (3, 1, 9)] w with
      grp := [(2, 3)], exited := 0xFFFFFFF0, paths := [⟨0x10000, 0xF, none, 0, .ready⟩] })).map (fun w =>
    w.pend.flatMap fun q => q.res.map fun r => (r.reg, r.lane, r.val)) =
    some [(5, 0, 0), (5, 1, 3), (5, 2, 8), (5, 3, 15)] := by decide
/-- R159, R363: TRAP 5 parks every lane at the instruction with SWTRAP, resumable after it. -/
theorem test_trap : (after 64 0x1800070000000005 (begin_ id)).map (fun w =>
    (w.paths.length, w.parked.length, w.parked.all fun q => q.rec_.cause == BitVec.ofNat 8 Cause.swtrap && q.rec_.pc == 0x10000)) =
    some (0, 32, true) := by decide
/-- R377: a reserved guard of a blank opcode is RSVOP at the instruction. -/
theorem test_rsvop : (after 64 0xFF00070000000000 (begin_ id)).map (fun w =>
    w.parked.all fun q => q.rec_.cause == BitVec.ofNat 8 Cause.rsvop) = some true := by decide
/-- R48: SRD v3, LANE. -/
theorem test_srd_lane : regAfter 64 0x1A00070180000000 (begin_ id) 7 3 = some 7 := by decide
/-- R162, R165: LD.b32 v8, gl[v4:5 + 16] of one lane: the access that leaves, then performed at home and written back. -/
def loads : State := begin_ fun w => { withV [(0, 4, 0x20000)] w with
  exited := 0xFFFFFFFE, paths := [⟨0x10000, 1, none, 0, .ready⟩] }
theorem test_ld_leaves : (match step (loads.withFetchWord 64 0x70001F0402080800) with
    | .next t => t.ops.map fun o => (o.ea, o.n, o.kind, o.leased)
    | _ => []) = [(0x20040, 4, .load, true)] := by decide
/-- R229, R237: what an atomic add of 5 leaves in a word of 0xFFFFFFFE, and what a compare-and-swap that fails leaves. -/
theorem test_atom_add : State.atomNew .add 32 0xFFFFFFFE 5 0 = 3 := by decide
theorem test_atom_cas : State.atomNew .cas 32 7 9 8 = 7 := by decide
/-- R147, R148: HARR 2, 64 of a team in a phase: CNT and EXP. -/
theorem test_harr : (match step ((begin_ id).withFetchWord 64 0x0E00070100000840) with
    | .next t => (t.team? u0 0).map fun x => ((x.hurdles.get 2).cnt, (x.hurdles.get 2).exp)
    | _ => none) = some (32, 64) := by decide
/-- R292, R294: XMUL.int m3, m1, m2 in slot 0 of the traversal sequencer. -/
def sequencer (word : Dword) : State :=
  { (begin_ id).modCore u0 fun c => { c with
      gslots := [(0, some { (default : GSlot) with m := [(1, 6), (2, 7)], st := .running })]
      cstores := [(0, { n := 4, words := [(0, word)] })] } with
    agenda := [.micro u0 .trav] }
theorem test_xmul : (match step (sequencer 0x30C1080020000000) with
    | .next t => (t.gslot u0 .trav 0).map fun g => (g.m.get 3, g.pc)
    | _ => none) = some (42, 1) := by decide
/-- R429: a package without power steps nowhere. -/
theorem test_power : (match step { State.reset with plat := { State.reset.plat with off := true } } with
    | .fault .poweredOff => true
    | _ => false) = true := by decide

-- witnesses: states and operands that meet the premises of the statements

open Sys2Proof.Terms

theorem byLanes {s : State} {h : Head} {P : Nat → Prop} (f : ∀ l : Fin 32, executes s h l = true → P l) :
    ∀ l, executes s h l = true → P l := fun l e => by
  have hl : l < 32 := by simp [executes] at e; exact e.1.1
  exact f ⟨l, hl⟩ e

/-- Two lanes, of which p0 holds in lane 0 and p1 in none; v4:5 and k4 hold 0x20000. -/
def warp2 : Warp :=
  { standInWarp with
    exited := 0xFFFFFFFC, paths := [⟨0x10000, 3, none, 0, .ready⟩], p := [(0, 1)]
    v := [(4, 0x20000), (260, 0x20000)], k := [(4, 0x20000)] }
def state2 : State := begin_ fun _ => warp2
def all : Head := h0
def half : Head := ⟨0, 0, 0, 0, false⟩
def none_ : Head := ⟨0, 0, 0, 1, false⟩

theorem witness_issuing : Issuing state2 warp2 := rfl
theorem witness_IntegerArithmeticResults : ∃ s w, Issuing s w ∧ ∃ l, executes s all l = true := ⟨state2, warp2, rfl, 1, by decide⟩
theorem witness_LogicAndShiftResults : ∃ s w, Issuing s w ∧ ∃ l, executes s half l = true := ⟨state2, warp2, rfl, 0, by decide⟩
theorem witness_BitFieldResults : Issuing state2 warp2 := rfl
theorem witness_CompareSelectMoveResults : Issuing state2 warp2 ∧ state2.firstLane all = some 0 := ⟨rfl, by decide⟩
theorem witness_Fp32Results : Issuing state2 warp2 := rfl
theorem witness_VariableLatencyResults : Issuing state2 warp2 ∧ state2.execLanes all ≠ 0 := ⟨rfl, by decide⟩
theorem witness_PackedF16Results : Issuing state2 warp2 := rfl
theorem witness_ConversionResults : Issuing state2 warp2 := rfl
theorem witness_PredicateResults : Issuing state2 warp2 ∧ (∃ l, executes state2 all l) ∧ ¬ ∃ l, executes state2 none_ l :=
  ⟨rfl, ⟨0, by decide⟩, fun ⟨l, e⟩ => absurd rfl (byLanes (P := fun _ => 0 = 1) (by decide) l e ▸ Nat.zero_ne_one)⟩
theorem witness_OperandReads : Issuing state2 warp2 ∧ state2.cur.hz = [] ∧ ∀ i < 4, Warp.winSize (warp2.loops.get i) = 0 :=
  ⟨rfl, by decide⟩
/-- R37: an exited lane, a lane of the path, and a lane of another path. -/
theorem witness_ShuffleAndCrossLaneReads :
    let w := (shuffled.warp u0 0).getD default
    Issuing shuffled w ∧ w.exited.getLsbD 3 = true ∧ (0 < w.width ∧ w.exited.getLsbD 0 = false ∧ shuffled.curP.mask.getLsbD 0 = true) ∧
    (5 < w.width ∧ w.exited.getLsbD 5 = false ∧ shuffled.curP.mask.getLsbD 5 = false) := ⟨rfl, by decide⟩
theorem witness_CollectiveArrival : Issuing state2 warp2 ∧ state2.collSize 0 = 32 := ⟨rfl, by decide⟩
/-- One for each form of R126 to R128, a group of four lanes of which two contribute. -/
def coll (i : Instr) : CollInst := ⟨0x10000, i, 0, 4, 0, 0xF, 3, [(0, 5), (1, 7)], [0]⟩
theorem witness_CollectiveResults :
    (coll (.vote h0 .all 2 1 0)).instr = .vote h0 .all 2 1 0 ∧ VoteMode.all ≠ .ballot ∧
    (coll (.vote h0 .ballot 2 1 0)).instr = .vote h0 .ballot 2 1 0 ∧
    (coll (.matchV h0 2 1 0 false)).instr = .matchV h0 2 1 0 false ∧ (coll (.redux h0 .add 2 1 0)).instr = .redux h0 .add 2 1 0 ∧
    (let c := coll (.scan h0 .fadd 2 1 0 true)
     2 ≤ 5 ∧ c.size = 2 ^ 2 ∧ ∀ l ∈ Bits.lanes c.contrib, c.base ≤ l ∧ l < c.base + c.size) := by decide

/-- An address that maps to itself in the memory of die 0, for every need. -/
def itself (s : State) (a : Nat) : Xlat :=
  match s.xlate s.cur.unit true .read a with | .ok x => x | .error _ => ⟨0, 0, false, false, 0, 0, 0, 0, 0⟩
def reachesB (s : State) (need : Need) (align ea : Nat) (x : Xlat) : Bool :=
  (match s.xlate s.cur.unit (s.cur.slot != trapSlot) need ea with | .ok y => decide (y = x) | .error _ => false) &&
  decide (ea % align = 0) && !s.lostPa s.cur.unit.die x.pa
theorem reaches_of {s need align ea x} (e : reachesB s need align ea x = true) : Reaches s need align ea x := by
  unfold reachesB at e
  split at e <;> simp_all [Reaches]
theorem byReach {s : State} {h : Head} {need : Need} {n : Nat} {ea : Nat → Nat} {x : Nat → Xlat}
    (f : ∀ l : Fin 32, executes s h l = true → reachesB s need n (ea l) (x l) = true) :
    ∀ l, executes s h l = true → Reaches s need n (ea l) (x l) := byLanes fun l e => reaches_of (f l e)
theorem settled2 : Settled state2 warp2 all := byLanes (P := fun l => warp2.hyOf l = 0 ∨ _) (by decide)
theorem witness_GlobalAccessesIssue : Issuing state2 warp2 ∧ Settled state2 warp2 all ∧ gl4.space = .gl ∧
    (∀ l, executes state2 all l = true → Reaches state2 .read 4 (state2.eaOf gl4 4 l) (itself state2 0x20000)) ∧
    (∀ l, executes state2 all l = true → Reaches state2 .write 4 (state2.eaOf gl4 4 l) (itself state2 0x20000)) ∧
    (∀ l, executes state2 all l = true → Reaches state2 .rw 4 (state2.eaOf gl4 4 l) (itself state2 0x20000)) :=
  ⟨rfl, settled2, rfl, byReach (by decide), byReach (by decide), byReach (by decide)⟩

/-- The same with a grant of one granule and v6 at offset 64 of it. -/
def stateG : State :=
  (begin_ fun _ => { warp2 with v := [(4, 0x20000), (6, 64), (260, 0x20000), (262, 64)], k := [(4, 0x20000), (8, 0x100000000)] }).modCore
    u0 fun c => { c with teams := [{ (default : Team) with nwarps := 1, grant := [3], tiles := true }] }
def warpG : Warp := (stateG.warp u0 0).getD default
def teamG : Team := (stateG.core u0).teams.headD default
theorem settledG : Settled stateG warpG all := byLanes (P := fun l => warpG.hyOf l = 0 ∨ _) (by decide)
theorem witness_ScratchpadAccessesIssue : Issuing stateG warpG ∧ Settled stateG warpG all ∧
    ∀ l, executes stateG all l = true → ReachesScr stateG .sp 4 4 (stateG.eaOf ⟨.sp, 6, .short 0⟩ 4 l) u0 (some teamG) :=
  ⟨rfl, settledG, byLanes fun l e => by revert l; unfold ReachesScr; decide⟩
theorem witness_PathLoadsIssue : Issuing stateG warpG ∧ Settled stateG warpG all ∧ stateG.firstLane all = some 0 ∧
    Reaches stateG .read 4 (stateG.eaOf ⟨.kc, 4, .short 0⟩ 4 0) (itself stateG 0x20000) ∧
    (let ea := stateG.eaOf ⟨.glk, 4, .short 0⟩ 1 0
     let x := itself stateG 0x20000
     let k := (stateG.rk 8).toNat
     Reaches stateG .read 128 ea x ∧ ea / 2 ^ x.bits = (ea + 128 * 1 - 1) / 2 ^ x.bits ∧ k < 2 ^ 48 ∧ k / 2 ^ 32 % 2 ^ 16 = 1 ∧
      k % 2 ^ 32 % 128 = 0 ∧ stateG.scrTarget .sp = some (u0, some teamG) ∧ k % 2 ^ 32 + 128 ≤ State.scrSize (some teamG)) :=
  ⟨rfl, settledG, by decide, reaches_of (by decide), reaches_of (by decide), by decide⟩
def load0 : MemOp := { (default : MemOp) with id := 7, unit := u0, lane := 0, lanes := 1, kind := .load, pa := 0x20000, n := 4, dst := [⟨.v, 8, 0, 0⟩] }
theorem witness_AccessesEnterFlight : Issuing state2 warp2 ∧ [load0] ≠ [] ∧ ∀ o ∈ [load0], o.kind ≠ .load ∨ o.leased = false :=
  ⟨rfl, by decide⟩
/-- R236: a leased load with a copy that holds its line, and one without. -/
def leased0 : MemOp := { load0 with leased := true }
def copied : State :=
  { state2.modAgent (unitNo u0) (fun a => { a with copies := [(0x400, some ⟨List.replicate 128 5, 3, 9⟩)] }) with ops := [leased0] }
theorem witness_LeasedLoadHits : leased0.kind = .load ∧ leased0.leased = true ∧ leased0.sent = false ∧ copied.bad = [] ∧
    copied.ordReady leased0 = true ∧ copied.hitCopy (unitNo u0) 0x400 = some ⟨List.replicate 128 5, 3, 9⟩ ∧
    state2.hitCopy (unitNo u0) 0x400 = none ∧ state2.ordReady leased0 = true := by decide
/-- R391: a base that is not aligned to the access, and one outside memory. -/
def stateBad (a : Word) : State := begin_ fun _ => { warp2 with v := [(4, a), (260, a)] }
def isOk (r : Except TFault Xlat) (x : Xlat) : Bool := match r with | .ok y => decide (y = x) | .error _ => false
def isErr (r : Except TFault Xlat) (e : TFault) : Bool := match r with | .error f => decide (f = e) | .ok _ => false
theorem ok_of {r x} (e : isOk r x = true) : r = .ok x := by unfold isOk at e; split at e <;> simp_all
theorem err_of {r x} (e : isErr r x = true) : r = .error x := by unfold isErr at e; split at e <;> simp_all
theorem witness_RefusedAccessesStrike : ∃ w, Issuing (stateBad 0x20001) w ∧ Settled (stateBad 0x20001) w all ∧
    ∀ l, executes (stateBad 0x20001) all l = true →
      (∃ x, (stateBad 0x20001).xlate u0 true .read ((stateBad 0x20001).eaOf gl4 4 l) = .ok x) ∧
        (stateBad 0x20001).eaOf gl4 4 l % 4 ≠ 0 :=
  ⟨{ warp2 with v := [(4, 0x20001), (260, 0x20001)] }, rfl, byLanes (P := fun l => Warp.hyOf _ l = 0 ∨ _) (by decide),
    byLanes fun l e => ⟨⟨itself (stateBad 0x20001) 0x20001, ok_of (by revert l; decide)⟩, by revert l; decide⟩⟩
theorem witness_RefusedAccessesStrike_translation : ∃ s w e, Issuing s w ∧
    ∀ l, executes s all l = true → s.xlate s.cur.unit (s.cur.slot != trapSlot) .read (s.eaOf gl4 4 l) = .error e :=
  ⟨begin_ fun _ => { warp2 with v := [(5, 0xC0), (261, 0xC0)] }, _, ⟨5, 0, 7⟩, rfl, byLanes fun l e => err_of (by revert l; decide)⟩
/-- Lane 0 is misaligned, lane 1 reaches memory. -/
def stateMixed : State := begin_ fun _ => { warp2 with v := [(4, 0x20001), (260, 0x20000)] }
theorem witness_RefusedAccessesStrike_mixed : stateMixed.cur.slot ≠ trapSlot ∧
    executes stateMixed all 0 = true ∧ stateMixed.xlate u0 true .read (stateMixed.eaOf gl4 4 0) = .ok (itself stateMixed 0x20001) ∧
    stateMixed.eaOf gl4 4 0 % 4 ≠ 0 ∧ executes stateMixed all 1 = true ∧
    Reaches stateMixed .read 4 (stateMixed.eaOf gl4 4 1) (itself stateMixed 0x20000) ∧
    Reaches stateMixed .write 4 (stateMixed.eaOf gl4 4 1) (itself stateMixed 0x20000) :=
  ⟨by decide, by decide, ok_of (by decide), by decide, by decide, reaches_of (by decide), reaches_of (by decide)⟩
/-- An address of die 1 after that die is fenced; a scratchpad offset at the end of a team without a grant, and a
core of the cluster with no team. -/
def stateLost : State :=
  (begin_ fun _ => { warp2 with v := [(5, 0x60), (261, 0x60)] }).modDie 0 fun d => { d with fenced := [.die 1] }
theorem witness_RefusedAccessesStrike_lost :
    (∀ l, executes stateLost all l = true → ∃ x, stateLost.xlate u0 true .read (stateLost.eaOf gl4 4 l) = .ok x ∧
      stateLost.eaOf gl4 4 l % 4 = 0 ∧ stateLost.lostPa 0 x.pa = true) ∧
    (∃ t, state2.scrTarget .sp = some (u0, t) ∧ State.scrSize t < 0 + 4) ∧ state2.scrTarget (.spc 1) = none :=
  ⟨byLanes fun l e => ⟨itself stateLost 0x6000000000, ok_of (by revert l; decide), by revert l; decide, by decide⟩, ⟨_, rfl, by decide⟩, by decide⟩

def env0 : FlowEnv := state2.flowEnv u0 0
/-- R33: a record that waits for lanes 0 and 1 at 0x10008. -/
def joined (arrived : Lanes) : Warp := { warp2 with paths := [], joins := [(2, some ⟨0x10008, 3, arrived, none⟩)] }
theorem witness_PathsGoOn : (1 : Lanes) ≠ 0 ∧ (∀ n < 4, (warp2.loops.get n).st ≠ .live) ∧
    (∀ n < 4, ((joined 0).loops.get n).st ≠ .live) ∧ (joined 0).joins.get 2 = some ⟨0x10008, 3, 0, none⟩ ∧
    (0x10000 : Dword) + BitVec.ofNat 64 8 = 0x10008 ∧ ((0 : Lanes) ||| 1) &&& 3 ≠ 3 ∧
    (joined 2).joins.get 2 = some ⟨0x10008, 3, 2, none⟩ ∧ ((2 : Lanes) ||| 1) &&& 3 = 3 := by decide
/-- R143: level 1 live over lanes 0 and 1, with laps left or in its last lap. -/
def looped (lc : Word) : Warp :=
  { warp2 with paths := [], loops := [(1, { (default : Loop) with lc := lc, ls := 0x10000, le := 0x10010, lanes := 3, st := .live })] }
theorem witness_LoopBackEdge : ∀ c : Fin 2, let w := looped (BitVec.ofNat 32 (c + 1))
    let l := w.loops.get 1
    1 < 4 ∧ (3 : Lanes) ≠ 0 ∧ l.st = .live ∧ (∀ k < 4, k ≠ 1 → (w.loops.get k).st ≠ .live) ∧ l.lanes &&& ~~~ l.brk = 3 ∧
    l.wback = 0 ∧ l.rw = 0 ∧ l.lx = none ∧ (if c = 0 then l.lc = 1 else l.lc ≠ 1) := by decide
/-- Targets of a BRX in v8:9: aligned and different, or not aligned. -/
def branching (a b : Word) : State := begin_ fun _ => { warp2 with v := [(8, a), (264, b)] }
theorem witness_BranchForms : Issuing state2 warp2 ∧ others state2 all = 0 ∧ state2.execLanes none_ = 0 ∧ state2.curP.mask ≠ 0 ∧
    state2.execLanes half ≠ 0 ∧ others state2 half ≠ 0 := ⟨rfl, by decide⟩
/-- R143: lane 0 is in a live level that ends at the branch. -/
def edgeWarp : Warp := { warp2 with loops := [(0, { (default : Loop) with lc := 2, ls := 0x10000, le := 0x10000, lanes := 1, st := .live })] }
theorem witness_BranchForms_split : warp2.offEdge 0x10000 3 = 3 ∧ others state2 half &&& 3 ≠ 0 ∧ state2.execLanes half &&& 3 ≠ 0 ∧
    (∃ w, Issuing (begin_ fun _ => edgeWarp) w) ∧ edgeWarp.offEdge 0x10000 3 = 2 ∧ (1 : Lanes) &&& 2 = 0 ∧
    (begin_ fun _ => edgeWarp).execLanes half = 1 := ⟨by decide, by decide, by decide, ⟨_, rfl⟩, by decide⟩
theorem witness_BranchForms_brx : (∃ w, Issuing (branching 0x20000 0x30000) w) ∧
    (∀ l, executes (branching 0x20000 0x30000) all l = true → ((branching 0x20000 0x30000).rv2 l 8).toNat % 8 = 0) ∧
    (State.groups ((Bits.lanes 3).map fun l => (l, (branching 0x20000 0x30000).rv2 l 8))).length = 2 ∧
    (State.groups ((Bits.lanes 3).map fun l => (l, (branching 0x20000 0x20000).rv2 l 8))).length = 1 :=
  ⟨⟨_, rfl⟩, byLanes fun l e => by revert l; decide, by decide⟩
theorem witness_BranchForms_trap : (∃ w, Issuing (branching 0x20004 0x20004) w) ∧ u0.kind = .sc ∧
    (branching 0x20004 0x20004).cur.slot ≠ trapSlot ∧ (∃ l, executes (branching 0x20004 0x20004) all l = true) ∧
    ∀ l, executes (branching 0x20004 0x20004) all l = true → ((branching 0x20004 0x20004).rv2 l 8).toNat % 8 ≠ 0 :=
  ⟨⟨_, rfl⟩, rfl, by decide, ⟨0, by decide⟩, byLanes fun l e => by revert l; decide⟩
/-- R135 to R137: room for a call; a callee of both lanes that all return, or one of them. -/
def called (m : Lanes) : Warp := { warp2 with rets := [⟨0, false, m, none, 0x8000⟩] }
def stateC (m : Lanes) : State := begin_ fun _ => called m
theorem witness_CallAndReturn : Issuing state2 warp2 ∧ state2.execLanes all ≠ 0 ∧ warp2.rets.length < 16 ∧ warp2.rets = [] ∧
    warp2.rsdep = 0 ∧ state2.cur.slot ≠ trapSlot := ⟨rfl, by decide⟩
theorem witness_CallAndReturn_callx : (∃ w, Issuing (branching 0x20000 0x20000) w) ∧ (0x20000 : Dword).toNat % 8 = 0 ∧
    ∀ l, executes (branching 0x20000 0x20000) all l = true → (branching 0x20000 0x20000).rv2 l 8 = 0x20000 :=
  ⟨⟨_, rfl⟩, by decide, byLanes fun l e => by revert l; decide⟩
theorem witness_CallAndReturn_ret : Issuing (stateC 3) (called 3) ∧
    (let on := (stateC 3).execLanes all
     (called 3).rets = ⟨0, false, 3, none, 0x8000⟩ :: [] ∧ (3 : Lanes) &&& ~~~ (called 3).exited = on ∧ on &&& ~~~ (3 : Lanes) = 0 ∧
     (∀ n < 4, ((called 3).loops.get n).st ≠ .live) ∧ (called 3).rsdep = 0) ∧
    Issuing (stateC 3) (called 3) ∧ (3 : Lanes) &&& ~~~ (called 3).exited ≠ (stateC 3).execLanes half ∧
    (stateC 3).execLanes half &&& ~~~ (3 : Lanes) = 0 := ⟨rfl, by decide, rfl, by decide⟩
/-- R138, R139: a time to come in k9, a time that has come in k10. -/
def stateT : State := begin_ fun _ => { warp2 with k := [(9, 500)] }
theorem witness_TurnsAndExit : (∃ w, Issuing stateT w) ∧ stateT.execLanes none_ = 0 ∧ stateT.execLanes all ≠ 0 ∧
    (stateT.rk 10).toNat ≤ (BitVec.ofNat 64 (stateT.pace 0)).toNat ∧ (BitVec.ofNat 64 (stateT.pace 0)).toNat < (stateT.rk 9).toNat ∧
    (∀ l, executes state2 all l = true → warp2.hyOf l = 0) ∧ warp2.colls = [] :=
  ⟨⟨_, rfl⟩, by decide, by decide, by decide, by decide, byLanes (by decide), rfl⟩
/-- R141 to R145: a level that is free, armed with a window, or live. -/
def levelSt (st : LoopSt) (rw : Word) : Warp := { warp2 with loops := [(0, { (default : Loop) with rw := rw, lanes := if st = .live then 3 else 0, st := st })] }
def stateL (st : LoopSt) (rw : Word) : State := begin_ fun _ => levelSt st rw
theorem witness_LoopForms : Issuing (stateL .free 0) (levelSt .free 0) ∧ (stateL .free 0).execLanes all ≠ 0 ∧ (stateL .free 0).level 0 = some 0 ∧
    ((levelSt .free 0).loops.get 0).st = .free ∧ windowCauses (levelSt .free 0) 0 (rwWord 2 8 8) = [] ∧
    ((levelSt .live 0).loops.get 0).st ≠ .free ∧ (stateL .live 0).level 0 = some 0 ∧
    ((levelSt .armed (rwWord 2 8 8)).loops.get 0).st ≠ .live ∧ 5 + Warp.winStg ((levelSt .armed (rwWord 2 8 8)).loops.get 0) ≤ 2 ^ 32 ∧
    (let l := (levelSt .live 0).loops.get 0
     let on := (stateL .live 0).execLanes half
     l.st = .live ∧ on &&& ~~~ (l.lanes &&& ~~~ l.brk) = 0) := ⟨rfl, by decide⟩
/-- R136, R140: a callee with no level left for it; R144: a live window of 16 registers from v8 on, turned by 3. -/
def stateK : State := begin_ fun _ => { warp2 with rets := [⟨4, false, 3, none, 0x8000⟩] }
def windowed : Warp := { warp2 with loops := [(2, { (default : Loop) with rw := rwWord 0 16 8, rb := 3, lanes := 3, st := .live })] }
theorem witness_LoopLevelsAndWindows : (∃ w, Issuing stateK w) ∧ stateK.execLanes all ≠ 0 ∧ stateK.level 0 = none ∧
    stateK.cur.slot ≠ trapSlot ∧ 8 < 256 ∧ (∀ n < 4, (warp2.loops.get n).st ≠ .live ∨ Warp.winSize (warp2.loops.get n) = 0) ∧
    (let l := windowed.loops.get 2
     (∀ k < 4, k ≠ 2 → (windowed.loops.get k).st ≠ .live) ∧ l.st = .live ∧ l.rw.toNat / 256 % 512 ≠ 0 ∧
      l.rw.toNat % 256 + l.rw.toNat / 256 % 512 ≤ 256) := ⟨⟨_, rfl⟩, by decide⟩

/-- The trap slot of the same core, its warp running. -/
def trapped (w : Warp) (o : Option OpenTrap) : State :=
  let s := (state2.setWarp u0 trapSlot (some w)).modCore u0 fun c => { c with trap := o }
  { s with cur := { s.cur with slot := trapSlot } }
def stateX : State := trapped warp2 none
/-- R147: lanes' own accesses out; an arrival that the hurdle's number does not fit. -/
def stateBusy : State := { state2 with ops := [load0] }
def hurdled (n e : Nat) : State :=
  state2.modTeam u0 0 fun t => { t with hurdles := [(2, { (default : Hurdle) with cnt := n, exp := e })] }
theorem witness_TeamHurdleForms : Issuing state2 warp2 ∧ state2.execLanes none_ = 0 ∧ state2.execLanes all ≠ 0 ∧ state2.cur.slot ≠ trapSlot ∧
    (∃ t, state2.team? u0 warp2.team = some t ∧ (t.hurdles.get 2).cnt = 0) ∧ state2.lsuBusy u0 0 (state2.execLanes all) = false ∧
    Issuing stateBusy warp2 ∧ stateBusy.lsuBusy u0 0 (stateBusy.execLanes all) = true ∧ Issuing stateX warp2 ∧ stateX.cur.slot = trapSlot ∧
    (∃ w, Issuing (hurdled 1 5) w) ∧
    (∃ t, (hurdled 1 5).team? u0 0 = some t ∧ (t.hurdles.get 2).cnt ≠ 0 ∧ (64 : BitVec 11).toNat ≠ (t.hurdles.get 2).exp) ∧
    (∃ t, (hurdled 1 64).team? u0 0 = some t ∧ (t.hurdles.get 2).cnt ≠ 0 ∧ (64 : BitVec 11).toNat = (t.hurdles.get 2).exp) :=
  ⟨rfl, by decide, by decide, by decide, ⟨_, rfl, by decide⟩, by decide, rfl, by decide, rfl, rfl, ⟨_, rfl⟩, ⟨_, rfl, by decide⟩, ⟨_, rfl, by decide⟩⟩
/-- R158: a tensor tile; a warp of 4 granules; a live window that ends at register 24. -/
def stateTile : State :=
  { (State.reset.standIn).setWarp ⟨.tt, 0, 0⟩ 0 (some warp2) with cur := { (default : Cur) with unit := ⟨.tt, 0, 0⟩, path := 0 } }
def granWarp : Warp := { warp2 with gran := 4, loops := [(1, { (default : Loop) with rw := rwWord 8 16 8, st := .live })] }
def granted : State := begin_ fun _ => granWarp
theorem witness_RegisterGranules : Issuing granted granWarp ∧ granted.execLanes all ≠ 0 ∧ granted.execLanes none_ = 0 ∧ u0.kind = .sc ∧
    granted.cur.slot ≠ trapSlot ∧ granWarp.gran + (28 : BitVec 6).toNat ≤ 32 ∧ 32 < granWarp.gran + (29 : BitVec 6).toNat ∧
    (∀ k < 4, (granWarp.loops.get k).st = .free ∨ Warp.winSize (granWarp.loops.get k) = 0 ∨
      Warp.winBase (granWarp.loops.get k) + Warp.winSize (granWarp.loops.get k) ≤ 8 * (granWarp.gran - (1 : BitVec 6).toNat)) ∧
    (granWarp.loops.get 1).st ≠ .free ∧ Warp.winSize (granWarp.loops.get 1) ≠ 0 ∧
      8 * (granWarp.gran - (2 : BitVec 6).toNat) < Warp.winBase (granWarp.loops.get 1) + Warp.winSize (granWarp.loops.get 1) :=
  ⟨rfl, by decide⟩
theorem witness_RegisterGranules_tile : Issuing stateTile warp2 ∧ stateTile.cur.unit.kind ≠ .sc := ⟨rfl, by decide⟩

/-- A context with a spawn pool, a table of handles (slot 1 live, slot 2 complete, both of generation 3) and a table of
hypotheses (0 and 1 open, 2 under 1, 3 confirmed). -/
def ctx2 : CtxDesc :=
  { standInCtx with hybase := 0x40000, spcount := 2, spbase := 0x80000, ftbase := 0x50000, ftsize := 3 }
def withCtx (c : CtxDesc) (s : State) : State :=
  (s.modSlice 0 0 fun sl => { sl with ctx := some c }).modCtxRt 0 fun x => { x with desc := some c }
def stateH : State :=
  { withCtx ctx2 state2 with
    ctxs := [(0, { (state2.ctxRt 0) with desc := some ctx2 })]
    mem := [(0x40000, 1), (0x40010, 1), (0x40011, 1), (0x40020, 1), (0x40021, 2), (0x40022, 1), (0x40030, 2), (0x40031, 1),
      (0x50010, 3), (0x50011, 0x10), (0x50020, 3), (0x50021, 0x20), (0x50024, 7)] }
def binned : State := stateH.modCore u0 fun c => { c with bins := [(0, some { (default : Bin) with key := 0x20000, thr := 4 })] }
theorem witness_WorkCreation : Issuing stateH warp2 ∧ stateH.execLanes none_ = 0 ∧ stateH.execLanes all ≠ 0 ∧ stateH.cur.slot ≠ trapSlot ∧
    stateH.lsuBusy u0 0 (stateH.execLanes all) = false ∧ stateBusy.lsuBusy u0 0 (stateBusy.execLanes all) = true ∧
    (∃ tile, stateH.taskTile u0 0 0x8000 = some tile) ∧ stateH.freeFslot 0 = some 0 ∧
    (stateH.setFslot 0 0 ⟨3, 1, 0, false, 0⟩).freeFslot 0 = none ∧ stateH.taskTile u0 0 0x3F = none ∧
    (State.spawnLanes u0 true 0 0 0x20000 binned none [(0, [5]), (1, [6])]).2 = ([], none, []) ∧
    (State.spawnLanes u0 true 0 0 0x20000 binned none [(0, [5]), (1, [6]), (2, [7])]).2 = ([(2, [7])], none, []) ∧
    (let full : Bin := { (default : Bin) with key := 0x20000, thr := 4, slots := [3, 4, 5, 6] }
     let s := binned.modCore u0 fun c => { c with bins := [(0, some full)] }
     s.binKeyed u0 0x20000 = some 0 ∧ (s.core u0).bins.get 0 = some full ∧ full.thr ≤ full.slots.length ∧
       (State.spawnLanes u0 true 0 0 0x20000 s none [(0, [5])]).2 = ([(0, [5])], some 0, [])) ∧
    binned.poolTake 0 = some 0 ∧ binned.binKeyed u0 0x20000 = some 0 ∧
    (binned.core u0).bins.get 0 = some { (default : Bin) with key := 0x20000, thr := 4 } ∧ state2.poolTake 0 = none := by
  and_intros <;> first | decide +kernel | rfl | exact ⟨_, rfl⟩

/-- stateH with handles in v8 of the two lanes, and in k9. -/
def handles (a b : Word) : State :=
  stateH.modWarp u0 0 fun w => { w with v := (w.v.set 8 a).set 264 b, k := w.k.set 9 (a.setWidth 64) }
def hv (s : State) (l : Nat) : Word := (s.srcVK l (.v 8)).setWidth 32
def live_ : Word := 0x1003
def done_ : Word := 0x2003
def queued : State := (handles live_ live_).modCore ⟨.tt, 0, 3⟩ fun c => { c with taskQ := [{ (default : TaskEnt) with handle := live_ }] }
theorem witness_HandleForms : (∃ w, Issuing (handles live_ done_) w) ∧
    (∀ l, executes (handles live_ done_) all l = true →
      hv (handles live_ done_) l = 0 ∨ (handles live_ done_).handleOk 0 (hv (handles live_ done_) l) = true) ∧
    (∀ l, executes (handles live_ done_) all l = true → (handles live_ done_).ownHandle (hv (handles live_ done_) l) true = false) ∧
    (handles live_ done_).execLanes all ≠ 0 ∧
    (∃ l, executes (handles live_ done_) all l = true ∧ (handles live_ done_).handleDone 0 (hv (handles live_ done_) l) = false) ∧
    (∀ l, executes (handles 0 done_) all l = true → (handles 0 done_).handleDone 0 (hv (handles 0 done_) l) = true) ∧
    (∀ l, executes (handles 0 done_) all l = true → (handles 0 done_).ownHandle (hv (handles 0 done_) l) false = false) :=
  ⟨⟨_, rfl⟩, byLanes (by decide +kernel), byLanes (by decide +kernel), by decide, ⟨0, by decide +kernel⟩, byLanes (by decide +kernel),
    byLanes (by decide +kernel)⟩
theorem witness_HandleForms_stale : (∃ w, Issuing (handles 0x1000 0x2000) w) ∧ (handles 0x1000 0x2000).execLanes all ≠ 0 ∧
    (handles 0x1000 0x2000).cur.slot ≠ trapSlot ∧
    ∀ l, executes (handles 0x1000 0x2000) all l = true → hv (handles 0x1000 0x2000) l ≠ 0 ∧
      (handles 0x1000 0x2000).handleOk 0 (hv (handles 0x1000 0x2000) l) = false ∧
      (handles 0x1000 0x2000).ownHandle (hv (handles 0x1000 0x2000) l) true = false ∧
      (handles 0x1000 0x2000).ownHandle (hv (handles 0x1000 0x2000) l) false = false ∧
      State.handleGen (hv (handles 0x1000 0x2000) l) = 0 :=
  ⟨⟨_, rfl⟩, by decide, by decide, byLanes (by decide +kernel)⟩
theorem witness_HandleForms_cancel : stateH.handleDone 0 live_ = false ∧ stateH.handleDone 0 done_ = true ∧
    (∃ p ∈ queued.cores, (∃ t ∈ p.2.taskQ, t.handle = live_) ∧ queued.runs (unitOf p.1) 0 = true) ∧
    queued.handleDone 0 live_ = false ∧ (∀ p ∈ stateH.cores, ∀ t ∈ p.2.taskQ, t.handle ≠ live_) ∧
    stateH.launchTaken 0 live_ = false ∧ stateH.isDoneHandle 0 live_ = false ∧
    (withCtx { ctx2 with fthost := 2 } stateH).isDoneHandle 0 live_ = true ∧
    ({ stateH with grids := [{ (default : Grid) with done := live_ }] } : State).launchTaken 0 live_ = true := by decide +kernel

/-- R363 to R369: the trap slot with a trap open for lane 1 of slot 0, and with a frame at 0x90000. -/
def open0 : OpenTrap := ⟨0, 0x218, 0x10008, 2, 0, state2.warpIdent u0 0, 0, 2, 0⟩
def trapS (k : Tab Dword) : State := trapped { warp2 with k := k } (some open0)
theorem witness_TrapForms : Issuing state2 warp2 ∧ state2.execLanes all ≠ 0 ∧ state2.execLanes none_ = 0 ∧ state2.cur.slot ≠ trapSlot ∧
    (∃ w, Issuing (trapS []) w ∧ w.k.get 62 = 0) ∧ (trapS []).cur.slot = trapSlot ∧ (trapS []).execLanes all ≠ 0 ∧
    (∃ w, Issuing (trapS [(62, 0x90000)]) w ∧ w.k.get 62 ≠ 0) ∧ (trapS [(62, 0x90000)]).storesOut u0 = false ∧
    (trapS [(62, 0x90000)]).reloadBad = false ∧
    ({ trapS [(62, 0x90000)] with ops := [{ load0 with kind := .store, slot := trapSlot }] } : State).storesOut u0 = true ∧
    (∃ v, (trapS [(4, 0)]).warp u0 0 = some v ∧ v.ctx = warp2.ctx ∧ Bits.field ((trapS [(4, 0)]).rk 4).toNat 16 8 = 0 ∧
      ((trapS [(4, 0)]).rk 4).setWidth 32 = warpWord u0 0 v.widx) :=
  ⟨rfl, by decide, by decide, by decide, ⟨_, rfl, by decide⟩, rfl, by decide, ⟨_, rfl, by decide⟩, by decide, by decide +kernel, by decide,
    ⟨_, rfl, by decide⟩⟩
def trapCtx : CtxDesc := { standInCtx with trappc := 0x8000 }
def waits (k : Tab Dword) : State :=
  ((withCtx trapCtx state2).setWarp u0 trapSlot (some { warp2 with paths := [], k := k })).modCore u0 fun c => { c with
    trapQ := [⟨0, 3, { (default : FaultRec) with pc := 0x10000, cause := 0x18 }⟩] }
def writable (s : State) (a : Nat) : Bool := match s.xlate u0 false .write a with | .ok _ => true | .error _ => false
theorem writable_of {s a} (e : writable s a = true) : ∃ x, s.xlate u0 false .write a = .ok x := by
  unfold writable at e
  split at e
  · exact ⟨_, by assumption⟩
  · simp at e
theorem witness_TrapEntryAndReturn : ((waits []).unitSlice u0).st = .running ∧ ((waits []).unitSlice u0).ctx = some trapCtx ∧
    ((waits []).core u0).trap = none ∧ (∃ q, ((waits []).core u0).trapQ = q :: []) ∧ (∃ w, (waits []).warp u0 trapSlot = some w ∧ w.k.get 62 = 0) ∧
    trapCtx.trappc ≠ 0 ∧ ((trapS []).core u0).trap = some open0 ∧ Bits.field open0.fwarp.toNat 16 8 = 0 ∧ 0 ≠ trapSlot ∧
    (∃ w, (trapS []).warp u0 0 = some w) ∧ ((trapS []).core u0).latches = [] :=
  ⟨rfl, rfl, rfl, ⟨_, rfl⟩, ⟨_, rfl, by decide⟩, by decide, rfl, by decide, by decide, ⟨_, rfl⟩, rfl⟩
theorem witness_TrapEntryAndReturn_frame : (∃ w, (waits [(62, 0x90000)]).warp u0 trapSlot = some w ∧ w.k.get 62 ≠ 0) ∧
    ∀ q, ((waits [(62, 0x90000)]).core u0).trapQ = [q] → ∀ i, 4096 * i < 8 * ((waits [(62, 0x90000)]).frameDwords u0 q).length →
      ∃ x, (waits [(62, 0x90000)]).xlate u0 false .write (0x90000 + 4096 * i) = .ok x :=
  ⟨⟨_, rfl, by decide⟩, fun q hq i hi => by
    cases hq
    have hd : ((waits [(62, 0x90000)]).frameDwords u0
        ⟨0, 3, { (default : FaultRec) with pc := 0x10000, cause := 0x18 }⟩).length ≤ 5000 := by decide +kernel
    have hw : ∀ i : Fin 10, writable (waits [(62, 0x90000)]) (0x90000 + 4096 * i) = true := by decide
    exact writable_of (hw ⟨i, by omega⟩)⟩

/-- R48: values in v8 of both lanes for a special register of 32 bits, and in k4 for one of 64. -/
def valued (v : Word) (k : Dword) : State := stateH.modWarp u0 0 fun w => { w with v := (w.v.set 8 v).set 264 v, k := [(4, k)] }
def windowWarp : Warp := { warp2 with loops := [(0, { (default : Loop) with rw := rwWord 2 8 0, st := .armed })] }
theorem witness_SpecialRegisters : Issuing state2 warp2 ∧ state2.execLanes none_ = 0 ∧ state2.execLanes all ≠ 0 ∧ state2.cur.slot ≠ trapSlot ∧
    Spec.priv 0x005 = false ∧ Spec.priv 0x800 = true ∧ Spec.priv 0x001 = false ∧ Spec.ro 0x001 = true ∧
    state2.freeFslot warp2.ctx = none ∧ stateH.freeFslot warp2.ctx = some 0 ∧
    (0x20000 : Dword).toNat % 8 = 0 ∧ (0x20004 : Dword).toNat % 8 ≠ 0 ∧ windowCauses warp2 0 (rwWord 2 8 8 &&& 0x0F01FFFF) = [] ∧
    (Warp.winSize (warp2.loops.get 0) = 0 ∧ (0 : Word).toNat % 256 = 0 ∧ (5 : Word).toNat % 256 ≠ 0) ∧
    (Warp.winSize (windowWarp.loops.get 0) = 8 ∧ (7 : Word).toNat % 256 < 8 ∧ ¬ (8 : Word).toNat % 256 < 8) ∧
    (∃ t, state2.team? u0 0 = some t ∧ State.gngOk warp2 t.nwarps 0 = true ∧ State.gngOk warp2 t.nwarps (7 * 2 ^ 32) = false) ∧
    (∀ x ∈ [0x010, 0x014, 0x018, 0x01C, 0x020, 0x024, 0x030, 0x031, 0x040, 0x070, 0x100, 0x17F], (BitVec.ofNat 12 x).toNat = x) ∧
    (∃ w, Issuing (trapS []) w) ∧ (trapS []).cur.slot = trapSlot ∧ ((trapS []).core u0).trap = some open0 ∧ (trapS []).execLanes all ≠ 0 ∧
    warp2.teamIdx < 2 ^ 28 ∧ u0.idx < 2 ^ 8 := by
  and_intros <;> first | decide +kernel | rfl | exact ⟨_, rfl⟩ | exact ⟨_, rfl, by decide +kernel⟩
theorem witness_SpecialRegisters_hy : (∃ w, Issuing (valued 1 0) w) ∧ ∀ l, executes (valued 1 0) all l = true →
    ((valued 1 0).srcW l 8 (Spec.wide 0x030)).toNat % 256 = 0 ∨
      ((valued 1 0).hypAt 0 (((valued 1 0).srcW l 8 (Spec.wide 0x030)).toNat % 256)).st = HEnt.opened :=
  ⟨⟨_, rfl⟩, byLanes (by decide +kernel)⟩
/-- R147, R150: k4 names the word at 0x20000, or one 4 bytes further; its phase is 0, p0 holds in lane 0 only. -/
theorem witness_MemoryHurdleForms : Issuing state2 warp2 ∧ state2.execLanes all ≠ 0 ∧ state2.execLanes none_ = 0 ∧
    (state2.rk 4).toNat % 8 = 0 ∧ ((valued 0 0x20004).rk 4).toNat % 8 ≠ 0 ∧ (valued 0 0x20004).cur.slot ≠ trapSlot ∧
    Reaches state2 .rw 8 (state2.rk 4).toNat (itself state2 0x20000) ∧ Reaches state2 .read 8 (state2.rk 4).toNat (itself state2 0x20000) ∧
    (∃ l, executes state2 all l = true ∧ state2.rp l 1 = (state2.peek 0x20000 8).testBit 63) ∧
    (∀ l, executes state2 all l = true → state2.rp l 7 ≠ (state2.peek 0x20000 8).testBit 63) ∧ state2.held u0 0 = false :=
  ⟨rfl, by decide, by decide, by decide, by decide, by decide, reaches_of (by decide), reaches_of (by decide), ⟨0, by decide⟩,
    byLanes (P := fun l => state2.rp l 7 ≠ _) (by decide), by decide⟩
/-- R178, R179: a load on its way; a line of which the agent has a copy; a page that no mapping has. -/
theorem witness_FencesAndLines : Issuing stateBusy warp2 ∧ Settled stateBusy warp2 all ∧ stateBusy.execLanes all ≠ 0 ∧ stateBusy.execLanes none_ = 0 ∧
    (∃ o ∈ stateBusy.ops, (o.unit = u0 ∧ o.slot = 0 ∧ o.path = .lsu ∧ o.lanes &&& stateBusy.execLanes all ≠ 0) ∧
      acquires .acquire = true ∧ o.kind = .load) ∧ State.settled load0 .pkg = false ∧ releases .release = true ∧
    (∀ o ∈ state2.ops, False) ∧ stateBusy.fxpBusy (stateBusy.execLanes all) 1 .pkg = true ∧
    state2.fxpBusy (state2.execLanes all) 1 .pkg = false ∧ 0x20000 ∈ state2.linesOf gl4 .b8 0 ∧
    (copied.hitCopy (unitNo u0) (0x20000 / 128)).isSome = true := by
  refine ⟨rfl, byLanes (P := fun l => warp2.hyOf l = 0 ∨ _) (by decide), ?_⟩
  decide +kernel
theorem witness_FencesAndLines_reach : state2.xlate u0 true .read 0x20000 = .ok (itself state2 0x20000) ∧
    copied.xlate u0 true .read 0x20000 = .ok (itself copied 0x20000) ∧ (∃ e, state2.xlate u0 true .read 0xC000000000 = .error e) :=
  ⟨ok_of (by decide), ok_of (by decide), ⟨⟨5, 0, 7⟩, err_of (by decide)⟩⟩

/-- R182: lanes that name hypothesis 1, which is open; 2, a child of it; 3, which is confirmed; a table with an entry that is none of its states. -/
def spoilt : State := (valued 5 5).setHyp 0 5 ⟨7, 0, 0, 0, 0⟩
def hid (s : State) (l : Nat) : Nat := (s.srcVK l (.v 8)).toNat % 256
theorem free_of {l : List Nat} {a b : Nat} (h : l.take 2 = [a, b]) : 2 ≤ l.length ∧ ∃ e more, l = e :: more := by
  match l, h with
  | x :: y :: r, _ => exact ⟨by simp, _, _, rfl⟩
theorem witness_HypothesisForms_free : 2 ≤ ((valued 1 1).freeHyps 0).length ∧ ∃ e more, (valued 1 1).freeHyps 0 = e :: more :=
  free_of (a := 4) (b := 5) (by decide +kernel)
theorem witness_HypothesisForms : (∃ w, Issuing (valued 1 1) w ∧ Settled (valued 1 1) w all) ∧ (valued 1 1).execLanes all ≠ 0 ∧
    (valued 1 1).execLanes none_ = 0 ∧ (valued 1 1).cur.slot ≠ trapSlot ∧
    (∀ l, executes (valued 1 1) all l = true → hid (valued 1 1) l = 0 ∨ ((valued 1 1).hypAt 0 (hid (valued 1 1) l)).st = HEnt.opened) ∧
    (∀ l, executes (valued 3 3) all l = true → hid (valued 3 3) l ≠ 0 ∧ (valued 3 3).hypBad 0 (hid (valued 3 3) l) = false ∧
      ((valued 3 3).hypAt 0 (hid (valued 3 3) l)).st ≠ HEnt.opened) ∧
    (∀ l, executes (valued 1 1) all l = true → (valued 1 1).hnewCause 0 (hid (valued 1 1) l) = none) ∧
    Bits.count ((valued 1 1).execLanes all) = 2 ∧ (valued 1 1).hypBad 0 1 = false ∧ spoilt.hypBad 0 5 = true :=
  ⟨⟨_, rfl, byLanes (P := fun l => Warp.hyOf _ l = 0 ∨ _) (by decide)⟩, by decide, by decide, by decide, byLanes (by decide +kernel),
    byLanes (by decide +kernel), byLanes (by decide +kernel), by decide,
    by decide +kernel, by decide +kernel⟩
theorem witness_HypothesisForms_walk : ∀ l, executes (valued 2 0) all l = true →
    ∀ e ∈ (valued 2 0).ancWalk 0 1 256 (((valued 2 0).rv l 8).toNat % 256), (valued 2 0).hypBad 0 e = false :=
  byLanes (by decide +kernel)

/-- R192: GNG names warps 0 and 1. -/
def stateGng : State := stateG.modWarp u0 0 fun w => { w with gng := 0x200000020 }
def warpGng : Warp := { warpG with gng := 0x200000020 }
def tileXlat (s : State) (l a : Nat) : Xlat :=
  match s.xlate u0 true .read a with | .ok x => x | .error _ => ⟨l, 0, false, false, 0, 0, 0, 0, 0⟩
def rowsReach (s : State) (need : Need) : Bool := (List.range 32).all fun l =>
  !executes s all l || (State.rowPieces (s.tileEa gl4 l)).all fun p => reachesB s need 4 p.1 (tileXlat s l p.1)
theorem rows_of {s need} (e : rowsReach s need = true) : ∀ l, executes s all l = true → ∀ p ∈ State.rowPieces (s.tileEa gl4 l),
    Reaches s need 4 p.1 (tileXlat s l p.1) := fun l hl p hp => by
  have h32 : l < 32 := by simp [executes] at hl; exact hl.1.1
  have := List.all_eq_true.mp e l (List.mem_range.mpr h32)
  simp [hl] at this
  exact reaches_of (this p.1 p.2.1 p.2.2 hp)
theorem witness_GangForms : Issuing stateGng warpGng ∧ stateGng.execLanes all ≠ 0 ∧ stateGng.execLanes none_ = 0 ∧
    stateGng.slotTiles u0 0 = true ∧ Issuing state2 warp2 ∧ state2.slotTiles u0 0 = false ∧ stateG.slotTiles u0 0 = true ∧
    Bits.field warpG.gng.toNat 32 3 = 0 ∧ state2.cur.slot ≠ trapSlot ∧
    (∃ t, stateGng.team? u0 warpGng.team = some t ∧ State.gngOk warpGng t.nwarps ((stateGng.rk 9) &&& 0x73FFFFFFF).toNat = true ∧
      State.gngOk warpGng t.nwarps (0x700000000 &&& 0x73FFFFFFF : Dword).toNat = false) ∧
    (∀ l ∈ (stateGng.core u0).latches, l.id < stateGng.nextId) ∧ (stateGng.core u0).latches = [] ∧
    (let n := Bits.field warpGng.gng.toNat 32 3
     let listed := if n = 0 then [warpGng.widx] else (List.range n).map fun j => Bits.field warpGng.gng.toNat (5 * j) 5
     ∃ x ∈ listed, x ≠ warpGng.widx) ∧
    (∀ l, executes stateGng all l = true → ∀ p ∈ State.rowPieces (stateGng.tileEa gl4 l), Reaches stateGng .read 4 p.1 (tileXlat stateGng l p.1)) ∧
    (∀ l, executes stateGng all l = true → ∀ p ∈ State.rowPieces (stateGng.tileEa gl4 l), Reaches stateGng .write 4 p.1 (tileXlat stateGng l p.1)) ∧
    (∀ l, executes stateGng all l = true → ReachesScr stateGng .sp 4 128 (stateGng.eaOf ⟨.sp, 6, .short 0⟩ 4 l) u0 (some teamG)) ∧
    (0x1003C : Nat) < 2 ^ 64 ∧ 0x1003C % 4 = 0 :=
  ⟨rfl, by decide, by decide, by decide, rfl, by decide, by decide, by decide, by decide, ⟨teamG, rfl, by decide⟩, by decide, by decide, by decide,
    rows_of (by decide +kernel), rows_of (by decide +kernel), byLanes fun l e => by revert l; unfold ReachesScr; decide, by decide⟩
/-- R192, R194: a latch of two warps in which the other warp's part lies, and that part whole with a format block of zeros. -/
def partOf1 : LatchEnt := { (default : LatchEnt) with widx := 1, instr := .mma h0 ⟨.row, 3⟩ 8 4 0 false false, gng := 0x200000020, fb := 0x40000 }
def latch2 (more : List LatchEnt) : Latch := ⟨7, 0, [0, 1], 0, [partOf1] ++ more, false, []⟩
def joining : State := { stateGng.modCore u0 fun c => { c with latches := [latch2 []] } with nextId := 8 }
theorem witness_GangForms_latch : Issuing joining warpGng ∧ joining.execLanes all ≠ 0 ∧
    (joining.core u0).latches.find? (fun l => !l.full && l.team == warpGng.team && l.list_.contains warpGng.widx &&
      (State.latchPart l warpGng.widx).isNone) = some (latch2 []) ∧
    (∀ l ∈ (joining.core u0).latches, l.id = (latch2 []).id → l = latch2 []) ∧
    State.gangAgrees (latch2 [{ partOf1 with widx := 0, instr := .mma h0 ⟨.row, 4⟩ 8 4 0 false false }]) = true ∧
    (match joining.latchBlock u0 (latch2 [{ partOf1 with widx := 0, instr := .mma h0 ⟨.row, 4⟩ 8 4 0 false false }]) with | .ok _ => true | .error _ => false) = true :=
  ⟨rfl, by decide, by decide +kernel, by decide, by decide +kernel, by decide +kernel⟩

/-- R202: records of 16 and of 1 F32 elements of a tile's scratchpad (1, 3), of an accumulator (2), of memory (4). -/
def sqs : Tab Dword :=
  [(9, 0x41), (10, 0x1000010), (17, 0x242), (18, 0x1000001), (19, 0x1000001), (20, 0x1000001), (25, 0x41), (26, 0x1000001),
   (32, 0x30000), (33, 0x40), (34, 0x1000010)]
/-- A group of two tiles at 0x30000, k8 its address; k4 an address, k6 an image's. -/
def stateE : State :=
  { (begin_ fun _ => { warp2 with k := [(4, 0x20000), (6, 0x40000), (8, 0x30000)] }).modCore u0 fun c => { c with sq := sqs } with
    mem := [(0x30000, 2), (0x3000C, 0x10)] }
def cmdOk (i : Instr) (e : EFields) (rb : Bool) : Bool := decide ((stateE.readCmd i (stateE.execLanes all) e rb).2 = ([], none))
def badCmd (i : Instr) (rb : Bool) (x : Nat) : Bool := decide ((stateE.readCmd i (stateE.execLanes all) e0 rb).2 = ([x], none)) && decide (1 ≤ x)
def v11 : EFields := { e0 with sa := 1, sb := 1, sd := 1, q := 1 }
def stateFull : State := stateE.modCore u0 fun c => { c with
  eng := { c.eng with queues := [(0, List.replicate 32 default), (1, List.replicate 32 default), (2, List.replicate 32 default)] } }
theorem witness_EngineCommandsQueue : (∃ w, Issuing stateE w) ∧ stateE.execLanes all ≠ 0 ∧ stateE.execLanes none_ = 0 ∧ stateE.cur.slot ≠ trapSlot ∧
    cmdOk (.emm all { e0 with sa := 1, sb := 1, sd := 2 } false false) { e0 with sa := 1, sb := 1, sd := 2 } true = true ∧
    cmdOk (.evx all v11 .fadd false) v11 true = true ∧ cmdOk (.ered all { v11 with sd := 3, sb := 0 } .fadd) { v11 with sd := 3, sb := 0 } false = true ∧
    cmdOk (.coll all { v11 with q := 2, sb := 0, d := 8 } .allred .fadd) { v11 with q := 2, sb := 0, d := 8 } false = true ∧
    cmdOk (.ecpy all { e0 with q := 2, sa := 4, sd := 4 } 0 false) { e0 with q := 2, sa := 4, sd := 4 } false = true ∧
    badCmd (.emm all e0 false false) true Cause.rsvrec = true ∧ badCmd (.evx all e0 .fadd false) true Cause.rsvrec = true ∧
    badCmd (.ered all e0 .fadd) false Cause.rsvrec = true ∧ badCmd (.ecpy all e0 0 false) false Cause.rsvrec = true ∧
    (∀ q < 3, stateE.hasQueueRoom q = true) ∧ (∀ q < 3, stateFull.hasQueueRoom q = false) ∧
    stateE.formatBlock u0 true 1 0x40000 = .ok (List.replicate 8 0) := by
  and_intros <;> first | decide +kernel | rfl | exact ⟨_, rfl⟩
def noted : State := stateE.setCnt u0 ⟨0, 3, 2, 1⟩
/-- R216: at 0x40000, the address in k6, the image of an EMODE, or a word that is no engine command; the queue frozen. -/
def imaged (w : Dword) : State := { stateE with mem := memPut stateE.mem 0x40000 (Bits.toBytes w.toNat 8) }
def frozen (w : Dword) : State := (imaged w).modEng u0 fun e => { e with frozen := e.frozen.set 0 true }
def dwordAt (s : State) (a i : Nat) : Nat :=
  match s.xlate u0 (s.cur.slot != trapSlot) .read (a + 8 * i) with | .ok x => s.peek x.pa 8 | .error _ => 0
def modeWord : Dword := ((encode (.emode h0 e0 .rne)).getD (0, none)).1
theorem witness_EngineNotesAndImages : (∃ w, Issuing stateE w) ∧ stateE.execLanes all ≠ 0 ∧ stateE.execLanes none_ = 0 ∧
    Reaches stateE .read 64 (stateE.rk 4).toNat (itself stateE 0x20000) ∧
    (∀ q ∈ (List.range 4).filter fun q => (3 : BitVec 6).getLsbD q, stateE.hasQueueRoom q = true) ∧
    (∃ q ∈ (List.range 4).filter fun q => (3 : BitVec 6).getLsbD q, stateFull.hasQueueRoom q = false) ∧
    (let t := stateE.tagCnt u0 0 3; t.issued ≤ t.raised) ∧ (let t := noted.tagCnt u0 0 3; t.raised < t.issued) ∧
    stateE.imageBad (stateE.rk 6).toNat .write 0 = none ∧ stateE.imageBad (stateE.rk 6).toNat .write 2 = none ∧
    stateE.imageBad (stateE.rk 6).toNat .read 0 = none ∧ dwordAt stateE 0x40000 0 = 0 := by
  refine ⟨⟨_, rfl⟩, by decide, by decide, reaches_of (by decide), ?_⟩
  and_intros <;> decide
theorem witness_EngineNotesAndImages_image : dwordAt (imaged modeWord) 0x40000 0 ≠ 0 ∧
    (∃ c, ofImage ((List.range 40).map (dwordAt (imaged modeWord) 0x40000)) 0 ((imaged modeWord).newCmd default 3) = some c ∧
      (imaged modeWord).cmdCauses c = ([], none)) ∧
    (imaged modeWord).engFrozen u0 0 = false ∧ (imaged modeWord).hasQueueRoom 0 = true ∧ (frozen modeWord).engFrozen u0 0 = true ∧
    dwordAt (imaged 1) 0x40000 0 ≠ 0 ∧ (imaged 1).cur.slot ≠ trapSlot ∧
    ofImage ((List.range 40).map (dwordAt (imaged 1) 0x40000)) 0 ((imaged 1).newCmd default 3) = none := by
  refine ⟨by decide +kernel, ⟨_, rfl, by decide +kernel⟩, by decide, by decide, by decide, by decide +kernel, by decide, by decide +kernel⟩
/-- R221: k9 holds a range of the grant; channel 5 armed by a team that is not the path's. -/
def ranged (x : Dword) (own : Nat) : State :=
  (stateG.modWarp u0 0 fun w => { w with k := [(9, x)] }).modCore u0 fun c => { c with
    chans := [(5, { (default : Chan) with st := .armed, team := own })] }
theorem witness_CopyChannels : (∃ w, Issuing (ranged 0x10000000000 0) w) ∧ (ranged 0x10000000000 0).execLanes all ≠ 0 ∧
    (ranged 0x10000000000 0).execLanes none_ = 0 ∧
    (let s := ranged 0x10000000000 0
     let lo := (s.rk 9).toNat % 2 ^ 32
     let hi := (s.rk 9).toNat / 2 ^ 32
     lo % 128 = 0 ∧ hi % 128 = 0 ∧ lo < hi ∧ hi ≤ s.chanSize ∧ s.chanTaken 5 = false ∧ s.chanTaken 4 = false) ∧
    ¬ ((ranged 0x4000000000 0).rk 9).toNat / 2 ^ 32 % 128 = 0 ∧ (ranged 0x10000000000 1).chanTaken 5 = true ∧
    (ranged 0x10000000000 1).cur.slot ≠ trapSlot := by
  refine ⟨⟨_, rfl⟩, ?_⟩; decide

/-- R298: microcode loaded; a zero block at 0x40000 is a descriptor that keeps to its rules, one at 0x30000 does not; the
first n raster slots busy. -/
def coreG (n : Nat) : State :=
  stateE.modCore u0 fun c => { c with
    cstores := [(0, { n := 4, words := [] }), (1, { n := 4, words := [] }), (2, { n := 4, words := [] })]
    gslots := (List.range n).map fun i => (256 * GUnit.raster.code + i, some { (default : GSlot) with st := if i = 0 then .ended else .running }) }
/-- v8 of lane 0 and of lane 1 are handles of raster slots. -/
def stateQ (a b : Nat) : State :=
  (coreG 2).modWarp u0 0 fun w => { w with v := (w.v.set 8 (gHandle u0 .raster a)).set 264 (gHandle u0 .raster b) }
def blockOk (s : State) (a : Dword) (al c : Nat) (ds : List Dword) : Bool := match s.trvBlock a al c with | .ok x => decide (x = ds) | .error _ => false
theorem block_of {s a al c ds} (e : blockOk s a al c ds = true) : s.trvBlock a al c = .ok ds := by
  unfold blockOk at e; split at e <;> simp_all
def zeros : List Dword := List.replicate 8 0
def slotAt (s : State) (l : Nat) : GUnit × Nat × GSlot := (s.handleSlotOf (s.rv l 8)).getD (.trav, 0, default)
theorem witness_TraceForms : (∃ w, Issuing (coreG 31) w) ∧ (coreG 31).execLanes all ≠ 0 ∧ (coreG 31).execLanes none_ = 0 ∧
    (coreG 31).cur.slot ≠ trapSlot ∧ ((stateE.core u0).cstores.get 1).n = 0 ∧ (((coreG 31).core u0).cstores.get 1).n ≠ 0 ∧
    (coreG 31).trvBlock ((coreG 31).rk 6) 64 Cause.tracedesc = .ok zeros ∧ traceDescOk zeros = true ∧
    ((coreG 31).freeGslots u0 .raster).length < (Bits.lanes ((coreG 31).execLanes all)).length ∧
    (Bits.lanes ((coreG 31).execLanes half)).length ≤ ((coreG 31).freeGslots u0 .raster).length ∧
    (coreG 31).trvBlock ((coreG 31).rk 8) 64 Cause.tracedesc = .ok ([2, 0x1000000000] ++ List.replicate 6 0) ∧
    traceDescOk ([2, 0x1000000000] ++ List.replicate 6 0) = false ∧
    ([3, 5, 9] : List Nat).Nodup ∧ 2 ≤ ([3, 5, 9] : List Nat).length := by
  and_intros <;> first | decide +kernel | exact ⟨_, rfl⟩ | exact block_of (by decide +kernel)
theorem witness_TraceForms_query : (∃ w, Issuing (stateQ 0 1) w) ∧
    (∀ l, executes (stateQ 0 1) all l = true → (stateQ 0 1).handleSlotOf ((stateQ 0 1).rv l 8) = some (slotAt (stateQ 0 1) l)) ∧
    (∃ l, executes (stateQ 0 1) all l = true ∧ (slotAt (stateQ 0 1) l).2.2.st ≠ .ended) ∧
    (∀ l, executes (stateQ 0 0) all l = true → (slotAt (stateQ 0 0) l).2.2.st = .ended ∧ (slotAt (stateQ 0 0) l).2.2.cause = 0) ∧
    (∀ l, executes (stateQ 2 3) all l = true → (stateQ 2 3).handleSlotOf ((stateQ 2 3).rv l 8) = none) ∧ (stateQ 2 3).cur.slot ≠ trapSlot :=
  ⟨⟨_, rfl⟩, byLanes (by decide), ⟨1, by decide⟩, byLanes (by decide), byLanes (by decide), by decide⟩

/-- R309: at 0x30000, the address in k8, a texture of one texel at 0x20000; at 0x40000 no texture. The coordinates in v8:9 are 0. -/
def texBlock : List Dword := [0x20000, 0x10001] ++ List.replicate 6 0
def texS : State := { stateE with mem := [(0x30002, 2), (0x30008, 1), (0x3000A, 1)] }
def tex1 : TexDesc := ⟨0x20000, 1, 1, 1, 0, 0, 0, false, false, 0, 0⟩
def sampled (gather l : Nat) : TexRec := ⟨(texS.rv l 8).toNat, (texS.rv l 9).toNat, 0, gather, [20, 21, 22, 23], tex1⟩
def tapAt (p : TexTap) : Nat := tex1.addr p.level p.i p.j % 2 ^ 64
def tapsReach (gather : Nat) : Bool := (List.range 32).all fun l =>
  (sampled gather l).taps.all fun p => reachesB texS .read tex1.texel (tapAt p) (tileXlat texS l (tapAt p))
theorem witness_TextureAndOrderForms : (∃ w, Issuing texS w) ∧ texS.execLanes all ≠ 0 ∧ texS.execLanes none_ = 0 ∧ texS.cur.slot ≠ trapSlot ∧
    texS.trvBlock (texS.rk 8) 64 Cause.texdesc = .ok texBlock ∧ texDesc? (fun i => (texBlock.getD i 0).toNat) = some tex1 ∧
    texS.trvBlock (texS.rk 6) 64 Cause.texdesc = .ok zeros ∧ texDesc? (fun i => (zeros.getD i 0).toNat) = none ∧
    texLod tex1 true 0 = some 0 ∧ texLod tex1 false 0 = some 0 ∧ texS.quadLambda 8 tex1 0 = 0 ∧ texS.quadLambda 8 tex1 1 = 0 ∧ tapsReach 0 = true ∧ tapsReach 1 = true ∧
    texS.trvBlock (texS.rk 6) 1 Cause.refitdesc = .ok zeros ∧ refitDescOk zeros = true ∧ texS.freeFslot 0 = none ∧
    stateH.trvBlock (stateH.rk 9) 1 Cause.refitdesc = .ok zeros ∧ stateH.freeFslot 0 = some 0 := by
  and_intros <;> first | decide +kernel | exact ⟨_, rfl⟩ | exact block_of (by decide +kernel)
/-- R311: tickets 0 and 1 are those of the two lanes, with keys of their own or the same. -/
def ticketed (k1 : Word) : State :=
  (begin_ fun _ => { warp2 with v := [(8, 0), (264, 1), (9, 7), (265, 7)] }).modSlice 0 0 fun sl => { sl with
    ilock := [(0, some ⟨5, 1, 2, u0, 0, 0, 0, 0⟩), (1, some ⟨k1, 2, 2, u0, 0, 1, 0, 0⟩)] }
def ilockAt (s : State) (l : Nat) : ILock := (s.ticketOf l (s.rv l 8)).getD default
theorem witness_TextureAndOrderForms_order : (∃ w, Issuing (ticketed 5) w) ∧
    (∀ l, executes (ticketed 5) all l = true → (ticketed 5).ticketOf l ((ticketed 5).rv l 8) = some (ilockAt (ticketed 5) l)) ∧
    (∃ l, executes (ticketed 5) all l = true ∧ (ticketed 5).earlierOpen (ilockAt (ticketed 5) l) = true) ∧
    (∀ l, executes (ticketed 6) all l = true → (ticketed 6).earlierOpen (ilockAt (ticketed 6) l) = false) ∧
    (∀ l, executes (ticketed 5) all l = true → (ticketed 5).ticketOf l ((ticketed 5).rv l 9) = none) ∧ (ticketed 5).cur.slot ≠ trapSlot :=
  ⟨⟨_, rfl⟩, byLanes (by decide), ⟨1, by decide⟩, byLanes (by decide), byLanes (by decide), by decide⟩

/-- R292 to R295: a slot at microword 0 of a store of four, with room on its stack or none. -/
def micro (stack : List Word) (f : GSlot → GSlot) : State :=
  { coreG 0 with mcur := ⟨u0, .trav, 0⟩ }.setGslot u0 .trav 0
    (some (f { (default : GSlot) with m := [(1, 6), (2, 7), (7, 0x40000000)], st := .running, stack := stack, unit := u0 }))
def m0 : Micro := ⟨1, 2, 3, 4, false, false, false, 0⟩
def gOf (s : State) : GSlot := (s.gslot s.mcur.unit s.mcur.g s.mcur.slot).getD default
theorem witness_MicrowordArithmetic : (micro [] id).gslot u0 .trav 0 = some (gOf (micro [] id)) ∧
    (let flag := fun (i : BitVec 6) => i.toNat = 7 ∨ (gOf (micro [] id)).f.getLsbD i.toNat = true
     flag 7 ∧ ¬ flag 0) ∧ (6 : BitVec 6).toNat < 7 := ⟨rfl, by decide⟩
def mapsB (s : State) (a : Nat) : Bool := match s.xlate u0 true .read a with | .ok _ => true | .error _ => false
theorem witness_MicrowordControl : (micro [5] id).gslot u0 .trav 0 = some (gOf (micro [5] id)) ∧ (gOf (micro [5] id)).stack.length < 64 ∧
    64 ≤ (gOf (micro (List.replicate 64 0) id)).stack.length ∧ (gOf (micro [] id)).stack = [] ∧
    (3 : BitVec 16).toNat < (micro [] id).mcount ∧ (micro [] id).mcount ≤ (4 : BitVec 16).toNat ∧ (gOf (micro [] id)).bq = 0 ∧
    (48 : BitVec 6).toNat ≤ 48 ∧ 48 < (49 : BitVec 6).toNat ∧ (56 : BitVec 6).toNat ≤ 56 ∧ 56 < (57 : BitVec 6).toNat ∧
    (60 : BitVec 6).toNat ≤ 60 ∧ 60 < (61 : BitVec 6).toNat ∧ (60 : BitVec 6).toNat + (4 : BitVec 16).toNat ≤ 64 ∧
    64 < (60 : BitVec 6).toNat + (5 : BitVec 16).toNat ∧
    mapsB (micro [] id) 0x180 = true ∧ mapsB (micro [] id) 0x1BF = true ∧
    mapsB (micro [] id) (0xC000000000 + 0x180) = false ∧
    fcond .lt (Num.decodeF Num.f32 6) (Num.decodeF Num.f32 0x40000000) = true ∧
    fcond .lt (Num.decodeF Num.f32 0x40000001) (Num.decodeF Num.f32 0x40000000) = false ∧
    (gOf (micro [] id)).waitAt = 0 ∧ (gOf (micro [] fun g => { g with waitAt := 3, any := true })).waitAt ≠ 0 := by
  refine ⟨rfl, ?_⟩
  decide +kernel
/-- R155, R311: the starting lane's store is not performed, or nothing of its is out. -/
theorem witness_MicrowordControl_records :
    (let s := { micro [] id with ops := [{ load0 with kind := .store }] }
     s.ownerHere u0 0 0 = true ∧ s.lsuBusy u0 0 (Bits.lane 0) = true) ∧
    (micro [] id).lsuBusy u0 0 (Bits.lane 0) = false ∧
    ((micro [] id).warp u0 0).isSome = true := by and_intros <;> decide +kernel

-- events

/-- One result in flight, two registers of it, under token 1. -/
def pend9 : Pend := ⟨9, 0x10000, 3, false, some 1, 0, [⟨.v, 8, 0, 5⟩, ⟨.p, 2, 1, 1⟩], [], [], 3⟩
def flying : Warp := { warp2 with pend := [pend9], tok := [(1, 1)] }
/-- R25 to R30: a bin whose deadline has come, one that is full; a spawned warp and a task that wait for a slot. -/
def binB (n thr : Nat) : Bin := { (default : Bin) with key := 0x20000, thr := thr, slots := List.range n }
def task0 : TaskEnt := { (default : TaskEnt) with entry := 0x20000, handle := live_, prio := 1, eff := 1 }
def waitingWork : State :=
  { stateH.modCore u0 fun c => { c with
      bins := [(0, some (binB 1 4)), (1, some (binB 4 4))] } with
    slices := stateH.slices.modify 0 fun sl => { sl with pending := [⟨.sc, 0, 0x20000, 4, [0], 0⟩] } }.modCore ⟨.tt, 0, 0⟩ fun c => { c with
      taskQ := [task0] }
/-- R139, R155, R158: paths that sleep, wait for registers or for a pool slot; lanes due for a park. -/
def path0 (t : Wait) : Path := ⟨0x10000, 3, none, 0, t⟩
def idle (t : Wait) : Warp := { warp2 with paths := [path0 t] }
def waiting0 (t : Wait) : State := begin_ fun _ => idle t
def req0 (n : Nat) : RegxReq := ⟨0, 0, 3, n, 2, 8⟩
def asking (n : Nat) : State := (begin_ fun _ => { idle .regx with gran := 4 }).modCore u0 fun c => { c with regxQ := [req0 n] }
def latch0 (full : Bool) : Latch := ⟨7, 0, [0, 1], 0, [], full, []⟩
def latched (full : Bool) : State :=
  { state2.modCore u0 fun c => { c with latches := [latch0 full] } with dies := state2.dies.modify 0 fun x => { x with pace := 131072 } }
/-- R380: a team whose one warp has waited at hurdle 2 since tick 0. -/
def stuckTeam : Team := { (default : Team) with nwarps := 1, stuck := some 0 }
def dead : State :=
  { (begin_ fun _ => idle (.teamHurdle 2 3)).modCore u0 fun c => { c with teams := [stuckTeam] } with
    dies := state2.dies.modify 0 fun x => { x with pace := 394 } }
/-- R382, R383: a warp whose watchdog has run out; its trap open past the context's deadline. -/
def barking : State := begin_ fun _ => { warp2 with wdTrap := true, wdcnt := 77 }
def barkingAtHurdle : State := begin_ fun _ => { idle (.teamHurdle 1 3) with wdTrap := true }
def overdue : State :=
  { (withCtx { standInCtx with deadline := 5 } state2).modCore u0 fun c => { c with trap := some { open0 with fcause := BitVec.ofNat 32 Cause.wdog } } with
    dies := state2.dies.modify 0 fun x => { x with pace := 9 } }
def poolless : State :=
  { waiting0 (.work false 3 0 0x20000 [(1, [5])] [] 0 none) with dies := state2.dies.modify 0 fun x => { x with pace := 65536 } }
/-- A path of SPAWN waits for a pool slot, and one is free. -/
def pooled : State := { waiting0 (.work false 3 0 0x20000 [(1, [5])] [] 0 none) with
  slices := binned.slices, ctxs := binned.ctxs, mem := binned.mem, cores := (binned.setWarp u0 0 (some (idle (.work false 3 0 0x20000 [(1, [5])] [] 0 none)))).cores }
theorem witness_WarpAndCoreEvents_waits : flying.pend = [pend9] ∧ pend9.hold = 0 ∧ (State.pendRegs pend9).length ≤ 16 ∧
    (∀ r ∈ pend9.res, (r.file = .v ∨ r.file = .k ∨ r.file = .p) ∧ r.lane < 32) ∧
    (idle (.sleep 0)).pathOf 0 = some (path0 (.sleep 0)) ∧ (0 : Dword).toNat ≤ (waiting0 (.sleep 0)).pace 0 ∧
    (waiting0 (.sleep 9)).pace 0 < (9 : Dword).toNat ∧ ({ warp2 with parkReq := 2 } : Warp).parkReq.getLsbD 1 = true ∧
    (({ warp2 with parkReq := 2 } : Warp).pathOf 1).isSome = true ∧ warp2.pend = [] ∧
    state2.mayRetire u0 0 { warp2 with exited := 0xFFFFFFFF } = true ∧ state2.mayRetire u0 0 warp2 = false ∧
    ((asking 4).core u0).regxQ = req0 4 :: [] ∧ (req0 4).n ≤ (asking 4).granFree u0 ∧
    (asking 600).youngest u0 = some (req0 600) ∧ (asking 600).allWait u0 = true ∧ (asking 600).granFree u0 < (req0 600).n ∧
    pooled.warp u0 0 = some (idle (.work false 3 0 0x20000 [(1, [5])] [] 0 none)) ∧ pooled.poolTake 0 = some 0 ∧
    (match pooled.spawnOne u0 true 0 0 0x20000 [5] none with | .done _ n => n == 0 | _ => false) = true ∧
    state2.poolTake 0 = none ∧ (stateH.freeFslot 0).isSome = true ∧ state2.freeFslot 0 = none := by decide +kernel
def waitingDeadline : State := stateH.modCore u0 fun c => { c with bins := [(0, some { binB 1 4 with deadline := 5 })] }
theorem witness_WorkAndWatchEvents_work :
    (∃ b, (waitingWork.core u0).bins.get 0 = some b ∧ b.slots ≠ [] ∧ b.deadline ≤ waitingWork.pace 0 ∧ b.slots.length < b.thr) ∧ (waitingDeadline.core u0).bins.get 0 = some { binB 1 4 with deadline := 5 } ∧
    waitingDeadline.pace 0 < 5 ∧ (waitingDeadline.unitSlice u0).pending = [] ∧ (waitingDeadline.unitSlice u0).ctx = some ctx2 ∧
    (∃ b, (waitingWork.core u0).bins.get 1 = some b ∧ b.thr ≤ b.slots.length) ∧ (waitingWork.unitSlice u0).st = .running ∧
    (waitingWork.slice 0 0).pending = [⟨.sc, 0, 0x20000, 4, [0], 0⟩] ∧ (waitingWork.slice 0 0).ctx = some ctx2 ∧
    (waitingWork.startSpawned 0 u0 ⟨.sc, 0, 0x20000, 4, [0], 0⟩).isSome = true ∧
    State.bestTask ((waitingWork.ageTasks ⟨.tt, 0, 0⟩).core ⟨.tt, 0, 0⟩).taskQ = some task0 ∧
    (waitingWork.unitSlice ⟨.tt, 0, 0⟩).ctx = some ctx2 ∧ waitingWork.runs ⟨.tt, 0, 0⟩ 0 = true ∧ waitingWork.freeSlots ⟨.tt, 0, 0⟩ ≠ [] := by
  refine ⟨⟨_, rfl, ?_⟩, ?_, ?_, ?_, ?_, ⟨_, rfl, ?_⟩, ?_⟩ <;> decide +kernel
theorem witness_WorkAndWatchEvents_causes : (∃ w, barking.warp u0 0 = some w ∧ w.wdTrap = true ∧ w.paths = [path0 .ready] ∧ w.due = []) ∧
    (∃ w p, barkingAtHurdle.warp u0 0 = some w ∧ w.wdTrap = true ∧ w.paths = [p] ∧ p.mask ≠ 0 ∧ w.due = [] ∧ State.atHurdle p = true) ∧
    ((latched true).core u0).latches.find? (fun l => l.id == 7) = some (latch0 true) ∧
    ((latched false).core u0).latches.find? (fun l => l.id == 7) = some (latch0 false) ∧ state2.pace 0 < (latch0 false).since + 131072 ∧
    (latch0 false).since + 131072 ≤ (latched false).pace 0 ∧
    dead.team? u0 0 = some stuckTeam ∧ dead.teamStuck u0 stuckTeam = true ∧ 0 + 10240 ≤ dead.cycles u0 ∧ state2.cycles u0 < 0 + 10240 ∧    (barking.core u0).trap = none ∧ (barking.core u0).trapQ = [] ∧ (path0 .ready).mask ≠ 0 ∧ 0 ≠ trapSlot ∧
    (∃ d o, (overdue.unitSlice u0).ctx = some d ∧ d.deadline ≠ 0 ∧ (overdue.core u0).trap = some o ∧
      o.fcause.toNat % 256 = Cause.wdog ∧ o.raised + d.deadline.toNat ≤ overdue.pace 0) ∧
    (∃ w p, poolless.warp u0 0 = some w ∧ w.paths = [p] ∧ p.wait = .work false 3 0 0x20000 [(1, [5])] [] 0 none ∧ 0 + 65536 ≤ poolless.pace 0 ∧
      poolless.poolTake w.ctx = none ∧ p.mask.getLsbD 1 = true ∧ w.live.getLsbD 1 = true ∧ w.parkedLanes.getLsbD 1 = false) := by
  and_intros
  · exact ⟨_, rfl, by decide⟩
  · exact ⟨_, _, rfl, rfl, rfl, by decide⟩
  all_goals first | decide | rfl | exact ⟨_, _, rfl, by decide, rfl, by decide⟩ | exact ⟨_, _, rfl, rfl, rfl, by decide⟩

/-- One access in flight, of lane 0 of the issuing warp, to 0x20000 where byte i holds i + 1. -/
def op0 (k : OpKind) : MemOp :=
  { load0 with kind := k, ea := 0x20000, data := 0x0A0B0C0D, aop := .add, dst := if k = .store then [] else [⟨.v, 8, 0, 0⟩] }
def memS : State := { stateH with mem := [(0x20000, 1), (0x20001, 2), (0x20002, 3), (0x20003, 4)] }
def inFlight (o : MemOp) : State := { memS with ops := [o] }
/-- R239: the line's lease ends far past the package time. -/
def leasedFar (o : MemOp) : State := (inFlight o).putTs 0x20000 ⟨0x100, 0x3000⟩
def atHome (s : State) (o : MemOp) : Bool :=
  decide (s.getOp o.id = some o) && decide (s.bad = []) && !State.onExpander o.pa && s.opReady o && s.itsTurn (State.servedAt o.pa) o
def isLate (s : State) (o : MemOp) : Bool := precedes (s.pt + 0x2000) (s.storeWts o.pa (s.ptsOf o))
def tagged (st : OpStage) : MemOp := { op0 .store with tag := 1, stage := st }
def holding (w : Nat) : State := (inFlight { op0 .store with stage := .performed, wts := w }).modAgent (unitNo u0) fun a =>
  { a with copies := [(0x400, some ⟨List.replicate 128 5, 3, 9⟩)] }
def portOp (k : OpKind) : MemOp := { op0 k with owner := some u0, pa := 0x100, ea := 0x100 }
theorem part_of {s : State} (h : (s.ctxs.all fun p => p.2.pidx == 0) = true) (c : Nat) : s.ctxPart c = 0 := by
  unfold State.ctxPart State.ctxRt
  revert h
  generalize s.ctxs = l
  induction l with
  | nil => intro; rfl
  | cons p r ih =>
    intro h
    simp only [List.all_cons, Bool.and_eq_true, beq_iff_eq] at h
    simp only [Tab.get]
    split
    · exact h.1
    · exact ih h.2
theorem outside {s : State} (h : (s.ctxs.all fun p => p.2.pidx == 0) = true) (e : ∀ d < 2, s.reg d (Win.pirqa 0) = 0) : IrqOutside s :=
  fun c d hd => .inl (by rw [part_of h]; exact e d hd)
theorem irq_mem : ∀ d < 2, memS.reg d (Win.pirqa 0) = 0 := by decide
theorem witness_AccessesPerformed_outside (o : MemOp) : IrqOutside (inFlight o) := outside rfl fun d hd => irq_mem d hd
theorem witness_AccessesPerformed : (∀ k ∈ [OpKind.load, .store, .atomic, .hurdle], atHome (inFlight (op0 k)) (op0 k) = true ∧
      isLate (inFlight (op0 k)) (op0 k) = false ∧ isLate (leasedFar (op0 k)) (op0 k) = true) ∧
    (let o : MemOp := { op0 .load with leased := true, sent := true }; atHome (inFlight o) o = true ∧ o.leased = true ∧ o.sent = true) ∧
    (op0 .store).tag = 0 ∧ (op0 .store).repl = false ∧ (op0 .atomic).repl = false ∧ (op0 .load).hy = 0 ∧ (op0 .load).signed = false ∧
    atHome (inFlight (tagged .issued)) (tagged .issued) = true ∧ (tagged .issued).tag ≠ 0 ∧
    (inFlight (tagged .issued)).verRoom 0 1 0x20000 = true ∧ (inFlight (tagged .waitSpace)).getOp 7 = some (tagged .waitSpace) ∧
    (inFlight (tagged .waitSpace)).verRoom 0 1 0x20000 = true ∧
    (inFlight { op0 .load with stage := .performed }).getOp 7 = some { op0 .load with stage := .performed } ∧
    (∀ k ∈ [OpKind.load, .store, .atomic, .hurdle],
      (inFlight { op0 k with stage := .performed }).inTurn { op0 k with stage := .performed } = true) ∧
    ((inFlight (op0 .store)).agent (unitNo u0)).copies.get (0x20000 / 128) = none ∧
    ((holding 9).agent (unitNo u0)).copies.get (0x20000 / 128) = some ⟨List.replicate 128 5, 3, 9⟩ ∧
    (precedes 2 3 = true ∧ precedes 9 3 = false) ∧
    (let o : MemOp := { op0 .store with stage := .waitSpace }; o.since + 4096 ≤ ((inFlight o).modDie 0 fun x => { x with pace := 4096 }).pace 0) ∧
    (∀ k ∈ [OpKind.scrLoad, .scrStore, .scrAtomic], (portOp k).owner = some u0 ∧ (inFlight (portOp k)).ordReady (portOp k) = true ∧
      (inFlight (portOp k)).wmWaits u0 (portOp k).team (portOp k).ea.toNat (portOp k).n = false) ∧
    (let o : MemOp := { op0 .load with pa := 0xC000000000 }; State.onExpander o.pa = true ∧ (inFlight o).opReady o = true ∧
      (inFlight o).itsTurn (State.servedAt o.pa) o = true) := by decide +kernel
theorem witness_AccessesPerformed_words :
    (let x := 5 * 2 ^ 32 + 2
     (2 + x % 2 ^ 32 < x / 2 ^ 32 % 2 ^ 31) ∧ x < 2 ^ 64 ∧ 3 + x % 2 ^ 32 < 2 ^ 32 ∧ x / 2 ^ 32 % 2 ^ 31 ≤ 3 + x % 2 ^ 32) ∧
    ((32 = 32 ∨ 32 = 64) ∧ 0xFFFFFFFF < 2 ^ 32 ∧ (BitVec.ofNat 32 0xFFFFFFFF).toInt ≤ (BitVec.ofNat 32 1).toInt ∧
      (BitVec.ofNat 32 0x80000000).toInt < (BitVec.ofNat 32 0).toInt) := by decide

/-- R242: a store to a replicated page, not stamped yet; R244: an update from die 1, its answers awaited; package time due. -/
def replOp : MemOp := { op0 .store with repl := true }
def upd0 (stamper : Nat) : UpdateMsg := ⟨0x20000, [(0, 0x55)], (List.replicate 16 0).set stamper 1, stamper, 0, stamper⟩
def homeUpd0 (w : List Nat) : HomeUpd := ⟨0x20000, 0, [], w, some 7, none, 0⟩
def replS : State :=
  { inFlight replOp with
    dies := (memS.dies.modify 0 fun x => { x with
      upd := [upd0 1, ⟨0x20000, [], List.replicate 16 5, 1, 0, 1⟩], homeUpd := [homeUpd0 [0, 1]], pace := 256, win := x.win.set Win.dtcfg (some 0x10000) }) }
theorem witness_ReplicasAndMergedReads_replicas : State.agentNos.contains (unitNo u0) = true ∧ replS.ptSent + 256 ≤ max (replS.pace 0) (replS.pace 1) ∧
    (∀ o ∈ replS.ops, o.stage ≠ .waitPt) ∧ max (memS.pace 0) (memS.pace 1) < memS.ptSent + 256 ∧
    replS.getOp 7 = some replOp ∧ replOp.repl = true ∧ replOp.tag = 0 ∧ replOp.vc = [] ∧ replS.opReady replOp = true ∧
    replS.replHome (homeDie replOp.pa) (replS.partOf u0) replOp.pa = replS.domNo (homeDie replOp.pa) ∧
    (replS.die (homeDie replOp.pa)).fenced.contains (.die (replS.domNo (homeDie replOp.pa))) = false ∧
    (replS.reg 0 Win.dtcfg).toNat.testBit 16 = true ∧ (upd0 0).home = replS.domNo 0 ∧
    ((replS.modDie 0 fun x => { x with fenced := [.die 1] }).die 0).fenced.contains (.die (upd0 1).home) = true ∧
    (replS.die 0).upd[0]? = some (upd0 1) ∧ replS.canApply 0 (upd0 1) = true ∧ replS.firstReady 0 = some 0 ∧ replS.firstReady 0 ≠ some 1 ∧
    (replS.die 0).atomQ = [] ∧
    (replS.die 0).upd[1]? = some ⟨0x20000, [], List.replicate 16 5, 1, 0, 1⟩ ∧ replS.canApply 0 ⟨0x20000, [], List.replicate 16 5, 1, 0, 1⟩ = false ∧
    (replS.die 0).homeUpd = homeUpd0 [0, 1] :: [] ∧ 1 ∈ (homeUpd0 [0, 1]).waiting ∧ ((homeUpd0 [0, 1]).waiting.filter fun x => x != 1) ≠ [] ∧
    (homeUpd0 [1]).waiting = [1] ∧ (homeUpd0 [1]).op = some 7 ∧ replOp.kind ≠ .hurdle ∧
    (replS.holds 0 (replS.entryOf 0 0) 0x20000 = false ∨ homeDie 0x20000 ≠ 0) := by decide +kernel
/-- R170 to R173: an LDM of two lines; a window that may close, one that is still open, a multicast; a beat that arrives. -/
def ldm0 : MemOp := { op0 .ldm with pa := 0x20000, n := 256, line := 2, owner := some ⟨.tt, 0, 0⟩, data := 0 }
def seg0 : Nat := homeNo 0x20000
def win0 (at_ : Nat) (o : Bool) (n : Nat) : Window :=
  { (default : Window) with
    id := 3, slice := seg0, ctx := memS.partOf u0, pa := 0x20000, lines := 2, closesAt := at_, opened := o, members := [7], next := n
    beats := if o then [] else [[1], [2]], addrs := [0x20000, 0x20040] }
def windowS (w : Window) : State := { inFlight ldm0 with windows := [w], beats := [⟨7, 0x20000, List.replicate 64 5⟩] }
theorem witness_ReplicasAndMergedReads_ldm : (inFlight ldm0).getOp 7 = some ldm0 ∧ ldm0.kind = .ldm ∧ seg0 ∉ ldm0.vc ∧
    State.segment ldm0.pa (ldm0.n / 128) seg0 ≠ [] ∧ (inFlight ldm0).ldmClear ldm0 = true ∧ (inFlight ldm0).waitsReg ldm0 = false ∧
    (inFlight ldm0).lostPa u0.die ldm0.pa = false ∧ (inFlight ldm0).windows = [] ∧ (inFlight ldm0).itsTurn seg0 ldm0 = true ∧ seg0 < 64 ∧
    (win0 0 false 0).next < (win0 0 false 0).beats.length ∧ ((ldm0.unit, ldm0.slot) ∉ (win0 0 false 0).tainted) ∧
    (let o : MemOp := { ldm0 with pa := 0xC000000000 }
     64 ≤ State.servedAt o.pa ∧ State.segment o.pa 2 (State.servedAt o.pa) ≠ [] ∧ (inFlight o).ldmClear o = true ∧
       (inFlight o).itsTurn (State.servedAt o.pa) o = true) ∧
    (windowS (win0 0 true 0)).windows = [win0 0 true 0] ∧ (win0 0 true 0).opened = true ∧ (win0 0 true 0).ctx = (inFlight ldm0).partOf ldm0.unit ∧
    (windowS (win0 0 true 0)).ldmClear ldm0 = true ∧ (windowS (win0 0 true 0)).waitsReg ldm0 = false ∧
    (windowS (win0 0 true 0)).lostPa u0.die ldm0.pa = false ∧
    (win0 0 true 0).closesAt ≤ (windowS (win0 0 true 0)).pace (State.placeDie seg0) ∧ (windowS (win0 9 true 0)).pace (seg0 / 32) < (win0 9 true 0).closesAt ∧
    (win0 0 false 0).late = [] ∧ (win0 0 false 0).next + 1 < (win0 0 false 0).beats.length ∧
    (win0 0 false 1).beats.length ≤ (win0 0 false 1).next + 1 ∧ 1 < ldm0.line ∧ ({ ldm0 with line := 1 } : MemOp).line ≤ 1 ∧
    ldm0.owner = some ⟨.tt, 0, 0⟩ := by decide +kernel

/-- R233, R234: an invalidation that waits for an access of its die; a unit without a context. -/
def invalS (o : Option MemOp) : State :=
  { memS.modDie 0 fun x => { x with inval := some (5, 9), tlb := [(0, [⟨0, 0, 0, 0x20000, 0x20000, 12, 0, 0, false, 0x20000, false, false, 0, 0, false⟩])] } with
    ops := o.toList, plat := { memS.plat with ready := true } }
def walkOk (s : State) (va : Nat) : Bool := match walkBoth s 0 ctx2 0 false .read va with | .ok x => decide (x.bits < 64) | .error _ => false
def sv39 : CtxDesc := { ctx2 with satpMode := 8, root := 0x60 }
/-- A context whose table at 0x60000 leads to one at 0x61000 that maps the first gigabyte to itself, with every permission. -/
def paged : State := { withCtx sv39 memS with mem := [(0x60000, 0x01), (0x60001, 0x84), (0x60002, 0x01), (0x61000, 0xDF)] }
def xlatOf (r : Except TFault Xlat) : Xlat := match r with | .ok x => x | .error _ => default
theorem witness_TranslationAndResolves_tlb : (memS.unitSlice ⟨.sc, 1, 0⟩).ctx = none ∧ (paged.unitSlice u0).ctx = some sv39 ∧
    (match walkBoth paged 0 sv39 0 false .read 0x20000 with | .ok x => decide (x.bits < 64 ∧ x.pa = 0x20000) | .error _ => false) = true ∧
    tlbHit paged u0 sv39 0 0x20000 = none ∧ (invalS none).plat.ready = true ∧
    ((invalS none).modDie 0 fun x => { x with inval := none }).plat.ready = true ∧
    ((invalS none).die 0).inval = some (5, 9) ∧ (invalS none).ops = [] ∧ (invalS none).flits = [] ∧
    (∃ o ∈ (invalS (some load0)).ops, o.id < 9 ∧ o.unit.die = 0 ∧ o.owner = none ∧ o.stage ≠ .performed) := by decide +kernel
/-- R185, R186: a resolve of hypothesis 2 that has left, one of 0, one of 3; one that runs, of 1, its answers come or awaited;
versions under 1 and 2. -/
def res0 (h : BitVec 8) (st : ResStage) (ack : List UnitId) : Resolve := ⟨0, h, true, u0, 0, 3, 0x10000, 5, 7, st, [], ack, 0, [h.toNat], 0, []⟩
def resolving (l : List Resolve) : State := { stateH with resolves := l, vers := [⟨0, 1, 0x20000, 5⟩, ⟨0, 2, 0x20001, 6⟩] }
theorem witness_TranslationAndResolves_resolves : (resolving [res0 2 .sent []]).resolves[0]? = some (res0 2 .sent []) ∧
    (resolving [res0 2 .sent []]).resolveCause (res0 2 .sent []) = none ∧
    (resolving [res0 0 .sent []]).resolveCause (res0 0 .sent []) = some Cause.hresroot ∧
    (∃ q ∈ (resolving [res0 2 .sent [], res0 1 .accepted [u0]]).resolves, q.ctx = 0 ∧ q.stage = .accepted) ∧
    (∀ w, stateH.warp u0 0 = some w → ∀ p ∈ w.paths, p.wait ≠ .memArrival 7) ∧
    (stateH.hypBad 0 3 = false ∧ (stateH.hypAt 0 3).st ≠ HEnt.opened) ∧ (stateH.hypBad 0 2 = false ∧ (stateH.hypAt 0 2).st = HEnt.opened) ∧
    (∀ q ∈ (resolving [res0 2 .sent []]).resolves, q.stage ≠ .queued) ∧ (resolving []).ops = [] ∧ (resolving []).flits = [] ∧
    (∀ r ∈ (resolving [res0 1 .accepted [u0]]).resolves, r.ctx = 0 → r.stage = .accepted → r.toAck ≠ [] ∨ r.toNotify ≠ []) ∧
    (res0 1 .accepted []).toAck = [] ∧ (res0 1 .accepted []).toNotify = [] ∧ (res0 1 .accepted []).refute = true ∧
    (stateH.hypAt 0 1).parent ≠ 1 := by
  refine ⟨by decide +kernel, by decide +kernel, by decide +kernel, by decide +kernel, fun w h p hp => ?_, ?_⟩
  · cases h
    revert p
    decide
  · decide +kernel
/-- R185, R253: a confirmed resolve whose words are merged, its stamps applied or not; one of child 2 of 1 that is to be swept. -/
def conf (st : ResStage) (posts : List Nat) : Resolve := { res0 2 st [] with refute := false, par := 1, tags := [2], posts := posts }
theorem witness_TranslationAndResolves_merges :
    (resolving [conf .merged [0, 0]]).stampsApplied ((resolving []).ctxPart 0) [0, 0] = true ∧
    (resolving [conf .merged [1, 1]]).stampsApplied ((resolving []).ctxPart 0) [1, 1] = false ∧
    (conf .accepted []).par % 256 ∉ (conf .accepted []).tags ∧ (conf .accepted []).par ≠ 0 ∧
    (resolving []).stampsApplied ((resolving []).ctxPart 0) ((resolving []).stampsNow ((resolving []).ctxPart 0)) = true ∧
    (∃ v ∈ (resolving []).vers, v.ctx = (conf .accepted []).ctx ∧ v.tag.toNat ∈ (conf .accepted []).tags) := by
  and_intros <;> decide +kernel

/-- R205, R206, R212, R220: a tile whose queues hold commands; a command's records are of 16 by 1 elements in two steps (1, the
scratchpad), and of 1 (2, the accumulators). -/
def tt0 : UnitId := ⟨.tt, 0, 0⟩
def recA : List Dword := [0, 0x241, 0x1000010, 0x1000001, 0x1000002]
def recD : List Dword := [0, 0x242, 0x1000001, 0x1000001, 0x1000001]
def cmd0 (i : Instr) : Cmd := { (default : Cmd) with id := 3, instr := i, unit := tt0, ra := recA, rb := recA, rd := recD, lanes := 1 }
def evx0 : Cmd := cmd0 (.evx all e0 .fadd false)
def queueS (q : Nat) (l : List Cmd) : State := stateE.setQueue tt0 q l
def engS (q : Nat) (c : Cmd) : State := stateE.setRunning tt0 q (some c)
def rec_ (l : List Dword) : Rec := (recOf? l).getD default
def fb_ (c : Cmd) : Num.FmtBlock := (fbOf c).getD default
def fates_ (c : Cmd) (a b d : Rec) : EFate := (engS 0 c).fates c .mtx ((engS 0 c).emmAccs c (fb_ c) false true a b d)
def isStop (f : EFate) : Bool := match f with | .stop .. => true | _ => false
def emm0 : Cmd := cmd0 (.emm all e0 false false)
def idleT (s : State) (q : Nat) : Prop :=
  tt0.kind = .tt ∧ q < 2 ∧ s.engRunning tt0 q = none ∧ s.engFrozen tt0 q = false ∧ (s.unitSlice tt0).st = .running
theorem witness_EngineAndCopyEvents_heads : (stateE.unitSlice tt0).st = .running ∧
    (idleT (queueS 1 [evx0]) 1 ∧ (queueS 1 [evx0]).engQueue tt0 1 = evx0 :: [] ∧ (∀ h d m, evx0.instr ≠ .emode h d m) ∧ evx0.timed = false) ∧
    (idleT (queueS 1 [{ evx0 with timed := true }]) 1 ∧ ({ evx0 with timed := true } : Cmd).time ≤ (queueS 1 []).pace 0) ∧
    (idleT (queueS 1 [{ evx0 with timed := true, time := 5 }]) 1 ∧ (queueS 1 []).pace 0 < 5) ∧
    (idleT (queueS 0 [cmd0 (.emode all e0 .sto)]) 0 ∧
      (queueS 0 [cmd0 (.emode all e0 .sto)]).engQueue tt0 0 = cmd0 (.emode all e0 .sto) :: [] ∧
      (cmd0 (.emode all e0 .sto)).instr = .emode all e0 .sto) := by
  unfold idleT
  refine ⟨by decide, ⟨by decide, by decide, fun h d m => ?_, rfl⟩, by decide, by decide, by decide⟩
  intro h; cases h
theorem witness_EngineAndCopyEvents_steps :
    (tt0.kind = .tt ∧ (engS 0 emm0).engFrozen tt0 0 = false ∧ (engS 0 emm0).engRunning tt0 0 = some emm0 ∧ emm0.unit = tt0 ∧
      (engS 0 emm0).engLive tt0 emm0.ctx = true ∧ fbOf emm0 = some (fb_ emm0) ∧ recOf? recA = some (rec_ recA) ∧ recOf? recD = some (rec_ recD)) ∧
    fates_ emm0 (rec_ recA) (rec_ recA) (rec_ recD) = .ok ∧ emm0.cnt2 + 1 < (emmShape (rec_ recA) (rec_ recA)).groups ∧
    (let c := { emm0 with cnt2 := 1 }
     fates_ c (rec_ recA) (rec_ recA) (rec_ recD) = .ok ∧ (emmShape (rec_ recA) (rec_ recA)).groups ≤ c.cnt2 + 1 ∧
       (emmShape (rec_ recA) (rec_ recA)).outer ≤ c.cnt3 + 1 ∧ (engS 0 c).engLive tt0 c.ctx = true) ∧
    isStop (fates_ { emm0 with ra := 0x40000000 :: recA.tail } (rec_ (0x40000000 :: recA.tail)) (rec_ recA) (rec_ recD)) = true ∧
    ((engS 1 evx0).engFrozen tt0 1 = false ∧ (engS 1 evx0).engRunning tt0 1 = some evx0 ∧ (engS 1 evx0).engLive tt0 evx0.ctx = true ∧
      fbOf evx0 = some (fb_ evx0)) ∧
    ((engS 1 (cmd0 (.ered all e0 .fadd))).engRunning tt0 1 = some (cmd0 (.ered all e0 .fadd)) ∧
      (engS 1 (cmd0 (.ered all e0 .fadd))).engLive tt0 0 = true) := by
  and_intros <;> decide +kernel

/-- R267: the same command with an operand at 0x20000, and the regulator of its class with nothing left. -/
def emmG : Cmd := { emm0 with ra := 0x20000 :: 0x240 :: recA.drop 2 }
def slow (s : State) : State :=
  s.modDie 0 fun d => { d with
    win := d.win.set (Win.qos 0 2) (some 0x0000000100000000), buckets := d.buckets.set 2 (some ⟨-1, 0, [], 0⟩) }
def emmAccs_ (s : State) (c : Cmd) : List EAcc := s.emmAccs c (fb_ c) false true (rec_ c.ra) (rec_ c.rb) (rec_ c.rd)
def isGo (f : EFate) : Bool := match f with | .ok => true | _ => false
theorem witness_EngineAndCopyEvents_meters :
    ((engS 0 emm0).engMeter emm0 .mtx (emmAccs_ (engS 0 emm0) emm0)).isSome = true ∧
    ((engS 0 emmG).engMeter emmG .mtx (emmAccs_ (engS 0 emmG) emmG)).isSome = true ∧
    isGo ((slow (engS 0 emmG)).fates emmG .mtx (emmAccs_ (slow (engS 0 emmG)) emmG)) = true ∧
    (slow (engS 0 emmG)).engMeter emmG .mtx (emmAccs_ (slow (engS 0 emmG)) emmG) = none ∧
    ((engS 1 evx0).engMeter evx0 .vec ((engS 1 evx0).recAccs evx0 .vec (rec_ recA) .read (List.range 16))).isSome = true := by
  and_intros <;> decide +kernel

/-- R213, R214: a note whose queues have passed it. R215 to R220, R226: copies from the scratchpad (2 chunks of 32 bits, or
none left) or from memory, collectives, and a copy buffer. -/
def note0 : Note := ⟨2, 0, 0, 3, 0, [(0, 2)]⟩
def notesS : State := (queueS 0 [evx0]).modEng tt0 fun e => { e with notes := [note0] }
def copy0 : Cmd := { cmd0 (.ecpy all { e0 with q := 2, d := 4 } 0 false) with id := 9, rd := 0x1000 :: recA.tail }
def copyEnd : Cmd := { copy0 with chunks := 100 }
def fromMem : Cmd := { copy0 with ra := [0x20000, 0x40, 0x1000010] }
def coll0 : Cmd := { cmd0 (.coll all { e0 with q := 2, d := 8 } .allred .fadd) with id := 9 }
def buffered (c : Cmd) : State := stateE.modEng tt0 fun e => { e with tbuf := [c] }
def gateOk (c : Cmd) : Bool := decide ((engS 2 c).chunkGate c (rec_ c.ra) (rec_ c.rd) = none)
theorem witness_EngineAndCopyEvents_copies :
    (notesS.core tt0).eng.notes = [note0] ∧ (notesS.unitSlice tt0).ctx = some standInCtx ∧
    (∀ e ∈ note0.left, e.1 = 0 ∧ ∀ c ∈ notesS.cmdsIn tt0 0 note0.owner, c.isNote = true ∨ e.2 < c.id) ∧
    ((queueS 2 [copy0]).engQueue tt0 2 = copy0 :: [] ∧ (queueS 2 [copy0]).engFrozen tt0 2 = false ∧ copy0.isNote = false ∧
      copy0.isColl = false ∧ copy0.isCopy = true ∧ ((queueS 2 [copy0]).core tt0).eng.tbuf.length < 64) ∧
    ((cmd0 (.enote all e0 0)).isNote = true ∧ (cmd0 (.enote all e0 0)).isColl = false) ∧ coll0.isColl = true ∧
    (((buffered copy0).core tt0).eng.tbuf = [copy0] ∧ (buffered copy0).engFrozen tt0 2 = false ∧ (buffered copy0).engRunning tt0 2 = none ∧
      copy0.time ≤ (buffered copy0).pace 0 ∧ (buffered { copy0 with time := 5 }).pace 0 < 5) ∧
    ((engS 2 copy0).engRunning tt0 2 = some copy0 ∧ copy0.unit = tt0 ∧ recOf? copy0.ra = some (rec_ copy0.ra) ∧
      recOf? copy0.rd = some (rec_ copy0.rd) ∧ (rec_ copy0.ra).space ≠ 0 ∧ gateOk copy0 = true ∧
      (engS 2 copyEnd).chunkGate copyEnd (rec_ copyEnd.ra) (rec_ copyEnd.rd) =
        some ((engS 2 copyEnd).copySettle copyEnd (State.chunksOf (rec_ copyEnd.ra)))) ∧
    (recOf? fromMem.ra = some (rec_ fromMem.ra) ∧ (rec_ fromMem.ra).space = 0) ∧ (engS 2 copy0).lostPeer tt0.die = false := by
  and_intros <;> first | decide +kernel | rfl

/-- R219, R276, R321, R323, R324: a flit on its way to a tile, or held at a bridge; an owned slot of track 0, entry 0: station 96,
for station 0, 20 hops. -/
def flit0 (b : Option Nat) : Flit :=
  { (default : Flit) with id := 4, issuer := tt0, cmd := 77, dests := [⟨0, .unit tt0, 0⟩], bridge := b }
def carrying (f : Flit) : State := { stateE with flits := [f] }
def ringS (f : Flit) : State := (carrying f).setReg 0 (Win.bank 0) (BitVec.ofNat 64 (2 ^ 21 + 96 + 0 * 128 + 20 * 2 ^ 14))
def bridgeSlot (f : Flit) : Option RingSlot :=
  (ringS f).findSlot 0 (bridgeStation 0) 0 0 fun r => f.dests.all fun _ => decide (hops r.track (bridgeStation 0) 0 ≤ r.span)
def deskS (c : Cmd) : State := stateE.modDie 0 fun x => { x with dceRun := x.dceRun.set 0 (some c) }
def dceQ (c : Cmd) : State := stateE.modDie 0 fun x => { x with dce := x.dce.set 0 [c] }
theorem witness_EngineAndCopyEvents_flits :
    (engS 2 copy0).findSlot 0 0 0 32 (fun r =>
      let ts := State.flitTo copy0 (rec_ copy0.rd) 0 ((engS 2 copy0).copyBytes copy0 (rec_ copy0.ra) (rec_ copy0.rd) ((List.range 1).map (0 + ·)))
      ts.1.all (fun t => decide (hops r.track 0 t.2.2 ≤ r.span)) && (ts.2.isEmpty || (r.bridge 0).isSome)) = none ∧
    (carrying (flit0 none)).cycleBegun 0 0 = true ∧ (carrying (flit0 none)).cycleBegun 0 7 = false ∧
    (carrying (flit0 none)).flitCmd (flit0 none) = none ∧ (carrying (flit0 (some 0))).lostPeer 0 = false ∧
    ((carrying (flit0 (some 0))).modDie 0 fun x => { x with fenced := [.die 1] }).lostPeer 0 = true ∧
    bridgeSlot (flit0 (some 0)) = some ⟨0, 0, 20⟩ ∧
    (stateE.die 0).dceRun.get 0 = none ∧ ((deskS copy0).die 0).dceRun.get 0 = some copy0 ∧
    (((dceQ copy0).die 0).dce.get 0 = copy0 :: [] ∧ ((dceQ copy0).unitSlice copy0.unit).st = .running ∧ copy0.timed = false ∧
      ((dceQ copy0).die 0).dceFrozen.get 0 = false) ∧
    (dceOf tt0 = 0 ∧ ({ flit0 none with dce := true } : Flit).dests = ⟨0, .unit tt0, 0⟩ :: []) := by decide +kernel

/-- R226, R275, R398: a contribution that its tile takes or turns away, one to be sent again; a collective whose members stay
silent, one of which is lost. -/
def msg0 : CollMsg := ⟨0, 0, 0, .allred, .fadd, 0, 1, [5]⟩
def contrib (r : Option Nat) (ctx : Nat) : CollNet := ⟨tt0, ctx, none, msg0, r, false⟩
def netS (x : CollNet) : State := { stateE with collNet := [x] }
def part0 (since : Nat) : CollPart := ⟨9, [(0, 0, 0), (0, 1, 0)], [5], since⟩
def collS (since now : Nat) (lost : Bool) : State :=
  ((queueS 2 [coll0]).modEng tt0 fun e => { e with colls := [part0 since] }).modDie 0 fun x =>
    { x with pace := now, fenced := if lost then [.die 1] else [] }
theorem witness_EngineAndCopyEvents_collectives :
    (netS (contrib none 0)).collTaken (contrib none 0) = true ∧ (netS (contrib none 5)).collTaken (contrib none 5) = false ∧
    (netS (contrib (some 0) 0)).collNet[0]? = some (contrib (some 0) 0) ∧ (netS (contrib (some 0) 0)).pace 0 < 0 + 16000 ∧
    0 + 16000 ≤ ((netS (contrib (some 0) 0)).modDie 0 fun x => { x with pace := 16000 }).pace 0 ∧
    ((collS 0 0 false).core tt0).eng.colls.head? = some (part0 0) ∧ ((collS 0 0 false).engQueue tt0 2).head? = some coll0 ∧ coll0.id = (part0 0).cmd ∧
    (collS 0 0 true).collLost tt0 (part0 0) = some 1 ∧ (collS 0 0 false).collLost tt0 (part0 0) = none ∧
    (collS 0 0 false).pace 0 < (part0 0).since + 2 ^ 20 ∧ (part0 0).since + 2 ^ 20 ≤ (collS 0 (2 ^ 20) false).pace 0 ∧
    (collS 0 (2 ^ 20) false).collNet = [] ∧ (part0 0).members ≠ [] ∧ (part0 0).data ≠ [] := by decide +kernel

/-- R306, R307, R311: a sequencer's slot whose fetch is outstanding, one that waits for an entry of a builder queue at 0x40000,
built (a status of 1 at 0x40010) or not, and one that waits to take a ticket. -/
def slotG (x : GSlot) (done : Bool) : State :=
  { stateE.setGslot u0 .trav 0 (some x) with mem := if done then [(0x40010, 1)] else [] }
def lazyG : GSlot := { (default : GSlot) with unit := u0, st := .lazy, fetch := some (.lazy m0), waitAt := 0x40000 }
def orderG : GSlot := { (default : GSlot) with unit := u0, st := .order, fetch := some (.emitSpord m0) }
def fetchG : GSlot := { (default : GSlot) with unit := u0, st := .fetch, fetch := some (.nfetchFetch m0) }
theorem witness_EngineAndCopyEvents_sequencers :
    ((slotG fetchG false).gslot u0 .trav 0 = some fetchG ∧ ((slotG fetchG false).unitSlice u0).st = .running) ∧
    ((slotG lazyG true).gslot u0 .trav 0 = some lazyG ∧ ((slotG lazyG true).unitSlice u0).st = .running ∧
      (slotG lazyG true).entryDone u0 lazyG lazyG.waitAt = true ∧ (slotG lazyG false).entryDone u0 lazyG lazyG.waitAt = false) ∧
    ((slotG orderG false).gslot u0 .trav 0 = some orderG ∧
      ((List.range 4096).find? fun k => (((({ slotG orderG false with mcur := ⟨u0, .trav, 0⟩ } : State).ilockSweep u0.die (sliceOf u0)).unitSlice u0).ilock.get k).isNone) = some 0) := by
  decide +kernel

/-- R302, R314: a tree at 0x10000 whose node 0 has the parent p and no child, and whose node 1, the root, has node 0 as its one
child; start list, counters and boxes at 0x30000, 0x40000, 0x20000. -/
def job0 (nb : Dword) (n : Word) : RefitJob :=
  { (default : RefitJob) with desc := [nb, 0, 0x20000, 0x40000, 0x30000, 1], handle := live_, work := [n], startAt := 1 }
def nodeBytes (parent child : Nat) : List Byte :=
  Bits.toBytes (((List.range 4).foldl (fun x i => Bits.setField x (128 + 32 * i) 32 (if i = 0 then child else 0xFFFFFFFF)) 0) + parent * 2 ^ 448) 64
def treeMem (parent : Nat) : Tab Byte := memPut (memPut [] 0x10000 (nodeBytes parent 0xFFFFFFFF)) 0x10040 (nodeBytes 0xFFFFFFFF 0)
def refitS (j : RefitJob) (parent : Nat) : State := { stateE.modDie 0 fun x => { x with refit := some j } with mem := treeMem parent }
def queuedRefit (ctx : Nat) : State :=
  { stateE.modDie 0 fun x => { x with refitQ := [{ job0 0x10000 0 with work := [], startAt := 0, ctx := ctx }] } with mem := treeMem 0xFFFFFFFF }
def refitOk (r : Except Nat (RefitJob × State)) : RefitJob × State := match r with | .ok x => x | .error _ => (default, default)
def isError {α : Type} (r : Except Nat α) : Bool := match r with | .error _ => true | .ok _ => false
def upIs (r : Except Nat (Option Nat × State)) (x : Option Nat) : Bool := match r with | .ok y => decide (y.1 = x) | .error _ => false
def afterOne (p : Nat) : Except Nat (Option Nat × State) :=
  let r := refitOk ((refitS (job0 0x10000 0) p).refitOne 0 (job0 0x10000 0) 0)
  r.2.refitUp 0 { r.1 with seen := r.1.seen ++ [0] } 0
def clear0 (s : State) (j : RefitJob) : Bool :=
  match s.countersAll 0 j j.nstart 0 [] with | .ok l => (match s.countersZero 0 j l with | .ok _ => decide (l ≠ []) | .error _ => false) | .error _ => false
theorem witness_EngineAndCopyEvents_refits :
    (((queuedRefit 0).die 0).refit = none ∧ ((queuedRefit 0).die 0).refitQ ≠ [] ∧ (queuedRefit 0).ctxSlices 0 ≠ [] ∧ (queuedRefit 5).ctxSlices 5 = [] ∧
      clear0 (queuedRefit 0) (job0 0x10000 0) = true) ∧
    (((refitS (job0 0x10000 0) 1).die 0).refit = some (job0 0x10000 0) ∧ (job0 0x10000 0).work[0]? = some 0) ∧
    isError ((refitS (job0 0x10001 0) 1).refitOne 0 (job0 0x10001 0) 0) = true ∧
    isError ((refitS (job0 0x10000 0) 1).refitOne 0 (job0 0x10000 0) 0) = false ∧
    upIs (afterOne 0xFFFFFFFF) none = true ∧ upIs (afterOne 1) (some 1) = true := by decide +kernel

/-- R257, R258, R374: one launch queue, its header at 0x61000 and its one entry at 0x62000: a grid of one team of one lane, or,
with no register granule, an entry that breaks R70; its launch open. -/
def ctxL : CtxDesc := { standInCtx with lqn := 1, lqbase := 0x60000 }
def launchS (regs : Byte) : State :=
  { withCtx ctxL stateG with
    ctxs := [(0, { (stateG.ctxRt 0) with desc := some ctxL })]
    mem := [(0x60001, 0x10), (0x60002, 6), (0x61001, 0x20), (0x61002, 6), (0x61008, 1), (0x62002, 1), (0x62008, 1), (0x6200C, 1),
      (0x62010, 1), (0x62014, 1), (0x62016, 1), (0x62018, 1)] ++ (if regs = 0 then [] else [(0x6201A, regs)]) }
def launch0 : Launch := (launchS 1).nextLaunch 0 0 0 ((launchS 1).lqHdr 0 0)
def openL (now : Nat) : State := (launchS 1).modDie 0 fun x => { x with launches := [launch0], pace := now }
def polling (now : Nat) : State := (launchS 1).modDie 0 fun x => { x with pace := now }
def carved : State := stateG.modCore u0 fun c => { c with teams := [{ (default : Team) with carve := 2, src := .grid 0 0 }] }
def admitted (now : Nat) : State := (stateG.modCore u0 fun c => { c with admitted := [⟨0, 1, 0⟩] }).modDie 0 fun x => { x with pace := now }
theorem witness_DistributorAndDisplayEvents_launches :
    (0 < (launchS 1).lqCount 0 ∧ (launchS 1).ctxSlices 0 ≠ [] ∧ ((launchS 1).ctxRt 0).killed = none ∧
      homeDie ((launchS 1).lqHdr 0 0).pa = 0 ∧ ((launchS 1).lqHdr 0 0).stop = false ∧ ((launchS 1).lqHdr 0 0).ridx ≠ ((launchS 1).lqHdr 0 0).widx ∧
      ((launchS 1).die 0).launches = [] ∧ ((launchS 1).die 1).launches = [] ∧ ((launchS 1).die 0).stuckQ = []) ∧
    (launchS 1).launchCause ((launchS 1).lqHdr 0 0) launch0 = none ∧
    (launchS 0).launchCause ((launchS 0).lqHdr 0 0) ((launchS 0).nextLaunch 0 0 0 ((launchS 0).lqHdr 0 0)) = some Cause.lqdesc ∧
    (launchS 1).ctxs = [(0, { (stateG.ctxRt 0) with desc := some ctxL })] ∧ (launchS 1).lqCount 0 = 1 ∧
    0 + 16384 ≤ (polling 16384).pace 0 ∧ ((polling 16384).die 0).polled = 0 ∧ (polling 16384).ctxs = [(0, { (stateG.ctxRt 0) with desc := some ctxL })] ∧
    ¬ ((polling 9).die 0).polled + 16384 ≤ (polling 9).pace 0 ∧
    ¬ (((openL 9).die 0).freedAt = (openL 9).pace 0 + 1 ∨ ((openL 9).die 1).freedAt = (openL 9).pace 1 + 1) ∧
    (openL 0).pace 0 ≤ ((openL 0).die 0).lastPass ∧ ((openL 9).die 0).lastPass < (openL 9).pace 0 ∧ ((openL 9).die 0).launches = [launch0] ∧
    launch0.opent < (openL 9).pace 0 ∧
    (carved.gridTeams u0 ≠ [] ∧ carved.coreCarve u0 = 2 ∧ (carved.core u0).carve ≠ 2) ∧ state2.gridTeams ⟨.sc, 0, 5⟩ = [] ∧
    ((admitted 0).core u0).admitted = [⟨0, 1, 0⟩] ∧ 0 + 10240 ≤ (admitted 9999).cycles u0 ∧ (admitted 9).cycles u0 < 0 + 10240 ∧
    ((openL 512).pace 0 % 256 = 0 ∧ (openL 512).pace 0 ≠ 0) ∧ (openL 9).pace 0 % 256 ≠ 0 := by decide +kernel

/-- R267, R269, R403: the regulator of class 0 of entry 0, 1 sixteenth of a byte a tick and bursts of 1 KB, a load in its queue; a
bucket settled or not. -/
def limited (b : Option Bucket) (now : Nat) : State :=
  { (stateG.setReg 0 (Win.qos 0 0) 0x0000000100010000).modDie 0 fun x => { x with
      pace := now, buckets := match b with | some k => x.buckets.set 0 (some k) | none => x.buckets } with ops := [load0] }
def bucket0 (t : Int) : Bucket := ⟨t, 0, [(7, 128)], 0⟩
theorem witness_DistributorAndDisplayEvents_regulators :
    ((limited none 0).die 0).buckets.get (8 * 0 + 0) = none ∧ ((limited (some (bucket0 0)) 0).die 0).buckets.get 0 = some (bucket0 0) ∧
    stateG.rateOf 0 0 0 = 0 ∧ (limited none 0).rateOf 0 0 0 ≠ 0 ∧
    ((limited (some (bucket0 16000000)) 0).bucketNow 0 0 0).queue = (7, 128) :: [] ∧
    min (16000 * (128 : Int)) ((limited (some (bucket0 16000000)) 0).fullBucket 0 0 0) ≤ ((limited (some (bucket0 16000000)) 0).bucketNow 0 0 0).t ∧
    ((limited (some (bucket0 0)) 0).bucketNow 0 0 0).t < min (16000 * (128 : Int)) ((limited (some (bucket0 0)) 0).fullBucket 0 0 0) ∧
    (limited (some (bucket0 0)) 0).getOp 7 = some load0 ∧ load0.since + 1000000 ≤ (limited (some (bucket0 0)) 1000000).pace 0 ∧
    (bucket0 0).rep + 1000000 ≤ (limited (some (bucket0 0)) 1000000).pace 0 ∧
    (limited (some (bucket0 0)) 1000000).pace 0 - load0.since < 2 ^ 32 ∧ (limited (some (bucket0 0)) 0).pace 0 < load0.since + 1000000 := by
  decide +kernel

/-- R271, R272, R337, R338: head 0 of entry 0, thresholds 2 and 4, scans out one line of one pixel from 0x100 to encoder 0,
whose ring of 64 KB lies at 0x2000. -/
def showing (urgent : Bool) (q : List (List Byte)) (en : Bool) : State :=
  ((((((((stateG.setReg 0 (Win.hqos 0) (BitVec.ofNat 64 ((if en then 32 else 0) + 2 * 2 ^ 18 + 4 * 2 ^ 28))).setReg 0 (Win.head 0) 0x100).setReg 0
    (Win.head 0 + 8) 0x0000010000010001).setReg 0 (Win.head 0 + 24) 0x108).setReg 0 (Win.head 0 + 0x20) 0x100000000).setReg 0 (Win.veown 0) 0x20).setReg 0
    (Win.enc 0 + 8) 0x2000).setReg 0 (Win.enc 0 + 16) 0x10000).modDie 0 fun x => { x with
      urgent := x.urgent.set 0 urgent, fifo := x.fifo.set 0 q, surf := x.surf.set 0 (some 0x100) }
def line0 : List Byte := [1, 2, 3, 4]
def lines (n : Nat) : List (List Byte) := List.replicate n line0
def framed : State := (showing false [] true).modDie 0 fun x => { x with pixLine := x.pixLine.set 0 1, surf := x.surf.set 0 none }
def encoding : State := (showing false [] true).modDie 0 fun x => { x with encDue := x.encDue.set 0 1 }
theorem witness_DistributorAndDisplayEvents_display :
    ((showing false (lines 1) true).headEn 0 0 = true ∧ ((showing false (lines 1) true).die 0).urgent.get 0 = false ∧
      (((showing false (lines 1) true).die 0).fifo.get 0).length < ((showing false (lines 1) true).reg 0 (Win.hqos 0)).toNat / 2 ^ 18 % 2 ^ 10) ∧
    ((showing false (lines 3) true).reg 0 (Win.hqos 0)).toNat / 2 ^ 18 % 2 ^ 10 ≤ (((showing false (lines 3) true).die 0).fifo.get 0).length ∧
    (((showing true (lines 4) true).die 0).urgent.get 0 = true ∧
      ((showing true (lines 4) true).reg 0 (Win.hqos 0)).toNat / 2 ^ 28 % 2 ^ 10 ≤ (((showing true (lines 4) true).die 0).fifo.get 0).length) ∧
    (((showing true (lines 3) true).die 0).fifo.get 0).length < ((showing true (lines 3) true).reg 0 (Win.hqos 0)).toNat / 2 ^ 28 % 2 ^ 10 ∧
    (let want := fun (s : State) => [0, 1].any fun e => (List.range 8).any fun h => s.headEn e h && s.headPart e h == 0 && (s.die e).urgent.get h
     ((showing true [] true).die 0).scaled.get 0 ≠ want (showing true [] true) ∧ ((showing true [] true).die 0).buckets = [] ∧
       ((showing false [] true).die 0).scaled.get 0 = want (showing false [] true)) ∧
    ((showing false [] true).headOn 0 0 = true ∧ ((showing false [] true).die 0).surf.get 0 = some 0x100 ∧
      ((showing false [] true).die 0).pixLine.get 0 < (showing false [] true).headHeight 0 0) ∧
    ((showing false (lines 1) true).die 0).fifo.get 0 = line0 :: [] ∧
    (framed.headOn 0 0 = true ∧ framed.headHeight 0 0 ≤ (framed.die 0).pixLine.get 0 ∧ (framed.die 0).surf.get 0 = none ∧
      (framed.die 0).repeated.get 0 = 0) ∧ (showing false [] false).headOn 0 0 = false ∧
    (((showing false [] true).die 0).fetched.get 0 < (showing false [] true).headHeight 0 0 ∧ (((showing false [] true).die 0).fifo.get 0).length < 512 ∧
      (showing false [] true).rateOf 0 ((showing false [] true).headPart 0 0) 4 = 0 ∧
      (showing false [] true).gpaBytes 0 ((showing false [] true).headPart 0 0) .read
        (0x100 + 0 * ((showing false [] true).headReg 0 0 1 / 2 ^ 32 % 2 ^ 32)) 4 = some [0x100, 0x101, 0x102, 0x103] ∧
      (showing false [] true).headReg 0 0 1 % 2 ^ 16 * (if (showing false [] true).headReg 0 0 3 / 2 ^ 6 % 4 = 2 then 8 else 4) = 4) ∧
    ((showing false [] true).encFrom 0 0 0 = true ∧ ((showing false [] true).die 0).surf.get 0 ≠ none ∧
      (showing false [] true).headReg 0 0 3 % 16 = 8 + 0 ∧ (encoding.die 0).encDue.get 0 = 1 ∧ (encoding.reg 0 (Win.veown 0)).toNat % 32 = 0 ∧
      encoding.rateOf 0 0 5 = 0 ∧ encoding.isRepl (homeDie 0x2000) 0 0x2000 = false ∧
      (stateG.reg 0 (Win.enc 0 + 16)).toNat = 0 ∧ ((showing false [] true).reg 0 (Win.enc 0 + 16)).toNat ≠ 0 ∧
      (((showing false [] true).reg 0 (Win.enc 0 + 24)).toNat - ((showing false [] true).reg 0 (Win.enc 0 + 32)).toNat) + 1 ≤
        ((showing false [] true).reg 0 (Win.enc 0 + 16)).toNat ∧
      (showing false [] true).gpaBytes 0 0 .write (0x2000 + 0 % 0x10000) 1 = some [0x2000]) ∧
    ((showing false [] true).die 0).encDue.get 0 = 0 := by decide +kernel
theorem witness_DistributorAndDisplayEvents_outside : IrqOutside encoding := outside rfl (by decide)

/-- R256, R322, R343: a device that is ready, its registers with values; a slice that switches, at its boundary or not; a bank
of the ring with no owned slot, or with one whose SPAN is 0. -/
def up (s : State) : State := { s with plat := { s.plat with ready := true } }
def atStage (n : Nat) : State := { State.reset with plat := { State.reset.plat with stage := n, stalled := false } }
def regS (off : Nat) (v : Dword) : State := (up stateG).setReg 0 off v
def switching (i : Nat) (save : Bool) : State := stateE.modSlice 0 i fun sl => { sl with st := .switching, go := true, doSave := save }
def quietly (s : State) (i : Nat) : Bool := ((sliceUnits 0 i).foldl State.stopUnit s).quietSlice 0 i (s.slice 0 i).doSave
def flyingS : State := { switching 0 true with ops := [load0] }
theorem witness_RegisterAndPlatformEvents_window :
    ((up stateG).plat.ready = true ∧ ((up stateG).slice 0 3).go = false ∧ ((switching 0 true).slice 0 0).go = true ∧ stateG.plat.ready = false ∧
      (stateG.slice 0 3).st ≠ .switching ∧ ((switching 1 false).slice 0 1).st = .switching ∧ quietly (switching 1 false) 1 = true ∧
      (flyingS.slice 0 0).st = .switching ∧ quietly flyingS 0 = false) ∧
    ((up stateG).reg 0 Win.ringctl).toNat % 2 = 0 ∧
    (up stateG).bankError 0 1 = none ∧ (regS (Win.bank 1) 0x200000).bankError 0 1 = some 0 ∧
    (((regS Win.ringctl 1).reg 0 Win.ringctl).toNat % 2 = 1 ∧ (regS Win.ringctl 1).cycleBegun 0 ((regS Win.ringctl 1).swapCycle 0) = true) ∧
    (let w := fun (v : Dword) => ((up stateG).reg 0 (Win.qos 3 2) &&& 0x0000000000003FC0) ||| (v &&& 0xFFFFFFFFFFFFC03F)
     Win.legal (.qos 3 2) (w 0x0000000500010000) = true ∧ Win.legal (.qos 3 2) (w 0x0000000500000000) = false ∧
       Win.legal (.qos 3 2) (w 0x10000) = true) ∧ (up stateG).rateOf 0 3 2 = 0 ∧
    Win.kindOf (Win.peRcnt 0) = .peRcnt 0 ∧ Win.kindOf Win.ident = .ident ∧ Win.kindOf 0xFF0 = .none ∧
    isMemory (((up stateG).reg 0 Win.attaddr).toNat + 64) = true ∧ isMemory (((up stateG).reg 0 Win.attaddr).toNat + 339) = true ∧
    (up stateG).portOpen 64 = true ∧ isMemory (((regS Win.attaddr 0x30000000000).reg 0 Win.attaddr).toNat + 64) = false ∧
    ((up stateG).die 0).attBusy = none ∧ (((up stateG).modDie 0 fun x => { x with attBusy := some [] }).die 0).attBusy = some [] := by
  decide +kernel
/-- R341, R345, R346, R405, R428, R429: each stage of bring-up, windows of power beside the limit of 1,600 W, a die that is worn
out, and a granule that is not bad yet. -/
def hotDie : State := State.reset.modDie 0 fun x => { x with hot := 121, hotAt := some 0, tlb := [(3, [default])] }
def worn : State := { State.reset with dies := [(0, { (default : Die) with win := [(Win.wear, some 0)] })] }
theorem witness_RegisterAndPlatformEvents_platform :
    (∀ n ∈ [0, 1, 2, 3, 4, 5], (atStage n).plat.stage = n ∧ (atStage n).plat.stalled = false) ∧ (atStage 1).stall.plat.stalled = true ∧
    (let trained := (List.range 24).map fun m => if m = 1 then some 3 else none
     trained.getD 0 none = none ∧ trained.getD 1 none = some 3 ∧ (State.meshModules.all fun m => (trained.getD m none).isNone) = false ∧
       (State.meshModules.all fun m => (([] : List (Option Nat)).getD m none).isNone) = true) ∧
    (let s := State.reset.modDie 0 fun x => { x with pace := 1000000 }
     s.plat.winAt + 1000000 ≤ s.pace 0 ∧ ¬ State.reset.plat.winAt + 1000000 ≤ State.reset.pace 0) ∧
    (¬ (State.reset.die 0).wornAt + 3600000000000 ≤ State.reset.powered 0 ∧
      (let s := State.reset.modDie 0 fun x => { x with pace := 3600000000000 }; (s.die 0).wornAt + 3600000000000 ≤ s.powered 0)) ∧
    (let lim := (State.reset.reg 0 Win.pwrcfg).toNat % 2 ^ 11
     1700 < 2048 ∧ lim < 1700 ∧ 1500 + 50 < lim ∧ 1570 ≤ lim ∧ lim ≤ 1570 + 50) ∧
    (State.reset.atEol 0 = false ∧ worn.atEol 0 = true ∧ (worn.die 0).eolReported = false ∧ worn.slices = []) ∧ (104 : Nat) < 105 ∧ (105 : Nat) ≤ 110 ∧
    ((State.reset.die 0).hotAt = none ∧ (hotDie.die 0).hotAt = some 0 ∧ hotDie.pace 0 < 0 + 1000000) ∧
    ((State.reset.die 0).hot < 120 ∧ (State.reset.die 1).hot < 120 ∧ 120 ≤ (hotDie.die 0).hot) ∧
    (⟨.dram, 5, true⟩ : BadGranule) ∉ State.reset.bad ∧ ((hotDie.die 0).tlb.get 3)[0]? = some default := by decide +kernel

/-- R332 to R335, R407 to R412: a domain of eight packages, package 2 a peer; agents that die 0 hears, has fenced or scrubbed. -/
def domS (f : Die → Die) : State :=
  ({ (State.reset.setReg 0 Win.dtcfg 0x10000).setReg 0 (Win.dtpeer 2 0) 0x1000000000000 with out := [.heartbeat (.host 1) 7] }).modDie 0 f
def quietDom : State := State.reset
def heardAt (n : Nat) (now : Nat) : State := domS fun x => { x with heard := x.heard.set n (some 0), pace := now }
def fencedS (a : Agent) (done : Bool) : State := domS fun x => { x with fenced := [a], scrubbed := if done then [a] else [] }
theorem witness_AgentAndLinkEvents_agents :
    (State.reset.domNo 0 % 2 = 0 ∧ ∀ p < 16, (heardAt 20 10000 |>.setReg 0 (Win.dtpeer 2 0) 0).peerOn 0 p = false) ∧
    ((heardAt 20 10000).plat.hostHbAt.get 0 + 10000 ≤ (heardAt 20 10000).pace 0 ∧ ((heardAt 20 10000).die 0).hbAt + 10000 ≤ (heardAt 20 10000).pace 0 ∧
      State.reset.pace 0 < State.reset.plat.hostHbAt.get 0 + 10000 ∧ State.reset.pace 0 < (State.reset.die 0).hbAt + 10000) ∧
    (Agent.host 1 ∉ ((domS id).die 0).fenced ∧ Output.heartbeat (.host 1) 7 ∈ (domS id).out ∧ Output.heartbeat (.host 1) 8 ∉ (domS id).out ∧
      Agent.host 1 ∈ ((fencedS (.host 1) false).die 0).fenced) ∧
    (Agent.die 4 ∉ ((domS id).die 0).fenced ∧ (domS id).samePkg 0 4 = false ∧ (domS id).peerOn 0 4 = true) ∧
    (((heardAt 17 30000).die 0).heard.get (agentNo (.host 1)) = some 0 ∧ 0 + 30000 ≤ (heardAt 17 30000).pace 0 ∧
      (heardAt 17 9).pace 0 < 0 + 30000 ∧ ((domS id).die 0).heard.get (agentNo (.host 1)) = none) ∧ (domS id).slices = [] ∧
    Agent.host 1 ∉ ((fencedS (.host 1) false).die 0).scrubbed ∧ Agent.host 1 ∈ ((fencedS (.host 1) true).die 0).scrubbed ∧
    (Agent.die 1 ∈ ((fencedS (.die 1) false).die 0).fenced ∧ Agent.die 1 ∉ ((fencedS (.die 1) false).die 0).scrubbed ∧
      (fencedS (.die 1) false).samePkg 0 1 = true ∧ ((fencedS (.die 1) false).die 0).homeUpd = []) := by decide +kernel

/-- R417, R418: a die at a step of the repair after the loss of domain die 4; one page homed there, shared with die 0. -/
def repairS (step : Nat) : State :=
  { domS fun x => { x with fenced := [.die 4], replay := x.replay.set 4 step, upd := if step = 2 then [⟨0x20000, [], List.replicate 16 5, 4, 0, 4⟩] else [] } with
    mem := memPut [] 0x20000 (Bits.toBytes (0x30 * 2 ^ 12 + 2 ^ 64 + 2 * 2 ^ 56) 16) }
def repairP : State := ((repairS 3).setReg 0 (Win.peRbase 0) 0x20000).setReg 0 (Win.peRcnt 0) 1
def upd4 : UpdateMsg := ⟨0x20000, [], List.replicate 16 5, 4, 0, 4⟩
theorem witness_AgentAndLinkEvents_repair :
    (domS id).repairing 4 0 = [] ∧ (repairS 0).repairing 4 0 = [0] ∧ (repairS 1).repairing 4 1 = [0] ∧ (repairS 2).repairing 4 2 = [0] ∧
    repairP.repairing 4 3 = [0] ∧ (repairS 4).repairing 4 4 = [0] ∧
    (∀ m ∈ ((repairS 0).die 0).upd, (repairS 0).canApply 0 m = false) ∧ (∀ m ∈ ((repairS 2).die 0).upd, (repairS 2).canApply 0 m = false) ∧
    ((repairS 2).die 0).upd ≠ [] ∧
    (((repairS 1).die 0).log = [] ∧ (repairS 1).ownVoids 0 4 = [] ∧ ((repairS 1).die 0).upd = [] ∧
      State.notAfter (upd4.vc.getD upd4.stamper 0) ((((repairS 1).clockOf 0 upd4.ptn)).getD upd4.stamper 0) = false ∧
      upd4.stamper ≠ (repairS 1).domNo 0) ∧
    repairP.promotions 0 4 = [(0x30, 0)] ∧ (∀ v ∈ ((repairS 4).die 0).voids, v.1 ≠ 4) := by decide +kernel

/-- R326, R327, R329, R333 to R335, R419, R421: a flit at bridge 1, mesh modules up, frames, and connections. -/
def linkS : State := { State.reset with flits := [{ (default : Flit) with id := 4, cmd := 77, issuer := tt0, bridge := some 1 }] }
def modules (l : List Nat) : State := l.foldl (fun s m => s.setReg 0 (Win.ucie m) 1) State.reset
def frame0 : Frame := ⟨0, 0, 0, 4, 1, 4, 0, [1]⟩
def wire (f : Frame) : List Byte := (domS id).ethFrame 0 f
def connS (n now : Nat) : State := domS fun x => { x with
  pace := now, conns := x.conns.set (8 * 4 + 4) { (default : Conn) with unacked := [(0, frame0, 0, n)] } }
def limitedHost : State := domS fun x => { x with roles := [] }
def noPort : State :=
  { State.reset with dies := [(0, { (default : Die) with roles := [(0, 1), (1, 1)] }), (1, { (default : Die) with roles := [(0, 1), (1, 1)] })] }
theorem witness_AgentAndLinkEvents_links :
    (linkS.flits.length = 1 ∧ (∀ f ∈ linkS.flits, f.die = 0 ∧ f.dce = false ∧ f.bridge = some (3 / 3) ∧ linkS.flitCmd f = none) ∧
      State.reset.flits = []) ∧
    (((modules [1, 2]).reg 0 (Win.ucie 1)).toNat % 2 = 1 ∧ (2 % 3 ≠ 0 ∧ ((modules [1, 2]).reg 0 (Win.ucie 2)).toNat % 2 = 1)) ∧
    (((modules [1]).reg 0 (Win.ucie 1)).toNat % 2 = 1 ∧ (∀ n < 24, n ≠ 1 → n % 3 ≠ 0 → ((modules [1]).reg 0 (Win.ucie n)).toNat % 2 = 0) ∧
      (modules [1]).lostPeer 0 = false ∧ (modules [1]).lostPeer 1 = false) ∧ (State.reset.reg 0 (Win.ucie 2)).toNat % 2 = 0 := by decide +kernel
theorem witness_AgentAndLinkEvents_wire : State.frameOf (wire frame0) = some frame0 ∧ State.frameOf (wire { frame0 with cls := 5 }) = some { frame0 with cls := 5 } ∧
    State.frameOf ((wire frame0).set 20 9) = none ∧ State.frameOf [] = none := by decide +kernel
theorem witness_AgentAndLinkEvents_frames :
    (domS id).peerOn 0 3 = false ∧ frame0.ver ≠ 2 ∧
    (frame0.cls = 4 ∧ frame0.ver = 1 ∧ frame0.dst = (domS id).domNo 0 ∧ (domS id).peerOn 0 frame0.src = true ∧ (domS id).samePkg 0 frame0.src = false ∧
      .die frame0.src ∉ ((domS id).die 0).fenced ∧ frame0.body ≠ [] ∧ (((domS id).die 0).conns.get (8 * frame0.src + 4)).expect = frame0.seq ∧
      (((domS id).die 0).conns.get (8 * frame0.src + 4)).early = [] ∧
      (((domS id).die 0).conns.get (8 * frame0.src + 4)).unacked = []) ∧
    ((((connS 3 32000).die 0).conns.get (8 * 4 + 4)).unacked = [(0, frame0, 0, 3)] ∧ (((connS 3 32000).die 0).conns.get (8 * 4 + 4)).sacked = [] ∧
      (connS 3 32000).peerOn 0 4 = true ∧ 0 + 32000 ≤ (connS 3 32000).pace 0 ∧ (connS 3 9).pace 0 < 0 + 32000 ∧ (16 : Nat) ≤ 16 ∧
      0 + 32000 ≤ (connS 16 32000).pace 0) ∧
    (((State.reset.setReg 0 Win.dtcfg 8).reg 0 Win.dtcfg).toNat / 2 ^ 3 % 2 = 1 ∧ (State.reset.reg 0 Win.dtcfg).toNat / 2 ^ 3 % 2 = 0) := by decide +kernel
/-- R329, R339: the host's functions are there or not; a host core whose agent holds a copy of line 0x400. -/
def hostS : State := up limitedHost
theorem witness_AgentAndLinkEvents_host :
    (noPort.sourceOn (.bar2 0) = false ∧ State.reset.sourceOn (.bar2 40) = false ∧ State.reset.sourceOn (.core 2 none) = false) ∧
    (hostS.endpoint = true ∧ hostS.plat.ready = true ∧ hostS.rateOf 0 0 0 = 0 ∧ hostS.rateOf 1 0 0 = 0) ∧
    (0x20 % 8 = 0 ∧ 0x20 < 0x2000000) ∧ 0x1000 + [(1 : Byte)].length ≤ 0xC000000000 ∧
    (isMemory 0x20000 = true ∧ hostS.portOpen 0x20000 = true ∧ 0x20000 % 128 + 8 ≤ 128 ∧ hostS.hitCopy hostAgent (0x20000 / 128) = none ∧
      (hostS.modAgent hostAgent fun a => { a with copies := [(0x400, some ⟨List.replicate 128 5, 3, 9⟩)] }).hitCopy hostAgent (0x20000 / 128) =
        some ⟨List.replicate 128 5, 3, 9⟩) ∧
    limitedHost.plat.ready = false ∧ limitedHost.endpoint = true := by decide +kernel
theorem witness_AgentAndLinkEvents_outside : IrqOutside hostS := outside rfl (by decide)

/-- R422 to R428: records; a halted shader core and one whose warp stands at its boundary; a plan at 0x1000 of one page at 0x2000 to
the expander of port 0, or with a source that is no page, or with a reserved bit set. -/
def rec0 (cmd : BitVec 8) (a0 : Dword) : MgmtRec := { (default : MgmtRec) with cmd := cmd, arg0 := a0, addr := 0x1000 }
def haltedS : State := stateG.modCore u0 fun c => { c with halted := true }
def planMem (src target : Nat) : Tab Byte :=
  memPut (memPut (memPut [] 0x1000 (Bits.toBytes (1 + 77 * 2 ^ 64) 16)) 0x1040 (Bits.toBytes (src + 0x1000 * 2 ^ 64) 16)) 0x1050 (Bits.toBytes (target + 0x10000000000 * 2 ^ 64) 16)
def planS (src target : Nat) (k : Option Ckpt) : State :=
  { stateG.modDie 0 fun x => { x with roles := x.roles.set 0 1 } with
    mem := planMem src target, plat := { stateG.plat with ready := true, ckpt := k } }
def seg1 : Nat × Nat × Nat × Nat := (0x2000, 0x1000, 0, 0x10000000000)
def ckpt0 (w : Bool) : Ckpt := ⟨rec0 0x20 0, [seg1], 77, 0, [], w⟩
def resting (w : Bool) : State := { State.reset with plat := { State.reset.plat with ckpt := some (ckpt0 w) } }
def haltedT : State := stateG.modCore tt0 fun c => { c with halted := true }
theorem snap_fits : (haltedT.snapSection tt0).length ≤ 2 ^ 20 := by decide +kernel
theorem witness_ManagementEvents_units :
    mgmtUnit? { rec0 1 0 with kind := 3 } = none ∧ mgmtUnit? (rec0 1 0) = some u0 ∧ (rec0 1 0).resv = false ∧ (rec0 1 1).arg0.getLsbD 0 = true ∧
    (∃ w p, (stateG.core u0).warps = [(0, some w)] ∧ w.paths = [p] ∧ w.joins = [] ∧ w.due = [] ∧ w.parked = [] ∧ p.wait = .ready ∧
      p.mask &&& ~~~ w.live = 0 ∧ p.mask ≠ 0) ∧
    (haltedS.core u0).halted = true ∧ (stateG.core u0).halted = false ∧ mgmtUnit? { rec0 3 0 with kind := 1 } = some tt0 ∧
    (haltedT.core tt0).halted = true ∧ (rec0 3 0).addr.toNat % 8 = 0 ∧
    (∀ i < (haltedT.snapSection tt0).length, isMemory ((rec0 3 0).addr.toNat + 8 * i) = true ∧ haltedT.portOpen ((rec0 3 0).addr.toNat + 8 * i) = true) := by
  and_intros; iterate 4 decide
  · exact ⟨_, _, rfl, rfl, by decide⟩
  iterate 5 decide
  intro i hi
  have h := snap_fits
  have e : (rec0 3 0).addr.toNat = 0x1000 := rfl
  simp only [isMemory, State.portOpen, e]
  exact ⟨by simp; omega, by simp; omega⟩
theorem witness_ManagementEvents_plans :
    (atStage 1).plat.ready = false ∧ (atStage 1).stall.plat.stalled = true ∧ (atStage 1).stall.plat.stage = 1 ∧ (([] : List Byte) ++ []).length = (rec0 0x10 0).arg0.toNat ∧
    (planS 0x2000 0 none).plat.ckpt = none ∧ (planS 0x2000 0 none).plat.ready = true ∧
    (planS 0x2000 0 none).planOf (rec0 0x20 0).addr.toNat = some (77, [seg1]) ∧ (planS 0x2000 0 none).planOk (rec0 0x20 0).addr.toNat [seg1] = true := by decide +kernel
theorem witness_ManagementEvents_plans_refused :
    (planS 0x2000 2 none).planOf (rec0 0x20 0).addr.toNat = none ∧
    (planS 0x2001 0 none).planOf (rec0 0x20 0).addr.toNat = some (77, [(0x2001, 0x1000, 0, 0x10000000000)]) ∧
    (planS 0x2001 0 none).planOk (rec0 0x20 0).addr.toNat [(0x2001, 0x1000, 0, 0x10000000000)] = false ∧
    ((planS 0x2000 0 none).slice 0 0).ctx ≠ none ∧ ((planS 0x2000 0 none).slice 0 0).go = false := by decide +kernel
theorem witness_ManagementEvents_checkpoints :
    State.reset.plat.ckpt = none ∧ (resting false).plat.ckpt = some (ckpt0 false) ∧ (resting false).quiet = true ∧ (ckpt0 false).written = false ∧
    (resting true).plat.ckpt = some (ckpt0 true) ∧ (ckpt0 true).written = true ∧ (ckpt0 true).segs = [seg1] ∧ seg1.2.2.1 % 8 = 0 := by
  decide +kernel

/-- R34, R50, R363: a warp at a word, its program at 0x10000; one sequencer slot; a package powered off. -/
def iadd0 : Instr := .iadd h0 8 9 (.v 10) false false false
def wordOf (i : Instr) : Dword := ((encode i).getD (0, none)).1
def program (w : Nat) : State := { State.reset.standIn with mem := memPut [] 0x10000 (Bits.toBytes w 8), agenda := [.issue u0 0] }
def goesOn (o : Host.Outcome State Fault Refusal) : Bool := match o with | .next t => !t.isBlocked | _ => false
def runsB (s : State) : Bool := match s.prep u0 0 with
  | .run i _ _ b a => decide (i = iadd0) && goesOn (exec i b) && goesOn (exec i a)
  | .stop _ => false
def stopsB (s : State) : Bool := match s.prep u0 0 with | .run .. => false | .stop _ => true
def fetchB (s : State) (w : Nat) : Bool := match s.fetch u0 0 0x10000 with | .ok (x, _) => x.toNat == w | .error _ => false
def standPath : Path := ⟨standInPc, Bits.firstLanes 32, none, 0, .ready⟩
def microS (x : Dword) : State :=
  { (stateE.modCore u0 fun c => { c with cstores := [(0, { n := 1, words := [(0, x)] }), (1, { n := 1, words := [(0, x)] }), (2, { n := 1, words := [(0, x)] })] }).setGslot u0 .trav 0
      (some { (default : GSlot) with unit := u0, st := .running }) with agenda := [.micro u0 .trav] }
theorem witness_StepRunsTheInstruction : (program (wordOf iadd0).toNat).plat.off = false ∧ (program (wordOf iadd0).toNat).agenda = [.issue u0 0] ∧
    runsB (program (wordOf iadd0).toNat) = true ∧ runsB { program (wordOf iadd0).toNat with agenda := [] } = true ∧
    stopsB (program 0xFF00000000000000) = true ∧ fetchB (program 0xFF00000000000000) 0xFF00000000000000 = true ∧
    ((program 0xFF00000000000000).mayIssue u0 0 = true ∧ (program 0xFF00000000000000).warp u0 0 = some standInWarp ∧
      standInWarp.choose = some (standPath, false) ∧ standInWarp.pathOf (Warp.laneKey standPath.mask) = some standPath ∧
      standPath.mask &&& standInWarp.parkReq = 0 ∧ standInWarp.due = []) ∧
    (let d := decodeWord 0xFF00000000000000 0
     d.instr.head.isSome = true ∧ (d.instr.head.elim false fun h => standInWarp.tokensZero h.wtm) = true ∧
       (Cause.first ((program 0xFF00000000000000).wordCauses u0 0 standInWarp.gran d)).isSome = true ∧ State.gated 0xFF00000000000000 = false) ∧
    (program 0).portChoice u0 0 = some 0 ∧ (program 0).portChoice u0 1 = none ∧ State.issuePort u0 (program 0).cur.slot = 0 ∧
    u0.kind = .sc ∧ (((program 0).modCore u0 fun c => { c with turn := [(1, 19)] }).core u0).turn.get 1 = 16 * 1 + 2 + 1 := by decide +kernel
theorem witness_StepRunsTheInstruction_others : (∃ x i, decodeMicro x = some i ∧ encodeMicro i = some x ∧
      (let s := microS x; s.plat.off = false ∧ s.agenda = .micro u0 .trav :: [] ∧ s.microChoice u0 .trav = some 0 ∧ stateE.microChoice u0 .trav = none ∧
        (∃ y, s.gslot u0 .trav 0 = some y ∧ y.pc < ((s.core u0).cstores.get GUnit.trav.code).n) ∧ s.bad = [] ∧
        ((s.core u0).cstores.get GUnit.trav.code).words.get 0 = x)) ∧
    ({ stateE with agenda := [.event .coldReset] } : State).agenda = .event .coldReset :: [] ∧ Instr.coldReset.isEvent = true ∧ iadd0.isEvent = false ∧
    (∃ s : State, s.plat.off = true ∧ ∀ r, s.agenda ≠ .event .coldReset :: r) := by
  refine ⟨⟨(encodeMicro (.xfma m0)).getD 0, .xfma m0, by decide +kernel, by decide +kernel, by decide +kernel, by decide +kernel, by decide +kernel,
    by decide +kernel, ⟨{ (default : GSlot) with unit := u0, st := .running }, by decide +kernel, by decide +kernel⟩,
    by decide +kernel, by decide +kernel⟩, rfl, by decide, by decide, ?_⟩
  exact ⟨{ State.reset with plat := { State.reset.plat with off := true } }, rfl, fun r h => by cases h⟩
theorem witness_InstructionsRoundTrip : iadd0.head.isSome = true ∧ iadd0.WellFormed := by decide
theorem witness_MicrowordsRoundTrip : m0.im = false ∧ m0.sn = false ∧ m0.int = false ∧
    decodeMicro ((encodeMicro (.xfma m0)).getD 0) = some (.xfma m0) ∧ encodeMicro (.xfma m0) = some ((encodeMicro (.xfma m0)).getD 0) := by
  decide +kernel
theorem witness_MemoryStaysCanonical : Memory.wf State.reset.mem = true ∧ ∃ t, step State.reset = .next t := ⟨rfl, _, rfl⟩

end Sys2Proof.Tests
end

section
/-! Memory keeps its canonical form (R7, log 4): one lemma for each function of the machine that gives a state, in the order of
the model's files, up to a whole step. A function that writes no memory is taken through by the lemmas of what it calls;
`canon_mk` takes a changed record of the state back to the memory it was made with. -/
namespace Sys2Proof.Machine

open Tab State

-- the property, of a state and of what a function may answer that holds one

/-- The memory of a state is in its canonical form. -/
def Canon (s : State) : Prop := Memory.wf s.mem = true

/-- The next state of an outcome, if there is one, has canonical memory. -/
def CanonOut : Host.Outcome State Fault Refusal → Prop
  | .next t => Canon t
  | _ => True

/-- The state in an optional answer, if there is one, has canonical memory. -/
def CanonOpt {α : Type} (f : α → State) : Option α → Prop
  | some a => Canon (f a)
  | none => True

/-- The state in an answer that is no error has canonical memory. -/
def CanonOk {ε α : Type} (f : α → State) : Except ε α → Prop
  | .ok a => Canon (f a)
  | .error _ => True

/-- Either state that a sequencer's preparation may answer has canonical memory. -/
def CanonMicro : Except State (Instr × State) → Prop
  | .error t => Canon t
  | .ok p => Canon p.2

/-- The state that one lane of SPAWN leaves has canonical memory. -/
def CanonSpawned : Spawned → Prop
  | .done t _ => Canon t
  | .waits t _ => Canon t
  | .fault .. => True

/-- The states that the preparation of an issue answers have canonical memory. -/
def CanonPrep : Prep → Prop
  | .stop t => Canon t
  | .run _ _ _ b a => Canon b ∧ Canon a

-- what an answer gives up

theorem CanonOut.of_next {o : Host.Outcome State Fault Refusal} {t : State} (h : CanonOut o) (e : o = .next t) : Canon t := by
  rw [e] at h; exact h

theorem CanonOpt.of_some {α : Type} {f : α → State} {o : Option α} {a : α} (h : CanonOpt f o) (e : o = some a) : Canon (f a) := by
  rw [e] at h; exact h

theorem CanonOk.of_ok {ε α : Type} {f : α → State} {o : Except ε α} {a : α} (h : CanonOk f o) (e : o = .ok a) : Canon (f a) := by
  rw [e] at h; exact h

theorem CanonSpawned.of_done {o : Spawned} {t : State} {n : Nat} (h : CanonSpawned o) (e : o = .done t n) : Canon t := by
  rw [e] at h; exact h

theorem CanonSpawned.of_waits {o : Spawned} {t : State} {p : Option Nat} (h : CanonSpawned o) (e : o = .waits t p) : Canon t := by
  rw [e] at h; exact h

theorem canon_fst {α : Type} {p : State × α} {t : State} {a : α} (h : Canon p.1) (e : p = (t, a)) : Canon t := by
  rw [e] at h; exact h

theorem canon_snd {α : Type} {p : α × State} {t : State} {a : α} (h : Canon p.2) (e : p = (a, t)) : Canon t := by
  rw [e] at h; exact h

-- choices, loops and record updates

theorem canonOut_next {s : State} (hs : Canon s) : CanonOut (.next s) := hs

theorem canon_ite {c : Prop} [Decidable c] {s t : State} (hs : Canon s) (ht : Canon t) : Canon (if c then s else t) := by
  split <;> assumption

theorem canonOut_ite {c : Prop} [Decidable c] {a b : Host.Outcome State Fault Refusal} (ha : CanonOut a) (hb : CanonOut b) :
    CanonOut (if c then a else b) := by
  split <;> assumption

theorem canonOpt_ite {α : Type} {f : α → State} {c : Prop} [Decidable c] {a b : Option α} (ha : CanonOpt f a)
    (hb : CanonOpt f b) : CanonOpt f (if c then a else b) := by
  split <;> assumption

theorem canonOk_ite {ε α : Type} {f : α → State} {c : Prop} [Decidable c] {a b : Except ε α} (ha : CanonOk f a)
    (hb : CanonOk f b) : CanonOk f (if c then a else b) := by
  split <;> assumption

theorem canonPrep_ite {c : Prop} [Decidable c] {a b : Prep} (ha : CanonPrep a) (hb : CanonPrep b) :
    CanonPrep (if c then a else b) := by
  split <;> assumption

theorem canon_getD {o : Option State} {s : State} (ho : CanonOpt id o) (hs : Canon s) : Canon (o.getD s) := by
  cases o with
  | none => exact hs
  | some t => exact ho

theorem canonOpt_map {α : Type} {f : α → State} {o : Option α} (ho : CanonOpt f o) {k : α → State}
    (hk : ∀ a, Canon (f a) → Canon (k a)) : CanonOpt id (o.map k) := by
  cases o with
  | none => trivial
  | some a => exact hk a ho

theorem canonOpt_map_of {α : Type} {o : Option α} {k : α → State} (hk : ∀ a, Canon (k a)) : CanonOpt id (o.map k) := by
  cases o with
  | none => trivial
  | some a => exact hk a

/-- A loop whose steps keep memory canonical, where the state is a part `g` of what it carries. -/
theorem canon_foldl_at {α β : Type} (g : β → State) {f : β → α → β} (hf : ∀ b a, Canon (g b) → Canon (g (f b a))) {b : β}
    (hb : Canon (g b)) (l : List α) : Canon (g (l.foldl f b)) := by
  induction l generalizing b with
  | nil => exact hb
  | cons a l ih => exact ih (hf b a hb)

theorem canon_foldl {α : Type} {f : State → α → State} (hf : ∀ s a, Canon s → Canon (f s a)) {s : State} (hs : Canon s)
    (l : List α) : Canon (l.foldl f s) :=
  canon_foldl_at id hf hs l

theorem canon_mk {agenda cur mcur free nextId cores agents dies slices ctxs mem lines mts served sets self_ pt ptSent latest ops
    vers resolves windows beats flits collNet grids bad out plat} (h : Memory.wf mem = true) :
    Canon ⟨agenda, cur, mcur, free, nextId, cores, agents, dies, slices, ctxs, mem, lines, mts, served, sets, self_, pt, ptSent,
      latest, ops, vers, resolves, windows, beats, flits, collNet, grids, bad, out, plat⟩ := h

-- the writes of memory that are no store at home

theorem wf_foldl_set {α : Type} {m : Tab Byte} (hm : Memory.wf m = true) (k : α → Nat) (v : Tab Byte → α → Byte) (l : List α) :
    Memory.wf (l.foldl (fun m a => m.set (k a) (v m a)) m) = true := by
  induction l generalizing m with
  | nil => exact hm
  | cons a l ih => exact ih (wf_set hm _ _)

theorem above_filter {α : Type} (p : Nat × α → Bool) {b : Nat} :
    ∀ {m : Tab α}, above b m = true → above b (m.filter p) = true
  | [], _ => rfl
  | (j, x) :: m, h => by
    simp only [above, Bool.and_eq_true, decide_eq_true_eq] at h
    rw [List.filter_cons]
    split
    · simp only [above, Bool.and_eq_true, decide_eq_true_eq]
      exact ⟨h.1, above_filter p h.2⟩
    · exact above_filter p h.2

theorem wf_filter {α : Type} [Inhabited α] [DecidableEq α] :
    ∀ {m : Tab α}, wf m = true → ∀ p : Nat × α → Bool, wf (m.filter p) = true
  | [], _, _ => rfl
  | (j, x) :: m, h, p => by
    simp only [wf, Bool.and_eq_true, decide_eq_true_eq] at h
    obtain ⟨⟨ha, hx⟩, hm⟩ := h
    rw [List.filter_cons]
    split
    · simp only [wf, Bool.and_eq_true, decide_eq_true_eq]
      exact ⟨⟨above_filter p ha, hx⟩, wf_filter hm p⟩
    · exact wf_filter hm p

section
variable {s : State}

-- the functions of Sys2Proof/Machine/Units.lean

theorem canon_modCore {u f} (hs : Canon s) : Canon (s.modCore u f) := hs
theorem canon_setWarp {u slot w} (hs : Canon s) : Canon (s.setWarp u slot w) := hs
theorem canon_modWarp {u slot f} (hs : Canon s) : Canon (s.modWarp u slot f) := hs
theorem canon_modDie {d f} (hs : Canon s) : Canon (s.modDie d f) := hs
theorem canon_modSlice {d i f} (hs : Canon s) : Canon (s.modSlice d i f) := hs
theorem canon_modAgent {n f} (hs : Canon s) : Canon (s.modAgent n f) := hs
theorem canon_modCtxRt {c f} (hs : Canon s) : Canon (s.modCtxRt c f) := hs
theorem canon_setSteps {u k} (hs : Canon s) : Canon (s.setSteps u k) := hs
theorem canon_fresh (hs : Canon s) : Canon s.fresh.2 := hs
theorem canon_drawFree (hs : Canon s) : Canon s.drawFree.2 := hs
theorem canon_modCur {f} (hs : Canon s) : Canon (s.modCur f) := hs
theorem canon_write {rs} (hs : Canon s) : Canon (s.write rs) := hs
theorem canon_addPend {h lanes mem hold res} (hs : Canon s) : Canon (s.addPend h lanes mem hold res) := hs

-- the functions of Sys2Proof/Machine/Window.lean

theorem canon_setReg {d off v} (hs : Canon s) : Canon (s.setReg d off v) := hs
theorem canon_plainWrite {d off v} (hs : Canon s) : Canon (s.plainWrite d off v) := canon_ite hs hs

theorem canon_readReg {d off} (hs : Canon s) : Canon (s.readReg d off).2 := by
  unfold readReg
  split
  · exact hs
  · split <;> exact hs

theorem canon_answerReg {d off} (hs : Canon s) : Canon (s.answerReg d off) := canon_readReg hs

-- the functions of Sys2Proof/Machine/Mem.lean

theorem canon_putTs {pa t} (hs : Canon s) : Canon (s.putTs pa t) := by
  unfold putTs
  split
  · exact hs
  · split <;> exact hs

theorem canon_homeStore {pa bs pts} (hs : Canon s) : Canon (s.homeStore pa bs pts).2 := wf_homeStore s hs pa bs pts

theorem canon_sendPt {pt} (hs : Canon s) : Canon (s.sendPt pt) := by
  unfold sendPt
  exact canon_mk hs

theorem canon_reachPt {pa w} (hs : Canon s) : Canon (s.reachPt pa w) := canon_ite (canon_sendPt hs) hs
theorem canon_devStore {pa bs} (hs : Canon s) : Canon (s.devStore pa bs) := canon_homeStore (canon_reachPt hs)
theorem canon_devStoreN {pa n x} (hs : Canon s) : Canon (s.devStoreN pa n x) := canon_devStore hs
theorem canon_homeLease {pa pts len} (hs : Canon s) : Canon (s.homeLease pa pts len).2.2 := canon_putTs hs
theorem canon_ctxStore {ctx va n x} (hs : Canon s) : Canon (s.ctxStore ctx va n x) := canon_devStoreN hs

-- the functions of Sys2Proof/Machine/HypTable.lean

theorem canon_setHyp {ctx h e} (hs : Canon s) : Canon (s.setHyp ctx h e) := canon_ctxStore hs
theorem canon_hypFree {ctx h} (hs : Canon s) : Canon (s.hypFree ctx h) := canon_ite (canon_setHyp hs) hs
theorem canon_refDec {ctx h} (hs : Canon s) : Canon (s.refDec ctx h) := canon_ite hs (canon_hypFree (canon_setHyp hs))
theorem canon_refInc {ctx h} (hs : Canon s) : Canon (s.refInc ctx h) := canon_ite hs (canon_setHyp hs)

theorem canon_setHy {u slot l h} (hs : Canon s) : Canon (s.setHy u slot l h) := by
  unfold setHy
  split
  · exact hs
  · exact canon_refInc (canon_refDec hs)

theorem canon_rewriteLane {u slot l} (hs : Canon s) : Canon (s.rewriteLane u slot l) := by
  unfold rewriteLane
  split
  · exact hs
  · exact canon_ite (canon_setHy hs) hs

theorem canon_syncVcnt {ctx h} (hs : Canon s) : Canon (s.syncVcnt ctx h) := canon_ite hs (canon_setHyp hs)

theorem canon_putVers {ctx tag pa bs} (hs : Canon s) : Canon (s.putVers ctx tag pa bs) := by
  induction bs generalizing s pa with
  | nil => exact hs
  | cons b r ih => exact ih (canon_mk hs)

-- the functions of Sys2Proof/Machine/Report.lean

theorem canon_interrupt {d n} (hs : Canon s) : Canon (s.interrupt d n) := canon_ite hs (canon_ite (canon_devStoreN hs) hs)
theorem canon_fqInterrupt {ctx} (hs : Canon s) : Canon (s.fqInterrupt ctx) := canon_ite hs (canon_interrupt hs)

theorem canon_report {ctx e} (hs : Canon s) : Canon (s.report ctx e) :=
  canon_ite (canon_fqInterrupt (canon_ctxStore (canon_ctxStore (canon_foldl (fun _ _ hs => canon_ctxStore hs) (canon_fqInterrupt
    (canon_ctxStore hs)) _)))) (canon_fqInterrupt (canon_ctxStore hs))

theorem canon_setFslot {ctx k f} (hs : Canon s) : Canon (s.setFslot ctx k f) := canon_ctxStore hs
theorem canon_allocHandle {ctx k} (hs : Canon s) : Canon (s.allocHandle ctx k).2 := canon_setFslot hs
theorem canon_completeHandle {ctx h status} (hs : Canon s) : Canon (s.completeHandle ctx h status) :=
  canon_ite hs (canon_ite (canon_setFslot hs) hs)

theorem canon_killContext {ctx e} (hs : Canon s) : Canon (s.killContext ctx e) :=
  canon_ite hs (canon_mk (canon_modDie (canon_modDie (canon_foldl (fun _ _ hs => by exact hs) (canon_modCtxRt
    (canon_report hs)) _))))

-- the functions of Sys2Proof/Machine/EngBase.lean

theorem canon_modEng {u f} (hs : Canon s) : Canon (s.modEng u f) := hs
theorem canon_leaveAdmitted {u} (hs : Canon s) : Canon (s.leaveAdmitted u) := canon_ite hs hs
theorem canon_pendDone {u slot id res} (hs : Canon s) : Canon (s.pendDone u slot id res) := canon_leaveAdmitted hs

theorem canon_issuerRegs {c rs} (hs : Canon s) : Canon (s.issuerRegs c rs) := by
  unfold issuerRegs
  split
  · exact hs
  · split
    · exact canon_pendDone hs
    · exact hs

theorem canon_finishCmd {c status} (hs : Canon s) : Canon (s.finishCmd c status) := by
  unfold finishCmd
  split
  · dsimp only
    split
    · exact canon_ctxStore (canon_ctxStore hs)
    · exact canon_issuerRegs hs
  · exact hs

theorem canon_engThaw {u e} (hs : Canon s) : Canon (s.engThaw u e) := canon_ite hs hs
theorem canon_engFreeze {u e c} (hs : Canon s) : Canon (s.engFreeze u e c) := canon_ite hs hs
theorem canon_setRunning {u e c} (hs : Canon s) : Canon (s.setRunning u e c) := canon_ite hs hs
theorem canon_setQueue {u e q} (hs : Canon s) : Canon (s.setQueue u e q) := canon_ite hs hs
theorem canon_markDce {die e} (hs : Canon s) : Canon (s.markDce die e) := hs
theorem canon_engRemove {u e} (hs : Canon s) : Canon (s.engRemove u e) := canon_ite (canon_setQueue hs) (canon_setRunning hs)

theorem canon_engDiscard {u e kind} (hs : Canon s) : Canon (s.engDiscard u e kind) := by
  unfold engDiscard
  split
  · exact canon_engThaw hs
  · exact canon_report (canon_engThaw (canon_engRemove (canon_finishCmd hs)))

theorem canon_engReply {u r kill} (hs : Canon s) : Canon (s.engReply u r kill) :=
  canon_ite (canon_ite hs (canon_ite (canon_engDiscard hs) (canon_ite (canon_engThaw hs) hs))) hs

theorem canon_mapAllCmds {f} (hs : Canon s) : Canon (s.mapAllCmds f) := by
  unfold mapAllCmds
  exact canon_modDie (canon_modDie (canon_foldl (fun _ _ hs => canon_modEng hs) hs _))

theorem canon_newHandle {ctx k} (hs : Canon s) : Canon (s.newHandle ctx k).2 := by
  unfold newHandle
  dsimp only
  split
  · exact canon_allocHandle hs
  · exact canon_mapAllCmds (canon_setFslot (canon_allocHandle hs))

-- the functions of Sys2Proof/Machine/Ops.lean

theorem canon_flow {u slot f} (hs : Canon s) : Canon (s.flow u slot f) := hs
theorem canon_advance (hs : Canon s) : Canon s.advance := hs
theorem canon_waitFor {t} (hs : Canon s) : Canon (s.waitFor t) := hs
theorem canon_blocked (hs : Canon s) : Canon s.blocked := hs
theorem canon_moveLanes {m pc j} (hs : Canon s) : Canon (s.moveLanes m pc j) := hs
theorem canon_modTeam {u uid f} (hs : Canon s) : Canon (s.modTeam u uid f) := hs

theorem canon_hurdleCheck {u uid h} (hs : Canon s) : Canon (s.hurdleCheck u uid h) := by
  unfold hurdleCheck
  split
  · exact hs
  · exact canon_ite (canon_foldl (fun _ _ hs => canon_flow hs) (canon_modTeam hs) _) hs

theorem canon_hurdleChecks {u uid} (hs : Canon s) : Canon (s.hurdleChecks u uid) :=
  canon_foldl (fun _ _ hs => canon_hurdleCheck hs) hs _
theorem canon_ilockSweep {d i} (hs : Canon s) : Canon (s.ilockSweep d i) := canon_ite hs hs
theorem canon_releaseTickets {u slot m} (hs : Canon s) : Canon (s.releaseTickets u slot m) := canon_ite hs (canon_ilockSweep hs)

theorem canon_parkLanes {u slot ps} (hs : Canon s) : Canon (s.parkLanes u slot ps) := by
  unfold parkLanes
  split <;> exact hs

theorem canon_hfault {u ctx pc info addr} (hs : Canon s) : Canon (s.hfault u ctx pc info addr) := canon_killContext hs

theorem canon_parkOutside {u slot xs} (hs : Canon s) : Canon (s.parkOutside u slot xs) := by
  unfold parkOutside
  split
  · exact hs
  · split
    · split
      · exact hs
      · exact canon_hfault hs
    · exact canon_parkLanes hs

theorem canon_raise {xs} (hs : Canon s) : Canon (s.raise xs) := by
  unfold raise
  split
  · exact hs
  · exact canon_ite (canon_hfault hs) (canon_parkLanes hs)

theorem canon_raiseAll {m c info} (hs : Canon s) : Canon (s.raiseAll m c info) := canon_raise hs

theorem canon_withdraw {u slot p} (hs : Canon s) : Canon (s.withdraw u slot p) := by
  unfold withdraw
  extract_lets ready drop
  have hready {s} (hs : Canon s) : Canon (ready s) := canon_modWarp hs
  have hdrop {s} (hs : Canon s) : Canon (drop s) := hready (canon_modWarp hs)
  clear_value drop ready
  split
  · exact hready hs
  · exact hready hs
  · exact hdrop hs
  · exact hdrop (canon_modWarp hs)
  · split
    · exact hs
    · exact canon_ite hs (hdrop (canon_modCore hs))
  · exact hdrop (canon_modCore hs)
  · exact canon_ite (hdrop (canon_mk hs)) hs
  · exact hs

theorem canon_parkDue {u slot m} (hs : Canon s) : Canon (s.parkDue u slot m) := by
  unfold parkDue
  split
  · exact hs
  · exact canon_parkOutside hs

theorem canon_strikeBoundary {u slot m cause info addr} (hs : Canon s) : Canon (s.strikeBoundary u slot m cause info addr) := by
  unfold strikeBoundary
  split
  · exact hs
  · exact canon_foldl (fun _ _ hs => canon_parkDue (canon_withdraw hs)) (canon_modWarp hs) _

theorem canon_strikeIssuer {c cause info addr} (hs : Canon s) : Canon (s.strikeIssuer c cause info addr) :=
  canon_ite (canon_strikeBoundary hs) hs

theorem canon_failLatch {u l f} (hs : Canon s) : Canon (s.failLatch u l f) := by
  unfold failLatch
  dsimp only
  exact canon_foldl (fun _ _ hs => by
      split
      · exact hs
      · split
        · exact canon_parkLanes (canon_modWarp hs)
        · exact canon_flow (canon_parkLanes (canon_modWarp hs))) (canon_modCore hs) _

theorem canon_gangGone {u team widx} (hs : Canon s) : Canon (s.gangGone u team widx) :=
  canon_foldl (fun _ _ hs => canon_failLatch hs) hs _

theorem canon_exitLanes {u slot m} (hs : Canon s) : Canon (s.exitLanes u slot m) := by
  unfold exitLanes
  split
  · exact hs
  · split
    · exact hs
    · dsimp only
      split
      · exact canon_releaseTickets (canon_flow (canon_foldl (fun _ _ hs => canon_setHy hs) hs _))
      · split
        · split
          · exact canon_gangGone (canon_hurdleChecks (canon_releaseTickets (canon_flow (canon_foldl
                (fun _ _ hs => canon_setHy hs) hs _))))
          · exact canon_hurdleChecks (canon_releaseTickets (canon_flow (canon_foldl (fun _ _ hs => canon_setHy hs) hs _)))
        · exact canon_hurdleChecks (canon_releaseTickets (canon_flow (canon_foldl (fun _ _ hs => canon_setHy hs) hs _)))

theorem canon_discardStopped {u slot owner} (hs : Canon s) : Canon (s.discardStopped u slot owner) :=
  canon_foldl (fun _ _ hs => canon_ite (canon_engDiscard hs) hs) hs _

theorem canon_killLanes {u slot m} (hs : Canon s) : Canon (s.killLanes u slot m) := by
  unfold killLanes
  split
  · exact hs
  · dsimp only
    split
    · exact canon_foldl (fun _ _ hs => canon_engReply hs) (canon_exitLanes hs) _
    · split
      · exact canon_completeHandle (canon_ite (canon_discardStopped (canon_foldl (fun _ _ hs => canon_engReply hs)
            (canon_exitLanes hs) _)) (canon_foldl (fun _ _ hs => canon_engReply hs) (canon_exitLanes hs) _))
      · split
        · exact canon_discardStopped (canon_foldl (fun _ _ hs => canon_engReply hs) (canon_exitLanes hs) _)
        · exact canon_foldl (fun _ _ hs => canon_engReply hs) (canon_exitLanes hs) _

theorem canon_unhold {u slot} (hs : Canon s) : Canon (s.unhold u slot) := canon_ite hs hs

theorem canon_resumeLanes {u slot m mode at_} (hs : Canon s) : Canon (s.resumeLanes u slot m mode at_) := by
  unfold resumeLanes
  split
  · exact hs
  · dsimp only
    split
    · exact canon_killLanes hs
    · exact canon_parkLanes (canon_ite (canon_foldl (fun _ _ hs => canon_engReply hs) (canon_ite (canon_foldl
          (fun _ _ hs => canon_flow hs) (canon_modWarp hs) _) (canon_modWarp (canon_foldl (fun _ _ hs => canon_flow hs)
          (canon_modWarp hs) _))) _) (canon_ite (canon_foldl (fun _ _ hs => canon_flow hs) (canon_modWarp hs) _) (canon_modWarp
          (canon_foldl (fun _ _ hs => canon_flow hs) (canon_modWarp hs) _))))

theorem canon_ctxStoreDwords {ctx va ds} (hs : Canon s) : Canon (s.ctxStoreDwords ctx va ds) := by
  induction ds generalizing s va with
  | nil => exact hs
  | cons d r ih => exact ih (canon_ctxStore hs)

theorem canon_takeTrap {u} (hs : Canon s) : Canon (s.takeTrap u) := by
  unfold takeTrap
  extract_lets c
  split
  · extract_lets s1
    have h1 : Canon s1 := canon_modCore hs
    clear_value s1
    split
    · exact canon_hfault h1
    · refine canon_ite (canon_hfault h1) (canon_ite (canon_hfault h1) ?_)
      exact canon_modWarp (canon_modCore (canon_ctxStoreDwords h1))
  · exact hs

theorem canon_closeTrap {mode} (hs : Canon s) : Canon (s.closeTrap mode) := by
  unfold closeTrap
  dsimp only
  split
  · exact hs
  · exact canon_unhold (canon_ite (canon_modWarp (canon_resumeLanes (canon_modWarp (canon_modCore hs)))) (canon_resumeLanes
        (canon_modWarp (canon_modCore hs))))

-- the functions of Sys2Proof/Machine/Operands.lean

theorem canon_perLane {h f} (hs : Canon s) : Canon (s.perLane h f) := hs
theorem canon_lane32 {h d f} (hs : Canon s) : Canon (s.lane32 h d f) := hs
theorem canon_laneP {h d f} (hs : Canon s) : Canon (s.laneP h d f) := hs
theorem canon_inFlight {h m mem hold res} (hs : Canon s) : Canon (s.inFlight h m mem hold res) := canon_ite hs hs
theorem canon_perLaneVar {h f} (hs : Canon s) : Canon (s.perLaneVar h f) := canon_advance (canon_inFlight hs)
theorem canon_laneVar32 {h d f} (hs : Canon s) : Canon (s.laneVar32 h d f) := canon_perLaneVar hs
theorem canon_laneVar64 {h d f} (hs : Canon s) : Canon (s.laneVar64 h d f) := canon_perLaneVar hs

theorem canon_uniform {h f} (hs : Canon s) : Canon (s.uniform h f) := by
  unfold uniform
  split <;> exact hs

-- the functions of Sys2Proof/Machine/Access.lean

theorem canon_gate {h} (hs : Canon s) : Canon (s.gate h).2 := by
  unfold gate
  dsimp only
  split
  · exact canon_foldl (fun _ _ hs => canon_rewriteLane hs) hs _
  · split
    · exact canon_raiseAll (canon_foldl (fun _ _ hs => canon_rewriteLane hs) hs _)
    · exact canon_mk (canon_modCur (canon_ite (canon_moveLanes (canon_foldl (fun _ _ hs => canon_setHy hs) (canon_foldl
          (fun _ _ hs => canon_rewriteLane hs) hs _) _)) (canon_exitLanes (canon_foldl (fun _ _ hs => canon_setHy hs)
          (canon_foldl (fun _ _ hs => canon_rewriteLane hs) hs _) _))))

theorem canon_globals {p m need al ea} (hs : Canon s) : Canon (s.globals p m need al ea).2 := canon_raise hs
theorem canon_scrPut {u a bs} (hs : Canon s) : Canon (s.scrPut u a bs) := hs

theorem canon_healGranules {st g a n} (hs : Canon s) : Canon (s.healGranules st g a n).2 := by
  unfold healGranules
  split
  · exact hs
  · exact hs

theorem canon_note {ctx u slot cause addr info} (hs : Canon s) : Canon (s.note ctx u slot cause addr info) := canon_report hs
theorem canon_endOp {o res} (hs : Canon s) : Canon (s.endOp o res) :=
  canon_ite (canon_pendDone hs) (canon_hypFree (canon_pendDone hs))

theorem canon_parkBack {u slot pc xs} (hs : Canon s) : Canon (s.parkBack u slot pc xs) := by
  unfold parkBack
  split
  · exact hs
  · split
    · split
      · exact hs
      · exact canon_hfault hs
    · exact canon_parkLanes hs

theorem canon_parkLate {o xs} (hs : Canon s) : Canon (s.parkLate o xs) := by
  unfold parkLate
  split
  · exact hs
  · exact canon_parkBack (canon_endOp hs)

theorem canon_tryHit {o} (hs : Canon s) : Canon (s.tryHit o) := by
  unfold tryHit
  split
  · exact hs
  · dsimp only
    split
    · exact hs
    · split
      · exact canon_note hs
      · exact canon_endOp hs

theorem canon_regulate {o} (hs : Canon s) : Canon (s.regulate o) := canon_ite hs hs

theorem canon_issueOps {h m os} (hs : Canon s) : Canon (s.issueOps h m os) :=
  canon_ite hs (canon_foldl (fun _ _ hs => canon_ite (canon_regulate hs) hs) (canon_foldl (fun _ _ hs => canon_tryHit hs)
    (canon_mk (canon_addPend hs)) _) _)

-- the functions of Sys2Proof/Machine/Issue.lean

theorem canon_admission {u slot i} (hs : Canon s) : Canon (s.admission u slot i).2 := by
  unfold admission
  split
  · exact hs
  · split
    · exact hs
    · exact canon_ite hs hs

theorem canon_countAdmitted {u slot i} (hs : Canon s) : Canon (s.countAdmitted u slot i) := canon_ite hs hs
theorem canon_healRegs {u slot rs} (hs : Canon s) : Canon (s.healRegs u slot rs) :=
  canon_ite hs (canon_foldl (fun _ _ hs => canon_note hs) (canon_mk hs) _)
theorem canon_countIssue {forced} (hs : Canon s) : Canon (s.countIssue forced) := hs
theorem canon_awaitToken {u slot k} (hs : Canon s) : Canon (s.awaitToken u slot k) := hs

theorem canon_prepWord {u slot byAge forced d h} (hs : Canon s) : CanonPrep (s.prepWord u slot byAge forced d h) := by
  unfold prepWord
  extract_lets i chk m s1 _src s2 s3 w p stop
  have h2 : Canon s2 := canon_ite (canon_modCur hs) (canon_mk (canon_modCur hs))
  have h3 : Canon s3 := canon_ite (canon_gate h2) h2
  have hstop {f : State → State} (hf : ∀ s, Canon s → Canon (f s)) : CanonPrep (stop f) := hf _ (canon_countIssue h3)
  clear_value s3
  split
  · exact hstop fun _ hs => hs
  · split
    · exact hstop fun _ hs => canon_raiseAll hs
    · split
      · exact hstop fun _ hs => canon_raiseAll hs
      · split
        · exact hstop fun _ hs => canon_raise hs
        · have ha := canon_admission (u := u) (slot := slot) (i := i) h3
          dsimp only
          split
          · exact canon_blocked ha
          · exact ⟨ha, canon_countIssue ha⟩

theorem canon_prep {u slot} (hs : Canon s) : CanonPrep (s.prep u slot) := by
  unfold prep
  split
  · exact hs
  · split
    · exact hs
    · split
      · exact hs
      · extract_lets k forced _cur start
        have hstart {len wd lit} : Canon (start len wd lit) := canon_mk (canon_modWarp hs)
        split
        · split
          · exact hs
          · exact canon_parkOutside hs
        · split
          · exact canon_parkDue hs
          · split
            · exact canon_raise (canon_countIssue hstart)
            · dsimp only
              split
              · exact hs
              · exact canonPrep_ite (canon_awaitToken hs) (canon_prepWord hstart)

theorem canon_book {s2 i h} (h2 : Canon s2) : Canon (s.book s2 i h) := canon_healRegs h2
theorem canon_finish {s2 i h byAge} (h2 : Canon s2) : Canon (s.finish s2 i h byAge) :=
  canon_mk (canon_modCur (canon_countAdmitted (canon_book h2)))

-- the functions of Sys2Proof/Machine/Actions.lean

theorem canon_applyReply {ctx at_} (hs : Canon s) : Canon (s.applyReply ctx at_) := by
  unfold applyReply
  extract_lets d x cause u eng slot named m mode here s1 e s2
  have h1 : Canon s1 := canon_ite (canon_resumeLanes hs) hs
  clear_value s1 mode
  have h2 : Canon s2 := by
    refine canon_ite ?_ h1
    cases mode with
    | retry => exact canon_engThaw h1
    | kill => exact canon_engDiscard h1
    | skip => exact h1
  clear_value s2
  split
  · exact canon_ite hs (canon_ctxStore h2)
  · exact hs

theorem canon_scanQueue {ctx} (hs : Canon s) : Canon (s.scanQueue ctx) :=
  canon_ite hs (canon_foldl (fun _ _ hs => canon_ite (canon_applyReply hs) hs) hs _)

-- the functions of Sys2Proof/Machine/Start.lean

theorem canon_pickFree {n fs} (hs : Canon s) : Canon (pickFree n s fs).2 := by
  induction n generalizing s fs with
  | zero => exact hs
  | succ n ih => exact ih (canon_drawFree hs)

theorem canon_startAlone {u ctx src issuer entry m f} (hs : Canon s) : Canon (s.startAlone u ctx src issuer entry m f) := by
  unfold startAlone
  split <;> exact hs

theorem canon_bindTickets {ctx v slot seq slots} (hs : Canon s) : Canon (s.bindTickets ctx v slot seq slots) := canon_ite hs hs

theorem canon_startSpawned {ctx u p} (hs : Canon s) : CanonOpt id (s.startSpawned ctx u p) := by
  refine canonOpt_map_of fun v => canon_startAlone ?_
  split
  · exact canon_bindTickets (canon_modCtxRt hs)
  · exact canon_modCtxRt hs

theorem canon_startPending {d i} (hs : Canon s) : CanonOpt id (s.startPending d i) := by
  unfold startPending
  dsimp only
  split
  · exact canonOpt_map (canon_startSpawned hs) fun _ ht => ht
  · trivial

theorem canon_startPendings {d i n} (hs : Canon s) : Canon (startPendings d i n s) := by
  induction n generalizing s with
  | zero => exact hs
  | succ n ih =>
    unfold startPendings
    split
    · rename_i e
      exact ih ((canon_startPending hs).of_some e)
    · exact hs

theorem canon_launchBin {u b} (hs : Canon s) : CanonOpt id (s.launchBin u b) := by
  unfold launchBin
  split
  · exact hs
  · dsimp only
    split
    · trivial
    · split
      · rename_i e
        exact (canon_startSpawned (canon_modCore (canon_startPendings hs))).of_some e
      · exact canon_startPendings hs

theorem canon_appendRec {u ctx b slot r} (hs : Canon s) : CanonSpawned (s.appendRec u ctx b slot r) := by
  unfold appendRec
  split
  · exact hs
  · split
    · exact hs
    · extract_lets s1 s2
      have h1 : Canon s1 := canon_foldl (fun _ _ hs => canon_ctxStore hs) hs _
      have h2 : Canon s2 := canon_modCore h1
      clear_value s2
      exact canon_ite (canon_getD (canon_launchBin h2) h2) h2

theorem canon_takePool {ctx pool} (hs : Canon s) : CanonOpt Prod.snd (s.takePool ctx pool) := by
  unfold takePool
  cases pool with
  | some i => exact hs
  | none =>
    cases s.poolTake ctx with
    | none => trivial
    | some i => exact hs

theorem canon_poolBack {ctx pool} (hs : Canon s) : Canon (s.poolBack ctx pool) := by
  unfold poolBack
  split <;> exact hs

theorem canon_spawnOne {u user ctx prio e r pool} (hs : Canon s) : CanonSpawned (s.spawnOne u user ctx prio e r pool) := by
  unfold spawnOne
  split
  · exact hs
  · rename_i slot t e
    have ht : Canon t := (canon_takePool hs).of_some e
    clear e
    split
    · exact canon_appendRec ht
    · split
      · trivial
      · dsimp only
        split
        · exact ht
        · rename_i e
          refine canon_appendRec (canon_modCore (canon_fresh ?_))
          split at e
          · cases e
            exact ht
          · obtain ⟨t', e', he⟩ := Option.map_eq_some_iff.mp e
            cases he
            exact (canon_launchBin ht).of_some e'

theorem canon_spawnLanes {u user ctx prio e pool l} (hs : Canon s) : Canon (spawnLanes u user ctx prio e s pool l).1 := by
  induction l generalizing s pool with
  | nil => exact canon_poolBack hs
  | cons x t ih =>
    have h1 := canon_spawnOne (u := u) (user := user) (ctx := ctx) (prio := prio) (e := e) (r := x.2) (pool := pool) hs
    unfold spawnLanes
    split
    · rename_i e
      rw [e] at h1
      exact ih h1
    · rename_i e
      rw [e] at h1
      exact h1
    · exact ih (canon_poolBack hs)

theorem canon_queueTask {u t} (hs : Canon s) : Canon (s.queueTask u t) := hs

theorem canon_batonLanes {u ctx prio issuer e ks l} (hs : Canon s) : Canon (batonLanes u ctx prio issuer e ks s l).1 := by
  induction l generalizing s with
  | nil => exact hs
  | cons x t ih =>
    unfold batonLanes
    split
    · exact hs
    · exact ih (canon_queueTask (canon_newHandle hs))

theorem canon_threadDone {u ctx h} (hs : Canon s) : Canon (s.threadDone u ctx h) := canon_ite hs (canon_completeHandle hs)

-- the functions of Sys2Proof/Machine/Control.lean

theorem canon_pushRet {e} (hs : Canon s) : CanonOk id (s.pushRet e) := by
  unfold pushRet
  dsimp only
  split
  · exact hs
  · split
    · trivial
    · split
      · trivial
      · exact canon_devStore hs

theorem canon_callLanes {h m d tgt stay} (hs : Canon s) : Canon (s.callLanes h m d tgt stay) := by
  unfold callLanes
  dsimp only
  split
  · exact canon_raise hs
  · rename_i e
    exact canon_flow (canon_addPend ((canon_pushRet hs).of_ok e))

theorem canon_refill (hs : Canon s) : Canon s.refill := by
  unfold refill
  dsimp only
  split
  · split <;> exact hs
  · exact hs

theorem canon_dropSpilled {n} (hs : Canon s) : Canon (s.dropSpilled n) := by
  induction n generalizing s with
  | zero => exact hs
  | succ n ih =>
    unfold dropSpilled
    dsimp only
    split
    · split
      · exact canon_ite (ih hs) hs
      · exact hs
    · exact hs

theorem canon_retTo {m a core i en} (hs : Canon s) : Canon (s.retTo m a core i en) := by
  unfold retTo
  dsimp only
  exact canon_dropSpilled (canon_ite hs (by
      split
      · exact canon_devStore hs
      · exact hs))

theorem canon_execNop {x x'} (hs : Canon s) : CanonOut (execNop x x' s) := hs
theorem canon_execBra {h tgt joff x} (hs : Canon s) : CanonOut (execBra h tgt joff x s) := hs
theorem canon_execJmp {h tgt x} (hs : Canon s) : CanonOut (execJmp h tgt x s) := hs
theorem canon_execBrx {h a joff} (hs : Canon s) : CanonOut (execBrx h a joff s) := canon_flow (canon_raise hs)
theorem canon_execCall {h d x off} (hs : Canon s) : CanonOut (execCall h d x off s) := canon_ite hs (canon_callLanes hs)

theorem canon_execCallx {h d a} (hs : Canon s) : CanonOut (execCallx h d a s) := by
  unfold execCallx
  dsimp only
  split
  · exact canon_advance (canon_raise hs)
  · exact canon_callLanes (canon_raise hs)

theorem canon_execRet {h a} (hs : Canon s) : CanonOut (execRet h a s) := by
  unfold execRet
  dsimp only
  split
  · exact canon_advance hs
  · split
    · exact canon_advance (canon_raise hs)
    · split
      · exact canon_advance (canon_raiseAll (canon_refill hs))
      · split
        · exact canon_retTo (canon_refill hs)
        · exact canon_advance (canon_raiseAll (canon_refill hs))

theorem canon_execExit {h} (hs : Canon s) : CanonOut (execExit h s) := canon_exitLanes hs
theorem canon_execYield {h} (hs : Canon s) : CanonOut (execYield h s) := canon_ite hs hs
theorem canon_execSleep {h a rel} (hs : Canon s) : CanonOut (execSleep h a rel s) := canon_ite hs hs

theorem canon_execLrot {h lvl x stg size base} (hs : Canon s) : CanonOut (execLrot h lvl x stg size base s) := by
  unfold execLrot
  dsimp only
  split
  · exact canon_advance hs
  · split
    · exact canon_advance (canon_raiseAll hs)
    · split
      · exact canon_advance (canon_raiseAll hs)
      · exact canon_advance (canon_modCur hs)

theorem canon_execLset {h lvl x cnt len} (hs : Canon s) : CanonOut (execLset h lvl x cnt len s) := by
  unfold execLset
  dsimp only
  split
  · exact canon_advance hs
  · split
    · exact canon_advance (canon_raiseAll hs)
    · exact canon_ite (canon_advance (canon_raiseAll hs)) (canon_ite (canon_flow hs) (canon_flow hs))

theorem canon_execLbrk {h lvl} (hs : Canon s) : CanonOut (execLbrk h lvl s) := by
  unfold execLbrk
  dsimp only
  split
  · exact canon_advance hs
  · split
    · exact canon_advance (canon_raiseAll hs)
    · exact canon_ite (canon_advance (canon_raiseAll hs)) (canon_flow hs)

theorem canon_arrive {m h n} (hs : Canon s) : CanonOk id (s.arrive m h n) := by
  unfold arrive
  dsimp only
  split
  · exact hs
  · split
    · trivial
    · exact hs

theorem canon_awaitHurdle {m h} (hs : Canon s) : Canon (s.awaitHurdle m h) := hs

theorem canon_execHarr {h x hd n} (hs : Canon s) : CanonOut (execHarr h x hd n s) := by
  unfold execHarr
  dsimp only
  split
  · exact canon_advance hs
  · split
    · exact canon_blocked hs
    · split
      · exact canon_advance (canon_raiseAll hs)
      · rename_i e
        exact canon_hurdleCheck (canon_advance ((canon_arrive hs).of_ok e))

theorem canon_execHwt {h x hd x'} (hs : Canon s) : CanonOut (execHwt h x hd x' s) := canon_ite hs hs

theorem canon_execHurd {h x hd n} (hs : Canon s) : CanonOut (execHurd h x hd n s) := by
  unfold execHurd
  dsimp only
  split
  · exact canon_advance hs
  · split
    · exact canon_blocked hs
    · split
      · exact canon_advance (canon_raiseAll hs)
      · rename_i e
        exact canon_hurdleCheck (canon_awaitHurdle ((canon_arrive hs).of_ok e))

theorem canon_regxDone {h m d ok} (hs : Canon s) : Canon (s.regxDone h m d ok) := canon_inFlight hs
theorem canon_execRegx {h d x n} (hs : Canon s) : CanonOut (execRegx h d x n s) :=
  canon_ite hs (canon_ite (canon_regxDone hs) (canon_ite (canon_regxDone hs) hs))
theorem canon_execRegs {h x n} (hs : Canon s) : CanonOut (execRegs h x n s) :=
  canon_ite (canon_advance hs) (canon_ite (canon_advance (canon_raiseAll hs)) (canon_advance (canon_modCur hs)))
theorem canon_execTrap {h x code} (hs : Canon s) : CanonOut (execTrap h x code s) := canon_advance (canon_raiseAll hs)

theorem canon_reload (hs : Canon s) : Canon s.reload := by
  unfold reload
  dsimp only
  split
  · exact hs
  · split
    · exact hs
    · exact canon_foldl (fun _ _ hs => canon_ite hs (canon_setHy hs)) (canon_setWarp hs) _

theorem canon_eret {h mode} (hs : Canon s) : Canon (s.eret h mode) := by
  unfold eret
  exact canon_ite (canon_advance hs) (canon_ite (canon_advance (canon_raiseAll hs)) (canon_ite (canon_closeTrap hs) (canon_ite
      (canon_blocked hs) (canon_ite (canon_raiseAll hs) (canon_closeTrap (canon_reload hs))))))

theorem canon_parkSome {u slot m} (hs : Canon s) : Canon (s.parkSome u slot m) := by
  unfold parkSome
  split
  · exact hs
  · exact canon_parkOutside hs

theorem canon_execEretRetry {h} (hs : Canon s) : CanonOut (execEretRetry h s) := canon_eret hs
theorem canon_execEretSkip {h} (hs : Canon s) : CanonOut (execEretSkip h s) := canon_eret hs
theorem canon_execEretKill {h} (hs : Canon s) : CanonOut (execEretKill h s) := canon_eret hs

theorem canon_execPark {h a b} (hs : Canon s) : CanonOut (execPark h a b s) := by
  unfold execPark
  dsimp only
  split
  · exact canon_advance hs
  · split
    · exact canon_advance (canon_raiseAll hs)
    · split
      · exact canon_raiseAll hs
      · exact canon_advance (canon_parkSome hs)

theorem canon_execUnparkRetry {h a b} (hs : Canon s) : CanonOut (execUnparkRetry h a b s) := by
  unfold execUnparkRetry
  dsimp only
  split
  · exact canon_advance hs
  · split
    · exact canon_advance (canon_raiseAll hs)
    · split
      · exact canon_raiseAll hs
      · exact canon_advance (canon_resumeLanes hs)

theorem canon_execUnparkSkip {h a b} (hs : Canon s) : CanonOut (execUnparkSkip h a b s) := by
  unfold execUnparkSkip
  dsimp only
  split
  · exact canon_advance hs
  · split
    · exact canon_advance (canon_raiseAll hs)
    · split
      · exact canon_raiseAll hs
      · exact canon_advance (canon_resumeLanes hs)

-- the functions of Sys2Proof/Machine/Hyp.lean

theorem canon_hsetLanes {ids} (hs : Canon s) : Canon (s.hsetLanes ids) :=
  canon_raise (canon_foldl (fun _ _ hs => canon_setHy hs) hs _)

theorem canon_openHyps {ctx l} (hs : Canon s) : Canon (s.openHyps ctx l).2 := by
  induction l generalizing s with
  | nil => exact hs
  | cons p r ih => exact ih (canon_setHyp hs)

theorem canon_hres {h d a refute} (hs : Canon s) : Canon (s.hres h d a refute) := by
  unfold hres
  exact canon_ite (canon_advance (canon_gate hs)) (canon_waitFor (canon_mk (canon_addPend (canon_gate hs))))

theorem canon_execHset {h a} (hs : Canon s) : CanonOut (execHset h a s) := canon_advance (canon_hsetLanes (canon_gate hs))

theorem canon_execHnew {h d a} (hs : Canon s) : CanonOut (execHnew h d a s) := by
  unfold execHnew
  dsimp only
  split
  · exact canon_advance (canon_gate hs)
  · split
    · exact canon_advance (canon_inFlight (canon_raise (canon_openHyps (canon_gate hs))))
    · split
      · exact canon_advance (canon_raiseAll (canon_gate hs))
      · exact canon_advance (canon_raiseAll (canon_gate hs))
      · exact canon_advance (canon_inFlight (canon_openHyps (canon_gate hs)))

theorem canon_execHresConfirm {h d a} (hs : Canon s) : CanonOut (execHresConfirm h d a s) := canon_hres hs
theorem canon_execHresRefute {h d a} (hs : Canon s) : CanonOut (execHresRefute h d a s) := canon_hres hs

theorem canon_execHqryInfo {h d a} (hs : Canon s) : CanonOut (execHqryInfo h d a s) := by
  unfold execHqryInfo
  dsimp only
  split
  · exact canon_advance (canon_gate hs)
  · split
    · exact canon_advance (canon_raiseAll (canon_gate hs))
    · exact canon_advance (canon_inFlight (canon_gate hs))

theorem canon_execHqryAnc {h d a b} (hs : Canon s) : CanonOut (execHqryAnc h d a b s) :=
  canon_advance (canon_inFlight (canon_raise (canon_gate hs)))

-- the functions of Sys2Proof/Machine/Special.lean

theorem canon_writeGng {m v} (hs : Canon s) : Canon (s.writeGng m v) := canon_ite hs (canon_raiseAll hs)

theorem canon_writeSpecial {m sp v} (hs : Canon s) : Canon (s.writeSpecial m sp v) := by
  unfold writeSpecial
  extract_lets u w x trap
  have ht {f} : Canon (trap f) := canon_modCore hs
  refine canon_ite (canon_ite (canon_raiseAll hs) (canon_modCur hs)) (canon_ite ?_ (canon_ite (canon_ite (canon_raiseAll hs)
      (canon_modCur hs))
    (canon_ite (canon_modCur hs) (canon_ite (canon_modCur hs) (canon_ite (canon_writeGng hs) (canon_ite (canon_modCur hs)
    (canon_ite (canon_modCur hs) (canon_ite (canon_modCore hs) (canon_ite (canon_modCtxRt hs)
    (canon_ite ht (canon_ite ht (canon_ite ht hs))))))))))))
  split
  · exact canon_raiseAll hs
  · exact canon_modCur hs

theorem canon_execSrd {h d x spec} (hs : Canon s) : CanonOut (execSrd h d x spec s) := by
  unfold execSrd
  dsimp only
  split
  · exact canon_advance hs
  · split
    · exact canon_advance (canon_raiseAll hs)
    · split
      · split
        · exact canon_blocked hs
        · exact canon_advance (canon_inFlight (canon_modCtxRt (canon_newHandle hs)))
      · split
        · exact canon_advance (canon_write hs)
        · exact canon_advance (canon_write hs)

theorem canon_execSwr {h a x spec} (hs : Canon s) : CanonOut (execSwr h a x spec s) := by
  unfold execSwr
  dsimp only
  split
  · exact canon_advance hs
  · split
    · exact canon_advance (canon_raiseAll hs)
    · split
      · exact canon_advance (canon_raiseAll hs)
      · exact canon_ite (canon_advance (canon_hsetLanes hs)) (canon_advance (canon_writeSpecial hs))

-- the functions of Sys2Proof/Machine/Tex.lean

theorem canon_texDone {u slot id} (hs : Canon s) : Canon (s.texDone u slot id) := canon_ite hs hs

-- the functions of Sys2Proof/Machine/Work.lean

theorem canon_workOn {id baton dst e left ks pool} (hs : Canon s) : Canon (s.workOn id baton dst e left ks pool) :=
  canon_ite (canon_advance (canon_pendDone hs)) (canon_waitFor hs)

theorem canon_workAgain {u slot baton} (hs : Canon s) : Canon (s.workAgain u slot baton) := by
  unfold workAgain
  split
  · exact hs
  · split
    · exact hs
    · split
      · extract_lets now
        split
        rename_i e
        have ht := canon_fst (by
          split
          · exact canon_modWarp (canon_batonLanes hs)
          · exact canon_spawnLanes hs) e
        exact canon_ite (canon_parkBack (canon_modWarp ht)) (canon_flow (canon_pendDone (canon_parkBack (canon_modWarp ht))))
      · exact hs

theorem canon_execSpawn {h a x words off} (hs : Canon s) : CanonOut (execSpawn h a x words off s) :=
  canon_ite hs (canon_ite hs (canon_workOn (canon_raise (canon_spawnLanes hs))))

theorem canon_execTask {h d a x off} (hs : Canon s) : CanonOut (execTask h d a x off s) := by
  unfold execTask
  dsimp only
  split
  · exact canon_advance hs
  · split
    · exact canon_blocked hs
    · split
      · exact canon_advance (canon_raiseAll hs)
      · split
        · exact canon_blocked hs
        · exact canon_advance (canon_inFlight (canon_queueTask (canon_newHandle hs)))

theorem canon_execBaton {h d a x words off} (hs : Canon s) : CanonOut (execBaton h d a x words off s) :=
  canon_ite hs (canon_ite hs (canon_workOn (canon_batonLanes hs)))
theorem canon_freeHandle {ctx h} (hs : Canon s) : Canon (s.freeHandle ctx h) := canon_ite hs (canon_ite (canon_setFslot hs) hs)

theorem canon_cancelOne {ctx h} (hs : Canon s) : Canon (s.cancelOne ctx h).2 := by
  unfold cancelOne
  split
  · exact hs
  · split
    · exact canon_completeHandle hs
    · split
      · exact hs
      · split
        · exact canon_completeHandle hs
        · exact hs

theorem canon_cancelAll {ctx l} (hs : Canon s) : Canon (cancelAll ctx s l).2 := by
  induction l generalizing s with
  | nil => exact hs
  | cons x t ih => exact ih (canon_cancelOne hs)

theorem canon_acquireAll {u} (hs : Canon s) : Canon (s.acquireAll u) := hs

theorem canon_execFwait {h d a} (hs : Canon s) : CanonOut (execFwait h d a s) :=
  canon_ite (canon_advance hs) (canon_ite (canon_advance (canon_raise hs)) (canon_ite (canon_advance (canon_inFlight
    (canon_acquireAll (canon_foldl (fun _ _ hs => canon_freeHandle hs) (canon_raise hs) _)))) (canon_blocked (canon_raise hs))))

theorem canon_execFtest {h d a} (hs : Canon s) : CanonOut (execFtest h d a s) := canon_advance (canon_inFlight (canon_raise hs))
theorem canon_execCancel {h d a} (hs : Canon s) : CanonOut (execCancel h d a s) :=
  canon_advance (canon_inFlight (canon_cancelAll (canon_raise hs)))

-- the functions of Sys2Proof/Machine/Warps.lean

theorem canon_writeback {u slot id m regs} (hs : Canon s) : Canon (s.writeback u slot id m regs) := by
  unfold writeback
  extract_lets s1
  have h1 : Canon s1 := canon_texDone hs
  clear_value s1
  split
  · exact h1
  · refine canon_ite (canon_modWarp h1) (canon_ite h1 ?_)
    exact canon_mk (canon_healRegs (canon_leaveAdmitted (canon_modWarp (canon_modCore h1))))

theorem canon_pathOn {u slot p} (hs : Canon s) : Canon (s.pathOn u slot p) := hs

theorem canon_regxAnswer {u r ok} (hs : Canon s) : Canon (s.regxAnswer u r ok) := by
  unfold regxAnswer
  dsimp only
  split
  · exact hs
  · split
    · exact hs
    · exact canon_pathOn (canon_pendDone hs)

theorem canon_gridDec {ctx q r heat} (hs : Canon s) : Canon (s.gridDec ctx q r heat) := by
  unfold gridDec
  extract_lets mine opened up
  have hup {s d} (hs : Canon s) : Canon (up s d) := canon_modDie hs
  clear_value up
  split
  · exact hs
  · extract_lets g' s1 s2 s2' s3 s4 s5
    have h2 : Canon s2 := hup (hup (canon_mk hs))
    clear_value s2
    have h3 : Canon s3 := canon_ite (canon_devStoreN (canon_devStoreN h2)) h2
    clear_value s3
    have h5 : Canon s5 := canon_completeHandle (canon_mk h3)
    exact canon_ite (canon_ite (canon_interrupt h5) h5) h3

theorem canon_retireTeam {u t} (hs : Canon s) : Canon (s.retireTeam u t) := by
  unfold retireTeam
  dsimp only
  split
  · exact canon_gridDec hs
  · exact hs

theorem canon_retireWarp {u slot} (hs : Canon s) : Canon (s.retireWarp u slot) := by
  unfold retireWarp
  split
  · exact hs
  · split
    · exact hs
    · dsimp only
      split
      · exact canon_threadDone (canon_modCore (canon_modDie hs))
      · split
        · exact canon_retireTeam (canon_threadDone (canon_modCore (canon_modDie hs)))
        · exact canon_threadDone (canon_modCore (canon_modDie hs))

theorem canon_strikeDead {u t} (hs : Canon s) : Canon (s.strikeDead u t) := by
  unfold strikeDead
  split
  · exact hs
  · split
    · exact hs
    · split
      · exact hs
      · exact canon_parkBack (canon_withdraw hs)

theorem canon_execResultWriteback {u slot id lanes regs} (hs : Canon s) :
    CanonOut (execResultWriteback u slot id lanes regs s) :=
  canon_writeback hs

theorem canon_execSpawnBinDeadline {u bin} (hs : Canon s) : CanonOut (execSpawnBinDeadline u bin s) := by
  unfold execSpawnBinDeadline
  split
  · exact canon_ite (canon_getD (canon_launchBin hs) hs) hs
  · exact hs

theorem canon_execPoolSlotTake {u slot} (hs : Canon s) : CanonOut (execPoolSlotTake u slot s) := canon_workAgain hs
theorem canon_execPendingWarpStart {die slice} (hs : Canon s) : CanonOut (execPendingWarpStart die slice s) :=
  canon_getD (canon_startPending hs) hs

theorem canon_execBinLaunchRetry {u bin} (hs : Canon s) : CanonOut (execBinLaunchRetry u bin s) := by
  unfold execBinLaunchRetry
  split
  · exact canon_ite (canon_getD (canon_launchBin hs) hs) hs
  · exact hs

theorem canon_execTaskDispatch {u} (hs : Canon s) : CanonOut (execTaskDispatch u s) := by
  unfold execTaskDispatch
  dsimp only
  split
  · exact canon_ite hs (canon_startAlone hs)
  · exact hs

theorem canon_execTaskPriorityAgeing {u} (hs : Canon s) : CanonOut (execTaskPriorityAgeing u s) := hs

theorem canon_execFenceSlotWaitEnd {u slot} (hs : Canon s) : CanonOut (execFenceSlotWaitEnd u slot s) := by
  unfold execFenceSlotWaitEnd
  split
  · exact canon_ite (canon_workAgain hs) hs
  · exact hs

theorem canon_execQueueRoomWaitEnd {u slot} (hs : Canon s) : CanonOut (execQueueRoomWaitEnd u slot s) := hs

theorem canon_execRegxGrant {u} (hs : Canon s) : CanonOut (execRegxGrant u s) := by
  unfold execRegxGrant
  split
  · exact canon_ite (canon_regxAnswer hs) hs
  · exact hs

theorem canon_execRegxRefusal {u} (hs : Canon s) : CanonOut (execRegxRefusal u s) := by
  unfold execRegxRefusal
  split
  · exact canon_ite (canon_regxAnswer hs) hs
  · exact hs

theorem canon_execSleepRelease {u slot path} (hs : Canon s) : CanonOut (execSleepRelease u slot path s) := by
  unfold execSleepRelease
  split
  · split
    · exact canon_ite hs hs
    · exact hs
  · exact hs

theorem canon_execParkDeferred {u slot lane} (hs : Canon s) : CanonOut (execParkDeferred u slot lane s) := by
  refine canonOut_next ?_
  split
  · extract_lets s1
    have h1 : Canon s1 := by
      dsimp only [s1]
      split
      · exact canon_ite (canon_parkSome hs) hs
      · exact hs
    clear_value s1
    split
    · exact canon_ite (canon_parkDue (canon_withdraw h1)) h1
    · exact h1
  · exact hs

theorem canon_execWarpRetire {u slot} (hs : Canon s) : CanonOut (execWarpRetire u slot s) := canon_retireWarp hs
theorem canon_execTrapTaken {u} (hs : Canon s) : CanonOut (execTrapTaken u s) := canon_ite (canon_takeTrap hs) hs

theorem canon_colldead {u team} (hs : Canon s) : Canon (s.colldead u team) := by
  unfold colldead
  split
  · split
    · exact canon_ite (canon_strikeDead hs) hs
    · exact hs
  · exact hs

theorem canon_execColldead {u team} (hs : Canon s) : CanonOut (execColldead u team s) := canon_colldead hs

theorem canon_execWdog {u slot} (hs : Canon s) : CanonOut (execWdog u slot s) := by
  refine canonOut_next ?_
  split
  · exact canon_ite hs (canon_ite (canon_modWarp hs) (canon_parkOutside (canon_foldl (fun _ _ hs => canon_withdraw hs)
        (canon_modWarp hs) _)))
  · exact hs

theorem canon_deadline {u} (hs : Canon s) : Canon (s.deadline u) := by
  unfold deadline
  dsimp only
  split
  · split
    · exact canon_ite hs (canon_killContext hs)
    · exact hs
  · exact hs

theorem canon_execDeadline {u} (hs : Canon s) : CanonOut (execDeadline u s) := canon_deadline hs

theorem canon_poolfull {u slot lane} (hs : Canon s) : Canon (s.poolfull u slot lane) := by
  unfold poolfull
  split
  · exact hs
  · split
    · exact hs
    · split
      · split
        · exact hs
        · exact canon_ite (canon_pendDone (canon_workAgain (canon_parkBack hs))) (canon_parkBack hs)
      · exact hs

theorem canon_execPoolfull {u slot lane} (hs : Canon s) : CanonOut (execPoolfull u slot lane s) := canon_poolfull hs
theorem canon_execBlockThrottle {u up} (hs : Canon s) : CanonOut (execBlockThrottle u up s) := hs

-- the functions of Sys2Proof/Machine/Gang.lean

theorem canon_gangForm {h} {f : Lanes → State} (hs : Canon s) (hf : ∀ m, Canon (f m)) : Canon (s.gangForm h f) :=
  canon_ite (canon_advance hs) (hf _)
theorem canon_modLatches {u f} (hs : Canon s) : Canon (s.modLatches u f) := hs

theorem canon_latchFull {u l} (hs : Canon s) : Canon (s.latchFull u l) := by
  unfold latchFull
  split
  · exact canon_failLatch hs
  · split
    · exact canon_failLatch hs
    · exact hs

theorem canon_joinLatch {h m i a b c} (hs : Canon s) : Canon (s.joinLatch h m i a b c) := by
  unfold joinLatch
  extract_lets u w n list e s1 waits
  have h1 : Canon s1 := canon_addPend hs
  clear_value s1
  split
  rename_i e
  have ht := canon_waitFor (t := .latch) (canon_snd (by
    split
    · exact canon_modLatches h1
    · exact canon_modLatches (canon_fresh h1)) e)
  extract_lets s2
  split
  · exact canon_ite (canon_latchFull ht) ht
  · exact ht

theorem canon_latchDone {u l} (hs : Canon s) : Canon (s.latchDone u l) := by
  unfold latchDone
  split
  · dsimp only
    split
    · exact canon_failLatch hs
    · split
      · exact hs
      · exact canon_foldl (fun _ _ hs => by
            split
            · exact canon_pathOn (canon_pendDone hs)
            · exact canon_pendDone hs) (canon_modLatches hs) _
  · exact hs

theorem canon_tileScr {m need r} (hs : Canon s) : Canon (s.tileScr m need r).2 := canon_raise hs
theorem canon_tileAccs {m need ea} (hs : Canon s) : Canon (s.tileAccs m need ea).2 := canon_raise hs
theorem canon_execGang {h a} (hs : Canon s) : CanonOut (execGang h a s) := canon_gangForm hs (fun _ => canon_writeGng hs)
theorem canon_execMma {h d a b c sparse sel} (hs : Canon s) : CanonOut (execMma h d a b c sparse sel s) :=
  canon_gangForm hs (fun _ => canon_joinLatch hs)
theorem canon_execMovt {h t r write i} (hs : Canon s) : CanonOut (execMovt h t r write i s) :=
  canon_gangForm hs (fun _ => canon_inFlight hs)
theorem canon_execTzero {h d} (hs : Canon s) : CanonOut (execTzero h d s) := canon_gangForm hs (fun _ => canon_inFlight hs)

theorem canon_execTld {h d r x f} (hs : Canon s) : CanonOut (execTld h d r x f s) := by
  unfold execTld
  exact canon_gangForm hs (fun _ => by
      split
      · exact canon_advance (canon_issueOps (canon_tileAccs hs))
      · exact canon_advance (canon_issueOps (canon_tileAccs hs))
      · exact canon_advance (canon_issueOps (canon_tileAccs hs))
      · exact canon_advance (canon_issueOps (canon_tileScr hs)))

theorem canon_execTst {h d r x f} (hs : Canon s) : CanonOut (execTst h d r x f s) := by
  unfold execTst
  exact canon_gangForm hs (fun _ => by
      split
      · exact canon_advance (canon_issueOps (canon_tileAccs hs))
      · exact canon_advance (canon_issueOps (canon_tileAccs hs))
      · exact canon_advance (canon_issueOps (canon_tileAccs hs))
      · exact canon_advance (canon_issueOps (canon_tileScr hs)))

theorem canon_execGangMmaDone {u latch} (hs : Canon s) : CanonOut (execGangMmaDone u latch s) := by
  unfold execGangMmaDone
  split
  · exact canon_ite (canon_latchDone hs) hs
  · exact hs

theorem canon_gangtime {u latch} (hs : Canon s) : Canon (s.gangtime u latch) := by
  unfold gangtime
  split
  · exact canon_ite (canon_failLatch hs) hs
  · exact hs

theorem canon_execGangtime {u latch} (hs : Canon s) : CanonOut (execGangtime u latch s) := canon_gangtime hs

-- the functions of Sys2Proof/Machine/Stream.lean

theorem canon_healNote {c st cause base a n} (hs : Canon s) : Canon (s.healNote c st cause base a n) :=
  canon_foldl (fun _ _ hs => canon_note hs) (canon_healGranules hs) _

theorem canon_engWrite {c space a bs} (hs : Canon s) : Canon (s.engWrite c space a bs) := by
  unfold engWrite
  split
  · exact canon_modEng (canon_healNote hs)
  · refine canon_foldl_at Prod.fst (fun _ _ hs => ?_) hs _
    exact canon_scrPut (canon_healNote hs)

theorem canon_putElem {c r e code} (hs : Canon s) : Canon (s.putElem c r e code) := canon_engWrite hs

-- the functions of Sys2Proof/Machine/Repl.lean

theorem canon_holdSharers {d pidx} (hs : Canon s) : Canon (s.holdSharers d pidx) := hs
theorem canon_setClock {d ptn c} (hs : Canon s) : Canon (s.setClock d ptn c) := hs
theorem canon_stampOf {d ptn} (hs : Canon s) : Canon (s.stampOf d ptn).2 := hs
theorem canon_frameOut {d f} (hs : Canon s) : Canon (s.frameOut d f) := hs
theorem canon_pump {d dst cls} (hs : Canon s) : Canon (s.pump d dst cls) :=
  canon_foldl (fun _ _ hs => canon_frameOut hs) (canon_modDie hs) _
theorem canon_sendFrame {d dst cls body} (hs : Canon s) : Canon (s.sendFrame d dst cls body) := canon_ite hs (canon_pump hs)
theorem canon_receiveUpdate {d m} (hs : Canon s) : Canon (s.receiveUpdate d m) := hs
theorem canon_forwardUpdate {d pidx m op old} (hs : Canon s) : Canon (s.forwardUpdate d pidx m op old) :=
  canon_foldl (fun _ _ hs => canon_ite (canon_receiveUpdate hs) (canon_sendFrame hs)) (canon_modDie (canon_holdSharers hs)) _

theorem canon_postWords {d pidx pa ws} (hs : Canon s) : Canon (s.postWords d pidx pa ws) :=
  canon_ite (canon_forwardUpdate (canon_stampOf hs)) (canon_foldl (fun _ _ hs => canon_ite hs (canon_sendFrame
    (canon_stampOf hs))) hs _)

theorem canon_partStore {pidx pa bs} (hs : Canon s) : Canon (s.partStore pidx pa bs) :=
  canon_ite (canon_postWords hs) (canon_devStore hs)

-- the functions of Sys2Proof/Machine/Slice.lean

theorem canon_trimCache {n} (hs : Canon s) : Canon (s.trimCache n) := by
  unfold trimCache
  split <;> exact hs

theorem canon_shrinkCache {u old} (hs : Canon s) : Canon (s.shrinkCache u old) := canon_ite hs (canon_trimCache hs)

theorem canon_evict {line} (hs : Canon s) : Canon (s.evict line) := by
  unfold evict
  split <;> exact hs

theorem canon_touch {pa pidx cls stream} (hs : Canon s) : Canon (s.touch pa pidx cls stream) := by
  unfold touch
  split
  · exact hs
  · dsimp only
    split
    · exact hs
    · split
      · exact hs
      · split
        · split
          · exact canon_evict hs
          · exact hs
        · split
          · exact canon_evict hs
          · exact hs

theorem canon_touchLines {pidx cls ls} (hs : Canon s) : Canon (s.touchLines pidx cls ls) :=
  canon_foldl (fun _ _ hs => canon_touch hs) hs _
theorem canon_setBucket {d n c b} (hs : Canon s) : Canon (s.setBucket d n c b) := hs
theorem canon_settle {d n c} (hs : Canon s) : Canon (s.settle d n c) := canon_ite hs hs

theorem canon_meter {d n c bytes} (hs : Canon s) : CanonOpt id (s.meter d n c bytes) := by
  unfold meter
  split
  · exact hs
  · dsimp only
    split
    · exact hs
    · trivial

theorem canon_meterFor {u p bytes} (hs : Canon s) : CanonOpt id (s.meterFor u p bytes) := canon_meter hs
theorem canon_settleAll {d n} (hs : Canon s) : Canon (s.settleAll d n) := canon_foldl (fun _ _ hs => canon_settle hs) hs _

theorem canon_storeHeal {ctx u slot pa n} (hs : Canon s) : Canon (s.storeHeal ctx u slot pa n) :=
  canon_ite hs (canon_foldl (fun _ _ hs => canon_note hs) (canon_foldl (fun _ _ hs => canon_note hs) (canon_healGranules
    (canon_healGranules hs)) _) _)

theorem canon_seeStop {d ctx q stop} (hs : Canon s) : Canon (s.seeStop d ctx q stop) := canon_ite hs hs

theorem canon_doorbell {pa} (hs : Canon s) : Canon (s.doorbell pa) :=
  canon_foldl (fun _ _ hs => canon_mk (canon_fqInterrupt hs)) (canon_foldl (fun _ _ hs => canon_foldl (fun _ _ hs => canon_ite
    (canon_seeStop hs) hs) hs _) hs _) _

theorem canon_setOp {o} (hs : Canon s) : Canon (s.setOp o) := hs

theorem canon_phaseNotify {pa ph} (hs : Canon s) : Canon (s.phaseNotify pa ph) := by
  unfold phaseNotify
  refine canon_foldl (fun s c hs => canon_foldl (fun s p hs => ?_) hs _) hs _
  split
  · exact hs
  · exact canon_ite (canon_flow (canon_modAgent hs)) hs

theorem canon_written {pa n who} (hs : Canon s) : Canon (s.written pa n who) := by
  unfold written
  dsimp only
  exact canon_doorbell (canon_foldl (fun _ _ hs => canon_phaseNotify hs) (by
      split <;> exact hs) _)

theorem canon_hurdleWait {o} (hs : Canon s) : Canon (s.hurdleWait o) := canon_phaseNotify hs

-- the functions of Sys2Proof/Machine/Update.lean

theorem canon_applyWords {d m} (hs : Canon s) : Canon (s.applyWords d m) := by
  unfold applyWords
  dsimp only
  split
  · exact canon_modAgent (canon_setOp (canon_written (canon_homeStore (canon_reachPt (by
        split
        · exact canon_touch (canon_storeHeal hs)
        · exact hs)))))
  · exact canon_written (canon_homeStore (canon_reachPt (by
        split
        · exact canon_touch (canon_storeHeal hs)
        · exact hs)))

theorem canon_opApplied {id val} (hs : Canon s) : Canon (s.opApplied id val) := by
  unfold opApplied
  split
  · exact hs
  · exact canon_ite (canon_hurdleWait hs) hs

theorem canon_appliedAt {d addr stamper src} (hs : Canon s) : Canon (s.appliedAt d addr stamper src) := by
  unfold appliedAt
  split
  · exact hs
  · split
    · exact hs
    · dsimp only
      split
      · exact canon_modDie hs
      · split
        · exact canon_opApplied (canon_modDie hs)
        · split
          · exact canon_modDie hs
          · split
            · exact canon_sendFrame (canon_modDie hs)
            · exact canon_sendFrame (canon_modDie hs)

theorem canon_applyAt {d i} (hs : Canon s) : Canon (s.applyAt d i) := by
  unfold applyAt
  split
  · exact hs
  · have h1 {m c} := canon_modDie (d := d) (f := fun x => { x with upd := x.upd.eraseIdx i }) (canon_setClock (d := d)
        (ptn := m) (c := c) hs)
    exact canon_ite (canon_appliedAt (canon_ite (canon_applyWords h1) h1)) (canon_sendFrame (canon_ite (canon_applyWords h1) h1))

theorem canon_replRmw {d pidx pa n new vc stamper ptn op answer} (hs : Canon s) :
    CanonOpt id (s.replRmw d pidx pa n new vc stamper ptn op answer) := by
  unfold replRmw
  dsimp only
  split
  · trivial
  · split
    · exact canon_applyAt (canon_forwardUpdate hs)
    · exact canon_forwardUpdate hs

theorem canon_tryAtomic {d b} (hs : Canon s) : CanonOpt id (s.tryAtomic d b) := by
  unfold tryAtomic
  exact canon_replRmw hs

theorem canon_runAtomics {d n} (hs : Canon s) : Canon (runAtomics d n s) := by
  induction n generalizing s with
  | zero => exact hs
  | succ n ih =>
    unfold runAtomics
    split
    · exact hs
    · split
      · rename_i e
        exact ih (canon_modDie ((canon_tryAtomic hs).of_some e))
      · exact hs

theorem canon_applyUpdate {d i} (hs : Canon s) : Canon (s.applyUpdate d i) := canon_ite hs (canon_runAtomics (canon_applyAt hs))

-- the functions of Sys2Proof/Machine/Home.lean

theorem canon_performLoad {o} (hs : Canon s) : Canon (s.performLoad o) := by
  unfold performLoad
  dsimp only
  split
  · exact canon_parkLate hs
  · exact canon_ite (canon_homeLease (canon_touch hs)) (canon_touch hs)

theorem canon_performRepl {o bs} (hs : Canon s) : Canon (s.performRepl o bs) := canon_forwardUpdate hs
theorem canon_performRmw {o new val} (hs : Canon s) : Canon (s.performRmw o new val) := canon_getD (canon_replRmw hs) hs
theorem canon_performBytes {o bs old} (hs : Canon s) : Canon (s.performBytes o bs old) :=
  canon_ite hs (canon_written (canon_setOp (canon_homeStore (canon_touch (canon_storeHeal hs)))))

theorem canon_performStore {o} (hs : Canon s) : Canon (s.performStore o) :=
  canon_ite (canon_ite (canon_syncVcnt (canon_putVers (canon_foldl (fun _ _ hs => canon_note hs)
    (canon_healGranules hs) _))) hs) (canon_ite (canon_ite hs (canon_performRepl hs)) (canon_performBytes hs))

theorem canon_performAtomic {o} (hs : Canon s) : Canon (s.performAtomic o) := by
  unfold performAtomic
  split
  · exact canon_parkLate hs
  · exact canon_ite (canon_ite hs (canon_performRmw hs)) (canon_performBytes hs)

theorem canon_performHurdle {o} (hs : Canon s) : Canon (s.performHurdle o) := by
  unfold performHurdle
  split
  · exact canon_parkLate hs
  · dsimp only
    split
    · exact canon_ite hs (canon_performRmw hs)
    · split
      · exact canon_ite (canon_hurdleWait (canon_performBytes hs)) (canon_performBytes hs)
      · exact canon_performBytes hs

theorem canon_performOp {o} (hs : Canon s) : Canon (s.performOp o) := by
  unfold performOp
  split
  · exact canon_performLoad hs
  · exact canon_performStore hs
  · exact canon_performAtomic hs
  · exact canon_performHurdle hs
  · exact hs

theorem canon_serve {o} (hs : Canon s) : Canon (s.serve o) := canon_performOp hs
theorem canon_keepReply {agent line c} (hs : Canon s) : Canon (s.keepReply agent line c) := canon_ite hs (canon_trimCache hs)
theorem canon_takeReply {o} (hs : Canon s) : Canon (s.takeReply o) := canon_endOp (canon_ite (canon_keepReply hs) hs)

theorem canon_takeAck {o} (hs : Canon s) : Canon (s.takeAck o) := by
  unfold takeAck
  dsimp only
  split
  · exact canon_endOp hs
  · exact canon_endOp hs

-- the functions of Sys2Proof/Machine/Memory.lean

theorem canon_scrs {a p m need n ea} (hs : Canon s) : Canon (s.scrs a p m need n ea).2 := canon_raise hs

theorem canon_atomics {h m op r w f b c dst} (hs : Canon s) : Canon (s.atomics h m op r w f b c dst) := by
  unfold atomics
  dsimp only
  split
  · exact canon_advance (canon_issueOps (canon_globals hs))
  · exact canon_advance (canon_issueOps (canon_globals hs))
  · exact canon_advance (canon_issueOps (canon_globals hs))
  · exact canon_advance (canon_issueOps (canon_scrs hs))

theorem canon_prefetch {va stream} (hs : Canon s) : Canon (s.prefetch va stream) := by
  unfold prefetch
  dsimp only
  split
  · exact hs
  · split
    · exact hs
    · split
      · exact canon_touch hs
      · exact canon_ite hs (canon_keepReply (canon_modAgent (canon_homeLease (canon_touch hs))))

theorem canon_raiseOnce {m x} (hs : Canon s) : Canon (s.raiseOnce m x) := canon_raise hs
theorem canon_arriveMem {h m a sc dst} (hs : Canon s) : Canon (s.arriveMem h m a sc dst) := canon_issueOps hs
theorem canon_execLd {h d r w f} (hs : Canon s) : CanonOut (execLd h d r w f s) :=
  canon_advance (canon_issueOps (canon_globals (canon_gate hs)))
theorem canon_execSt {h d r w f} (hs : Canon s) : CanonOut (execSt h d r w f s) :=
  canon_advance (canon_issueOps (canon_globals (canon_gate hs)))
theorem canon_execLds {h d r w f} (hs : Canon s) : CanonOut (execLds h d r w f s) :=
  canon_advance (canon_issueOps (canon_scrs (canon_gate hs)))
theorem canon_execSts {h d r w f} (hs : Canon s) : CanonOut (execSts h d r w f s) :=
  canon_advance (canon_issueOps (canon_scrs (canon_gate hs)))

theorem canon_execLdk {h d r w f} (hs : Canon s) : CanonOut (execLdk h d r w f s) := by
  refine canonOut_next ?_
  have hg := canon_gate (h := h) hs
  dsimp only
  split
  · exact canon_advance hg
  · split
    · exact canon_advance (canon_raiseOnce hg)
    · exact canon_advance (canon_issueOps hg)

theorem canon_execLdm {h d r x x'} (hs : Canon s) : CanonOut (execLdm h d r x x' s) := by
  unfold execLdm
  dsimp only
  split
  · exact canon_advance (canon_gate hs)
  · split
    · exact canon_advance (canon_raiseAll (canon_gate hs))
    · split
      · exact canon_advance (canon_raiseOnce (canon_gate hs))
      · exact canon_advance (canon_raiseOnce (canon_gate hs))
      · split
        · exact canon_advance (canon_raiseOnce (canon_gate hs))
        · split
          · exact canon_advance (canon_raiseOnce (canon_gate hs))
          · exact canon_advance (canon_issueOps (canon_gate hs))

theorem canon_execAtom {h d b c op r w f} (hs : Canon s) : CanonOut (execAtom h d b c op r w f s) :=
  canon_atomics (canon_gate hs)
theorem canon_execAtoms {h d b c op r w f} (hs : Canon s) : CanonOut (execAtoms h d b c op r w f s) :=
  canon_atomics (canon_gate hs)
theorem canon_execRed {h b op r w f} (hs : Canon s) : CanonOut (execRed h b op r w f s) := canon_atomics (canon_gate hs)
theorem canon_execFence {h ord sc} (hs : Canon s) : CanonOut (execFence h ord sc s) :=
  canon_ite (canon_blocked (canon_gate hs)) (canon_advance (canon_gate hs))
theorem canon_execFxp {h x prod x' sc} (hs : Canon s) : CanonOut (execFxp h x prod x' sc s) :=
  canon_ite (canon_blocked (canon_gate hs)) (canon_advance (canon_gate hs))
theorem canon_execPref {h r n f} (hs : Canon s) : CanonOut (execPref h r n f s) :=
  canon_advance (canon_foldl (fun _ _ hs => canon_prefetch hs) (canon_gate hs) _)
theorem canon_execLease {h x src} (hs : Canon s) : CanonOut (execLease h x src s) :=
  canon_ite (canon_advance (canon_gate hs)) (canon_advance (canon_modCur (canon_gate hs)))

theorem canon_execCflush {h r n x} (hs : Canon s) : CanonOut (execCflush h r n x s) := by
  refine canonOut_next (canon_advance (canon_foldl (fun s va hs => ?_) (canon_gate hs) _))
  split
  · exact canon_modAgent hs
  · exact hs

theorem canon_execHarrMem {h x sc d a} (hs : Canon s) : CanonOut (execHarrMem h x sc d a s) := by
  unfold execHarrMem
  dsimp only
  split
  · exact canon_advance hs
  · split
    · exact canon_advance (canon_raiseOnce hs)
    · exact canon_advance (canon_arriveMem hs)

theorem canon_execHurdMem {h x sc a} (hs : Canon s) : CanonOut (execHurdMem h x sc a s) := by
  unfold execHurdMem
  dsimp only
  split
  · exact canon_advance hs
  · split
    · exact canon_advance (canon_raiseOnce hs)
    · exact canon_waitFor (canon_arriveMem hs)

theorem canon_execHwtMem {h x x' d a} (hs : Canon s) : CanonOut (execHwtMem h x x' d a s) := by
  unfold execHwtMem
  refine canonOut_next (canon_ite (canon_advance hs) ?_)
  split
  · exact canon_advance (canon_raiseOnce hs)
  · exact canon_ite (canon_advance (canon_modCur (canon_modAgent hs))) (canon_waitFor (canon_modAgent hs))

-- the functions of Sys2Proof/Machine/Engine.lean

theorem canon_enqueue {q c} (hs : Canon s) : Canon (s.enqueue q c) := canon_ite (canon_setQueue hs) (canon_setQueue hs)
theorem canon_tokenOnly {h m} (hs : Canon s) : Canon (s.tokenOnly h m) := canon_inFlight hs

theorem canon_engForm {h i e q rb} {f : State → Lanes → Cmd → State} (hs : Canon s)
    (hf : ∀ s, Canon s → ∀ m c, Canon (f s m c)) : Canon (s.engForm h i e q rb f) := by
  unfold engForm
  dsimp only
  split
  · exact canon_advance hs
  · split
    · exact canon_advance (canon_raiseOnce hs)
    · exact canon_ite (canon_advance (hf _ hs _ _)) (canon_blocked hs)

theorem canon_plainQueue {q h m c} (hs : Canon s) : Canon (s.plainQueue q h m c) := canon_tokenOnly (canon_enqueue hs)
theorem canon_setCnt {u t} (hs : Canon s) : Canon (s.setCnt u t) := hs

theorem canon_releaseWaits {u slot owner tag} (hs : Canon s) : Canon (s.releaseWaits u slot owner tag) := by
  unfold releaseWaits
  split
  · exact hs
  · split
    · exact hs
    · dsimp only
      exact canon_foldl (fun _ _ hs => canon_foldl (fun _ _ hs => canon_pendDone hs) (canon_pathOn (canon_acquireAll hs)) _) hs _

theorem canon_raiseNotes {n u} (hs : Canon s) : Canon (raiseNotes n s u) := by
  induction n generalizing s with
  | zero => exact hs
  | succ n ih =>
    unfold raiseNotes
    dsimp only
    split
    · exact hs
    · exact ih (canon_threadDone (canon_releaseWaits hs))

theorem canon_reachNotes {u q} (hs : Canon s) : Canon (s.reachNotes u q) := canon_raiseNotes hs

theorem canon_storeDwords {u a ds} (hs : Canon s) : Canon (s.storeDwords u a ds) := by
  induction ds generalizing s a with
  | nil => exact hs
  | cons d r ih =>
    unfold storeDwords
    refine ih ?_
    split
    · exact canon_modAgent (canon_homeStore hs)
    · exact hs

theorem canon_markHead {u} (hs : Canon s) : Canon (s.markHead u) := hs

theorem canon_takeSaved {u q} (hs : Canon s) : Canon (s.takeSaved u q).2 := by
  unfold takeSaved
  split
  · exact canon_setRunning hs
  · split
    · exact hs
    · split
      · exact canon_ite (canon_setQueue hs) (canon_setQueue hs)
      · exact hs

theorem canon_saveImage {r} (hs : Canon s) : Canon (s.saveImage r) := by
  unfold saveImage
  dsimp only
  exact canon_pendDone (canon_storeDwords (by
      split
      · exact canon_finishCmd (canon_takeSaved hs)
      · exact canon_takeSaved hs))

theorem canon_settleSaves {u} (hs : Canon s) : Canon (s.settleSaves u) := by
  unfold settleSaves
  split
  · exact hs
  · exact canon_ite (canon_saveImage hs) hs

theorem canon_onceForm {h bad} {f : State → Lanes → State} (hs : Canon s) (hf : ∀ s, Canon s → ∀ m, Canon (f s m)) :
    Canon (s.onceForm h bad f) := by
  unfold onceForm
  dsimp only
  split
  · exact canon_advance hs
  · split
    · exact canon_advance (canon_raiseOnce hs)
    · exact hf _ hs _

theorem canon_execStrec {h e} (hs : Canon s) : CanonOut (execStrec h e s) := by
  unfold execStrec
  dsimp only
  split
  · exact canon_advance hs
  · split
    · exact canon_advance (canon_raiseOnce hs)
    · exact canon_advance (canon_issueOps hs)

theorem canon_execEmm {h e acc sparse} (hs : Canon s) : CanonOut (execEmm h e acc sparse s) :=
  canon_engForm hs (fun _ hs _ _ => canon_plainQueue hs)
theorem canon_execEvx {h e op bs} (hs : Canon s) : CanonOut (execEvx h e op bs s) :=
  canon_engForm hs (fun _ hs _ _ => canon_plainQueue hs)
theorem canon_execEred {h e op} (hs : Canon s) : CanonOut (execEred h e op s) :=
  canon_engForm hs (fun _ hs _ _ => canon_plainQueue hs)
theorem canon_execEcpy {h e ch mc} (hs : Canon s) : CanonOut (execEcpy h e ch mc s) :=
  canon_engForm hs (fun _ hs _ _ => canon_enqueue hs)
theorem canon_execColl {h e op red} (hs : Canon s) : CanonOut (execColl h e op red s) :=
  canon_engForm hs (fun _ hs _ _ => canon_plainQueue hs)
theorem canon_execEmode {h e rm} (hs : Canon s) : CanonOut (execEmode h e rm s) :=
  canon_ite (canon_advance hs) (canon_ite (canon_blocked hs) (canon_advance (canon_tokenOnly (canon_enqueue hs))))

theorem canon_execEnote {h e tag} (hs : Canon s) : CanonOut (execEnote h e tag s) :=
  canonOut_next (canon_ite (canon_advance hs) (canon_ite (canon_blocked hs) (canon_advance (canon_tokenOnly (canon_setCnt
    (canon_modEng
    (canon_foldl_at Prod.fst (fun _ _ hs => canon_enqueue hs) (canon_fresh hs) _)))))))

theorem canon_execEwait {h x tag} (hs : Canon s) : CanonOut (execEwait h x tag s) :=
  canon_ite (canon_advance hs) (canon_ite (canon_advance (canon_tokenOnly (canon_acquireAll hs))) (canon_waitFor
    (canon_addPend hs)))

theorem canon_execEsave {h e} (hs : Canon s) : CanonOut (execEsave h e s) :=
  canon_onceForm hs (fun _ hs _ => canon_ite (canon_settleSaves hs) (canon_saveImage hs))

theorem canon_execEres {h e} (hs : Canon s) : CanonOut (execEres h e s) := by
  unfold execEres
  dsimp only
  exact canon_onceForm hs (fun _ hs _ => by
      split
      · exact canon_advance (canon_tokenOnly hs)
      · split
        · exact canon_advance (canon_raiseAll hs)
        · split
          · exact canon_advance (canon_raiseAll hs)
          · split
            · exact canon_advance (canon_tokenOnly (canon_engThaw (canon_setQueue (canon_fresh hs))))
            · exact canon_ite (canon_advance (canon_tokenOnly (canon_enqueue hs))) (canon_blocked hs))

theorem canon_execWmrd {h e ch} (hs : Canon s) : CanonOut (execWmrd h e ch s) :=
  canon_onceForm hs (fun _ hs _ => canon_inFlight hs)
theorem canon_execWmset {h e ch} (hs : Canon s) : CanonOut (execWmset h e ch s) :=
  canon_onceForm hs (fun _ hs _ => canon_tokenOnly hs)
theorem canon_execWmsetOff {h x ch} (hs : Canon s) : CanonOut (execWmsetOff h x ch s) :=
  canon_onceForm hs (fun _ hs _ => canon_tokenOnly hs)

-- the functions of Sys2Proof/Machine/EngStep.lean

theorem canon_engStop {c e kind cause addr} (hs : Canon s) : Canon (s.engStop c e kind cause addr) :=
  canon_strikeIssuer (canon_engFreeze hs)

theorem canon_engMeter {c p as} (hs : Canon s) : CanonOpt id (s.engMeter c p as) := by
  unfold engMeter
  split
  · exact hs
  · exact canonOpt_map (canon_meterFor hs) fun _ ht => canon_touchLines ht

theorem canon_engAct {c e p as} {f : State → State} (hs : Canon s) (hf : ∀ s, Canon s → Canon (f s)) :
    Canon (s.engAct c e p as f) := by
  unfold engAct
  split
  · exact canon_getD (canonOpt_map (canon_engMeter hs) hf) hs
  · exact canon_engStop hs
  · exact canon_engStop hs
  · exact hs

theorem canon_startHead {u q go} (hs : Canon s) : Canon (s.startHead u q go) := by
  unfold startHead
  split
  · exact hs
  · split
    · exact hs
    · split
      · exact hs
      · exact canon_ite hs (canon_ite (canon_setQueue hs) (canon_setRunning (canon_setQueue hs)))

theorem canon_engEnd {u e c} (hs : Canon s) : Canon (s.engEnd u e c) := canon_finishCmd (canon_setRunning hs)

theorem canon_emmStep {c acc sp f a b d} (hs : Canon s) : Canon (s.emmStep c acc sp f a b d) := by
  unfold emmStep
  dsimp only
  exact canon_engAct hs (fun _ hs => canon_ite (canon_engStop hs) (canon_ite (canon_setRunning (canon_foldl
      (fun _ _ hs => canon_foldl (fun _ _ hs => canon_putElem hs) hs _) (canon_ite (canon_foldl
      (fun _ _ hs => canon_putElem hs) hs _) hs) _)) (canon_ite (canon_setRunning (canon_foldl (fun _ _ hs => canon_foldl
      (fun _ _ hs => canon_putElem hs) hs _) (canon_ite (canon_foldl (fun _ _ hs => canon_putElem hs) hs _) hs) _))
      (canon_engEnd (canon_foldl (fun _ _ hs => canon_foldl (fun _ _ hs => canon_putElem hs) hs _) (canon_ite (canon_foldl
      (fun _ _ hs => canon_putElem hs) hs _) hs) _)))))

theorem canon_vecPut {c int f d lfsr e r} (hs : Canon s) : Canon (s.vecPut c int f d lfsr e r).2 := canon_putElem hs
theorem canon_vecEnd {c total p lfsr} (hs : Canon s) : Canon (s.vecEnd c total p lfsr) :=
  canon_ite (canon_setRunning hs) (canon_engEnd (canon_ite hs hs))
theorem canon_evxStep {c op bs f a b d} (hs : Canon s) : Canon (s.evxStep c op bs f a b d) :=
  canon_engAct hs fun _ hs => canon_vecEnd (canon_foldl_at Prod.snd (fun _ _ hs => canon_vecPut hs) hs _)
theorem canon_eredStep {c op f a d} (hs : Canon s) : Canon (s.eredStep c op f a d) :=
  canon_engAct hs fun _ hs => canon_vecEnd (canon_foldl_at Prod.snd (fun _ _ hs => canon_vecPut hs) hs _)
theorem canon_execEngineCommandStart {u q} (hs : Canon s) : CanonOut (execEngineCommandStart u q s) := canon_startHead hs
theorem canon_execEngineIssueTime {u q} (hs : Canon s) : CanonOut (execEngineIssueTime u q s) := canon_startHead hs

theorem canon_execMatrixEngineStep {u} (hs : Canon s) : CanonOut (execMatrixEngineStep u s) := by
  unfold execMatrixEngineStep
  split
  · exact hs
  · split
    · exact canon_emmStep hs
    · exact hs

theorem canon_execVectorEngineStep {u} (hs : Canon s) : CanonOut (execVectorEngineStep u s) := by
  unfold execVectorEngineStep
  split
  · exact hs
  · split
    · exact canon_evxStep hs
    · exact canon_eredStep hs
    · exact hs

theorem canon_execEmodeApply {u q} (hs : Canon s) : CanonOut (execEmodeApply u q s) := by
  unfold execEmodeApply
  split
  · split
    · split
      · exact canon_setQueue hs
      · exact hs
    · exact hs
  · exact hs

theorem canon_execEnoteReached {u q} (hs : Canon s) : CanonOut (execEnoteReached u q s) := canon_reachNotes hs

-- the functions of Sys2Proof/Machine/Copies.lean

theorem canon_slotTaken {d own r} (hs : Canon s) : Canon (s.slotTaken d own r) := hs
theorem canon_endCopy {c status} (hs : Canon s) : Canon (s.endCopy c status) :=
  canon_ite (canon_settleSaves (canon_finishCmd (canon_setRunning hs))) (canon_finishCmd (canon_setRunning hs))
theorem canon_copySettle {c total} (hs : Canon s) : Canon (s.copySettle c total) :=
  canon_ite (canon_ite (canon_endCopy hs) (canon_ite (canon_settleSaves hs) hs)) hs

theorem canon_sendCopy {c late} (hs : Canon s) : Canon (s.sendCopy c late) := by
  unfold sendCopy
  dsimp only
  split
  · exact canon_ite (canon_endCopy (canon_setRunning hs)) (canon_setRunning hs)
  · exact canon_setRunning hs

theorem canon_headCopy {c} (hs : Canon s) : Canon (s.headCopy c) :=
  canon_ite (canon_strikeIssuer (canon_finishCmd hs)) (canon_sendCopy hs)

theorem canon_chunkGate {c a d} (hs : Canon s) : CanonOpt id (s.chunkGate c a d) := by
  unfold chunkGate
  extract_lets e
  refine canonOpt_ite trivial ?_
  extract_lets
  refine canonOpt_ite (canon_copySettle hs) (canonOpt_ite (canon_ite (canon_endCopy hs) hs)
    (canonOpt_ite (canon_ite (canon_endCopy hs) hs) (canonOpt_ite (canon_ite (canon_settleSaves hs) hs) ?_)))
  split
  · trivial
  · exact hs
  · exact canon_ite (canon_engStop hs) hs
  · exact canon_ite (canon_engStop hs) hs

theorem canon_loadFlit {c a d die own for_ first n} (hs : Canon s) : Canon (s.loadFlit c a d die own for_ first n) := by
  unfold loadFlit
  dsimp only
  split
  · split
    · exact canon_copySettle (canon_setRunning (canon_mk (canon_fresh (canon_touchLines hs))))
    · exact canon_setRunning hs
  · split
    · exact canon_setRunning hs
    · exact canon_copySettle (canon_setRunning (canon_mk (canon_fresh (canon_touchLines hs))))

theorem canon_flitLoad {c a d} (hs : Canon s) : Canon (s.flitLoad c a d) := by
  unfold flitLoad
  split
  · rename_i e
    exact (canon_chunkGate hs).of_some e
  · exact canon_loadFlit hs

theorem canon_runLoad {c a d home} (hs : Canon s) : Canon (s.runLoad c a d home) := by
  unfold runLoad
  split
  · rename_i e
    exact (canon_chunkGate hs).of_some e
  · dsimp only
    split
    · exact hs
    · exact canon_ite (canon_loadFlit hs) (canon_loadFlit hs)

theorem canon_healFlit {f st g cause pl bs} (hs : Canon s) : Canon (s.healFlit f st g cause pl bs) :=
  canon_ite hs (canon_foldl (fun _ _ hs => canon_foldl (fun _ _ hs => canon_note hs) (canon_healGranules hs) _) hs _)
theorem canon_writeUnit {u x f} (hs : Canon s) : Canon (s.writeUnit u x f) :=
  canon_ite hs (canon_modCore (canon_foldl (fun _ _ hs => canon_scrPut hs) (canon_healFlit hs) _))

theorem canon_atUnit {c f no u} (hs : Canon s) : Canon (s.atUnit c f no u).2 := by
  unfold atUnit
  dsimp only
  split
  · exact hs
  · split
    · split
      · exact hs
      · exact canon_writeUnit hs
    · split
      · exact hs
      · split
        · exact canon_writeUnit hs
        · split
          · exact canon_writeUnit hs
          · exact hs

theorem canon_storeLine {f line bs} (hs : Canon s) : Canon (s.storeLine f line bs) := by
  unfold storeLine
  dsimp only
  split
  · exact canon_syncVcnt (canon_foldl (fun _ _ hs => canon_putVers hs) (canon_healFlit hs) _)
  · split
    · exact canon_postWords hs
    · exact canon_written (canon_modAgent (canon_mk
        (wf_foldl_set (canon_homeStore (canon_touch (canon_healFlit (canon_healFlit hs)))) _ _ _)))

theorem canon_copyFull {c f line} (hs : Canon s) : Canon (s.copyFull c f line) := canon_engStop (canon_setRunning hs)
theorem canon_flitTaken {f h} (hs : Canon s) : Canon (s.flitTaken f h) := hs

theorem canon_takeFlit {f h} (hs : Canon s) : Canon (s.takeFlit f h) := by
  unfold takeFlit
  split
  · exact canon_flitTaken hs
  · extract_lets total part
    split
    · exact canon_copySettle (canon_setRunning (canon_flitTaken (canon_atUnit hs)))
    · split
      · refine canon_ite hs ?_
        split
        · exact canon_mk hs
        · exact canon_ite (canon_copyFull hs) hs
      · extract_lets s1 posts
        have h1 : Canon s1 := canon_ite hs (canon_foldl (fun _ _ hs => canon_storeLine hs) hs _)
        exact canon_ite (canon_copySettle (canon_flitTaken h1)) (canon_mk h1)

theorem canon_bufferEntry {u} (hs : Canon s) : Canon (s.bufferEntry u) := by
  unfold bufferEntry
  split
  · exact hs
  · split
    · exact hs
    · split
      · exact canon_setQueue hs
      · exact canon_ite (canon_markHead (canon_modEng (canon_setQueue hs))) hs

theorem canon_meshChunk {c a d} (hs : Canon s) : Canon (s.meshChunk c a d) := by
  unfold meshChunk
  split
  · rename_i e
    exact (canon_chunkGate hs).of_some e
  · dsimp only
    split
    · exact hs
    · rename_i e
      exact canon_copySettle (canon_setRunning (canon_ite (canon_fresh ((canon_engMeter hs).of_some e)) (canon_mk (canon_fresh
          ((canon_engMeter hs).of_some e)))))

theorem canon_dceHead {die e} (hs : Canon s) : Canon (s.dceHead die e) := by
  unfold dceHead
  split
  · exact hs
  · dsimp only
    split
    · exact hs
    · split
      · exact canon_markDce (canon_modDie hs)
      · exact canon_ite hs (canon_headCopy (canon_markDce (canon_modDie hs)))

theorem canon_copySend {u} (hs : Canon s) : Canon (s.copySend u) := by
  unfold copySend
  split
  · exact hs
  · split
    · exact hs
    · exact canon_ite hs (canon_headCopy hs)

theorem canon_copyLoad {u} (hs : Canon s) : Canon (s.copyLoad u) := by
  unfold copyLoad
  split
  · exact hs
  · split
    · split
      · exact canon_flitLoad hs
      · exact canon_foldl (fun _ _ hs => by
            split
            · exact canon_ite (canon_runLoad hs) hs
            · exact hs) hs _
    · exact hs

theorem canon_flitArrive {flit ago} (hs : Canon s) : Canon (s.flitArrive flit ago) := by
  unfold flitArrive
  split
  · exact hs
  · split
    · exact hs
    · split
      · exact canon_takeFlit hs
      · exact hs

theorem canon_flitCross {flit} (hs : Canon s) : Canon (s.flitCross flit) := by
  unfold flitCross
  split
  · exact hs
  · split
    · exact hs
    · dsimp only
      split
      · exact canon_mk hs
      · split
        · exact hs
        · split
          · exact hs
          · split
            · exact canon_mk (canon_slotTaken hs)
            · split
              · exact canon_copySettle (canon_mk (canon_slotTaken hs))
              · exact canon_mk (canon_slotTaken hs)

theorem canon_execCopySend {u} (hs : Canon s) : CanonOut (execCopySend u s) := canon_copySend hs
theorem canon_execCopyFlitLoad {u} (hs : Canon s) : CanonOut (execCopyFlitLoad u s) := canon_copyLoad hs

theorem canon_execSliceRunLoad {die slice u} (hs : Canon s) : CanonOut (execSliceRunLoad die slice u s) := by
  unfold execSliceRunLoad
  split
  · exact hs
  · split
    · exact canon_ite (canon_runLoad hs) hs
    · exact hs

theorem canon_execFlitArrival {flit} (hs : Canon s) : CanonOut (execFlitArrival flit s) := canon_flitArrive hs
theorem canon_execBridgeCrossing {flit} (hs : Canon s) : CanonOut (execBridgeCrossing flit s) := canon_flitCross hs

theorem canon_execDieCopySend {die e} (hs : Canon s) : CanonOut (execDieCopySend die e s) := by
  unfold execDieCopySend
  split
  · exact canon_dceHead hs
  · split
    · exact canon_meshChunk hs
    · exact hs

theorem canon_execCopyChunkArrival {die e} (hs : Canon s) : CanonOut (execCopyChunkArrival die e s) := by
  unfold execCopyChunkArrival
  split
  · exact hs
  · split
    · exact canon_takeFlit hs
    · exact hs

-- the functions of Sys2Proof/Machine/Pace.lean

theorem canon_slew {d} (hs : Canon s) : Canon (s.slew d) := by
  unfold slew
  exact canon_ite (canon_modDie hs) (canon_ite (canon_modDie hs) (canon_setReg (canon_modDie hs)))

theorem canon_corePast {u n} (hs : Canon s) : Canon (s.corePast u n) := canon_ite hs (canon_ite hs hs)
theorem canon_paceTo {d p} (hs : Canon s) : Canon (s.paceTo d p) :=
  canon_ite hs (canon_foldl (fun _ _ hs => canon_ite (canon_corePast hs) hs) (canon_modDie hs) _)

-- the functions of Sys2Proof/Machine/Platform.lean

theorem canon_bankSwap {die} (hs : Canon s) : Canon (s.bankSwap die) := canon_ite hs hs
theorem canon_resetPackage {keep} (hs : Canon s) : Canon (s.resetPackage keep) := hs
theorem canon_setReady {stage ready} (hs : Canon s) : Canon (s.setReady stage ready) := hs

theorem canon_bothDies {f : State → Nat → State} (hs : Canon s) (hf : ∀ s, Canon s → ∀ d, Canon (f s d)) :
    Canon (s.bothDies f) :=
  hf _ (hf _ hs 0) 1

theorem canon_stall (hs : Canon s) : Canon s.stall := hs
theorem canon_runImage {image} (hs : Canon s) : Canon (s.runImage image) := canon_mk (canon_setReady (canon_setReg hs))
theorem canon_trainModules {mods} (hs : Canon s) : Canon (s.trainModules mods) :=
  canon_bothDies hs (fun _ hs _ => canon_foldl (fun _ _ hs => by exact hs) hs _)
theorem canon_takeRoles (hs : Canon s) : Canon s.takeRoles := hs

theorem canon_bringUp {images mods} (hs : Canon s) : Canon (s.bringUp images mods) := by
  unfold bringUp
  split
  · exact hs
  · split
    · exact canon_setReady hs
    · exact canon_ite (canon_runImage hs) (canon_stall hs)
    · refine canon_ite (canon_stall (canon_trainModules hs)) ?_
      split
      · exact canon_setReady (canon_setReg (canon_trainModules hs))
      · exact canon_stall (canon_trainModules hs)
    · exact canon_setReady (canon_mk (wf_filter hs _))
    · exact canon_setReady (canon_takeRoles hs)
    · exact canon_setReady hs
    · exact hs

theorem canon_dieReport {d cause info} (hs : Canon s) : Canon (s.dieReport d cause info) :=
  canon_foldl (fun _ _ hs => canon_report hs) hs _
theorem canon_paceadjWrite {die v} (hs : Canon s) : Canon (s.paceadjWrite die v) := canon_ite hs hs

theorem canon_swapRequest {die v} (hs : Canon s) : Canon (s.swapRequest die v) := by
  unfold swapRequest
  dsimp only
  split
  · exact hs
  · split
    · exact canon_setReg (canon_setReg hs)
    · exact canon_modDie (canon_setReg hs)

theorem canon_execPaceadjWrite {die v} (hs : Canon s) : CanonOut (execPaceadjWrite die v s) := canon_paceadjWrite hs
theorem canon_execRingSwapRequest {die v} (hs : Canon s) : CanonOut (execRingSwapRequest die v s) := canon_swapRequest hs
theorem canon_execRingBankSwap {die} (hs : Canon s) : CanonOut (execRingBankSwap die s) := canon_bankSwap hs
theorem canon_execPwrstatLimitedRead {die} (hs : Canon s) : CanonOut (execPwrstatLimitedRead die s) := canon_answerReg hs

theorem canon_peerWrite {die t off v} (hs : Canon s) : Canon (s.peerWrite die t off v) := by
  unfold peerWrite
  exact canon_ite (canon_modDie (canon_plainWrite hs)) (canon_plainWrite hs)

theorem canon_regWrite {die off v} (hs : Canon s) : Canon (s.regWrite die off v) := by
  unfold regWrite
  split
  · exact hs
  · exact hs
  · exact hs
  · exact hs
  · exact hs
  · exact hs
  · exact hs
  · exact canon_ite hs (canon_plainWrite hs)
  · exact canon_ite hs (canon_plainWrite hs)
  · exact canon_ite hs (canon_plainWrite hs)
  · exact canon_plainWrite (canon_settleAll hs)
  · exact canon_peerWrite hs
  · exact canon_ite (canon_modDie (canon_plainWrite hs)) (canon_plainWrite hs)
  · exact canon_plainWrite hs

theorem canon_attGo {die v} (hs : Canon s) : Canon (s.attGo die v) := canon_ite hs hs
theorem canon_execAttctlGo {die v} (hs : Canon s) : CanonOut (execAttctlGo die v s) := canon_attGo hs

theorem canon_execAttestationDone {die} (hs : Canon s) : CanonOut (execAttestationDone die s) := by
  unfold execAttestationDone
  split
  · exact hs
  · dsimp only
    exact canon_modDie (canon_ite (canon_foldl (fun _ _ hs => canon_devStore hs) (canon_mk hs) _) (canon_mk hs))

theorem canon_execColdReset (hs : Canon s) : CanonOut (execColdReset s) := hs
theorem canon_warmReset {v} (hs : Canon s) : Canon (s.warmReset v) := canon_ite hs hs
theorem canon_execWarm {x v} (hs : Canon s) : CanonOut (execWarm x v s) := canon_warmReset hs
theorem canon_execBringUpStep {images mods} (hs : Canon s) : CanonOut (execBringUpStep images mods s) := canon_bringUp hs

theorem canon_powerWindow {watts} (hs : Canon s) : Canon (s.powerWindow watts) := by
  unfold powerWindow
  dsimp only
  split
  · exact canon_foldl (fun _ _ hs => canon_setSteps hs) (canon_mk (canon_bothDies hs (fun _ hs _ => canon_setReg hs))) _
  · split
    · exact canon_foldl (fun _ _ hs => canon_setSteps hs) (canon_mk (canon_bothDies hs (fun _ hs _ => canon_setReg hs))) _
    · exact canon_mk (canon_bothDies hs (fun _ hs _ => canon_setReg hs))

theorem canon_execPowerWindow {watts} (hs : Canon s) : CanonOut (execPowerWindow watts s) := canon_ite hs (canon_powerWindow hs)

theorem canon_execWearUpdate {die rodrift emstress srmargin hours} (hs : Canon s) :
    CanonOut (execWearUpdate die rodrift emstress srmargin hours s) :=
  canon_ite hs (canon_modDie (canon_setReg (canon_setReg hs)))

theorem canon_execWearEol {die} (hs : Canon s) : CanonOut (execWearEol die s) :=
  canon_ite hs (canon_dieReport (canon_foldl (fun _ _ hs => canon_setSteps hs) (canon_modDie hs) _))
theorem canon_execThermal {die kind temp} (hs : Canon s) : CanonOut (execThermal die kind temp s) :=
  canon_ite hs (canon_ite (canon_dieReport hs) hs)
theorem canon_execThermalPowerOff (hs : Canon s) : CanonOut (execThermalPowerOff s) :=
  canonOut_ite hs (canon_mk (wf_filter (canon_resetPackage hs) _))

-- the functions of Sys2Proof/Machine/Coll.lean

theorem canon_collSend {c rank m to_} (hs : Canon s) : Canon (s.collSend c rank m to_) := canon_ite hs (canon_sendFrame hs)
theorem canon_collEnd {c} (hs : Canon s) : Canon (s.collEnd c) := hs
theorem canon_collFail {c cause rank} (hs : Canon s) : Canon (s.collFail c cause rank) := canon_strikeIssuer hs

theorem canon_collCheck {u} (hs : Canon s) : Canon (s.collCheck u) := by
  unfold collCheck
  split
  · split
    · exact hs
    · dsimp only
      split
      · exact canon_collFail hs
      · split
        · exact hs
        · split
          · exact canon_engAct hs (fun _ hs => canon_collEnd (canon_mk (canon_foldl (fun _ _ hs => canon_putElem hs) hs _)))
          · exact hs
  · exact hs

theorem canon_collStart {u c} (hs : Canon s) : Canon (s.collStart u c) := by
  unfold collStart
  split
  · exact hs
  · split
    · exact canon_engStop hs
    · exact canon_engAct hs (fun _ hs => canon_collCheck (canon_ite (canon_modEng hs) (canon_foldl (fun _ _ hs => canon_foldl
          (fun _ _ hs => canon_collSend hs) hs _) (canon_modEng hs) _)))
    · exact hs

theorem canon_execCopyBufferEntry {u} (hs : Canon s) : CanonOut (execCopyBufferEntry u s) := by
  unfold execCopyBufferEntry
  split
  · exact canon_ite (canon_collStart hs) (canon_bufferEntry hs)
  · exact hs

theorem canon_execCollContribution {u m} (hs : Canon s) : CanonOut (execCollContribution u m s) := by
  unfold execCollContribution
  split
  · exact hs
  · exact canon_ite hs (canon_collCheck hs)

theorem canon_execCollResend {u i} (hs : Canon s) : CanonOut (execCollResend u i s) := hs

theorem canon_colltime {u} (hs : Canon s) : Canon (s.colltime u) := by
  unfold colltime
  split
  · split
    · exact hs
    · split
      · exact canon_collFail hs
      · split
        · exact hs
        · split
          · exact canon_collFail hs
          · exact hs
  · exact hs

theorem canon_execColltime {u} (hs : Canon s) : CanonOut (execColltime u s) := canon_colltime hs

-- the functions of Sys2Proof/Machine/Cross.lean

theorem canon_execPart {h d size} (hs : Canon s) : CanonOut (execPart h d size s) := canon_uniform hs
theorem canon_execShfl {h m d a b c g} (hs : Canon s) : CanonOut (execShfl h m d a b c g s) := hs
theorem canon_execBcast {h d a b c g} (hs : Canon s) : CanonOut (execBcast h d a b c g s) := hs
theorem canon_execVote {h m d a g} (hs : Canon s) : CanonOut (execVote h m d a g s) := hs
theorem canon_execRedux {h op d a g} (hs : Canon s) : CanonOut (execRedux h op d a g s) := hs
theorem canon_execScan {h op d a g excl} (hs : Canon s) : CanonOut (execScan h op d a g excl s) := hs
theorem canon_execMatchV {h d a g w} (hs : Canon s) : CanonOut (execMatchV h d a g w s) := hs

-- the functions of Sys2Proof/Machine/Graphics.lean

theorem canon_setGslot {v g slot x} (hs : Canon s) : Canon (s.setGslot v g slot x) := hs

theorem canon_descForm {h a al cause ok} {f : Lanes → List Dword → State} (hs : Canon s) (hf : ∀ m ds, Canon (f m ds)) :
    Canon (s.descForm h a al cause ok f) := by
  unfold descForm
  dsimp only
  split
  · exact canon_advance hs
  · split
    · exact canon_advance (canon_raiseOnce hs)
    · exact canon_ite (hf _ _) (canon_advance (canon_raiseAll hs))

theorem canon_execTrace {h d a b g any} (hs : Canon s) : CanonOut (execTrace h d a b g any s) :=
  canon_ite (canon_advance (canon_raiseAll hs)) (canon_descForm hs (fun _ _ => canon_ite (canon_blocked hs) (canon_advance
    (canon_inFlight (canon_foldl (fun _ _ hs => canon_setGslot hs) (canon_pickFree hs) _)))))

theorem canon_execTqry {h d a keep} (hs : Canon s) : CanonOut (execTqry h d a keep s) :=
  canon_ite (canon_advance hs) (canon_ite (canon_advance (canon_raise hs)) (canon_ite (canon_blocked (canon_raise hs))
    (canon_advance (canon_inFlight (canon_raise (canon_foldl (fun _ _ hs => canon_setGslot hs) (canon_raise hs) _))))))

theorem canon_freeTexels {d l} (hs : Canon s) : Canon (freeTexels d l s).2 := by
  induction l generalizing s with
  | nil => exact hs
  | cons l r ih => exact ih (canon_drawFree (canon_drawFree (canon_drawFree (canon_drawFree hs))))

theorem canon_texForm {h d a b gather lam} (hs : Canon s) : Canon (s.texForm h d a b gather lam) :=
  canon_descForm hs (fun _ _ => canon_ite (canon_advance (canon_inFlight (canon_freeTexels (canon_raise hs)))) (canon_advance
    (canon_modCur (canon_issueOps (canon_freeTexels (canon_raise hs))))))

theorem canon_execTexs {h d a b} (hs : Canon s) : CanonOut (execTexs h d a b s) := canon_texForm hs
theorem canon_execTexl {h d a b} (hs : Canon s) : CanonOut (execTexl h d a b s) := canon_texForm hs
theorem canon_execTexg {h d a b c} (hs : Canon s) : CanonOut (execTexg h d a b c s) := canon_texForm hs

theorem canon_execOrdb {h a} (hs : Canon s) : CanonOut (execOrdb h a s) :=
  canon_ite (canon_advance hs) (canon_ite (canon_advance (canon_raise hs)) (canon_ite (canon_blocked (canon_raise hs))
    (canon_advance (canon_tokenOnly (canon_acquireAll (canon_raise hs))))))

theorem canon_execOrde {h a} (hs : Canon s) : CanonOut (execOrde h a s) :=
  canon_ite (canon_advance hs) (canon_advance (canon_tokenOnly (canon_ilockSweep (canon_modSlice (canon_raise hs)))))

theorem canon_execRefit {h d a} (hs : Canon s) : CanonOut (execRefit h d a s) := by
  unfold execRefit
  exact canon_descForm hs (fun _ _ => by
      split
      · exact canon_blocked hs
      · exact canon_advance (canon_inFlight (canon_modDie (canon_newHandle hs))))

-- the functions of Sys2Proof/Machine/Micro.lean

theorem canon_setMslot {g} (hs : Canon s) : Canon (s.setMslot g) := hs
theorem canon_mstop {c} (hs : Canon s) : Canon (s.mstop c) := hs
theorem canon_mrange {r n s2} (hs : Canon s) (h2 : Canon s2) : Canon (s.mrange r n s2) := canon_ite hs h2
theorem canon_mtarget {m s2} (hs : Canon s) (h2 : Canon s2) : Canon (s.mtarget m s2) := canon_ite hs h2

theorem canon_microPrep {u g slot} (hs : Canon s) : CanonMicro (s.microPrep u g slot) := by
  unfold microPrep
  split
  · exact hs
  · split
    · exact hs
    · extract_lets _src s1 c
      have h1 : Canon s1 := canon_mk (canon_modCore hs)
      split
      · exact canon_mstop h1
      · split
        · exact canon_mstop h1
        · split
          · exact h1
          · exact canon_mstop h1

theorem canon_mfetch {i} (hs : Canon s) : Canon (s.mfetch i) := by
  unfold mfetch
  dsimp only
  split
  · exact hs
  · split <;> exact hs

theorem canon_fetchReturn (hs : Canon s) : Canon s.fetchReturn := by
  unfold fetchReturn
  dsimp only
  split
  · exact hs
  · split
    · exact hs
    · split
      · exact canon_mstop hs
      · split
        · exact canon_mstop hs
        · split
          · exact canon_mstop hs
          · split
            · exact hs
            · rename_i e
              split
              · exact canon_setMslot (canon_foldl (fun _ _ hs => canon_ite hs (canon_modAgent hs)) (canon_touchLines
                    ((canon_meterFor hs).of_some e)) _)
              · exact canon_setMslot (canon_foldl (fun _ _ hs => canon_ite hs (canon_modAgent hs)) (canon_touchLines
                    ((canon_meterFor hs).of_some e)) _)

theorem canon_execNfetchFetch {m} (hs : Canon s) : CanonOut (execNfetchFetch m s) := canon_mfetch hs
theorem canon_execNfetchRaw {m} (hs : Canon s) : CanonOut (execNfetchRaw m s) := canon_mrange hs hs
theorem canon_execNfetchChild {m} (hs : Canon s) : CanonOut (execNfetchChild m s) := canon_mrange hs hs
theorem canon_execPfetch {m} (hs : Canon s) : CanonOut (execPfetch m s) := canon_mrange hs (canon_mfetch hs)
theorem canon_execXfma {m} (hs : Canon s) : CanonOut (execXfma m s) := hs
theorem canon_execXmul {m} (hs : Canon s) : CanonOut (execXmul m s) := hs
theorem canon_execXmin {m} (hs : Canon s) : CanonOut (execXmin m s) := hs
theorem canon_execXmax {m} (hs : Canon s) : CanonOut (execXmax m s) := hs
theorem canon_execXcmp {m cc} (hs : Canon s) : CanonOut (execXcmp m cc s) := hs
theorem canon_execXsel {m} (hs : Canon s) : CanonOut (execXsel m s) := hs
theorem canon_execXrcp {m} (hs : Canon s) : CanonOut (execXrcp m s) := hs
theorem canon_execXrcpSq {m} (hs : Canon s) : CanonOut (execXrcpSq m s) := hs
theorem canon_execSpush {m} (hs : Canon s) : CanonOut (execSpush m s) := canon_ite hs hs

theorem canon_execSpop {m} (hs : Canon s) : CanonOut (execSpop m s) := by
  unfold execSpop
  exact canon_mtarget hs (by
      split <;> exact hs)

theorem canon_execMicroGo {m} (hs : Canon s) : CanonOut (execMicroGo m s) := canon_mtarget hs hs
theorem canon_execGoif {m} (hs : Canon s) : CanonOut (execGoif m s) := canon_mtarget hs (canon_ite hs hs)
theorem canon_execEmitHit {m} (hs : Canon s) : CanonOut (execEmitHit m s) := canon_ite hs hs
theorem canon_execEmitOut {m} (hs : Canon s) : CanonOut (execEmitOut m s) := canon_mrange hs hs
theorem canon_dropTicket {g} (hs : Canon s) : Canon (s.dropTicket g) := canon_ite hs (canon_ilockSweep hs)

theorem canon_mspawn {rec ticket} (hs : Canon s) : Canon (s.mspawn rec ticket) := by
  unfold mspawn
  dsimp only
  refine canon_ite (canon_setMslot hs) ?_
  split
  · rename_i e
    refine canon_setMslot ?_
    split
    · exact canon_modCtxRt ((canon_spawnOne hs).of_done e)
    · exact (canon_spawnOne hs).of_done e
  · exact canon_setMslot (canon_dropTicket (canon_poolBack hs))
  · rename_i e
    have ht := (canon_spawnOne hs).of_waits e
    exact canon_ite (canon_setMslot (canon_dropTicket ht)) (canon_setMslot ht)

theorem canon_execEmitSpawn {m} (hs : Canon s) : CanonOut (execEmitSpawn m s) := canon_mrange hs (canon_mspawn hs)
theorem canon_execEmitSpord {m} (hs : Canon s) : CanonOut (execEmitSpord m s) :=
  canon_mrange hs (canon_ite hs (canon_mspawn hs))
theorem canon_execMicroDone {x} (hs : Canon s) : CanonOut (execMicroDone x s) := hs

theorem canon_mstore {g va n x} (hs : Canon s) : Canon (s.mstore g va n x) := by
  unfold mstore
  split
  · exact canon_devStoreN hs
  · exact hs

theorem canon_mlazy {m} (hs : Canon s) : Canon (s.mlazy m) := by
  unfold mlazy
  extract_lets g v node merge parked
  clear_value parked
  refine canon_ite (canon_mstop hs) ?_
  split
  · exact canon_setMslot hs
  · split
    · exact canon_mstop hs
    · refine canon_ite (canon_setMslot hs) (canon_ite (canon_mstop hs) (canon_setMslot (canon_modDie ?_)))
      exact canon_mstore (canon_mstore (canon_mstore (canon_mstore hs)))

theorem canon_execLazy {m} (hs : Canon s) : CanonOut (execLazy m s) := canon_mtarget hs (canon_mlazy hs)

theorem canon_execFetchDataReturn {u g slot} (hs : Canon s) : CanonOut (execFetchDataReturn u g slot s) := by
  unfold execFetchDataReturn
  split
  · exact canon_ite (canon_fetchReturn hs) hs
  · exact hs

theorem canon_execLazyWake {u g slot} (hs : Canon s) : CanonOut (execLazyWake u g slot s) := by
  unfold execLazyWake
  split
  · split
    · exact canon_ite hs hs
    · exact hs
  · exact hs

theorem canon_execInterlockRegistration {u g slot} (hs : Canon s) : CanonOut (execInterlockRegistration u g slot s) := by
  unfold execInterlockRegistration
  split
  · split
    · split
      · exact hs
      · dsimp only
        split
        · exact canon_ilockSweep (canon_mk hs)
        · exact canon_mspawn (canon_setMslot (canon_modSlice (canon_ilockSweep (canon_mk hs))))
    · exact hs
  · exact hs

-- the functions of Sys2Proof/Machine/Restore.lean

theorem canon_warpBack {d u slot team ds v parked} (hs : Canon s) : Canon (s.warpBack d u slot team ds v parked) := hs
theorem canon_heldBack {d u} (hs : Canon s) : Canon (s.heldBack d u) := hs

theorem canon_scBack {d u x} (hs : Canon s) : Canon (s.scBack d u x) := by
  unfold scBack
  extract_lets h off hd teams s1 ts scr tiles uidOf chans s2 parked s3 bins _src s4 rc
  have h2 : Canon s2 := canon_modCore (canon_mk hs)
  clear_value s2
  have h3 : Canon s3 := canon_foldl_at Prod.fst (fun _ _ hs => by
    exact canon_warpBack hs) h2 _
  clear_value s3
  have h4 : Canon s4 := canon_mk (canon_modCore h3)
  exact canon_foldl (fun _ _ hs => canon_modCore hs) h4 _

theorem canon_ilockBack {d die i x} (hs : Canon s) : Canon (s.ilockBack d die i x) := hs

theorem canon_cmdsBack {d u q stopped l} (hs : Canon s) : Canon (s.cmdsBack d u q stopped l).2 := by
  induction l generalizing s stopped with
  | nil => exact hs
  | cons r t ih => exact ih (canon_fresh hs)

theorem canon_notesBack {u} (hs : Canon s) : Canon (s.notesBack u) := canon_mk (canon_modEng hs)

theorem canon_ttBack {d u x} (hs : Canon s) : Canon (s.ttBack d u x) :=
  canon_markHead (canon_modEng (canon_cmdsBack (canon_foldl (fun _ _ hs => canon_setQueue (canon_setRunning (canon_cmdsBack
    (canon_cmdsBack hs)))) (canon_modCore (canon_foldl (fun _ _ hs => by exact hs) hs _)) _)))

theorem canon_rcBack {d u x} (hs : Canon s) : Canon (s.rcBack d u x) := canon_foldl (fun _ _ hs => by exact hs) hs _

theorem canon_dceBack {d die i x} (hs : Canon s) : Canon (s.dceBack d die i x) := by
  unfold dceBack
  dsimp only
  exact canon_foldl (fun _ _ hs => canon_markDce (canon_modDie (canon_cmdsBack hs))) hs _

theorem canon_restoreSlice {d die i} (hs : Canon s) : CanonOk id (s.restoreSlice d die i) := by
  unfold restoreSlice
  extract_lets va sc tt
  clear_value sc tt
  split
  · trivial
  · refine canonOk_ite trivial (canonOk_ite trivial ?_)
    extract_lets secs x s1 s2 s3 s4 s5 s6 s7 s8 waits s9
    clear_value x
    have h1 : Canon s1 := canon_rcBack hs
    clear_value s1
    have h2 : Canon s2 := canon_foldl (fun _ _ hs => canon_ite hs (canon_scBack hs)) h1 _
    clear_value s2
    have h3 : Canon s3 := canon_ite h2 (canon_ilockBack h2)
    clear_value s3
    have h4 : Canon s4 := canon_foldl (fun _ _ hs => canon_ite hs (canon_ttBack hs)) h3 _
    clear_value s4
    have h6 : Canon s6 := canon_foldl (fun _ _ hs => canon_heldBack hs) (canon_dceBack h4) _
    have h7 : Canon s7 := canon_foldl (fun _ _ hs => canon_ite hs (canon_notesBack hs)) h6 _
    have h8 : Canon s8 := canon_foldl (fun _ _ hs => canon_modAgent hs) h7 _
    have h9 : Canon s9 := canon_foldl (fun _ _ hs => canon_phaseNotify hs) h8 _
    exact canonOk_ite trivial (canonOk_ite trivial (canon_foldl (fun _ _ hs => canon_foldl
        (fun _ _ hs => canon_unhold hs) hs _) h9 _))

-- the functions of Sys2Proof/Machine/Switch.lean

theorem canon_stopPath {u slot p} (hs : Canon s) : Canon (s.stopPath u slot p) := by
  unfold stopPath
  split
  · exact canon_poolBack hs
  · exact canon_withdraw hs

theorem canon_stopUnit {u} (hs : Canon s) : Canon (s.stopUnit u) := by
  unfold stopUnit
  exact canon_foldl (fun _ _ hs => by
      dsimp only
      split
      · exact canon_foldl (fun _ _ hs => canon_stopPath hs) hs _
      · exact canon_foldl (fun _ _ hs => canon_parkDue hs) (canon_foldl (fun _ _ hs => canon_stopPath hs) hs _) _) hs _

theorem canon_cutCopies {die i} (hs : Canon s) : Canon (s.cutCopies die i) := canon_mapAllCmds hs

theorem canon_untakeTickets {ctx die i} (hs : Canon s) : Canon (s.untakeTickets ctx die i) := by
  unfold untakeTickets
  exact canon_modSlice (canon_foldl (fun _ _ hs => canon_poolBack hs) hs _)

theorem canon_saveSlice {d die i} (hs : Canon s) : CanonOpt id (s.saveSlice d die i) := by
  unfold saveSlice
  dsimp only
  split
  · exact canon_ctxStore (canon_ctxStore (canon_modCtxRt (canon_ctxStoreDwords (canon_untakeTickets hs))))
  · trivial

theorem canon_saveFailed {d die i} (hs : Canon s) : Canon (s.saveFailed d die i) := by
  unfold saveFailed
  dsimp only
  exact canon_killContext (by
      split
      · exact canon_ctxStore hs
      · exact hs)

theorem canon_dropRefs {die i} (hs : Canon s) : Canon (s.dropRefs die i) :=
  canon_foldl (fun _ _ hs => canon_foldl (fun _ _ hs => canon_foldl (fun _ _ hs => canon_refDec hs) hs _) hs _) hs _
theorem canon_emptySlice {die i} (hs : Canon s) : Canon (s.emptySlice die i) :=
  canon_modSlice (canon_mk (canon_foldl (fun _ _ hs => canon_modAgent (canon_modCore hs)) (canon_modDie (canon_cutCopies hs)) _))
theorem canon_loadStores {d die i} (hs : Canon s) : Canon (s.loadStores d die i) :=
  canon_foldl (fun _ _ hs => canon_foldl (fun _ _ hs => by exact hs) (canon_ite (canon_report hs) hs) _) hs _
theorem canon_loadTraps {d die i} (hs : Canon s) : Canon (s.loadTraps d die i) :=
  canon_ite hs (canon_foldl (fun _ _ hs => by exact hs) hs _)
theorem canon_bindSlice {d pidx die i} (hs : Canon s) : Canon (s.bindSlice d pidx die i) :=
  canon_loadTraps (canon_loadStores hs)
theorem canon_bindFails {d die i cause reason} (hs : Canon s) : Canon (s.bindFails d die i cause reason) :=
  canon_modSlice (canon_emptySlice (canon_killContext hs))

theorem canon_bindNext {die i restore} (hs : Canon s) : Canon (s.bindNext die i restore) := by
  unfold bindNext
  dsimp only
  split
  · exact canon_modSlice hs
  · split
    · exact canon_bindFails hs
    · split
      · exact canon_bindFails hs
      · split
        · exact canon_modSlice (canon_bindSlice hs)
        · split
          · exact canon_bindFails (canon_bindSlice hs)
          · rename_i e
            exact canon_mk (canon_modSlice ((canon_restoreSlice (canon_bindSlice hs)).of_ok e))

theorem canon_endSwitch {die i} (hs : Canon s) : Canon (s.endSwitch die i) := hs
theorem canon_discardSlice {ctx die i killed} (hs : Canon s) : Canon (s.discardSlice ctx die i killed) :=
  canon_ite hs (canon_dropRefs hs)

theorem canon_completeSwitch {die i} (hs : Canon s) : Canon (s.completeSwitch die i) := by
  unfold completeSwitch
  dsimp only
  exact canon_endSwitch (canon_ite (canon_bindNext (canon_emptySlice (by
      split
      · exact hs
      · split
        · split
          · rename_i e
            exact (canon_saveSlice hs).of_some e
          · exact canon_discardSlice (canon_saveFailed hs)
        · exact canon_discardSlice hs))) (canon_modSlice (canon_emptySlice (by
      split
      · exact hs
      · split
        · split
          · rename_i e
            exact (canon_saveSlice hs).of_some e
          · exact canon_discardSlice (canon_saveFailed hs)
        · exact canon_discardSlice hs))))

theorem canon_slctlWrite {die slice v} (hs : Canon s) : Canon (s.slctlWrite die slice v) := by
  unfold slctlWrite
  exact canon_ite hs (canon_ite (canon_modSlice (canon_plainWrite hs)) (canon_plainWrite hs))

theorem canon_execSlctlGo {die slice v} (hs : Canon s) : CanonOut (execSlctlGo die slice v s) := canon_slctlWrite hs
theorem canon_execSwitchComplete {die slice} (hs : Canon s) : CanonOut (execSwitchComplete die slice s) :=
  canon_ite hs (canon_ite (canon_completeSwitch (canon_foldl (fun _ _ hs => canon_stopUnit hs) hs _)) hs)

-- the functions of Sys2Proof/Machine/Agents.lean

theorem canon_hear {d a} (hs : Canon s) : Canon (s.hear d a) := hs

theorem canon_unacked {os} (hs : Canon s) : Canon (s.unacked os) := by
  unfold unacked
  dsimp only
  exact canon_foldl (fun _ _ hs => by
      split
      · exact canon_ite (canon_strikeBoundary hs) (canon_note hs)
      · split
        · exact canon_note hs
        · exact hs) (canon_foldl (fun _ _ hs => canon_endOp hs) hs _) _

theorem canon_endAccesses {d} (hs : Canon s) : Canon (s.endAccesses d) :=
  canon_unacked (canon_foldl (fun _ _ hs => canon_parkLate hs) hs _)

theorem canon_endHurdleWaits {d} (hs : Canon s) : Canon (s.endHurdleWaits d) := by
  unfold endHurdleWaits
  exact canon_foldl (fun _ _ hs => canon_ite hs (canon_foldl (fun _ _ hs => canon_foldl (fun _ _ hs => by
      split
      · exact canon_ite hs (canon_parkBack hs)
      · exact hs) hs _) hs _)) hs _

theorem canon_endCopies {d} (hs : Canon s) : Canon (s.endCopies d) := by
  unfold endCopies
  dsimp only
  exact canon_foldl (fun _ _ hs => by
      split
      · exact canon_ite (canon_engStop (canon_setRunning hs)) (canon_copySettle hs)
      · exact hs) (canon_mapAllCmds (canon_mk hs)) _

theorem canon_endColls {d} (hs : Canon s) : Canon (s.endColls d) := by
  unfold endColls
  exact canon_foldl (fun _ _ hs => by
      dsimp only
      split
      · exact hs
      · split
        · split
          · exact hs
          · split
            · exact canon_collFail hs
            · exact hs
        · exact hs) hs _

theorem canon_endTasks {o} (hs : Canon s) : Canon (s.endTasks o) := by
  unfold endTasks
  exact canon_foldl (fun _ _ hs => by
      dsimp only
      split
      · exact hs
      · split
        · exact canon_foldl (fun _ _ hs => canon_completeHandle hs) hs _
        · exact hs) hs _

theorem canon_endNotices {o} (hs : Canon s) : Canon (s.endNotices o) := hs
theorem canon_endVersions {o} (hs : Canon s) : Canon (s.endVersions o) :=
  canon_foldl (fun _ _ hs => canon_syncVcnt hs) (canon_mk hs) _

theorem canon_endSlices {o} (hs : Canon s) : Canon (s.endSlices o) := by
  unfold endSlices
  exact canon_foldl (fun _ _ hs => by
      dsimp only
      exact canon_modSlice (canon_emptySlice (by
          split
          · exact canon_discardSlice hs
          · exact hs))) hs _

theorem canon_endContexts {d had} (hs : Canon s) : Canon (s.endContexts d had) :=
  canon_foldl (fun _ _ hs => canon_ite (canon_killContext (canon_modCtxRt hs)) (canon_modCtxRt hs)) hs _

theorem canon_losePeer {d} (hs : Canon s) : Canon (s.losePeer d) :=
  canon_endContexts (canon_mk (canon_endVersions (canon_modDie (canon_endSlices (canon_mk (canon_endNotices (canon_endColls
    (canon_endCopies (canon_endTasks (canon_endHurdleWaits (canon_endAccesses hs)))))))))))

theorem canon_downReport {d a scrub} (hs : Canon s) : Canon (s.downReport d a scrub) := canon_dieReport hs

theorem canon_fence {d a} (hs : Canon s) : Canon (s.fence d a) := by
  unfold fence
  split
  · exact hs
  · dsimp only
    exact canon_downReport (by
        split
        · exact hs
        · exact canon_ite (canon_losePeer hs) (canon_endColls hs))

theorem canon_scrubDie {d a} (hs : Canon s) : Canon (s.scrubDie d a) := by
  unfold scrubDie
  cases a with
  | host _ => exact hs
  | die w =>
    have h1 := canon_foldl (f := fun s h => if h.waiting.contains w then s.appliedAt d h.addr h.stamper w else s)
      (fun _ _ hs => canon_ite (canon_appliedAt hs) hs) hs (s.die d).homeUpd
    exact canon_ite h1 (canon_modDie (canon_mk h1))

theorem canon_drain {d n} (hs : Canon s) : Canon (drain d n s) := by
  induction n generalizing s with
  | zero => exact hs
  | succ n ih =>
    unfold drain
    split
    · exact ih (canon_applyUpdate hs)
    · exact hs

theorem canon_exchanged {d m} (hs : Canon s) : Canon (s.exchanged d m) := hs
theorem canon_setReplay {d w step} (hs : Canon s) : Canon (s.setReplay d w step) := hs

theorem canon_sendLog {d w} (hs : Canon s) : Canon (s.sendLog d w) :=
  canon_foldl (fun _ _ hs => canon_foldl (fun _ _ hs => canon_ite hs (canon_ite (canon_exchanged hs)
    (canon_sendFrame hs))) hs _) (canon_foldl (fun _ _ hs => canon_exchanged hs) (canon_modDie hs) _) _

theorem canon_failAcks {d w} (hs : Canon s) : Canon (s.failAcks d w) := canon_unacked hs

theorem canon_execHeartbeatSend {a} (hs : Canon s) : CanonOut (execHeartbeatSend a s) := by
  unfold execHeartbeatSend
  split
  · exact canon_ite hs (canon_mk hs)
  · dsimp only
    split
    · exact hs
    · exact canon_foldl (fun _ _ hs => canon_sendFrame hs) (canon_mk (canon_modDie hs)) _

theorem canon_execHeartbeat {die a count} (hs : Canon s) : CanonOut (execHeartbeat die a count s) := canon_ite hs hs

theorem canon_agentDown {die a} (hs : Canon s) : Canon (s.agentDown die a) := by
  unfold agentDown
  split
  · exact canon_ite (canon_fence hs) hs
  · exact hs

theorem canon_execAgentDown {die a} (hs : Canon s) : CanonOut (execAgentDown die a s) := canon_agentDown hs
theorem canon_scrub {die a} (hs : Canon s) : Canon (s.scrub die a) := canon_ite hs (canon_downReport (canon_scrubDie hs))
theorem canon_execScrub {die a} (hs : Canon s) : CanonOut (execScrub die a s) := canon_scrub hs

theorem canon_agentsDue {d} (hs : Canon s) : Canon (s.agentsDue d) := by
  unfold agentsDue
  dsimp only
  exact canon_foldl (fun _ _ hs => by
      split
      · exact canon_ite (canon_scrub hs) hs
      · exact hs) (canon_foldl (fun _ _ hs => canon_agentDown hs) hs _) _

theorem canon_execReplayDrain {w} (hs : Canon s) : CanonOut (execReplayDrain w s) :=
  canon_foldl (fun _ _ hs => canon_setReplay (canon_drain hs)) hs _

theorem canon_execReplayExchange {w entries} (hs : Canon s) : CanonOut (execReplayExchange w entries s) :=
  canon_foldl (fun _ _ hs => canon_setReplay (canon_foldl (fun _ _ hs => by exact hs) hs _)) (canon_foldl
    (fun _ _ hs => canon_sendLog hs) hs _) _

theorem canon_execReplayApply {w} (hs : Canon s) : CanonOut (execReplayApply w s) :=
  canon_foldl (fun _ _ hs => canon_setReplay (canon_modDie (canon_drain hs))) hs _
theorem canon_execHomePromote {w} (hs : Canon s) : CanonOut (execHomePromote w s) :=
  canon_foldl (fun _ _ hs => canon_setReplay (canon_modDie hs)) hs _
theorem canon_execReplayAcks {w} (hs : Canon s) : CanonOut (execReplayAcks w s) :=
  canon_foldl (fun _ _ hs => canon_setReplay (canon_failAcks hs)) hs _

-- the functions of Sys2Proof/Machine/Convert.lean

theorem canon_convLanes {h dst ty rm sat n src res} (hs : Canon s) : Canon (s.convLanes h dst ty rm sat n src res) :=
  canon_advance (canon_modCur (canon_write hs))
theorem canon_execCvt {h d a dst src rm sat} (hs : Canon s) : CanonOut (execCvt h d a dst src rm sat s) := canon_convLanes hs
theorem canon_execPack {h d a dst src rm sat} (hs : Canon s) : CanonOut (execPack h d a dst src rm sat s) := canon_convLanes hs
theorem canon_execUnpk {h d a dst src} (hs : Canon s) : CanonOut (execUnpk h d a dst src s) := hs
theorem canon_execPlop {h d a b c lut or} (hs : Canon s) : CanonOut (execPlop h d a b c lut or s) := hs

theorem canon_execPmov {h f} (hs : Canon s) : CanonOut (execPmov h f s) := by
  unfold execPmov
  split
  · exact canon_lane32 hs
  · exact canon_perLane hs
  · exact canon_laneP hs

-- the functions of Sys2Proof/Machine/Distrib.lean

theorem canon_launchReport {d ctx cause} (hs : Canon s) : Canon (s.launchReport d ctx cause) := canon_report hs
theorem canon_storeOpen {l live lrh} (hs : Canon s) : Canon (s.storeOpen l live lrh) :=
  canon_devStoreN (canon_devStoreN (canon_devStoreN hs))

theorem canon_takeLaunch {d ctx q} (hs : Canon s) : Canon (s.takeLaunch d ctx q) := by
  unfold takeLaunch
  split
  · exact hs
  · dsimp only
    split
    · exact hs
    · split
      · exact canon_seeStop hs
      · split
        · exact canon_launchReport (canon_modDie (canon_seeStop hs))
        · exact canon_mk (canon_modDie (canon_devStoreN (canon_storeOpen (canon_seeStop hs))))

theorem canon_placeWarps {l u uid heat n} (hs : Canon s) : Canon (placeWarps l u uid heat n s) := by
  induction n generalizing s with
  | zero => exact hs
  | succ n ih =>
    unfold placeWarps
    split
    · exact hs
    · exact ih (canon_setWarp (canon_modCore (canon_fresh hs)))

theorem canon_placeTeam {l u heat} (hs : Canon s) : Canon (s.placeTeam l u heat) :=
  canon_placeWarps (canon_modCore (canon_pickFree (canon_fresh hs)))

theorem canon_placeTeams {us first heat n l} (hs : Canon s) : Canon (placeTeams us first heat n s l).2.2 := by
  induction n generalizing s l with
  | zero => exact hs
  | succ n ih =>
    unfold placeTeams
    split
    · exact hs
    · exact ih (canon_placeTeam hs)

theorem canon_launchTurn {d l} (hs : Canon s) : Canon (s.launchTurn d l).2 := by
  unfold launchTurn
  extract_lets put
  have hput {s l} (hs : Canon s) : Canon (put s l) := canon_modDie hs
  split
  · exact canon_ite hs (canon_launchReport (hput hs))
  · split
    rename_i e
    have ht := canon_snd (canon_snd (canon_placeTeams hs) rfl) (congrArg Prod.snd e)
    split
    · exact hput ht
    · exact canon_ite (canon_modDie (canon_storeOpen (canon_mk ht))) (hput (canon_storeOpen (canon_mk ht)))

theorem canon_passLaunches {d now l} (hs : Canon s) : Canon (passLaunches d now l s) := by
  induction l generalizing s with
  | nil => exact hs
  | cons l r ih => exact canon_ite (canon_launchTurn hs) (ih (canon_launchTurn hs))

theorem canon_placementPass {d} (hs : Canon s) : Canon (s.placementPass d) := canon_ite hs (canon_passLaunches hs)
theorem canon_pollHeaders {d} (hs : Canon s) : Canon (s.pollHeaders d) :=
  canon_foldl (fun _ _ hs => canon_foldl (fun _ _ hs => canon_takeLaunch hs) hs _) (canon_modDie hs) _
theorem canon_execLaunchEntryTake {die ctx queue} (hs : Canon s) : CanonOut (execLaunchEntryTake die ctx queue s) :=
  canon_takeLaunch hs
theorem canon_execQueueHeaderPoll {die} (hs : Canon s) : CanonOut (execQueueHeaderPoll die s) :=
  canon_ite hs (canon_pollHeaders hs)
theorem canon_execPlacementPass {die} (hs : Canon s) : CanonOut (execPlacementPass die s) := canon_placementPass hs
theorem canon_execCarveoutSwitch {u code} (hs : Canon s) : CanonOut (execCarveoutSwitch u code s) :=
  canon_ite (canon_shrinkCache hs) hs
theorem canon_execCongestionWindow {die occ} (hs : Canon s) : CanonOut (execCongestionWindow die occ s) := canon_ite hs hs
theorem canon_execAdmissionTimeout {u slot} (hs : Canon s) : CanonOut (execAdmissionTimeout u slot s) := hs

-- the functions of Sys2Proof/Machine/Fp.lean

theorem canon_execFadd {h d a b sat} (hs : Canon s) : CanonOut (execFadd h d a b sat s) := hs
theorem canon_execFsub {h d a b sat} (hs : Canon s) : CanonOut (execFsub h d a b sat s) := hs
theorem canon_execFmul {h d a b sat} (hs : Canon s) : CanonOut (execFmul h d a b sat s) := hs
theorem canon_execFfma {h d a b c sat} (hs : Canon s) : CanonOut (execFfma h d a b c sat s) := hs
theorem canon_execFmin {h d a b} (hs : Canon s) : CanonOut (execFmin h d a b s) := hs
theorem canon_execFmax {h d a b} (hs : Canon s) : CanonOut (execFmax h d a b s) := hs
theorem canon_execFcmp {h cc d a b c} (hs : Canon s) : CanonOut (execFcmp h cc d a b c s) := hs
theorem canon_execFrcp {h d a} (hs : Canon s) : CanonOut (execFrcp h d a s) := canon_laneVar32 hs
theorem canon_execFrsq {h d a} (hs : Canon s) : CanonOut (execFrsq h d a s) := canon_laneVar32 hs
theorem canon_execFsqrt {h d a} (hs : Canon s) : CanonOut (execFsqrt h d a s) := canon_laneVar32 hs
theorem canon_execFexp2 {h d a} (hs : Canon s) : CanonOut (execFexp2 h d a s) := canon_laneVar32 hs
theorem canon_execFlog2 {h d a} (hs : Canon s) : CanonOut (execFlog2 h d a s) := canon_laneVar32 hs
theorem canon_execFsin {h d a} (hs : Canon s) : CanonOut (execFsin h d a s) := canon_laneVar32 hs
theorem canon_execFcos {h d a} (hs : Canon s) : CanonOut (execFcos h d a s) := canon_laneVar32 hs
theorem canon_execFtanh {h d a} (hs : Canon s) : CanonOut (execFtanh h d a s) := canon_laneVar32 hs
theorem canon_execFrnd {h d a rm} (hs : Canon s) : CanonOut (execFrnd h d a rm s) := hs
theorem canon_execFfrc {h d a} (hs : Canon s) : CanonOut (execFfrc h d a s) := hs
theorem canon_execHxadd {h d a b sat} (hs : Canon s) : CanonOut (execHxadd h d a b sat s) := hs
theorem canon_execHxmul {h d a b sat} (hs : Canon s) : CanonOut (execHxmul h d a b sat s) := hs
theorem canon_execHxfma {h d a b c sat} (hs : Canon s) : CanonOut (execHxfma h d a b c sat s) := hs
theorem canon_execHxmax {h d a b min} (hs : Canon s) : CanonOut (execHxmax h d a b min s) := hs
theorem canon_execDadd {h d a b} (hs : Canon s) : CanonOut (execDadd h d a b s) := canon_laneVar64 hs
theorem canon_execDmul {h d a b} (hs : Canon s) : CanonOut (execDmul h d a b s) := canon_laneVar64 hs
theorem canon_execDfma {h d a b c} (hs : Canon s) : CanonOut (execDfma h d a b c s) := canon_laneVar64 hs
theorem canon_execDcmp {h cc d a b c} (hs : Canon s) : CanonOut (execDcmp h cc d a b c s) := canon_perLaneVar hs

-- the functions of Sys2Proof/Machine/MemEvents.lean

theorem canon_onOp {id ok} {f : MemOp → State} (hs : Canon s) (hf : ∀ o, Canon (f o)) : Canon (s.onOp id ok f) := by
  unfold onOp
  split
  · exact canon_ite (hf _) hs
  · exact hs

theorem canon_exchangePt (hs : Canon s) : Canon s.exchangePt :=
  canon_foldl (fun _ _ hs => canon_performOp hs) (canon_mk (canon_sendPt hs)) _

theorem canon_closeWindow {w} (hs : Canon s) : Canon (s.closeWindow w) := by
  unfold closeWindow
  dsimp only
  split
  · exact canon_foldl (fun _ _ hs => by
        split
        · exact canon_parkLate hs
        · exact hs) (canon_mk hs) _
  · exact canon_mk (by
        split
        · exact canon_foldl (fun _ _ hs => canon_touch hs) hs _
        · exact hs)

theorem canon_segmentArrive {o home} (hs : Canon s) : Canon (s.segmentArrive o home) := by
  unfold segmentArrive
  dsimp only
  split
  · exact canon_closeWindow hs
  · split
    · exact hs
    · split <;> exact hs

theorem canon_sendBeat {w} (hs : Canon s) : Canon (s.sendBeat w) := canon_ite hs hs

theorem canon_takeBeat {o} (hs : Canon s) : Canon (s.takeBeat o) := by
  unfold takeBeat
  split
  · exact hs
  · dsimp only
    split
    · exact canon_endOp (canon_scrPut (canon_healGranules (canon_mk hs)))
    · exact canon_setOp (canon_scrPut (canon_healGranules (canon_mk hs)))

theorem canon_portAccess {o} (hs : Canon s) : Canon (s.portAccess o) := by
  unfold portAccess
  dsimp only
  split
  · exact canon_parkLate hs
  · split
    · exact canon_endOp (canon_scrPut (canon_foldl (fun _ _ hs => canon_note hs) (canon_healGranules hs) _))
    · exact canon_endOp (canon_scrPut (canon_foldl (fun _ _ hs => canon_note hs) (canon_healGranules hs) _))
    · exact canon_endOp hs

theorem canon_dropBadEnts {u c pidx va gpa} (hs : Canon s) : Canon (s.dropBadEnts u c pidx va gpa) :=
  canon_foldl (fun _ _ hs => canon_note hs) (canon_modDie hs) _

theorem canon_fillTlb {u va} (hs : Canon s) : Canon (s.fillTlb u va) := by
  unfold fillTlb
  dsimp only
  split
  · exact hs
  · split
    · exact hs
    · exact canon_ite hs (canon_modDie (canon_dropBadEnts hs))

theorem canon_resolveTable {r} (hs : Canon s) : Canon (s.resolveTable r) :=
  canon_ite (canon_foldl (fun _ _ hs => canon_setHyp hs) hs _) (canon_foldl (fun _ _ hs => canon_ite (canon_setHyp hs)
    (canon_setHyp hs)) hs _)

theorem canon_beginResolve {ctx} (hs : Canon s) : Canon (s.beginResolve ctx) := by
  unfold beginResolve
  split
  · exact hs
  · split
    · exact hs
    · exact canon_resolveTable hs

theorem canon_resolveArrive {i} (hs : Canon s) : Canon (s.resolveArrive i) := by
  unfold resolveArrive
  split
  · exact hs
  · split
    · exact hs
    · split
      · exact canon_parkBack (canon_pendDone hs)
      · exact canon_beginResolve hs

theorem canon_mergeLine {ctx line vs} (hs : Canon s) : Canon (s.mergeLine ctx line vs) :=
  canon_ite (canon_postWords hs) (canon_written (canon_mk (wf_foldl_set hs _ _ _)))
theorem canon_resolveEnd {r} (hs : Canon s) : Canon (s.resolveEnd r) :=
  canon_beginResolve (canon_foldl (fun _ _ hs => canon_hypFree hs) (canon_pendDone (canon_mk (canon_modAgent hs))) _)

theorem canon_sweep {r} (hs : Canon s) : Canon (s.sweep r) := by
  unfold sweep
  extract_lets ctx tags mine n vs p bad s1 lines s2 s3 s4 posts r'
  have h2 : Canon s2 := canon_ite (canon_mk hs) (canon_ite (canon_syncVcnt (canon_foldl (fun _ _ hs => canon_putVers hs)
      (canon_mk hs) _))
    (canon_foldl (fun _ _ hs => canon_mergeLine hs) (canon_mk hs) _))
  have h4 : Canon s4 := canon_foldl (fun _ _ hs => canon_syncVcnt hs) (canon_foldl (fun _ _ hs => canon_note hs) h2 _) _
  exact canon_ite (canon_resolveEnd h4) (canon_mk h4)

theorem canon_execLoadRequestAtHome {op} (hs : Canon s) : CanonOut (execLoadRequestAtHome op s) := by
  unfold execLoadRequestAtHome
  exact canon_onOp hs (fun _ => by
      dsimp only
      split
      · exact canon_serve (canon_tryHit hs)
      · exact canon_tryHit hs)

theorem canon_execDataReply {op} (hs : Canon s) : CanonOut (execDataReply op s) := canon_onOp hs (fun _ => canon_takeReply hs)
theorem canon_execStoreAtHome {op} (hs : Canon s) : CanonOut (execStoreAtHome op s) := canon_onOp hs (fun _ => canon_serve hs)
theorem canon_execAtomicAtHome {op} (hs : Canon s) : CanonOut (execAtomicAtHome op s) := canon_onOp hs (fun _ => canon_serve hs)
theorem canon_execStoreAck {op} (hs : Canon s) : CanonOut (execStoreAck op s) := canon_onOp hs (fun _ => canon_takeAck hs)
theorem canon_execLeaseTick {agent} (hs : Canon s) : CanonOut (execLeaseTick agent s) := canon_ite hs hs
theorem canon_execPackageTimeExchange (hs : Canon s) : CanonOut (execPackageTimeExchange s) :=
  canon_ite (canon_exchangePt hs) hs

theorem canon_execReplicaStamp {op} (hs : Canon s) : CanonOut (execReplicaStamp op s) :=
  canon_onOp hs (fun _ => canon_ite hs (canon_ite (canon_setOp (canon_stampOf hs)) (canon_sendFrame (canon_setOp
    (canon_stampOf hs)))))

theorem canon_execUpdate {die m} (hs : Canon s) : CanonOut (execUpdate die m s) := canon_ite hs hs
theorem canon_execUpdateApply {die i} (hs : Canon s) : CanonOut (execUpdateApply die i s) := canon_applyUpdate hs
theorem canon_execApplied {die addr stamper src} (hs : Canon s) : CanonOut (execApplied die addr stamper src s) :=
  canon_ite hs (canon_appliedAt hs)
theorem canon_execLdmSegmentRequest {op slice} (hs : Canon s) : CanonOut (execLdmSegmentRequest op slice s) :=
  canon_onOp hs (fun _ => canon_segmentArrive hs)

theorem canon_execMergeWindowClose {w} (hs : Canon s) : CanonOut (execMergeWindowClose w s) := by
  unfold execMergeWindowClose
  split
  · exact canon_ite (canon_closeWindow hs) hs
  · exact hs

theorem canon_execMulticastBeat {w} (hs : Canon s) : CanonOut (execMulticastBeat w s) := by
  unfold execMulticastBeat
  split
  · exact canon_ite hs (canon_sendBeat hs)
  · exact hs

theorem canon_execLdmBeatArrival {op} (hs : Canon s) : CanonOut (execLdmBeatArrival op s) :=
  canon_onOp hs (fun _ => canon_takeBeat hs)
theorem canon_execMemoryHurdleArrival {op} (hs : Canon s) : CanonOut (execMemoryHurdleArrival op s) :=
  canon_onOp hs (fun _ => canon_serve hs)
theorem canon_execPageWalk {u va} (hs : Canon s) : CanonOut (execPageWalk u va s) := canon_fillTlb hs
theorem canon_invalidate {die v} (hs : Canon s) : Canon (s.invalidate die v) :=
  canon_ite hs (canon_ite (canon_modDie (canon_plainWrite hs)) (canon_plainWrite hs))
theorem canon_execTranslationInvalidation {die v} (hs : Canon s) : CanonOut (execTranslationInvalidation die v s) :=
  canon_invalidate hs

theorem canon_execInvalidationDone {die} (hs : Canon s) : CanonOut (execInvalidationDone die s) := by
  unfold execInvalidationDone
  split
  · exact hs
  · exact canon_ite hs hs

theorem canon_execResolveArrival {i} (hs : Canon s) : CanonOut (execResolveArrival i s) := canon_resolveArrive hs
theorem canon_execHypothesisStateNotice {u} (hs : Canon s) : CanonOut (execHypothesisStateNotice u s) := hs
theorem canon_execResolveCoreAck {u} (hs : Canon s) : CanonOut (execResolveCoreAck u s) := hs

theorem canon_execVersionSweep {ctx} (hs : Canon s) : CanonOut (execVersionSweep ctx s) := by
  unfold execVersionSweep
  split
  · exact canon_ite (canon_resolveEnd hs) hs
  · split
    · exact canon_sweep hs
    · exact hs

theorem canon_execVersionSpaceFreed {op} (hs : Canon s) : CanonOut (execVersionSpaceFreed op s) :=
  canon_onOp hs (fun _ => canon_performStore hs)
theorem canon_vsfull {op} (hs : Canon s) : Canon (s.vsfull op) := canon_onOp hs (fun _ => canon_parkLate hs)
theorem canon_execVsfull {op} (hs : Canon s) : CanonOut (execVsfull op s) := canon_vsfull hs
theorem canon_execExpanderAccess {op} (hs : Canon s) : CanonOut (execExpanderAccess op s) :=
  canon_onOp hs (fun _ => canon_serve hs)
theorem canon_execScratchpadPortAccess {op} (hs : Canon s) : CanonOut (execScratchpadPortAccess op s) :=
  canon_onOp hs (fun _ => canon_portAccess hs)

-- the functions of Sys2Proof/Machine/Qos.lean

theorem canon_partReport {d n cause info} (hs : Canon s) : Canon (s.partReport d n cause info) := by
  unfold partReport
  split
  · exact canon_report hs
  · exact hs

theorem canon_execBucketRefill {die n c} (hs : Canon s) : CanonOut (execBucketRefill die n c s) := canon_settle hs

theorem canon_execRegulatorRelease {die n c} (hs : Canon s) : CanonOut (execRegulatorRelease die n c s) := by
  unfold execRegulatorRelease
  split
  · exact hs
  · dsimp only
    split
    · exact canon_ite hs hs
    · exact hs

theorem canon_qosWrite {die n c v} (hs : Canon s) : Canon (s.qosWrite die n c v) := by
  unfold qosWrite
  exact canon_ite hs (canon_ite (canon_setBucket (canon_plainWrite hs)) (canon_ite (canon_setBucket (canon_plainWrite hs))
      (canon_setBucket (canon_plainWrite hs))))

theorem canon_execQosWrite {die n c v} (hs : Canon s) : CanonOut (execQosWrite die n c v s) := canon_qosWrite hs

theorem canon_execQosrep {die n c} (hs : Canon s) : CanonOut (execQosrep die n c s) := by
  unfold execQosrep
  split
  · split
    · exact canon_ite (canon_partReport hs) hs
    · exact hs
  · exact hs

theorem canon_execQstatSelfRead {die n c} (hs : Canon s) : CanonOut (execQstatSelfRead die n c s) :=
  canon_ite hs (canon_answerReg hs)

theorem canon_fetchLine {d h} (hs : Canon s) : CanonOpt id (s.fetchLine d h) := by
  unfold fetchLine
  dsimp only
  split
  · trivial
  · split
    · trivial
    · split
      · trivial
      · exact canonOpt_map (canon_meter hs) fun _ ht => canon_modDie (canon_touchLines ht)

theorem canon_fetchLines {d h n} (hs : Canon s) : Canon (fetchLines d h n s) := by
  induction n generalizing s with
  | zero => exact hs
  | succ n ih =>
    unfold fetchLines
    split
    · rename_i e
      exact ih ((canon_fetchLine hs).of_some e)
    · exact hs

theorem canon_execScanOutFifoFill {die hd lines} (hs : Canon s) : CanonOut (execScanOutFifoFill die hd lines s) :=
  canon_fetchLines hs

theorem canon_headUrgent {die hd} (hs : Canon s) : Canon (s.headUrgent die hd) := by
  unfold headUrgent
  exact canon_ite hs (canon_modDie (canon_setReg hs))

theorem canon_headRecovery {die hd} (hs : Canon s) : Canon (s.headRecovery die hd) := canon_ite hs hs
theorem canon_followScale {die n} (hs : Canon s) : Canon (s.followScale die n) :=
  canon_ite hs (canon_modDie (canon_foldl (fun _ _ hs => canon_ite (canon_settle hs) hs) hs _))

theorem canon_headsTick {d} (hs : Canon s) : Canon (s.headsTick d) :=
  canon_foldl (fun _ _ hs => canon_ite (canon_modDie hs) (canon_ite (canon_followScale hs) (canon_modDie hs))) (canon_foldl
    (fun _ _ hs => canon_ite (canon_headRecovery (canon_headUrgent hs)) hs) hs _) _

theorem canon_execHeadUrgent {die hd} (hs : Canon s) : CanonOut (execHeadUrgent die hd s) := canon_headUrgent hs
theorem canon_execHeadRecovery {die hd} (hs : Canon s) : CanonOut (execHeadRecovery die hd s) := canon_headRecovery hs
theorem canon_execHqosUrgnRead {die hd} (hs : Canon s) : CanonOut (execHqosUrgnRead die hd s) :=
  canon_ite hs (canon_answerReg hs)
theorem canon_execBulkScalingChange {die n} (hs : Canon s) : CanonOut (execBulkScalingChange die n s) := canon_followScale hs
theorem canon_execDisplayLineDue {die hd} (hs : Canon s) : CanonOut (execDisplayLineDue die hd s) :=
  canon_ite hs (canon_mk (canon_modDie (canon_setReg hs)))
theorem canon_execVerticalBlank {die hd} (hs : Canon s) : CanonOut (execVerticalBlank die hd s) :=
  canon_ite hs (canon_ite (canon_modDie (canon_setReg hs)) (canon_partReport (canon_modDie (canon_setReg hs))))

theorem canon_storeFrame {die e bytes} (hs : Canon s) : CanonOpt id (s.storeFrame die e bytes) := by
  unfold storeFrame
  dsimp only
  split
  · exact hs
  · refine canonOpt_map (canon_meter hs) fun _ ht => canon_setReg (canon_foldl (fun _ _ hs => ?_) ht _)
    split
    · exact canon_written (canon_partStore (canon_touchLines hs))
    · exact hs

theorem canon_execEncoderFrame {die e bytes} (hs : Canon s) : CanonOut (execEncoderFrame die e bytes s) := by
  unfold execEncoderFrame
  split
  · exact hs
  · split
    · exact hs
    · rename_i e
      exact canon_modDie ((canon_storeFrame hs).of_some e)

-- the functions of Sys2Proof/Machine/Links.lean

theorem canon_moduleDown {m} (hs : Canon s) : Canon (s.moduleDown m) := hs

theorem canon_takeStore {d src b} (hs : Canon s) : Canon (s.takeStore d src b) := by
  unfold takeStore
  dsimp only
  split
  · split
    · exact canon_ite (canon_foldl (fun _ _ hs => canon_devStore hs) hs _) hs
    · exact hs
  · exact canon_forwardUpdate hs

theorem canon_takeAtomic {d b} (hs : Canon s) : Canon (s.takeAtomic d b) := canon_runAtomics hs
theorem canon_takeRead {d src b} (hs : Canon s) : Canon (s.takeRead d src b) := canon_ite hs (canon_sendFrame hs)

theorem canon_takeRsp {d src b} (hs : Canon s) : Canon (s.takeRsp d src b) := by
  unfold takeRsp
  dsimp only
  split
  · exact canon_appliedAt hs
  · split
    · exact hs
    · exact canon_opApplied hs

theorem canon_deliver {d f} (hs : Canon s) : Canon (s.deliver d f) := by
  unfold deliver
  dsimp only
  split
  · split
    · exact canon_foldl (fun _ _ hs => canon_takeAtomic hs) hs _
    · split
      · exact canon_foldl (fun _ _ hs => canon_takeStore hs) hs _
      · exact canon_ite (canon_foldl (fun _ _ hs => canon_takeRead hs) hs _) hs
  · exact canon_ite hs (canon_foldl (fun _ _ hs => canon_takeRsp hs) hs _)
  · exact canon_foldl (fun _ _ hs => canon_ite (canon_exchanged hs) (canon_receiveUpdate hs)) hs _
  · exact canon_mk hs
  · exact canon_ite (canon_hear hs) hs

theorem canon_deliverEarly {d k n} (hs : Canon s) : Canon (deliverEarly d k n s) := by
  induction n generalizing s with
  | zero => exact hs
  | succ n ih =>
    unfold deliverEarly
    dsimp only
    split
    · exact hs
    · exact ih (canon_deliver (canon_modDie hs))

theorem canon_takeFrame {d f} (hs : Canon s) : Canon (s.takeFrame d f) :=
  canon_ite (canon_pump hs) (canon_frameOut (canon_deliverEarly (canon_ite (canon_modDie (canon_pump hs)) (canon_pump hs))))

theorem canon_execLinkErr {die module flit} (hs : Canon s) : CanonOut (execLinkErr die module flit s) := by
  unfold execLinkErr
  split
  · exact hs
  · split
    · exact hs
    · dsimp only
      split
      · exact canon_report hs
      · split
        · exact canon_copySettle (canon_setRunning (canon_report hs))
        · exact canon_report hs

theorem canon_execMeshModuleDown {module} (hs : Canon s) : CanonOut (execMeshModuleDown module s) :=
  canon_ite hs (canon_ite (canon_moduleDown hs) (canon_fence (canon_foldl (fun _ _ hs => canon_moduleDown hs) (canon_foldl
    (fun _ _ hs => canon_modCore hs) (canon_moduleDown hs) _) _)))

theorem canon_execFrameReceive {die bytes} (hs : Canon s) : CanonOut (execFrameReceive die bytes s) := by
  unfold execFrameReceive
  split
  · exact hs
  · exact canon_ite hs (canon_takeFrame hs)

theorem canon_execFrameResend {die dst cls seq} (hs : Canon s) : CanonOut (execFrameResend die dst cls seq s) := by
  unfold execFrameResend
  dsimp only
  split
  · exact hs
  · exact canon_ite hs hs

theorem canon_execConnectionDown {die dst cls} (hs : Canon s) : CanonOut (execConnectionDown die dst cls s) :=
  canon_ite (canon_fence hs) hs
theorem canon_execPtpMessage {die ofs lock} (hs : Canon s) : CanonOut (execPtpMessage die ofs lock s) :=
  canon_ite hs (canon_ite (canon_setReg hs) (canon_setReg (canon_setReg hs)))

theorem canon_execSoftError {st addr two} (hs : Canon s) : CanonOut (execSoftError st addr two s) := by
  unfold execSoftError
  split
  · exact hs
  · split
    · exact hs
    · exact hs
    · exact canon_ite hs hs

-- the functions of Sys2Proof/Machine/Inbound.lean

theorem canon_writeReg {die off v} (hs : Canon s) : Canon (s.writeReg die off v) := by
  unfold writeReg
  split
  · exact hs
  · split
    · exact canon_warmReset hs
    · split
      · exact hs
      · split
        · exact canon_paceadjWrite hs
        · exact canon_swapRequest hs
        · exact canon_invalidate hs
        · exact canon_slctlWrite hs
        · exact canon_qosWrite hs
        · exact canon_attGo hs
        · exact canon_regWrite hs

theorem canon_hostLoad {entry pa n} (hs : Canon s) : Canon (s.hostLoad entry pa n).2 := by
  unfold hostLoad
  split
  · exact canon_modAgent hs
  · extract_lets bs
    split
    · exact hs
    · exact canon_keepReply (canon_modAgent (canon_homeLease (canon_touch hs)))

theorem canon_hostStore {entry pa bs} (hs : Canon s) : Canon (s.hostStore entry pa bs) :=
  canon_ite (canon_partStore hs) (canon_modAgent (canon_homeStore (canon_reachPt hs)))

theorem canon_hostRead {src a n} (hs : Canon s) : Canon (s.hostRead src a n).2 := by
  unfold hostRead
  dsimp only
  split
  · exact hs
  · split
    · exact canon_hostLoad hs
    · exact canon_touch hs

theorem canon_hostWrite {src a bs} (hs : Canon s) : Canon (s.hostWrite src a bs) := by
  unfold hostWrite
  dsimp only
  split
  · exact hs
  · exact canon_written (canon_healGranules (canon_healGranules (by
        split
        · exact canon_hostStore (canon_touch hs)
        · exact canon_partStore (canon_touch hs)
        · exact canon_devStore (canon_touch hs))))

theorem canon_execRegisterWrite {die off v} (hs : Canon s) : CanonOut (execRegisterWrite die off v s) :=
  canon_ite hs (canon_regWrite hs)

theorem canon_execInboundRead {src pa n} (hs : Canon s) : CanonOut (execInboundRead src pa n s) := by
  refine canonOut_next (canon_ite hs ?_)
  split
  · exact canon_ite (canon_mk hs) (canon_mk (canon_readReg hs))
  · refine canon_ite (canon_mk hs) ?_
    split
    · exact hs
    · rename_i e
      refine canon_mk (canon_foldl_at Prod.snd (fun _ _ hs => ?_) ((canon_meter hs).of_some e) _)
      exact canon_hostRead hs

theorem canon_execInboundWrite {src pa bytes} (hs : Canon s) : CanonOut (execInboundWrite src pa bytes s) := by
  unfold execInboundWrite
  split
  · exact hs
  · split
    · exact canon_ite hs (canon_writeReg hs)
    · split
      · exact hs
      · split
        · exact hs
        · rename_i e
          exact canon_foldl (fun _ _ hs => canon_hostWrite hs) ((canon_meter hs).of_some e) _

-- the functions of Sys2Proof/Machine/Integer.lean

theorem canon_execIadd {h d a b w sat u} (hs : Canon s) : CanonOut (execIadd h d a b w sat u s) := hs
theorem canon_execIsub {h d a b w sat u} (hs : Canon s) : CanonOut (execIsub h d a b w sat u s) := hs
theorem canon_execImul {h d a b sat u} (hs : Canon s) : CanonOut (execImul h d a b sat u s) := hs
theorem canon_execImulh {h d a b u} (hs : Canon s) : CanonOut (execImulh h d a b u s) := hs
theorem canon_execImad {h d a b c sat u} (hs : Canon s) : CanonOut (execImad h d a b c sat u s) := hs
theorem canon_execImadw {h d a b c sat u} (hs : Canon s) : CanonOut (execImadw h d a b c sat u s) := hs
theorem canon_execImin {h d a b u} (hs : Canon s) : CanonOut (execImin h d a b u s) := hs
theorem canon_execImax {h d a b u} (hs : Canon s) : CanonOut (execImax h d a b u s) := hs
theorem canon_execIabs {h d a sat} (hs : Canon s) : CanonOut (execIabs h d a sat s) := hs
theorem canon_execAnd {h d a b} (hs : Canon s) : CanonOut (execAnd h d a b s) := hs
theorem canon_execOr {h d a b} (hs : Canon s) : CanonOut (execOr h d a b s) := hs
theorem canon_execXor {h d a b} (hs : Canon s) : CanonOut (execXor h d a b s) := hs
theorem canon_execAndn {h d a b} (hs : Canon s) : CanonOut (execAndn h d a b s) := hs
theorem canon_execNot {h d a} (hs : Canon s) : CanonOut (execNot h d a s) := hs
theorem canon_execLop3 {h d a b lut} (hs : Canon s) : CanonOut (execLop3 h d a b lut s) := hs
theorem canon_execShl {h d a b w clamp} (hs : Canon s) : CanonOut (execShl h d a b w clamp s) := hs
theorem canon_execShr {h d a b w clamp} (hs : Canon s) : CanonOut (execShr h d a b w clamp s) := hs
theorem canon_execSar {h d a b w clamp} (hs : Canon s) : CanonOut (execSar h d a b w clamp s) := hs
theorem canon_execRotl {h d a b w} (hs : Canon s) : CanonOut (execRotl h d a b w s) := hs
theorem canon_execClz {h d a} (hs : Canon s) : CanonOut (execClz h d a s) := hs
theorem canon_execCtz {h d a} (hs : Canon s) : CanonOut (execCtz h d a s) := hs
theorem canon_execPopc {h d a} (hs : Canon s) : CanonOut (execPopc h d a s) := hs
theorem canon_execBrev {h d a} (hs : Canon s) : CanonOut (execBrev h d a s) := hs
theorem canon_execBfx {h d a b u} (hs : Canon s) : CanonOut (execBfx h d a b u s) := hs
theorem canon_execBfi {h d a b c} (hs : Canon s) : CanonOut (execBfi h d a b c s) := hs
theorem canon_execIlv {h d a b c three} (hs : Canon s) : CanonOut (execIlv h d a b c three s) := hs
theorem canon_execDlv {h d a b three} (hs : Canon s) : CanonOut (execDlv h d a b three s) := hs
theorem canon_execIcmp {h cc d a b c} (hs : Canon s) : CanonOut (execIcmp h cc d a b c s) := hs
theorem canon_execIsel {h d a b c} (hs : Canon s) : CanonOut (execIsel h d a b c s) := hs

theorem canon_execMov {h d b} (hs : Canon s) : CanonOut (execMov h d b s) := by
  unfold execMov
  split
  · exact hs
  · exact hs
  · exact canon_uniform hs
  · exact canon_uniform hs

theorem canon_execMovi {h d w imm} (hs : Canon s) : CanonOut (execMovi h d w imm s) := hs
theorem canon_execMovk {h d src imm} (hs : Canon s) : CanonOut (execMovk h d src imm s) := canon_uniform hs
theorem canon_execLea {h d a b sh u} (hs : Canon s) : CanonOut (execLea h d a b sh u s) := hs

-- the functions of Sys2Proof/Machine/Mgmt.lean

theorem canon_answer {r status} (hs : Canon s) : Canon (s.answer r status) := hs

theorem canon_onUnit {r code} {f : UnitId → State} (hs : Canon s) (hf : ∀ u, Canon (f u)) : Canon (s.onUnit r code f) := by
  unfold onUnit
  split
  · exact hs
  · split
    · exact canon_ite (canon_answer hs) (hf _)
    · exact canon_answer hs

theorem canon_onDie {r code s2} (hs : Canon s) (h2 : Canon s2) : Canon (s.onDie r code s2) := canon_ite hs (canon_ite hs h2)
theorem canon_dbgHalt {u} (hs : Canon s) : Canon (s.dbgHalt u) :=
  canon_foldl (fun _ _ hs => canon_ite hs (canon_strikeBoundary hs)) hs _

theorem canon_putDwords {pa ds} (hs : Canon s) : Canon (s.putDwords pa ds) := by
  induction ds generalizing s pa with
  | nil => exact hs
  | cons x r ih => exact ih (canon_devStoreN hs)

theorem canon_execHalt {r} (hs : Canon s) : CanonOut (execHalt r s) :=
  canon_onUnit hs (fun _ => canon_ite (canon_dbgHalt hs) hs)
theorem canon_execResume {r} (hs : Canon s) : CanonOut (execResume r s) := canon_onUnit hs (fun _ => canon_ite hs hs)
theorem canon_execSnap {r} (hs : Canon s) : CanonOut (execSnap r s) :=
  canon_onUnit hs (fun _ => canon_ite hs (canon_putDwords hs))
theorem canon_execFwload {r signed sig} (hs : Canon s) : CanonOut (execFwload r signed sig s) :=
  canon_onDie hs (canon_ite hs (canon_answer (canon_runImage hs)))
theorem canon_execUnknownManagementCommand {r} (hs : Canon s) : CanonOut (execUnknownManagementCommand r s) := canon_ite hs hs
theorem canon_stopQueues {ctx} (hs : Canon s) : Canon (s.stopQueues ctx) := canon_foldl (fun _ _ hs => canon_devStoreN hs) hs _

theorem canon_quiesce (hs : Canon s) : Canon s.quiesce :=
  canon_foldl (fun _ _ hs => canon_foldl (fun _ _ hs => canon_ite hs (canon_modSlice (canon_plainWrite
    (canon_setReg hs)))) hs _) (canon_foldl (fun _ _ hs => canon_stopQueues hs) hs _) _

theorem canon_sendCkpt {t pa bs} (hs : Canon s) : Canon (s.sendCkpt t pa bs) :=
  canon_foldl (fun _ _ hs => canon_sendFrame hs) hs _
theorem canon_toTarget {target pa bs} (hs : Canon s) : Canon (s.toTarget target pa bs) :=
  canon_ite (canon_foldl (fun _ _ hs => canon_devStore hs) hs _) (canon_sendCkpt hs)

theorem canon_execCkpt {r} (hs : Canon s) : CanonOut (execCkpt r s) := by
  unfold execCkpt
  exact canon_onDie hs (canon_ite hs (by
      split
      · exact hs
      · exact canon_ite hs (canon_mk (canon_quiesce hs))))

theorem canon_execCheckpointTransfer (hs : Canon s) : CanonOut (execCheckpointTransfer s) := by
  unfold execCheckpointTransfer
  split
  · exact hs
  · exact canon_ite hs (canon_foldl (fun _ _ hs => canon_toTarget hs) hs _)

theorem canon_execCheckpointCommit (hs : Canon s) : CanonOut (execCheckpointCommit s) := by
  unfold execCheckpointCommit
  split
  · exact hs
  · exact canon_ite hs (canon_foldl (fun _ _ hs => canon_toTarget hs) hs _)

theorem canon_execCkrecv {r} (hs : Canon s) : CanonOut (execCkrecv r s) := canon_onDie hs hs

theorem canon_execCkrest {r remote} (hs : Canon s) : CanonOut (execCkrest r remote s) := by
  unfold execCkrest
  exact canon_onDie hs (canon_ite hs (by
      split
      · exact hs
      · split
        · exact hs
        · exact canon_foldl (fun _ _ hs => canon_foldl (fun _ _ hs => canon_devStore hs) hs _) hs _))

-- the functions of Sys2Proof/Machine/Refit.lean

theorem canon_refitStore {d j al va bs} (hs : Canon s) : CanonOk id (s.refitStore d j al va bs) := by
  unfold refitStore
  dsimp only
  split
  · trivial
  · exact canon_foldl (fun _ _ hs => canon_partStore (canon_foldl (fun _ _ hs => canon_report hs)
      (canon_foldl (fun _ _ hs => canon_report hs) (canon_healGranules (canon_healGranules hs)) _) _)) hs _

theorem canon_refitEnd {d j status began} (hs : Canon s) : Canon (s.refitEnd d j status began) := by
  unfold refitEnd
  dsimp only
  split
  · exact canon_completeHandle hs
  · split
    · rename_i e
      exact canon_completeHandle ((canon_refitStore (canon_modDie hs)).of_ok e)
    · exact canon_completeHandle hs

theorem canon_nodeFields {j ws u bs} (hs : Canon s) : Canon (s.nodeFields j ws u bs).2 := hs

theorem canon_bxWords {u} (hs : Canon s) : Canon (s.bxWords u).2 := by
  refine canon_foldl_at Prod.snd (fun _ _ hs => ?_) hs _
  split
  · exact canon_drawFree hs
  · exact hs

theorem canon_refitOne {d j n} (hs : Canon s) : CanonOk Prod.snd (s.refitOne d j n) := by
  unfold refitOne
  extract_lets putBx
  have hput {s j u} (hs : Canon s) : CanonOk Prod.snd (putBx s j u) := by
    dsimp only [putBx]
    split
    · rename_i e
      exact (canon_refitStore (canon_bxWords hs)).of_ok e
    · trivial
  clear_value putBx
  split
  · trivial
  · split
    · trivial
    · exact hput hs
    · dsimp only
      split
      · trivial
      · rename_i e
        exact hput ((canon_refitStore (canon_nodeFields hs)).of_ok e)

theorem canon_refitUp {d j n} (hs : Canon s) : CanonOk Prod.snd (s.refitUp d j n) := by
  unfold refitUp
  split
  · trivial
  · dsimp only
    split
    · exact hs
    · split
      · trivial
      · split
        · split
          · trivial
          · split
            · rename_i e
              exact (canon_refitStore hs).of_ok e
            · trivial
        · trivial
        · trivial

theorem canon_refitPut {d j} (hs : Canon s) : Canon (s.refitPut d j) := by
  unfold refitPut
  split
  · exact canon_refitEnd hs
  · exact canon_ite (canon_refitEnd hs) hs

theorem canon_execRefitStart {die} (hs : Canon s) : CanonOut (execRefitStart die s) := by
  unfold execRefitStart
  split
  · dsimp only
    split
    · exact canon_refitEnd hs
    · split
      · exact canon_refitEnd hs
      · split
        · exact canon_refitEnd hs
        · exact canon_refitEnd hs
        · exact canon_refitPut hs
  · exact hs

theorem canon_execRefitNode {die i} (hs : Canon s) : CanonOut (execRefitNode die i s) := by
  refine canonOut_next ?_
  split
  · exact hs
  · split
    · exact hs
    · extract_lets part ls
      split
      · exact hs
      · rename_i e
        have h1 := canon_touchLines (pidx := part) (cls := 6) (ls := ls) ((canon_meter hs).of_some e)
        extract_lets s1
        split
        · exact canon_refitEnd h1
        · rename_i e1
          have h2 := (canon_refitOne h1).of_ok e1
          split
          · exact canon_refitEnd h2
          · rename_i e2
            exact canon_refitPut ((canon_refitUp h2).of_ok e2)

-- the functions of Sys2Proof/Machine/Dispatch.lean

theorem canon_exec {i} (hs : Canon s) : CanonOut (exec i s) := by
  unfold exec
  split
  -- control (R129)
  · exact canon_execNop hs
  · exact canon_execBra hs
  · exact canon_execJmp hs
  · exact canon_execBrx hs
  · exact canon_execCall hs
  · exact canon_execCallx hs
  · exact canon_execRet hs
  · exact canon_execExit hs
  · exact canon_execYield hs
  · exact canon_execSleep hs
  · exact canon_execLset hs
  · exact canon_execLrot hs
  · exact canon_execLbrk hs
  · exact canon_execHurd hs
  · exact canon_execHurdMem hs
  · exact canon_execHarr hs
  · exact canon_execHarrMem hs
  · exact canon_execHwt hs
  · exact canon_execHwtMem hs
  · exact canon_execSpawn hs
  · exact canon_execTask hs
  · exact canon_execFwait hs
  · exact canon_execFtest hs
  · exact canon_execCancel hs
  · exact canon_execBaton hs
  · exact canon_execRegx hs
  · exact canon_execRegs hs
  · exact canon_execTrap hs
  · exact canon_execEretRetry hs
  · exact canon_execEretSkip hs
  · exact canon_execEretKill hs
  · exact canon_execSrd hs
  · exact canon_execSwr hs
  · exact canon_execPark hs
  · exact canon_execUnparkRetry hs
  · exact canon_execUnparkSkip hs
  -- integer (R99 to R105)
  · exact canon_execIadd hs
  · exact canon_execIsub hs
  · exact canon_execImul hs
  · exact canon_execImulh hs
  · exact canon_execImad hs
  · exact canon_execImadw hs
  · exact canon_execImin hs
  · exact canon_execImax hs
  · exact canon_execIabs hs
  · exact canon_execAnd hs
  · exact canon_execOr hs
  · exact canon_execXor hs
  · exact canon_execAndn hs
  · exact canon_execNot hs
  · exact canon_execLop3 hs
  · exact canon_execShl hs
  · exact canon_execShr hs
  · exact canon_execSar hs
  · exact canon_execRotl hs
  · exact canon_execClz hs
  · exact canon_execCtz hs
  · exact canon_execPopc hs
  · exact canon_execBrev hs
  · exact canon_execBfx hs
  · exact canon_execBfi hs
  · exact canon_execIlv hs
  · exact canon_execDlv hs
  · exact canon_execIcmp hs
  · exact canon_execIsel hs
  · exact canon_execMov hs
  · exact canon_execMovi hs
  · exact canon_execMovk hs
  · exact canon_execLea hs
  · exact canon_execCvt hs
  · exact canon_execPack hs
  · exact canon_execUnpk hs
  · exact canon_execPlop hs
  · exact canon_execPmov hs
  · exact canon_execPart hs
  · exact canon_execShfl hs
  · exact canon_execVote hs
  · exact canon_execRedux hs
  · exact canon_execScan hs
  · exact canon_execBcast hs
  · exact canon_execMatchV hs
  -- floating point (R110 to R114)
  · exact canon_execFadd hs
  · exact canon_execFsub hs
  · exact canon_execFmul hs
  · exact canon_execFfma hs
  · exact canon_execFmin hs
  · exact canon_execFmax hs
  · exact canon_execFcmp hs
  · exact canon_execFrcp hs
  · exact canon_execFrsq hs
  · exact canon_execFsqrt hs
  · exact canon_execFexp2 hs
  · exact canon_execFlog2 hs
  · exact canon_execFsin hs
  · exact canon_execFcos hs
  · exact canon_execFtanh hs
  · exact canon_execFrnd hs
  · exact canon_execFfrc hs
  · exact canon_execHxadd hs
  · exact canon_execHxmul hs
  · exact canon_execHxfma hs
  · exact canon_execHxmax hs
  · exact canon_execDadd hs
  · exact canon_execDmul hs
  · exact canon_execDfma hs
  · exact canon_execDcmp hs
  -- memory (R162 to R189)
  · exact canon_execLd hs
  · exact canon_execSt hs
  · exact canon_execLds hs
  · exact canon_execSts hs
  · exact canon_execLdk hs
  · exact canon_execLdm hs
  · exact canon_execAtom hs
  · exact canon_execAtoms hs
  · exact canon_execRed hs
  · exact canon_execFence hs
  · exact canon_execFxp hs
  · exact canon_execPref hs
  · exact canon_execLease hs
  · exact canon_execCflush hs
  · exact canon_execHset hs
  · exact canon_execHnew hs
  · exact canon_execHresConfirm hs
  · exact canon_execHresRefute hs
  · exact canon_execHqryInfo hs
  · exact canon_execHqryAnc hs
  -- gang and engine forms (R190 to R227)
  · exact canon_execGang hs
  · exact canon_execMma hs
  · exact canon_execMovt hs
  · exact canon_execTzero hs
  · exact canon_execTld hs
  · exact canon_execTst hs
  · exact canon_execStrec hs
  · exact canon_execEmm hs
  · exact canon_execEvx hs
  · exact canon_execEred hs
  · exact canon_execEcpy hs
  · exact canon_execEmode hs
  · exact canon_execEnote hs
  · exact canon_execEwait hs
  · exact canon_execEsave hs
  · exact canon_execEres hs
  · exact canon_execWmrd hs
  · exact canon_execWmset hs
  · exact canon_execWmsetOff hs
  · exact canon_execColl hs
  -- graphics (R297)
  · exact canon_execTrace hs
  · exact canon_execTqry hs
  · exact canon_execTexs hs
  · exact canon_execTexl hs
  · exact canon_execTexg hs
  · exact canon_execOrdb hs
  · exact canon_execOrde hs
  · exact canon_execRefit hs
  -- microwords (R293, R294), acting on the slot of State.mcur
  · exact canon_execNfetchFetch hs
  · exact canon_execNfetchRaw hs
  · exact canon_execNfetchChild hs
  · exact canon_execPfetch hs
  · exact canon_execXfma hs
  · exact canon_execXmul hs
  · exact canon_execXmin hs
  · exact canon_execXmax hs
  · exact canon_execXcmp hs
  · exact canon_execXsel hs
  · exact canon_execXrcp hs
  · exact canon_execXrcpSq hs
  · exact canon_execSpush hs
  · exact canon_execSpop hs
  · exact canon_execMicroGo hs
  · exact canon_execGoif hs
  · exact canon_execEmitHit hs
  · exact canon_execEmitSpawn hs
  · exact canon_execEmitSpord hs
  · exact canon_execEmitOut hs
  · exact canon_execLazy hs
  · exact canon_execMicroDone hs
  -- events of warps and cores
  · exact canon_execResultWriteback hs
  · exact canon_execSpawnBinDeadline hs
  · exact canon_execPoolSlotTake hs
  · exact canon_execPendingWarpStart hs
  · exact canon_execBinLaunchRetry hs
  · exact canon_execTaskDispatch hs
  · exact canon_execTaskPriorityAgeing hs
  · exact canon_execFenceSlotWaitEnd hs
  · exact canon_execQueueRoomWaitEnd hs
  · exact canon_execRegxGrant hs
  · exact canon_execRegxRefusal hs
  · exact canon_execSleepRelease hs
  · exact canon_execParkDeferred hs
  · exact canon_execWarpRetire hs
  · exact canon_execTrapTaken hs
  · exact canon_execGangMmaDone hs
  · exact canon_execGangtime hs
  · exact canon_execColldead hs
  · exact canon_execWdog hs
  · exact canon_execDeadline hs
  -- events of the memory system
  · exact canon_execLoadRequestAtHome hs
  · exact canon_execDataReply hs
  · exact canon_execStoreAtHome hs
  · exact canon_execAtomicAtHome hs
  · exact canon_execStoreAck hs
  · exact canon_execLeaseTick hs
  · exact canon_execPackageTimeExchange hs
  · exact canon_execReplicaStamp hs
  · exact canon_execUpdate hs
  · exact canon_execUpdateApply hs
  · exact canon_execApplied hs
  · exact canon_execLdmSegmentRequest hs
  · exact canon_execMergeWindowClose hs
  · exact canon_execMulticastBeat hs
  · exact canon_execLdmBeatArrival hs
  · exact canon_execMemoryHurdleArrival hs
  · exact canon_execPageWalk hs
  · exact canon_execTranslationInvalidation hs
  · exact canon_execInvalidationDone hs
  · exact canon_execResolveArrival hs
  · exact canon_execHypothesisStateNotice hs
  · exact canon_execResolveCoreAck hs
  · exact canon_execVersionSweep hs
  · exact canon_execVersionSpaceFreed hs
  · exact canon_execVsfull hs
  -- events of the engines and copies
  · exact canon_execEngineCommandStart hs
  · exact canon_execEngineIssueTime hs
  · exact canon_execMatrixEngineStep hs
  · exact canon_execVectorEngineStep hs
  · exact canon_execEmodeApply hs
  · exact canon_execEnoteReached hs
  · exact canon_execCopyBufferEntry hs
  · exact canon_execCopySend hs
  · exact canon_execDieCopySend hs
  · exact canon_execSliceRunLoad hs
  · exact canon_execFlitArrival hs
  · exact canon_execBridgeCrossing hs
  · exact canon_execCollContribution hs
  · exact canon_execCollResend hs
  · exact canon_execColltime hs
  -- events of the graphics units
  · exact canon_execFetchDataReturn hs
  · exact canon_execLazyWake hs
  · exact canon_execInterlockRegistration hs
  · exact canon_execRefitStart hs
  · exact canon_execRefitNode hs
  -- events of the distributor, regulators and display
  · exact canon_execLaunchEntryTake hs
  · exact canon_execQueueHeaderPoll hs
  · exact canon_execPlacementPass hs
  · exact canon_execCarveoutSwitch hs
  · exact canon_execCongestionWindow hs
  · exact canon_execAdmissionTimeout hs
  · exact canon_execBucketRefill hs
  · exact canon_execRegulatorRelease hs
  · exact canon_execHeadUrgent hs
  · exact canon_execHeadRecovery hs
  · exact canon_execBulkScalingChange hs
  · exact canon_execDisplayLineDue hs
  · exact canon_execVerticalBlank hs
  · exact canon_execEncoderFrame hs
  · exact canon_execQosrep hs
  -- events of switches, registers and the platform
  · exact canon_execSlctlGo hs
  · exact canon_execSwitchComplete hs
  · exact canon_execPoolfull hs
  · exact canon_execPaceadjWrite hs
  · exact canon_execRingSwapRequest hs
  · exact canon_execRingBankSwap hs
  · exact canon_execQosWrite hs
  · exact canon_execQstatSelfRead hs
  · exact canon_execHqosUrgnRead hs
  · exact canon_execPwrstatLimitedRead hs
  · exact canon_execRegisterWrite hs
  · exact canon_execAttctlGo hs
  · exact canon_execAttestationDone hs
  · exact canon_execColdReset hs
  · exact canon_execWarm hs
  · exact canon_execBringUpStep hs
  · exact canon_execPowerWindow hs
  · exact canon_execWearUpdate hs
  · exact canon_execWearEol hs
  · exact canon_execThermal hs
  · exact canon_execThermalPowerOff hs
  · exact canon_execHeartbeatSend hs
  · exact canon_execHeartbeat hs
  · exact canon_execAgentDown hs
  · exact canon_execScrub hs
  · exact canon_execReplayDrain hs
  · exact canon_execReplayExchange hs
  · exact canon_execReplayApply hs
  · exact canon_execHomePromote hs
  · exact canon_execReplayAcks hs
  · exact canon_execLinkErr hs
  · exact canon_execMeshModuleDown hs
  · exact canon_execFrameReceive hs
  · exact canon_execFrameResend hs
  · exact canon_execConnectionDown hs
  · exact canon_execPtpMessage hs
  · exact canon_execInboundRead hs
  · exact canon_execInboundWrite hs
  · exact canon_execExpanderAccess hs
  · exact canon_execHalt hs
  · exact canon_execResume hs
  · exact canon_execSnap hs
  · exact canon_execFwload hs
  · exact canon_execCkpt hs
  · exact canon_execCheckpointTransfer hs
  · exact canon_execCheckpointCommit hs
  · exact canon_execCkrecv hs
  · exact canon_execCkrest hs
  · exact canon_execUnknownManagementCommand hs
  · exact canon_execScratchpadPortAccess hs
  · exact canon_execCopyFlitLoad hs
  · exact canon_execCopyChunkArrival hs
  · exact canon_execScanOutFifoFill hs
  · exact canon_execSoftError hs
  · exact canon_execBlockThrottle hs

-- the functions of Sys2Proof/Machine/Tick.lean

theorem canon_again {f : State → State} {n} (hs : Canon s) (hf : ∀ s, Canon s → Canon (f s)) : Canon (again f n s) := by
  induction n generalizing s with
  | zero => exact hs
  | succ n ih => exact ih (hf _ hs)

theorem canon_ringTick {d} (hs : Canon s) : Canon (s.ringTick d) := by
  have h1 : Canon ((s.engUnits d).foldl (fun (s : State) u => (again (fun s => s.copyLoad u) 12 s).copySend u) s) :=
    canon_foldl (fun _ _ hs => canon_copySend (canon_again hs fun _ hs => canon_copyLoad hs)) hs _
  exact canon_bankSwap (canon_foldl (fun _ _ hs => canon_again hs fun _ hs => canon_flitArrive hs)
    (canon_foldl (fun _ _ hs => canon_flitCross hs) h1 _) _)

theorem canon_endTick {d} (hs : Canon s) : Canon (s.endTick d) :=
  canon_foldl (fun _ _ hs => canon_ringTick hs) (canon_headsTick hs) _
theorem canon_closeDue {d} (hs : Canon s) : Canon (s.closeDue d) := canon_foldl (fun _ _ hs => canon_closeWindow hs) hs _

theorem canon_binsDue {d} (hs : Canon s) : Canon (s.binsDue d) := by
  refine canon_foldl (fun s c hs => canon_ite hs (canon_foldl (fun s b hs => ?_) hs _)) hs _
  split
  · exact canon_ite (canon_getD (canon_launchBin hs) hs) hs
  · exact hs

theorem canon_unitDue {u} (hs : Canon s) : Canon (s.unitDue u) :=
  canon_ite hs (canon_foldl (fun _ _ hs => canon_poolfull hs) (canon_foldl (fun _ _ hs => canon_colldead hs) (canon_foldl
    (fun _ _ hs => canon_gangtime hs) (canon_colltime (canon_deadline hs)) _) _) _)

theorem canon_waitsDue {d} (hs : Canon s) : Canon (s.waitsDue d) := by
  unfold waitsDue
  exact canon_agentsDue (canon_foldl (fun _ _ hs => canon_vsfull hs) (canon_foldl (fun _ _ hs => canon_unitDue hs) hs _) _)

theorem canon_beginTick {d} (hs : Canon s) : Canon (s.beginTick d) := by
  unfold beginTick
  extract_lets s1 s2
  have h1 : Canon s1 := canon_waitsDue (canon_binsDue (canon_closeDue hs))
  have h2 : Canon s2 := canon_ite (canon_exchangePt h1) h1
  exact canon_ite (canon_pollHeaders h2) h2

theorem canon_passTicks {d n} (hs : Canon s) : Canon (passTicks d n s) := by
  induction n generalizing s with
  | zero => exact hs
  | succ n ih => exact ih (canon_beginTick (canon_paceTo (canon_endTick hs)))

theorem canon_tickDie {d} (hs : Canon s) : Canon (s.tickDie d) :=
  canon_ite (canon_ite (canon_passTicks (canon_slew hs)) (canon_passTicks (canon_passTicks (canon_slew hs)))) (canon_ite
    (canon_ite (canon_passTicks (canon_slew hs)) (canon_passTicks hs)) hs)

-- the functions of Sys2Proof/Machine/Step.lean

theorem canon_issueStep {u slot} (hs : Canon s) : CanonOut (issueStep s u slot) := by
  have hp := canon_prep (u := u) (slot := slot) hs
  unfold issueStep
  split
  · rename_i e
    rw [e] at hp
    exact hp
  · rename_i e
    rw [e] at hp
    obtain ⟨hb, ha⟩ := hp
    split
    · rename_i e
      have ht := (canon_exec hb).of_next e
      refine canonOut_ite ht ?_
      split
      · rename_i e
        exact canon_finish ((canon_exec ha).of_next e)
      · trivial
      · trivial
    · trivial
    · trivial

theorem canon_portStep {u port} (hs : Canon s) : CanonOut (portStep s u port) := by
  unfold portStep
  split
  · exact canon_issueStep hs
  · exact hs

theorem canon_microStep {u g slot} (hs : Canon s) : CanonOut (microStep s u g slot) := by
  have h := canon_microPrep (u := u) (g := g) (slot := slot) hs
  unfold microStep
  split
  · rename_i e
    rw [e] at h
    exact h
  · rename_i e
    rw [e] at h
    exact canon_exec h

theorem canon_sequencerStep {u g} (hs : Canon s) : CanonOut (sequencerStep s u g) := by
  unfold sequencerStep
  split
  · exact canon_microStep hs
  · exact hs

theorem canon_act {a} (hs : Canon s) : CanonOut (act s a) := by
  unfold act
  split
  · exact canon_portStep hs
  · exact canon_sequencerStep hs
  · exact canonOut_ite (canon_exec hs) hs
  · exact canon_tickDie hs
  · exact hs
  · exact hs
  · exact hs
  · exact canon_scanQueue hs

theorem canon_step (hs : Canon s) : CanonOut (step s) := by
  unfold step
  split
  · split
    · exact canon_exec hs
    · trivial
  · split
    · exact canon_portStep hs
    · exact canon_act hs

/-- Settles O60: memory is written by stores, fills and clears that each keep its canonical form (`canon_homeStore`,
`canon_storeLine`, `canon_mergeLine`, `canon_bringUp`, `canon_execThermalPowerOff`), and every other function of the machine
hands on the memory of the states it is made of; `canon_step` draws them together. -/
theorem memoryStaysCanonical : Obligations.MemoryStaysCanonical := by
  unfold Obligations.MemoryStaysCanonical
  intro s t hs e
  exact (canon_step hs).of_next e

end

end Sys2Proof.Machine
end

section
/-! The refutation of O51: a refused image at the first step of bring-up leaves READY as it was. -/
namespace Sys2Proof.Machine

open Bits

-- firmware (R341 step 2, R342)

/-- Header and signature alone take 388 bytes. -/
theorem acceptsImage_eq_false_of_length_lt {die : Nat} {image : List Byte} (h : image.length < 388) :
    State.acceptsImage die image = false := by
  have hlen : (image.length == 388 + ofBytes (image.take 8)) = false := by simp only [beq_eq_false_iff_ne]; omega
  simp only [State.acceptsImage, hlen, Bool.false_and]

theorem bringUp_of_stage_one {s : State} {images mods} (hgo : s.plat.stalled = false) (hstage : s.plat.stage = 1) :
    s.bringUp images mods =
      if State.acceptsImage 0 (images.headD []) = true then s.runImage (images.headD []) else s.stall := by
  simp only [State.bringUp, hgo, hstage, Bool.false_eq_true, if_false]

/-- Only an accepted image clears READY. -/
theorem ready_bringUp_of_stage_one {s : State} {images mods} (hgo : s.plat.stalled = false) (hstage : s.plat.stage = 1) :
    (s.bringUp images mods).plat.ready = (!State.acceptsImage 0 (images.headD []) && s.plat.ready) := by
  rw [bringUp_of_stage_one hgo hstage]
  cases State.acceptsImage 0 (images.headD []) <;> rfl

/-- A package in the first stage of bring-up whose READY reads 1. -/
def readyAtStageOne : State := { State.reset with plat := { State.reset.plat with stage := 1, ready := true } }

/-- Refutes O51: its clause for stage 1 says that READY reads 0 after the step whether or not the image is accepted, over every
state; a refused image stalls bring-up and leaves READY as it was (`ready_bringUp_of_stage_one`). The state is
`readyAtStageOne`, the image the empty one. No reset leaves READY 1 at stage 1, so what the clause lacks is the premise that
READY reads 0. -/
theorem not_registerAndPlatformEvents : ¬ Obligations.RegisterAndPlatformEvents := by
  unfold Obligations.RegisterAndPlatformEvents
  intro h
  obtain ⟨-, -, -, -, -, -, -, -, -, -, -, -, -, -, -, -, -, -, -, -, -, hbringUp, -⟩ := h readyAtStageOne 0 (by decide)
  obtain ⟨-, -, hstageOne, -⟩ := hbringUp [] []
  obtain ⟨t, hstep, hready, -⟩ := hstageOne ⟨rfl, rfl⟩
  have hrefused : State.acceptsImage 0 ([].headD []) = false := acceptsImage_eq_false_of_length_lt (by decide)
  have hkept : (readyAtStageOne.bringUp [] []).plat.ready = true := by
    rw [ready_bringUp_of_stage_one rfl rfl, hrefused]; rfl
  have ht : readyAtStageOne.bringUp [] [] = t := Host.Outcome.next.inj hstep
  rw [← ht, hkept] at hready
  cases hready

end Sys2Proof.Machine
end

section
/-! O58: a step is its mover's (R17). First what striking lanes leaves parked (R43, R365), then the issue of an instruction up to
its execution (R34, R54, R57, R363), then the ports and the sequencers (R21, R292), and the step that they make up. -/
namespace Sys2Proof.Machine

open Terms Tab Bits State

-- parking (R43, R364, R365)

/-- What an update leaves of the core that it changes, it leaves of every core. -/
theorem core_modCore_keeps {α : Type} (g : Core → α) (s : State) (u v : UnitId) (f : Core → Core) (hf : ∀ c, g (f c) = g c) :
    g ((s.modCore u f).core v) = g (s.core v) := by
  by_cases e : unitNo v = unitNo u
  · have hcore : ∀ t : State, t.core v = t.core u := fun t => by simp only [State.core, e]
    rw [hcore, hcore, State.core_modCore, hf]
  · rw [State.core_modCore_ne _ _ e]

theorem warp_modCore_of_warps (s : State) (u v : UnitId) (n : Nat) (f : Core → Core) (hf : ∀ c, (f c).warps = c.warps) :
    (s.modCore u f).warp v n = s.warp v n :=
  core_modCore_keeps (fun c => c.warps.get n) s u v f fun c => by rw [hf]

theorem warp_modWarp {s : State} {u : UnitId} {n : Nat} {w : Warp} (hw : s.warp u n = some w) (f : Warp → Warp) :
    (s.modWarp u n f).warp u n = some (f w) := by
  rw [s.modWarp_eq hw, State.warp_setWarp]

theorem warp_parkLanes {s : State} {u : UnitId} {slot : Nat} {w : Warp} (hw : s.warp u slot = some w)
    {ps : List Machine.Parked} (hps : ps ≠ []) : (s.parkLanes u slot ps).warp u slot = some (w.park ps) := by
  cases ps with
  | nil => exact absurd rfl hps
  | cons p r =>
    rw [State.parkLanes, warp_modCore_of_warps, warp_modWarp hw]
    exact fun _ => rfl

@[simp] theorem cur_parkLanes (s : State) (u : UnitId) (slot : Nat) (ps : List Machine.Parked) :
    (s.parkLanes u slot ps).cur = s.cur := by
  cases ps <;> rfl

/-- Where each lane of a set has one strike, that strike ranks first in its lane. -/
theorem mem_rankStrikes_lanes {m : Lanes} {f : Nat → Strike} (hf : ∀ l, (f l).lane = l) {l : Nat} (hl : l ∈ lanes m) :
    f l ∈ rankStrikes ((lanes m).map f) := by
  have hlane : (fun x : Strike => x.lane == l) ∘ f = (· == l) := by funext j; simp [hf]
  refine List.mem_filterMap.2 ⟨l, List.mem_range.2 (mem_lanes.1 hl).1, ?_⟩
  rw [List.filter_map, hlane, List.filter_beq, (lanes_nodup m).count, if_pos hl]
  rfl

/-- The causes that are raised outside an instruction are no encoding causes. -/
theorem outside_not_encoding : ∀ c ≤ 0x1F, outside c = false := by decide

/-- INFO of a fault record is that of its strike at the instruction's word. -/
theorem info_mkRec (s : State) (u : UnitId) (w : Warp) (x : Strike) (pc word lit : Dword) (j : Option Nat) :
    (s.mkRec u w x pc word lit j).info = strikeInfo x word := by
  unfold State.mkRec
  cases h : outside x.cause with
  | false => rfl
  | true =>
    have hc : ¬ (1 ≤ x.cause ∧ x.cause ≤ 0x1F) := fun hc => by simp [outside_not_encoding _ hc.2] at h
    simp [strikeInfo, hc]

theorem pc_mkRec (s : State) (u : UnitId) (w : Warp) (x : Strike) (pc word lit : Dword) (j : Option Nat) :
    (s.mkRec u w x pc word lit j).pc = pc := by
  unfold State.mkRec; cases outside x.cause <;> rfl

theorem cause_mkRec (s : State) (u : UnitId) (w : Warp) (x : Strike) (pc word lit : Dword) (j : Option Nat) :
    (s.mkRec u w x pc word lit j).cause = BitVec.ofNat 8 x.cause := by
  unfold State.mkRec; cases outside x.cause <;> rfl

/-- The lane that a strike at the issuing instruction parks, with its record (R365). -/
def parkedBy (s : State) (x : Strike) : Machine.Parked :=
  ⟨x.lane, s.mkRec s.cur.unit s.curW x s.curP.pc s.cur.word (if s.cur.len = 16 then s.cur.lit else 0) s.curP.j⟩

/-- Outside the trap slot a strike that ranks first in its lane parks the lane at the issuing path's address. -/
theorem parked_raise {s : State} {w : Warp} (hw : Issuing s w) (ht : s.cur.slot ≠ trapSlot) {xs : List Strike} {x : Strike}
    (hx : x ∈ rankStrikes xs) :
    Terms.Parked (s.raise xs) s.cur.unit s.cur.slot x.lane x.cause s.curP.pc (strikeInfo x s.cur.word) := by
  have htrap : s.inTrap = false := by simp [inTrap, ht]
  unfold State.raise
  split
  next e => rw [e] at hx; cases hx
  next y r e =>
    rw [e] at hx
    simp only [htrap, Bool.false_eq_true, if_false]
    have hpark := warp_parkLanes hw (ps := (y :: r).map (parkedBy s)) (by simp)
    simp only [modCur, cur_parkLanes]
    exact ⟨_, warp_modWarp hpark _, parkedBy s x, List.mem_append_right _ (List.mem_map_of_mem hx), rfl, cause_mkRec ..,
      pc_mkRec .., info_mkRec ..⟩

/-- One cause for a set of lanes, with INFO from the word, parks each of them. -/
theorem parked_raiseAll_wordInfo {s : State} {w : Warp} (hw : Issuing s w) (ht : s.cur.slot ≠ trapSlot) {m : Lanes} (c : Nat)
    {l : Nat} (hl : m.getLsbD l = true) :
    Terms.Parked (s.raiseAll m c (wordInfo s.cur.word)) s.cur.unit s.cur.slot l c s.curP.pc (wordInfo s.cur.word) := by
  have hmem := mem_rankStrikes_lanes (m := m) (f := fun l => ⟨l, c, wordInfo s.cur.word, 0⟩) (fun _ => rfl)
    (mem_lanes.2 ⟨BitVec.lt_of_getLsbD hl, hl⟩)
  have hinfo : strikeInfo ⟨l, c, wordInfo s.cur.word, 0⟩ s.cur.word = wordInfo s.cur.word := ite_self _
  have hpark := parked_raise hw ht hmem
  rw [hinfo] at hpark
  exact hpark

-- counting an issue (R21, R34, R382)

@[simp] theorem cur_countIssue (s : State) (forced : Bool) : (s.countIssue forced).cur = s.cur := rfl

/-- The paths of a warp as an issue of the path of lane k leaves them: its own age is 0, the others are older by one. -/
def agedPath (k : Nat) (p : Path) : Path := if p.mask.getLsbD k then { p with age := 0 } else { p with age := p.age + 1 }

@[simp] theorem mask_agedPath (k : Nat) (p : Path) : (agedPath k p).mask = p.mask := by unfold agedPath; split <;> rfl
@[simp] theorem pc_agedPath (k : Nat) (p : Path) : (agedPath k p).pc = p.pc := by unfold agedPath; split <;> rfl

theorem issuing_countIssue {s : State} {w : Warp} (hw : Issuing s w) (forced : Bool) :
    Issuing (s.countIssue forced)
      { w with wdcnt := if forced then 1 else w.wdcnt + 1, paths := w.paths.map (agedPath s.cur.path) } := by
  unfold Issuing State.countIssue
  refine Eq.trans (warp_modCore_of_warps _ _ _ _ _ ?_) (warp_modWarp hw _)
  exact fun _ => rfl

theorem pathOf_agedPaths (w : Warp) (n k l : Nat) :
    ({ w with wdcnt := n, paths := w.paths.map (agedPath k) } : Warp).pathOf l = (w.pathOf l).map (agedPath k) := by
  have hmask : (fun p : Path => p.mask.getLsbD l) ∘ agedPath k = fun p => p.mask.getLsbD l := by
    funext p; simp
  simp only [Warp.pathOf, List.find?_map, hmask]

theorem pc_curP_countIssue {s : State} {w : Warp} (hw : Issuing s w) {p : Path} (hp : w.pathOf s.cur.path = some p)
    (forced : Bool) : (s.countIssue forced).curP.pc = p.pc := by
  rw [curP_eq (issuing_countIssue hw forced), cur_countIssue, pathOf_agedPaths, hp]
  exact pc_agedPath _ _

-- the word causes (R363, R372) rest on the team and on GNG of the warp

theorem wordCauses_congr {s t : State} {u : UnitId} {slot : Nat} {w x : Warp} (hteams : (t.core u).teams = (s.core u).teams)
    (hs : s.warp u slot = some w) (ht : t.warp u slot = some x) (hteam : x.team = w.team) (hgng : x.gng = w.gng) (gran : Nat)
    (d : Decoded) : t.wordCauses u slot gran d = s.wordCauses u slot gran d := by
  have htiles : t.slotTiles u slot = s.slotTiles u slot := by
    simp only [slotTiles, team?, hs, ht, Option.bind_some, hteam, hteams]
  simp only [wordCauses, comboCauses, htiles, hs, ht, hgng]

theorem teams_modWarp (s : State) (u v : UnitId) (n : Nat) (f : Warp → Warp) :
    ((s.modWarp v n f).core u).teams = (s.core u).teams :=
  core_modCore_keeps Core.teams s v u _ fun _ => rfl

-- from the chosen path to its word (R34, R54, R57)

/-- The issue as `prep` opens it: the path runs, and the issue names it with its word. -/
def issueOn (s : State) (u : UnitId) (slot : Nat) (p : Path) (wd lit : Dword) : State :=
  { s.modWarp u slot fun w => { w with run := Warp.laneKey p.mask, stalled := false } with
    cur := ⟨u, slot, Warp.laneKey p.mask, (decodeWord wd lit).len, wd, lit, [], []⟩ }

/-- The issue as `prepWord` takes it to the checks of an instruction that R166 does not gate: producers that are in place are
dropped, and without the checking scoreboard the hazards that remain are noted (R58, R59). -/
def entering (s : State) (u : UnitId) (h : Head) : State :=
  let t := s.modCur fun w => w.pruned (s.cycles u) (s.clockRate u) h.wtm
  if (s.ctxDesc s.curCtx).cfg.getLsbD 0 then t
  else { t with cur := { t.cur with hz := hazardVals t.curW s.curP.mask, hw := hazardRegs t.curW s.curP.mask } }

theorem entering_eq (s : State) (u : UnitId) (h : Head) : ∃ hz hw, entering s u h =
    { s.modCur fun w => w.pruned (s.cycles u) (s.clockRate u) h.wtm with cur := { s.cur with hz := hz, hw := hw } } := by
  unfold entering
  split
  · exact ⟨s.cur.hz, s.cur.hw, rfl⟩
  · exact ⟨_, _, rfl⟩

theorem word_entering (s : State) (u : UnitId) (h : Head) : (entering s u h).cur.word = s.cur.word := by
  obtain ⟨_, _, e⟩ := entering_eq s u h
  rw [e]

/-- A state stands at the word of a path: the issue names both, memory and the word causes are those of the state before, and the
warp keeps its paths and registers' granules. -/
structure AtWord (s t : State) (u : UnitId) (slot : Nat) (w : Warp) (p : Path) (wd lit : Dword) : Prop where
  unit_eq : t.cur.unit = u
  slot_eq : t.cur.slot = slot
  path_eq : t.cur.path = Warp.laneKey p.mask
  word_eq : t.cur.word = wd
  len_eq : t.cur.len = (decodeWord wd lit).len
  mem_eq : t.mem = s.mem
  warp : ∃ x, Issuing t x ∧ x.paths = w.paths ∧ x.gran = w.gran
  causes : ∀ gran d, t.wordCauses u slot gran d = s.wordCauses u slot gran d

theorem atWord_entering_issueOn {s : State} {u : UnitId} {slot : Nat} {w : Warp} (hw : s.warp u slot = some w) (p : Path)
    (wd lit : Dword) (h : Head) : AtWord s (entering (issueOn s u slot p wd lit) u h) u slot w p wd lit := by
  obtain ⟨hz, hwr, e⟩ := entering_eq (issueOn s u slot p wd lit) u h
  rw [e]
  have hrun := warp_modWarp hw fun w => { w with run := Warp.laneKey p.mask, stalled := false }
  have hpruned := warp_modWarp (s := issueOn s u slot p wd lit) hrun fun w => w.pruned
    ((issueOn s u slot p wd lit).cycles u) ((issueOn s u slot p wd lit).clockRate u) h.wtm
  exact {
    unit_eq := rfl, slot_eq := rfl, path_eq := rfl, word_eq := rfl, len_eq := rfl, mem_eq := rfl
    warp := ⟨_, hpruned, rfl, rfl⟩
    causes := wordCauses_congr ((teams_modWarp _ u _ _ _).trans (teams_modWarp s u _ _ _)) hw
      (x := Warp.pruned _ _ _ _) hpruned rfl rfl }

theorem AtWord.curP {s t : State} {u : UnitId} {slot : Nat} {w : Warp} {p : Path} {wd lit : Dword}
    (ht : AtWord s t u slot w p wd lit) (hp : w.pathOf (Warp.laneKey p.mask) = some p) : t.curP = p := by
  obtain ⟨x, hx, hpaths, -⟩ := ht.warp
  have hpath : x.pathOf (Warp.laneKey p.mask) = w.pathOf (Warp.laneKey p.mask) := by simp only [Warp.pathOf, hpaths]
  rw [curP_eq hx, ht.path_eq, hpath, hp, Option.getD_some]

theorem AtWord.gran {s t : State} {u : UnitId} {slot : Nat} {w : Warp} {p : Path} {wd lit : Dword}
    (ht : AtWord s t u slot w p wd lit) : t.curW.gran = w.gran := by
  obtain ⟨x, hx, -, hgran⟩ := ht.warp
  rw [put_self_cur hx, hgran]

-- congestion admission leaves the issue and memory alone (R266)

theorem admission_frame (s : State) (u : UnitId) (slot : Nat) (i : Instr) :
    (s.admission u slot i).2.cur = s.cur ∧ (s.admission u slot i).2.mem = s.mem := by
  unfold admission
  split
  · exact ⟨rfl, rfl⟩
  · split
    · exact ⟨rfl, rfl⟩
    · dsimp only
      split <;> exact ⟨rfl, rfl⟩

-- the checks of a word (R363)

/-- An instruction goes on to its execution only where no word cause holds; the issue is then counted after all the checks. -/
theorem prepWord_run {s : State} {u : UnitId} {slot : Nat} {byAge forced : Bool} {d : Decoded} {h : Head} {i : Instr} {h' : Head}
    {byAge' : Bool} {b a : State} (e : s.prepWord u slot byAge forced d h = .run i h' byAge' b a) :
    i = d.instr ∧ h' = h ∧ byAge' = byAge ∧ a = b.countIssue forced ∧
      ∃ t, (gated s.cur.word = false → t = entering s u h) ∧
        Cause.first (t.wordCauses u slot t.curW.gran d) = none ∧ b = (t.admission u slot d.instr).2 := by
  unfold prepWord at e
  extract_lets i' chk m s1 s0 s2 s3 w p stop at e
  have hgate : gated s.cur.word = false → s3 = entering s u h := by
    intro hg
    have hword : s2.cur.word = s.cur.word := word_entering s u h
    exact if_neg (by rw [hword, hg]; exact Bool.false_ne_true)
  clear_value s3
  split at e
  · cases e
  · split at e
    · cases e
    next hc =>
      split at e
      · cases e
      · split at e
        · cases e
        · dsimp only at e
          split at e
          · cases e
          · obtain ⟨hi, hh, hb, hbefore, ha⟩ := Prep.run.inj e
            subst hbefore
            exact ⟨hi.symm, hh.symm, hb.symm, ha.symm, s3, hgate, hc, rfl⟩

/-- A word cause that ranks first strikes the whole path, and the issue is counted. -/
theorem prepWord_of_cause {s : State} {u : UnitId} {slot : Nat} (byAge forced : Bool) {d : Decoded} {h : Head} {c : Nat}
    (hg : gated s.cur.word = false) (hm : (entering s u h).curP.mask ≠ 0)
    (hc : Cause.first ((entering s u h).wordCauses u slot (entering s u h).curW.gran d) = some c) :
    s.prepWord u slot byAge forced d h = .stop (((entering s u h).countIssue forced).raiseAll (entering s u h).curP.mask c
      (wordInfo (entering s u h).cur.word)) := by
  unfold prepWord
  extract_lets i' chk m s1 s0 s2 s3 w p stop
  have hword : s2.cur.word = s.cur.word := word_entering s u h
  have hs3 : s3 = entering s u h := if_neg (by rw [hword, hg]; exact Bool.false_ne_true)
  clear_value s3
  subst hs3
  rw [if_neg hm]
  split
  next x e =>
    cases hc.symm.trans e
    rfl
  next e => cases hc.symm.trans e

-- the issue of a slot (R34, R54, R57)

/-- What an instruction that goes on to its execution has passed: its slot's warp chose the path, the word was fetched and decoded,
its tokens were zero, and its checks found nothing. -/
theorem prep_run {s : State} {u : UnitId} {slot : Nat} {i : Instr} {h : Head} {byAge : Bool} {b a : State}
    (e : s.prep u slot = .run i h byAge b a) : ∃ w p wd lit h' byAge', s.warp u slot = some w ∧ w.choose = some (p, byAge') ∧
      s.fetch u slot p.pc = .ok (wd, lit) ∧ (decodeWord wd lit).instr.head = some h' ∧ w.tokensZero h'.wtm = true ∧
      (issueOn s u slot p wd lit).prepWord u slot byAge' (w.forced (Warp.laneKey p.mask)) (decodeWord wd lit) h' =
        .run i h byAge b a := by
  unfold prep at e
  split at e
  · cases e
  · split at e
    · cases e
    next w hw =>
      split at e
      · cases e
      next p byAge' hchoose =>
        extract_lets k forced start at e
        split at e
        · split at e <;> cases e
        · split at e
          · cases e
          · split at e
            · cases e
            next wd lit hfetch =>
              extract_lets d at e
              split at e
              · cases e
              next h' hhead =>
                extract_lets full at e
                split at e
                · cases e
                next hready =>
                  have htok : w.tokensZero h'.wtm = true := by
                    cases ht : w.tokensZero h'.wtm with
                    | true => rfl
                    | false => exact absurd (Or.inl (by rw [ht]; rfl)) hready
                  exact ⟨w, p, wd, lit, h', byAge', hw, hchoose, hfetch, hhead, htok, e⟩

/-- An instruction with a word cause is taken to its checks as soon as its tokens are zero. -/
theorem prep_of_cause {s : State} {u : UnitId} {slot : Nat} {w : Warp} {p : Path} {byAge : Bool} {wd lit : Dword} {h : Head}
    {c : Nat} (hmay : s.mayIssue u slot = true) (hw : s.warp u slot = some w) (hchoose : w.choose = some (p, byAge))
    (hpark : p.mask &&& w.parkReq = 0) (hdue : w.due = []) (hfetch : s.fetch u slot p.pc = .ok (wd, lit))
    (hhead : (decodeWord wd lit).instr.head = some h) (htok : w.tokensZero h.wtm = true)
    (hc : Cause.first (s.wordCauses u slot w.gran (decodeWord wd lit)) = some c) :
    s.prep u slot =
      (issueOn s u slot p wd lit).prepWord u slot byAge (w.forced (Warp.laneKey p.mask)) (decodeWord wd lit) h := by
  have hcauses : (s.wordCauses u slot w.gran (decodeWord wd lit) == []) = false := by
    cases hx : s.wordCauses u slot w.gran (decodeWord wd lit) with
    | nil => rw [hx] at hc; cases hc
    | cons => rfl
  unfold prep
  simp only [hmay, hw, hchoose, hpark, hdue, hfetch, hhead, htok, hcauses, Bool.not_true, Bool.false_eq_true, if_false,
    ne_eq, not_true_eq_false, List.any_nil, Bool.false_and, or_self]
  rfl

-- the causes of a word, in the order of their tables

theorem eq_nil_of_first_eq_none {cs : List Nat} (h : Cause.first cs = none) : cs = [] := by
  cases cs with
  | nil => rfl
  | cons c cs =>
    unfold Cause.first at h
    split at h
    · cases h
    · split at h <;> cases h

theorem wordCauses_eq_nil {s : State} {u : UnitId} {slot gran : Nat} {d : Decoded}
    (h : s.wordCauses u slot gran d = []) :
    d.causes = [] ∧ d.instr.kindCauses u.kind = [] ∧ d.instr.heldCauses gran = [] := by
  simp only [wordCauses, List.append_eq_nil_iff] at h
  obtain ⟨⟨⟨hd, hk⟩, hh⟩, -⟩ := h
  exact ⟨hd, hk, hh⟩

/-- What an executed instruction has passed, and the state it executes on where R166 does not gate it. -/
theorem prep_run_spec {s : State} {u : UnitId} {slot : Nat} {i : Instr} {h : Head} {byAge : Bool} {b a : State}
    (e : s.prep u slot = .run i h byAge b a) : ∃ w p wd lit, s.warp u slot = some w ∧
      w.choose = some (p, byAge) ∧ s.fetch u slot p.pc = .ok (wd, lit) ∧ (decodeWord wd lit).instr = i ∧
      (decodeWord wd lit).causes = [] ∧ i.kindCauses u.kind = [] ∧ i.head = some h ∧ w.tokensZero h.wtm = true ∧
      (∃ forced, a = b.countIssue forced) ∧
      (State.gated wd = false → i.heldCauses w.gran = [] ∧ b.cur.unit = u ∧ b.cur.slot = slot ∧
        b.cur.path = Warp.laneKey p.mask ∧ b.cur.word = wd ∧ b.cur.len = (decodeWord wd lit).len ∧ b.mem = s.mem) := by
  obtain ⟨w, p, wd, lit, _, _, hw, hchoose, hfetch, hhead, htok, hword⟩ := prep_run e
  obtain ⟨rfl, rfl, rfl, rfl, t, hentering, hnone, rfl⟩ := prepWord_run hword
  obtain ⟨hd, hk, hheld⟩ := wordCauses_eq_nil (eq_nil_of_first_eq_none hnone)
  refine ⟨w, p, wd, lit, hw, hchoose, hfetch, rfl, hd, hk, hhead, htok, ⟨_, rfl⟩, fun hg => ?_⟩
  have ht : AtWord s t u slot w p wd lit := hentering hg ▸ atWord_entering_issueOn hw p wd lit h
  obtain ⟨hcur, hmem⟩ := admission_frame t u slot (decodeWord wd lit).instr
  rw [hcur, hmem]
  exact ⟨ht.gran ▸ hheld, ht.unit_eq, ht.slot_eq, ht.path_eq, ht.word_eq, ht.len_eq, ht.mem_eq⟩

/-- A path is named by a lane of it. -/
theorem mask_ne_zero_of_pathOf {w : Warp} {l : Nat} {p : Path} (hp : w.pathOf l = some p) : p.mask ≠ 0 := by
  intro h0
  have hl : p.mask.getLsbD l = true := List.find?_some (p := fun q : Path => q.mask.getLsbD l) hp
  rw [h0] at hl
  simp at hl

/-- A word that breaks a rule parks its path for the cause that ranks first (R363, R364). -/
theorem prep_parks_of_cause {s : State} {u : UnitId} {slot : Nat} {w : Warp} {p : Path} {byAge : Bool} {wd lit : Dword}
    {h : Head} {c : Nat} (hmay : s.mayIssue u slot = true) (hw : s.warp u slot = some w)
    (hchoose : w.choose = some (p, byAge)) (hpath : w.pathOf (Warp.laneKey p.mask) = some p)
    (hpark : p.mask &&& w.parkReq = 0) (hdue : w.due = []) (hfetch : s.fetch u slot p.pc = .ok (wd, lit))
    (hhead : (decodeWord wd lit).instr.head = some h) (htok : w.tokensZero h.wtm = true) (hslot : slot ≠ trapSlot)
    (hg : gated wd = false) (hc : Cause.first (s.wordCauses u slot w.gran (decodeWord wd lit)) = some c) :
    ∃ t, s.prep u slot = .stop t ∧ ∀ l, p.mask.getLsbD l = true → Terms.Parked t u slot l c p.pc (wordInfo wd) := by
  have ht := atWord_entering_issueOn hw p wd lit h
  have hcurP := ht.curP hpath
  have hstop := prepWord_of_cause (s := issueOn s u slot p wd lit) (u := u) (slot := slot) byAge
    (w.forced (Warp.laneKey p.mask)) (d := decodeWord wd lit) (c := c) hg (hcurP ▸ mask_ne_zero_of_pathOf hpath)
    (by rw [ht.gran, ht.causes]; exact hc)
  refine ⟨_, (prep_of_cause hmay hw hchoose hpark hdue hfetch hhead htok hc).trans hstop, fun l hl => ?_⟩
  obtain ⟨x, hx, hpaths, -⟩ := ht.warp
  have hpathx : x.pathOf (entering (issueOn s u slot p wd lit) u h).cur.path = some p := by
    rw [ht.path_eq, ← hpath]; simp only [Warp.pathOf, hpaths]
  rw [hcurP]
  have hparked := parked_raiseAll_wordInfo (issuing_countIssue hx (w.forced (Warp.laneKey p.mask)))
    (by rw [cur_countIssue, ht.slot_eq]; exact hslot) (m := p.mask) c hl
  rw [cur_countIssue, ht.word_eq, ht.slot_eq, ht.unit_eq, pc_curP_countIssue hx hpathx] at hparked
  rw [ht.word_eq]
  exact hparked

-- ports and their turns (R21)

theorem portChoice_eq_some_iff {s : State} {u : UnitId} {port slot : Nat} :
    s.portChoice u port = some slot ↔ ∃ a b, s.portSlots u port = a ++ slot :: b ∧ s.slotReady u slot = true ∧
      ∀ x ∈ a, s.slotReady u x = false := by
  unfold portChoice
  rw [List.find?_eq_some_iff_append]
  constructor
  · rintro ⟨hr, a, b, e, hn⟩
    exact ⟨a, b, e, hr, fun x hx => by simpa using hn x hx⟩
  · rintro ⟨a, b, e, hr, hn⟩
    exact ⟨hr, a, b, e, fun x hx => by simp [hn x hx]⟩

/-- The 64 slots of a shader core, taken port by port in turn. -/
theorem turn_of_quadrant : ∀ port < 4, ∀ k < 16,
    (((List.range 64).filter fun i => i / 16 == port).filter fun i => decide (16 * port + k + 1 ≤ i)) ++
      (((List.range 64).filter fun i => i / 16 == port).filter fun i => decide (i < 16 * port + k + 1)) =
    (List.range 16).map fun j => 16 * port + (k + 1 + j) % 16 := by
  decide

/-- The slots of a quadrant of a shader core in turn, from the one after slot 16 * port + k, which issued last. -/
theorem portSlots_of_quadrant {s : State} {u : UnitId} {port k : Nat} (hu : u.kind = .sc) (hport : port < 4) (hk : k < 16)
    (hturn : (s.core u).turn.get port = 16 * port + k + 1) :
    s.portSlots u port = (List.range 16).map fun j => 16 * port + (k + 1 + j) % 16 := by
  have hslots : ((List.range 64).filter fun i => issuePort u i == port) = (List.range 64).filter fun i => i / 16 == port := by
    refine List.filter_congr fun i hi => ?_
    have hi : i ≠ trapSlot := Nat.ne_of_lt (List.mem_range.1 hi)
    simp only [issuePort, if_neg hi, hu]
  have hcount : slotCount u.kind = 64 := by rw [hu]; rfl
  simp only [portSlots, if_neg (Nat.ne_of_lt hport), hcount, hslots, hturn]
  exact turn_of_quadrant port hport k hk

/-- The port issues from the slot that it chooses, if it chooses one. -/
theorem portStep_of_none {s : State} {u : UnitId} {port : Nat} (h : s.portChoice u port = none) :
    portStep s u port = .next s := by
  rw [portStep, h]

theorem portStep_of_some {s : State} {u : UnitId} {port slot : Nat} (h : s.portChoice u port = some slot) :
    portStep s u port = issueStep s u slot := by
  rw [portStep, h]

-- the outcome of an issue

theorem issueStep_of_stop {s t : State} {u : UnitId} {slot : Nat} (h : s.prep u slot = .stop t) :
    issueStep s u slot = .next t := by
  rw [issueStep, h]

/-- An instruction that is blocked counts no issue. -/
theorem issueStep_of_blocked {s b a t : State} {u : UnitId} {slot : Nat} {i : Instr} {h : Head} {byAge : Bool}
    (hp : s.prep u slot = .run i h byAge b a) (hb : exec i b = .next t) (ht : t.isBlocked = true) :
    issueStep s u slot = .next t := by
  simp only [issueStep, hp, hb, ht, if_true]

theorem issueStep_of_not_blocked {s b a t t' : State} {u : UnitId} {slot : Nat} {i : Instr} {h : Head} {byAge : Bool}
    (hp : s.prep u slot = .run i h byAge b a) (hb : exec i b = .next t) (ht : t.isBlocked = false)
    (ha : exec i a = .next t') : issueStep s u slot = .next (State.finish b t' i h byAge) := by
  simp only [issueStep, hp, hb, ht, ha, Bool.false_eq_true, if_false]

-- sequencers (R292)

theorem microReady_of_microChoice {s : State} {u : UnitId} {g : GUnit} {slot : Nat} (h : s.microChoice u g = some slot) :
    s.microReady u g slot = true := List.find?_some h

/-- Without soft errors no microword of a control store is bad. -/
theorem csBad_of_bad_nil {s : State} (h : s.bad = []) (u : UnitId) (g : GUnit) (pc : Nat) : s.csBad u g pc = false := by
  simp only [csBad, badIn, h, if_true, Option.isSome_none]

/-- The state in which a sequencer's slot executes: its turn is counted, and it is the slot that issues. -/
def issuingSlot (s : State) (u : UnitId) (g : GUnit) (slot : Nat) : State :=
  { s.modCore u fun c => { c with gturn := c.gturn.set g.code (slot + 1) } with mcur := ⟨u, g, slot⟩ }

theorem microPrep_of_decoded {s : State} {u : UnitId} {g : GUnit} {slot : Nat} {x : GSlot} {i : Instr}
    (hslot : s.gslot u g slot = some x) (hready : s.microReady u g slot = true) (hbad : s.bad = [])
    (hpc : x.pc < (((issuingSlot s u g slot).core u).cstores.get g.code).n)
    (hword : decodeMicro ((((issuingSlot s u g slot).core u).cstores.get g.code).words.get x.pc) = some i) :
    s.microPrep u g slot = .ok (i, issuingSlot s u g slot) := by
  have hcs : (issuingSlot s u g slot).csBad u g x.pc = false := csBad_of_bad_nil hbad u g x.pc
  unfold issuingSlot at *
  simp only [microPrep, hslot, hready, Bool.not_true, Bool.false_eq_true, if_false, if_neg (Nat.not_le_of_lt hpc), hcs, hword]

/-- A sequencer executes the microword at the address of the slot that it chooses. -/
theorem sequencerStep_of_decoded {s : State} {u : UnitId} {g : GUnit} {slot : Nat} {x : GSlot} {i : Instr}
    (hchoice : s.microChoice u g = some slot) (hslot : s.gslot u g slot = some x) (hbad : s.bad = [])
    (hpc : x.pc < (((issuingSlot s u g slot).core u).cstores.get g.code).n)
    (hword : decodeMicro ((((issuingSlot s u g slot).core u).cstores.get g.code).words.get x.pc) = some i) :
    sequencerStep s u g = exec i (issuingSlot s u g slot) := by
  simp only [sequencerStep, hchoice, microStep,
    microPrep_of_decoded hslot (microReady_of_microChoice hchoice) hbad hpc hword]

theorem sequencerStep_of_none {s : State} {u : UnitId} {g : GUnit} (h : s.microChoice u g = none) :
    sequencerStep s u g = .next s := by
  rw [sequencerStep, h]

-- the next mover of the agenda (R17, R429)

theorem step_of_agenda_cons {s : State} {x : Action} {r : List Action} (hoff : s.plat.off = false) (h : s.agenda = x :: r) :
    step s = act { s with agenda := r } x := by
  simp only [step, hoff, Bool.false_eq_true, if_false, h]

theorem step_of_agenda_nil {s : State} (hoff : s.plat.off = false) (h : s.agenda = []) :
    step s = portStep s s.cur.unit (issuePort s.cur.unit s.cur.slot) := by
  simp only [step, hoff, Bool.false_eq_true, if_false, h]

theorem step_of_off_coldReset {s : State} {r : List Action} (hoff : s.plat.off = true) (h : s.agenda = .event .coldReset :: r) :
    step s = exec .coldReset { s with agenda := r } := by
  simp only [step, hoff, if_true, h]

/-- A package that is powered off waits for a cold reset. -/
theorem step_of_off {s : State} (hoff : s.plat.off = true) (h : ∀ r, s.agenda ≠ .event .coldReset :: r) :
    step s = .fault .poweredOff := by
  unfold step
  rw [if_pos hoff]
  split
  next r e => exact absurd e (h r)
  next => rfl

/-- Settles O58, by the lemmas of each mover: the port's choice, the checks of a word (`prep_run_spec`, `prep_parks_of_cause`), the
outcome of an issue, the sequencer, the event and the package that is powered off. -/
theorem stepRunsTheInstruction : Obligations.StepRunsTheInstruction := by
  unfold Obligations.StepRunsTheInstruction
  refine ⟨?_, ?_, ?_, ?_, ?_, ?_⟩
  · intro s u port hoff runs serves
    have hserves : ∀ s', serves s' (portStep s' u port) := by
      intro s'
      refine ⟨portStep_of_none, fun slot hslot => ?_⟩
      rw [portStep_of_some hslot]
      exact ⟨fun i h byAge b a hp => ⟨fun t hb ht => issueStep_of_blocked hp hb ht,
        fun t t' hb ht ha => issueStep_of_not_blocked hp hb ht ha⟩, fun t => issueStep_of_stop⟩
    refine ⟨fun r hr => ?_, fun hnil hu hport => ?_⟩
    · rw [step_of_agenda_cons hoff hr]
      exact hserves _
    · rw [step_of_agenda_nil hoff hnil, hu, hport]
      exact hserves s
  · exact fun s u port slot => ⟨portChoice_eq_some_iff, fun hu hport k hk => portSlots_of_quadrant hu hport hk⟩
  · intro s u slot
    refine ⟨fun i h byAge b a => prep_run_spec, ?_⟩
    intro w p byAge wd lit h c hmay hw hchoose hpath hpark hdue hfetch d hhead htok hslot hg hc
    exact prep_parks_of_cause hmay hw hchoose hpath hpark hdue hfetch hhead htok hslot hg hc
  · intro s u g r hoff hr s'
    rw [step_of_agenda_cons hoff hr]
    exact ⟨sequencerStep_of_none, fun slot x i hchoice hslot hbad => sequencerStep_of_decoded hchoice hslot hbad⟩
  · intro s e r hoff hr
    rw [step_of_agenda_cons hoff hr]
    exact ⟨fun he => if_pos he, fun he => if_neg (by rw [he]; exact Bool.false_ne_true)⟩
  · exact fun s hoff => ⟨fun r hr => step_of_off_coldReset hoff hr, step_of_off hoff⟩

end Sys2Proof.Machine
end

section
/-! O12: the results of a complete group (R93, R94, R126 to R128). First the tree of REDUX and the rounds of SCAN on values
given by their numbers, then what each form of collective writes. -/
namespace Sys2Proof.Machine

open Terms Bits

-- the tree of REDUX (R93)

/-- The round at distance 1. -/
theorem redPairs_map_range (f : Word → Word → Word) (x : Nat → Word) (n : Nat) :
    redPairs f ((List.range (2 * n)).map x) = (List.range n).map fun i => f (x (2 * i)) (x (2 * i + 1)) := by
  induction n generalizing x with
  | zero => rfl
  | succ n ih =>
    have split2 : (List.range (2 * (n + 1))).map x = x 0 :: x 1 :: (List.range (2 * n)).map fun i => x (i + 2) := by
      simp [Nat.mul_succ, List.range_succ_eq_map, Function.comp_def]
    rw [split2, redPairs, ih, List.range_succ_eq_map, List.map_cons, List.map_map]
    rfl

/-- The tree over neighbours already combined is the tree one round deeper: combining from the leaves up and from the root
down agree. -/
theorem treeAt_pairs (f : Word → Word → Word) (x : Nat → Word) (k i : Nat) :
    treeAt f (fun j => f (x (2 * j)) (x (2 * j + 1))) k i = treeAt f x (k + 1) (2 * i) := by
  induction k generalizing i with
  | zero => rfl
  | succ k ih =>
    have right_half : 2 * (i + 2 ^ k) = 2 * i + 2 ^ (k + 1) := by
      rw [Nat.mul_add, Nat.pow_succ']
    rw [treeAt, ih, ih, right_half]
    rfl

/-- Rounds past the last leave the one value that is left. -/
theorem redTree_singleton (f : Word → Word → Word) (n : Nat) (a : Word) : redTree f n [a] = [a] := by
  induction n with
  | zero => rfl
  | succ n ih => exact ih

theorem redTree_map_range (f : Word → Word → Word) (x : Nat → Word) {k n : Nat} (hk : k ≤ n) :
    redTree f n ((List.range (2 ^ k)).map x) = [treeAt f x k 0] := by
  induction k generalizing x n with
  | zero => exact redTree_singleton f n (x 0)
  | succ k ih =>
    obtain ⟨n, rfl⟩ : ∃ m, n = m + 1 := ⟨n - 1, by omega⟩
    rw [redTree, Nat.pow_succ', redPairs_map_range, ih _ (Nat.le_of_succ_le_succ hk), treeAt_pairs]

-- the rounds of SCAN (R94)

theorem scanRound_map_range (f : Word → Word → Word) (d : Nat) (y : Nat → Word) (n : Nat) :
    scanRound f d ((List.range n).map y) = (List.range n).map fun i => if i < d then y i else f (y (i - d)) (y i) := by
  refine List.ext_getElem (by simp [scanRound]) fun i h₁ h₂ => ?_
  have hi : i < n := by simpa using h₂
  have before : i - d < n := by omega
  simp [scanRound, before]

/-- After m of the rounds at distances 1, 2, 4 and on, those from the size of the group on left out. -/
theorem scanRounds_map_range (f : Word → Word → Word) (x : Nat → Word) (k m : Nat) :
    (List.range m).foldl (fun ys j => if 2 ^ j < 2 ^ k then scanRound f (2 ^ j) ys else ys) ((List.range (2 ^ k)).map x) =
      (List.range (2 ^ k)).map (scanAt f x (min m k)) := by
  induction m with
  | zero => rw [Nat.zero_min]; rfl
  | succ m ih =>
    rw [List.range_succ, List.foldl_append, ih, List.foldl_cons, List.foldl_nil]
    by_cases hm : m < k
    · rw [if_pos (Nat.pow_lt_pow_right (by decide) hm), scanRound_map_range, Nat.min_eq_left (Nat.le_of_lt hm), Nat.min_eq_left hm]
      rfl
    · rw [if_neg (mt (Nat.pow_lt_pow_iff_right (by decide)).1 hm), Nat.min_eq_right (by omega), Nat.min_eq_right (by omega)]

theorem scanAll_map_range (f : Word → Word → Word) (x : Nat → Word) {k : Nat} (hk : k ≤ 5) :
    scanAll f ((List.range (2 ^ k)).map x) = (List.range (2 ^ k)).map (scanAt f x k) := by
  have rounds := scanRounds_map_range f x k 5
  rw [Nat.min_eq_right hk] at rounds
  rw [← rounds, scanAll, List.length_map, List.length_range,
    show [1, 2, 4, 8, 16] = (List.range 5).map (2 ^ ·) from rfl, List.foldl_map]

-- votes, ballots and matches (R126, R128)

/-- The bit that a vote other than a ballot writes, of the bits that the contributing lanes bring (R126). -/
def voteBit (vm : VoteMode) (vs : List Bool) : Bool :=
  match vm with
  | .all => vs.all id
  | .any => vs.any id
  | _ => vs.all (fun x => x) || vs.all fun x => !x

/-- VOTE.eq: the bits are all 1 or all 0 when any two of them are equal. -/
theorem voteBit_eq_iff (vs : List Bool) : voteBit .eq vs = true ↔ ∀ a ∈ vs, ∀ b ∈ vs, a = b := by
  have unfolded : voteBit .eq vs = (vs.all (fun x => x) || vs.all fun x => !x) := rfl
  rw [unfolded, Bool.or_eq_true, List.all_eq_true, List.all_eq_true]
  constructor
  · rintro (ones | zeros) a ha b hb
    · rw [ones a ha, ones b hb]
    · rw [Bool.not_inj ((zeros a ha).trans (zeros b hb).symm)]
  · intro same
    by_cases one : true ∈ vs
    · exact .inl fun a ha => same a ha true one
    · refine .inr fun a ha => ?_
      cases a with
      | false => rfl
      | true => exact absurd ha one

/-- The lanes of a set for which p holds, as a set. -/
theorem getLsbD_laneSet_filter_lanes (m : Lanes) (p : Nat → Bool) (i : Nat) :
    (laneSet ((lanes m).filter p)).getLsbD i = (m.getLsbD i && p i) := by
  rw [getLsbD_laneSet _ fun l hl => (mem_lanes.1 (List.mem_filter.1 hl).1).1, Bool.eq_iff_iff, decide_eq_true_eq,
    List.mem_filter, mem_lanes, Bool.and_eq_true]
  exact ⟨fun h => ⟨h.1.2, h.2⟩, fun h => ⟨⟨BitVec.lt_of_getLsbD h.1, h.1⟩, h.2⟩⟩

namespace CollInst

variable {c : CollInst} {ph : Nat → Nat} {h : Head} {vm : VoteMode} {vd : BitVec 8} {pa : PReg} {op : RedOp} {d a : VReg}
  {g : GReg} {excl wide : Bool}

theorem results_vote (hc : c.instr = .vote h vm vd pa g) (hvm : vm ≠ .ballot) :
    c.results ph = (lanes c.contrib).map fun l => ⟨.p, vd.toNat, l,
      if voteBit vm ((lanes c.contrib).map fun l => (c.val l).getLsbD 0) then 1 else 0⟩ := by
  have ofNat_bit (b : Bool) : BitVec.ofNat 64 (ofBool b) = if b then 1 else 0 := by cases b <;> rfl
  simp only [results, hc, if_neg hvm, ofNat_bit]
  rfl

theorem results_ballot (hc : c.instr = .vote h .ballot vd pa g) :
    c.results ph = (lanes c.contrib).map fun l =>
      ⟨.v, ph vd.toNat, l, (laneSet ((lanes c.contrib).filter fun j => (c.val j).getLsbD 0)).setWidth 64⟩ := by
  simp only [results, hc, if_true]
  rfl

theorem results_matchV (hc : c.instr = .matchV h d a g wide) :
    c.results ph = (lanes c.contrib).map fun l =>
      ⟨.v, ph d.toNat, l, (laneSet ((lanes c.contrib).filter fun j => c.val j == c.val l)).setWidth 64⟩ := by
  simp only [results, hc]
  rfl

-- reductions and scans (R127)

/-- The value numbered i of the group: what its lane brought, or the identity (R93). -/
def groupVal (c : CollInst) (op : RedOp) (i : Nat) : Word :=
  if c.contrib.getLsbD (c.base + i) then (c.val (c.base + i)).setWidth 32 else redId op

theorem xs_eq_map_groupVal (c : CollInst) (op : RedOp) : c.xs op = (List.range c.size).map (c.groupVal op) := rfl

theorem results_redux {k : Nat} (hc : c.instr = .redux h op d a g) (hk : k ≤ 5) (hsize : c.size = 2 ^ k) :
    c.results ph = (lanes c.contrib).map fun l =>
      ⟨.v, ph d.toNat, l, (treeAt (redOp op) (c.groupVal op) k 0).setWidth 64⟩ := by
  simp only [results, hc, xs_eq_map_groupVal, hsize, redTree_map_range _ _ hk]
  rfl

/-- The results of SCAN over a group that holds every contributing lane. -/
theorem results_scan {k : Nat} (hc : c.instr = .scan h op d a g excl) (hk : k ≤ 5) (hsize : c.size = 2 ^ k)
    (hin : ∀ l ∈ lanes c.contrib, c.base ≤ l ∧ l < c.base + c.size) :
    c.results ph = (lanes c.contrib).map fun l => ⟨.v, ph d.toNat, l,
      (if excl then
        if l - c.base = 0 then redId op else scanAt (redOp op) (c.groupVal op) k (l - c.base - 1)
      else scanAt (redOp op) (c.groupVal op) k (l - c.base)).setWidth 64⟩ := by
  simp only [results, hc, xs_eq_map_groupVal, hsize, scanAll_map_range _ _ hk]
  refine List.map_congr_left fun l hl => ?_
  have inGroup : l - c.base < 2 ^ k := by
    have := hin l hl
    omega
  have before : l - c.base - 1 < 2 ^ k := by omega
  simp [inGroup, before]

end CollInst

/-- Settles O12, by the results of each form: the bit of a vote and the set of a ballot or a match by their members, REDUX and
SCAN by the tree and the rounds over the group's values. -/
theorem collectiveResults : Obligations.CollectiveResults := by
  unfold Obligations.CollectiveResults
  intro c ph h vm vd pa op d a g excl wide on bit
  refine ⟨fun hc hvm => ⟨voteBit vm (on.map bit), CollInst.results_vote hc hvm, ?_, ?_, ?_⟩,
    fun hc => ⟨laneSet (on.filter bit), CollInst.results_ballot hc, fun i _ => getLsbD_laneSet_filter_lanes _ _ i⟩,
    fun hc => ⟨fun l => laneSet (on.filter fun j => c.val j == c.val l), CollInst.results_matchV hc,
      fun l i _ => getLsbD_laneSet_filter_lanes _ _ i⟩,
    fun k hk hsize hin => ⟨fun hc => CollInst.results_redux hc hk hsize, fun hc => CollInst.results_scan hc hk hsize hin⟩⟩
  · rintro rfl
    simp [voteBit]
  · rintro rfl
    simp [voteBit]
  · rintro rfl
    simp only [voteBit_eq_iff, List.forall_mem_map]

end Sys2Proof.Machine
end

section
/-! The compute forms (R96 to R122): one rule for each shape of a result, then what each family's function of the operands is in
the words of its rule. -/
namespace Sys2Proof.Machine

open Terms

-- the shapes of a result: an instruction whose meaning is that of a shape, for values equal to the ones a rule names

section
variable {s : State} {w : Warp} {i : Instr} {h : Head} (hw : Issuing s w)
include hw

theorem lane32_of_exec {d : VReg} {f g : Nat → Word} (he : exec i s = .next (s.lane32 h d f)) (hfg : ∀ l, f l = g l) :
    Lane32 i s w h d g := by
  obtain ⟨w₁, e, rest⟩ := lane32_spec hw h d f
  obtain rfl : f = g := funext hfg
  exact ⟨w₁, he.trans (congrArg _ e), rest⟩

theorem laneW_of_exec {d : VReg} {wide : Bool} {f g : Nat → Dword} (he : exec i s = .next (s.laneW h d wide f))
    (hfg : ∀ l, f l = g l) : LaneW i s w h d wide g := by
  obtain ⟨w₁, e, rest⟩ := laneW_spec hw h d wide f
  obtain rfl : f = g := funext hfg
  cases wide <;> exact ⟨w₁, he.trans (congrArg _ e), rest⟩

theorem lane64_of_exec {d : VReg} {f g : Nat → Dword} (he : exec i s = .next (s.laneW h d true f)) (hfg : ∀ l, f l = g l) :
    Lane64 i s w h d g :=
  laneW_of_exec hw he hfg

theorem laneP_of_exec {d : PReg} {f g : Nat → Bool} (he : exec i s = .next (s.laneP h d f)) (hfg : ∀ l, f l = g l) :
    LaneP i s w h d g := by
  obtain ⟨w₁, e, rest⟩ := laneP_spec hw h d f
  obtain rfl : f = g := funext hfg
  exact ⟨w₁, he.trans (congrArg _ e), rest⟩

theorem uniform_of_exec {d : KReg} {f : Nat → Dword}
    (he : exec i s = .next (s.uniform h fun l => [State.kres d.toNat (f l)])) :
    Uniform i s w h d (f ((s.firstLane h).getD 0)) := by
  obtain ⟨w₁, e, rest⟩ := uniform_k_spec hw h d f
  exact ⟨w₁, he.trans (congrArg _ e), rest⟩

theorem flies_of_exec {f : Nat → List RegVal} {res : List RegVal} (he : exec i s = .next (s.perLaneVar h f))
    (hres : (Bits.lanes (s.execLanes h)).flatMap f = res) : Flies i s w h res := by
  have spec := perLaneVar_spec hw h f
  unfold Flies Passes
  subst hres
  split <;> rename_i none
  · rw [if_pos none] at spec
    exact ⟨he.trans (congrArg _ spec.1), spec.2⟩
  · rw [if_neg none] at spec
    obtain ⟨w₁, e, rest⟩ := spec
    exact ⟨w₁, he.trans (congrArg _ e), rest⟩

end

@[simp] theorem byWidth_false (x : Dword) (y : Word) : byWidth false x y = y.setWidth 64 := rfl
@[simp] theorem byWidth_true (x : Dword) (y : Word) : byWidth true x y = x := rfl

-- arithmetic (R100)

/-- Int(x, w, U) on a value of its own width. -/
theorem intOf_toNat {n : Nat} (hn : 0 < n) (u : Bool) (x : BitVec n) : intOf n u x.toNat = int u x := by
  have small : x.toNat % 2 ^ n = x.toNat := Nat.mod_eq_of_lt x.isLt
  have double : 2 ^ n = 2 * 2 ^ (n - 1) := by rw [← Nat.pow_succ', Nat.succ_eq_add_one, Nat.sub_add_cancel hn]
  cases u
  · simp only [intOf, int, Bits.signed, small, BitVec.toInt_eq_toNat_cond, Bool.false_eq_true, if_false]
    split <;> split <;> omega
  · simp only [intOf, int, small, if_true]

theorem toNat_widened (x : Word) : (x.setWidth 64).toNat = x.toNat := BitVec.toNat_setWidth_of_le (by decide)

/-- The same on a word held in a dword. -/
theorem intOf_setWidth (u : Bool) (x : Word) : intOf 32 u (x.setWidth 64).toNat = int u x := by
  rw [toNat_widened, intOf_toNat (by decide)]

/-- Between a least and a greatest value the two ways to clamp agree. -/
theorem clampInt_eq {lo hi : Int} (hle : lo ≤ hi) (z : Int) :
    Num.clampInt lo hi z = if z < lo then lo else if hi < z then hi else z := by
  unfold Num.clampInt
  by_cases below : z < lo
  · rw [if_pos below]
    omega
  · rw [if_neg below]
    by_cases above : hi < z
    · rw [if_pos above]
      omega
    · rw [if_neg above]
      omega

theorem clampInt_range (n : Nat) (u : Bool) (z : Int) :
    Num.clampInt (Num.intMin n (!u)) (Num.intMax n (!u)) z = clamp n u z := by
  have cast (k : Nat) : ((2 ^ k : Nat) : Int) = 2 ^ k := Int.natCast_pow 2 k
  have pos (k : Nat) : (0 : Int) < 2 ^ k := Int.pow_pos (by decide)
  cases u
  · have range : Num.intMin n true = -(2 ^ (n - 1)) ∧ Num.intMax n true = 2 ^ (n - 1) - 1 := by
      simp only [Num.intMin, Num.intMax, if_true, cast, and_self]
    have := pos (n - 1)
    rw [Bool.not_false, range.1, range.2, clampInt_eq (by omega)]
    rfl
  · have range : Num.intMin n false = 0 ∧ Num.intMax n false = 2 ^ n - 1 := by
      simp only [Num.intMin, Num.intMax, Bool.false_eq_true, if_false, cast, and_self]
    have := pos n
    rw [Bool.not_true, range.1, range.2, clampInt_eq (by omega)]
    rfl

/-- An integer modulo 2^n, as a value of n bits. -/
theorem ofNat_wrap (n : Nat) (z : Int) : BitVec.ofNat n (Bits.wrap n z) = BitVec.ofInt n z :=
  (BitVec.ofNatLT_eq_ofNat _).symm

/-- The same for 32 bits held in a dword. -/
theorem ofNat_wrap_32 (z : Int) : BitVec.ofNat 64 (Bits.wrap 32 z) = (BitVec.ofInt 32 z).setWidth 64 := by
  have below : Bits.wrap 32 z < 2 ^ 32 := by
    unfold Bits.wrap
    omega
  rw [← ofNat_wrap]
  apply BitVec.eq_of_toNat_eq
  simp only [BitVec.toNat_setWidth, BitVec.toNat_ofNat]
  omega

theorem ofNat_narrow (n : Nat) (sat u : Bool) (z : Int) : BitVec.ofNat n (narrow n sat u z) = narrowed n sat u z := by
  unfold narrow narrowed
  rw [clampInt_range, ofNat_wrap]

theorem ofNat_narrow_32 (sat u : Bool) (z : Int) : BitVec.ofNat 64 (narrow 32 sat u z) = (narrowed 32 sat u z).setWidth 64 := by
  unfold narrow narrowed
  rw [clampInt_range, ofNat_wrap_32]

theorem int_inj {n : Nat} {u : Bool} {x y : BitVec n} (h : int u x = int u y) : x = y := by
  cases u
  · exact BitVec.eq_of_toInt_eq h
  · exact BitVec.eq_of_toNat_eq (Int.ofNat.inj h)

theorem addSub_byWidth (sub wide sat u : Bool) (xx yy : Dword) (x y : Word) :
    addSub sub wide sat u (byWidth wide xx x) (byWidth wide yy y) =
      byWidth wide (narrowed 64 sat u (if sub then int u xx - int u yy else int u xx + int u yy))
        (narrowed 32 sat u (if sub then int u x - int u y else int u x + int u y)) := by
  cases wide
  · simp only [addSub, byWidth_false, widthOf, Bool.false_eq_true, if_false, intOf_setWidth, ofNat_narrow_32]
  · simp only [addSub, byWidth_true, widthOf, if_true, intOf_toNat (show 0 < 64 by decide), ofNat_narrow]

theorem mulAdd_eq (sat u : Bool) (x y c : Word) : mulAdd sat u x y c = narrowed 32 sat u (int u x * int u y + int u c) := by
  simp only [mulAdd, intOf_toNat (show 0 < 32 by decide), ofNat_narrow]

theorem mulAdd_zero (sat u : Bool) (x y : Word) : mulAdd sat u x y 0 = narrowed 32 sat u (int u x * int u y) := by
  have int_zero : int u (0 : Word) = 0 := by cases u <;> rfl
  rw [mulAdd_eq, int_zero, Int.add_zero]

theorem mulAddWide_eq (sat u : Bool) (x y : Word) (c : Dword) :
    mulAddWide sat u x y c = narrowed 64 sat u (int u x * int u y + int u c) := by
  simp only [mulAddWide, intOf_toNat (show 0 < 32 by decide), intOf_toNat (show 0 < 64 by decide), ofNat_narrow]

/-- The high word of a product is bits 32 to 63 of the product modulo 2^64. -/
theorem mulHigh_eq (u : Bool) (x y : Word) :
    mulHigh u x y = ((BitVec.ofInt 64 (int u x * int u y)) >>> 32).setWidth 32 := by
  simp only [mulHigh, intOf_toNat (show 0 < 32 by decide)]
  generalize int u x * int u y = p
  apply BitVec.eq_of_toNat_eq
  simp only [Bits.wrap, BitVec.toNat_ofNat, BitVec.toNat_setWidth, BitVec.toNat_ushiftRight, BitVec.toNat_ofInt,
    Nat.shiftRight_eq_div_pow]
  omega

theorem minMax_false (u : Bool) (x y : Word) : minMax false u x y = if int u x ≤ int u y then x else y := by
  simp [minMax, intOf_toNat]

/-- Of two values that compare equal either is the maximum: they are one word. -/
theorem minMax_true (u : Bool) (x y : Word) : minMax true u x y = if int u y ≤ int u x then x else y := by
  simp only [minMax, intOf_toNat (show 0 < 32 by decide)]
  rcases Int.lt_trichotomy (int u x) (int u y) with lt | eq | gt
  · simp [Int.le_of_lt lt, Int.not_le.2 lt]
  · simp [int_inj eq]
  · simp [Int.le_of_lt gt, Int.not_le.2 gt]

/-- Settles O1: each form by its function of the operands (`addSub_byWidth`, `mulAdd_eq`, `mulHigh_eq`, `minMax_true`). -/
theorem integerArithmeticResults : Obligations.IntegerArithmeticResults := by
  unfold Obligations.IntegerArithmeticResults
  intro s w hw h d a c b wide sat u x32 y32 x64 y64
  refine ⟨laneW_of_exec hw rfl fun l => ?iadd, laneW_of_exec hw rfl fun l => ?isub, lane32_of_exec hw rfl fun l => ?imul,
    lane32_of_exec hw rfl fun l => ?imulh, lane32_of_exec hw rfl fun l => ?imad, lane64_of_exec hw rfl fun l => ?imadw,
    lane32_of_exec hw rfl fun l => ?imin, lane32_of_exec hw rfl fun l => ?imax, lane32_of_exec hw rfl fun l => ?iabs⟩
  case iadd => exact addSub_byWidth false wide sat u _ _ _ _
  case isub => exact addSub_byWidth true wide sat u _ _ _ _
  case imul => exact mulAdd_zero sat u _ _
  case imulh => exact mulHigh_eq u _ _
  case imad => exact mulAdd_eq sat u _ _ _
  case imadw => exact mulAddWide_eq sat u _ _ _
  case imin => exact minMax_false u _ _
  case imax => exact minMax_true u _ _
  case iabs => exact ofNat_narrow 32 sat false _

end Sys2Proof.Machine
end

section
/-! Logic and shifts (R101, R102). -/
namespace Sys2Proof.Machine

open Terms

-- values built up bit by bit

/-- The number whose bits below n are those of g. -/
def bitSum (g : Nat → Bool) (n : Nat) : Nat := (List.range n).foldl (fun r i => r + 2 ^ i * Bits.ofBool (g i)) 0

theorem bitSum_succ (g : Nat → Bool) (n : Nat) : bitSum g (n + 1) = bitSum g n + 2 ^ n * Bits.ofBool (g n) := by
  simp [bitSum, List.range_succ]

theorem bitSum_lt (g : Nat → Bool) (n : Nat) : bitSum g n < 2 ^ n := by
  induction n with
  | zero => exact Nat.one_pos
  | succ n ih =>
    rw [bitSum_succ, Nat.pow_succ]
    cases g n <;> simp [Bits.ofBool] <;> omega

theorem testBit_bitSum (g : Nat → Bool) (n j : Nat) : (bitSum g n).testBit j = (decide (j < n) && g j) := by
  induction n with
  | zero => simp [bitSum]
  | succ n ih =>
    rw [bitSum_succ, Nat.add_comm, Nat.testBit_two_pow_mul_add _ (bitSum_lt g n), ih]
    rcases Nat.lt_trichotomy j n with lt | rfl | gt
    · simp [lt, Nat.lt_succ_of_lt lt]
    · cases g j <;> simp [Bits.ofBool]
    · have bit_of_bool : (Bits.ofBool (g n)).testBit (j - n) = false := by
        obtain ⟨k, hk⟩ : ∃ k, j - n = k + 1 := ⟨j - n - 1, by omega⟩
        cases g n <;> simp [Bits.ofBool, hk, Nat.testBit_succ]
      simp [bit_of_bool, Nat.not_lt_of_gt gt, show ¬ j < n + 1 by omega]

theorem getLsbD_ofNat_bitSum (g : Nat → Bool) {n j : Nat} (hj : j < 32) :
    (BitVec.ofNat 32 (bitSum g n)).getLsbD j = (decide (j < n) && g j) := by
  rw [BitVec.getLsbD_ofNat, testBit_bitSum, decide_eq_true hj, Bool.true_and]

theorem getLsbD_lop3 (lut : BitVec 8) (d a b : Word) {i : Nat} (hi : i < 32) : (lop3 lut d a b).getLsbD i =
    lut.getLsbD (4 * Bits.ofBool (d.getLsbD i) + 2 * Bits.ofBool (a.getLsbD i) + Bits.ofBool (b.getLsbD i)) := by
  have built : lop3 lut d a b = BitVec.ofNat 32 (bitSum (fun j =>
    lut.getLsbD (4 * Bits.ofBool (d.getLsbD j) + 2 * Bits.ofBool (a.getLsbD j) + Bits.ofBool (b.getLsbD j))) 32) := rfl
  rw [built, getLsbD_ofNat_bitSum _ hi, decide_eq_true hi, Bool.true_and]

-- shifts and rotates

theorem shiftCount_eq (wide clamps : Bool) (b : Word) : shiftCount wide clamps b = shiftBy wide clamps b := by
  cases clamps
  · rfl
  · simp only [shiftCount, shiftBy, widthOf, if_true]
    generalize (if wide then 64 else 32) = n
    split <;> omega

theorem shiftBy_lt (wide : Bool) (b : Word) : shiftBy wide false b < widthOf wide := by
  cases wide <;> exact Nat.mod_lt _ (by decide)

theorem shiftLeft_byWidth (wide : Bool) (xx : Dword) (x : Word) (n : Nat) :
    shiftLeft wide (byWidth wide xx x) n = byWidth wide (xx <<< n) (x <<< n) := by
  apply BitVec.eq_of_toNat_eq
  cases wide
  · simp only [shiftLeft, byWidth_false, widthOf, toNat_widened, BitVec.toNat_ofNat, BitVec.toNat_shiftLeft, Nat.shiftLeft_eq,
      Bool.false_eq_true, if_false]
    omega
  · simp [shiftLeft, widthOf, Nat.shiftLeft_eq]

theorem shiftRight_byWidth (wide : Bool) (xx : Dword) (x : Word) (n : Nat) :
    shiftRight wide (byWidth wide xx x) n = byWidth wide (xx >>> n) (x >>> n) := by
  have low {m y : Nat} (hy : y < 2 ^ m) : y % 2 ^ m / 2 ^ n = y / 2 ^ n := by rw [Nat.mod_eq_of_lt hy]
  have fits {y : Nat} (hy : y < 2 ^ 64) : y / 2 ^ n % 2 ^ 64 = y / 2 ^ n :=
    Nat.mod_eq_of_lt (Nat.lt_of_le_of_lt (Nat.div_le_self _ _) hy)
  apply BitVec.eq_of_toNat_eq
  cases wide
  · simp only [shiftRight, byWidth_false, widthOf, toNat_widened, BitVec.toNat_ofNat, BitVec.toNat_ushiftRight,
      Nat.shiftRight_eq_div_pow, Bool.false_eq_true, if_false, low x.isLt, fits (Nat.lt_trans x.isLt (by decide))]
  · simp only [shiftRight, byWidth_true, widthOf, BitVec.toNat_ofNat, BitVec.toNat_ushiftRight, Nat.shiftRight_eq_div_pow,
      if_true, low xx.isLt, fits xx.isLt]

/-- The arithmetic shift divides the signed value, rounding down. -/
theorem shiftArith_byWidth (wide : Bool) (xx : Dword) (x : Word) (n : Nat) :
    shiftArith wide (byWidth wide xx x) n = byWidth wide (xx.sshiftRight n) (x.sshiftRight n) := by
  have signed_word : Bits.signed 32 (x.setWidth 64).toNat = x.toInt := intOf_setWidth false x
  have signed_dword : Bits.signed 64 xx.toNat = xx.toInt := intOf_toNat (by decide) false xx
  cases wide
  · simp only [shiftArith, byWidth_false, widthOf, Bool.false_eq_true, if_false, signed_word, ofNat_wrap_32,
      BitVec.sshiftRight, Int.shiftRight_eq_div_pow]
  · simp only [shiftArith, byWidth_true, widthOf, if_true, signed_dword, ofNat_wrap, BitVec.sshiftRight,
      Int.shiftRight_eq_div_pow]

theorem rotated_lt {m x : Nat} (hx : x < 2 ^ m) (n : Nat) : x * 2 ^ n % 2 ^ m ||| x / 2 ^ (m - n) < 2 ^ m :=
  Nat.or_lt_two_pow (Nat.mod_lt _ (Nat.two_pow_pos m)) (Nat.lt_of_le_of_lt (Nat.div_le_self _ _) hx)

theorem rotLeft_byWidth (wide : Bool) (xx : Dword) (x : Word) {n : Nat} (hn : n < widthOf wide) :
    rotLeft wide (byWidth wide xx x) n = byWidth wide (xx.rotateLeft n) (x.rotateLeft n) := by
  apply BitVec.eq_of_toNat_eq
  cases wide
  · have n_mod : n % 32 = n := Nat.mod_eq_of_lt hn
    simp only [rotLeft, byWidth_false, widthOf, Bool.false_eq_true, if_false, toNat_widened, BitVec.toNat_ofNat,
      BitVec.toNat_rotateLeft, Nat.mod_eq_of_lt x.isLt, n_mod, Nat.shiftLeft_eq, Nat.shiftRight_eq_div_pow]
    exact Nat.mod_eq_of_lt (Nat.lt_trans (rotated_lt x.isLt n) (by decide))
  · have n_mod : n % 64 = n := Nat.mod_eq_of_lt hn
    simp only [rotLeft, byWidth_true, widthOf, if_true, BitVec.toNat_ofNat, BitVec.toNat_rotateLeft, Nat.mod_eq_of_lt xx.isLt,
      n_mod, Nat.shiftLeft_eq, Nat.shiftRight_eq_div_pow]
    exact Nat.mod_eq_of_lt (rotated_lt xx.isLt n)

/-- Settles O2: the shifts and rotates by their lemmas of either width, LOP3 by its bits (`getLsbD_lop3`). -/
theorem logicAndShiftResults : Obligations.LogicAndShiftResults := by
  unfold Obligations.LogicAndShiftResults
  intro s w hw h d a b wide clamps lut x y xx n
  refine ⟨lane32_of_exec hw rfl fun l => rfl, lane32_of_exec hw rfl fun l => rfl, lane32_of_exec hw rfl fun l => rfl,
    lane32_of_exec hw rfl fun l => rfl, lane32_of_exec hw rfl fun l => rfl,
    ⟨_, lane32_of_exec hw rfl fun l => rfl, fun l i hi => getLsbD_lop3 lut _ _ _ hi⟩,
    laneW_of_exec hw rfl fun l => ?shl, laneW_of_exec hw rfl fun l => ?shr, laneW_of_exec hw rfl fun l => ?sar,
    laneW_of_exec hw rfl fun l => ?rotl⟩
  case shl => rw [shiftCount_eq]; exact shiftLeft_byWidth wide _ _ _
  case shr => rw [shiftCount_eq]; exact shiftRight_byWidth wide _ _ _
  case sar => rw [shiftCount_eq]; exact shiftArith_byWidth wide _ _ _
  case rotl => rw [shiftCount_eq]; exact rotLeft_byWidth wide _ _ (shiftBy_lt wide _)
end Sys2Proof.Machine
end

section
/-! Bit counts, bit fields and Morton codes (R103 to R105), bit by bit. -/
namespace Sys2Proof.Machine

open Terms

-- bit counts (R103)

theorem clz_zero : clz 0 = 32 := rfl
theorem ctz_zero : ctz 0 = 32 := by decide

theorem clz_of_ne_zero {x : Word} (hx : x ≠ 0) : (clz x).toNat < 32 ∧ x.getLsbD (31 - (clz x).toNat) = true ∧
    ∀ i, 31 - (clz x).toNat < i → x.getLsbD i = false := by
  have ne : x.toNat ≠ 0 := fun e => hx (BitVec.eq_of_toNat_eq e)
  have top_lt : x.toNat.log2 < 32 := (Nat.log2_lt ne).2 x.isLt
  have count : (clz x).toNat = 31 - x.toNat.log2 := by
    simp only [clz, if_neg hx, BitVec.toNat_ofNat]
    omega
  have top : 31 - (31 - x.toNat.log2) = x.toNat.log2 := by omega
  rw [count, top]
  exact ⟨by omega, Nat.testBit_log2 ne, fun i hi =>
    Nat.testBit_lt_two_pow (Nat.lt_of_lt_of_le Nat.lt_log2_self (Nat.pow_le_pow_right (by decide) hi))⟩

theorem ctz_of_ne_zero {x : Word} (hx : x ≠ 0) : (ctz x).toNat < 32 ∧ x.getLsbD (ctz x).toNat = true ∧
    ∀ i < (ctz x).toNat, x.getLsbD i = false := by
  cases found : (List.range 32).find? fun i => x.getLsbD i with
  | none =>
    rw [List.find?_range_eq_none] at found
    exact absurd (BitVec.eq_of_getLsbD_eq fun i hi => by simpa using found i hi) hx
  | some k =>
    have count : ctz x = BitVec.ofNat 32 k := by rw [ctz, found, Option.getD_some]
    obtain ⟨set, hk, clear⟩ := List.find?_range_eq_some.1 found
    rw [List.mem_range] at hk
    rw [count, BitVec.toNat_ofNat, Nat.mod_eq_of_lt (Nat.lt_trans hk (by decide))]
    exact ⟨hk, set, fun i hi => by simpa using clear i hi⟩

theorem popcount_eq_countP (n x : Nat) : Bits.popcount n x = (List.range n).countP fun i => x.testBit i := by
  induction n generalizing x with
  | zero => rfl
  | succ n ih =>
    have low_bit : x % 2 = if x.testBit 0 then 1 else 0 := by
      rw [Nat.testBit_zero]
      rcases Nat.mod_two_eq_zero_or_one x with e | e <;> simp [e]
    have shifted : ((fun i => x.testBit i) ∘ Nat.succ) = fun i => (x / 2).testBit i := funext (Nat.testBit_succ x)
    rw [Bits.popcount, ih, List.range_succ_eq_map, List.countP_cons, List.countP_map, shifted, low_bit, Nat.add_comm]

theorem getLsbD_brev (x : Word) {i : Nat} (hi : i < 32) : (brev x).getLsbD i = x.getLsbD (31 - i) := by
  have built : brev x = BitVec.ofNat 32 (bitSum (fun j => x.getLsbD (31 - j)) 32) := rfl
  rw [built, getLsbD_ofNat_bitSum _ hi, decide_eq_true hi, Bool.true_and]

-- bit fields (R104)

/-- A field of m bits made negative: its own bits, and ones from m up. -/
theorem testBit_wrap_sub {f m i : Nat} (hf : f < 2 ^ m) (hm : m ≤ 32) (hi : i < 32) :
    (Bits.wrap 32 ((f : Int) - (2 ^ m : Nat))).testBit i = if i < m then f.testBit i else true := by
  have split_pow : 2 ^ 32 = 2 ^ m * 2 ^ (32 - m) := by rw [← Nat.pow_add, Nat.add_sub_cancel' hm]
  have wrapped : Bits.wrap 32 ((f : Int) - (2 ^ m : Nat)) = 2 ^ m * (2 ^ (32 - m) - 1) + f := by
    have le : 2 ^ m ≤ 2 ^ 32 := Nat.pow_le_pow_right (by decide) hm
    rw [Nat.mul_sub_one, ← split_pow, Bits.wrap]
    generalize 2 ^ m = p at *
    omega
  rw [wrapped, Nat.testBit_two_pow_mul_add _ hf, Nat.testBit_two_pow_sub_one]
  split
  · rfl
  · exact decide_eq_true (by omega)

/-- The width of a field, from the second byte of B. -/
theorem min_field_eq (b : Nat) : min (Bits.field b 8 8) 32 = if b / 256 % 256 < 32 then b / 256 % 256 else 32 := by
  unfold Bits.field
  split <;> omega

theorem field_zero_eq (b : Nat) : Bits.field b 0 8 = b % 256 := by
  simp [Bits.field]

theorem bit_eq_testBit (x i : Nat) : Bits.bit x i = x.testBit i := by
  rw [Nat.testBit_eq_decide_div_mod_eq]
  rfl

theorem testBit_div_mod (x pos m i : Nat) : (x / 2 ^ pos % 2 ^ m).testBit i = (decide (i < m) && x.testBit (pos + i)) := by
  rw [Nat.testBit_mod_two_pow, Nat.testBit_div_two_pow, Nat.add_comm]

/-- BFX from position pos and of width m. -/
theorem getLsbD_bfx (u : Bool) (a b : Word) {i : Nat} (hi : i < 32) {pos m : Nat} (hpos : b.toNat % 256 = pos)
    (hm : (if b.toNat / 256 % 256 < 32 then b.toNat / 256 % 256 else 32) = m) : (bfx u a b).getLsbD i =
      if i < m then a.getLsbD (pos + i) else !u && decide (1 ≤ m) && a.getLsbD (pos + m - 1) := by
  have m_le : m ≤ 32 := by rw [← hm, ← min_field_eq]; exact Nat.min_le_right _ _
  have sign : Bits.bit (a.toNat / 2 ^ pos % 2 ^ m) (m - 1) = (decide (1 ≤ m) && a.getLsbD (pos + m - 1)) := by
    rw [bit_eq_testBit, testBit_div_mod, BitVec.testBit_toNat]
    by_cases some_bit : 1 ≤ m
    · rw [Nat.add_sub_assoc some_bit]
      simp [some_bit, show m - 1 < m by omega]
    · simp [show m = 0 by omega]
  simp only [bfx, min_field_eq, field_zero_eq, hm, hpos, sign, BitVec.getLsbD_ofNat, decide_eq_true hi, Bool.true_and]
  by_cases inside : i < m
  · rw [if_pos inside]
    split
    · rw [testBit_wrap_sub (Nat.mod_lt _ (Nat.two_pow_pos m)) m_le hi, if_pos inside, testBit_div_mod, decide_eq_true inside]
      rfl
    · rw [testBit_div_mod, decide_eq_true inside]
      rfl
  · have m_lt : m < 32 := by omega
    have negative (e : Bool) : (!u && decide (1 ≤ m ∧ m < 32) && (decide (1 ≤ m) && e)) = (!u && decide (1 ≤ m) && e) := by
      by_cases some_bit : 1 ≤ m <;> simp [some_bit, m_lt]
    rw [if_neg inside, negative]
    split <;> rename_i fill
    · rw [testBit_wrap_sub (Nat.mod_lt _ (Nat.two_pow_pos m)) m_le hi, if_neg inside, fill]
    · rw [testBit_div_mod, decide_eq_false inside, Bool.false_and, Bool.eq_false_iff.2 fill]

theorem getLsbD_bfi (a b c : Word) {i : Nat} (hi : i < 32) {pos m : Nat} (hpos : b.toNat % 256 = pos)
    (hm : (if b.toNat / 256 % 256 < 32 then b.toNat / 256 % 256 else 32) = m) :
    (bfi a b c).getLsbD i = if pos ≤ i ∧ i < pos + m then c.getLsbD (i - pos) else a.getLsbD i := by
  simp only [bfi, min_field_eq, field_zero_eq, hm, hpos, BitVec.getLsbD_or, BitVec.getLsbD_and, BitVec.getLsbD_not,
    BitVec.getLsbD_ofNat, Nat.testBit_mul_two_pow, Nat.testBit_two_pow_sub_one, BitVec.testBit_toNat,
    decide_eq_true hi, Bool.true_and]
  by_cases inside : pos ≤ i ∧ i < pos + m
  · simp [inside, show i - pos < m by omega]
  · have outside : (decide (pos ≤ i) && decide (i - pos < m)) = false := by
      rw [← Bool.decide_and, decide_eq_false_iff_not]
      omega
    simp [inside, outside]

-- Morton codes (R105)

/-- Three sources dealt out in turn: bit i comes from the source numbered i modulo 3. -/
theorem deal_three (k : Nat) (a b c : Word) : deal 3 k [a, b, c] =
    BitVec.ofNat 32 (bitSum (fun i => (if i % 3 = 0 then a else if i % 3 = 1 then b else c).getLsbD (i / 3)) (3 * k)) := by
  unfold deal
  congr 1
  induction k with
  | zero => rfl
  | succ k ih =>
    rw [List.range_succ, List.foldl_append, ih, Nat.mul_succ, bitSum_succ, bitSum_succ, bitSum_succ]
    simp [Nat.add_mod, Nat.add_div, Nat.add_assoc]

/-- Two sources dealt out in turn. -/
theorem deal_two (k : Nat) (a b : Word) : deal 2 k [a, b] =
    BitVec.ofNat 32 (bitSum (fun i => (if i % 2 = 0 then a else b).getLsbD (i / 2)) (2 * k)) := by
  unfold deal
  congr 1
  induction k with
  | zero => rfl
  | succ k ih =>
    rw [List.range_succ, List.foldl_append, ih, Nat.mul_succ, bitSum_succ, bitSum_succ]
    simp [Nat.add_mod, Nat.add_div, Nat.add_assoc]

theorem getLsbD_ilv (three : Bool) (a b c : Word) {i : Nat} (hi : i < 32) : (ilv three a b c).getLsbD i =
    if three then decide (i < 30) && (if i % 3 = 0 then a else if i % 3 = 1 then b else c).getLsbD (i / 3)
    else (if i % 2 = 0 then a else b).getLsbD (i / 2) := by
  cases three
  · simp only [ilv, Bool.false_eq_true, if_false, deal_two]
    rw [getLsbD_ofNat_bitSum _ hi, decide_eq_true hi, Bool.true_and]
  · simp only [ilv, if_true, deal_three]
    exact getLsbD_ofNat_bitSum _ hi

theorem getLsbD_gather (n k t : Nat) (a : Word) {i : Nat} (hi : i < 32) :
    (gather n k t a).getLsbD i = (decide (i < k) && a.getLsbD (n * i + t)) :=
  getLsbD_ofNat_bitSum (fun j => a.getLsbD (n * j + t)) hi

theorem getLsbD_dlv (three : Bool) (a b : Word) {i : Nat} (hi : i < 32) : (dlv three a b).getLsbD i =
    (let t := b.toNat % 4
     if three then decide (t < 3 ∧ i < 10) && a.getLsbD (3 * i + t)
     else decide (t < 2 ∧ i < 16) && a.getLsbD (2 * i + t)) := by
  have t_lt : b.toNat % 4 < 4 := Nat.mod_lt _ (by decide)
  cases three
  · simp only [dlv, Bool.false_eq_true, if_false]
    split
    · simp [show ¬ b.toNat % 4 < 2 by omega]
    · simp [getLsbD_gather _ _ _ _ hi, show b.toNat % 4 < 2 by omega]
  · simp only [dlv, if_true]
    split
    · simp [show ¬ b.toNat % 4 < 3 by omega]
    · simp [getLsbD_gather _ _ _ _ hi, show b.toNat % 4 < 3 by omega]

/-- Settles O3, each form by its bits. -/
theorem bitFieldResults : Obligations.BitFieldResults := by
  unfold Obligations.BitFieldResults
  intro s w hw h d a c b u three x y z pos m
  refine ⟨⟨_, lane32_of_exec hw rfl fun l => rfl, fun l => ?clz⟩,
    ⟨_, lane32_of_exec hw rfl fun l => rfl, fun l => ?ctz⟩, lane32_of_exec hw rfl fun l => ?popc,
    ⟨_, lane32_of_exec hw rfl fun l => rfl, fun l i hi => getLsbD_brev _ hi⟩,
    ⟨_, lane32_of_exec hw rfl fun l => rfl, fun l i hi => getLsbD_bfx u _ _ hi rfl rfl⟩,
    ⟨_, lane32_of_exec hw rfl fun l => rfl, fun l i hi => getLsbD_bfi _ _ _ hi rfl rfl⟩,
    ⟨_, lane32_of_exec hw rfl fun l => rfl, fun l i hi => getLsbD_ilv three _ _ _ hi⟩,
    ⟨_, lane32_of_exec hw rfl fun l => rfl, fun l i hi => getLsbD_dlv three _ _ hi⟩⟩
  case clz =>
    split
    · next zero => exact (congrArg clz zero).trans clz_zero
    · next nonzero => exact clz_of_ne_zero nonzero
  case ctz =>
    split
    · next zero => exact (congrArg ctz zero).trans ctz_zero
    · next nonzero => exact ctz_of_ne_zero nonzero
  case popc => exact congrArg (BitVec.ofNat 32) (popcount_eq_countP 32 _)

end Sys2Proof.Machine
end

section
/-! Compares, selects and moves (R106 to R109). -/
namespace Sys2Proof.Machine

open Terms

theorem immVal_eq (imm : Imm) : immVal imm = match imm with | .short i => i.signExtend 64 | .lit x => x := by
  cases imm <;> rfl

/-- The shift of LEA scales by a power of two. -/
theorem leaAddr_eq (u : Bool) (sh : Nat) (a : Dword) (b : Word) :
    leaAddr u sh a b = a + (if u then b.setWidth 64 else b.signExtend 64) * BitVec.ofNat 64 (2 ^ sh) := by
  have power : BitVec.twoPow 64 sh = BitVec.ofNat 64 (2 ^ sh) := BitVec.eq_of_toNat_eq (BitVec.toNat_twoPow 64 sh)
  rw [leaAddr, BitVec.shiftLeft_eq_mul_twoPow, power]

/-- The codes of an integer comparison (R62). -/
theorem icond_eq_true_iff (a b : Word) :
    (icond .eq a b = true ↔ a = b) ∧ (icond .ne a b = true ↔ a ≠ b) ∧
    (icond .lt a b = true ↔ a.toInt < b.toInt) ∧ (icond .le a b = true ↔ a.toInt ≤ b.toInt) ∧
    (icond .gt a b = true ↔ a.toInt > b.toInt) ∧ (icond .ge a b = true ↔ a.toInt ≥ b.toInt) ∧
    (icond .ltu a b = true ↔ a < b) ∧ (icond .leu a b = true ↔ a ≤ b) ∧
    (icond .gtu a b = true ↔ a > b) ∧ (icond .geu a b = true ↔ a ≥ b) :=
  ⟨beq_iff_eq, bne_iff_ne, decide_eq_true_iff, decide_eq_true_iff, decide_eq_true_iff, decide_eq_true_iff, decide_eq_true_iff,
    decide_eq_true_iff, decide_eq_true_iff, decide_eq_true_iff⟩

/-- Settles O4: each form by its shape, the comparison codes by their meaning on integers. -/
theorem compareSelectMoveResults : Obligations.CompareSelectMoveResults := by
  unfold Obligations.CompareSelectMoveResults
  refine ⟨?_, icond_eq_true_iff⟩
  intro s w hw h d a b kd ka pd pc cc wide u imm sh low value
  have value_eq : immVal imm = value := immVal_eq imm
  refine ⟨laneP_of_exec hw rfl fun l => rfl, lane32_of_exec hw rfl fun l => rfl, lane32_of_exec hw rfl fun l => rfl,
    lane64_of_exec hw rfl fun l => rfl, uniform_of_exec (f := fun l => (s.srcB l b).setWidth 64) hw rfl,
    uniform_of_exec (f := fun l => s.srcB2 l b) hw rfl, laneW_of_exec hw rfl fun l => value_eq,
    ?movk, ?movkAdd, lane64_of_exec hw rfl fun l => leaAddr_eq u _ _ _⟩
  case movk => exact value_eq ▸ uniform_of_exec (f := fun _ => immVal imm) hw rfl
  case movkAdd => exact value_eq ▸ uniform_of_exec (f := fun _ => s.rk ka.toNat + immVal imm) hw rfl

end Sys2Proof.Machine
end

section
/-! Floating-point forms: FP32 and FP64 (R110 to R112, R114) and packed F16 (R113). -/
namespace Sys2Proof.Machine

open Terms

/-- Settles O5: each form applies its operation of chapter 4 to the encodings that its lanes hold. -/
theorem fp32Results : Obligations.Fp32Results := by
  unfold Obligations.Fp32Results
  intro s w hw h d a c b pd pc cc sat rm x y z r
  exact ⟨lane32_of_exec hw rfl fun l => rfl, lane32_of_exec hw rfl fun l => rfl, lane32_of_exec hw rfl fun l => rfl,
    lane32_of_exec hw rfl fun l => rfl, lane32_of_exec hw rfl fun l => rfl, lane32_of_exec hw rfl fun l => rfl,
    laneP_of_exec hw rfl fun l => rfl, lane32_of_exec hw rfl fun l => rfl, lane32_of_exec hw rfl fun l => rfl⟩

-- results in flight

section
variable {s : State} {w : Warp} (hw : Issuing s w)
include hw

theorem flatMap_vres (h : Head) (d : VReg) (f : Nat → Word) :
    (Bits.lanes (s.execLanes h)).flatMap (fun l => [s.vres l d.toNat (f l)]) = later32 s w h d f := by
  simp only [vres_eq hw, later32, List.map_eq_flatMap]

theorem flatMap_vres2 (h : Head) (d : VReg) (f : Nat → Dword) :
    (Bits.lanes (s.execLanes h)).flatMap (fun l => s.vres2 l d.toNat (f l)) = later64 s w h d f := by
  simp only [State.vres2, vres_eq hw, later64]

theorem flies32_of_exec {i : Instr} {h : Head} {d : VReg} {f : Nat → Word} (he : exec i s = .next (s.laneVar32 h d f)) :
    Flies i s w h (later32 s w h d f) :=
  flies_of_exec hw he (flatMap_vres hw h d f)

theorem flies64_of_exec {i : Instr} {h : Head} {d : VReg} {f : Nat → Dword} (he : exec i s = .next (s.laneVar64 h d f)) :
    Flies i s w h (later64 s w h d f) :=
  flies_of_exec hw he (flatMap_vres2 hw h d f)

end

theorem flatMap_pres (s : State) (h : Head) (d : PReg) (f : Nat → Bool) :
    (Bits.lanes (s.execLanes h)).flatMap (fun l => [State.pres l d.toNat (f l)]) = laterP s h d f := by
  have bit_of_bool (b : Bool) : BitVec.ofNat 64 (Bits.ofBool b) = if b then 1 else 0 := by cases b <;> rfl
  simp only [State.pres, laterP, List.map_eq_flatMap, bit_of_bool]

/-- Settles O6: the results of each form, lane by lane, as they enter flight. -/
theorem variableLatencyResults : Obligations.VariableLatencyResults := by
  unfold Obligations.VariableLatencyResults
  intro s w hw h d a c b pd pc cc one x y z
  exact ⟨flies32_of_exec hw rfl, flies32_of_exec hw rfl, flies32_of_exec hw rfl, flies32_of_exec hw rfl,
    flies32_of_exec hw rfl, flies32_of_exec hw rfl, flies32_of_exec hw rfl, flies32_of_exec hw rfl,
    flies64_of_exec hw rfl, flies64_of_exec hw rfl, flies64_of_exec hw rfl, flies_of_exec hw rfl (flatMap_pres s h pd _)⟩

-- packed F16

theorem field_eq_half (x : Word) (e : Nat) : Bits.field x.toNat (16 * e) 16 = ((x >>> (16 * e)).setWidth 16).toNat := by
  rw [BitVec.toNat_setWidth, BitVec.toNat_ushiftRight, Nat.shiftRight_eq_div_pow]
  rfl

theorem pack_halves (lo hi : Nat) : BitVec.ofNat 32 (Bits.pack [(16, lo), (16, hi)]) =
    (BitVec.ofNat 16 hi ++ BitVec.ofNat 16 lo : Word) := by
  apply BitVec.eq_of_toNat_eq
  rw [BitVec.toNat_append, Nat.shiftLeft_eq, Nat.mul_comm, ← Nat.two_pow_add_eq_or_of_lt (BitVec.isLt _)]
  simp only [Bits.pack, BitVec.toNat_ofNat]
  omega

theorem hxOp2_eq (sat : Bool) (f : Nat → Nat → Nat) (a b : Word) : hxOp2 sat f a b =
    (let r := fun e => BitVec.ofNat 16 (Num.satIf sat Num.f16
      (f ((a >>> (16 * e)).setWidth 16).toNat ((b >>> (16 * e)).setWidth 16).toNat))
     (r 1 ++ r 0 : Word)) := by
  simp only [hxOp2, pack_halves, field_eq_half]

theorem hxOp3_eq (sat : Bool) (f : Nat → Nat → Nat → Nat) (a b c : Word) : hxOp3 sat f a b c =
    (let r := fun e => BitVec.ofNat 16 (Num.satIf sat Num.f16
      (f ((a >>> (16 * e)).setWidth 16).toNat ((b >>> (16 * e)).setWidth 16).toNat ((c >>> (16 * e)).setWidth 16).toNat))
     (r 1 ++ r 0 : Word)) := by
  simp only [hxOp3, pack_halves, field_eq_half]

/-- Settles O7: each form works on the two halves (`hxOp2_eq`, `hxOp3_eq`). -/
theorem packedF16Results : Obligations.PackedF16Results := by
  unfold Obligations.PackedF16Results
  intro s w hw h d a c b sat least half r both x y z
  exact ⟨lane32_of_exec hw rfl fun l => hxOp2_eq sat _ _ _, lane32_of_exec hw rfl fun l => hxOp2_eq sat _ _ _,
    lane32_of_exec hw rfl fun l => hxOp3_eq sat _ _ _ _, lane32_of_exec hw rfl fun l => hxOp2_eq false _ _ _⟩

end Sys2Proof.Machine
end

section
/-! Conversions (R115 to R119): the draws of stochastic rounding in order, the share of each lane, and what CVT, PACK and UNPK
write. -/
namespace Sys2Proof.Machine

open Terms

-- the draws of stochastic rounding (R86)

/-- The state of SEED after a number of conversions. -/
def seedAfter (rm : Round) (n seed : Nat) : Nat := if rm = .sto then drawn n seed else seed

theorem drawn_succ (n seed : Nat) : drawn (n + 1) seed = Num.draw (Num.seedOf (drawn n seed)) := by
  induction n generalizing seed with
  | zero => rfl
  | succ n ih => rw [drawn, ih]; rfl

theorem seedAfter_succ (rm : Round) (n seed : Nat) :
    (if rm = .sto then Num.draw (Num.seedOf (seedAfter rm n seed)) else seedAfter rm n seed) = seedAfter rm (n + 1) seed := by
  unfold seedAfter
  split
  · rw [drawn_succ]
  · rfl

/-- A run of conversions after k others: each draws with the state it finds. -/
theorem convertAll_eq (dst src : Ty) (rm : Round) (sat : Bool) (seed k : Nat) (xs : List Nat) :
    convertAll dst src rm sat (seedAfter rm k seed) xs =
      ((xs.zipIdx k).map fun p => Num.convert dst src rm (seedAfter rm (p.2 + 1) seed) sat p.1,
        seedAfter rm (k + xs.length) seed) := by
  induction xs generalizing k with
  | nil => rfl
  | cons x xs ih =>
    rw [convertAll, seedAfter_succ, ih, List.length_cons, Nat.add_right_comm]
    rfl

-- the share of each lane

/-- Lanes that each bring n elements: the elements of the lane at place j are numbered from n * j. -/
theorem zipIdx_flatMap_range {α : Type} (ls : List Nat) (n k : Nat) (src : Nat → Nat → α) :
    (ls.flatMap fun l => (List.range n).map (src l)).zipIdx (n * k) =
      (ls.zipIdx k).flatMap fun p => (List.range n).map fun i => (src p.1 i, n * p.2 + i) := by
  induction ls generalizing k with
  | nil => rfl
  | cons l ls ih =>
    have own : ((List.range n).map (src l)).zipIdx (n * k) = (List.range n).map fun i => (src l i, n * k + i) :=
      List.ext_getElem (by simp) fun i h₁ h₂ => by simp
    rw [List.flatMap_cons, List.zipIdx_append, own, List.length_map, List.length_range, ← Nat.mul_succ, ih]
    rfl

/-- Lists of n elements one after another: the one at place j stands from n * j on. -/
theorem take_drop_flatMap {α β : Type} {f : β → List α} {n : Nat} (hf : ∀ b, (f b).length = n) {ls : List β} {j : Nat}
    {b : β} (hb : ls[j]? = some b) : ((ls.flatMap f).drop (n * j)).take n = f b := by
  induction ls generalizing j with
  | nil => simp at hb
  | cons c ls ih =>
    cases j with
    | zero =>
      obtain rfl : c = b := by simpa using hb
      rw [List.flatMap_cons, Nat.mul_zero, List.drop_zero, List.take_left' (hf c)]
    | succ j =>
      rw [List.flatMap_cons, Nat.mul_succ, Nat.add_comm, ← List.drop_drop, List.drop_left' (hf c)]
      exact ih (by simpa using hb)

/-- Of the numbers below n for which p holds, each stands at the place that counts those before it. -/
theorem zipIdx_filter_range (p : Nat → Bool) (n : Nat) :
    ((List.range n).filter p).zipIdx = ((List.range n).filter p).map fun l => (l, (List.range l).countP p) := by
  induction n with
  | zero => rfl
  | succ n ih =>
    rw [List.range_succ, List.filter_append, List.zipIdx_append, ih, List.map_append, ← List.countP_eq_length_filter]
    cases hp : p n <;> simp [List.filter, hp]

theorem lanes_execLanes (s : State) (h : Head) : Bits.lanes (s.execLanes h) = (List.range 32).filter (executes s h) :=
  List.filter_congr fun l _ => getLsbD_execLanes s h l

theorem zipIdx_lanes_execLanes (s : State) (h : Head) :
    (Bits.lanes (s.execLanes h)).zipIdx = (Bits.lanes (s.execLanes h)).map fun l => (l, rank s h l) := by
  rw [lanes_execLanes]
  exact zipIdx_filter_range _ _

theorem length_lanes_execLanes (s : State) (h : Head) : (Bits.lanes (s.execLanes h)).length = rank s h 32 := by
  rw [lanes_execLanes, ← List.countP_eq_length_filter]
  rfl

/-- The encodings that a lane's n elements convert to. -/
def laneConversions (s : State) (w : Warp) (h : Head) (dst ty : Ty) (rm : Round) (sat : Bool) (n : Nat)
    (src : Nat → Nat → Nat) (l : Nat) : List Nat :=
  (List.range n).map fun i => Num.convert dst ty rm (seedFor s w h rm n l i) sat (src l i)

section
variable {s : State} {w : Warp} (hw : Issuing s w) (h : Head) (dst ty : Ty) (rm : Round) (sat : Bool) (n : Nat)
  (src : Nat → Nat → Nat)

/-- The run of conversions of an instruction, lane by lane. -/
theorem convertAll_lanes (w : Warp) :
    convertAll dst ty rm sat w.seed.toNat ((Bits.lanes (s.execLanes h)).flatMap fun l => (List.range n).map (src l)) =
      ((Bits.lanes (s.execLanes h)).flatMap (laneConversions s w h dst ty rm sat n src),
        seedAfter rm (n * rank s h 32) w.seed.toNat) := by
  have start : w.seed.toNat = seedAfter rm (n * 0) w.seed.toNat := by cases rm <;> rfl
  have total : ((Bits.lanes (s.execLanes h)).flatMap fun l => (List.range n).map (src l)).length = n * rank s h 32 := by
    simp only [List.length_flatMap, List.length_map, List.length_range, List.map_const', List.sum_replicate_nat,
      length_lanes_execLanes, Nat.mul_comm]
  conv => lhs; rw [start]
  rw [convertAll_eq, total, zipIdx_flatMap_range, zipIdx_lanes_execLanes, List.flatMap_map, List.map_flatMap, Nat.mul_zero,
    Nat.zero_add]
  simp only [List.map_map]
  rfl

include hw

theorem convLanes_eq (res : Nat → List Nat → List RegVal) : s.convLanes h dst ty rm sat n src res =
    ((s.write ((Bits.lanes (s.execLanes h)).flatMap fun l => res l (laneConversions s w h dst ty rm sat n src l))).modCur
      fun x => { x with seed := BitVec.ofNat 32 (seedAfter rm (n * rank s h 32) w.seed.toNat) }).advance := by
  have lengths (l : Nat) : (laneConversions s w h dst ty rm sat n src l).length = n := by simp [laneConversions]
  have shares : ((Bits.lanes (s.execLanes h)).zipIdx.flatMap fun p => res p.1
      ((((Bits.lanes (s.execLanes h)).flatMap (laneConversions s w h dst ty rm sat n src)).drop (n * p.2)).take n)) =
      (Bits.lanes (s.execLanes h)).flatMap fun l => res l (laneConversions s w h dst ty rm sat n src l) := by
    conv => rhs; rw [← List.zipIdx_map_fst 0 (Bits.lanes (s.execLanes h)), List.flatMap_map]
    refine congrArg List.flatten (List.map_congr_left fun p hp => ?_)
    rw [take_drop_flatMap lengths (List.mem_zipIdx_iff_getElem?.1 hp)]
  simp only [State.convLanes, s.curW_eq hw, convertAll_lanes, shares]

/-- What a conversion does, for results of each lane that are v registers of that lane. -/
theorem converts_of_exec {i : Instr} {res : Nat → List Nat → List RegVal} {out : Nat → Nat → Option Word}
    (he : exec i s = .next (s.convLanes h dst ty rm sat n src res))
    (hres : ∀ l es, ∀ r ∈ res l es, r.file = .v ∧ r.lane = l ∧ r.reg < 256)
    (hout : ∀ l r, out l r = if executes s h l then
      (((res l (laneConversions s w h dst ty rm sat n src l)).filter fun x => x.reg == r).getLast?).map
        fun x => x.val.setWidth 32 else none) :
    Converts i s w h rm n out := by
  obtain ⟨w₁, written, frame, regs⟩ := vregs_applyAll (s := s) (w := w) (Bits.lanes (s.execLanes h)) (lanes_nodup _)
    (fun l => res l (laneConversions s w h dst ty rm sat n src l)) (fun l => hres l _) out
    (by intro l r; rw [hout]; simp only [mem_execLanes])
  have paths : w₁.paths = w.paths := by rw [frame]
  refine ⟨{ w₁ with seed := BitVec.ofNat 32 (seedAfter rm (n * rank s h 32) w.seed.toNat) }, ?_, Warp.onward_flowOnly s _, ?_,
    regs, rfl⟩
  · rw [he, convLanes_eq hw, State.write, modCur_put hw, modCur_put (issuing_put s _), put_put]
    subst written
    exact congrArg _ (advance_put hw paths)
  · rw [frame]

end

-- what the forms write

/-- The result of one register of each lane. -/
theorem one_eq_results {s : State} {w : Warp} (hw : Issuing s w) (h : Head) (d : VReg) (f : Nat → Word) (l r : Nat) :
    one s h w d f l r = if executes s h l then
      ((([s.vres l d.toNat (f l)]).filter fun x => x.reg == r).getLast?).map fun x => x.val.setWidth 32 else none := by
  simp only [vres_eq hw, one, eq_comm (a := r)]
  by_cases on : executes s h l
  · by_cases dest : w.phys d.toNat = r <;> simp [on, dest]
  · simp [on]

/-- The results of a pair of each lane. -/
theorem two_eq_results {s : State} {w : Warp} (hw : Issuing s w) (h : Head) (d : VReg) (f : Nat → Dword) (l r : Nat) :
    two s h w d f l r = if executes s h l then
      (((s.vres2 l d.toNat (f l)).filter fun x => x.reg == r).getLast?).map fun x => x.val.setWidth 32 else none := by
  simp only [State.vres2, vres_eq hw, two, eq_comm (a := r)]
  by_cases on : executes s h l
  · by_cases high : w.phys (d.toNat + 1) = r <;> by_cases low : w.phys d.toNat = r <;> simp [on, high, low]
  · simp [on]

theorem vres_placed {s : State} {w : Warp} (hw : Issuing s w) (l d : Nat) (x : Word) :
    (s.vres l d x).file = .v ∧ (s.vres l d x).lane = l ∧ (s.vres l d x).reg < 256 := by
  rw [vres_eq hw]
  exact ⟨rfl, rfl, phys_lt _ _⟩

theorem resW_placed {s : State} {w : Warp} (hw : Issuing s w) (l : Nat) (d : VReg) (wide : Bool) (x : Dword) :
    ∀ r ∈ s.resW l d wide x, r.file = .v ∧ r.lane = l ∧ r.reg < 256 := by
  intro r hr
  cases wide
  · obtain rfl := List.mem_singleton.1 hr
    exact vres_placed hw _ _ _
  · rcases List.mem_cons.1 hr with rfl | hr
    · exact vres_placed hw _ _ _
    · obtain rfl := List.mem_singleton.1 hr
      exact vres_placed hw _ _ _

theorem sum_map_const_mul (c : Nat) (g : Nat → Nat) (xs : List Nat) :
    (xs.map fun i => c * g i).sum = c * (xs.map g).sum := by
  induction xs with
  | nil => rfl
  | cons x xs ih => rw [List.map_cons, List.map_cons, List.sum_cons, List.sum_cons, ih, Nat.mul_add]

/-- Elements packed by their container width. -/
theorem pack_map_range (c n : Nat) (e : Nat → Nat) : Bits.pack ((List.range n).map fun i => (c, e i)) =
    ((List.range n).map fun i => e i % 2 ^ c * 2 ^ (c * i)).sum := by
  induction n generalizing e with
  | zero => rfl
  | succ n ih =>
    have shifted : (fun i => e i % 2 ^ c * 2 ^ (c * i)) ∘ Nat.succ = fun i => 2 ^ c * (e (i + 1) % 2 ^ c * 2 ^ (c * i)) := by
      funext i
      simp only [Function.comp_apply, Nat.succ_eq_add_one, Nat.mul_succ, Nat.pow_add]
      rw [← Nat.mul_assoc, Nat.mul_comm]
    have rest := ih fun i => e (i + 1)
    rw [List.range_succ_eq_map, List.map_cons, List.map_cons, List.map_map, List.map_map, List.sum_cons, shifted,
      sum_map_const_mul, ← rest, Bits.pack, Nat.mul_zero, Nat.pow_zero, Nat.mul_one]
    rfl

theorem packElems_map_range (c n : Nat) (e : Nat → Nat) : packElems c ((List.range n).map e) = packed c e n := by
  rw [packElems, packed, List.map_map, ← pack_map_range]
  rfl

/-- Of elements unpacked into consecutive registers, the last that goes to a register. -/
theorem getLast?_filter_vres {s : State} {w : Warp} (hw : Issuing s w) (l d n r : Nat) (f : Nat → Word) :
    ((((List.range n).map fun i => s.vres l (d + i) (f i)).filter fun x => x.reg == r).getLast?).map
      (fun x => x.val.setWidth 32) = ((List.range n).reverse.find? fun i => r == w.phys (d + i)).map f := by
  have same : ((fun x : RegVal => x.reg == r) ∘ fun i => s.vres l (d + i) (f i)) = fun i => r == w.phys (d + i) := by
    funext i
    simp only [Function.comp_apply, vres_eq hw]
    exact BEq.comm
  have values : ((fun x : RegVal => x.val.setWidth 32) ∘ fun i => s.vres l (d + i) (f i)) = f := by
    funext i
    simp only [Function.comp_apply, vres_eq hw, setWidth_setWidth]
  rw [List.getLast?_filter, ← List.map_reverse, List.find?_map, Option.map_map, same, values]

theorem cvt_spec {s : State} {w : Warp} (hw : Issuing s w) (h : Head) (d a : VReg) (dst src : Ty) (rm : Round) (sat : Bool) :
    let cvt := fun l => BitVec.ofNat 64 (Num.convert dst src rm (seedFor s w h rm 1 l 0) sat
      ((s.srcW l a src.wide).toNat % 2 ^ src.cont))
    Converts (.cvt h d a dst src rm sat) s w h rm 1
      (if dst.wide then two s h w d cvt else one s h w d fun l => (cvt l).setWidth 32) := by
  intro cvt
  refine converts_of_exec hw h dst src rm sat 1 (fun l _ => (s.srcW l a src.wide).toNat % 2 ^ src.cont) rfl
    (fun l es => resW_placed hw l d dst.wide (BitVec.ofNat 64 (es.headD 0))) fun l r => ?_
  cases dst.wide
  · exact one_eq_results hw h d (fun l => (cvt l).setWidth 32) l r
  · exact two_eq_results hw h d cvt l r

theorem packForm_spec {s : State} {w : Warp} (hw : Issuing s w) (h : Head) (d a : VReg) (dst src : Ty) (rm : Round)
    (sat : Bool) : Converts (.pack h d a dst src rm sat) s w h rm dst.packN (one s h w d fun l =>
      packed dst.cont (fun i => Num.convert dst src rm (seedFor s w h rm dst.packN l i) sat (s.rv l (a.toNat + i)).toNat)
        dst.packN) := by
  refine converts_of_exec hw h dst src rm sat dst.packN (fun l i => (s.rv l (a.toNat + i)).toNat) rfl
    (fun l es r hr => ?_) fun l r => ?_
  · obtain rfl := List.mem_singleton.1 hr
    exact vres_placed hw _ _ _
  · rw [laneConversions, packElems_map_range]
    exact one_eq_results hw h d _ l r

theorem unpk_spec {s : State} {w : Warp} (hw : Issuing s w) (h : Head) (d a : VReg) (dst src : Ty) :
    ∃ w₁, exec (.unpk h d a dst src) s = .next (put s (onward s w₁)) ∧ FlowOnly w₁ (onward s w₁) ∧
      w₁ = { w with v := w₁.v } ∧ VRegs s w w₁ fun l r => if executes s h l then
        ((List.range src.packN).reverse.find? fun i => r == w.phys (d.toNat + i)).map fun i =>
          BitVec.ofNat 32 (Num.roundTo dst .rne 0 (Num.decode src
            ((s.rv l a.toNat).toNat / 2 ^ (src.cont * i) % 2 ^ src.cont)))
        else none := by
  obtain ⟨w₁, e, rest⟩ := perLane_v hw h (fun l => (List.range src.packN).map fun i =>
      s.vres l (d.toNat + i) (BitVec.ofNat 32
        (Num.roundTo dst .rne 0 (Num.decode src (Bits.field (s.rv l a.toNat).toNat (src.cont * i) src.cont)))))
    (fun l r hr => by
      obtain ⟨i, -, rfl⟩ := List.mem_map.1 hr
      exact vres_placed hw _ _ _)
    _ (fun l r => by rw [getLast?_filter_vres hw])
  exact ⟨w₁, congrArg _ e, rest⟩

/-- Settles O8, by what a run of conversions does lane by lane (`converts_of_exec`) and the results of each form. -/
theorem conversionResults : Obligations.ConversionResults := by
  unfold Obligations.ConversionResults
  intro s w hw h d a dst src rm sat cvt
  exact ⟨cvt_spec hw h d a dst src rm sat, packForm_spec hw h d a dst src rm sat, unpk_spec hw h d a dst src⟩

end Sys2Proof.Machine
end

section
/-! Predicates (R120, R121) and PART (R122). -/
namespace Sys2Proof.Machine

open Terms

theorem ofBool_getLsbD_zero (b : Bool) : (BitVec.ofNat 64 (Bits.ofBool b)).getLsbD 0 = b := by
  cases b <;> rfl

-- predicates

/-- Bits packed one by one. -/
theorem testBit_pack_bits (g : Nat → Bool) (n i : Nat) :
    (Bits.pack ((List.range n).map fun p => (1, Bits.ofBool (g p)))).testBit i = (decide (i < n) && g i) := by
  induction n generalizing g i with
  | zero => simp [Bits.pack]
  | succ n ih =>
    have step : Bits.pack ((List.range (n + 1)).map fun p => (1, Bits.ofBool (g p))) =
        2 ^ 1 * Bits.pack ((List.range n).map fun p => (1, Bits.ofBool (g (p + 1)))) + Bits.ofBool (g 0) := by
      rw [List.range_succ_eq_map, List.map_cons, List.map_map, Bits.pack, Nat.add_comm]
      cases g 0 <;> rfl
    have low_lt : Bits.ofBool (g 0) < 2 ^ 1 := by cases g 0 <;> decide
    rw [step, Nat.testBit_two_pow_mul_add _ low_lt]
    cases i with
    | zero => cases g 0 <;> rfl
    | succ i => simp [ih]

theorem getLsbD_packedPreds (g : Nat → Bool) (i : Nat) :
    (BitVec.ofNat 32 (Bits.pack ((List.range 8).map fun p => (1, Bits.ofBool (g p))))).getLsbD i = (decide (i < 8) && g i) := by
  rw [BitVec.getLsbD_ofNat, testBit_pack_bits]
  by_cases hi : i < 8
  · simp [hi, show i < 32 by omega]
  · simp [hi]

/-- Of results for p0 to p6, the one for a predicate. -/
theorem filter_pres_range (l : Nat) (g : Nat → Bool) {p : Nat} (hp : p < 7) :
    ((List.range 7).map fun q => State.pres l q (g q)).filter (fun x => x.reg == p) = [State.pres l p (g p)] := by
  have same : ((fun x : RegVal => x.reg == p) ∘ fun q => State.pres l q (g q)) = fun q => q == p := rfl
  rw [List.filter_map, same, List.filter_beq, List.count_range, if_pos hp]
  rfl

theorem hazard_of_hz_nil {s : State} (hz : s.cur.hz = []) (f : RFile) (r l : Nat) (v : Dword) : s.hazard f r l v = v := by
  simp [State.hazard, hz]

-- a uniform write of any file

/-- A uniform result is written when some lane executes, unless an unchecked earlier result keeps it back. -/
theorem uniform_result_spec {s : State} {w : Warp} (hw : Issuing s w) (h : Head) (r : RegVal) :
    ∃ w₁, s.uniform h (fun _ => [r]) = put s (onward s w₁) ∧ FlowOnly w₁ (onward s w₁) ∧
      ((∃ l, executes s h l) ∧ (w₁ = w.apply r ∨ (r.file, r.reg, r.lane) ∈ s.cur.hw ∧ w₁ = w) ∨
        (¬ ∃ l, executes s h l) ∧ w₁ = w) := by
  by_cases some_lane : ∃ l, executes s h l
  · obtain ⟨l, first⟩ := Option.ne_none_iff_exists'.1 (mt firstLane_eq_none.1 (not_not_intro some_lane))
    refine ⟨w.applyAll (kept s [r]), ?_, Warp.onward_flowOnly s _, .inl ⟨some_lane, ?_⟩⟩
    · rw [State.uniform, first]
      exact write_advance hw [r]
    · cases back : s.keptBack r.file r.reg r.lane
      · exact .inl (by simp [kept, back, Warp.applyAll])
      · exact .inr ⟨hw_of_keptBack back, by simp [kept, back, Warp.applyAll]⟩
  · refine ⟨w, ?_, Warp.onward_flowOnly s w, .inr ⟨some_lane, rfl⟩⟩
    rw [State.uniform, firstLane_eq_none.2 some_lane]
    exact advance_eq hw

theorem groupSize_apply (w : Warp) (d : GReg) (size : BitVec 2) (g : Nat) :
    (w.apply ⟨.g, d.toNat, 0, size.setWidth 64⟩).groupSize g = if g = d.toNat then 4 * 2 ^ size.toNat else w.groupSize g := by
  have twice (x : BitVec 2) : 3 - (3 - (x.setWidth 64).setWidth 2).toNat = x.toNat := by revert x; decide
  simp only [Warp.apply, Warp.groupSize, Tab.get_set]
  split
  · rw [twice]
  · rfl

theorem part_spec {s : State} {w : Warp} (hw : Issuing s w) (h : Head) (d : GReg) (size : BitVec 2) :
    ∃ w₁, exec (.part h d size) s = .next (put s (onward s w₁)) ∧ FlowOnly w₁ (onward s w₁) ∧
      w₁ = { w with grp := w₁.grp } ∧ (∀ g, g ≠ d.toNat → w₁.groupSize g = w.groupSize g) ∧
      ((∃ l, executes s h l) → Took s .g d.toNat 0 (w.groupSize d.toNat) (4 * 2 ^ size.toNat) (w₁.groupSize d.toNat)) ∧
      ((¬ ∃ l, executes s h l) → w₁ = w) := by
  obtain ⟨w₁, e, flow, ⟨some_lane, rfl | ⟨hazard, rfl⟩⟩ | ⟨none, rfl⟩⟩ :=
    uniform_result_spec hw h ⟨.g, d.toNat, 0, size.setWidth 64⟩
  · exact ⟨_, congrArg _ e, flow, rfl, fun g hg => by rw [groupSize_apply, if_neg hg],
      fun _ => .inl (by rw [groupSize_apply, if_pos rfl]), fun none => absurd some_lane none⟩
  · exact ⟨_, congrArg _ e, flow, rfl, fun _ _ => rfl, fun _ => .inr ⟨hazard, rfl⟩, fun _ => rfl⟩
  · exact ⟨_, congrArg _ e, flow, rfl, fun _ _ => rfl, fun some_lane => absurd some_lane none, fun _ => rfl⟩

theorem pmov_fromv_spec {s : State} {w : Warp} (hw : Issuing s w) (h : Head) (a : VReg) :
    ∃ w₁, exec (.pmov h (.fromv a)) s = .next (put s (onward s w₁)) ∧ FlowOnly w₁ (onward s w₁) ∧
      w₁ = { w with p := w₁.p } ∧
      PRegs s w w₁ fun l p => if executes s h l then some ((s.rv l a.toNat).getLsbD p) else none := by
  obtain ⟨w₁, e, rest⟩ := perLane_p hw h (fun l => (List.range 7).map fun p => State.pres l p ((s.rv l a.toNat).getLsbD p))
    (fun l r hr => by
      obtain ⟨p, -, rfl⟩ := List.mem_map.1 hr
      exact ⟨rfl, rfl⟩)
    (fun l p => if executes s h l then some ((s.rv l a.toNat).getLsbD p) else none)
    (fun l _ p hp => by
      rw [filter_pres_range l _ hp, List.getLast?_singleton, Option.map_some, State.pres, ofBool_getLsbD_zero])
  exact ⟨w₁, congrArg _ e, rest⟩

/-- Settles O9: PLOP and the forms of PMOV predicate by predicate, PART by `uniform_result_spec`. -/
theorem predicateResults : Obligations.PredicateResults := by
  unfold Obligations.PredicateResults
  refine ⟨?_, fun s w hw h d size => part_spec hw h d size⟩
  intro s w hw h pd pa pb pc spa d a lut or_
  refine ⟨laneP_of_exec hw rfl fun l => rfl, ⟨_, lane32_of_exec hw rfl fun l => rfl, fun l i => getLsbD_packedPreds _ i⟩,
    pmov_fromv_spec hw h a, ⟨_, laneP_of_exec hw rfl fun l => rfl, fun hz => ?sp⟩, fun l => rfl, fun l => ?p7⟩
  case sp => rw [hazard_of_hz_nil hz, ofBool_getLsbD_zero, s.curW_eq hw]
  case p7 => exact BitVec.getLsbD_allOnes

end Sys2Proof.Machine
end
